-- ==== Sys2Proof/Word.lean ====
section
/-! DEFINITION. The word types of the M512 and the names of its number formats (R7, R40). -/

namespace Sys2Proof

/-- One byte of memory, of an entry or of a record. -/
abbrev Byte := BitVec 8

/-- A register or a 32-bit field of the register window (R10). -/
abbrev W32 := BitVec 32

/-- A container, ring-entry or pool word. -/
abbrev W64 := BitVec 64

/-- An operation record, descriptor, pool entry, step-table entry or statistic slot. -/
abbrev W128 := BitVec 128

/-- A tally entry or a T256 value (R55, R80). -/
abbrev W256 := BitVec 256

/-- The number formats of Table 2-1 (R40). -/
inductive Fmt
  | fp32 | bf16 | fp16 | p32 | p16 | p8 | bp8 | bp6 | bp4 | i8 | t256
deriving DecidableEq, Repr

/-- The two rounding modes (R60). -/
inductive Rnd
  | rne | rto
deriving DecidableEq, Repr

end Sys2Proof
end

