-- ==== Sys2Proof/Syntax.lean ====
section
/-! DEFINITION. The commands of the block: one constructor for every row of the opcode table, with what
the command names or what the outside world answers to it. -/

namespace Sys2Proof

/-- What the device reads when it consumes a ring entry: the ring's number; the entry's eight words, used
only where the ring lies in host memory; the bytes that host memory returns at the command's location, and
at its second location (the snapshot of JOB_LOAD) (R245, R249; log 14). -/
structure Fetch where
  ring : Nat
  entry : List W64
  data : List Byte
  snap : List Byte
deriving DecidableEq, Repr

/-- What the checks of Table 11-1 find while a record executes (log 15). -/
inductive Chk where
  /-- every check passes -/
  | ok
  /-- a parity check fails: words 6 and 7 of Table 11-11, the suspect, and whether the data is changed -/
  | parity (w6 w7 : W64) (utype punit : Nat) (corrupt : Bool)
  /-- a residue check fails -/
  | residue (w6 w7 : W64) (utype punit : Nat) (corrupt : Bool)
  /-- a blank strike of the gap before the record fails its residue check: words 6 and 7 (R117, R118, R120) -/
  | strike (w6 w7 : W64)
  /-- a sequencer check fails: word 6, and whether the data is changed (R335) -/
  | sequencer (w6 : W64) (corrupt : Bool)
  /-- a block that the record reads cannot be corrected: space, block number and symbol positions (R270, R271) -/
  | uncorrectable (space block : Nat) (s0 s1 : Byte)
  /-- symbols of a block that the record reads are corrected (R270, R271) -/
  | corrected (space block symbols : Nat)
  /-- an item of the record comes late at a clocked crossing under TIMING_LOCK (Table 12-10) -/
  | late
deriving DecidableEq, Repr

/-- How a block decodes when it is read (Table 9-5, R271). -/
inductive EccOut where
  | clean
  | corrected (symbols : Nat)
  | uncorrectable (s0 s1 : Byte)
  | poison
deriving DecidableEq, Repr

/-- A 64-byte block of a resident job's memory: space 0 till, 1 vault, 2 HBM; with job 0, of memory that no job
owns, by core, bank group or channel in `slot` (R272). -/
structure MemLoc where
  job : BitVec 16
  space : Nat
  slot : Nat
  block : Nat
deriving DecidableEq, Repr

/-- A control record: the segment's place and what the checks of the record find (R230, R335). -/
structure ControlRec where
  d : Nat
  chk : Chk
deriving DecidableEq, Repr

/-- A ramp down of a core's strikes and what their own checks found (R118, R120). -/
structure StrikeEnd where
  core : Nat
  chk : Chk
deriving DecidableEq, Repr

/-- A folio claim: the teller that sends it, and whether the member's teller has been warm reset since it claimed
(R326; log 16). -/
structure FolioClaim where
  teller : BitVec 16
  released : Bool
deriving DecidableEq, Repr

/-- A wait for contributions: the job, and which of those that its run awaits has reached its TIMEOUT (R323). -/
structure CollTimeout where
  job : BitVec 16
  which : Nat
deriving DecidableEq, Repr

/-- What the host writes into the PCIe function's configuration space (Table 10-15; log 4): where its BARs lie, its power
state, its limits, ECRC, and whether the AER status is cleared. -/
structure PcieCfg where
  bar0 : W64
  bar2 : W64
  d3hot : Bool
  maxPayload : Nat
  maxRead : Nat
  ecrc : Bool
  aerClear : Bool
deriving DecidableEq, Repr

/-- The host's write of an entry of the MSI-X table: address, data and vector control (R328, R330); and what it has
written into the function's configuration space before it, for which the table of commands has no row (log 4). -/
structure MsixWrite where
  vector : Nat
  addr : W64
  data : W32
  ctl : W32
  cfg : Option PcieCfg
deriving DecidableEq, Repr

/-- One region's hourly measurements: for each, in the order in which `replan` takes them, the rates of the 16 monitors;
the temperature; the lag shares of the 18 cores (R392, R393). -/
structure RegionMeas where
  rates : List (List Nat)
  temp : BitVec 16
  lag : List Nat
deriving DecidableEq, Repr

/-- What a core does wrong in a vector of the start-up assay: the digest that it gives in run A and in run B, where that
is not the one that a core computing right gives, and whether the run raises an event of Table 11-1 on it or exceeds its
time (R381, R382, R385, R387). -/
structure AssayFail where
  core : Nat
  set : Nat
  vector : Nat
  first : Option W128
  event : Bool
  second : Option W128
  eventAgain : Bool
deriving DecidableEq, Repr

/-- A partner's HELLO (Table 10-9, order 1), and the message's own bytes. -/
structure Hello where
  /-- the partner has an identifier record in effect (R326; log 16) -/
  record : Bool
  id : BitVec 16
  pos : BitVec 4
  teller : Bool
  nonce : List Byte
  svn : W32
  cert : List Byte
  issuer : List Byte
  enc : Bool
  kem : List Byte
  x25519 : List Byte
  bytes : List Byte
deriving DecidableEq, Repr

/-- A partner's RESPONSE (Table 10-9, order 5). -/
structure Sigs where
  ed : List Byte
  mldsa : List Byte
  cipher : List Byte
deriving DecidableEq, Repr

/-- A port's first attempt: the lanes that each end finds healthy, what the partner sends, and the order at which the
attempt times out where it sends no more (R309, R310). -/
structure PortAttempt where
  port : Nat
  lanes : BitVec 8
  partner : BitVec 8
  hello : Option Hello
  sigs : Option Sigs
  late : Nat
deriving DecidableEq, Repr

/-- A fault on a rail during power-up: the rail in the order of Table 15-7, the cause, the rail's voltage, and whether
a region's regulator restarts (R436). -/
structure RailAnswer where
  rail : Nat
  cause : Nat
  mv : Nat
  restarted : Bool
deriving DecidableEq, Repr

/-- What the module and its surroundings answer during a start-up (Table 14-1, Table 15-8): straps, MREF,
the rails, HBM training, the memory test, the assay, damage of flash, the ports and the PCIe link. -/
structure StartEnv where
  tellerEn : Bool
  folioPos : BitVec 4
  /-- MREF runs, and the input in millivolts when PWR_EN is asserted (Table 15-8) -/
  mref : Bool
  inMv : Nat
  /-- a rail that fails during power-up (Table 15-9) -/
  rail : Option RailAnswer
  /-- pseudo-channels that fail training -/
  trainFail : List Nat
  /-- vault bank groups that fail the memory test, by PUNIT -/
  vaultFail : List Nat
  /-- cores whose till fails the memory test -/
  tillFail : List Nat
  assay : List AssayFail
  /-- damage that the flash has taken: 0 and 1 the copies of the boot control block, 2 and 3 those of the
  security-version chain, 4 and 5 the image slots (log 30) -/
  torn : List Nat
  /-- first training and admission attempt of every port whose lanes lock (order 6 of Table 14-1) -/
  ports : List PortAttempt
  /-- PCIe link width and generation of a teller -/
  link : Nat × Nat
deriving DecidableEq, Repr

/-- The result of an assay run: for each vector that it ran, in table order, the digest that the core gave where it is
not the one that a core computing right gives, and whether the run raised an event of Table 11-1 on the core (R381,
R385). -/
structure AssayRun where
  digests : List (Option W128)
  event : Bool
deriving DecidableEq, Repr

/-- The commands: the rows of the opcode table, in its order. Numbers name a device slot (`d`), a job, a
physical core, a region, a pseudo-channel, a stack, a base die, a port or a register page. -/
inductive Instr where
  /-- JOB_LOAD (R248): Host command that verifies and lowers a binary, loads its initial images or snapshot and makes the job resident. -/
  | jobLoad (f : Fetch)
  /-- STEP_RUN (R248): Host command that queues a chain of step templates for a job. -/
  | stepRun (f : Fetch)
  /-- SNAPSHOT (R252): Host command that requests an image of the job's posted state at the next step boundary. -/
  | snapshot (f : Fetch)
  /-- JOB_END (R248): Host command that ends a job after its current step. -/
  | jobEnd (f : Fetch)
  /-- JOB_END_EFFECT (R238): Once the job's current step has posted or ended, the job ends and its rings are freed. -/
  | jobEndEffect (job : BitVec 16)
  /-- JOB_ABORT (R238): Host command that discards the job's shadow and ends the job at once. -/
  | jobAbort (f : Fetch)
  /-- RING_ALLOC (R246): Host command that allocates the lowest free ring number at or above 16 for a ring descriptor. -/
  | ringAlloc (f : Fetch)
  /-- RING_FREE (R246): Host command that frees a ring. -/
  | ringFree (f : Fetch)
  /-- SEQ_OPEN (R255): Host command that takes the lowest free sequence table entry. -/
  | seqOpen (f : Fetch)
  /-- SEQ_CLOSE (R255): Host command that frees a sequence entry, or marks it closing while it still has requests in an open batch. -/
  | seqClose (f : Fetch)
  /-- BOUNDARY (R256): Host command that writes a boundary marker entry at the TAIL of a sequence request ring. -/
  | boundary (f : Fetch)
  /-- DIE_BANK (R193): Host command that verifies a die bank record and writes it into the inactive die bank of every unfenced core. -/
  | dieBank (f : Fetch)
  /-- DIE_BANK_SWITCH (R193): At the named switch step, each core of the job exchanges its active and inactive die banks at its first former instruction boundary. -/
  | dieBankSwitch (core : Nat)
  /-- ASSAY_INSTALL (R380): Host command that verifies an assay set and writes it into the assay store. -/
  | assayInstall (f : Fetch)
  /-- ASSAY_REMOVE (R380): Host command that erases an assay set's slot. -/
  | assayRemove (f : Fetch)
  /-- ASSAY_REQUEST (R386): Host command that assays a physical core, the host of a logical core, or a region, on demand. -/
  | assayRequest (f : Fetch)
  /-- FW_STAGE (R416): Host command that verifies a firmware image and writes it to the inactive slot. -/
  | fwStage (f : Fetch)
  /-- FW_SWITCH (R417): Host command that reads and re-verifies the staged image and requests a live switch-over at the next step boundary. -/
  | fwSwitch (f : Fetch)
  /-- FW_COMMIT (R413): Host command that clears TRIAL and appends the image's security-version record when R413 allows. -/
  | fwCommit (f : Fetch)
  /-- CONFIG_INSTALL (R403): Host command that verifies and writes a signed configuration record. -/
  | configInstall (f : Fetch)
  /-- ATTEST (R412): Host command that writes an attestation report signed by the device identity. -/
  | attest (f : Fetch)
  /-- WARM_RESET (R420): Warm reset: every job ends, the flash queue drains, and start-up runs from order 2. -/
  | warmReset (f : Fetch) (env : StartEnv)
  /-- SEQUENCE_REQUEST (R256): A request entry consumed from a sequence request ring is accepted into a batch at the sequence's LENGTH, or refused with a completion. -/
  | sequenceRequest (f : Fetch)
  /-- BOUNDARY_MARKER (R123): A host boundary marker consumed from a sequence request ring closes a non-empty batch whose rule enables it. -/
  | boundaryMarker (f : Fetch)
  /-- BATCH_TIMER (R122): A batch's close timer expires and the batch closes. -/
  | batchTimer (job : BitVec 16) (lcore : Nat) (rule : Nat)
  /-- NOP (R230): Control record that does nothing. -/
  | nop (d : Nat) (chk : Chk)
  /-- STEP_BEGIN (R230): Control record that opens a segment and clears every token. -/
  | stepBegin (d : ControlRec)
  /-- STEP_END (R230): Control record that completes when every record of its segment has completed. -/
  | stepEnd (d : ControlRec)
  /-- RNG_FILL (R242): Record that fills a tile with raw, uniform or keep-mask values of a ChaCha20 random stream. -/
  | rngFill (d : Nat) (chk : Chk)
  /-- MOVE (R280): Carder record pair that copies, or transposes, a rectangle between till, vault and HBM. -/
  | move (d : Nat) (chk : Chk)
  /-- MOVE_LANDS (R283): A move's last byte is written and parity-checked, the move completes and it may signal an arrival token. -/
  | moveLands (d : Nat) (idx : Nat) (chk : Chk)
  /-- ATOM_T256 (R284): Record that adds T256 elements of a till source into an HBM accumulator region at the atomic unit. -/
  | atomT256 (d : Nat) (chk : Chk)
  /-- ATOM_FP32 (R284): Record that adds FP32 elements of a till source into an HBM accumulator region at the atomic unit. -/
  | atomFp32 (d : Nat) (chk : Chk)
  /-- MILL_LOAD (R105): Record that expands a weight tile into planchets and writes it into a weight register, one PE row per beat. -/
  | millLoad (d : Nat) (chk : Chk)
  /-- MILL_PASS (R128): Record that streams activation rows through a resident weight tile into tally lanes. -/
  | millPass (d : Nat) (chk : Chk)
  /-- RECORD_COMPLETE (R227): A record reaches its completion event and signals its token. -/
  | recordComplete (d : Nat) (idx : Nat)
  /-- ADD (R138): Finisher instruction that forms a + b and rounds it once. -/
  | add (d : Nat) (chk : Chk)
  /-- SUB (R138): Finisher instruction that forms a − b and rounds it once. -/
  | sub (d : Nat) (chk : Chk)
  /-- MUL (R138): Finisher instruction that forms a × b and rounds it once. -/
  | mul (d : Nat) (chk : Chk)
  /-- MAD (R138): Finisher instruction that forms a × b + c with a single rounding. -/
  | mad (d : Nat) (chk : Chk)
  /-- MIN (R138): Finisher instruction that writes the smaller of a and b. -/
  | min (d : Nat) (chk : Chk)
  /-- MAX (R138): Finisher instruction that writes the larger of a and b. -/
  | max (d : Nat) (chk : Chk)
  /-- ABS (R138): Finisher instruction that writes abs(a). -/
  | abs (d : Nat) (chk : Chk)
  /-- NEG (R138): Finisher instruction that writes −a. -/
  | neg (d : Nat) (chk : Chk)
  /-- CVT (R138): Finisher instruction that converts a, including quantised stores. -/
  | cvt (d : Nat) (chk : Chk)
  /-- SEL (R138): Finisher instruction that selects a or b by the sign of c. -/
  | sel (d : Nat) (chk : Chk)
  /-- CMPGE (R138): Finisher instruction that writes 1 if a ≥ b and 0 otherwise. -/
  | cmpge (d : Nat) (chk : Chk)
  /-- FIN_DRAIN (R142): Finisher record that drains tally row-entries, with optional fusion, into a destination and writes the drain status. -/
  | finDrain (d : Nat) (chk : Chk)
  /-- FIN_REDUCE (R150): Finisher record that adds shard partials in shard-index or landing order. -/
  | finReduce (d : Nat) (chk : Chk)
  /-- FIN_CHECK (R154): Finisher record that tests row statistics against a plausibility envelope. -/
  | finCheck (d : Nat) (chk : Chk)
  /-- FRM_EVAL (R179): Former record that computes act(x + b) × s through a die. -/
  | frmEval (d : Nat) (chk : Chk)
  /-- FRM_SMAX_ACC (R183): Former record that folds a row's elements into its softmax row state. -/
  | frmSmaxAcc (d : Nat) (chk : Chk)
  /-- FRM_SMAX_OUT (R184): Former record that writes softmax outputs from the row state. -/
  | frmSmaxOut (d : Nat) (chk : Chk)
  /-- FRM_RMS (R186): Former record that applies RMS normalisation using the row statistics. -/
  | frmRms (d : Nat) (chk : Chk)
  /-- COLL_SEND (R321): Contribution record pair that copies a rectangle to a send buffer and streams it to another shard. -/
  | collSend (d : Nat) (chk : Chk)
  /-- STEP_SELECT (R237): The bursar selects the earliest-requested step that can begin, opens a new generation and clears the per-step state. -/
  | stepSelect
  /-- STEP_BOUNDARY (R377): A device step boundary opens, and the work assigned to it is done before the next step reaches order 2. -/
  | stepBoundary (restored : Bool) (us : Nat)
  /-- STEP_CHECK (R237): When every slot of a run has completed STEP_END, the run's integrity events, CHECK verdicts and traps are evaluated and its countersigns are sent. -/
  | stepCheck (job : BitVec 16)
  /-- STEP_POST (R237): Once every countersign the step read has verified, the step posts: generation G + 1 becomes current, stages apply, and hallmarks and STEP_POSTED are written. -/
  | stepPost (job : BitVec 16)
  /-- ESCROW_WRITE_BACK (R275): A posted HBM shadow page is written back to its home location in background slots. -/
  | escrowWriteBack (job : BitVec 16) (page : Nat)
  /-- RECOUNT_RUN (R341): A further run of a step starts from its held inputs, on provisional or original hosts. -/
  | recountRun (job : BitVec 16)
  /-- WATCHDOG (R336): A run exceeds its watchdog limit, is stopped and is recounted. -/
  | watchdog (job : BitVec 16) (limit : Nat) (elapsed : Nat) (die : Nat)
  /-- LOCKSTEP (R337): The bursar cores diverge, restart from the checkpoint, and halt the device at the third divergence within an hour. -/
  | lockstep (pc0 : W64) (pc1 : W64)
  /-- REGENERATION (R240): A poisoned regenerable region's producing templates are re-executed at their recorded step counters. -/
  | regeneration (job : BitVec 16) (desc : BitVec 12)
  /-- SCRUB (R272): Patrol scrub reads a block in a background slot and handles it by the ECC rules. -/
  | scrub (loc : MemLoc) (ecc : EccOut)
  /-- ECC_REWRITE (R270): A corrected or uncorrectable HBM block is rewritten in the next background slot of its channel. -/
  | eccRewrite (loc : MemLoc) (bad : Bool)
  /-- RETIREMENT (R292): A retirement candidate's contents are moved to the sparing reserve, the map is rebuilt, and the channel is fenced. -/
  | retirement
  /-- SPARING_REFILL (R293): Free program frames become sparing frames once the resident jobs fit the reduced capacity. -/
  | sparingRefill
  /-- ARREARS_PROMOTED (R390): A background user's arrears reach its limit, and the user is promoted. -/
  | arrearsPromoted (user : Nat) (arrears : Nat)
  /-- ASSAY_ROTATION (R383): A rotation stream's next core falls due for assay. -/
  | assayRotation (die : Nat)
  /-- ASSAY_RUN_END (R387): An assay run completes, and a second run or a verdict follows. -/
  | assayRunEnd (core : Nat) (run : AssayRun)
  /-- AGEING (R392): The hourly re-plan measures each region and adjusts its voltage or target. -/
  | ageing (meas : List RegionMeas)
  /-- SUMMARY_FOLD (R356): Hourly fold of unit counts into the flash per-unit summary. -/
  | summaryFold
  /-- BLANK_STRIKE_RAMP_DOWN (R118): An unplanned gap reaches the strike threshold, and strikes ramp down. -/
  | blankStrikeRampDown (core : StrikeEnd)
  /-- POWER_CAP (R36): At the end of each 1 ms interval, the governor lowers or raises the power cap. -/
  | powerCap (watts : Nat)
  /-- POWER_OVER (R438): Input power stays above 3,200 W at the lowest cap for 100 ms, and an event and ALERT_N follow. -/
  | powerOver (watts : Nat)
  /-- THERMAL_CAP (R442): Every 100 µs each region's thermal cap is set from its hottest sensor. -/
  | thermalCap (temps : List (BitVec 16))
  /-- THERMAL_ALERT (R441): A region, base die or HBM stack reaches its alert temperature. -/
  | thermalAlert (point : Nat) (unit : Nat) (temp : BitVec 16)
  /-- COOLANT (R441): The coolant inlet stays above 45 °C for 1 s. -/
  | coolant (inlet : BitVec 16) (outlet : BitVec 16)
  /-- THERMTRIP (R443): A trip temperature switches off every rail but the management rails and asserts THERMTRIP_N. -/
  | thermtrip (point : Nat) (unit : Nat) (temp : BitVec 16)
  /-- REFRESH_DOUBLED (R269): A stack reaches 85 °C, and its pseudo-channels switch to the doubled refresh form. -/
  | refreshDoubled (stack : Nat) (temp : BitVec 16)
  /-- REFRESH_NORMAL (R269): After 10 ms below 82 °C, a stack returns to the normal refresh form. -/
  | refreshNormal (stack : Nat) (temp : BitVec 16)
  /-- FLASH_GATE_CLOSE (R418): The input stays below 47.0 V for 10 µs, flash writes are gated, and an erase in progress is suspended. -/
  | flashGateClose (mv : Nat)
  /-- FLASH_GATE_OPEN (R418): The input rises above 47.5 V, and queued flash writes are applied. -/
  | flashGateOpen (mv : Nat)
  /-- SAG_CAP (R429): The input falls below 45.5 V, and all self-timed domains are capped at 1.0 G beats/s. -/
  | sagCap (mv : Nat)
  /-- SAG_CAP_END (R429): The input returns to 45.5 V or more, and the sag cap lifts. -/
  | sagCapEnd (mv : Nat)
  /-- QUIESCE (R431): The input falls below 44.0 V, and the module quiesces with every step held. -/
  | quiesce (mv : Nat)
  /-- QUIESCE_END (R429): The input stays at or above 44.0 V for 1 ms, and service resumes. -/
  | quiesceEnd (mv : Nat)
  /-- OVERVOLTAGE (R428): The input stays above 57.0 V for 100 µs, and the module quiesces. -/
  | overvoltage (mv : Nat)
  /-- OVERVOLTAGE_END (R428): The input stays at or below 56.0 V for 1 ms, and service resumes. -/
  | overvoltageEnd (mv : Nat)
  /-- POWER_LOSS (R432): The input falls below 40.0 V for 50 µs, or PWR_EN is deasserted, and every rail but the management rails switches off. -/
  | powerLoss (mv : Nat) (pwrEn : Bool)
  /-- POWER_UP (R434): Assertion of PWR_EN brings the rails up in sequence and releases PWRGD. -/
  | powerUp (env : StartEnv)
  /-- RAIL_FAULT (R436): A rail undervoltage, overcurrent or regulator over-temperature restarts the regulator, fences the region, or halts the device. -/
  | railFault (rail : Nat) (cause : Nat) (mv : Nat) (restarted : Bool)
  /-- PERST_N (R420): Assertion of PERST_N requests a warm reset. -/
  | perstN (env : StartEnv)
  /-- HOT_RESET (R327): A PCIe hot reset causes a warm reset of the teller. -/
  | hotReset (env : StartEnv)
  /-- FLR (R327): A PCIe function-level reset causes a warm reset of the teller. -/
  | flr (env : StartEnv)
  /-- RELAY_READ (R328): A host BAR0 read of a folio member's window is relayed as RD. -/
  | relayRead (pos : Nat) (off : W32)
  /-- RELAY_WRITE (R328): A host BAR0 write to a folio member's window is relayed as WR. -/
  | relayWrite (pos : Nat) (off : W32) (data : W32) (env : StartEnv)
  /-- RELAY_TIMEOUT (R328): A relayed access is not answered within 1 ms. -/
  | relayTimeout (port : Nat) (tag : Nat)
  /-- SIDEBAND_READ (R445): Sideband command that reads one register. -/
  | sidebandRead (off : W32) (ok : Bool)
  /-- SIDEBAND_WRITE (R445): Sideband command that writes one register. -/
  | sidebandWrite (off : W32) (data : W32) (ok : Bool) (env : StartEnv)
  /-- SIDEBAND_ALERT (R445): Sideband command that returns the alert cause word. -/
  | sidebandAlert (off : W32) (ok : Bool)
  /-- SIDEBAND_RESET (R445): Sideband command that requests a warm reset. -/
  | sidebandReset (off : W32) (ok : Bool) (env : StartEnv)
  /-- ENTDAA (R444): I3C CCC that assigns a dynamic address. -/
  | entdaa (addr : BitVec 7)
  /-- SETDASA (R444): I3C CCC that sets the dynamic address from the static address. -/
  | setdasa (static : BitVec 7) (addr : BitVec 7)
  /-- RSTDAA (R444): I3C CCC that resets the dynamic address. -/
  | rstdaa
  /-- ENEC (R444): I3C CCC that enables in-band interrupts. -/
  | enec
  /-- DISEC (R444): I3C CCC that disables in-band interrupts. -/
  | disec
  /-- GETPID (R444): I3C CCC that returns the provisional ID. -/
  | getpid
  /-- GETBCR (R444): I3C CCC that returns the bus characteristics register. -/
  | getbcr
  /-- GETDCR (R444): I3C CCC that returns the device characteristics register. -/
  | getdcr
  /-- GETSTATUS (R444): I3C CCC that returns the target status. -/
  | getstatus
  /-- RSTACT (R444): I3C CCC whose whole-target action requests a warm reset. -/
  | rstact (action : Byte) (env : StartEnv)
  /-- LANE_DROP (R298): A lane loses lock or exceeds its corrected-symbol ratio, and the port retrains to a narrower width. -/
  | laneDrop (port : Nat) (lane : Nat)
  /-- TRAINING (R309): A port attempts training and chooses a width, or returns to DOWN. -/
  | training (port : Nat) (lanes : BitVec 8) (partner : BitVec 8)
  /-- HELLO (R310): A partner's HELLO is received, and its certificates, security version and binding are checked. -/
  | hello (port : Nat) (hello : Hello)
  /-- RESPONSE (R310): A partner's RESPONSE signatures are verified, session keys are derived, and the port becomes ADMITTED. -/
  | response (port : Nat) (sigs : Sigs)
  /-- AUTH_FAIL (R310): Admission fails or times out, and the port enters AUTH_FAIL. -/
  | authFail (port : Nat) (order : Nat)
  /-- BINDING_FORWARD (R311): A binding forwarded by an admitted partner is entered in the binding table, or refused. -/
  | bindingForward (port : Nat) (id : BitVec 16) (digest : W64)
  /-- FOLIO_CLAIM (R326): A member receives a folio claim and accepts or refuses it. -/
  | folioClaim (port : Nat) (pos : Nat) (teller : FolioClaim)
  /-- FLIT_RECEIVE (R300): A flit is received: its CRC and sequence are checked, ACK and credits are taken, and its payload is delivered or a replay is requested. -/
  | flitReceive (port : Nat) (flit : List Byte) (corrected : Nat)
  /-- REPLAY_REQUEST (R300): A received replay request makes the sender resend from the flit after ACK. -/
  | replayRequest (port : Nat)
  /-- ACK_TIMER (R313): The oldest unacknowledged flit reaches the acknowledge timer, and the sender resends from it. -/
  | ackTimer (port : Nat)
  /-- SILENCE_TIMER (R313): No flit is received for the silence time, and the port goes DOWN. -/
  | silenceTimer (port : Nat)
  /-- SLOW_PARTNER (R313): A VC with flits waiting gets no credit for the starvation time. -/
  | slowPartner (port : Nat) (vc : Nat)
  /-- TAG_ABORT (R304): A tag's CPL does not arrive within the transaction timer, and the tag is freed with ABORT. -/
  | tagAbort (port : Nat) (tag : Nat)
  /-- RD (R303): Received read transaction, served inside an access window. -/
  | rd (port : Nat)
  /-- WR (R303): Received write transaction, landing in escrow inside an access window. -/
  | wr (port : Nat) (chk : Chk) (env : StartEnv)
  /-- AT256 (R303): Received T256 atomic add transaction. -/
  | at256 (port : Nat) (chk : Chk)
  /-- AFP32 (R303): Received FP32 atomic add transaction. -/
  | afp32 (port : Nat) (chk : Chk)
  /-- CPL (R303): Received completion that completes an outstanding tag. -/
  | cpl (port : Nat)
  /-- DB (R303): Received doorbell transaction that advances a ring's TAIL. -/
  | db (port : Nat)
  /-- MSG (R317): Received message stream entry, accepted in SEQ order or answered with RETRY. -/
  | msg (port : Nat)
  /-- CSGN (R322): Received countersign, compared against the landed contribution. -/
  | csgn (port : Nat)
  /-- VOID (R322): Received void that retracts or finalises a contribution. -/
  | void (port : Nat)
  /-- INT (R330): Received interrupt request; the teller sends or pends an MSI-X vector. -/
  | intr (port : Nat)
  /-- MSG_RESEND (R317): After a RETRY, the producer resends from the refused entry 2 µs later. -/
  | msgResend (ring : Nat)
  /-- CONTRIB_RESEND (R321): After a RETRY_STEP, a contribution transaction is resent 2 µs later. -/
  | contribResend (send : Nat)
  /-- COLL_WAIT (R323): A contribution wait reaches its plan TIMEOUT, and the device reports and keeps waiting. -/
  | collWait (job : CollTimeout)
  /-- PORT_ENABLE (R456): A write of PAGE_CTRL.ENABLE holds a port in DOWN, or resumes its training. -/
  | portEnable (port : Nat) (on : Bool)
  /-- FENCE_REQ (R456): A write of PAGE_CTRL.FENCE_REQ fences or retires the page's unit. -/
  | fenceReq (page : Nat)
  /-- UNFENCE_REQ (R456): A write of PAGE_CTRL.UNFENCE_REQ assays a fenced core for return, or restarts a region's rail. -/
  | unfenceReq (page : Nat)
  /-- STAGE_COMMIT (R14): A write of PAGE_CTRL.STAGE_COMMIT applies the page group's stage. -/
  | stageCommit (page : Nat)
  /-- DEV_CTL (R457): A write of DEV_CTL stages PROOF_EN and TIMING_LOCK. -/
  | devCtl (data : W32)
  /-- DEV_CTL_RESET (R457): A write of 0xA5A5 to DEV_CTL.RESET requests a warm reset. -/
  | devCtlReset (env : StartEnv)
  /-- EVT_FORCE (R455): A write of EVT_FORCE arms an injected event for the unit's next check. -/
  | evtForce (page : Nat) (data : W32)
  /-- EVT_COUNT (R451): A read of EVT_COUNT returns the unit's event count and clears it. -/
  | evtCount (page : Nat)
  /-- LDG_DB_VALUE (R460): A doorbell write sets the TAIL or HEAD of the ring that LDG_DB_RING names, or is discarded. -/
  | ldgDbValue (data : W32)
  /-- LDG_DB_DISCARD (R460): A read of LDG_DB_DISCARD returns the discarded-doorbell count and clears it. -/
  | ldgDbDiscard
  /-- ERR_POP (R460): A write of ERR_POP advances the error ledger's HEAD. -/
  | errPop (data : W32)
  /-- ERR_IRQ (R351): A write of ERR_IRQ sets ring 2's interrupt enable and vector. -/
  | errIrq (data : W32)
  /-- ADM_CMD_PUSH (R247): A write of ADM_CMD_PUSH writes the staged command entry to ring 0 and advances TAIL. -/
  | admCmdPush (data : W32)
  /-- ADM_CPL_POP (R247): A write of ADM_CPL_POP advances ring 1's HEAD. -/
  | admCplPop (data : W32)
  /-- COUNTER_LO_READ (R11): A read of a counter's LO register latches HI for the next read. -/
  | counterLoRead (off : W32)
  /-- COUNTER_LO_WRITE (R11): A write of a writable counter's LO register is held. -/
  | counterLoWrite (off : W32) (data : W32)
  /-- COUNTER_HI_WRITE (R11): A write of a writable counter's HI register loads both halves. -/
  | counterHiWrite (off : W32) (data : W32)
  /-- MON_SEL (R397): A write of MON_SEL selects a quantity and base and clears the capture. -/
  | monSel (page : Nat) (data : W32)
  /-- MON_CTL_CLEAR (R397): A write of MON_CTL.CLEAR clears the monitor capture and snapshot. -/
  | monCtlClear (page : Nat)
  /-- MON_COUNT_LO (R398): A read of MON_COUNT_LO takes a monitor snapshot. -/
  | monCountLo (page : Nat)
  /-- SNAP (R463): A write of MONG_CTL.SNAP snapshots every monitor window of the device at one instant. -/
  | snap
  /-- CLEAR_ALL (R463): A write of MONG_CTL.CLEAR_ALL clears every monitor window at one instant. -/
  | clearAll
  /-- FWD_DATA (R458): An access to FWD_DATA reads or writes four forwarding entries and advances FWD_INDEX. -/
  | fwdData (write : Bool) (data : W32)
  /-- REC_DATA (R457): A write of REC_DATA stores a recovery word and advances REC_PTR. -/
  | recData (data : W32)
  /-- PIECE_DONE (R457): A write of REC_CTL.PIECE_DONE stores the recovery piece. -/
  | pieceDone
  /-- FINISH (R421): A write of REC_CTL.FINISH verifies and installs the recovery image. -/
  | finish (env : StartEnv)
  /-- ABORT (R457): A write of REC_CTL.ABORT discards every stored recovery piece. -/
  | abort
  /-- BUR_WIN_SEL (R461): A write of BUR_WIN_SEL copies an ageing entry, log entry or measurement into the bursar window. -/
  | burWinSel (data : W32)
  /-- CORE_WIN_SEL (R470): A write of CORE_WIN_SEL copies a core debug item into the core window. -/
  | coreWinSel (core : Nat) (data : W32)
  /-- RELEASE (R316): A write of PORT_CTL.RELEASE releases a quarantined port to TRAINING. -/
  | release (port : Nat)
  /-- FOLIO_ENT (R464): A write of a folio table entry that sets VALID sends a folio claim. -/
  | folioEnt (pos : Nat) (data : W32)
  /-- TEL_RELAY_TO (R464): A read of TEL_RELAY_TO returns the relay timeout count and clears it. -/
  | telRelayTo
  /-- REGISTER_WRITE (R13): A write of a register with no row of its own, under its access code and the reserved-field rules. -/
  | registerWrite (off : W32) (data : W32) (env : StartEnv)
  /-- THERMAL_ALERT_CLEAR (R441): A region, base-die or HBM-stack temperature, or the coolant inlet, falls 2 °C below its alert threshold, and the alert and its ALERT_N cause clear. -/
  | thermalAlertClear (point : Nat) (unit : Nat) (temp : BitVec 16)
  /-- MONITOR_SAMPLE (R398): A periodic monitor sample (every 10 µs, 1 ms or 1 s) is folded into the MIN, MAX, COUNT and histogram of each window selecting that quantity. -/
  | monitorSample (page : Nat) (quantity : Nat) (value : Int)
  /-- MSIX_UNMASK (R330): The host unmasks an MSI-X vector in the teller's BAR2 table, and a vector whose pending bit is set is sent. -/
  | msixUnmask (vector : MsixWrite)
  /-- ASSAY_RUN_LIMIT (R385): An assay run reaches twice RUN_MS without completing, is stopped and counts as a failed run. -/
  | assayRunLimit (core : Nat)
  /-- RUN_TIME_RETRAINING (R291): A pseudo-channel is retrained in service, and a failure makes it a retirement candidate. -/
  | runTimeRetraining (chan : Nat) (ok : Bool)
  /-- FLASH_WRITE_END (R418): A flash program or erase sequence ends, such as the slot write of FW_STAGE with its header written last, and the waiting command's completion is written. -/
  | flashWriteEnd
deriving DecidableEq, Repr

end Sys2Proof
end

