-- ==== Sys2Proof/Decode.lean ====
section
/-! DEFINITION. The words of the opcode table: no row gives any bits, so no word spells a command (log 19). -/

namespace Sys2Proof

/-- The command that a word spells by the table's bits: none, since no row has a field. -/
def decodeTableWord (_nbits _w : Nat) : Option Instr := none

end Sys2Proof
end

