-- ==== Sys2Proof/Config.lean ====
section
/-! DEFINITION. What the spec leaves open and what named standards outside it compute: constants
without a body, so that no proof can see a value of them. -/

namespace Sys2Proof

/-- The free values of the manual (an undefined value after which the machine goes on), indexed by
State's counter `freeCtr` (log 2). -/
opaque Config.freeNat : Nat → Nat

/-- A word of the recovery window that the host has not written, by piece and word (R457, R458; log 33). -/
opaque Config.recoveryWord (piece word : Nat) : Nat

/-- Where between two neighbouring internal words the word of a built-in die changes, as a part of 2^64 of
their distance, by die slot and lower word (R167; log 11). -/
opaque Config.dieSplit (slot place : Nat) : Nat

/-- How far the word that a built-in die passes to RND lies from its function's value, by die slot and
place among the internal words (monotone dies) or input word (the others) (R166, R167, R185; log 11). -/
opaque Config.dieError (slot place : Nat) : Nat

/-- The step words and the constants of the built-in dies other than recip, which the spec does not
print (R164, R176; log 11). -/
opaque Config.builtinSteps (slot : Nat) : List Nat
opaque Config.builtinConsts (slot : Nat) : List Nat

/-- Where in a built-in die's constant table a value stands that Table 6-7 names: the spec does not print the
tables (R176; log 11). -/
opaque Config.constPlace (slot : Nat) : Nat

/-- A value that the spec does not define in a record of a step, by the record's place (`recordPlace`) and the
element concerned: it depends on nothing outside Table 12-1 (R133, R184, R357; logs 2, 47). -/
opaque Config.recordFree (place element : Nat) : Nat

/-- A value that the spec does not define in a die: of a step, and of the registers before the first step,
from slot, input and step or register (log 11). -/
opaque Config.dieFree (slot input step : Nat) : Nat

/-- The vault bank group, by its place among those in service, that holds a 256-byte line whose own group was
withdrawn: the spec does not say which (R339; log 49). -/
opaque Config.vaultHome (die line : Nat) : Nat

/-- What the reads of a retired channel's frames find, block by block, by channel and `freeCtr` (R270, R292;
log 24). -/
opaque Config.retireReads (chan ctr : Nat) : List (MemLoc × EccOut)

/-- RESULT0 of a STEP_RUN that ends before a step of its job has posted: the spec names the last posted step's
counter only (R250; log 25). -/
opaque Config.noStep (step0 : Nat) : Nat

/-- SHA-384 of a byte string (R218's digests; log 12). -/
opaque Config.sha384 : List Byte → BitVec 384

/-- Ed25519 verification (RFC 8032) of a message under a public key (R406; log 12). -/
opaque Config.edVerify (key msg sig : List Byte) : Bool

/-- ML-DSA-65 verification (FIPS 204, pure, empty context) of a message under a public key (R406; log 12). -/
opaque Config.mldsaVerify (key msg sig : List Byte) : Bool

/-- The 256-bit secret that helper data turns the reading of the PUF on base die 0 into (R409; log 12). -/
opaque Config.pufSecret (helper : List Byte) : List Byte

/-- HKDF-SHA-384 of a secret with an info string (R409; log 12). -/
opaque Config.hkdf (secret info : List Byte) : List Byte

/-- The public key of an Ed25519 private key, and of an ML-DSA-65 seed by FIPS 204's key generation (R409; log 12). -/
opaque Config.edPublic (key : List Byte) : List Byte
opaque Config.mldsaPublic (seed : List Byte) : List Byte

/-- The Ed25519 and ML-DSA-65 signatures of a message under a private key, or a seed (R406, R409; log 12). -/
opaque Config.edSign (key msg : List Byte) : List Byte
opaque Config.mldsaSign (seed msg : List Byte) : List Byte

/-- Tsuvik's two root key pairs, Ed25519 and ML-DSA-65, whose digests the boot ROM holds (R400; log 12). -/
opaque Config.rootKeys (i : Nat) : List Byte × List Byte

/-- The digest of the boot ROM (R411; log 12). -/
opaque Config.romDigest : BitVec 384

/-- The two key shares, ML-KEM-768 and X25519, of an admission attempt (R310, R312; log 12). -/
opaque Config.kemShare (attempt : Nat) : List Byte
opaque Config.dhShare (attempt : Nat) : List Byte

/-- The ML-KEM-768 ciphertext for a partner's share, of an attempt's randomness, and its secret; the secret of
a ciphertext for the attempt's own share (FIPS 203; log 12). -/
opaque Config.kemSeal (attempt : Nat) (share : List Byte) : List Byte × List Byte
opaque Config.kemOpen (attempt : Nat) (cipher : List Byte) : List Byte

/-- The X25519 secret of an attempt's own share and the partner's (RFC 7748; log 12). -/
opaque Config.dhSecret (attempt : Nat) (share : List Byte) : List Byte

/-- HKDF-SHA-384 over the ML-KEM-768 and X25519 secrets and the transcript: the key of one direction, and the port
salt (R312; log 12). -/
opaque Config.sessionKey (kem dh transcript : List Byte) (toHigher : Bool) : BitVec 256
opaque Config.sessionSalt (kem dh transcript : List Byte) : W32

/-- A direction's next key after 2^32 flits (R312; log 12). -/
opaque Config.nextKey (key : BitVec 256) : BitVec 256

/-- AES-256-GCM with a key and a nonce of salt and count over a payload and its header: the ciphertext and
tag (R312; log 12). -/
opaque Config.gcmSeal (key : BitVec 256) (salt : W32) (count : Nat) (header payload : List Byte) : List Byte

/-- The inverse: the payload, or none where the tag fails (R312; log 12). -/
opaque Config.gcmOpen (key : BitVec 256) (salt : W32) (count : Nat) (header sealed : List Byte) : Option (List Byte)

/-- The 32-byte random nonce of an admission attempt (R310; log 12). -/
opaque Config.nonce (attempt : Nat) : List Byte

/-- The bytes of a HELLO: the spec names its parts and not their places (Table 10-9, order 1; log 12). -/
opaque Config.helloBytes (record : Bool) (id : BitVec 16) (pos : BitVec 4) (teller : Bool) (nonce : List Byte)
    (svn : W32) (certs : List (List Byte)) (enc : Bool) (kem x25519 : List Byte) : List Byte

/-- What a firmware image's header holds (R414): the spec names the fields and not their places (log 13). -/
structure Config.FwHeader where
  svn : Nat
  version : Nat
  ckptVer : Nat
  /-- checkpoint formats that the image can restore -/
  restores : List Nat
  /-- version of the built-in die image, and its offset in the image -/
  builtin : Nat
  dieOffset : Nat
  /-- offset of the image's security-version record, 0 for none -/
  svOffset : Nat
deriving DecidableEq, Repr, Inhabited

/-- The header fields of a firmware image (R414; log 13). -/
opaque Config.fwHeader : List Byte → Config.FwHeader

/-- What the body of a configuration record holds (Table 14-3): the spec names the contents and not
their places (log 13). -/
structure Config.CfgBody where
  /-- manufacture: serial number, PUF helper data, fence list, and V0, VMAX, T0 of every region -/
  serial : Nat
  helper : List Byte
  fences : List Nat
  regions : List (Nat × Nat × Nat)
  /-- identity: device identifier -/
  device : Nat
  /-- fleet policy: floor for partners, encryption required -/
  floor : Nat
  encrypt : Bool
  /-- owner keys: the public keys, none for no owner; the serial number the record is limited to -/
  owner : Option (List Byte × List Byte)
  scope : Option Nat
deriving DecidableEq, Repr, Inhabited

/-- The body of a configuration record of a type (R403; log 13). -/
opaque Config.cfgBody (type : Nat) (body : List Byte) : Config.CfgBody

/-- The device that hosts a shard of a job: the spec gives JOB_LOAD the device count and this device's
shards, and does not say how a device learns where the others are (R231, R318; log 16). -/
opaque Config.shardDevice (job shard : Nat) : Nat

/-- The first shard that a device of a job hosts (R231, R302; log 16). -/
opaque Config.shardFirst (job device : Nat) : Nat

/-- Tsuvik's PCI vendor ID, which the spec does not give (Table 10-15; log 4). -/
opaque Config.pciVendor : BitVec 16

/-- Identifiers of Tsuvik's that the spec does not give: MIPI manufacturer ID, I3C BCR, DCR and the status
word's vendor bits (R444; log 6). -/
opaque Config.mipiId : BitVec 15
opaque Config.pidInstance : BitVec 4
opaque Config.bcr : BitVec 8
opaque Config.dcr : BitVec 8

end Sys2Proof
end

