-- ==== Sys2Proof/Machine/Bits.lean ====
section
/-! DEFINITION. Bit fields, sign reading, little-endian bytes and lists keyed by rising numbers:
the plain helpers that every other definition uses. -/

namespace Sys2Proof.Machine

/-- `bits(v, h, l)` of the manual's pseudocode, on a number. -/
def bits (v h l : Nat) : Nat := (v >>> l) % 2 ^ (h + 1 - l)

/-- One bit of a number, as a truth value. -/
def bit (v i : Nat) : Bool := v.testBit i

/-- A truth value as the number 0 or 1. -/
def b2n (b : Bool) : Nat := if b then 1 else 0

/-- The `n` low bits of `v` read as two's complement. -/
def signed (v n : Nat) : Int :=
  let u := v % 2 ^ n
  if u < 2 ^ (n - 1) then (u : Int) else (u : Int) - (2 ^ n : Nat)

/-- An integer written into `n` bits as two's complement. -/
def wrap (x : Int) (n : Nat) : Nat := (x % ((2 ^ n : Nat) : Int)).toNat

/-- `v` with the field `[h:l]` replaced by the low bits of `x`. -/
def setBits (v h l x : Nat) : Nat :=
  v - (bits v h l) * 2 ^ l + (x % 2 ^ (h + 1 - l)) * 2 ^ l

/-- Addition that stays at the top value `m` (a saturating counter). -/
def satAdd (a b m : Nat) : Nat := if a + b > m then m else a + b

/-- The value bound to `k` in a list keyed by numbers. -/
def look {α : Type} (k : Nat) : List (Nat × α) → Option α
  | [] => none
  | (i, v) :: t => if i = k then some v else look k t

/-- The value bound to `k`, or `d` where the list names none. -/
def lookD {α : Type} (d : α) (k : Nat) (l : List (Nat × α)) : α := (look k l).getD d

/-- Bind `k` to `v`, keeping the keys strictly rising. -/
def put {α : Type} (k : Nat) (v : α) : List (Nat × α) → List (Nat × α)
  | [] => [(k, v)]
  | (i, w) :: t =>
    if k < i then (k, v) :: (i, w) :: t
    else if k = i then (k, v) :: t
    else (i, w) :: put k v t

/-- Remove the binding of `k`. -/
def del {α : Type} (k : Nat) : List (Nat × α) → List (Nat × α)
  | [] => []
  | (i, w) :: t => if i = k then t else (i, w) :: del k t

/-- Insert a number into a strictly rising list of numbers. -/
def insertNat (k : Nat) : List Nat → List Nat
  | [] => [k]
  | i :: t => if k < i then k :: i :: t else if k = i then i :: t else i :: insertNat k t

/-- Remove a number from a list of numbers. -/
def eraseNat (k : Nat) (l : List Nat) : List Nat := l.filter (fun i => i != k)

/-- Element `i` of a list, or `d` past its end. -/
def nthD {α : Type} (d : α) (l : List α) (i : Nat) : α := l.getD i d

/-- Replace element `i` of a list. -/
def setNth {α : Type} (l : List α) (i : Nat) (v : α) : List α := l.set i v

/-- The little-endian number of a byte list. -/
def leNat : List Byte → Nat
  | [] => 0
  | b :: t => b.toNat + 256 * leNat t

/-- The `n` little-endian bytes of a number. -/
def leBytes : Nat → Nat → List Byte
  | 0, _ => []
  | n + 1, v => BitVec.ofNat 8 v :: leBytes n (v / 256)

/-- `n` bytes of a byte list from `off`; zero past its end. -/
def bytesAt (bs : List Byte) (off n : Nat) : List Byte :=
  let t := (bs.drop off).take n
  t ++ List.replicate (n - t.length) 0

/-- The little-endian number in bytes `off` to `off + n - 1` of a byte list. -/
def natAt (bs : List Byte) (off n : Nat) : Nat := leNat (bytesAt bs off n)

/-- Byte lists cut into pieces of `k` bytes, at most `n` of them. -/
def chunks (k : Nat) : Nat → List Byte → List (List Byte)
  | 0, _ => []
  | n + 1, bs => bs.take k :: chunks k n (bs.drop k)

/-- The smallest multiple of `k` at or above `v`. -/
def alignUp (v k : Nat) : Nat := (v + k - 1) / k * k

/-- Number of members that satisfy `p`. -/
def countIf {α : Type} (p : α → Bool) : List α → Nat
  | [] => 0
  | a :: t => (if p a then 1 else 0) + countIf p t

/-- The first member with the smallest key. -/
def minBy {α : Type} (key : α → Nat) : List α → Option α
  | [] => none
  | a :: t =>
    match minBy key t with
    | none => some a
    | some b => if key a ≤ key b then some a else some b

/-- Apply a change to the first member that satisfies `p`. -/
def updFirst {α : Type} (p : α → Bool) (f : α → α) : List α → List α
  | [] => []
  | a :: t => if p a then f a :: t else a :: updFirst p f t

/-- Remove the first member that satisfies `p`. -/
def delFirst {α : Type} (p : α → Bool) : List α → List α
  | [] => []
  | a :: t => if p a then t else a :: delFirst p t

/-- The lowest number from `lo`, among the next `n`, that is not in the list. -/
def lowestFree (used : List Nat) (lo : Nat) : Nat → Option Nat
  | 0 => none
  | n + 1 => if used.contains lo then lowestFree used (lo + 1) n else some lo

end Sys2Proof.Machine
end

