-- ==== Sys2Proof/Machine/Formats.lean ====
section
/-! DEFINITION. Number formats: decoding, the two roundings, encoding and the special cases of a
conversion (chapter 02, R40 to R67). Every value is an exact fraction until one rounding. -/

namespace Sys2Proof.Machine

/-- The classes of a decoded value (R48, Table 2-5). -/
inductive Cls
  | zero | finite | infinite | invalid
deriving DecidableEq, Repr

/-- A decoded value: class, sign and exact magnitude `num / den` (R48, R67). -/
structure Val where
  cls : Cls
  neg : Bool
  num : Nat
  den : Nat
deriving DecidableEq, Repr

/-- An exact signed fraction; the denominator is positive and nothing is reduced. -/
structure Frac where
  num : Int
  den : Nat
deriving DecidableEq, Repr

/-- What an encoding answers: the stored code, and which of the counts of Table 2-10 and Table 5-3 it adds. -/
structure Enc where
  code : Nat
  sat : Bool := false
  flush : Bool := false
  inv : Bool := false
deriving DecidableEq, Repr

def Val.zero (neg : Bool) : Val := ⟨.zero, neg, 0, 1⟩
def Val.inf (neg : Bool) : Val := ⟨.infinite, neg, 0, 1⟩
def Val.bad : Val := ⟨.invalid, false, 0, 1⟩

def Frac.zero : Frac := ⟨0, 1⟩
def Frac.ofInt (i : Int) : Frac := ⟨i, 1⟩
def Frac.add (a b : Frac) : Frac := ⟨a.num * b.den + b.num * a.den, a.den * b.den⟩
def Frac.neg (a : Frac) : Frac := ⟨-a.num, a.den⟩
def Frac.sub (a b : Frac) : Frac := a.add b.neg
def Frac.mul (a b : Frac) : Frac := ⟨a.num * b.num, a.den * b.den⟩
def Frac.abs (a : Frac) : Frac := ⟨a.num.natAbs, a.den⟩
/-- `a / b` for a nonzero `b`. -/
def Frac.div (a b : Frac) : Frac :=
  ⟨(if b.num < 0 then -a.num else a.num) * b.den, a.den * b.num.natAbs⟩
def Frac.lt (a b : Frac) : Bool := decide (a.num * b.den < b.num * a.den)
def Frac.le (a b : Frac) : Bool := decide (a.num * b.den ≤ b.num * a.den)
def Frac.isZero (a : Frac) : Bool := decide (a.num = 0)
/-- `a × 2^k`. -/
def Frac.scale (a : Frac) (k : Int) : Frac :=
  if 0 ≤ k then ⟨a.num * (2 ^ k.toNat : Nat), a.den⟩ else ⟨a.num, a.den * 2 ^ (-k).toNat⟩
/-- `2^k` as a fraction. -/
def Frac.pow2 (k : Int) : Frac := (Frac.ofInt 1).scale k
def Frac.floor (a : Frac) : Int := a.num / (a.den : Int)
def Frac.max (a b : Frac) : Frac := if a.lt b then b else a

/-- The signed value of a decoded operand that is zero or finite. -/
def Val.toFrac (v : Val) : Frac := ⟨if v.neg then -(v.num : Int) else (v.num : Int), v.den⟩

/-- A fraction as a decoded value; an exact zero takes the sign given. -/
def Val.ofFrac (f : Frac) (zeroNeg : Bool := false) : Val :=
  if f.num = 0 then Val.zero zeroNeg else ⟨.finite, decide (f.num < 0), f.num.natAbs, f.den⟩

/-- The value with the opposite sign; an invalid value has none. -/
def Val.negate (v : Val) : Val := if v.cls = .invalid then v else { v with neg := !v.neg }

/-- `floor_log2` of the positive fraction `num / den`. -/
def floorLog2 (num den : Nat) : Int :=
  let t : Int := (num.log2 : Int) - (den.log2 : Int)
  let below := if 0 ≤ t then num < den * 2 ^ t.toNat else num * 2 ^ (-t).toNat < den
  if below then t - 1 else t

/-- `round_int` of a non-negative fraction (R60). -/
def roundInt (num den : Nat) (mode : Rnd) : Nat :=
  let q := num / den
  let r := num % den
  match mode with
  | .rne => if 2 * r > den ∨ (2 * r = den ∧ q % 2 = 1) then q + 1 else q
  | .rto => if r > 0 then (if q % 2 = 0 then q + 1 else q) else q

/-- `round_int` of `(num / den) × 2^k`. -/
def roundScaled (num den : Nat) (k : Int) (mode : Rnd) : Nat :=
  if 0 ≤ k then roundInt (num * 2 ^ k.toNat) den mode else roundInt num (den * 2 ^ (-k).toNat) mode

/-- Length of the run of bits equal to `r`, from bit `n - 1` of `c` downward. -/
def runLen (c : Nat) (r : Bool) : Nat → Nat
  | 0 => 0
  | i + 1 => if c.testBit i = r then 1 + runLen c r i else 0

/-- A posit code of `n` bits with `es` exponent bits (R48). -/
def decodePosit (c0 n es : Nat) : Val :=
  let c0 := c0 % 2 ^ n
  if c0 = 0 then Val.zero false
  else if c0 = 2 ^ (n - 1) then Val.bad
  else
    let s := c0.testBit (n - 1)
    let c := if s then 2 ^ n - c0 else c0
    let r := c.testBit (n - 2)
    let len := runLen c r (n - 1)
    let k : Int := if r then (len : Int) - 1 else -(len : Int)
    let rest := n - 1 - len - 1
    let tail := c % 2 ^ rest
    let e := if es ≤ rest then tail >>> (rest - es) else tail <<< (es - rest)
    let fb := rest - es
    let f := if es ≤ rest then tail % 2 ^ fb else 0
    let m : Frac := Frac.scale ⟨((2 ^ fb + f : Nat) : Int), 2 ^ fb⟩ (k * (2 ^ es : Nat) + (e : Int))
    ⟨.finite, s, m.num.natAbs, m.den⟩

/-- An IEEE interchange code with precision `p` and exponent width `w` (R43, Table 2-2). -/
def decodeIeee (c p w : Nat) : Val :=
  let s := c.testBit (w + p - 1)
  let e := bits c (w + p - 2) (p - 1)
  let f := c % 2 ^ (p - 1)
  let bias : Int := (2 ^ (w - 1) : Nat) - 1
  if e = 2 ^ w - 1 then (if f = 0 then Val.inf s else Val.bad)
  else if e = 0 then
    (if f = 0 then Val.zero s
     else let m := Frac.scale ⟨(f : Int), 1⟩ (1 - bias - ((p : Int) - 1)); ⟨.finite, s, m.num.natAbs, m.den⟩)
  else
    let m := Frac.scale ⟨((2 ^ (p - 1) + f : Nat) : Int), 1⟩ ((e : Int) - bias - ((p : Int) - 1))
    ⟨.finite, s, m.num.natAbs, m.den⟩

/-- A BP4 element code (Table 2-4). -/
def decodeBp4 (c : Nat) : Val :=
  let c := c % 16
  let mag (m : Nat) : Nat := nthD 0 [0, 1, 2, 3, 4, 6, 8, 16] m
  if c = 0 then Val.zero false
  else if c = 8 then Val.bad
  else if c < 8 then ⟨.finite, false, mag c, 4⟩
  else ⟨.finite, true, mag (16 - c), 4⟩

/-- A T256 code (R55). -/
def decodeT256 (c : Nat) : Val :=
  let c := c % 2 ^ 256
  if c = 2 ^ 255 then Val.bad
  else Val.ofFrac ⟨signed c 256, 2 ^ 112⟩

/-- Bits of one element code of a format; a block element has no exponent in it (Table 2-1). -/
def fmtBits : Fmt → Nat
  | .fp32 => 32 | .bf16 => 16 | .fp16 => 16 | .p32 => 32 | .p16 => 16 | .p8 => 8
  | .bp8 => 8 | .bp6 => 6 | .bp4 => 4 | .i8 => 8 | .t256 => 256

/-- The format of a format code (Table 2-1); the reserved codes have none (R41). -/
def fmtOf : Nat → Option Fmt
  | 0 => some .fp32 | 1 => some .bf16 | 2 => some .fp16 | 3 => some .p32 | 4 => some .p16
  | 5 => some .p8 | 6 => some .bp8 | 7 => some .bp6 | 8 => some .bp4 | 9 => some .i8
  | 10 => some .t256 | _ => none

/-- The format code of a format (Table 2-1). -/
def fmtCode : Fmt → Nat
  | .fp32 => 0 | .bf16 => 1 | .fp16 => 2 | .p32 => 3 | .p16 => 4 | .p8 => 5
  | .bp8 => 6 | .bp6 => 7 | .bp4 => 8 | .i8 => 9 | .t256 => 10

def isIeee : Fmt → Bool
  | .fp32 | .bf16 | .fp16 => true
  | _ => false

/-- The block formats, which carry an exponent plane (R49). -/
def isBlock : Fmt → Bool
  | .bp8 | .bp6 | .bp4 => true
  | _ => false

/-- The formats a tile buffer holds (R133). -/
def isTbFmt : Fmt → Bool
  | .fp32 | .bf16 | .fp16 | .p32 | .p16 | .p8 => true
  | _ => false

/-- The formats whose products accumulate on the exact path (R42). -/
def isExactFmt : Fmt → Bool
  | .p16 | .p8 | .bp8 | .bp6 | .bp4 | .i8 => true
  | _ => false

/-- The formats whose products accumulate on the FP32 path (R42). -/
def isFp32Path : Fmt → Bool
  | .bf16 | .fp16 => true
  | _ => false

/-- One element code, by itself: the element value of a block format, the bare integer of I8. -/
def decodeCode (f : Fmt) (c : Nat) : Val :=
  match f with
  | .fp32 => decodeIeee c 24 8
  | .bf16 => decodeIeee c 8 8
  | .fp16 => decodeIeee c 11 5
  | .p32 => decodePosit c 32 2
  | .p16 => decodePosit c 16 2
  | .p8 => decodePosit c 8 2
  | .bp8 => decodePosit c 8 2
  | .bp6 => decodePosit c 6 1
  | .bp4 => decodeBp4 c
  | .i8 => Val.ofFrac (Frac.ofInt (signed c 8))
  | .t256 => decodeT256 c

/-- A shared exponent byte is reserved when it lies in 0x20 to 0xDF (R49). -/
def badExp (b : Nat) : Bool := decide (32 ≤ b ∧ b < 224)

/-- One element with its shared exponent byte or row scale code `aux` (R49, R53, R54, R138). -/
def decodeElem (f : Fmt) (c aux : Nat) : Val :=
  if isBlock f then
    if badExp aux then Val.bad
    else
      let v := decodeCode f c
      if v.cls = .finite then Val.ofFrac (v.toFrac.scale (signed aux 8)) else v
  else if f = .i8 then
    let a := decodePosit aux 8 2
    if a.cls = .invalid then Val.bad
    else if a.cls = .zero then Val.zero false
    else Val.ofFrac ((Frac.ofInt (signed c 8)).mul a.toFrac)
  else decodeCode f c

/-- `encode_ieee` (R61). -/
def encodeIeee (s : Bool) (num den p w : Nat) (emin emax : Int) (mode : Rnd) : Nat :=
  let e0 := max (floorLog2 num den) emin
  let q0 := roundScaled num den ((p : Int) - 1 - e0) mode
  let q := if q0 = 2 ^ p then 2 ^ (p - 1) else q0
  let e := if q0 = 2 ^ p then e0 + 1 else e0
  let top := if s then 2 ^ (w + p - 1) else 0
  if emax < e then
    match mode with
    | .rne => top + (2 ^ w - 1) * 2 ^ (p - 1)
    | .rto => top + (2 ^ w - 2) * 2 ^ (p - 1) + (2 ^ (p - 1) - 1)
  else
    let fld : Nat := if q < 2 ^ (p - 1) then 0 else (e + emax).toNat
    top + fld * 2 ^ (p - 1) + q % 2 ^ (p - 1)

/-- `encode_posit` (R62). -/
def encodePosit (s : Bool) (num den n es : Nat) (mode : Rnd) : Nat :=
  let maxe := (n - 2) * 2 ^ es
  let p :=
    if den * 2 ^ maxe ≤ num then 2 ^ (n - 1) - 1
    else if num * 2 ^ maxe ≤ den then 1
    else
      let t := floorLog2 num den
      let k := t / ((2 ^ es : Nat) : Int)
      let e := t % ((2 ^ es : Nat) : Int)
      let f : Frac := Frac.sub (Frac.scale ⟨(num : Int), den⟩ (-t)) (Frac.ofInt 1)
      let len : Int := if 0 ≤ k then k + 2 else 1 - k
      let reg : Int := if 0 ≤ k then ((2 ^ len.toNat : Nat) : Int) - 2 else 1
      let sh : Int := (n : Int) - 1 - len
      let y := Frac.add (Frac.scale (Frac.ofInt reg) sh)
                 (Frac.scale (Frac.add (Frac.ofInt e) f) (sh - es))
      let p := roundInt y.num.natAbs y.den mode
      if 2 ^ (n - 1) ≤ p then 2 ^ (n - 1) - 1 else p
  if s then 2 ^ n - p else p

/-- The canonical invalid code of a format: NaN or NaR; 0 for I8 (R45, R47, Table 2-10). -/
def invalidCode : Fmt → Nat
  | .fp32 => 0x7FC00000 | .bf16 => 0x7FC0 | .fp16 => 0x7E00
  | .p32 => 0x80000000 | .p16 => 0x8000 | .p8 => 0x80
  | .bp8 => 0x80 | .bp6 => 0x20 | .bp4 => 0x8 | .i8 => 0 | .t256 => 2 ^ 255

/-- An infinity of an IEEE format. -/
def infCode (f : Fmt) (neg : Bool) : Nat :=
  match f with
  | .fp32 => if neg then 0xFF800000 else 0x7F800000
  | .bf16 => if neg then 0xFF80 else 0x7F80
  | .fp16 => if neg then 0xFC00 else 0x7C00
  | _ => 0

/-- A zero of a format with the sign given; only the IEEE formats keep the sign (Table 2-10). -/
def zeroCode (f : Fmt) (neg : Bool) : Nat :=
  match f with
  | .fp32 => if neg then 0x80000000 else 0
  | .bf16 | .fp16 => if neg then 0x8000 else 0
  | _ => 0

/-- The largest finite magnitude of a format (Tables 2-2 to 2-4). -/
def maxFinite : Fmt → Nat
  | .fp32 => (2 ^ 24 - 1) * 2 ^ 104
  | .bf16 => (2 ^ 8 - 1) * 2 ^ 120
  | .fp16 => 65504
  | .p32 => 2 ^ 120 | .p16 => 2 ^ 56 | .p8 => 2 ^ 24 | .bp8 => 2 ^ 24 | .bp6 => 2 ^ 8 | .bp4 => 4
  | .i8 => 127 | .t256 => 2 ^ 143

/-- The finite nonzero magnitude `num / den` in a format without a scale (R61, R62). -/
def encodeMag (f : Fmt) (s : Bool) (num den : Nat) (mode : Rnd) : Nat :=
  match f with
  | .fp32 => encodeIeee s num den 24 8 (-126) 127 mode
  | .bf16 => encodeIeee s num den 8 8 (-126) 127 mode
  | .fp16 => encodeIeee s num den 11 5 (-14) 15 mode
  | .p32 => encodePosit s num den 32 2 mode
  | .p16 => encodePosit s num den 16 2 mode
  | .p8 => encodePosit s num den 8 2 mode
  | .bp8 => encodePosit s num den 8 2 .rne
  | .bp6 => encodePosit s num den 6 1 .rne
  | .bp4 | .i8 | .t256 => 0

/-- A value into T256 (R65, Table 2-10). -/
def encodeT256 (v : Val) : Enc :=
  match v.cls with
  | .zero => { code := 0 }
  | .invalid => { code := 2 ^ 255 }
  | .infinite => { code := 2 ^ 255, sat := true }
  | .finite =>
    if v.den * 2 ^ 143 ≤ v.num then { code := 2 ^ 255, sat := true }
    else
      let q := roundInt (v.num * 2 ^ 112) v.den .rto
      { code := if v.neg then wrap (-(q : Int)) 256 else q }

/-- A value into FP32, BF16, FP16, P32, P16, P8 or T256 (R67, Table 2-10, Table 5-3). -/
def encode (f : Fmt) (mode : Rnd) (v : Val) : Enc :=
  if f = .t256 then encodeT256 v
  else match v.cls with
  | .zero => { code := zeroCode f v.neg }
  | .invalid => { code := invalidCode f }
  | .infinite => if isIeee f then { code := infCode f v.neg } else { code := invalidCode f, sat := true }
  | .finite =>
    let c := encodeMag f v.neg v.num v.den mode
    { code := c
      sat := decide (maxFinite f * v.den < v.num)
      flush := decide (c = zeroCode f v.neg) }

/-- The BP4 magnitude code nearest to `num / den` (R63). -/
def bp4Mag (num den : Nat) : Nat :=
  if 8 * num ≤ den then 0
  else if 8 * num < 3 * den then 1
  else if 8 * num ≤ 5 * den then 2
  else if 8 * num < 7 * den then 3
  else if 4 * num ≤ 5 * den then 4
  else if 4 * num < 7 * den then 5
  else if num ≤ 3 * den then 6
  else 7

/-- A value into an element of a block whose shared exponent is `e` (R63, Table 2-10). -/
def encodeBlockElem (f : Fmt) (e : Int) (v : Val) : Enc :=
  match v.cls with
  | .zero => { code := 0 }
  | .invalid => { code := invalidCode f }
  | .infinite => { code := invalidCode f, sat := true }
  | .finite =>
    let y := v.toFrac.abs.scale (-e)
    let n := y.num.natAbs
    let sat := decide (maxFinite f * y.den < n)
    if f = .bp4 then
      let m := bp4Mag n y.den
      { code := if v.neg then (16 - m) % 16 else m, sat := sat, flush := decide (m = 0) }
    else { code := encodeMag f v.neg n y.den .rne, sat := sat }

/-- A value into an I8 element of a row whose scale code is `a` (R64, Table 2-10). -/
def encodeI8 (a : Nat) (v : Val) : Enc :=
  let s := decodePosit a 8 2
  if s.cls ≠ .finite then { code := 0, inv := true }
  else match v.cls with
  | .zero => { code := 0 }
  | .invalid => { code := 0, inv := true }
  | .infinite => { code := if v.neg != s.neg then 0x80 else 0x7F, sat := true }
  | .finite =>
    let q := roundInt (v.num * s.den) (v.den * s.num) .rne
    if v.neg != s.neg then
      (if q > 128 then { code := 0x80, sat := true }
       else { code := (256 - q) % 256, flush := decide (q = 0) })
    else
      (if q > 127 then { code := 0x7F, sat := true }
       else { code := q, flush := decide (q = 0) })

/-- A value into any format: `aux` is the shared exponent byte or the row scale code (R63, R64, R67). -/
def encodeAny (f : Fmt) (mode : Rnd) (aux : Nat) (v : Val) : Enc :=
  if isBlock f then encodeBlockElem f (signed aux 8) v
  else if f = .i8 then encodeI8 aux v
  else encode f mode v

/-- The most negative finite value of a format (R182). -/
def mostNegative (f : Fmt) : Val := ⟨.finite, true, maxFinite f, 1⟩

/-- Order of two values that are not invalid: `a < b`, with −0 equal to +0. -/
def Val.lt (a b : Val) : Bool :=
  match a.cls, b.cls with
  | .infinite, .infinite => a.neg && !b.neg
  | .infinite, _ => a.neg
  | _, .infinite => !b.neg
  | _, _ => a.toFrac.lt b.toFrac

/-- `p8_ceil(y)`: the smallest positive P8 code at or above a positive `y` (R205). -/
def p8Ceil (y : Frac) : Nat :=
  let n := y.num.natAbs
  if y.den * 2 ^ 24 ≤ n then 0x7F
  else if n * 2 ^ 24 ≤ y.den then 0x01
  else
    let c := encodePosit false n y.den 8 2 .rne
    if (decodePosit c 8 2).toFrac.lt ⟨(n : Int), y.den⟩ then c + 1 else c

/-- `encode_s2` of a nonzero group maximum (R209). -/
def encodeS2 (m : Frac) : Nat :=
  let x := floorLog2 m.num.natAbs m.den
  let f := p8Ceil (m.scale (-x))
  let f' := if f = 0x48 then 0x40 else f
  let x' := if f = 0x48 then x + 1 else x
  (wrap x' 16) * 2 ^ 16 + f' * 2 ^ 8 + 1

/-- The value of a second-level entry, or none where it reads as VALID 0 (R207). -/
def decodeS2 (w : Nat) : Option Frac :=
  let f := bits w 15 8
  if bit w 0 ∧ bits w 7 1 = 0 ∧ 0x40 ≤ f ∧ f ≤ 0x47 then
    some ((decodePosit f 8 2).toFrac.scale (signed (bits w 31 16) 16))
  else none

end Sys2Proof.Machine
end

