-- ==== Sys2Proof/Machine/Tally.lean ====
section
/-! DEFINITION. Planchets, their products and the two accumulation paths of a tally lane
(R56 to R59, R70 to R98). -/

namespace Sys2Proof.Machine

/-- The 25-bit planchet word (Table 2-5). -/
def planchetWord (cls : Nat) (neg : Bool) (e : Int) (m : Nat) : Nat :=
  cls * 2 ^ 23 + b2n neg * 2 ^ 22 + wrap e 10 * 2 ^ 12 + m

/-- Why an operand expands as invalid: the KIND of Table 3-6 that it gives a product, 0 where it does not (R96). -/
def invalidKind (f : Fmt) (c aux : Nat) : Nat :=
  if isBlock f then
    (if badExp aux then 5 else if (decodeCode f c).cls = .invalid then 1 else 0)
  else if f = .i8 then (if (decodePosit aux 8 2).cls = .invalid then 5 else 0)
  else if (decodeCode f c).cls = .invalid then (if isIeee f then 2 else 1) else 0

/-- `expand` (R57): the planchet in bits [24:0] and, above them, the KIND of an invalid element (R96). -/
def expand (f : Fmt) (c aux : Nat) : Nat :=
  let v := decodeElem f c aux
  match v.cls with
  | .invalid => invalidKind f c aux * 2 ^ 25 + planchetWord 3 false 0 0
  | .zero => planchetWord 0 v.neg 0 0
  | .infinite => planchetWord 2 v.neg 0 0
  | .finite =>
    let e := floorLog2 v.num v.den
    planchetWord 1 v.neg e (roundScaled v.num v.den (11 - e) .rto)

/-- A planchet product (R58): its class, its sign and, where finite, `mag × 2^(exp)`. -/
structure Product where
  cls : Cls
  neg : Bool
  mag : Nat
  exp : Int
  kind : Nat
deriving DecidableEq, Repr

/-- The product of two expanded operands (R58, Table 2-6) with the cause kind of R96. -/
def planchetProduct (a w : Nat) : Product :=
  let ca := bits a 24 23
  let cw := bits w 24 23
  let s := bit a 22 != bit w 22
  if ca = 3 then ⟨.invalid, false, 0, 0, bits a 27 25⟩
  else if cw = 3 then ⟨.invalid, false, 0, 0, bits w 27 25⟩
  else if (ca = 0 ∧ cw = 2) ∨ (ca = 2 ∧ cw = 0) then ⟨.invalid, false, 0, 0, 3⟩
  else if ca = 0 ∨ cw = 0 then ⟨.zero, s, 0, 0, 0⟩
  else if ca = 2 ∨ cw = 2 then ⟨.infinite, s, 0, 0, 0⟩
  else ⟨.finite, s, bits a 11 0 * bits w 11 0,
        signed (bits a 21 12) 10 + signed (bits w 21 12) 10 - 22, 0⟩

/-- The lane status word of Table 3-7 and the pass counter beside it (R80, R97). -/
structure LaneStat where
  status : W64 := 0
  pass : Nat := 0
deriving DecidableEq, Repr

def LaneStat.poisoned (l : LaneStat) : Bool := l.status.toNat.testBit 63
def LaneStat.count (l : LaneStat) : Nat := bits l.status.toNat 59 52

/-- The status word of a first cause (Table 3-7). DESIGN CHOICE: PASS is the pass counter modulo 2^25; the spec does not
say what the field holds after 2^25 passes (log 53). -/
def firstCause (kind i col j pass : Nat) : Nat :=
  2 ^ 63 + kind * 2 ^ 60 + 2 ^ 52 + (i % 256) * 2 ^ 44 + (col % 64) * 2 ^ 38 + (j % 16) * 2 ^ 34
    + (pass % 2 ^ 25) * 2 ^ 9

/-- `note_invalid` (R95). -/
def noteInvalid (l : LaneStat) (kind i col j : Nat) : LaneStat :=
  if l.count = 0 then { l with status := BitVec.ofNat 64 (firstCause kind i col j l.pass) }
  else if l.count < 255 then { l with status := l.status + BitVec.ofNat 64 (2 ^ 52) }
  else l

/-- The value and status of one lane while a pass runs on it: `v` counts units of 2^−112 on the
exact path, `acc` is the binary32 value on the FP32 path. -/
structure LaneVal where
  st : LaneStat
  v : Int := 0
  acc : Val := Val.zero false
deriving DecidableEq, Repr

/-- Add the products of one exact group, from K index `i`, in increasing order (R73). -/
def exactGroup (col j : Nat) : Nat → List (Nat × Nat) → LaneVal → LaneVal
  | _, [], l => l
  | i, (a, w) :: t, l =>
    let p := planchetProduct a w
    let l' :=
      match p.cls with
      | .invalid => { l with st := noteInvalid l.st p.kind i col j }
      | .finite =>
        let sh := p.exp + 112
        let m : Nat := if 0 ≤ sh then p.mag * 2 ^ sh.toNat else p.mag / 2 ^ (-sh).toNat
        { l with v := if p.neg then l.v - m else l.v + m }
      | _ => l
    exactGroup col j (i + 1) t l'

/-- The groups of an exact pass; `n` bounds how many are left (R73). -/
def exactGroups (col gk : Nat) : Nat → Nat → List (Nat × Nat) → LaneVal → LaneVal
  | 0, _, _, l => l
  | n + 1, j, ps, l =>
    if ps.isEmpty then l
    else exactGroups col gk n (j + 1) (ps.drop gk) (exactGroup col j (j * gk) (ps.take gk) l)

/-- One exact-path pass after `begin_pass` (R73): products in K order, groups of `gk` products. -/
def passExact (col gk : Nat) (ps : List (Nat × Nat)) (l : LaneVal) : LaneVal :=
  let l := exactGroups col gk (ps.length + 1) 0 ps l
  let l := if !l.st.poisoned && decide (2 ^ 255 ≤ l.v.natAbs)
    then { l with st := noteInvalid l.st 7 0 col 0 } else l
  { l with st := { l.st with pass := l.st.pass + 1 } }

/-- `fp32_round(t, neg)` (R76): the exact value rounded to binary32 and decoded back. -/
def fp32Round (t : Frac) (neg : Bool) : Val :=
  if t.num = 0 then Val.zero neg
  else decodeIeee (encodeIeee (decide (t.num < 0)) t.num.natAbs t.den 24 8 (-126) 127 .rne) 24 8

/-- What one FP32 group has met so far (R76): the exact sum in units of 2^−300. -/
structure GroupAcc where
  st : LaneStat
  t : Int := 0
  pinf : Bool := false
  ninf : Bool := false
  bad : Bool := false
  allneg0 : Bool := true
deriving DecidableEq, Repr

/-- The products of one FP32 group in increasing K order (R76). -/
def fp32GroupLoop (col j : Nat) : Nat → List (Nat × Nat) → GroupAcc → GroupAcc
  | _, [], g => g
  | i, (a, w) :: t, g =>
    let p := planchetProduct a w
    let g' : GroupAcc :=
      match p.cls with
      | .invalid => { g with st := noteInvalid g.st p.kind i col j, bad := true }
      | .infinite => if p.neg then { g with ninf := true } else { g with pinf := true }
      | .finite =>
        let m : Nat := p.mag * 2 ^ (p.exp + 300).toNat
        { g with t := if p.neg then g.t - m else g.t + m }
      | .zero => g
    let neg0 := decide (p.cls = .zero) && p.neg
    fp32GroupLoop col j (i + 1) t { g' with allneg0 := g'.allneg0 && neg0 }

/-- `group_fp32` (R76): the group sum and the lane status after it. -/
def groupFp32 (col j lo : Nat) (ps : List (Nat × Nat)) (st : LaneStat) : Val × LaneStat :=
  let g := fp32GroupLoop col j lo ps { st := st }
  if g.bad then (Val.bad, g.st)
  else if g.pinf && g.ninf then (Val.bad, noteInvalid g.st 4 lo col j)
  else if g.pinf then (Val.inf false, g.st)
  else if g.ninf then (Val.inf true, g.st)
  else (fp32Round ⟨g.t, 2 ^ 300⟩ g.allneg0, g.st)

/-- `fp32_add` without a lane status: the sum, and whether infinities of opposite sign met (R76, R150). -/
def fp32AddCore (x y : Val) : Val × Bool :=
  if x.cls = .invalid ∨ y.cls = .invalid then (Val.bad, false)
  else if x.cls = .infinite ∧ y.cls = .infinite ∧ x.neg ≠ y.neg then (Val.bad, true)
  else if x.cls = .infinite then (x, false)
  else if y.cls = .infinite then (y, false)
  else if x.cls = .zero ∧ y.cls = .zero then (Val.zero (x.neg && y.neg), false)
  else (fp32Round (x.toFrac.add y.toFrac) false, false)

/-- `fp32_add` (R76). -/
def fp32Add (x y : Val) (lo col j : Nat) (st : LaneStat) : Val × LaneStat :=
  let r := fp32AddCore x y
  (r.1, if r.2 then noteInvalid st 4 lo col j else st)

/-- The groups of an FP32 pass in group order (R76). -/
def fp32Groups (col g : Nat) : Nat → Nat → Bool → List (Nat × Nat) → LaneVal → LaneVal
  | 0, _, _, _, l => l
  | n + 1, j, first, ps, l =>
    if ps.isEmpty then l
    else
      let r := groupFp32 col j (j * g) (ps.take g) l.st
      let l' : LaneVal :=
        if first then { l with acc := r.1, st := r.2 }
        else
          let q := fp32Add l.acc r.1 (j * g) col j r.2
          { l with acc := q.1, st := q.2 }
      fp32Groups col g n (j + 1) false (ps.drop g) l'

/-- One FP32-path pass after `begin_pass` (R76); `first` is true after an overwrite only. -/
def passFp32 (col g : Nat) (first : Bool) (ps : List (Nat × Nat)) (l : LaneVal) : LaneVal :=
  let l := fp32Groups col g (ps.length + 1) 0 first ps l
  { l with st := { l.st with pass := l.st.pass + 1 } }

/-- The code an FP32 lane holds in its slot (R79, R80). -/
def fp32LaneCode (l : LaneVal) : Nat :=
  if l.st.poisoned then 0x7FC00000 else (encode .fp32 .rne l.acc).code

/-- The word an exact lane holds in its entry (R80). -/
def exactLaneCode (l : LaneVal) : Nat :=
  if l.st.poisoned then 2 ^ 255 else wrap l.v 256

/-- What a drain of one lane answers: the value before the one rounding, and how it counts (R92, R94). -/
structure DrainVal where
  val : Val
  poisoned : Bool := false
  fused : Bool := false
deriving DecidableEq, Repr

/-- `drain_exact` (R92) up to the rounding; `fuse` is Table 3-5's field. -/
def drainExact (poisoned : Bool) (v : Int) (fuse : Nat) (z : Val) : DrainVal :=
  if poisoned then { val := Val.bad, poisoned := true }
  else
    let x : Frac := ⟨v, 2 ^ 112⟩
    if fuse = 0 then { val := Val.ofFrac x }
    else if z.cls = .invalid ∨ z.cls = .infinite then { val := Val.bad, fused := true }
    else if fuse = 1 then
      let zt : Int := roundInt (z.num * 2 ^ 112) z.den .rto
      let s : Int := v + (if z.neg then -zt else zt)
      if 2 ^ 255 ≤ s.natAbs then { val := Val.bad, fused := true }
      else { val := Val.ofFrac ⟨s, 2 ^ 112⟩ }
    else { val := Val.ofFrac (x.mul z.toFrac) }

/-- The exact IEEE sum of two decoded values: none where infinities of opposite sign meet (R94, Table 5-3). -/
def exactAdd (x y : Val) : Option Val :=
  if x.cls = .infinite ∧ y.cls = .infinite then (if x.neg = y.neg then some x else none)
  else if x.cls = .infinite then some x
  else if y.cls = .infinite then some y
  else some (Val.ofFrac (x.toFrac.add y.toFrac)
    (decide (x.cls = .zero) && decide (y.cls = .zero) && x.neg && y.neg))

/-- The exact IEEE product of two decoded values: none for zero times infinity (R94, Table 5-3). -/
def exactMul (x y : Val) : Option Val :=
  let s := x.neg != y.neg
  if (x.cls = .infinite ∧ y.cls = .zero) ∨ (x.cls = .zero ∧ y.cls = .infinite) then none
  else if x.cls = .infinite ∨ y.cls = .infinite then some (Val.inf s)
  else some (Val.ofFrac (x.toFrac.mul y.toFrac) s)

/-- The drain of an FP32 lane up to the rounding (R94). -/
def drainFp32 (poisoned : Bool) (acc : Val) (fuse : Nat) (z : Val) : DrainVal :=
  if poisoned then { val := Val.bad, poisoned := true }
  else if fuse = 0 then { val := acc }
  else if z.cls = .invalid then { val := Val.bad, fused := true }
  else
    match (if fuse = 1 then exactAdd acc z else exactMul acc z) with
    | some v => { val := v }
    | none => { val := Val.bad, fused := true }

end Sys2Proof.Machine
end

