-- ==== Sys2Proof/Machine/Types.lean ====
section
/-! DEFINITION. The parts of the state that belong to jobs, to the running steps and to a core:
plain data only (chapters 03 to 09, 11, 12). -/

namespace Sys2Proof.Machine

/-- A posted memory: the bytes that are not zero, by rising address, and the poisoned 64-byte blocks
by rising number (R253, R263). An address that is not listed holds 0 with no poison. -/
structure Mem where
  cells : List Host.Cell
  poison : List Nat
deriving DecidableEq, Repr

/-- The escrow shadow of one memory: every byte the step wrote, by rising address, and what it made of
each block's poison mark (R275, R287). -/
structure Shadow where
  cells : List Host.Cell
  poison : List (Nat × Bool)
deriving DecidableEq, Repr

/-- The parts of a loaded binary that run time needs (R219 to R223, R233, R234, R242, R253, R319, R373). -/
structure Binary where
  /-- SHA-384 of the binary -/
  digest : BitVec 384
  /-- header words 0 to 31 (Table 8-1) -/
  header : List W64
  /-- type of every constant-pool entry, and the entries (R222) -/
  poolTypes : List Nat
  pool : List W128
  /-- scale-rule table (R201) -/
  rules : List W64
  /-- fold table (R214) -/
  folds : List W128
  /-- step table (R233) -/
  steps : List W128
  /-- operation streams by logical core (R225) -/
  streams : List (List W128)
  /-- escrow plan (R234) -/
  escrow : List W64
  /-- collective plan (R319) -/
  coll : List W128
  /-- hallmark plan: header and entries (R373) -/
  hallHeader : W64
  hall : List W64
  /-- stream table (R242) -/
  rng : List W32
  /-- batch rules (R254) -/
  batch : List W64
  /-- initial-image entries: four words and the data (R253) -/
  images : List (List W64 × List Byte)
deriving DecidableEq, Repr

/-- A queued STEP_RUN (R237, R248). -/
structure StepReq where
  /-- next template to run -/
  template : Nat
  /-- steps left; none runs until NEXT is 0xFFFF -/
  left : Option Nat
  /-- steps posted so far by this command -/
  posted : Nat
  /-- every posted step so far kept its timing lock (R368) -/
  locked : Bool
  /-- command ring and SEQ, for its completion -/
  ring : Nat
  seq : W32
  /-- order of the request among all jobs (R237) -/
  stamp : Nat
deriving DecidableEq, Repr

/-- A completion entry before its own SEQ is known (Table 8-24). -/
structure Completion where
  opcode : Nat
  flags : Nat
  job : Nat
  cmdRing : Nat
  cmdSeq : Nat
  record : Nat
  section_ : Nat
  status : Nat
  result0 : Nat
  result1 : Nat
  /-- ring that receives it -/
  ring : Nat
deriving DecidableEq, Repr

/-- A SNAPSHOT waiting for its device step boundary (R252). -/
structure SnapReq where
  addr : Nat
  len : Nat
  ring : Nat
  seq : Nat
deriving DecidableEq, Repr

/-- A resident job (R231, R237, R243). -/
structure Job where
  num : Nat
  bin : Binary
  /-- devices in the job, minus 1 -/
  devices : Nat
  shardFirst : Nat
  shardLast : Nat
  step0 : W64
  /-- step counter of the next step -/
  step : W64
  /-- posting generation (R237, R239) -/
  gen : W32
  /-- posted till of each device slot -/
  tills : List Mem
  vault : Mem
  hbm : Mem
  /-- step counter of the last posted production of each regenerable descriptor (R240) -/
  regen : List (Nat × Nat)
  queue : List StepReq
  /-- completion ring named at JOB_LOAD -/
  cplRing : Nat
  /-- completions waiting for room in their ring (R246) -/
  queued : List Completion
  /-- JOB_END waiting for the current step: command ring and SEQ (R238) -/
  ending : Option (Nat × Nat)
  snaps : List SnapReq
  /-- a step of the job has posted since its JOB_LOAD (Table 8-26, STEP) -/
  everPosted : Bool
  /-- regenerable regions that scrub found poisoned, to be regenerated before the next step (R290) -/
  regenDue : List Nat
  /-- provisional placements that last until the job's next step: device logical core, host (Table 11-3) -/
  prov : List (Nat × Nat)
deriving DecidableEq, Repr

/-- A record that has issued and not completed (R227). -/
structure Flight where
  /-- index in the logical core's stream -/
  idx : Nat
  opcode : Nat
  /-- local token it signals, 0 for none -/
  signal : Nat
  /-- a move: its destination slot (till) and its captured writes: space, address, byte -/
  writes : List (Nat × Nat × Byte)
  /-- poison that the move carries to destination blocks: space, block, poisoned -/
  marks : List (Nat × Nat × Bool)
  dst : Nat
  /-- arrival token it signals at `dst`, 0 for none -/
  arrival : Nat
  /-- 0 a copy; 1 and 2: the writes are addends of T256 or FP32 atomic adds -/
  atom : Nat
  /-- the send of a contribution that it waits for -/
  send : Option Nat
deriving DecidableEq, Repr

/-- One tally entry of one column (R80): its mode tag, its 256 bits and its lane statuses. -/
structure TallyEntry where
  fp32 : Bool
  word : W256
  /-- one lane status in exact mode, eight in FP32 mode -/
  lanes : List LaneStat
deriving DecidableEq, Repr

/-- A weight register (R103, R105): its planchets by 4096 × PE slot, with what the loading record fixed. -/
structure WeightReg where
  fmt : Fmt
  q : Nat
  kRows : Nat
  nCols : Nat
  wK0 : Nat
  /-- planchets by number (64 × PE row + column) × 4 + slot; bits [27:25] carry the KIND of an invalid
  one (R96); an unlisted one is the zero planchet -/
  planchets : List (Nat × BitVec 28)
deriving DecidableEq, Repr

/-- A weight register that no load of the run has filled: zero planchets (log 10). -/
def WeightReg.reset : WeightReg := ⟨.p16, 1, 1, 1, 0, []⟩

/-- A tile buffer (R133): its format and its written codes by 64 × row + column. -/
structure TileBuf where
  fmt : Fmt
  codes : List (Nat × W32)
deriving DecidableEq, Repr

/-- One row statistic set (R147). SUMSQ is in the T256 layout. -/
structure StatSet where
  status : W64
  count : W64
  maxabs : W64
  sumsq : W256
deriving DecidableEq, Repr

/-- One softmax row state (R181). -/
structure SmaxRow where
  m : BitVec 48
  s : BitVec 48
  u : W32
  bad : Bool
deriving DecidableEq, Repr

/-- Registers I0 to I7 and N of one former lane (R161, Table 6-1). -/
structure Lane where
  regs : List (BitVec 48)
  n : BitVec 16
deriving DecidableEq, Repr

def Lane.zero : Lane := ⟨List.replicate 8 0, 0⟩

/-- The state of one device slot in the running step: sequencer, engines and till shadow
(R80, R103, R132, R161, R227, R473). -/
structure Slot where
  /-- index in the stream of the next record to issue -/
  pc : Nat
  begun : Bool
  ended : Bool
  /-- past the last record of the requant block that is being skipped (R213) -/
  skipTo : Nat
  flights : List Flight
  /-- landed arrivals per arrival token (R228) -/
  arrivals : List (Nat × Nat)
  /-- byte ranges of the till in the order in which they landed (R151) -/
  landings : List (List (Nat × Nat))
  tally : List (Nat × TallyEntry)
  wreg0 : WeightReg
  wreg1 : WeightReg
  tb : List TileBuf
  stat : List StatSet
  drain : List W128
  hall : List W128
  smax : List SmaxRow
  /-- the 16 lanes of the former, as its last record left them -/
  lanes : List Lane
  /-- group maxima of second-level planes by descriptor × 65,536 + group (R209, R210) -/
  groupMax : List (Nat × Frac)
  till : Shadow
  /-- run digest so far (R334) -/
  digest : W128
  /-- digest replaced by a free value: a hardware check failed on data (log 15) -/
  spoiled : Bool
  /-- the first former instruction of the run has been met (R193) -/
  former : Bool
  /-- device time at STEP_BEGIN (R399) -/
  started : W64
deriving DecidableEq, Repr

/-- An event of a run, as the verdict rules read it (R332, R342, R352). -/
structure RunEvent where
  code : Nat
  utype : Nat
  punit : Nat
  slot : Option Nat
  /-- record of the event in the error ledger -/
  seq : Nat
  /-- test and row of a plausibility failure, or fault code of a trap -/
  detail : Nat
  /-- its response is a recount (Table 11-1) -/
  recount : Bool
  /-- armed through EVT_FORCE (R455) -/
  injected : Bool
deriving DecidableEq, Repr

/-- A drain that trapped: slot, record index and the drain status (R100, R101). -/
structure Trap where
  slot : Nat
  idx : Nat
  w6 : W64
  w7 : W64
deriving DecidableEq, Repr

/-- A run of the step that has ended (R341 to R344). -/
structure PastRun where
  digests : List W128
  hosts : List Nat
  events : List RunEvent
  /-- not ended early by a void or a host fence (R344) -/
  counted : Bool
  /-- every slot completed STEP_END -/
  whole : Bool
  /-- no event was raised anywhere on the device while it ran (R343) -/
  silent : Bool
deriving DecidableEq, Repr

/-- A suspect of the step (R338, R342). -/
structure Suspect where
  utype : Nat
  punit : Nat
  /-- record whose event named it first -/
  seq : Nat
  /-- index in the history of the suspect's run 1 -/
  run1 : Nat
  /-- index of its run 2 once it is judged by run 3, back on its run-1 host -/
  run2 : Option Nat
  /-- verdict of Table 11-4, 0 while pending -/
  verdict : Nat
deriving DecidableEq, Repr

/-- A running or unposted step (Table 8-12, chapter 11). -/
structure Run where
  job : Nat
  template : Nat
  step : W64
  /-- the job's posting generation when it began -/
  gen : W32
  /-- last order reached, 2 to 8 -/
  order : Nat
  /-- number of this run, from 0, and how many earlier runs count toward six (R344) -/
  run : Nat
  counted : Nat
  proofEn : Bool
  timingLock : Bool
  lockBroken : Bool
  /-- pages that the run has read: 0 or till slot + 1, descriptor, page (R235) -/
  readMarks : List (Nat × Nat × Nat)
  /-- die bank that the first run used, by tag and record; none until a former record runs (R194) -/
  bank : Option (Nat × Nat)
  /-- cores whose named switch step this is (R193 order 6) -/
  toSwitch : List Nat
  /-- host physical core of every slot in this run -/
  hosts : List Nat
  slots : List Slot
  vault : Shadow
  hbm : Shadow
  /-- turn in progress per physical core (R473) -/
  turns : List (Nat × Nat)
  events : List RunEvent
  /-- traps of the run, recorded when its integrity checks have passed (R101) -/
  traps : List Trap
  /-- poison of regenerable regions that the run consumed and no regeneration has rewritten yet: space,
  slot, address, descriptor (R288) -/
  poisoned : List (Nat × Nat × Nat × Nat)
  /-- the run was stopped and ends without posting at its check (R288, R336, R337) -/
  broken : Bool
  /-- a void or a host fence ended it: it does not count toward six (R344) -/
  uncounted : Bool
  /-- a recount waits for its next run (R341) -/
  waiting : Bool
  /-- the run is the posting run of Table 11-3, order 9 -/
  posting : Bool
  suspects : List Suspect
  history : List PastRun
  /-- digests agreed by decided suspects, per slot (R342) -/
  agreed : List (Nat × W128)
  /-- ATTEMPT of the run's contributions (R321) -/
  attempt : Nat
  /-- SEQ of the next error record when the run began (R343) -/
  errStart : Nat
  /-- device time at order 2, and at the first event that led to a recount (R399) -/
  started : W64
  detected : Option W64
deriving DecidableEq, Repr

end Sys2Proof.Machine
end

