-- ==== Sys2Proof/Machine/Mem.lean ====
section
/-! DEFINITION. Memories, shadows and tensor descriptors (R223, R224, R52, R253, R275, R287). -/

namespace Sys2Proof.Machine

/-- The byte at an address; an unlisted address holds 0 (R253). -/
def cellGet (a : Nat) : List Host.Cell → Byte
  | [] => 0
  | (i, b) :: t => if i = a then b else if a < i then 0 else cellGet a t

/-- Bind an address to a byte, keeping addresses strictly rising; zero bytes are listed too. -/
def cellPutRaw (a : Nat) (b : Byte) : List Host.Cell → List Host.Cell
  | [] => [(a, b)]
  | (i, c) :: t =>
    if a < i then (a, b) :: (i, c) :: t
    else if a = i then (a, b) :: t
    else (i, c) :: cellPutRaw a b t

/-- Write one byte of a posted memory: writing 0 removes the entry, so equal memories are equal lists. -/
def cellPut (a : Nat) (b : Byte) : List Host.Cell → List Host.Cell
  | [] => if b = 0 then [] else [(a, b)]
  | (i, c) :: t =>
    if a < i then (if b = 0 then (i, c) :: t else (a, b) :: (i, c) :: t)
    else if a = i then (if b = 0 then t else (a, b) :: t)
    else (i, c) :: cellPut a b t

/-- Write bytes from an address upward. -/
def cellPutList (a : Nat) : List Byte → List Host.Cell → List Host.Cell
  | [], m => m
  | b :: t, m => cellPutList (a + 1) t (cellPut a b m)

/-- `n` bytes from an address upward. -/
def cellRead (m : List Host.Cell) (a : Nat) : Nat → List Byte
  | 0 => []
  | n + 1 => cellGet a m :: cellRead m (a + 1) n

/-- The canonical form of a list of cells: rising addresses above `lo`, no zero byte. -/
def cellsWf : Nat → List Host.Cell → Bool
  | _, [] => true
  | lo, (i, b) :: t => decide (lo ≤ i) && decide (b ≠ 0) && cellsWf (i + 1) t

/-- The canonical form of a poison map: rising block numbers from `lo`. -/
def risingWf : Nat → List Nat → Bool
  | _, [] => true
  | lo, i :: t => decide (lo ≤ i) && risingWf (i + 1) t

/-- A posted memory is in its one canonical form. -/
def Mem.wf (m : Mem) : Bool := cellsWf 0 m.cells && risingWf 0 m.poison

def Mem.empty : Mem := ⟨[], []⟩
def Shadow.empty : Shadow := ⟨[], []⟩

/-- Remove a number from a rising list. -/
def risingDel (k : Nat) : List Nat → List Nat
  | [] => []
  | i :: t => if i = k then t else i :: risingDel k t

/-- Write bytes into a posted memory, with no change of poison. -/
def Mem.write (m : Mem) (a : Nat) (bs : List Byte) : Mem := { m with cells := cellPutList a bs m.cells }

/-- Read bytes of a posted memory. -/
def Mem.read (m : Mem) (a n : Nat) : List Byte := cellRead m.cells a n

/-- Mark a 64-byte block poisoned, or clear its mark. -/
def Mem.setPoison (m : Mem) (blk : Nat) (p : Bool) : Mem :=
  { m with poison := if p then insertNat blk m.poison else risingDel blk m.poison }

/-- A block carries the poison mark. -/
def Mem.isPoisoned (m : Mem) (blk : Nat) : Bool := m.poison.contains blk

/-- Bytes of a shadow at an address, if the step wrote it. -/
def shadowLook (a : Nat) : List Host.Cell → Option Byte
  | [] => none
  | (i, b) :: t => if i = a then some b else if a < i then none else shadowLook a t

/-- A byte as the running step reads it: its own shadow, else the posted copy (R275). -/
def shGet (sh : Shadow) (m : Mem) (a : Nat) : Byte := (shadowLook a sh.cells).getD (cellGet a m.cells)

/-- A block's poison mark as the running step sees it. -/
def shPoisoned (sh : Shadow) (m : Mem) (blk : Nat) : Bool := (look blk sh.poison).getD (m.isPoisoned blk)

/-- A byte, and a mark, written to a shadow. -/
def Shadow.putByte (sh : Shadow) (a : Nat) (b : Byte) : Shadow := { sh with cells := cellPutRaw a b sh.cells }
def Shadow.setPoison (sh : Shadow) (blk : Nat) (p : Bool) : Shadow := { sh with poison := put blk p sh.poison }

/-- Posting: every byte and mark of the shadow becomes the posted copy (R237 order 9, R275). -/
def mergeCells : List Host.Cell → List Host.Cell → List Host.Cell
  | [], m => m
  | (a, b) :: t, m => mergeCells t (cellPut a b m)

/-- A shadow's marks over a memory's. -/
def mergePoison : List (Nat × Bool) → List Nat → List Nat
  | [], l => l
  | (k, p) :: t, l => mergePoison t (if p then insertNat k l else risingDel k l)

/-- A memory with what a shadow holds (R275). -/
def Mem.post (m : Mem) (sh : Shadow) : Mem :=
  ⟨mergeCells sh.cells m.cells, mergePoison sh.poison m.poison⟩

/-! ### Tensor descriptors (Table 8-5) -/

def dSpace (d : W128) : Nat := bits d.toNat 127 126
def dFmtCode (d : W128) : Nat := bits d.toNat 125 122
def dFmt (d : W128) : Fmt := (fmtOf (dFmtCode d)).getD .fp32
/-- Block size: 16 or 32 (R49). -/
def dBlock (d : W128) : Nat := if bit d.toNat 121 then 32 else 16
def dRax (d : W128) : Nat := bits d.toNat 120 120
def dRole (d : W128) : Nat := bits d.toNat 119 117
def dBase (d : W128) : Nat := bits d.toNat 111 64
/-- Number of rows. -/
def dRows (d : W128) : Nat := bits d.toNat 63 40 + 1
/-- Number of columns. -/
def dCols (d : W128) : Nat := bits d.toNat 39 20 + 1
/-- Bytes between rows. -/
def dPitch (d : W128) : Nat := 32 * bits d.toNat 19 0

/-- Bytes of one packed row (R52): BP6 packs whole groups of four elements in three bytes. -/
def dRowBytes (d : W128) : Nat :=
  if dFmt d = .bp6 then (dCols d + 3) / 4 * 3 else (dCols d * fmtBits (dFmt d) + 7) / 8

/-- Start of the exponent plane or of the row-scale plane (R224). -/
def dPlane (d : W128) : Nat := dBase d + dPitch d * dRows d

/-- Bytes of that plane. -/
def dPlaneBytes (d : W128) : Nat :=
  if isBlock (dFmt d) then
    (if dRax d = 0 then dRows d * (dCols d / dBlock d) else (dRows d / dBlock d) * dCols d)
  else if dFmt d = .i8 then dRows d
  else 0

/-- First address past the region's image (R224, R253). -/
def dEnd (d : W128) : Nat := dPlane d + dPlaneBytes d

/-- Address of the exponent or row-scale byte of an element, where the format has one. -/
def dAuxAddr (d : W128) (r c : Nat) : Option Nat :=
  if isBlock (dFmt d) then
    some (dPlane d + (if dRax d = 0 then r * (dCols d / dBlock d) + c / dBlock d
                      else (r / dBlock d) * dCols d + c))
  else if dFmt d = .i8 then some (dPlane d + r)
  else none

/-- Address of the byte that holds the lowest bit of an element. -/
def dElemAddr (d : W128) (r c : Nat) : Nat := dBase d + dPitch d * r + c * fmtBits (dFmt d) / 8

/-- Bytes that hold one element's code. -/
def dElemLen (d : W128) (c : Nat) : Nat :=
  let w := fmtBits (dFmt d)
  (c * w % 8 + w + 7) / 8

/-- The code of an element, read through a byte reader. -/
def dElemCode (rd : Nat → Byte) (d : W128) (r c : Nat) : Nat :=
  let w := fmtBits (dFmt d)
  let a := dElemAddr d r c
  let n := leNat ((List.range (dElemLen d c)).map (fun i => rd (a + i)))
  (n >>> (c * w % 8)) % 2 ^ w

/-- The exponent or scale byte of an element, 0 where the format has none. -/
def dElemAux (rd : Nat → Byte) (d : W128) (r c : Nat) : Nat :=
  match dAuxAddr d r c with
  | some a => (rd a).toNat
  | none => 0

/-- An element's value (R138). -/
def dElemVal (rd : Nat → Byte) (d : W128) (r c : Nat) : Val :=
  decodeElem (dFmt d) (dElemCode rd d r c) (dElemAux rd d r c)

/-- The codes of a row as one number, lowest column lowest. -/
def packCodes (w : Nat) : List Nat → Nat
  | [] => 0
  | c :: t => c % 2 ^ w + 2 ^ w * packCodes w t

/-- The bytes that a run of codes writes into row `r` from column `c0` (R52), `c0 × width` being whole
bytes. A last byte that the run fills in part keeps its other bits; at the row's end the unused fields of
the last byte, and of the last BP6 group, are 0. -/
def dRowWrites (rd : Nat → Byte) (d : W128) (r c0 : Nat) (codes : List Nat) : List (Nat × Byte) :=
  let w := fmtBits (dFmt d)
  let nb := codes.length * w
  let a := dElemAddr d r c0
  let full := nb / 8
  let rest := nb % 8
  let n := packCodes w codes
  let n := if rest = 0 then n
    else if c0 + codes.length = dCols d then n
    else n + ((rd (a + full)).toNat / 2 ^ rest) * 2 ^ nb
  let len := if c0 + codes.length = dCols d then dRowBytes d - c0 * w / 8 else (nb + 7) / 8
  let bs := leBytes len n
  (List.range bs.length).map (fun i => (a + i, nthD 0 bs i))

end Sys2Proof.Machine
end

