-- ==== Sys2Proof/Machine/Flags.lean ====
section
/-! DEFINITION. Row statistics, drain status and the tests of an envelope (R98, R144 to R155). -/

namespace Sys2Proof.Machine

/-! ### Residue checks (R333) -/

/-- `res` (R333). -/
def res (x : Int) : Nat := (x % 7).toNat

/-- `product_ok` (R333). -/
def productOk (ma mb m : Nat) : Bool := res m == res (res ma * res mb)

/-- `update_ok` (R333). -/
def updateOk (vOld m : Int) (s : Nat) (vNew : Int) : Bool := res vNew == res (res vOld + res m * 2 ^ (s % 3))

/-- `round_ok` (R333). -/
def roundOk (t q : Int) (d : Nat) (r : Int) : Bool := res t == res (res q * 2 ^ (d % 3) + res r)

/-- The residue that the significands of two planchets give their product. -/
def productRes (a w : Nat) : Nat := res (res (bits a 11 0) * res (bits w 11 0))

/-- Word 6 of a RESIDUE event that is not injected, and word 7: bits that Table 11-11 does not name are 0, a product
names its planchets, and its expected residue is theirs (R333, R355). -/
def residueWords (w6 w7 : Nat) : Nat × Nat :=
  let a := bits w7 56 32
  let w := bits w7 24 0
  if bits w6 63 60 = 0 then (setBits (bits w6 63 42 * 2 ^ 42) 47 45 (productRes a w), a * 2 ^ 32 + w)
  else (bits w6 63 42 * 2 ^ 42, 0)

/-- A residue check fails: the residue seen is not the expected one. -/
def residueFails (w6 : Nat) : Bool := bits w6 47 45 != bits w6 44 42

/-- Word 6 of a PARITY event, and of a SEQUENCER event, that is not injected (R355). -/
def parityWord (w6 : Nat) : Nat := bits w6 63 56 * 2 ^ 56 + bits w6 47 0
def sequencerWord (w6 : Nat) : Nat := bits w6 63 56 * 2 ^ 56 + bits w6 47 0
/-- Bits [127:64] of a record: word 7 of a SEQUENCER event (R355). -/
def recHigh (rec_ : Nat) : Nat := rec_ / 2 ^ 64

def StatSet.zero : StatSet := ⟨0, 0, 0, 0⟩
def SmaxRow.zero : SmaxRow := ⟨0, 0, 0, false⟩

def StatSet.invalidN (s : StatSet) : Nat := bits s.status.toNat 47 32
def StatSet.satN (s : StatSet) : Nat := bits s.status.toNat 31 16
def StatSet.flushN (s : StatSet) : Nat := bits s.status.toNat 15 0
def StatSet.poison (s : StatSet) : Bool := bit s.status.toNat 63
def StatSet.empty (s : StatSet) : Bool := bit s.status.toNat 62
def StatSet.ovf (s : StatSet) : Bool := bit s.status.toNat 61
def StatSet.countN (s : StatSet) : Nat := bits s.count.toNat 47 0
def StatSet.maxValid (s : StatSet) : Bool := bit s.maxabs.toNat 63

/-- ROW_STATUS from its fields (Table 5-4). -/
def statusWord (poison empty ovf : Bool) (inv sat flush : Nat) : W64 :=
  BitVec.ofNat 64 (b2n poison * 2 ^ 63 + b2n empty * 2 ^ 62 + b2n ovf * 2 ^ 61
    + min inv 65535 * 2 ^ 32 + min sat 65535 * 2 ^ 16 + min flush 65535)

/-- Add to the counts of ROW_STATUS; each saturates at 65,535 (R140, R144, R146, R151). -/
def StatSet.addCounts (s : StatSet) (inv sat flush : Nat) : StatSet :=
  { s with status := statusWord s.poison s.empty s.ovf (s.invalidN + inv) (s.satN + sat) (s.flushN + flush) }

/-- Flags of ROW_STATUS set (Table 5-4). -/
def StatSet.setPoison (s : StatSet) : StatSet :=
  { s with status := statusWord true s.empty s.ovf s.invalidN s.satN s.flushN }
def StatSet.setEmpty (s : StatSet) : StatSet :=
  { s with status := statusWord s.poison true s.ovf s.invalidN s.satN s.flushN }
def StatSet.setOvf (s : StatSet) : StatSet :=
  { s with status := statusWord s.poison s.empty true s.invalidN s.satN s.flushN }

/-- ROW_MAXABS of a positive magnitude, rounded up to 32 significant bits (R148, Table 5-6). -/
def maxabsWord (num den : Nat) : W64 :=
  let e := floorLog2 num den
  let k := 31 - e
  let n := if 0 ≤ k then num * 2 ^ k.toNat else num
  let d := if 0 ≤ k then den else den * 2 ^ (-k).toNat
  let q := (n + d - 1) / d
  let e := if q = 2 ^ 32 then e + 1 else e
  let q := if q = 2 ^ 32 then 2 ^ 31 else q
  BitVec.ofNat 64 (2 ^ 63 + wrap e 16 * 2 ^ 32 + q)

/-- The magnitude a ROW_MAXABS word holds; zero where VALID is 0 (SRC 0b110). -/
def maxabsFrac (w : W64) : Frac :=
  if bit w.toNat 63 then Frac.scale ⟨((bits w.toNat 31 0 : Nat) : Int), 1⟩ (signed (bits w.toNat 47 32) 16 - 31)
  else Frac.zero

/-- The STAT clear of R148: COUNT, MAXABS, SUMSQ and SUMSQ_OVF, nothing else. -/
def StatSet.clearAcc (s : StatSet) : StatSet :=
  ⟨statusWord s.poison s.empty false s.invalidN s.satN s.flushN, 0, 0, 0⟩

/-- Accumulate one value as written (R148). -/
def StatSet.accum (s : StatSet) (v : Val) : StatSet :=
  let s := { s with count := s.count + 1 }
  if v.cls ≠ .finite then s
  else
    let cur := maxabsFrac s.maxabs
    let mag : Frac := ⟨(v.num : Int), v.den⟩
    let s := if cur.lt mag then { s with maxabs := maxabsWord v.num v.den } else s
    let sq := roundInt (v.num * v.num * 2 ^ 112) (v.den * v.den) .rto
    let t := s.sumsq.toNat + sq
    if 2 ^ 255 ≤ t then s.setOvf else { s with sumsq := BitVec.ofNat 256 t }

/-- A row of values accumulated into a statistic set. -/
def accumRow : List Val → StatSet → StatSet
  | [], s => s
  | v :: t, s => accumRow t (s.accum v)

/-- The STAT field applied to one row's written values (R148). -/
def statRow (stat : Nat) (vals : List Val) (s : StatSet) : StatSet :=
  match stat with
  | 1 => accumRow vals s
  | 2 => accumRow vals s.clearAcc
  | _ => s

/-- The two words of a drain status (Table 3-8), word 0 low. -/
def drainStatus (poisoned fused row col : Nat) (trapped : Bool) (first : W64) : W128 :=
  BitVec.ofNat 128 (poisoned * 2 ^ 51 + fused * 2 ^ 38 + row * 2 ^ 32 + col * 2 ^ 26
    + b2n trapped * 2 ^ 25 + first.toNat * 2 ^ 64)

/-! ### Envelopes (Table 5-8, Table 5-9) -/

/-- POLICY of a range envelope. -/
def envPolicy (e : W128) : Nat := bits e.toNat 31 30

/-- Test 1: a row's MAXABS above MAXMAG. -/
def magFails (e : W128) (s : StatSet) : Bool :=
  decide (bits e.toNat 127 96 ≠ 0x7FFFFFFF) && s.maxValid
    && (decodePosit (bits e.toNat 127 96) 32 2).toFrac.lt (maxabsFrac s.maxabs)

/-- Test 2: a row's RMS below RMS_LO. -/
def rmsLoFails (e : W128) (s : StatSet) : Bool :=
  let lo := (decodePosit (bits e.toNat 95 80) 16 2).toFrac
  decide (bits e.toNat 95 80 ≠ 0) && !(decide (s.countN = 0)) && !s.empty
    && Frac.lt ⟨(s.sumsq.toNat : Int), 2 ^ 112⟩ ((Frac.ofInt s.countN).mul (lo.mul lo))

/-- Test 3: a row's RMS above RMS_HI, or its sum of squares overflowed. -/
def rmsHiFails (e : W128) (s : StatSet) : Bool :=
  let hi := (decodePosit (bits e.toNat 79 64) 16 2).toFrac
  decide (bits e.toNat 79 64 ≠ 0x7FFF) && !(decide (s.countN = 0)) && !s.empty
    && (s.ovf || ((Frac.ofInt s.countN).mul (hi.mul hi)).lt ⟨(s.sumsq.toNat : Int), 2 ^ 112⟩)

/-- The sum of a count over statistic sets. -/
def sumN (f : StatSet → Nat) : List StatSet → Nat
  | [] => 0
  | s :: t => f s + sumN f t

/-- Test 4 over a list of rows: too many invalid outputs; a saturated counter fails (R154). -/
def invFails (e : W128) (rows : List StatSet) : Bool :=
  let m := bits e.toNat 63 48
  decide (m ≠ 0xFFFF)
    && (decide (m < sumN StatSet.invalidN rows) || rows.any (fun s => decide (s.invalidN = 65535)))

/-- Test 5 over a list of rows: too large a saturated fraction. -/
def satFails (e : W128) (rows : List StatSet) : Bool :=
  let f := bits e.toNat 47 32
  decide (f ≠ 0xFFFF)
    && (decide (f * sumN StatSet.countN rows < sumN StatSet.satN rows * 65536)
        || rows.any (fun s => decide (s.satN = 65535)))

/-- The lowest row that fails a per-row test. -/
def firstRow (p : StatSet → Bool) (rows : List StatSet) : Option Nat := rows.findIdx? p

/-- The lowest row `r` for which a test over rows 0 to `r` fails (R155). -/
def firstSum (p : List StatSet → Bool) (rows : List StatSet) : Option Nat :=
  (List.range rows.length).find? (fun r => p (rows.take (r + 1)))

/-- The failing plausibility test with the lowest first row: test number and row (R155). -/
def plausFail (e : W128) (rows : List StatSet) : Option (Nat × Nat) :=
  let t1 := (firstRow (magFails e) rows).map (fun r => (1, r))
  let t2 := (firstRow (rmsLoFails e) rows).map (fun r => (2, r))
  let t3 := (firstRow (rmsHiFails e) rows).map (fun r => (3, r))
  let t4 := if invFails e rows then (firstSum (invFails e) rows).map (fun r => (4, r)) else none
  minBy (fun (p : Nat × Nat) => p.2 * 8 + p.1) ([t1, t2, t3, t4].filterMap id)

/-- The first failing row of the saturation test, if it fails (R155). -/
def satFail (e : W128) (rows : List StatSet) : Option Nat :=
  if satFails e rows then firstSum (satFails e) rows else none

end Sys2Proof.Machine
end

