-- ==== Sys2Proof/Machine/Hash.lean ====
section
/-! DEFINITION. The hallmark function H (R371), the ChaCha20 block function (R241) and the CRC-32 of a
flit (R299). -/

namespace Sys2Proof.Machine

/-- `mix64` (R371). -/
def mix64 (z : Nat) : Nat :=
  let z := ((z ^^^ (z >>> 31)) * 0x8F3A5C71D2E496B3) % 2 ^ 64
  let z := ((z ^^^ (z >>> 29)) * 0xE7D19A2B4C86F5A5) % 2 ^ 64
  z ^^^ (z >>> 32)

/-- The four words of `bits`, in increasing order. -/
def hallLoop (bits : Nat) : Nat → Nat → Nat → Nat → Nat × Nat
  | 0, _, a, b => (a, b)
  | n + 1, j, a, b =>
    let w := (bits >>> (64 * j)) % 2 ^ 64
    hallLoop bits n (j + 1) (mix64 (a ^^^ w)) (mix64 ((b + w + j + 1) % 2 ^ 64))

/-- `hallmark_h` (R371). -/
def hallmarkH (index bits : Nat) : W128 :=
  let r := hallLoop bits 4 0 (mix64 (index ^^^ 0x6D69617374696C30)) (mix64 (index ^^^ 0x74737576696B2D31))
  BitVec.ofNat 128 (mix64 ((r.1 + r.2) % 2 ^ 64) * 2 ^ 64 + mix64 (r.1 ^^^ r.2))

/-- The 256-bit number of one 32-byte unit: the bytes given, 0 elsewhere (R334). -/
def unitBits (u : Nat) : List (Nat × Byte) → Nat
  | [] => 0
  | (a, b) :: t => (if a / 32 = u then b.toNat * 256 ^ (a % 32) else 0) + unitBits u t

/-- One digest term per 32-byte unit that a record's final bytes touch in a space (R334). -/
def digestUnits (space : Nat) (cells : List (Nat × Byte)) : List Nat → W128
  | [] => 0
  | u :: t => hallmarkH (space * 2 ^ 40 + u) (unitBits u cells) + digestUnits space cells t

/-- The last value of every byte that a list of writes names in a space, by rising address. -/
def finalBytes (space : Nat) : List (Nat × Nat × Byte) → List Host.Cell → List Host.Cell
  | [], acc => acc
  | (s, a, b) :: t, acc => finalBytes space t (if s = space then cellPutRaw a b acc else acc)

/-- The digest terms of one record's writes (R334). -/
def digestOf (ws : List (Nat × Nat × Byte)) : W128 :=
  let part (s : Nat) : W128 :=
    let cs := finalBytes s ws []
    digestUnits s cs (cs.foldl (fun l c => insertNat (c.1 / 32) l) [])
  part 0 + part 1 + part 2

/-- A 32-bit rotation. -/
def rotl32 (x n : Nat) : Nat := ((x <<< n) % 2 ^ 32) ||| (x >>> (32 - n))

/-- The quarter round of RFC 8439 on words `a b c d` of the state. -/
def quarter (s : List Nat) (ia ib ic id : Nat) : List Nat :=
  let a := nthD 0 s ia; let b := nthD 0 s ib; let c := nthD 0 s ic; let d := nthD 0 s id
  let a := (a + b) % 2 ^ 32; let d := rotl32 (d ^^^ a) 16
  let c := (c + d) % 2 ^ 32; let b := rotl32 (b ^^^ c) 12
  let a := (a + b) % 2 ^ 32; let d := rotl32 (d ^^^ a) 8
  let c := (c + d) % 2 ^ 32; let b := rotl32 (b ^^^ c) 7
  setNth (setNth (setNth (setNth s ia a) ib b) ic c) id d

/-- One double round: four column rounds and four diagonal rounds. -/
def doubleRound (s : List Nat) : List Nat :=
  let s := quarter (quarter (quarter (quarter s 0 4 8 12) 1 5 9 13) 2 6 10 14) 3 7 11 15
  quarter (quarter (quarter (quarter s 0 5 10 15) 1 6 11 12) 2 7 8 13) 3 4 9 14

/-- Rounds of the generator. -/
def rounds : Nat → List Nat → List Nat
  | 0, s => s
  | n + 1, s => rounds n (doubleRound s)

/-- The 16 output words of the block function of RFC 8439 (R241). -/
def chachaBlock (key : List Nat) (counter n0 n1 n2 : Nat) : List Nat :=
  let s := [0x61707865, 0x3320646E, 0x79622D32, 0x6B206574] ++ key ++ [counter, n0, n1, n2]
  List.zipWith (fun a b => (a + b) % 2 ^ 32) s (rounds 10 s)

/-- Element `i` of a random stream in a step (R241). -/
def rngWord (key : List Nat) (stream step i : Nat) : Nat :=
  nthD 0 (chachaBlock key ((i / 16) % 2 ^ 32) stream (bits step 31 0) (bits step 63 32)) (i % 16)

/-- One byte into the reflected CRC-32 register. -/
def crcBits : Nat → Nat → Nat
  | 0, r => r
  | n + 1, r => crcBits n (if r % 2 = 1 then (r >>> 1) ^^^ 0xEDB88320 else r >>> 1)

/-- CRC-32 over bytes. -/
def crcLoop : List Byte → Nat → Nat
  | [], r => r
  | b :: t, r => crcLoop t (crcBits 8 (r ^^^ b.toNat))

/-- The CRC-32 of a flit's bytes 0 to 251 (R299). -/
def crc32 (bs : List Byte) : Nat := crcLoop bs 0xFFFFFFFF ^^^ 0xFFFFFFFF

end Sys2Proof.Machine
end

