-- ==== Sys2Proof/Machine/Operands.lean ====
section
/-! DEFINITION. What a record of the running step reads and what it answers: record fields, tensors
through the shadow, finisher and former sources, quantised stores (R138, R145, R203 to R209, R225). -/

namespace Sys2Proof.Machine

/-- What a record of a slot sees. -/
structure Ctx where
  job : Job
  run : Run
  d : Nat
  slot : Slot
  /-- the record's place among those of all steps and shards, for its free values (R357; log 2) -/
  place : Nat
  /-- tag of the die bank in use on the host, and its user slots (R189, R191) -/
  dieTag : Nat
  userDies : List (Nat × List Byte)
deriving DecidableEq, Repr

/-- An error event that a record raises while it executes: code, words 6 and 7, and whether its
response is a recount (Table 11-1). -/
structure Raise where
  code : Nat
  w6 : Nat
  w7 : Nat
  recount : Bool
  /-- detail that the verdict rules compare -/
  detail : Nat
deriving DecidableEq, Repr

/-- What a record's execution answers. -/
structure RecOut where
  slot : Slot
  /-- bytes written: space, address, byte, in order -/
  writes : List (Nat × Nat × Byte) := []
  /-- poison carried to destination blocks: space, block, poisoned -/
  marks : List (Nat × Nat × Bool) := []
  /-- poisoned blocks consumed: space, address (R288) -/
  consumed : List (Nat × Nat) := []
  /-- bytes that form the digest terms, where those are not the writes: none of the mill (R334) -/
  digestAs : Option (List (Nat × Nat × Byte)) := none
  /-- program fault: code and operand (R258) -/
  fault : Option (Nat × Nat) := none
  raises : List Raise := []
  /-- the requant block that follows is skipped (R213) -/
  skipRq : Bool := false
deriving DecidableEq, Repr

/-! ### Binary and record fields -/

def hdr (b : Binary) (i : Nat) : Nat := (nthD 0 b.header i).toNat
/-- Logical cores per shard (Table 8-1). -/
def Binary.lcores (b : Binary) : Nat := bits (hdr b 1) 63 55 + 1
def Binary.shards (b : Binary) : Nat := bits (hdr b 1) 54 39 + 1
def Binary.form (b : Binary) : Bool := bit (hdr b 1) 38
def Binary.proofReq (b : Binary) : Bool := bit (hdr b 1) 37
def Binary.chips (b : Binary) : Nat := bits (hdr b 1) 36 21
def Binary.strikeThresh (b : Binary) : Nat := bits (hdr b 1) 20 9
def Binary.templates (b : Binary) : Nat := bits (hdr b 2) 63 48
/-- The ChaCha20 key words of SEED (R241). -/
def Binary.key (b : Binary) : List Nat :=
  (List.range 8).map (fun i => bits (hdr b (4 + i / 2)) (32 * (i % 2) + 31) (32 * (i % 2)))
def Binary.entry (b : Binary) (i : Nat) : W128 := nthD 0 b.pool i
def Binary.entryType (b : Binary) (i : Nat) : Nat := nthD 0 b.poolTypes i
def Binary.rule (b : Binary) (i : Nat) : Nat := (nthD 0 b.rules i).toNat
def Binary.stepEntry (b : Binary) (t : Nat) : Nat := (nthD 0 b.steps t).toNat
/-- NEXT of a template (Table 8-10). -/
def Binary.next (b : Binary) (t : Nat) : Nat := bits (b.stepEntry t) 63 48
def Binary.coll1 (b : Binary) (t : Nat) : Bool := bit (b.stepEntry t) 47
def Binary.stream (b : Binary) (l : Nat) : List W128 := nthD [] b.streams l

def rOpcode (r : Nat) : Nat := bits r 127 120
def rLevel (r : Nat) : Nat := bits r 119 116
def rWaitA (r : Nat) : Nat := bits r 115 110
def rWaitB (r : Nat) : Nat := bits r 109 104
def rSignal (r : Nat) : Nat := bits r 103 98
def rRq (r : Nat) : Bool := bit r 97
def rOrdered (r : Nat) : Bool := bit r 96

/-- Number of slots of a job on this device (R231). -/
def Job.slots (j : Job) : Nat := (j.shardLast + 1 - j.shardFirst) * j.bin.lcores
/-- Logical core of a slot within its shard, and its shard (R231). -/
def Job.lcoreOf (j : Job) (d : Nat) : Nat := d % j.bin.lcores
def Job.shardOf (j : Job) (d : Nat) : Nat := j.shardFirst + d / j.bin.lcores
/-- The stream of a slot. -/
def Job.streamOf (j : Job) (d : Nat) : List W128 := j.bin.stream (j.lcoreOf d)

/-- Index of the `t`-th STEP_BEGIN of a stream, from position `i`: the start of template `t`'s segment (R230). -/
def segStart : List W128 → Nat → Nat → Option Nat
  | [], _, _ => none
  | r :: rest, t, i =>
    if rOpcode r.toNat = 0x01 then
      (match t with
       | 0 => some i
       | t + 1 => segStart rest t (i + 1))
    else segStart rest t (i + 1)

/-- Index past the STEP_END that ends a segment begun at `i`. -/
def segLen : List W128 → Nat
  | [] => 0
  | r :: rest => if rOpcode r.toNat = 0x02 then 1 else 1 + segLen rest

/-- The records of template `t` in a stream, with the index of the first. -/
def segment (s : List W128) (t : Nat) : Nat × List W128 :=
  match segStart s t 0 with
  | some i => (i, (s.drop i).take (segLen (s.drop i)))
  | none => (s.length, [])

/-! ### Reading the step's view of memory -/

/-- A byte of a space as the slot's records read it (R275): 0 till, 1 vault, 2 HBM. -/
def Ctx.rd (c : Ctx) (space : Nat) (a : Nat) : Byte :=
  match space with
  | 0 => shGet c.slot.till (nthD Mem.empty c.job.tills c.d) a
  | 1 => shGet c.run.vault c.job.vault a
  | _ => shGet c.run.hbm c.job.hbm a

/-- A byte of the posted copy (R209). -/
def Ctx.rdPosted (c : Ctx) (space : Nat) (a : Nat) : Byte :=
  match space with
  | 0 => cellGet a (nthD Mem.empty c.job.tills c.d).cells
  | 1 => cellGet a c.job.vault.cells
  | _ => cellGet a c.job.hbm.cells

/-- A block's poison mark as the slot's records see it. -/
def Ctx.poisoned (c : Ctx) (space : Nat) (a : Nat) : Bool :=
  match space with
  | 0 => shPoisoned c.slot.till (nthD Mem.empty c.job.tills c.d) (a / 64)
  | 1 => shPoisoned c.run.vault c.job.vault (a / 64)
  | _ => shPoisoned c.run.hbm c.job.hbm (a / 64)

/-- The descriptor that a record field names. -/
def Ctx.desc (c : Ctx) (i : Nat) : W128 := c.job.bin.entry i

/-- The value of element `(r, col)` of a descriptor. -/
def Ctx.elem (c : Ctx) (d : W128) (r col : Nat) : Val := dElemVal (c.rd (dSpace d)) d r col
def Ctx.code (c : Ctx) (d : W128) (r col : Nat) : Nat := dElemCode (c.rd (dSpace d)) d r col
def Ctx.aux (c : Ctx) (d : W128) (r col : Nat) : Nat := dElemAux (c.rd (dSpace d)) d r col

/-- Addresses of the bytes that an element's read touches: its code, and its exponent or scale byte. -/
def codeTouch (d : W128) (r col : Nat) : List Nat := [dElemAddr d r col, dElemAddr d r col + dElemLen d col - 1]
def elemTouch (d : W128) (r col : Nat) : List Nat :=
  codeTouch d r col ++ (match dAuxAddr d r col with | some x => [x] | none => [])

/-- The poisoned blocks among the elements of a rectangle (R288). -/
def Ctx.poisonIn (c : Ctx) (d : W128) (r0 nr c0 nc : Nat) : List (Nat × Nat) :=
  let sp := dSpace d
  ((List.range nr).flatMap (fun r =>
    ((List.range nc).flatMap (fun k => elemTouch d (r0 + r) (c0 + k))).filter (fun a => c.poisoned sp a))).map
      (fun a => (sp, a / 64 * 64))

/-- Writes of a list of bytes into a space. -/
def inSpace (sp : Nat) (l : List (Nat × Byte)) : List (Nat × Nat × Byte) := l.map (fun p => (sp, p.1, p.2))

/-! ### Finisher and former sources -/

/-- A tile-buffer code; a slot that nothing in the run has written is a free value (R133, log 2). -/
def Ctx.tbCode (c : Ctx) (tb m k : Nat) : Nat :=
  match look (64 * m + k) (nthD ⟨.fp32, []⟩ c.slot.tb tb).codes with
  | some w => w.toNat
  | none => Config.recordFree c.place (tb * 4096 + 64 * m + k) % 2 ^ 32

/-- The first 64-bit word of a tile buffer: two elements of its first row. -/
def Ctx.tbWord (c : Ctx) (tb : Nat) : Nat := c.tbCode tb 0 0 + c.tbCode tb 0 1 * 2 ^ 32

/-- A tile-buffer element under a format (R133). -/
def Ctx.tbElem (c : Ctx) (f : Fmt) (tb m k : Nat) : Val := decodeCode f (c.tbCode tb m k % 2 ^ fmtBits f)

/-- A finisher source (the SRC encodings under Records of chapter 05). DESIGN CHOICE: a constant under BP8, BP6, BP4 or
I8 has exponent 0 or scale 1, and one under T256 is the entry's 128 bits extended with zeros: the spec gives neither
(log 53). SRC 0b110 of an instruction with STAT 0b10 reads
MAXABS as it stands before that instruction's clear: R148 does not say which, and R206 settles ROW_CURRENT alone (DESIGN
CHOICE; log 20). -/
def Ctx.src (c : Ctx) (src : Nat) (f : Fmt) (x : W128) (xRow xCol konst : Nat) (m k : Nat) : Val :=
  match src with
  | 0 => c.tbElem f 0 m k
  | 1 => c.tbElem f 1 m k
  | 2 => c.tbElem f 2 m k
  | 3 => c.tbElem f 3 m k
  | 4 => c.elem x (xRow + m) (xCol + k)
  | 5 => decodeCode f ((c.job.bin.entry konst).toNat % 2 ^ fmtBits f)
  | 6 => Val.ofFrac (maxabsFrac (nthD StatSet.zero c.slot.stat m).maxabs)
  | _ => Val.zero false

/-- The poisoned blocks a till-stream source reads (R288). -/
def Ctx.srcPoison (c : Ctx) (src : Nat) (x : W128) (xRow xCol rows cols : Nat) : List (Nat × Nat) :=
  if src = 4 then c.poisonIn x xRow rows xCol cols else []

/-! ### What an instruction forms for one element, and how it is stored -/

/-- A formed element: its value before rounding, and whether forming it counts into INVALID (Table 5-3). -/
structure Formed where
  val : Val
  /-- the word that a former store passes to RND, where it is not the value that is encoded (R166, R202) -/
  word : Option Val := none
  inv : Bool := false
  /-- a poisoned lane was drained (R144) -/
  poison : Bool := false
deriving DecidableEq, Repr

/-- The input from which a scale rule takes a block's or row's scale (R202). -/
def Formed.input (f : Formed) : Val := f.word.getD f.val

/-- A stored element: its encoding and what it counts. -/
structure Stored where
  enc : Enc
  aux : Nat
  formed : Formed
deriving DecidableEq, Repr

/-! ### Scale rules (Table 7-2) -/

def ruleKind (r : Nat) : Nat := bits r 63 60
def ruleOffset (r : Nat) : Int := signed (bits r 55 52) 4
def ruleFixed (r : Nat) : Nat := bits r 51 44
def ruleUpdate (r : Nat) : Bool := bit r 43
def rulePlane (r : Nat) : Nat := bits r 42 31
def ruleInit (r : Nat) : Nat := bits r 30 23

/-- The largest finite magnitude of a list of inputs. -/
def blockMax : List Val → Frac → Frac
  | [], m => m
  | v :: t, m => blockMax t (if v.cls = .finite then m.max v.toFrac.abs else m)

/-- `block_exponent` (R203). -/
def blockExponent (f : Fmt) (offset : Int) (xs : List Val) : Int :=
  let m := blockMax xs Frac.zero
  if m.isZero then 0
  else
    let h : Int := if f = .bp8 then 3 else 1
    min (max (floorLog2 m.num.natAbs m.den - h + offset) (-32)) 31

/-- The shared exponent byte of a block under a rule (R202, R203). -/
def blockByte (f : Fmt) (rule : Nat) (xs : List Val) : Nat :=
  if ruleKind rule = 0 then wrap (blockExponent f (ruleOffset rule) xs) 8 else ruleFixed rule

/-- The posted second-level entry of a group (R207, R208, R209). -/
def Ctx.planeEntry (c : Ctx) (desc g : Nat) : Option Frac :=
  let d := c.desc desc
  decodeS2 (dElemCode (c.rdPosted 0) d (g / dCols d) (g % dCols d))

/-- `row_code` (R205, R206). -/
def Ctx.rowCode (c : Ctx) (rule xRow m : Nat) : Nat :=
  match ruleKind rule with
  | 2 =>
    let w := (nthD StatSet.zero c.slot.stat m).maxabs
    if bit w.toNat 63 then p8Ceil ((maxabsFrac w).div (Frac.ofInt 127)) else 0x01
  | 3 =>
    match c.planeEntry (rulePlane rule) ((xRow + m) / 256) with
    | some v => p8Ceil (v.div (Frac.ofInt 127))
    | none => ruleInit rule
  | _ => ruleFixed rule

/-- The exponent byte of element `(m, k)` of a formed rectangle (R145, R203): its block runs along the
row for RAX 0 and down the column for RAX 1. -/
def blockAux (f : Fmt) (rule : Nat) (d : W128) (vals : List (List Formed)) (m k : Nat) : Nat :=
  let b := dBlock d
  let xs := if dRax d = 0 then ((nthD [] vals m).drop (k / b * b)).take b
    else (((vals.drop (m / b * b)).take b).map (fun row => nthD { val := Val.zero false } row k))
  blockByte f rule (xs.map (·.input))

/-- The scale or exponent byte that a store gives element `(m, k)`, 0 where the format has none. -/
def Ctx.storeAux (c : Ctx) (f : Fmt) (rule : Nat) (d : W128) (xRow : Nat) (vals : List (List Formed))
    (m k : Nat) : Nat :=
  if isBlock f then blockAux f rule d vals m k
  else if f = .i8 then c.rowCode rule xRow m
  else 0

/-- Encode a formed rectangle into a format (R138, R145). -/
def Ctx.storeAll (c : Ctx) (f : Fmt) (mode : Rnd) (rule : Nat) (d : W128) (xRow : Nat)
    (vals : List (List Formed)) : List (List Stored) :=
  (List.range vals.length).map (fun m =>
    let row := nthD [] vals m
    (List.range row.length).map (fun k =>
      let e := nthD { val := Val.zero false } row k
      let aux := c.storeAux f rule d xRow vals m k
      { enc := encodeAny f mode aux e.val, aux := aux, formed := e }))

/-- What one stored element adds to INVALID: once, however many rules name it (R140, R144, R146). -/
def Stored.invN (s : Stored) : Nat := if s.formed.inv || s.formed.poison || s.enc.inv then 1 else 0

/-- Counts of one row into its statistic set (R140, R144, R146). -/
def countRow (row : List Stored) (s : StatSet) : StatSet :=
  let s := if row.any (·.formed.poison) then s.setPoison else s
  s.addCounts (row.foldl (fun n e => n + e.invN) 0) (row.foldl (fun n e => n + b2n e.enc.sat) 0)
    (row.foldl (fun n e => n + b2n e.enc.flush) 0)

/-- The values of a row as written (R148). -/
def writtenVals (f : Fmt) (row : List Stored) : List Val := row.map (fun e => decodeElem f e.enc.code e.aux)

/-- Update statistic sets 0, 1, … from the rows of a store; the STAT clear comes before the row's counts (R148). -/
def statAll (f : Fmt) (stat : Nat) : List (List Stored) → List StatSet → List StatSet
  | [], ss => ss
  | _, [] => []
  | row :: t, s :: ss => statRow stat (writtenVals f row) (countRow row s) :: statAll f stat t ss

/-- The code of an element as hallmarks and countersigns take it (R156). -/
def hallBits (f : Fmt) (code aux : Nat) : Nat :=
  if isBlock f ∨ f = .i8 then aux * 2 ^ fmtBits f + code else code

/-- The sum of H over a stored rectangle (R156). -/
def hallSum (f : Fmt) (d : W128) (xRow xCol : Nat) (rows : List (List Stored)) : W128 :=
  (List.range rows.length).foldl (fun acc m =>
    let row := nthD [] rows m
    (List.range row.length).foldl (fun acc k =>
      match row[k]? with
      | some e => acc + hallmarkH ((xRow + m) * dCols d + xCol + k) (hallBits f e.enc.code e.aux)
      | none => acc) acc) 0

/-- The bytes of a stored rectangle: its codes, then its exponent or scale bytes (R52, R54, R145). -/
def Ctx.storeWrites (c : Ctx) (f : Fmt) (d : W128) (xRow xCol : Nat) (rows : List (List Stored)) :
    List (Nat × Nat × Byte) :=
  let codes := (List.range rows.length).flatMap (fun m =>
    dRowWrites (c.rd 0) d (xRow + m) xCol ((nthD [] rows m).map (·.enc.code)))
  let auxes := if isBlock f || decide (f = .i8) then
      (List.range rows.length).flatMap (fun m =>
        let row := nthD [] rows m
        (List.range row.length).filterMap (fun k =>
          match dAuxAddr d (xRow + m) (xCol + k), row[k]? with
          | some a, some e => some (a, BitVec.ofNat 8 e.aux)
          | _, _ => none))
    else []
  inSpace 0 (codes ++ auxes)

/-- Write a stored rectangle into a tile buffer, whose format becomes the store's (R133). -/
def tbStore (f : Fmt) (rows : List (List Stored)) (tb : TileBuf) : TileBuf :=
  { fmt := f
    codes := (List.range rows.length).foldl (fun acc m =>
      let row := nthD [] rows m
      (List.range row.length).foldl (fun acc k =>
        match row[k]? with
        | some e => put (64 * m + k) (BitVec.ofNat 32 e.enc.code) acc
        | none => acc) acc) tb.codes }

/-- Fold the finite inputs of an updating store into the group maxima (R209). -/
def foldMaxima (plane xRow : Nat) (vals : List (List Formed)) (gm : List (Nat × Frac)) : List (Nat × Frac) :=
  (List.range vals.length).foldl (fun gm m =>
    let mx := blockMax ((nthD [] vals m).map (·.input)) Frac.zero
    if mx.isZero then gm
    else
      let k := plane * 65536 + (xRow + m) / 256
      put k ((lookD Frac.zero k gm).max mx) gm) gm

/-- A store's fields, common to finisher and former records. -/
structure StoreTo where
  fmt : Fmt
  mode : Rnd
  /-- destination tile buffer, or none for the till -/
  tb : Option Nat
  desc : W128
  xRow : Nat
  xCol : Nat
  stat : Nat
  hall : Option Nat
  /-- scale rule, for quantised destinations -/
  rule : Nat
deriving DecidableEq, Repr

/-- The rows that a store has encoded go to their destination, with statistics, hallmark and group maxima. -/
def Ctx.finishStore (c : Ctx) (t : StoreTo) (vals : List (List Formed)) (rows : List (List Stored)) : RecOut :=
  let s := c.slot
  let q := isBlock t.fmt || decide (t.fmt = .i8)
  let s := { s with stat := statAll t.fmt t.stat rows s.stat }
  let s := match t.tb with
    | some b => { s with tb := setNth s.tb b (tbStore t.fmt rows (nthD ⟨.fp32, []⟩ s.tb b)) }
    | none => s
  let s := match t.hall with
    | some h => { s with hall := setNth s.hall h (nthD 0 s.hall h + hallSum t.fmt t.desc t.xRow t.xCol rows) }
    | none => s
  let s := if q && ruleUpdate t.rule then { s with groupMax := foldMaxima (rulePlane t.rule) t.xRow vals s.groupMax }
    else s
  { slot := s
    writes := match t.tb with
      | some _ => []
      | none => c.storeWrites t.fmt t.desc t.xRow t.xCol rows }

/-- A store of formed values (R138, R145). -/
def Ctx.store (c : Ctx) (t : StoreTo) (vals : List (List Formed)) : RecOut :=
  c.finishStore t vals (c.storeAll t.fmt t.mode t.rule t.desc t.xRow vals)

end Sys2Proof.Machine
end

