-- ==== Sys2Proof/Machine/Mill.lean ====
section
/-! DEFINITION. The records of the mill: the weight load and the pass (R80 to R90, R104 to R108, R127, R128). -/

namespace Sys2Proof.Machine

/-- A weight register. -/
def Slot.wreg (s : Slot) (i : Nat) : WeightReg := if i = 0 then s.wreg0 else s.wreg1
def Slot.setWreg (s : Slot) (i : Nat) (w : WeightReg) : Slot :=
  if i = 0 then { s with wreg0 := w } else { s with wreg1 := w }

/-- Slots per PE of the Q field (Table 4-8). -/
def qOf (f : Nat) : Nat := if f = 0 then 1 else if f = 1 then 2 else 4

/-- The lane factor of a mill format (R104). -/
def laneFactor : Fmt → Nat
  | .p16 | .bf16 | .fp16 => 1
  | .bp4 => 4
  | _ => 2

/-- `q` of a pass (R104). -/
def passQ (a w : Fmt) : Nat := min (laneFactor a) (laneFactor w)

/-- PE rows per group of the GROUP field (Table 3-1). -/
def groupRows (g : Nat) : Nat := if g = 0 then 16 else if g = 1 then 8 else 4

/-- The weight load record (Table 4-8, R105, R108). -/
def doMillLoad (c : Ctx) (r : Nat) : RecOut :=
  let fmt := (fmtOf (bits r 95 92)).getD .p16
  let rows := bits r 90 85 + 1
  let cols := bits r 84 79 + 1
  let d := c.desc (bits r 78 67)
  let k0 := bits r 66 51
  let n0 := bits r 50 35
  let q := qOf (bits r 34 33)
  let ps := (List.range rows).flatMap (fun pr =>
    (List.range cols).flatMap (fun n =>
      (List.range q).filterMap (fun j =>
        let row := k0 + q * pr + j
        let p := expand fmt (c.code d row (n0 + n)) (c.aux d row (n0 + n))
        if p = 0 then none else some ((64 * pr + n) * 4 + j, BitVec.ofNat 28 p))))
  { slot := c.slot.setWreg (bits r 91 91)
      { fmt := fmt, q := q, kRows := rows, nCols := cols, wK0 := k0, planchets := ps }
    consumed := c.poisonIn d k0 (q * rows) n0 cols }

/-- A tally entry of a column; it starts exact and zero (R84). -/
def tallyEntry (s : Slot) (col e : Nat) : TallyEntry :=
  lookD ⟨false, 0, [{}]⟩ (col * 256 + e) s.tally

/-- One FP32 slot of an entry's word (R80). -/
def slotCode (w : W256) (s : Nat) : Nat := bits w.toNat (32 * s + 31) (32 * s)

/-- An entry's word with one FP32 slot replaced. -/
def setSlotCode (w : W256) (s code : Nat) : W256 :=
  BitVec.ofNat 256 (setBits w.toNat (32 * s + 31) (32 * s) code)

/-- `begin_pass` on an exact lane (R85, R86): the lane before the first group. -/
def beginExact (acc col : Nat) (e : TallyEntry) (loaded : Nat) : LaneVal :=
  match acc with
  | 0 => { st := nthD {} e.lanes 0, v := signed e.word.toNat 256 }
  | 1 => { st := {} }
  | _ =>
    if loaded = 2 ^ 255 then { st := noteInvalid {} 6 0 col 0 }
    else { st := {}, v := signed loaded 256 }

/-- `begin_pass` on an FP32 lane (R85, R86). -/
def beginFp32 (acc col slot : Nat) (e : TallyEntry) (loaded : Nat) : LaneVal :=
  match acc with
  | 0 => { st := nthD {} e.lanes slot, acc := decodeCode .fp32 (slotCode e.word slot) }
  | 1 => { st := {} }
  | _ =>
    let v := decodeCode .fp32 loaded
    if v.cls = .invalid then { st := noteInvalid {} 6 0 col 0, acc := Val.bad }
    else { st := {}, acc := v }

/-- The FP32 form of an entry when a reduction begins in one of its slots: from exact, the other seven
slots become +0 with clear statuses (R82). -/
def toFp32 (e : TallyEntry) : TallyEntry :=
  if e.fp32 then e else ⟨true, 0, List.replicate 8 {}⟩

/-- One lane of a pass: the new entry, and the code that a till store writes (R80, R82, R87). DESIGN CHOICE: an add to an
entry with the other mode tag, which R83 gives a sequencer fault only, works on the entry taken to the pass's own mode
with fresh lanes (log 53). -/
def passLane (fp32 : Bool) (acc col gk slot loaded : Nat) (ps : List (Nat × Nat)) (e : TallyEntry) :
    TallyEntry × Nat :=
  if fp32 then
    let e := toFp32 e
    let l := passFp32 col gk (decide (acc = 1)) ps (beginFp32 acc col slot e loaded)
    let code := fp32LaneCode l
    (⟨true, setSlotCode e.word slot code, setNth e.lanes slot l.st⟩, code)
  else
    let l := passExact col gk ps (beginExact acc col (if e.fp32 then ⟨false, 0, [{}]⟩ else e) loaded)
    let code := exactLaneCode l
    (⟨false, BitVec.ofNat 256 code, [l.st]⟩, code)

/-- The first row-entry whose mode tag is not the one that a pass without a new reduction adds in (R83). -/
def tagClash (s : Slot) (fp32 : Bool) (index rows cols : Nat) : Option Nat :=
  ((List.range rows).map (fun m => index + m)).find? (fun re =>
    (List.range cols).any (fun col => (tallyEntry s col (if fp32 then re / 8 else re)).fp32 != fp32))

/-- The event of a mode tag that does not match, which the run answers with a recount (R83, R335). -/
def tagRaise (s : Slot) (fp32 : Bool) (acc index rows cols rec_ : Nat) : List Raise :=
  if acc ≠ 0 then []
  else match tagClash s fp32 index rows cols with
    | some re => [{ code := 0x03, w6 := 2 ^ 56 + re, w7 := recHigh rec_, recount := true, detail := 0 }]
    | none => []

/-- The pass record (Table 4-9, R70 to R90, R128): rows in order, and within a row its columns. -/
def doMillPass (c : Ctx) (r : Nat) : RecOut :=
  let fa := (fmtOf (bits r 95 92)).getD .p16
  let w := c.slot.wreg (bits r 87 87)
  let g := groupRows (bits r 86 85)
  let acc := bits r 84 83
  let store := bit r 82
  let index := bits r 80 70
  let n := bits r 69 59 + 1
  let k := bits r 58 51 + 1
  let cols := bits r 50 45 + 1
  let ad := c.desc (bits r 44 33)
  let arow := bits r 32 17
  let accDesc := c.desc (bits r 16 5)
  let fp32 := isFp32Path fa
  let q := passQ fa w.fmt
  let gk := if fp32 then g else g * q
  let acts (m : Nat) : List Nat := (List.range k).map (fun i =>
    expand fa (c.code ad (arow + m) (w.wK0 + i)) (c.aux ad (arow + m) (w.wK0 + i)))
  let weights (col : Nat) : List Nat := (List.range k).map (fun i =>
    (lookD 0 ((64 * (i / q) + col) * 4 + i % q) w.planchets).toNat)
  let lane (m : Nat) (as : List Nat) (s : Slot × List (Nat × Byte)) (col : Nat) : Slot × List (Nat × Byte) :=
    let re := index + m
    let ent := if fp32 then re / 8 else re
    let e := tallyEntry s.1 col ent
    let loaded := if acc = 2 then c.code accDesc m col else 0
    let o := passLane fp32 acc col gk (re % 8) loaded (List.zip as (weights col)) e
    ({ s.1 with tally := put (col * 256 + ent) o.1 s.1.tally },
     if store then s.2 ++ dRowWrites (c.rd 0) accDesc m col [o.2] else s.2)
  let res := (List.range n).foldl (fun s m => (List.range cols).foldl (lane m (acts m)) s) (c.slot, [])
  { slot := res.1
    writes := inSpace 0 res.2
    digestAs := some []
    raises := tagRaise c.slot fp32 acc index n cols r
    consumed := c.poisonIn ad arow n w.wK0 k
      ++ (if acc = 2 then c.poisonIn accDesc 0 n 0 cols else []) }

end Sys2Proof.Machine
end

