-- ==== Sys2Proof/Machine/Access.lean ====
section
/-! DEFINITION. Which rectangles of which tensors a record reads and writes: the loader's checks and the
received contributions ask it (R229, R234, R235, R322). -/

namespace Sys2Proof.Machine

/-- A rectangle of a tensor that a record touches. -/
structure Rect where
  desc : Nat
  row : Nat
  rows : Nat
  col : Nat
  cols : Nat
  write : Bool
  /-- logical core whose till it lies in, where that is not the record's own -/
  lcore : Option Nat := none
  /-- an atomic add -/
  atom : Bool := false
deriving DecidableEq, Repr

/-- The till operand of a finisher source field. -/
def srcRect (src desc row rows col cols : Nat) : List Rect :=
  if src = 4 then [⟨desc, row, rows, col, cols, false, none, false⟩] else []

/-- Rectangles that a record touches; `r2` is the record after it, `wk0` the first K index of the weight
register that a pass uses, and `param` a former record's parameter entry. -/
def rects (r r2 wk0 param : Nat) : List Rect :=
  let op := rOpcode r
  if op = 0x03 then
    (if bits r 89 87 = 4 then
      [⟨bits r 54 43, bits r 42 27, bits r 66 61 + 1, 64 * bits r 26 17, bits r 60 55 + 1, true, none, false⟩]
    else [])
  else if op = 0x20 ∨ op = 0x22 ∨ op = 0x23 then
    let nr := bits r 45 34 + 1
    let nc := bits r 33 28 + 1
    let t := decide (op = 0x20) && bit r 27
    [ ⟨bits r 95 84, bits r 83 60, nr, 64 * bits r 59 46, nc, false, none, false⟩
    , ⟨bits r2 95 84, bits r2 83 60, if t then nc else nr, 64 * bits r2 59 46, if t then nr else nc, true,
        some (bits r2 45 37), decide (op ≠ 0x20)⟩ ]
  else if op = 0x40 then
    [⟨bits r 78 67, bits r 66 51, qOf (bits r 34 33) * (bits r 90 85 + 1), bits r 50 35, bits r 84 79 + 1,
      false, none, false⟩]
  else if op = 0x41 then
    let n := bits r 69 59 + 1
    let cols := bits r 50 45 + 1
    [⟨bits r 44 33, bits r 32 17, n, wk0, bits r 58 51 + 1, false, none, false⟩]
      ++ (if bits r 84 83 = 2 then [⟨bits r 16 5, 0, n, 0, cols, false, none, false⟩] else [])
      ++ (if bit r 82 then [⟨bits r 16 5, 0, n, 0, cols, true, none, false⟩] else [])
  else if 0x50 ≤ op ∧ op ≤ 0x5A then
    let d := bits r 49 38
    let x := bits r 37 22
    let rows := bits r 61 56 + 1
    let c := 64 * bits r 21 12
    let cols := bits r 55 50 + 1
    srcRect (bits r 79 77) d x rows c cols ++ srcRect (bits r 76 74) d x rows c cols
      ++ (if bits r 71 69 = 4 then [⟨d, x, rows, c, cols, true, none, false⟩] else [])
  else if op = 0x5B then
    let d := bits r 44 33
    let x := bits r 32 17
    let rows := bits r 56 51 + 1
    let c := 64 * bits r 16 7
    let cols := bits r 50 45 + 1
    (if bits r 84 83 = 0 then [] else srcRect (bits r 87 85) d x rows c cols)
      ++ (if bits r 82 80 = 4 then [⟨d, x, rows, c, cols, true, none, false⟩] else [])
  else if op = 0x5C then
    [⟨bits r 53 42, 0, (bits r 81 66 + 1) * (bits r 65 60 + 1), 0, bits r 59 54 + 1, false, none, false⟩]
  else if 0x60 ≤ op ∧ op ≤ 0x63 then
    (if bit r 79 then
      [⟨bits param 63 52, bits param 51 36, bits r 47 42 + 1, 64 * bits param 35 26, bits r 41 36 + 1, true,
        none, false⟩]
    else [])
  else if op = 0x70 then
    [⟨bits r 95 84, bits r 83 60, bits r 45 34 + 1, 64 * bits r 59 46, bits r 33 28 + 1, false, none, false⟩]
  else []

/-- Byte ranges of a rectangle: first address and the address past the last, by row, with its exponent or
scale bytes. -/
def rectRanges (d : W128) (x : Rect) : List (Nat × Nat) :=
  let last := x.col + x.cols - 1
  (List.range x.rows).map (fun m => (dElemAddr d (x.row + m) x.col, dElemAddr d (x.row + m) last + dElemLen d last))
    ++ (if isBlock (dFmt d) || decide (dFmt d = .i8) then
        (List.range x.rows).filterMap (fun m =>
          match dAuxAddr d (x.row + m) x.col, dAuxAddr d (x.row + m) last with
          | some a, some b => some (a, b + 1)
          | _, _ => none)
      else [])

/-- Two byte ranges meet. -/
def meets (a b : Nat × Nat) : Bool := decide (a.1 < b.2) && decide (b.1 < a.2)

end Sys2Proof.Machine
end

