-- ==== Sys2Proof/Machine/Carder.lean ====
section
/-! DEFINITION. What the carder copies and adds: moves, atomic adds and contributions (R278 to R287, R318,
R320). -/

namespace Sys2Proof.Machine

/-- The codes of one source row, or of one source column where the copy transposes. -/
def Ctx.copyCodes (c : Ctx) (sd : W128) (row col n : Nat) (t : Bool) : List Nat :=
  (List.range n).map (fun i => if t then c.code sd (row + i) col else c.code sd row (col + i))

/-- The bytes that a copy of a rectangle writes (R280, R281): codes in the bit pattern of the source, then
the exponent or scale bytes that the rectangle covers. `rd` reads the destination's other bits. -/
def Ctx.copyWrites (c : Ctx) (rd : Nat → Byte) (sd dd : W128) (sr sc nr nc dr dc : Nat) (t : Bool) :
    List (Nat × Byte) :=
  let m := if t then nc else nr
  let n := if t then nr else nc
  (List.range m).flatMap (fun i =>
    dRowWrites rd dd (dr + i) dc (if t then c.copyCodes sd sr (sc + i) n true else c.copyCodes sd (sr + i) sc n false))
  ++ (if isBlock (dFmt dd) || decide (dFmt dd = .i8) then
      (List.range nr).flatMap (fun i => (List.range nc).filterMap (fun k =>
        match dAuxAddr dd (dr + i) (dc + k) with
        | some a => some (a, BitVec.ofNat 8 (c.aux sd (sr + i) (sc + k)))
        | none => none))
    else [])

/-- Destination blocks that a copy poisons: those that take an element's code from a poisoned source block, and those
that take its exponent or scale byte from one (R287). -/
def Ctx.copyMarks (c : Ctx) (sd dd : W128) (sr sc nr nc dr dc : Nat) (t : Bool) : List Nat :=
  let sp := dSpace sd
  (List.range nr).flatMap (fun i => (List.range nc).flatMap (fun k =>
    let r := dr + (if t then k else i)
    let q := dc + (if t then i else k)
    (if (codeTouch sd (sr + i) (sc + k)).any (fun a => c.poisoned sp a) then
      (codeTouch dd r q).map (fun a => a / 64) else [])
    ++ (match dAuxAddr sd (sr + i) (sc + k), dAuxAddr dd r q with
      | some a, some b => if c.poisoned sp a then [b / 64] else []
      | _, _ => [])))

/-- What a move or an atomic add captures when it issues (R280, R281, R284). -/
structure Capture where
  space : Nat
  /-- destination slot, for a till -/
  slot : Nat
  writes : List (Nat × Byte)
  marks : List Nat
  arrival : Nat
deriving DecidableEq, Repr

/-- Slot of a shard and logical core that this device hosts. -/
def Job.slotOf (j : Job) (shard lcore : Nat) : Option Nat :=
  if j.shardFirst ≤ shard ∧ shard ≤ j.shardLast then some ((shard - j.shardFirst) * j.bin.lcores + lcore) else none

/-- A byte of a space, with slot `k`'s till, as the running step sees it. -/
def Ctx.rdAt (c : Ctx) (k sp a : Nat) : Byte :=
  if sp = 0 then
    shGet (if k = c.d then c.slot.till else nthD Shadow.empty (c.run.slots.map (·.till)) k)
      (nthD Mem.empty c.job.tills k) a
  else c.rd sp a

/-- What a MOVE reads, as it is issued (R278). -/
def Ctx.capture (c : Ctx) (r r2 : Nat) : Capture :=
  let sd := c.desc (bits r 95 84)
  let dd := c.desc (bits r2 95 84)
  let nr := bits r 45 34 + 1
  let nc := bits r 33 28 + 1
  let t := decide (rOpcode r = 0x20) && bit r 27
  let sr := bits r 83 60
  let sc := 64 * bits r 59 46
  let dr := bits r2 83 60
  let dc := 64 * bits r2 59 46
  let lc := c.job.bin.lcores
  let slot := c.d / lc * lc + bits r2 45 37
  let sp := dSpace dd
  { space := sp, slot := slot
    writes := c.copyWrites (c.rdAt slot sp) sd dd sr sc nr nc dr dc t
    marks := c.copyMarks sd dd sr sc nr nc dr dc t
    arrival := if bit r2 36 then 48 + bits r2 35 32 else 0 }

/-- One T256 atomic add (Table 9-9): the NaR where either value is it. -/
def atomT256 (a b : Nat) : Nat :=
  if a = 2 ^ 255 ∨ b = 2 ^ 255 then 2 ^ 255
  else match exactAdd (decodeT256 a) (decodeT256 b) with
  | some v => (encodeT256 v).code
  | none => 2 ^ 255

/-- One FP32 atomic add (Table 9-9). -/
def atomFp32 (a b : Nat) : Nat :=
  let v := (fp32AddCore (decodeCode .fp32 a) (decodeCode .fp32 b)).1
  if v.cls = .invalid then 0x7FC00000 else (encode .fp32 .rne v).code

/-- Atomic adds of `n`-byte elements: each addend starts at an address in the list; `cur` is the memory as it
stands. Addends are given as bytes in address order, whole elements. -/
def atomLoop (fp32 : Bool) (rd : Nat → Byte) : Nat → List (Nat × Byte) → List (Nat × Byte)
  | 0, _ => []
  | n + 1, ws =>
    match ws with
    | [] => []
    | (a, _) :: _ =>
      let len := if fp32 then 4 else 32
      let x := leNat ((ws.take len).map (·.2))
      let y := leNat ((List.range len).map (fun i => rd (a + i)))
      let bs := leBytes len (if fp32 then atomFp32 y x else atomT256 y x)
      (List.range len).map (fun i => (a + i, nthD 0 bs i)) ++ atomLoop fp32 rd n (ws.drop len)

/-- The bytes that a list of addends leaves (R284). -/
def atomWrites (fp32 : Bool) (rd : Nat → Byte) (ws : List (Nat × Byte)) : List (Nat × Byte) :=
  atomLoop fp32 rd ws.length ws

/-! ### Engines -/

/-- In-order engine of an opcode: mill, finisher, former; none for the others (R229). -/
def engineOfOp (op : Nat) : Option Nat :=
  if op = 0x40 ∨ op = 0x41 then some 0
  else if 0x50 ≤ op ∧ op ≤ 0x5D then some 1
  else if 0x60 ≤ op ∧ op ≤ 0x63 then some 2
  else none

/-- Engine whose records complete in the order in which they issued: those, the carder, and the ChaCha20 unit. Moves of
different logical cores land in any order (R227, R364; DESIGN CHOICE of the order, log 53). -/
def orderedEngine (op : Nat) : Option Nat :=
  if op = 0x20 ∨ op = 0x22 ∨ op = 0x23 then some 3
  else if op = 0x03 then some 4
  else engineOfOp op

/-! ### Contributions (R318, R320) -/

/-- Target shard of a contribution (Table 10-12). -/
def collShard (shards own r2 : Nat) : Nat :=
  if bit r2 95 then (own + bits r2 94 79) % shards else bits r2 94 79

/-- The contribution's countersign: H over its elements at their places in the destination (R320). -/
def Ctx.countersign (c : Ctx) (sd dd : W128) (sr sc nr nc dr dc : Nat) : W128 :=
  (List.range nr).foldl (fun acc i => (List.range nc).foldl (fun acc k =>
    acc + hallmarkH ((dr + i) * dCols dd + dc + k)
      (hallBits (dFmt sd) (c.code sd (sr + i) (sc + k)) (c.aux sd (sr + i) (sc + k)))) acc) 0

/-- The byte at a row's end that a rectangle of `n` columns fills in part, and how many of its bits it fills; the rest
belongs to the next element, which keeps it (R52, R318). -/
def partialByte (d : W128) (r c0 n : Nat) : Option (Nat × Nat) :=
  let nb := n * fmtBits (dFmt d)
  if nb % 8 = 0 ∨ c0 + n = dCols d then none else some (dElemAddr d r c0 + nb / 8, nb % 8)

/-- The bytes that a contribution's rectangle fills in part. -/
def partialBytes (d : W128) (r r2 : Nat) : List (Nat × Nat) :=
  (List.range (bits r 45 34 + 1)).filterMap (fun i =>
    partialByte d (bits r2 57 34 + i) (64 * bits r2 33 20) (bits r 33 28 + 1))

/-- The low `k` bits of one byte over the others of another. -/
def mergeByte (k : Nat) (new old : Byte) : Byte :=
  BitVec.ofNat 8 (new.toNat % 2 ^ k + old.toNat / 2 ^ k * 2 ^ k)

/-- A contribution as its record describes it. -/
structure Contrib where
  plan : Nat
  shard : Nat
  lcore : Nat
  space : Nat
  writes : List (Nat × Byte)
  consumed : List (Nat × Nat)
  csgn : W128
  arrival : Nat
deriving DecidableEq, Repr

/-- What a COLL_SEND sends (R318). -/
def Ctx.contrib (c : Ctx) (r r2 : Nat) : Contrib :=
  let sd := c.desc (bits r 95 84)
  let dd := c.desc (bits r2 69 58)
  let nr := bits r 45 34 + 1
  let nc := bits r 33 28 + 1
  let sr := bits r 83 60
  let sc := 64 * bits r 59 46
  let dr := bits r2 57 34
  let dc := 64 * bits r2 33 20
  { plan := bits r 27 16
    shard := collShard c.job.bin.shards (c.job.shardOf c.d) r2
    lcore := bits r2 78 70
    space := dSpace dd
    writes := c.copyWrites (fun _ => 0) sd dd sr sc nr nc dr dc false
    consumed := c.poisonIn sd sr nr sc nc
    csgn := c.countersign sd dd sr sc nr nc dr dc
    arrival := if bit r2 19 then 48 + bits r2 18 15 else 0 }

end Sys2Proof.Machine
end

