-- ==== Sys2Proof/Machine/Finisher.lean ====
section
/-! DEFINITION. The records of the finisher: element-wise instructions, drains, reductions and checks
(chapter 05). -/

namespace Sys2Proof.Machine

/-- The element-wise operations of Table 5-2. -/
inductive ElemOp
  | add | sub | mul | mad | min | max | abs | neg | cvt | sel | cmpge
deriving DecidableEq, Repr

/-- Sign order of MIN and MAX: `a` before `b`, with −0 below +0 (Table 5-2). -/
def minBefore (a b : Val) : Bool :=
  if a.cls = .zero ∧ b.cls = .zero then a.neg || !b.neg else !(b.lt a)

/-- An exact sum or product that may be invalid in a counted way (Table 5-3). -/
def formOpt : Option Val → Formed
  | some v => { val := v }
  | none => { val := Val.bad, inv := true }

/-- One element of an element-wise instruction, before its single rounding (R138, Tables 5-2 and 5-3). -/
def elemForm (op : ElemOp) (a b c : Val) : Formed :=
  let bad : Formed := { val := Val.bad }
  let inv2 := decide (a.cls = .invalid) || decide (b.cls = .invalid)
  match op with
  | .add => if inv2 then bad else formOpt (exactAdd a b)
  | .sub => if inv2 then bad else formOpt (exactAdd a b.negate)
  | .mul => if inv2 then bad else formOpt (exactMul a b)
  | .mad =>
    if inv2 || decide (c.cls = .invalid) then bad
    else
      match exactMul a b with
      | some p => formOpt (exactAdd p c)
      | none => { val := Val.bad, inv := true }
  | .min => if inv2 then bad else { val := if minBefore a b then a else b }
  | .max => if inv2 then bad else { val := if minBefore a b then b else a }
  | .abs => { val := if a.cls = .invalid then a else { a with neg := false } }
  | .neg => { val := a.negate }
  | .cvt => { val := a }
  | .sel =>
    if c.cls = .invalid then bad
    else { val := if decide (c.cls ≠ .zero) && !c.neg then a else b }
  | .cmpge => if inv2 then bad else { val := if a.lt b then Val.zero false else ⟨.finite, false, 1, 1⟩ }

/-- Round to odd or to nearest, as a record asks (R66). -/
def sndMode (b : Bool) : Rnd := if b then .rto else .rne

/-- The element-wise record (Table 5-11). -/
def doElem (op : ElemOp) (c : Ctx) (r : Nat) : RecOut :=
  let fd := (fmtOf (bits r 95 92)).getD .fp32
  let fa := (fmtOf (bits r 91 88)).getD .fp32
  let fb := (fmtOf (bits r 87 84)).getD .fp32
  let fc := (fmtOf (bits r 83 80)).getD .fp32
  let sa := bits r 79 77
  let sb := bits r 76 74
  let rows := bits r 61 56 + 1
  let cols := bits r 55 50 + 1
  let x := c.desc (bits r 49 38)
  let xRow := bits r 37 22
  let xCol := 64 * bits r 21 12
  let konst := bits r 11 0
  let dst := bits r 71 69
  let usesC := decide (op = .mad) || decide (op = .sel)
  let vals := (List.range rows).map (fun m => (List.range cols).map (fun k =>
    elemForm op (c.src sa fa x xRow xCol konst m k) (c.src sb fb x xRow xCol konst m k)
      (if usesC then c.tbElem fc (bits r 73 72) m k else Val.zero false)))
  let o := c.store
    { fmt := fd, mode := sndMode (bit r 68), tb := if dst < 4 then some dst else none
      desc := x, xRow := xRow, xCol := xCol, stat := bits r 67 66
      hall := if bit r 65 then some (bits r 64 62) else none, rule := c.job.bin.rule (konst % 64) } vals
  { o with consumed := c.srcPoison sa x xRow xCol rows cols ++ c.srcPoison sb x xRow xCol rows cols }

/-- The path of the latest reduction that began, before a record of the segment, at row-entry `index` in
its own numbering: true for FP32 (R142). -/
def trackedMode (index : Nat) : List W128 → Bool → Bool
  | [], cur => cur
  | w :: t, cur =>
    let r := w.toNat
    let hit := decide (rOpcode r = 0x41) && (decide (bits r 84 83 = 1) || decide (bits r 84 83 = 2))
      && decide (bits r 80 70 ≤ index) && decide (index ≤ bits r 80 70 + bits r 69 59)
    trackedMode index t (if hit then isFp32Path ((fmtOf (bits r 95 92)).getD .p16) else cur)

/-- The value of one lane at a drain, with its lane status (R92, R94). -/
def drainLane (s : Slot) (fp32 : Bool) (re col fuse : Nat) (z : Val) : DrainVal × LaneStat :=
  if fp32 then
    let e := tallyEntry s col (re / 8)
    let st := nthD {} e.lanes (re % 8)
    (drainFp32 st.poisoned (decodeCode .fp32 (slotCode e.word (re % 8))) fuse z, st)
  else
    let e := tallyEntry s col re
    let st := nthD {} e.lanes 0
    (drainExact st.poisoned (signed e.word.toNat 256) fuse z, st)

/-- The first poisoned lane of a drained rectangle in row-major order (R98). -/
def firstPoisoned : Nat → List (List (DrainVal × LaneStat)) → Option (Nat × Nat × LaneStat)
  | _, [] => none
  | m, row :: t =>
    match row.findIdx? (fun e => e.1.poisoned) with
    | some k => some (m, k, (nthD ({ val := Val.bad }, {}) row k).2)
    | none => firstPoisoned (m + 1) t

/-- The drain record (Table 5-12, R91 to R100, R142 to R146). -/
def doDrain (c : Ctx) (r : Nat) : RecOut :=
  let fd := (fmtOf (bits r 95 92)).getD .fp32
  let fz := (fmtOf (bits r 91 88)).getD .fp32
  let sz := bits r 87 85
  let fuse := bits r 84 83
  let dst := bits r 82 80
  let index := bits r 67 57
  let rows := bits r 56 51 + 1
  let cols := bits r 50 45 + 1
  let x := c.desc (bits r 44 33)
  let xRow := bits r 32 17
  let xCol := 64 * bits r 16 7
  let seg := segment (c.job.streamOf c.d) c.run.template
  let fp32 := trackedMode index (seg.2.take (c.slot.pc - seg.1)) false
  let lanes := (List.range rows).map (fun m => (List.range cols).map (fun k =>
    drainLane c.slot fp32 (index + m) k fuse
      (if fuse = 0 then Val.zero false else c.src sz fz x xRow xCol 0 m k)))
  let vals := lanes.map (fun row => row.map (fun e =>
    ({ val := e.1.val, inv := e.1.fused, poison := e.1.poisoned } : Formed)))
  let o := c.store
    { fmt := fd, mode := sndMode (bit r 79), tb := if dst < 4 then some dst else none
      desc := x, xRow := xRow, xCol := xCol, stat := bits r 78 77
      hall := if bit r 76 then some (bits r 75 73) else none, rule := c.job.bin.rule (bits r 6 1) } vals
  let pn := (lanes.flatMap id).countP (fun e => e.1.poisoned)
  let fn := (lanes.flatMap id).countP (fun e => e.1.fused)
  let first := firstPoisoned 0 lanes
  let trapped := bit r 72 && decide (0 < pn + fn)
  let ds := match first with
    | some (m, k, st) => drainStatus pn fn m k trapped st.status
    | none => drainStatus pn fn 0 0 trapped 0
  { o with
    slot := { o.slot with drain := setNth o.slot.drain (bits r 71 68) ds }
    consumed := if fuse = 0 then [] else c.srcPoison sz x xRow xCol rows cols
    raises := if trapped then
      [⟨0x08, bits ds.toNat 63 0, bits ds.toNat 127 64, false, 0x0103⟩] else [] }

/-- The sum of T256 partials (R150): the value, and how many invalid events it counts. -/
def reduceT256 : List Nat → Int → Nat → Bool → Val × Nat
  | [], v, n, bad =>
    if bad then (Val.bad, n)
    else if 2 ^ 255 ≤ v.natAbs then (Val.bad, n + 1)
    else (Val.ofFrac ⟨v, 2 ^ 112⟩, n)
  | x :: t, v, n, bad =>
    if x = 2 ^ 255 then reduceT256 t v (n + 1) true else reduceT256 t (v + signed x 256) n bad

/-- The running sum of FP32 partials (R150). -/
def reduceFp32 : List Nat → Val → Nat → Val × Nat
  | [], acc, n => (acc, n)
  | x :: t, acc, n =>
    let v := decodeCode .fp32 x
    let s := fp32AddCore acc v
    reduceFp32 t s.1 (n + b2n (decide (v.cls = .invalid)) + b2n s.2)

/-- When a byte range of the till last landed in the run; 0 where nothing in the run wrote it (R151). -/
def landedAt (lo hi : Nat) : Nat → List (List (Nat × Nat)) → Nat
  | _, [] => 0
  | i, rs :: t =>
    let later := landedAt lo hi (i + 1) t
    if later ≠ 0 then later else if rs.any (fun q => decide (q.1 < hi) && decide (lo < q.2)) then i + 1 else 0

/-- Insert a shard into landing order; ties go to the lower shard index (R151). -/
def insertLanding (k s : Nat) : List (Nat × Nat) → List (Nat × Nat)
  | [] => [(k, s)]
  | (k', s') :: t => if k < k' then (k, s) :: (k', s') :: t else (k', s') :: insertLanding k s t

/-- The order in which a reduction takes its shards (R151). -/
def shardOrder (c : Ctx) (p : W128) (shards rows cols : Nat) (order : Bool) : List Nat :=
  if order then
    let last (s : Nat) : Nat := (List.range rows).foldl (fun t m =>
      max t (landedAt (dElemAddr p (s * rows + m) 0)
        (dElemAddr p (s * rows + m) (cols - 1) + dElemLen p (cols - 1)) 0 c.slot.landings)) 0
    ((List.range shards).foldl (fun acc s => insertLanding (last s) s acc) []).map (·.2)
  else List.range shards

/-- The reduce record (Table 5-13, R150, R151). -/
def doReduce (c : Ctx) (r : Nat) : RecOut :=
  let fd := (fmtOf (bits r 95 92)).getD .fp32
  let t256 := decide (bits r 91 88 = 10)
  let shards := bits r 81 66 + 1
  let rows := bits r 65 60 + 1
  let cols := bits r 59 54 + 1
  let p := c.desc (bits r 53 42)
  let seq := shardOrder c p shards rows cols (bit r 87)
  let form (m k : Nat) : Val × Nat :=
    let xs := seq.map (fun s => c.code p (s * rows + m) k)
    if t256 then reduceT256 xs 0 0 false
    else
      match xs with
      | [] => (Val.bad, 0)
      | x :: t =>
        let v := decodeCode .fp32 x
        reduceFp32 t v (b2n (decide (v.cls = .invalid)))
  let res := (List.range rows).map (fun m => (List.range cols).map (fun k => form m k))
  let o := c.store
    { fmt := fd, mode := sndMode (bit r 84), tb := some (bits r 86 85), desc := 0, xRow := 0, xCol := 0
      stat := bits r 83 82, hall := none, rule := 0 }
    (res.map (fun row => row.map (fun e => ({ val := e.1 } : Formed))))
  let counts := res.map (fun row => row.foldl (fun n e => n + e.2) 0)
  let add (ss : List StatSet) : List StatSet := (List.range ss.length).map (fun m =>
    (nthD StatSet.zero ss m).addCounts (nthD 0 counts m) 0 0)
  { o with
    slot := { o.slot with stat := add o.slot.stat }
    consumed := c.poisonIn p 0 (shards * rows) 0 cols }

/-- Whether the record after a CHECK opens its requant block (R213, R225). -/
def rqFollows (c : Ctx) : Bool := rRq (nthD 0 (c.job.streamOf c.d) (c.slot.pc + 1)).toNat

/-- The check record (Table 5-13, R154, R155, R212, R213). -/
def doCheck (c : Ctx) (r : Nat) : RecOut :=
  let envIdx := bits r 95 84
  let e := c.desc envIdx
  let rows := (c.slot.stat.take (bits r 83 78 + 1))
  let w6 (test row : Nat) : Nat := test * 2 ^ 56 + row * 2 ^ 48 + envIdx * 2 ^ 36
  let rq := rRq r
  match plausFail e rows with
  | some (t, row) =>
    { slot := c.slot, skipRq := !rq && rqFollows c
      raises := [⟨0x06, w6 t row, 0, true, t * 256 + row⟩] }
  | none =>
    match satFail e rows with
    | none => { slot := c.slot, skipRq := !rq && rqFollows c }
    | some row =>
      let pol := if rq then 0 else envPolicy e
      if pol = 2 then
        { slot := c.slot, skipRq := !rq && rqFollows c
          raises := [⟨0x06, w6 5 row, 0, true, 5 * 256 + row⟩] }
      else
        { slot := c.slot, skipRq := !rq && rqFollows c && !(decide (pol = 1))
          raises := [⟨0x07, w6 5 row, 0, false, 5 * 256 + row⟩] }

/-- The random fill record (Table 8-14, R241, R242). -/
def doRng (c : Ctx) (r : Nat) : RecOut :=
  let fd := (fmtOf (bits r 95 92)).getD .fp32
  let dist := bits r 91 90
  let dst := bits r 89 87
  let rows := bits r 66 61 + 1
  let cols := bits r 60 55 + 1
  let x := c.desc (bits r 54 43)
  let xRow := bits r 42 27
  let xCol := 64 * bits r 26 17
  let t := (decodePosit ((c.job.bin.entry (bits r 16 5)).toNat % 2 ^ 32) 32 2).toFrac
  let word (m k : Nat) : Nat :=
    rngWord c.job.bin.key (bits r 86 67) c.run.step.toNat ((xRow + m) * dCols x + xCol + k)
  let code (m k : Nat) : Nat :=
    let w := word m k
    match dist with
    | 0 => w
    | 1 => (encode fd .rto (Val.ofFrac ⟨(w : Int), 2 ^ 32⟩)).code
    | _ => (encode fd .rne (if Frac.lt ⟨(w : Int), 2 ^ 32⟩ t then ⟨.finite, false, 1, 1⟩ else Val.zero false)).code
  let rowsOf := (List.range rows).map (fun m => (List.range cols).map (fun k =>
    ({ enc := { code := code m k }, aux := 0, formed := { val := Val.zero false } } : Stored)))
  if dst < 4 then
    { slot := { c.slot with tb := setNth c.slot.tb dst (tbStore fd rowsOf (nthD ⟨.fp32, []⟩ c.slot.tb dst)) } }
  else { slot := c.slot, writes := c.storeWrites fd x xRow xCol rowsOf }

end Sys2Proof.Machine
end

