-- ==== Sys2Proof/Machine/Reals.lean ====
section
/-! DEFINITION. The exact functions behind the built-in dies (Table 6-2): roots by integer square
root, the transcendental ones to 640 fractional bits, which decides every rounding of a short source
(R166). DEDUCED: log 11. -/

namespace Sys2Proof.Machine

/-- One bit after another of an integer square root, from bit `n - 1` downward. -/
def isqrtLoop (v : Nat) : Nat → Nat → Nat
  | 0, acc => acc
  | n + 1, acc => isqrtLoop v n (if (acc + 2 ^ n) * (acc + 2 ^ n) ≤ v then acc + 2 ^ n else acc)

/-- The integer square root. -/
def isqrt (v : Nat) : Nat := isqrtLoop v (v.log2 / 2 + 1) 0

/-- A real known by a fraction close to it; `exact` says that the fraction is the real itself. -/
structure Approx where
  val : Frac
  exact : Bool
deriving DecidableEq, Repr

/-- Fractional bits of the fixed-point evaluations. -/
def fixBits : Nat := 640

/-- A fraction cut to fixed point. -/
def toFix (f : Frac) : Int := (f.num * (2 ^ fixBits : Nat)) / (f.den : Int)

/-- A fixed-point number as a fraction. -/
def ofFix (x : Int) : Frac := ⟨x, 2 ^ fixBits⟩

/-- `Σ term/(k, k+2, …)`: the series of the inverse hyperbolic tangent in `1/z2` steps. -/
def atanhLoop (z2 : Int) : Nat → Nat → Int → Int → Int
  | 0, _, _, s => s
  | n + 1, k, t, s => atanhLoop z2 n (k + 2) (t * z2 / (2 ^ fixBits : Nat)) (s + t / (k : Int))

/-- `ln 2` in fixed point, as twice the inverse hyperbolic tangent of 1/3. -/
def ln2Fix : Int :=
  let z := toFix ⟨1, 3⟩
  2 * atanhLoop (toFix ⟨1, 9⟩) 220 1 z 0

/-- The Taylor series of `e^r` in fixed point. -/
def expLoop (r : Int) : Nat → Nat → Int → Int → Int
  | 0, _, _, s => s
  | n + 1, k, t, s => expLoop r n (k + 1) (t * r / ((2 ^ fixBits : Nat) * (k : Int))) (s + t)

/-- `e^x`; the exponent is held within the range that saturates or flushes every format. -/
def expF (x : Frac) : Frac :=
  if x.num = 0 then Frac.ofInt 1
  else if Frac.lt (Frac.ofInt 5000) x then Frac.pow2 7200
  else if Frac.lt x (Frac.ofInt (-5000)) then Frac.pow2 (-7200)
  else
    let xf := toFix x
    let n := xf / ln2Fix
    (ofFix (expLoop (xf - n * ln2Fix) 160 1 (2 ^ fixBits : Nat) 0)).scale n

/-- `ln x` of a positive fraction. -/
def lnF (x : Frac) : Frac :=
  let e := floorLog2 x.num.natAbs x.den
  let m := x.scale (-e)
  let z := (m.sub (Frac.ofInt 1)).div (m.add (Frac.ofInt 1))
  let zf := toFix z
  ofFix (2 * atanhLoop (zf * zf / (2 ^ fixBits : Nat)) 220 1 zf 0 + e * ln2Fix)

/-- `√x` of a positive fraction, exact where the root is rational. -/
def sqrtA (x : Frac) : Approx :=
  let p := x.num.natAbs * x.den
  let r := isqrt p
  if r * r = p then ⟨⟨(r : Int), x.den⟩, true⟩
  else ⟨⟨(isqrt (p * 4 ^ fixBits) : Nat), x.den * 2 ^ fixBits⟩, false⟩

/-- The arc tangent of `1/k` in fixed point. -/
def atanInvLoop (k2 : Int) : Nat → Nat → Int → Int → Int
  | 0, _, _, s => s
  | n + 1, k, t, s => atanInvLoop k2 n (k + 2) (-(t / k2)) (s + t / (k : Int))

/-- π in fixed point, by Machin's formula. -/
def piFix : Int :=
  4 * (4 * atanInvLoop 25 290 1 ((2 ^ fixBits : Nat) / 5) 0
       - atanInvLoop (239 * 239) 100 1 ((2 ^ fixBits : Nat) / 239) 0)

/-- The sine series in fixed point, from the term `t` of index `k`. -/
def sinLoop (x2 : Int) : Nat → Nat → Int → Int → Int
  | 0, _, _, s => s
  | n + 1, k, t, s =>
    sinLoop x2 n (k + 2) (-(t * x2 / ((2 ^ fixBits : Nat) * ((k + 1) * (k + 2) : Nat)))) (s + t)

/-- The sine of `2πy` for `y` in `[0, 1/4]` turns. -/
def sinTurn (y : Frac) : Frac :=
  let t := toFix y * 2 * piFix / (2 ^ fixBits : Nat)
  ofFix (sinLoop (t * t / (2 ^ fixBits : Nat)) 90 1 t 0)

/-- `sin 2πx` (x in turns), exact at every quarter turn. -/
def sinA (x : Frac) : Approx :=
  let fr := x.sub (Frac.ofInt x.floor)
  let q := (fr.scale 2).floor
  let y := fr.sub ((Frac.ofInt q).scale (-2))
  let z := if q % 2 = 0 then y else (Frac.ofInt 1).scale (-2) |>.sub y
  if y.num = 0 then
    ⟨Frac.ofInt (if q = 1 then 1 else if q = 3 then -1 else 0), true⟩
  else
    let s := sinTurn z
    ⟨if q < 2 then s else s.neg, false⟩

/-- `1 / (1 + e^(−y))`. -/
def sigmoidF (y : Frac) : Frac :=
  if y.num < 0 then
    let e := expF y
    e.div ((Frac.ofInt 1).add e)
  else (Frac.ofInt 1).div ((Frac.ofInt 1).add (expF y.neg))

/-- `Σ w^n / (1·3·5·…·(2n+1))` in fixed point. -/
def oddLoop (w : Int) : Nat → Nat → Int → Int → Int
  | 0, _, _, s => s
  | n + 1, k, t, s => oddLoop w n (k + 2) (t * w / ((2 ^ fixBits : Nat) * (k : Int))) (s + t)

/-- `erf(√(h/2) × …)`: the error function at `y`, given `2y²` and `y·2/√π` (R164). -/
def erfCore (twoY2 lead : Frac) : Frac :=
  let s := ofFix (oddLoop (toFix twoY2) 1500 3 (2 ^ fixBits : Nat) 0)
  (lead.mul (expF (twoY2.scale (-1)).neg)).mul s

/-- `1/√π` as a fraction. -/
def invSqrtPi : Frac := (Frac.ofInt 1).div (sqrtA (ofFix piFix)).val

/-- One minus a magnitude far below every format, for a positive argument. -/
def nearOne : Frac := (Frac.ofInt 1).sub (Frac.pow2 (-600))

/-- `erf x`. -/
def erfF (x : Frac) : Frac :=
  if Frac.lt (Frac.ofInt 12) x.abs then (if x.num < 0 then nearOne.neg else nearOne)
  else erfCore ((x.mul x).scale 1) ((x.scale 1).mul invSqrtPi)

/-- `(1 + erf(x/√2))/2`; far below zero by its asymptotic series, whose terms past x⁻⁸ lie below 2^−35 of it. -/
def phiF (x : Frac) : Frac :=
  if Frac.lt (Frac.ofInt 24) x.abs then
    (if x.num < 0 then
      let v := (Frac.ofInt 1).div (x.mul x)
      let one := Frac.ofInt 1
      let tail := one.sub (v.mul (one.sub (v.mul ((Frac.ofInt 3).sub (v.mul ((Frac.ofInt 15).sub
        (v.mul (Frac.ofInt 105))))))))
      ((expF ((x.mul x).scale (-1)).neg).mul (invSqrtPi.div (sqrtA (Frac.ofInt 2)).val)).mul (tail.div x.abs)
     else nearOne)
  else
    let lead := (x.mul invSqrtPi).mul (sqrtA (Frac.ofInt 2)).val
    ((Frac.ofInt 1).add (erfCore (x.mul x) lead)).scale (-1)

/-- The function of a built-in die at a finite input (Table 6-2), slots 0 to 15. -/
def builtinF (slot : Nat) (x : Frac) : Approx :=
  let one := Frac.ofInt 1
  match slot with
  | 0 => ⟨expF x, x.isZero⟩
  | 1 =>
    let n := x.floor
    let r := x.sub (Frac.ofInt n)
    let n' := max (min n 7200) (-7200)
    if r.isZero then ⟨Frac.pow2 n', true⟩ else ⟨(expF (r.mul (ofFix ln2Fix))).scale n', false⟩
  | 2 => if (x.sub one).isZero then ⟨Frac.zero, true⟩ else ⟨lnF x, false⟩
  | 3 =>
    let e := floorLog2 x.num.natAbs x.den
    if ((x.scale (-e)).sub one).isZero then ⟨Frac.ofInt e, true⟩
    else ⟨(lnF x).div (ofFix ln2Fix), false⟩
  | 4 => ⟨one.div x, true⟩
  | 5 => sqrtA x
  | 6 => sqrtA (one.div x)
  | 7 => ⟨((sigmoidF (x.scale 1)).scale 1).sub one, x.isZero⟩
  | 8 => ⟨sigmoidF x, x.isZero⟩
  | 9 => ⟨erfF x, x.isZero⟩
  | 10 => sinA x
  | 11 => sinA (x.add (one.scale (-2)))
  | 12 => ⟨x.mul (phiF x), x.isZero⟩
  | 13 =>
    let u := ((invSqrtPi.mul (sqrtA (Frac.ofInt 2)).val)).mul
      (x.add (((⟨44715, 1000000⟩ : Frac).mul x).mul (x.mul x)))
    ⟨x.mul (sigmoidF (u.scale 1)), x.isZero⟩
  | 14 => ⟨x.mul (sigmoidF ((⟨1702, 1000⟩ : Frac).mul x)), x.isZero⟩
  | _ => ⟨x, true⟩

end Sys2Proof.Machine
end

