-- ==== Sys2Proof/Machine/Dies.lean ====
section
/-! DEFINITION. Die programs: the internal form, the step set, seed tables, special maps, the built-in
dies and the checks of a user die (R164 to R178, R189, R190, R197). -/

namespace Sys2Proof.Machine

/-- `int_round` (R169): `dir` is 0 for rne, 1 for up, 2 for down. -/
def intRound (y : Frac) (dir : Nat) : Frac :=
  if y.num = 0 then Frac.zero
  else
    let s := decide (y.num < 0)
    let n := y.num.natAbs
    let e := floorLog2 n y.den
    let k := 32 - e
    let n' := if 0 ≤ k then n * 2 ^ k.toNat else n
    let d' := if 0 ≤ k then y.den else y.den * 2 ^ (-k).toNat
    let q0 := if dir = 0 then roundInt n' d' .rne
      else if (dir = 1 ∧ s = false) ∨ (dir = 2 ∧ s = true) then (n' + d' - 1) / d'
      else n' / d'
    let e := if q0 = 2 ^ 33 then e + 1 else e
    let q := if q0 = 2 ^ 33 then 2 ^ 32 else q0
    let m : Frac :=
      if 2047 < e then Frac.scale ⟨((2 ^ 33 - 1 : Nat) : Int), 1⟩ 2015
      else if e < -2048 then Frac.pow2 (-2048)
      else Frac.scale ⟨(q : Int), 1⟩ (e - 32)
    if s then m.neg else m

/-- An internal word from its exact value (Table 6-4). -/
def packInternal (f : Frac) : Nat :=
  if f.num = 0 then 0
  else
    let e := floorLog2 f.num.natAbs f.den
    2 ^ 46 + b2n (decide (f.num < 0)) * 2 ^ 45 + wrap e 12 * 2 ^ 33
      + roundScaled f.num.natAbs f.den (32 - e) .rto

/-- The value of an internal word (Table 6-4). DESIGN CHOICE (R168): a stored constant of CLASS 0b10 or 0b11,
or with hidden bit 32 clear, which no step forms, reads as a finite word (log 11). -/
def unpackInternal (w : Nat) : Frac :=
  if bits w 47 46 = 0 then Frac.zero
  else
    let m := Frac.scale ⟨((bits w 32 0 : Nat) : Int), 1⟩ (signed (bits w 44 33) 12 - 32)
    if bit w 45 then m.neg else m

/-- The parts of a die slot (R189, Tables 6-5 and 6-8). -/
structure Die where
  header : Nat
  steps : List Nat
  consts : List Nat
  seeds : List Nat
deriving DecidableEq, Repr

def Die.nsteps (d : Die) : Nat := bits d.header 47 43 + 1
def Die.specials (d : Die) : Nat := bits d.header 42 28
def Die.mono (d : Die) : Bool := bit d.header 27
def Die.decreasing (d : Die) : Bool := bit d.header 26
def Die.seedDir (d : Die) : Nat := bits d.header 25 24
def Die.eb (d : Die) : Int := signed (bits d.header 23 12) 12
def Die.nb (d : Die) : Nat := bits d.header 11 8
def Die.rfact (d : Die) : Int := signed (bits d.header 7 0) 8

/-- The parts of a 4 KiB slot image (R189). -/
def parseDie (bs : List Byte) : Die :=
  { header := natAt bs 0 8
    steps := (List.range 32).map (fun i => natAt bs (32 + 4 * i) 4)
    consts := (List.range 16).map (fun i => natAt bs (160 + 8 * i) 8)
    seeds := (List.range 256).map (fun i => natAt bs (288 + 12 * i) 12) }

/-- `seed_locate` (R174): entry index and `u`; a zero operand uses entry 0. -/
def seedLocate (r : Frac) (eb : Int) (nb : Nat) : Nat × Frac :=
  if r.num = 0 then (0, (Frac.pow2 eb).neg)
  else
    let a := r.abs
    let e := floorLog2 a.num.natAbs a.den
    let b : Nat := min (e - eb).toNat (nb - 1)
    let lo := Frac.pow2 (eb + b)
    let w := Frac.pow2 (eb + b - 5)
    let j : Nat := min ((a.sub lo).div w).floor.toNat 31
    (32 * b + j, a.sub (lo.add ((Frac.ofInt j).mul w)))

/-- The signed value of an FP32 coefficient, or none for NaN and infinities. -/
def coef (c : Nat) : Option Frac :=
  let v := decodeCode .fp32 c
  if v.cls = .invalid ∨ v.cls = .infinite then none else some v.toFrac

/-- The registers I0 to I7 and N of one lane (R161). -/
structure DieRegs where
  regs : List Frac
  n : Int
deriving DecidableEq, Repr

def DieRegs.get (r : DieRegs) (i : Nat) : Frac := nthD Frac.zero r.regs i
def DieRegs.set (r : DieRegs) (i : Nat) (v : Frac) : DieRegs := { r with regs := setNth r.regs i v }

/-- The seed polynomial of R174 before its one rounding; none where a coefficient is not finite. -/
def seedPoly (entry : Nat) (u : Frac) : Option Frac :=
  match coef (bits entry 31 0), coef (bits entry 63 32), coef (bits entry 95 64) with
  | some c0, some c1, some c2 => some ((c0.add (c1.mul u)).add (c2.mul (u.mul u)))
  | _, _, _ => none

/-- One step of a die program but for RND (Table 6-6); `x` is the input, `fv` stands for a value
the spec does not define. DESIGN CHOICE: SCL with MODE [0] and [1] and an odd N uses −(N div 2), not
(−N) div 2 (log 11). -/
def dieStep (d : Die) (x : Frac) (fv : Frac) (w : Nat) (r : DieRegs) : DieRegs :=
  let dst := bits w 27 25
  let a := r.get (bits w 24 22)
  let b := r.get (bits w 21 19)
  let c := r.get (bits w 18 16)
  let k := bits w 15 12
  let mode := bits w 11 8
  let const (i : Nat) : Frac := unpackInternal (nthD 0 d.consts i)
  match bits w 31 28 with
  | 0 =>
    let l := seedLocate a d.eb d.nb
    match seedPoly (nthD 0 d.seeds l.1) l.2 with
    | some p => r.set dst (intRound p d.seedDir)
    | none => r.set dst fv
  | 1 =>
    let p := a.mul (if bit mode 0 then const k else b)
    let q := if bit mode 1 then const (bits w 3 0) else c
    r.set dst (intRound ((if bit mode 2 then p.neg else p).add (if bit mode 3 then q.neg else q)) 0)
  | 2 =>
    if mode = 2 then
      let t := a.mul ((const k).add (const (k + 1)))
      let n := t.floor
      { (r.set dst (intRound ((Frac.ofInt (1 - n)).add t) 0)) with n := max (min n 4095) (-4096) }
    else if a.num = 0 then { (r.set dst Frac.zero) with n := 0 }
    else
      let e := floorLog2 a.num.natAbs a.den
      let n := if mode = 0 then e else 2 * (e / 2)
      { (r.set dst (a.abs.scale (-n))) with n := n }
  | 3 =>
    let n := if bit mode 1 then r.n / 2 else r.n
    let k := (if bit mode 0 then -n else n) + signed (bits w 7 0) 8
    let v := intRound (a.scale k) 0
    r.set dst (if bit mode 2 then (if x.num < 0 then v.abs.neg else v.abs) else v)
  | 4 =>
    if mode = 0 then r.set dst (intRound (b.mul ((Frac.ofInt 2).sub (a.mul b))) 0)
    else r.set dst (intRound ((b.mul ((Frac.ofInt 3).sub (a.mul (b.mul b)))).scale (-1)) 0)
  | 5 =>
    let p := match mode with
      | 0 => decide (0 < c.num)
      | 1 => decide (c.num < 0)
      | 2 => decide (c.num = 0)
      | 3 => decide (r.n % 2 ≠ 0)
      | 4 => decide (x.num < 0)
      | _ => x.abs.lt (const k)
    r.set dst (if p then a else b)
  | _ => r

/-- The steps of a die in order, up to its RND step (R171, R172): the operand of RND, and the registers. -/
def dieRun (d : Die) (x fv : Frac) : List Nat → DieRegs → Frac × DieRegs
  | [], r => (fv, r)
  | w :: t, r =>
    if bits w 31 28 = 6 then (r.get (bits w 24 22), r) else dieRun d x fv t (dieStep d x fv w r)

/-- A free internal word: a zero or any finite word (Table 6-4). -/
def freeInternal (n : Nat) : Frac :=
  if bit n 46 then unpackInternal (2 ^ 46 + bits n 45 33 * 2 ^ 33 + 2 ^ 32 + n % 2 ^ 32) else Frac.zero

/-- A lane as its first step finds it: the input in I0 (R171); the spec gives I1 to I7 and N no value
there, so they are free (log 11). -/
def laneStart (slot : Nat) (x : Frac) : DieRegs :=
  let free (i : Nat) : Nat := Config.dieFree slot (packInternal x) i
  ⟨x :: (List.range 7).map (fun i => freeInternal (free (i + 2))), signed (free 9) 16⟩

/-- A die on the input `x`: the word that it passes to its RND step, and the lane's registers (R171). -/
def dieRuns (slot : Nat) (d : Die) (x : Frac) : Frac × DieRegs :=
  dieRun d x (freeInternal (Config.dieFree slot (packInternal x) 0)) (d.steps.take d.nsteps) (laneStart slot x)

/-- The word that a die passes to its RND step for the input `x` (R171). -/
def dieEval (slot : Nat) (d : Die) (x : Frac) : Frac := (dieRuns slot d x).1

/-- An FP32 code of a positive or negative fraction rounded in a direction (R175). -/
def roundFp32Dir (y : Frac) (dir : Nat) : Nat :=
  if y.num = 0 then 0
  else
    let s := decide (y.num < 0)
    let c := encodeIeee s y.num.natAbs y.den 24 8 (-126) 127 .rne
    let v := (decodeCode .fp32 c).toFrac
    if dir = 1 ∧ v.lt y then (if s then c - 1 else c + 1)
    else if dir = 2 ∧ y.lt v then (if s then c + 1 else c - 1)
    else c

/-- `seed_entry` (R175) of a target whose value and first two derivatives are `s 0`, `s 1` and `s 2`;
`dir` is 0 for rne, 1 for up, 2 for down. -/
def seedEntry (s : Nat → Frac → Frac) (i : Nat) (eb : Int) (dir m : Nat) : Nat :=
  let b := i / 32
  let w := Frac.pow2 (eb + b - 5)
  let t := (Frac.pow2 (eb + b)).add ((Frac.ofInt (i % 32 : Nat)).mul w)
  let sg : Int := if dir = 1 then 1 else if dir = 2 then -1 else 0
  let c0 := roundFp32Dir ((s 0 t).add ((Frac.mk (sg * m) 6).mul (w.mul (w.mul w)))) dir
  let c1 := roundFp32Dir (s 1 t) dir
  let c2 := roundFp32Dir ((s 2 t).scale (-1)) dir
  c2 * 2 ^ 64 + c1 * 2 ^ 32 + c0

/-- The seed target of a built-in die (`k` 0) and its first and second derivatives (Table 6-7). -/
def seedTarget (slot k : Nat) (r : Frac) : Frac :=
  let one := Frac.ofInt 1
  let ln2 := ofFix ln2Fix
  let tau := (ofFix piFix).scale 1
  match slot with
  | 4 => nthD Frac.zero [one.div r, (one.div (r.mul r)).neg, (one.div (r.mul (r.mul r))).scale 1] k
  | 2 | 3 =>
    nthD Frac.zero [(lnF r).div ln2, one.div (r.mul ln2), (one.div (r.mul (r.mul ln2))).neg] k
  | 5 | 6 =>
    let s := (sqrtA (one.div r)).val
    nthD Frac.zero [s, (s.div (r.scale 1)).neg, (s.mul (Frac.ofInt 3)).div ((r.mul r).scale 2)] k
  | 9 | 12 =>
    let g := (invSqrtPi.scale 1).mul (expF (r.mul r).neg)
    nthD Frac.zero [erfF r, g, ((r.scale 1).mul g).neg] k
  | 10 | 11 =>
    let si := (sinA (r.sub one)).val
    let co := (sinA (r.sub ((Frac.ofInt 3).scale (-2)))).val
    if slot = 10 then nthD Frac.zero [si, tau.mul co, ((tau.mul tau).mul si).neg] k
    else nthD Frac.zero [co, (tau.mul si).neg, ((tau.mul tau).mul co).neg] k
  | _ =>
    let p := (builtinF 1 (r.sub one)).val
    nthD Frac.zero [p, ln2.mul p, (ln2.mul ln2).mul p] k

/-- EB, NB, SEEDDIR and m of a built-in die (Table 6-7). -/
def seedParams (slot : Nat) : Int × Nat × Nat × Nat :=
  match slot with
  | 4 => (0, 1, 1, 0)
  | 5 | 6 => (0, 2, 1, 0)
  | 9 | 12 => (-4, 6, 2, 3)
  | 10 | 11 => (0, 1, 0, 0)
  | 15 => (0, 0, 0, 0)
  | _ => (0, 1, 2, 0)

/-- The seed table of a built-in die (R175, R176). -/
def builtinSeeds (slot : Nat) : List Nat :=
  let p := seedParams slot
  (List.range (32 * p.2.1)).map (fun i => seedEntry (seedTarget slot) i p.1 p.2.2.1 p.2.2.2)

/-- The built-in recip die: its five step words and its seed table (the example under R178). -/
def recipDie : Die :=
  { header := 4 * 2 ^ 43 + 1 * 2 ^ 24 + 1 * 2 ^ 8
    steps := [0x22000000, 0x04400000, 0x44500000, 0x34800500, 0x60800000]
    consts := []
    seeds := builtinSeeds 4 }

/-- The special columns of Table 6-2, coded as in SPECIALS: +0, −0, +∞, −∞, negative finite. -/
def builtinSpecials (slot : Nat) : List Nat :=
  nthD [0, 0, 0, 0, 0]
    [[6, 6, 3, 1, 0], [6, 6, 3, 1, 0], [4, 4, 3, 5, 5], [4, 4, 3, 5, 5], [3, 4, 1, 2, 0],
     [1, 2, 3, 5, 5], [3, 4, 1, 5, 5], [1, 2, 6, 7, 0], [0, 0, 6, 1, 0], [1, 2, 6, 7, 0],
     [1, 2, 5, 5, 0], [6, 6, 5, 5, 0], [1, 2, 3, 2, 0], [1, 2, 3, 2, 0], [1, 2, 3, 2, 0],
     [1, 2, 3, 4, 0]] slot

/-- The special code for an input, 0 where it is computed (Table 6-8). -/
def specialFor (specials : List Nat) (t : Val) : Nat :=
  match t.cls with
  | .zero => nthD 0 specials (if t.neg then 1 else 0)
  | .infinite => nthD 0 specials (if t.neg then 3 else 2)
  | .finite => if t.neg then nthD 0 specials 4 else 0
  | .invalid => 5

/-- The value that a special code names (Table 6-8). -/
def specialVal (c : Nat) : Val :=
  match c with
  | 1 => Val.zero false
  | 2 => Val.zero true
  | 3 => Val.inf false
  | 4 => Val.inf true
  | 6 => ⟨.finite, false, 1, 1⟩
  | 7 => ⟨.finite, true, 1, 1⟩
  | _ => Val.bad

/-- The dies that Table 6-2 marks as monotone. -/
def builtinMono (slot : Nat) : Bool := decide (slot < 10) || decide (slot = 15)

/-- A slot's SPECIALS field from its five codes (Table 6-8). -/
def specialsField (l : List Nat) : Nat := l.foldl (fun a c => 8 * a + c) 0

/-- A constant split into a high and a low word (R176): `int_round` of it, then of what that leaves. -/
def splitConst (y : Frac) : List Nat :=
  let hi := intRound y 0
  [packInternal hi, packInternal (intRound (y.sub hi) 0)]

/-- The constants that Table 6-7 names for a built-in die: the pair of a fraction reduction, or the bounds of erf. -/
def namedConsts (slot : Nat) : List Nat :=
  match slot with
  | 0 => splitConst ((Frac.ofInt 1).div (ofFix ln2Fix))
  | 1 | 10 | 11 => splitConst (Frac.ofInt 1)
  | 9 | 12 => [packInternal (Frac.pow2 (-4)), packInternal (Frac.ofInt 4)]
  | _ => []

/-- A built-in die's constant table: 16 words that the spec does not print, with those that Table 6-7 names next to
each other at a free place (log 11). -/
def builtinConsts (slot : Nat) : List Nat :=
  let l := (List.range 16).map (fun i => nthD 0 (Config.builtinConsts slot) i % 2 ^ 48)
  let p := Config.constPlace slot % 15
  (List.range (namedConsts slot).length).foldl (fun l i => setNth l (p + i) (nthD 0 (namedConsts slot) i)) l

/-- Slots 0 to 15 of every bank (R161, R164, R176): recip as the spec prints it; of the others the header's
SPECIALS, SEEDDIR, EB and NB, the seed table and the constants that Table 6-7 names, with step words and other
constants that it does not print. -/
def builtinDie (slot : Nat) : Die :=
  if slot = 4 then recipDie
  else
    let p := seedParams slot
    { header := ((Config.builtinSteps slot).length - 1) % 32 * 2 ^ 43
        + specialsField (builtinSpecials slot) * 2 ^ 28 + p.2.2.1 * 2 ^ 24 + wrap p.1 12 * 2 ^ 12 + p.2.1 * 2 ^ 8
      steps := Config.builtinSteps slot
      consts := builtinConsts slot
      seeds := builtinSeeds slot }

/-- The die in slot 0 to 63 of a bank whose user slots are `user` (R164, R196); none where it is empty. -/
def slotDie (user : List (Nat × List Byte)) (slot : Nat) : Option Die :=
  if slot < 16 then some (builtinDie slot) else if slot < 32 then none else (look slot user).map parseDie

/-- Place of a positive fraction among the internal magnitudes: the number of the one at or below it, and
the part of the way to the next one. -/
def internalPlace (y : Frac) : Int × Frac :=
  let e := floorLog2 y.num.natAbs y.den
  let m := y.scale (32 - e)
  (e * 2 ^ 32 + m.floor - 2 ^ 32, m.sub (Frac.ofInt m.floor))

/-- The internal magnitude of a number. -/
def internalAt (i : Int) : Frac := (Frac.ofInt (2 ^ 32 + i % 2 ^ 32)).scale (i / 2 ^ 32 - 32)

/-- A place as the argument of a constant without a body. -/
def placeKey (q : Int) : Nat := (q + 2 ^ 50).toNat

/-- The magnitude that a built-in die passes to RND, where its function's magnitude is `y` > 0 (R166, R167,
R185). DEDUCED: it lies within two units of the internal form's last place of `y`; a monotone die's is a
free step function of `y` that never falls, any other die's is free for every input. DESIGN CHOICE: what a die computes
does not depend on the built-in version of the image that holds it (R191): the spec describes one version (log 11). -/
def wordNear (slot : Nat) (x y : Frac) : Frac :=
  let p := internalPlace y
  if builtinMono slot then
    let above := Frac.lt ⟨(Config.dieSplit slot (placeKey p.1) % 2 ^ 64 : Nat), 2 ^ 64⟩ p.2
    let q := 2 * p.1 + (b2n above : Int)
    let near (j : Int) : Int := j + (Config.dieError slot (placeKey j) % 5 : Nat) - 2
    internalAt ([1, 2, 3, 4].foldl (fun (m i : Int) => max m (near (q - i))) (near q) / 2)
  else internalAt (p.1 + (Config.dieError slot (packInternal x) % 4 : Nat) - 1)

/-- The word that a built-in die passes to its RND step for a finite input (R164, R169; exp_int of R183 is
slot 0's): recip's steps are run, identity passes its input, and of the others the spec gives the function. -/
def dieWord (slot : Nat) (x : Frac) : Frac :=
  if slot = 4 then dieEval 4 recipDie x
  else if slot = 15 then x
  else
    let f := (builtinF slot x).val
    if f.num = 0 then Frac.zero
    else
      let w := wordNear slot x f.abs
      intRound (if f.num < 0 then w.neg else w) 0

/-- What a lane loads into I0 for the input `t` of a die. An internal word holds no infinity and no invalid value: for
those it is a free word (DESIGN CHOICE; log 11). -/
def laneInput (slot : Nat) (t : Val) : Frac :=
  if t.cls = .invalid ∨ t.cls = .infinite then
    freeInternal (Config.dieFree slot (2 ^ 48 + 2 * b2n (decide (t.cls = .invalid)) + b2n t.neg) 1)
  else t.toFrac

/-- A lane's registers as the state holds them. -/
def DieRegs.lane (r : DieRegs) : Lane :=
  ⟨r.regs.map (fun f => BitVec.ofNat 48 (packInternal f)), BitVec.ofNat 16 (wrap r.n 16)⟩

/-- The registers that a die leaves in a lane whose last input is `x` (R161); free where the spec does not
print its steps. -/
def laneAfter (slot : Nat) (d : Die) (x : Frac) : DieRegs :=
  if slot < 16 ∧ slot ≠ 4 then
    let free (i : Nat) : Nat := Config.dieFree slot (packInternal x) (i + 16)
    ⟨(List.range 8).map (fun i => freeInternal (free i)), signed (free 8) 16⟩
  else (dieRuns slot d x).2

/-- What a die answers before the RND step's encoding. -/
inductive DieOut
  /-- the invalid code, which counts into INVALID where the special map gave it (R165) -/
  | invalid (counted : Bool)
  /-- a value that RND encodes, and the word that is passed to it (R166, R202) -/
  | value (v w : Val)
deriving DecidableEq, Repr

/-- The die `d` of a slot on the input `t` (R164, R165, R172); with `exact`, the exactly rounded class of
Table 6-3, a built-in die's value is its function's own (R166). A user die whose SPECIALS says computed for an infinite
input runs on a free word (DESIGN CHOICE; log 11). -/
def dieOut (slot : Nat) (d : Die) (exact : Bool) (t : Val) : DieOut :=
  if t.cls = .invalid then .invalid false
  else
    let sp := if slot < 16 then builtinSpecials slot
      else (List.range 5).map (fun i => bits d.specials (14 - 3 * i) (12 - 3 * i))
    let c := specialFor sp t
    if c = 5 then .invalid true
    else if c ≠ 0 then .value (specialVal c) (specialVal c)
    else if 16 ≤ slot then
      (let w := Val.ofFrac (dieEval slot d (laneInput slot t))
       .value w w)
    else
      let w := Val.ofFrac (dieWord slot (laneInput slot t))
      if exact && slot != 4 then .value (Val.ofFrac (builtinF slot t.toFrac).val) w else .value w w

/-- The exact reciprocal root in the internal form (R186). -/
def rootRecip (v : Frac) : Frac :=
  let n := v.num.natAbs
  let e := floorLog2 v.den n
  let h := e / 2
  let k : Int := 33 - h
  let a : Frac := Frac.scale ⟨(v.den : Int), n⟩ (2 * k)
  let fl := a.num.natAbs / a.den
  let s := isqrt fl
  let tie := decide (s % 2 = 1) && decide (s * s = fl) && decide (a.num.natAbs % a.den = 0)
  let q := if tie then (if (s / 2) % 2 = 0 then s / 2 else s / 2 + 1) else (s + 1) / 2
  intRound (Frac.scale ⟨(q : Int), 1⟩ (h - 32)) 0

/-- The reserved encodings and the shape of a die program (R197); true where the slot is refused. -/
def dieStepBad (d : Die) (w : Nat) : Bool :=
  let st := bits w 31 28
  let mode := bits w 11 8
  let k := bits w 15 12
  decide (st > 6) || (decide (st = 0) && decide (d.nb = 0))
    || (decide (st = 2) && decide (mode > 2)) || (decide (st = 2) && decide (mode = 2) && decide (k = 15))
    || (decide (st = 3) && decide (mode > 7)) || (decide (st = 4) && decide (mode > 1))
    || (decide (st = 5) && decide (mode > 5))

/-- The last direction factor of the steps after SEED: none where a step breaks R177. -/
def monoSteps (d : Die) : List Nat → Bool → Option Bool
  | [], dir => some dir
  | w :: t, dir =>
    let st := bits w 31 28
    let mode := bits w 11 8
    if st = 6 then some dir
    else if st = 1 then
      (if bit mode 0 ∧ bit mode 1 then
        let c := unpackInternal (nthD 0 d.consts (bits w 15 12))
        let neg := decide (c.num < 0) != bit mode 2
        monoSteps d t (dir != neg)
       else none)
    else if st = 3 then monoSteps d t dir
    else none

/-- The value of one seed entry's polynomial at `u`, zero for coefficients that are not finite. -/
def seedAt (d : Die) (i : Nat) (u : Frac) : Frac := (seedPoly (nthD 0 d.seeds i) u).getD Frac.zero

/-- One segment or seam test of R177 in the direction of the seed values. -/
def seedSegOk (d : Die) (dec : Bool) (i : Nat) : Bool :=
  let e := nthD 0 d.seeds i
  let w := Frac.pow2 (d.eb + (i / 32 : Nat) - 5)
  match coef (bits e 63 32), coef (bits e 95 64) with
  | some c1, some c2 =>
    (if dec then decide (c1.num < 0) else decide (0 < c1.num))
      && ((c2.mul (w.scale 1)).abs.le c1.abs)
  | _, _ => false

/-- The seam between entries `i - 1` and `i` (R177). -/
def seedSeamOk (d : Die) (dec : Bool) (i : Nat) : Bool :=
  let w := Frac.pow2 (d.eb + ((i - 1) / 32 : Nat) - 5)
  let l := seedAt d (i - 1) w
  let r := seedAt d i Frac.zero
  if dec then r.le l else l.le r

/-- The reduction's factor at the top of the range: its binary logarithm (R177). DESIGN CHOICE: a die without a RED step,
which R177 does not name, is compared with its declared factor (log 11). -/
def topFactor (d : Die) : Int :=
  match (d.steps.take d.nsteps).find? (fun w => bits w 31 28 = 2) with
  | some w => if bits w 11 8 = 0 then 1 else if bits w 11 8 = 1 then 2 else d.rfact
  | none => d.rfact

/-- The checks of a monotone die (R177). DEDUCED: DIR is the direction of p on each segment (log 11). -/
def monoOk (d : Die) : Bool :=
  let n := 32 * d.nb
  let after := ((d.steps.take d.nsteps).dropWhile (fun w => bits w 31 28 ≠ 0)).drop 1
  let dec := d.decreasing
  match monoSteps d after false with
  | none => false
  | some flip =>
    let pdec := dec != flip
    (decide (d.seedDir = 1) || decide (d.seedDir = 2))
      && (List.range n).all (seedSegOk d dec)
      && (List.range (n - 1)).all (fun i => seedSeamOk d dec (i + 1))
      && (let l := seedAt d (n - 1) (Frac.pow2 (d.eb + (d.nb : Int) - 1 - 5))
          let r := (seedAt d 0 Frac.zero).scale (topFactor d)
          if dec then r.le l else l.le r)
      && (pdec == dec)

/-- Why a user slot is refused (R177, R197): 0 accepted, else DIE_NOT_MONOTONE or DIE_SLOT (Table 8-21). -/
def dieSlotCode (bs : List Byte) : Nat :=
  let d := parseDie bs
  let ws := d.steps.take d.nsteps
  if natAt bs 8 24 ≠ 0 ∨ d.seedDir = 3 ∨ d.nb > 8 then 0x0010
  else if d.consts.any (fun c => c / 2 ^ 48 ≠ 0) then 0x0010
  else if (bs.drop 3360).any (· ≠ 0) then 0x0010
  else if ws.any (dieStepBad d) then 0x0010
  else if countIf (fun w => bits w 31 28 = 6) ws ≠ 1 then 0x0010
  else if bits (nthD 0 ws (d.nsteps - 1)) 31 28 ≠ 6 then 0x0010
  else if d.mono ∧ !monoOk d then 0x000F
  else 0

end Sys2Proof.Machine
end

