-- ==== Sys2Proof/Machine/Former.lean ====
section
/-! DEFINITION. The records of the former: FRM_EVAL, softmax and RMS normalisation (R164 to R166,
R179 to R188, R191, Tables 6-9 to 6-12, 6-16, 6-17). -/

namespace Sys2Proof.Machine

/-- The parameter entry of a former record (Table 6-17). -/
def frmParam (c : Ctx) (r : Nat) : Nat :=
  if bits r 35 24 = 0 then 0 else (c.job.bin.entry (bits r 35 24)).toNat

/-- The version fault of R191: DIE_VER differs from the active bank's tag. -/
def dieVersionBad (c : Ctx) (r : Nat) : Bool :=
  let v := bits r 70 55
  let user := decide (rOpcode r = 0x60) && decide (32 ≤ bits r 76 71)
  let tag := if user then bits c.dieTag 15 0 else bits c.dieTag 31 16
  decide (v ≠ 0) && decide (v ≠ tag)

/-- Whether a die slot is empty (R164, R196). -/
def dieSlotEmpty (c : Ctx) (slot : Nat) : Bool := (slotDie c.userDies slot).isNone

/-- The program fault of a former record before it runs (R164, R191): code and operand. -/
def frmFault (c : Ctx) (r : Nat) : Option (Nat × Nat) :=
  if rOpcode r = 0x60 ∧ dieSlotEmpty c (bits r 76 71) then some (0x0101, bits r 76 71)
  else if dieVersionBad c r then some (0x0102, bits r 70 55)
  else none

/-- A tile-buffer operand that a former record names without a format: it is read in the buffer's own
format. DEDUCED: log 20. -/
def Ctx.tbOwn (c : Ctx) (tb m k : Nat) : Val :=
  c.tbElem (nthD ⟨.fp32, []⟩ c.slot.tb tb).fmt tb m k

/-- A bias, scale or gain operand of a former record; none where the field says so (Table 6-16). -/
def Ctx.frmOperand (c : Ctx) (src p32 m k : Nat) : Option Val :=
  if src < 4 then some (c.tbOwn src m k)
  else if src = 5 then some (decodePosit p32 32 2)
  else none

/-- A short source or destination of Table 6-3's exactly rounded class. -/
def shortFmt : Fmt → Bool
  | .p16 | .p8 | .bf16 | .fp16 => true
  | _ => false

/-- `t` of R179: the input with its bias, rounded once to the internal form, whose zero has no sign (R169); none for
∞ − ∞. -/
def biased (x : Val) (b : Option Val) : Option Val :=
  match b with
  | none => some x
  | some w => (exactAdd x w).map (fun v => if v.cls = .infinite ∨ v.cls = .invalid then v else Val.ofFrac (intRound v.toFrac 0))

/-- One element of FRM_EVAL (R179, R180): `short` says that source and destination are in the exactly
rounded class, which holds without bias and scale. -/
def evalElem (slot : Nat) (die : Die) (short : Bool) (x : Val) (b s : Option Val) : Formed :=
  let isBad (v : Option Val) : Bool := match v with | some w => decide (w.cls = .invalid) | none => false
  if x.cls = .invalid ∨ isBad b = true ∨ isBad s = true then { val := Val.bad }
  else
    match biased x b with
    | none => { val := Val.bad, inv := true }
    | some t =>
      match dieOut slot die (short && b.isNone && s.isNone) t with
      | .invalid counted => { val := Val.bad, inv := counted }
      | .value v w =>
        (match s with
         | none => { val := v, word := some w }
         | some g => formOpt (exactMul v g))

/-- The destination of a former record (Tables 6-16, 6-17). -/
def frmStore (c : Ctx) (r : Nat) : StoreTo :=
  let p := frmParam c r
  { fmt := (fmtOf (bits r 95 92)).getD .fp32
    mode := .rne
    tb := if bit r 79 then none else some (bits r 78 77)
    desc := c.desc (bits p 63 52)
    xRow := bits p 51 36
    xCol := 64 * bits p 35 26
    stat := bits r 53 52
    hall := if bit r 51 then some (bits r 50 48) else none
    rule := c.job.bin.rule (bits p 25 20) }

/-- Store a rectangle of former elements (R165, R199). -/
def frmFinish (c : Ctx) (r : Nat) (vals : List (List Formed)) : RecOut := c.store (frmStore c r) vals

def frmRows (r : Nat) : Nat := bits r 47 42 + 1
def frmCols (r : Nat) : Nat := bits r 41 36 + 1
def frmFmtA (r : Nat) : Fmt := (fmtOf (bits r 91 88)).getD .fp32
/-- The element `x` of a former record. -/
def Ctx.frmX (c : Ctx) (r m k : Nat) : Val := c.tbElem (frmFmtA r) (bits r 87 86) m k

/-- Column of the last element that lane `l` takes of a row of `cols` columns (Table 6-1); none where it
takes none. -/
def laneLast (cols l : Nat) : Option Nat := if l < cols then some (16 * ((cols - 1 - l) / 16) + l) else none

/-- The lanes after a former record of which lane `l` takes the elements l, l + 16, … of `n`, where `after` is what the
last of them leaves (R161). -/
def Ctx.lanesAfter (c : Ctx) (n : Nat) (after : Nat → DieRegs) : List Lane :=
  (List.range 16).map (fun l =>
    match laneLast n l with
    | some k => (after k).lane
    | none => nthD Lane.zero c.slot.lanes l)

/-- The lanes after a former record whose step sequence the spec does not print: free words (log 11). -/
def Ctx.lanesFree (c : Ctx) (n : Nat) : List Lane :=
  c.lanesAfter n (fun k =>
    let free (i : Nat) : Nat := Config.recordFree c.place (65536 + 16 * k + i)
    ⟨(List.range 8).map (fun i => freeInternal (free i)), signed (free 8) 16⟩)

/-- FRM_EVAL (R179). Every lane runs every step, whatever its input (R172). -/
def doEval (c : Ctx) (r : Nat) : RecOut :=
  let p := frmParam c r
  let slot := bits r 76 71
  let die := (slotDie c.userDies slot).getD (builtinDie 15)
  let fd := (frmStore c r).fmt
  let short := shortFmt (frmFmtA r) && (shortFmt fd || isBlock fd)
  let bias (m k : Nat) : Option Val := c.frmOperand (bits r 85 83) (bits p 127 96) m k
  let o := frmFinish c r ((List.range (frmRows r)).map (fun m => (List.range (frmCols r)).map (fun k =>
    evalElem slot die short (c.frmX r m k) (bias m k) (c.frmOperand (bits r 82 80) (bits p 95 64) m k))))
  let last := frmRows r - 1
  let lanes := c.lanesAfter (frmCols r) (fun k =>
    laneAfter slot die (laneInput slot ((biased (c.frmX r last k) (bias last k)).getD Val.bad)))
  { o with slot := { o.slot with lanes := lanes } }

/-- Whether a position is masked (Table 6-10). -/
def Ctx.masked (c : Ctx) (r p m k : Nat) : Bool :=
  match bits r 23 22 with
  | 1 =>
    let v := c.tbOwn (bits r 21 20) m k
    decide (v.cls = .zero) || decide (v.cls = .invalid) || v.neg
  | 2 => decide (signed (bits p 127 96) 32 + (m : Int) < signed (bits p 95 64) 32 + (k : Int))
  | _ => false

/-- `exp_int(d)` (R183): the word that built-in die 0 passes to its RND step for `d`, as FRM_EVAL of slot 0
encodes it. -/
def expInt (d : Frac) : Frac := dieWord 0 d

/-- `smax_fold` (R183). -/
def smaxFold (st : SmaxRow) (x : Val) (masked : Bool) : SmaxRow :=
  if masked ∨ (x.cls = .infinite ∧ x.neg = true) then st
  else if x.cls = .invalid ∨ x.cls = .infinite then { st with bad := true }
  else
    let v := x.toFrac
    let m := unpackInternal st.m.toNat
    let s := unpackInternal st.s.toNat
    let pack (f : Frac) : BitVec 48 := BitVec.ofNat 48 (packInternal f)
    let u := BitVec.ofNat 32 (min (st.u.toNat + 1) (2 ^ 32 - 1))
    let one := Frac.ofInt 1
    if st.u = 0 then { st with m := pack v, s := pack (intRound one 0), u := u }
    else if m.lt v then
      { st with s := pack (intRound ((s.mul (expInt (intRound (m.sub v) 0))).add one) 0), m := pack v, u := u }
    else { st with s := pack (intRound (s.add (expInt (intRound (v.sub m) 0))) 0), u := u }

/-- FRM_SMAX_ACC (R183): rows in order, columns in increasing order; each lane folds whole rows. -/
def doSmaxAcc (c : Ctx) (r : Nat) : RecOut :=
  let p := frmParam c r
  let rows := (List.range c.slot.smax.length).map (fun m =>
    let st := nthD SmaxRow.zero c.slot.smax m
    if m < frmRows r then
      (List.range (frmCols r)).foldl (fun st k => smaxFold st (c.frmX r m k) (c.masked r p m k))
        (if bit r 19 then SmaxRow.zero else st)
    else st)
  { slot := { c.slot with smax := rows, lanes := c.lanesFree (frmRows r) } }

/-- One softmax output (Table 6-11). An unmasked input that is invalid or +∞ in a row with BAD 0 and U > 0
has no row there: DESIGN CHOICE, its code is free and counts as an ordinary value's (log 47). -/
def smaxOut (c : Ctx) (fd : Fmt) (st : SmaxRow) (m k : Nat) (x : Val) (masked : Bool) : Formed :=
  if st.bad then { val := Val.bad, inv := true }
  else if st.u = 0 then { val := Val.zero false }
  else if masked ∨ (x.cls = .infinite ∧ x.neg = true) then { val := Val.zero false }
  else if x.cls = .invalid ∨ x.cls = .infinite then
    { val := decodeCode fd (Config.recordFree c.place (32768 + 64 * m + k) % 2 ^ fmtBits fd) }
  else
    let d := intRound (x.toFrac.sub (unpackInternal st.m.toNat)) 0
    { val := Val.ofFrac ((expInt d).div (unpackInternal st.s.toNat)) }

/-- FRM_SMAX_OUT (R184). -/
def doSmaxOut (c : Ctx) (r : Nat) : RecOut :=
  let p := frmParam c r
  let fd := (frmStore c r).fmt
  let row (m : Nat) : SmaxRow := nthD SmaxRow.zero c.slot.smax m
  let o := frmFinish c r ((List.range (frmRows r)).map (fun m => (List.range (frmCols r)).map (fun k =>
    smaxOut c fd (row m) m k (c.frmX r m k) (c.masked r p m k))))
  let stat := (List.range o.slot.stat.length).map (fun m =>
    let s := nthD StatSet.zero o.slot.stat m
    if m < frmRows r ∧ (row m).bad = false ∧ (row m).u = 0 then s.setEmpty else s)
  { o with slot := { o.slot with stat := stat, lanes := c.lanesFree (frmCols r) } }

/-- One element of FRM_RMS (R186, R187): `root` is none where the row has no mean. -/
def rmsElem (root : Option Frac) (x : Val) (g : Option Val) : Formed :=
  match root with
  | none => { val := Val.bad, inv := true }
  | some q =>
    let g := g.getD ⟨.finite, false, 1, 1⟩
    if x.cls = .invalid ∨ g.cls = .invalid then { val := Val.bad }
    else
      match exactMul x g with
      | none => { val := Val.bad, inv := true }
      | some p => formOpt (exactMul p (Val.ofFrac q))

/-- FRM_RMS (R186). With its own STAT 0b10 it reads SUMSQ and COUNT as they stand before that clear: R148 does not say
which (DESIGN CHOICE; log 20). -/
def doRms (c : Ctx) (r : Nat) : RecOut :=
  let p := frmParam c r
  let eps := (decodePosit (bits p 127 96) 32 2).toFrac
  let root (m : Nat) : Option Frac :=
    let s := nthD StatSet.zero c.slot.stat m
    if s.countN = 0 ∨ s.ovf = true then none
    else
      let v := Frac.add ⟨(s.sumsq.toNat : Int), 2 ^ 112 * s.countN⟩ eps
      if v.num ≤ 0 then none else some (rootRecip v)
  let o := frmFinish c r ((List.range (frmRows r)).map (fun m =>
    let q := root m
    (List.range (frmCols r)).map (fun k =>
      rmsElem q (c.frmX r m k) (c.frmOperand (bits r 82 80) (bits p 95 64) (if bits r 82 80 < 4 then 0 else m) k))))
  { o with slot := { o.slot with lanes := c.lanesFree (frmCols r) } }

end Sys2Proof.Machine
end

