-- ==== Sys2Proof/Machine/Parts.lean ====
section
/-! DEFINITION. The parts of the state outside the jobs: register pages, module and supply, start-up and
flash, units, rings and sequences, assay, and the fabric (chapters 01, 08 to 16). -/

namespace Sys2Proof.Machine

/-! ### Register pages (16, 13) -/

/-- What a monitor window captures (R397, R398). -/
structure MonCap where
  min : Int
  max : Int
  count : Nat
  /-- bins 0 to 15 -/
  bins : List Nat
deriving DecidableEq, Repr

/-- A monitor window (Table 13-12). -/
structure Mon where
  base : Byte
  quantity : Byte
  run : Bool
  bin : BitVec 4
  cap : MonCap
  /-- the snapshot of the last read of MON_COUNT_LO, if there was one since the last clear -/
  snap : Option MonCap
  /-- SNAP's snapshot, which the next read of MON_COUNT_LO takes in place of a new one (R463) -/
  kept : Option MonCap
deriving DecidableEq, Repr

/-- The stored fields of a common page header (Table 16-2). -/
structure Page where
  evtStatus : W32
  evtEnable : W32
  evtForce : W32
  evtCount : W32
  enable : Bool
  mon : Mon
deriving DecidableEq, Repr

/-- A 64-bit LO/HI pair's held values: the latched HI of reads and the held LO of writes (R11). -/
structure Held where
  /-- by window offset of LO: the latched HI, for the host -/
  host : List (Nat × W32)
  /-- the same for the sideband (R445) -/
  sideband : List (Nat × W32)
  /-- held LO writes -/
  writes : List (Nat × W32)
deriving DecidableEq, Repr

/-- Fields of the device-control page (Table 16-6). -/
structure DevRegs where
  proofEn : Bool
  timingLock : Bool
  /-- staged PROOF_EN and TIMING_LOCK -/
  stage : Option (Bool × Bool)
  proofRefused : Bool
  classChanged : Bool
  lockBroken : BitVec 16
  /-- CLASS when CLASS_CHANGED was last cleared or set -/
  classSeen : W32
  evtIrq : W32
  /-- DEV_EVT_SUMMARY at the last evaluation (R454) -/
  summaryPrev : W32
  lmapSel : BitVec 9
  fwdIndex : BitVec 14
  /-- forwarding table: identifier to entry; an unlisted entry is 0 (log 8) -/
  fwd : List (Nat × Byte)
  held : Held
deriving DecidableEq, Repr

/-- Fields of the ledger page (Table 16-9). -/
structure LdgRegs where
  dbRing : W32
  discard : W32
  errIrq : W32
  cplIrq : W32
  errLost : W64
  /-- ADM_CMD_DATA0 to 15 -/
  cmd : List W32
deriving DecidableEq, Repr

/-- A read window: its selector and its data words (R461, R470). -/
structure Window where
  sel : W32
  data : List W32
  /-- CORE_WIN_INFO.TAG -/
  tag : Bool
deriving DecidableEq, Repr

/-! ### Module, supply and temperature (15) -/

/-- An open sag episode (R430): deepest threshold, lowest input, start. -/
structure Sag where
  deepest : Nat
  lowest : Nat
  start : W64
  /-- SEQ of its record -/
  seq : Nat
deriving DecidableEq, Repr

/-- The latch of a thermal trip (R443). -/
structure Trip where
  point : Nat
  unit : Nat
  temp : BitVec 16
  start : W32
deriving DecidableEq, Repr

/-- Supply, rails, caps and temperatures of the module (chapter 15). -/
structure Module where
  railsUp : Bool
  mgmtUp : Bool
  pwrEn : Bool
  /-- a power loss leaves the module waiting for PWR_EN to be deasserted and asserted again (R432) -/
  lost : Bool
  tellerEn : Bool
  folioPos : BitVec 4
  mref : Bool
  inMv : Nat
  inW : Nat
  flashGate : Bool
  sagCap : Bool
  quiesced : Bool
  overVolt : Bool
  quiesceStart : W64
  episode : Option Sag
  powerCap : Nat
  undercut : BitVec 16
  capBelowPin : Bool
  coolIn : BitVec 16
  coolOut : BitVec 16
  coolAlert : Bool
  powerOver : Bool
  railFault : Bool
  /-- alerts and temperatures by base die and by stack -/
  baseAlert : List Nat
  hbmAlert : List Nat
  baseTemp : List (Nat × BitVec 16)
  hbmTemp : List (Nat × BitVec 16)
  /-- stacks in the doubled refresh form (R269) -/
  doubled : List Nat
  thermTrip : Bool
  tripLatch : Option Trip
  /-- a rail fault whose record waits for the next start-up (R436): words 6 and 7 -/
  railLatch : Option (W64 × W64)
  /-- ALERT_N asserted at the last evaluation (R446) -/
  alertPrev : Bool
deriving DecidableEq, Repr

/-- The I3C target (R444). -/
structure I3c where
  dynAddr : Option (BitVec 7)
  ibiEn : Bool
deriving DecidableEq, Repr

/-- A compute region (R27, R391, R441, R442, R468). -/
structure Region where
  volt : Nat
  vmax : Nat
  v0 : Nat
  t0 : Nat
  target : Nat
  thermalCap : Nat
  freeRate : Nat
  temp : BitVec 16
  tAlert : Bool
  guardLo : BitVec 16
  guardHi : BitVec 16
  /-- its rail is in regulation (R27, R436) -/
  rail : Bool
  beats : W64
deriving DecidableEq, Repr

/-- A base-die fabric domain (R27, R28). -/
structure FabDomain where
  freeRate : Nat
  beats : W64
deriving DecidableEq, Repr

/-! ### Units -/

/-- A bank of the die store: its tag and the record that filled its user slots, 0 for none (R191). -/
structure DieBank where
  tag : W32
  recId : Nat
deriving DecidableEq, Repr

/-- A physical core outside a run (R118, R189 to R195, R383, R393, R469). -/
structure CoreHw where
  /-- active die bank -/
  active : Bool
  pending : Bool
  scheduled : Bool
  switches : BitVec 16
  bank0 : DieBank
  bank1 : DieBank
  assay : Bool
  lag : Nat
  /-- consecutive re-plans at which the core was slow (R393) -/
  slow : Nat
  /-- the mill idles after an unplanned gap reached the strike threshold (R118) -/
  idle : Bool
  /-- poisoned blocks of its till that belong to no job's memory (R271, R272) -/
  loose : List Nat
  win : Window
deriving DecidableEq, Repr

/-- An HBM pseudo-channel (R270, R291, R467). -/
structure Chan where
  trained : Bool
  candidate : Bool
  /-- SEQ of the record that made it a candidate, 0 for none -/
  cause : Nat
  corr : W64
  /-- times and symbol counts of corrections in the last hour -/
  hour : List (W64 × Nat)
  uncorr : W32
  /-- rows with uncorrectable blocks, with their times -/
  rows : List (Nat × W64)
  passes : BitVec 16
  /-- blocks that the present pass has scrubbed -/
  scrubbed : Nat
  /-- blocks waiting to be rewritten: job, block, poisoned; of job 0, a block of the channel itself -/
  rewrite : List (Nat × Nat × Bool)
  /-- poisoned blocks of the channel that belong to no job's memory: unallocated frames and reserve (R272) -/
  loose : List Nat
deriving DecidableEq, Repr

/-- An entry of a till or vault page map: the physical page of a job's logical page (R261, R262). A till page is
of a device logical core's till, a vault page of a base die. -/
structure PageEnt where
  till : Bool
  /-- device logical core, or base die -/
  unit : Nat
  job : Nat
  /-- device slot, 0 for the vault -/
  slot : Nat
  /-- an entry of the job's shadow pages, by index; else of its home pages, by logical page -/
  shadow : Bool
  page : Nat
  phys : Nat
deriving DecidableEq, Repr

/-- A posted HBM page that waits for write-back, with the step that posted it (R275, R276). -/
structure WBack where
  job : Nat
  page : Nat
  step : Nat
  /-- when it was posted -/
  time : W64
deriving DecidableEq, Repr

/-- A retired channel whose frames lie in the sparing reserve: its number, the free value that places each frame,
and the channels that took them (R292; log 24). -/
structure Spared where
  chan : Nat
  stamp : Nat
  hosts : List Nat
  /-- blocks of its unallocated frames and reserve pages that keep their poison -/
  loose : List Nat
deriving DecidableEq, Repr

/-- A base die's repairs (R339, R466). -/
structure BaseDie where
  /-- vault group that the spare replaced -/
  spareFor : Option Nat
  /-- vault groups withdrawn -/
  groupsOut : List Nat
  meshSpare : BitVec 24
  meshDeg : BitVec 24
  edgeSpare : BitVec 4
  edgeDeg : BitVec 4
  /-- poisoned blocks of its vault that belong to no job's memory: bank group, block (R271, R272) -/
  loose : List (Nat × Nat)
deriving DecidableEq, Repr

/-- A per-unit summary entry (Table 11-12). -/
structure Summary where
  state : Nat
  lastVerdict : Nat
  transients : Nat
  lastEvent : Nat
  lastStart : W32
  lastTime : W64
  fenceStart : W32
  fenceTime : W64
deriving DecidableEq, Repr

/-- The health of units named by UTYPE × 4,096 + PUNIT (R338, R345, R356). -/
structure Units where
  /-- fenced at manufacture (cores only) -/
  made : List Nat
  /-- fenced, withdrawn or retired in service -/
  fenced : List Nat
  degraded : List Nat
  /-- the bursar's copy of the summary -/
  summary : List (Nat × Summary)
  /-- times of the transient verdicts that count toward R345 -/
  times : List (Nat × List W64)
  /-- units whose accumulated action is due at the next step boundary, with the record that caused it -/
  accumulated : List (Nat × Nat)
deriving DecidableEq, Repr

/-! ### Start-up, flash and firmware (14) -/

/-- A security-version record of the chain (Table 14-13): SVN, PREV, the record's own digest, and whether it verifies as
flash holds it (R407). -/
structure SvRec where
  svn : Nat
  prev : BitVec 384
  digest : BitVec 384
  verifies : Bool
deriving DecidableEq, Repr

/-- A copy of the chain: its records, and whether the first is a compaction record (R413). -/
structure ChainCopy where
  recs : List SvRec
  compacted : Bool
deriving DecidableEq, Repr

/-- A firmware image in a slot: its header fields, its digest, the record it carries (R413, R414), and whether it
verifies as flash holds it (R407, R415, R417). -/
structure FwImage where
  head : Config.FwHeader
  digest : BitVec 384
  sv : Option SvRec
  verifies : Bool
deriving DecidableEq, Repr

/-- The boot control block (R415). Slots: false A, true B. -/
structure Boot where
  active : Bool
  trial : Bool
  tries : Nat
  seq : W64
deriving DecidableEq, Repr

/-- A copy of the boot control block, and whether its CRC-32 is valid (R415). -/
structure BootCopy where
  boot : Boot
  crcOk : Bool
deriving DecidableEq, Repr

/-- A configuration record in effect (R403). -/
structure CfgRec where
  seq : W64
  keyId : W64
  digest : BitVec 384
  body : Config.CfgBody
deriving DecidableEq, Repr

/-- A signed die bank record (Table 6-18). -/
structure DieRec where
  userVer : BitVec 16
  builtin : BitVec 16
  digest : BitVec 384
  slots : List (Nat × List Byte)
deriving DecidableEq, Repr

/-- A vector of an assay set (R378). -/
structure Vec where
  expected : W128
  template : Nat
  cross : Bool
deriving DecidableEq, Repr

/-- An installed assay set (Table 13-1). -/
structure AssaySet where
  setId : Nat
  setVer : Nat
  startup : Bool
  rotation : Bool
  demand : Bool
  runMs : Nat
  vecs : List Vec
  digest : BitVec 384
  /-- its Niwell binary, as it runs (R378, R380) -/
  bin : Binary
deriving DecidableEq, Repr

/-- A write that waits in the flash queue while the gate is closed (R419). -/
inductive FlashWrite where
  | boot (b : Boot)
  | summary (unit : Nat) (e : Summary)
  | ageing (entries : List (Nat × W256))
  | chain (r : SvRec)
  /-- START_COUNT of the summary header -/
  | start (n : W32)
  /-- a configuration record and its length in bytes -/
  | config (type : Nat) (r : CfgRec) (bytes : Nat)
deriving DecidableEq, Repr

/-- Everything that the flash holds (Table 14-8). -/
structure Flash where
  startCount : W32
  /-- the two copies of the boot control block -/
  boot0 : BootCopy
  boot1 : BootCopy
  imgA : Option FwImage
  imgB : Option FwImage
  /-- the two copies of the security-version chain -/
  chain0 : ChainCopy
  chain1 : ChainCopy
  cfg : List (Nat × CfgRec)
  certs : List (List Byte)
  /-- the last two die bank records -/
  dieRec : Option DieRec
  dieOld : Option DieRec
  /-- assay store by slot 0 to 15 -/
  assay : List (Nat × AssaySet)
  /-- last erase per slot, and times of installs -/
  erased : List (Nat × W64)
  installs : List W64
  /-- ageing entries by free-running index, and the next index -/
  age : List (Nat × W256)
  ageNext : Nat
  summary : List (Nat × Summary)
  /-- entries written at once in the present hour (R395) -/
  sumHour : Nat
  queue : List FlashWrite
  /-- time of the last FW_STAGE -/
  staged : Option W64
  /-- an erase is suspended by the gate (R418) -/
  suspended : Bool
deriving DecidableEq, Repr

/-- A command whose completion waits: ring and SEQ. -/
structure Waiting where
  ring : Nat
  seq : W32
deriving DecidableEq, Repr

/-- A firmware switch in progress (R417). -/
structure FwSwitch where
  cmd : Waiting
  since : W64
deriving DecidableEq, Repr

/-- A firmware switch whose new image runs, and which a lockstep divergence within 1 s reverts (R417): the old slot,
when the new image started, the command, the old SVN and the switch time. -/
structure Revert where
  slot : Bool
  time : W64
  cmd : Waiting
  svn : Nat
  us : Nat
deriving DecidableEq, Repr

/-- An entry of the measurement log (R411). -/
structure Measure where
  kind : Byte
  item : BitVec 384
  time : W64
deriving DecidableEq, Repr

/-- The recovery window (R421, R457). -/
structure Recovery where
  piece : BitVec 13
  ptr : BitVec 10
  /-- words written since the last PIECE_DONE, by word index -/
  words : List (Nat × W32)
  /-- stored pieces by index: 1,024 words each, by word index -/
  pieces : List (Nat × List (Nat × W32))
  status : Nat
  /-- a FINISH that waits for the flash gate to open (R418) -/
  waiting : Option StartEnv
deriving DecidableEq, Repr

/-- What a start-up leaves in the bursar (chapter 14). -/
structure StartUp where
  phase : Nat
  failOrder : Nat
  slot : Bool
  trial : Bool
  fallback : Bool
  identityOk : Bool
  strapErr : Bool
  teller : Bool
  halted : Bool
  /-- records raised before ring 2 exists (R471), oldest first -/
  held : List (List W64)
  mBoot : BitVec 384
  mRun : BitVec 384
  mCount : Nat
  mLog : List Measure
  /-- times of the lockstep divergences since warm reset -/
  diverged : List W64
  rcv : Recovery
  /-- configuration records in effect (R403 to R405) -/
  cfg : List (Nat × CfgRec)
  /-- KEY_ID of the derived identity keys, and the bursar's key store: the Ed25519 private key and the ML-DSA-65 seed,
  which no register reads (R409) -/
  keyId : W64
  keys : Option (List Byte × List Byte)
  fwSwitch : Option FwSwitch
  fwStaging : Option (Waiting × FwImage)
  revert : Option Revert
  /-- bursar window -/
  win : Window
deriving DecidableEq, Repr

/-! ### Rings and sequences (08) -/

/-- An allocated ring (Table 8-15). Rings of JOB 0 in HBM keep their entries here, by entry number. -/
structure Ring where
  base : W64
  host : Bool
  kind : Nat
  sizeLog2 : Nat
  peerRing : Nat
  peerDev : BitVec 16
  msix : BitVec 11
  irqEn : Bool
  tail : W32
  head : W32
  job : Nat
  /-- consumption stopped by a RING_STALE (R246) -/
  stopped : Bool
  entries : List (Nat × List W64)
  /-- entries beyond TAIL that a member has written into host memory: outstanding writes of each (R306) -/
  ahead : List Nat
deriving DecidableEq, Repr

/-- A used sequence table entry (Table 8-19). -/
structure SeqEntry where
  closing : Bool
  job : Nat
  lcore : Nat
  rule : Nat
  cacheDesc : Nat
  length : Nat
  reqRing : Nat
deriving DecidableEq, Repr

/-- A request of a batch: sequence index, position and payload words (R256). -/
structure Req where
  index : Nat
  position : Nat
  payload : List W64
deriving DecidableEq, Repr

/-- A batch of one job's device logical core and rule (R122, R256). -/
structure Batch where
  job : Nat
  lcore : Nat
  rule : Nat
  reqs : List Req
  closed : Bool
  /-- step counter of the step that serves it -/
  served : Option W64
deriving DecidableEq, Repr

/-! ### Assay and background users (13) -/

/-- A reference of a cross vector in the current round (R382). -/
inductive RefState where
  | provisional (core : Nat) (d : W128)
  /-- a run disagreed: both runs' cores and digests; the run of the next core that the rotation reaches decides, once it
  has reached one -/
  | disputed (c0 : Nat) (d0 : W128) (c1 : Nat) (d1 : W128) (third : Option Nat)
  | confirmed (d : W128)
  | void
  /-- no digest of more than half of the cores in round 0: every run of the vector fails -/
  | failing
deriving DecidableEq, Repr

/-- Why a core is assayed. -/
inductive AssayWhy where
  | rotation
  /-- on demand, by the ASSAY_REQUEST with this stamp -/
  | request (stamp : Nat)
  /-- UNFENCE_REQ (R456) -/
  | unfence
deriving DecidableEq, Repr

/-- A core under assay, or waiting to be (R385). -/
structure AssayJob where
  core : Nat
  why : AssayWhy
  /-- identifiers of the sets still to run after the present one -/
  ids : List Nat
  /-- the set whose runs the core executes -/
  cur : Option AssaySet
  /-- the core is under assay -/
  started : Bool
  /-- it may be time-multiplexed away where its region has no spare (R386) -/
  force : Bool
  /-- it was fenced when it was asked for -/
  wasFenced : Bool
  /-- run A failed: first failing vector, digest seen, and vectors run -/
  fail : Option (Nat × W64 × Nat)
  /-- worst FLAGS of its verdicts so far (R386) -/
  worst : Nat
deriving DecidableEq, Repr

/-- An ASSAY_REQUEST waiting for its last verdict (R386). -/
structure AssayReq where
  stamp : Nat
  cmd : Waiting
  /-- worst FLAGS so far -/
  flags : Nat
deriving DecidableEq, Repr

/-- Assay, arrears and ageing (chapter 13). -/
structure AssayState where
  rotEn : Bool
  periodH : Nat
  round : Nat
  skipped : BitVec 16
  arrLimit : List W32
  /-- when the oldest pending item of a background user dates from, for users 1 to 4, whose items the state does not
  hold otherwise: user and time (R389) -/
  items : List (Nat × W64)
  /-- time of the last hourly re-plan (R392) -/
  agedAt : W64
  /-- promoted background users -/
  promoted : List Nat
  jobs : List AssayJob
  reqs : List AssayReq
  nextStamp : Nat
  /-- references by set × 4,096 + vector -/
  refs : List (Nat × RefState)
  /-- rotation stream per base die: next core of its list, by base die -/
  streams : List (Nat × Nat)
  /-- sets installed since the rotation pass began, which wait for the next one (R380) -/
  late : List Nat
  /-- cores to be fenced or reported at the next boundary: core and lag share (R393) -/
  slow : List (Nat × Nat)
  /-- MONG_SNAPS -/
  snaps : BitVec 16
  /-- ageing entries of earlier hours that found the flash queue full (R419) -/
  ageHeld : List W256
  /-- what the last step boundary delayed the next step, in µs (R390, R399) -/
  delay : Nat
deriving DecidableEq, Repr

/-! ### Fabric (10) -/

/-- States of a port (Table 10-8). -/
inductive PortState where
  | down | training | auth | admitted | authFail | quarantined | host
deriving DecidableEq, Repr

/-- A transaction (Table 10-4) with its data. -/
structure Txn where
  ttype : Nat
  tag : Nat
  src : Nat
  dst : Nat
  job : Nat
  len : Nat
  status : Nat
  altOk : Bool
  attempt : Nat
  space : Nat
  stepLo : Nat
  addr : Nat
  contrib : Nat
  poison : Nat
  data : List Byte
deriving DecidableEq, Repr

/-- A flit as sent: its link header, payload and CRC (R299, Table 10-3). -/
structure TxFlit where
  ftype : Nat
  seq : BitVec 12 := 0
  ack : BitVec 12 := 0
  cvc : Nat := 0
  credits : Nat := 0
  vc : Nat := 0
  enc : Bool := false
  first : Nat := 15
  payload : List Byte := []
  crc : Nat := 0
  /-- the transaction that begins in it, while it waits to be sent -/
  txn : Option Txn := none
deriving DecidableEq, Repr

/-- What an outstanding tag belongs to. -/
inductive TagUse where
  /-- transaction `i` of a contribution being sent -/
  | contrib (send i : Nat)
  | csgn (send : Nat)
  | voidMsg (send : Nat)
  | msg (ring : Nat) (seq : W32)
  | int
  /-- a member's access of host memory (R329) -/
  | host
  /-- a member's write of ring entry `k` into host memory (R306) -/
  | entry (ring : Nat) (k : W32) (t : Txn)
  /-- relayed access `id` (R328) -/
  | relay (id : Nat)
deriving DecidableEq, Repr

/-- A transaction that waits for its completion (R303). -/
structure Tag where
  tag : Nat
  use_ : TagUse
  time : W64
deriving DecidableEq, Repr

/-- Management messages that the device sends (R309 to R311, R326). -/
inductive Mgmt where
  | hello (bytes : List Byte)
  /-- both signatures over the transcript, as Table 14-4 places them, and the ML-KEM-768 ciphertext -/
  | response (signatures cipher : List Byte)
  | binding (id : BitVec 16) (digest : W64)
  | claim (pos : Nat)
  | claimReply (accepted : Bool)
deriving DecidableEq, Repr

/-- A Jexlet port (chapter 10). -/
structure Port where
  state : PortState
  /-- healthy lanes -/
  lanes : Byte
  width : Nat
  encReq : Bool
  enc : Bool
  partner : BitVec 16
  tmrAck : Nat
  tmrSilence : Nat
  tmrCredit : Nat
  tmrTxn : Nat
  /-- limits of Table 10-11, and the counted events with their times -/
  qlim : List Nat
  qev : List (Nat × W64)
  qcause : Nat
  fec : W64
  /-- next SEQ expected, and next SEQ to send -/
  rxSeq : BitVec 12
  txSeq : BitVec 12
  /-- the receiver discards until the flit it asked for arrives (R300) -/
  discarding : Bool
  /-- ACK of a replay request that waits to be served -/
  replayAck : Option (BitVec 12)
  /-- sent data and management flits that no ACK covers, oldest first -/
  unacked : List TxFlit
  /-- flits that wait for a credit of their VC, oldest first -/
  waiting : List TxFlit
  /-- credits held for VC 0, 1, 2 -/
  credits : List Nat
  /-- the partner's credits: flits it may still send on VC 0, 1, 2 -/
  granted : List Nat
  /-- units received of a transaction that runs on, by VC -/
  part : List (Nat × List Byte)
  /-- received transactions that wait for their service, oldest first -/
  rxq : List Txn
  tags : List Tag
  /-- transactions that wait here until the port is admitted (R307) -/
  parked : List Txn
  /-- transactions of other devices that leave here, by 4 × ingress port + virtual channel, and the ingress port that was
  served last (R308) -/
  fwdq : List (Nat × List Txn)
  fwdLast : Nat
  /-- requests that wait for a free tag -/
  tagWait : List (Txn × TagUse)
  /-- flits put on the link, newest first -/
  wire : List TxFlit
  mgmt : List Mgmt
  /-- number of the present admission attempt's nonce, and the partner's HELLO -/
  attempt : Nat
  /-- the HELLO that the port sent for it, and the ciphertext of its RESPONSE with the secret (R310, R312) -/
  sent : List Byte
  /-- encryption that it requested, and the fleet floor, as the policy stood when the attempt began (R405) -/
  sentEnc : Bool
  floor : Nat
  cipher : Option (List Byte × List Byte)
  hello : Option Hello
  keyTx : BitVec 256
  keyRx : BitVec 256
  salt : W32
  countTx : W64
  countRx : W64
  /-- the partner was admitted without an identifier record, limited to its teller (R326) -/
  limited : Bool
deriving DecidableEq, Repr

/-- How far a contribution has got; `retracted` once its VOID has completed, until the next run streams it again
(R321). -/
inductive SendState where
  | streaming | landed | signed | retracted
deriving DecidableEq, Repr

/-- A contribution that this device sends (R321). -/
structure Send where
  id : Nat
  job : Nat
  slot : Nat
  contrib : Nat
  plan : Nat
  attempt : Nat
  dst : Nat
  csgn : W128
  bytes : Nat
  txns : List Txn
  /-- transactions not yet completed with OK, and those to resend after 2 µs -/
  open_ : List Nat
  retry : List Nat
  alt : Bool
  state : SendState
  /-- STATUS of the VOID that withdraws it -/
  void : Option Nat
deriving DecidableEq, Repr

/-- A countersign held until its bytes have landed (R322): what it carries, the port and the request to answer. -/
structure HeldCsgn where
  digest : W128
  bytes : Nat
  port : Nat
  txn : Txn
deriving DecidableEq, Repr

/-- A contribution that this device receives (R322): its declared sender and what has landed. -/
structure Recv where
  job : Nat
  stepLo : Nat
  src : Nat
  /-- sender's shard, logical core and ordinal -/
  shard : Nat
  lcore : Nat
  ordinal : Nat
  /-- slot whose till it names, or whose arrivals it signals -/
  slot : Nat
  attempt : Nat
  port : Option Nat
  /-- landed bytes in order: space, address, byte -/
  landed : List (Nat × Nat × Byte)
  marks : List (Nat × Nat × Bool)
  /-- MODE of its plan entry -/
  mode : Nat
  complete : Bool
  verified : Bool
  read : Bool
  /-- the data of this attempt was discarded -/
  voided : Bool
  /-- the run that read it has ended, and its replacement has not landed -/
  due : Bool
  /-- countersign held until the byte count has landed -/
  held : Option HeldCsgn
  /-- a contribution of a shard on this device: the countersign that its sender formed (R318) -/
  own : Option W128
deriving DecidableEq, Repr

/-- A folio table entry (Table 16-12). -/
structure FolioEnt where
  valid : Bool
  claimed : Bool
  refused : Bool
  id : BitVec 16
deriving DecidableEq, Repr

/-- A host window (Table 16-12). -/
structure HostWin where
  base : W64
  limit : W64
  re : Bool
  we : Bool
deriving DecidableEq, Repr

/-- An entry of the MSI-X table in BAR2 (R328): message address and data, and vector control, bit 0 its mask. -/
structure MsixEnt where
  addr : W64
  data : W32
  ctl : W32
deriving DecidableEq, Repr

/-- An MSI-X message that the teller has sent. -/
structure MsixMsg where
  vector : BitVec 11
  addr : W64
  data : W32
deriving DecidableEq, Repr

/-- The PCIe function of the host bridge (Table 10-15). -/
structure Pcie where
  classCode : BitVec 24
  device : BitVec 16
  revision : Byte
  /-- BAR0/1 and BAR2/3 -/
  bar0 : W64
  bar2 : W64
  d3hot : Bool
  maxPayload : Nat
  maxRead : Nat
  ecrc : Bool
  /-- outstanding non-posted requests that it may have -/
  requests : Nat
  /-- Completer Aborts that AER shows as cleared: its status bit is set while more have been sent -/
  aerClear : Nat
deriving DecidableEq, Repr

/-- The function's vendor ID: Tsuvik's (Table 10-15). -/
def Pcie.vendor (_ : Pcie) : BitVec 16 := Config.pciVendor

/-- An access that the teller relays, in PCIe arrival order (R328); `answer` is a read's status and data. -/
structure Relay where
  id : Nat
  pos : Nat
  read : Bool
  /-- offset in the member's window -/
  off : Nat
  answer : Option (Nat × W32)
deriving DecidableEq, Repr

/-- The teller's page, its MSI-X table and its relayed accesses (R326 to R330, R464). -/
structure Teller where
  folio : List (Nat × FolioEnt)
  wins : List (Nat × HostWin)
  linkUp : Bool
  width : Nat
  gen : Nat
  relayTo : W32
  /-- MSI-X table by vector; pending vectors -/
  msix : List (Nat × MsixEnt)
  pend : List Nat
  pcie : Pcie
  relays : List Relay
  nextRelay : Nat
deriving DecidableEq, Repr

/-- What the device holds of its fabric: bindings, contributions, messages. -/
structure Fabric where
  /-- binding table: identifier to key digest (R311) -/
  binding : List (Nat × W64)
  sends : List Send
  nextSend : Nat
  recvs : List Recv
  /-- the teller whose claim this member holds, with its position -/
  claim : Option (BitVec 16)
deriving DecidableEq, Repr

/-- What the device has put out: reads answered, sideband, MSI-X messages, in-band interrupts' data bytes, aborts and
its writes into host memory. -/
structure Out where
  lastRead : W32
  sbStatus : Byte
  cccData : List Byte
  msix : List MsixMsg
  ibi : List Byte
  pcieAbort : Nat
  hostMem : List Host.Cell
  /-- a member's writes of ring entries into host memory that wait to be sent again: ring, entry, request
  (R306, R329) -/
  hostWait : List (Nat × W32 × Txn)
deriving DecidableEq, Repr

end Sys2Proof.Machine
end

