-- ==== Sys2Proof/Machine/State.lean ====
section
/-! DEFINITION. The state of the block and its reset. -/

namespace Sys2Proof.Machine

/-- Why the block stops: only where the spec gives an access no outcome. -/
inductive Fault where
  /-- Raised by the register commands: an access that is not a naturally aligned 32-bit access of the
  64 MiB window, which R10 forbids and for which the spec gives no outcome. Safe: the machine stops. -/
  | misaligned (off : W32)
deriving DecidableEq, Repr

/-- Why a command has no meaning here. -/
inductive Refusal where
  /-- Raised by an arm of `exec` that has no meaning yet. Safe: the machine stops. -/
  | notModelled (mnemonic : String)
deriving DecidableEq, Repr

/-- Everything the spec gives the machine, and the commands that wait. -/
structure State where
  /-- commands that wait, first in first out (log 18) -/
  pending : List Instr
  /-- the MODEL'S own field: index of the next free value (log 2) -/
  freeCtr : Nat
  /-- device time in ns since start-up (R27) -/
  time : W64
  out : Out
  mod : Module
  i3c : I3c
  /-- regions and base-die fabrics by number; an unlisted one is at its reset values -/
  regions : List (Nat × Region)
  fabrics : List (Nat × FabDomain)
  /-- register pages by number; an unlisted one is at its reset values -/
  pages : List (Nat × Page)
  dev : DevRegs
  ldg : LdgRegs
  su : StartUp
  flash : Flash
  units : Units
  cores : List (Nat × CoreHw)
  chans : List (Nat × Chan)
  dies : List (Nat × BaseDie)
  /-- user slots of every die bank record written into a bank, by its number (R193) -/
  dieRecs : List (Nat × List (Nat × List Byte))
  /-- physical core that hosts each of the 512 logical cores (R23, R24) -/
  lmap : List Nat
  /-- pseudo-channel at each position of the HBM map (R263) -/
  hbmMap : List Nat
  /-- retired channels whose frames were moved since the map was built, oldest first (R292) -/
  spared : List Spared
  /-- program frames' capacity in bytes, and channels whose contents the sparing reserve has room for
  (R264, R292, R293) -/
  hbmBytes : Nat
  spareGb : Nat
  /-- till page maps and vault page maps of the resident jobs (R261, R262) -/
  pageMap : List PageEnt
  rings : List (Nat × Ring)
  /-- completions of JOB 0 that wait for room in their ring (R246) -/
  queued0 : List Completion
  jobs : List Job
  /-- sequence table: used entries by index (R254) -/
  seqTab : List (Nat × SeqEntry)
  batches : List Batch
  /-- order stamp of the next STEP_RUN (R237) -/
  stamp : Nat
  /-- posted HBM pages of 4 KiB that wait for write-back (R275) -/
  wback : List WBack
  runs : List Run
  /-- by core, the slot state that the core's last run left (R470) -/
  lastSlots : List (Nat × Slot)
  asy : AssayState
  ports : List (Nat × Port)
  fab : Fabric
  tel : Teller
deriving DecidableEq, Repr

/-! ### Reset values of the parts -/

def MonCap.zero : MonCap := ⟨0, 0, 0, List.replicate 16 0⟩

/-- A monitor window at reset (Table 13-12). -/
def Mon.reset : Mon := ⟨0, 0, true, 0, MonCap.zero, none, none⟩

/-- A page header at reset (Table 16-2). -/
def Page.reset : Page := ⟨0, 0, 0, 0, true, Mon.reset⟩

def Window.reset (n : Nat) : Window := ⟨0, List.replicate n 0, false⟩

/-- A region at cold reset: V 700 mV (R434), guards 30 and 90 (R391); V0, VMAX and T0 of the shipped
manufacture record (log 7); the thermal cap at its upper end (log 5). -/
def Region.reset : Region := ⟨700, 800, 700, 1500, 1500, 1800, 1500, 0, false, 30, 90, true, 0⟩

def FabDomain.reset : FabDomain := ⟨1500, 0⟩

/-- A core at reset: both banks hold the built-in dies at version 0x0001 (R191). -/
def CoreHw.reset : CoreHw :=
  ⟨false, false, false, 0, ⟨0x00010000, 0⟩, ⟨0x00010000, 0⟩, false, 0, 0, false, [], Window.reset 8⟩

def Chan.reset : Chan := ⟨true, false, 0, 0, [], 0, [], 0, 0, [], []⟩

def BaseDie.reset : BaseDie := ⟨none, [], 0, 0, 0, 0, []⟩

def Summary.healthy : Summary := ⟨0, 0, 0, 0, 0, 0, 0, 0⟩

/-- A port at reset: DOWN, timers and limits of Table 16-13. -/
def Port.reset : Port :=
  { state := .down, lanes := 0, width := 0, encReq := false, enc := false, partner := 0
    tmrAck := 4, tmrSilence := 10, tmrCredit := 10, tmrTxn := 20
    qlim := [16, 1, 10000, 16, 64, 2, 3], qev := [], qcause := 0xF, fec := 0
    rxSeq := 0, txSeq := 0, discarding := false, replayAck := none
    unacked := [], waiting := [], credits := [0, 0, 0], granted := [0, 0, 0], part := [], rxq := [], parked := []
    fwdq := [], fwdLast := 11
    tags := [], tagWait := [], wire := [], mgmt := [], attempt := 0, sent := []
    sentEnc := false, floor := 0, cipher := none, hello := none, keyTx := 0, keyRx := 0, salt := 0
    countTx := 0, countRx := 0, limited := false }

def FolioEnt.reset : FolioEnt := ⟨false, false, false, 0⟩
def HostWin.reset : HostWin := ⟨0, 0, false, false⟩

/-- An MSI-X entry at reset: masked, as PCIe has it (log 4). -/
def MsixEnt.reset : MsixEnt := ⟨0, 0, 1⟩

/-- The host bridge's function at reset: the identity and the limits of Table 10-15, BARs that the host has not
placed, state D0 (log 4). -/
def Pcie.reset : Pcie := ⟨0x120000, 0x0512, 0, 0, 0, false, 512, 4096, false, 4096, 0⟩

/-- The teller's part at reset: no member, no window, no link (R464). -/
def Teller.reset : Teller := ⟨[], [], false, 0, 0, 0, [], [], Pcie.reset, [], 0⟩

def Recovery.reset : Recovery := ⟨0, 0, [], [], 0, none⟩

/-- The image a module ships with in slot A (log 7). -/
def FwImage.shipped : FwImage := ⟨⟨0, 1, 1, [1], 1, 0, 0⟩, 0, none, true⟩

/-- The manufacture record a module ships with: serial number 0 and no fenced core (log 7). -/
def CfgRec.shipped : CfgRec :=
  ⟨1, 0, 0, ⟨0, [], [], List.replicate 32 (700, 800, 1500), 0, 0, false, none, none⟩⟩

/-- R23's map of a module without fences: logical core `16 r + i` on physical core `18 r + i`. -/
def fullMap : List Nat := (List.range 512).map (fun l => 18 * (l / 16) + l % 16)

/-- The order of positions of the HBM map on a module with no channel retired (R263). -/
def fullHbmMap : List Nat := (List.range 1024).map (fun p => 64 * (p % 16) + p / 16)

/-- The module before PWR_EN is asserted: rails off, PHASE 0, no ring, no job (R15, R401, R434; logs 5 to 9). -/
def State.reset : State :=
  { pending := []
    freeCtr := 0
    time := 0
    out := ⟨0, 0, [], [], [], 0, [], []⟩
    mod :=
      { railsUp := false, mgmtUp := false, pwrEn := false, lost := false, tellerEn := false
        folioPos := 0, mref := true, inMv := 50000, inW := 0, flashGate := false, sagCap := false
        quiesced := false, overVolt := false, quiesceStart := 0, episode := none, powerCap := 1500
        undercut := 0, capBelowPin := false, coolIn := 0, coolOut := 0, coolAlert := false
        powerOver := false, railFault := false, baseAlert := [], hbmAlert := [], baseTemp := []
        hbmTemp := [], doubled := [], thermTrip := false, tripLatch := none, railLatch := none
        alertPrev := false }
    i3c := ⟨none, true⟩
    regions := []
    fabrics := []
    pages := []
    dev :=
      { proofEn := false, timingLock := false, stage := none, proofRefused := false, classChanged := false
        lockBroken := 0, classSeen := 0, evtIrq := 0, summaryPrev := 0, lmapSel := 0, fwdIndex := 0
        fwd := [], held := ⟨[], [], []⟩ }
    ldg := ⟨0, 0, 0, 0x80000000, 0, List.replicate 16 0⟩
    su :=
      { phase := 0, failOrder := 0, slot := false, trial := false, fallback := false, identityOk := false
        strapErr := false, teller := false, halted := false, held := [], mBoot := 0, mRun := 0, mCount := 0
        mLog := [], diverged := [], rcv := Recovery.reset, cfg := [], keyId := 0, keys := none, fwSwitch := none, fwStaging := none
        revert := none, win := Window.reset 16 }
    flash :=
      { startCount := 0, boot0 := ⟨⟨false, false, 0, 0⟩, true⟩, boot1 := ⟨⟨false, false, 0, 0⟩, true⟩, imgA := some FwImage.shipped, imgB := none
        chain0 := ⟨[], false⟩, chain1 := ⟨[], false⟩, cfg := [(1, CfgRec.shipped)], certs := [], dieRec := none
        dieOld := none, assay := [], erased := []
        installs := [], age := [], ageNext := 0, summary := [], sumHour := 0, queue := [], staged := none
        suspended := false }
    units := ⟨[], [], [], [], [], []⟩
    cores := []
    chans := []
    dies := []
    dieRecs := []
    lmap := fullMap
    hbmMap := fullHbmMap
    spared := []
    hbmBytes := 1008 * 10 ^ 9
    spareGb := 2
    pageMap := []
    rings := []
    queued0 := []
    jobs := []
    seqTab := []
    batches := []
    stamp := 0
    wback := []
    runs := []
    lastSlots := []
    asy :=
      { rotEn := true, periodH := 24, round := 0, skipped := 0
        arrLimit := [20000, 1000, 10000, 0xFFFFFFFF, 100000, 600000000]
        items := [], agedAt := 0, promoted := [], jobs := [], reqs := [], nextStamp := 0, refs := []
        streams := [], late := [], slow := [], snaps := 0, ageHeld := [], delay := 0 }
    ports := []
    fab := ⟨[], [], 0, [], none⟩
    tel := Teller.reset }

end Sys2Proof.Machine
end

