-- ==== Sys2Proof/Machine/Link.lean ====
section
/-! DEFINITION. The sending half of a port: transactions become flits, flits take sequence numbers and
credits, requests take tags (R299 to R307, R312; logs 16, 17). -/

namespace Sys2Proof.Machine

def State.port (s : State) (p : Nat) : Port := lookD Port.reset p s.ports
def State.setPort (s : State) (p : Nat) (q : Port) : State := { s with ports := put p q s.ports }

/-- This device's identifier: the identity record's, 0 without one (R307, R457). -/
def State.deviceId (s : State) : Nat :=
  match look 2 s.su.cfg with
  | some r => r.body.device % 65536
  | none => 0

/-- A port that carries transactions. -/
def State.admitted (s : State) (p : Nat) : Bool := decide (p < 12) && decide ((s.port p).state = .admitted)

/-! ### Flits -/

/-- Virtual channel of a transaction type (Table 10-5). -/
def txnVc (t : Nat) : Nat := if t = 5 then 1 else if 7 ≤ t ∧ t ≤ 10 then 2 else 0

/-- The 256-bit transaction header (Table 10-4). -/
def Txn.header (t : Txn) : Nat :=
  t.ttype % 16 * 2 ^ 252 + t.tag % 4096 * 2 ^ 240 + t.src % 65536 * 2 ^ 224 + t.dst % 65536 * 2 ^ 208
    + t.job % 65536 * 2 ^ 192 + t.len % 512 * 2 ^ 183 + t.status % 8 * 2 ^ 180 + b2n t.altOk * 2 ^ 179
    + t.attempt % 4 * 2 ^ 177 + t.space % 8 * 2 ^ 174 + t.stepLo % 2 ^ 32 * 2 ^ 128
    + t.addr % 2 ^ 48 * 2 ^ 80 + t.contrib % 65536 * 2 ^ 64 + t.poison % 2 ^ 64

/-- Header and data of a transaction as payload bytes. -/
def Txn.bytes (t : Txn) : List Byte := leBytes 32 t.header ++ bytesAt t.data 0 (16 * (t.len % 512))

/-- Payload bytes of a flit (R299, R312). -/
def payloadLen (enc : Bool) : Nat := if enc then 224 else 240

/-- Flits that a transaction takes when it begins in unit 0 of a fresh flit (log 17). -/
def Txn.flits (t : Txn) (enc : Bool) : Nat :=
  let n := if t.ttype = 1 then 32 else 32 + 16 * (t.len % 512)
  (n + payloadLen enc - 1) / payloadLen enc

/-- The bytes that a transaction carries: RD names units and carries none. -/
def Txn.wire (t : Txn) : List Byte := if t.ttype = 1 then leBytes 32 t.header else t.bytes

/-- The flits of a transaction, without their sequence numbers. -/
def Txn.toFlits (t : Txn) (enc : Bool) : List TxFlit :=
  let ps := chunks (payloadLen enc) (t.flits enc) t.wire
  (List.range ps.length).map (fun i =>
    { ftype := 1, vc := txnVc t.ttype, first := if i = 0 then 0 else 15, enc := enc
      payload := bytesAt (nthD [] ps i) 0 (payloadLen enc), txn := if i = 0 then some t else none })

/-- The 96-bit link header of a flit (Table 10-3). -/
def TxFlit.header (f : TxFlit) : Nat :=
  f.ftype * 2 ^ 92 + f.seq.toNat * 2 ^ 80 + f.ack.toNat * 2 ^ 68 + f.cvc * 2 ^ 66 + f.credits * 2 ^ 58
    + f.vc * 2 ^ 56 + b2n f.enc * 2 ^ 55 + f.first * 2 ^ 51

/-- The CRC of a flit: over its header and its payload, padded with zeros to byte 251 (R299). -/
def TxFlit.check (f : TxFlit) : Nat := crc32 (leBytes 12 f.header ++ bytesAt f.payload 0 240)

/-- The 256 bytes of a flit as they go out. -/
def TxFlit.bytes (f : TxFlit) : List Byte := leBytes 12 f.header ++ bytesAt f.payload 0 240 ++ leBytes 4 f.crc

/-- Credits of a virtual channel after admission (R301). -/
def fullCredit (vc : Nat) : Nat := if vc = 2 then 16 else 24

/-- Flits of a virtual channel whose buffers are free and whose credit has not gone back: those of a channel whose
transactions are all served (log 17). -/
def Port.owed (q : Port) (vc : Nat) : Nat :=
  if q.rxq.any (fun t => txnVc t.ttype == vc) then 0 else fullCredit vc - nthD 0 q.granted vc

/-- The virtual channel whose credits the next header returns: the lowest that is owed some. -/
def Port.creditVc (q : Port) : Option Nat :=
  if q.state = .admitted then [0, 1, 2].find? (fun vc => decide (0 < q.owed vc)) else none

/-- A flit with the present ACK, and the credits that it returns. -/
def Port.stamp (q : Port) (f : TxFlit) : TxFlit :=
  let f := { f with ack := q.rxSeq - 1, txn := none }
  match q.creditVc with
  | some vc => { f with cvc := vc, credits := q.owed vc }
  | none => f

/-- The port once a header has returned credits. -/
def Port.returned (q : Port) : Port :=
  match q.creditVc with
  | some vc => { q with granted := setNth q.granted vc (fullCredit vc) }
  | none => q

/-- A flit sealed where the port encrypts, with its CRC (R299, R312). -/
def Port.seal (q : Port) (f : TxFlit) : TxFlit :=
  let f := if q.enc then
      { f with payload := Config.gcmSeal q.keyTx q.salt q.countTx.toNat (leBytes 12 f.header) f.payload }
    else f
  { f with crc := f.check }

/-- Put one data or management flit on the link: it takes the next SEQ, carries ACK and credits, is sealed
where the port encrypts, and is kept until an ACK covers it (R300, R312). -/
def Port.emit (q : Port) (f : TxFlit) : Port :=
  let f := q.seal { q.stamp f with seq := q.txSeq, enc := q.enc }
  let n := q.countTx + 1
  { q.returned with
    txSeq := q.txSeq + 1
    unacked := q.unacked ++ [f]
    wire := f :: q.wire
    countTx := if q.enc then n else q.countTx
    keyTx := if q.enc && decide (n.toNat % 2 ^ 32 = 0) then Config.nextKey q.keyTx else q.keyTx }

/-- Put an idle flit or a replay request on the link: no SEQ, no credit used, none kept (R300). -/
def Port.emitBare (q : Port) (ftype : Nat) : Port :=
  let f : TxFlit := q.stamp { ftype := ftype }
  { q.returned with wire := { f with crc := f.check } :: q.wire }

/-- A port takes flits. -/
def Port.takes (q : Port) : Bool := decide (q.state = .auth) || decide (q.state = .admitted)

/-- Something that only a header can carry has not gone out: an ACK, or credits (R300). -/
def Port.stale (q : Port) : Bool :=
  q.takes && (q.creditVc.isSome || (match q.wire with
    | f :: _ => decide (f.ack ≠ q.rxSeq - 1)
    | [] => decide (q.rxSeq ≠ 0)))

/-- Idle flits go out while nothing else is ready, one for each channel that is owed credits (R300). -/
def Port.idle (q : Port) : Port :=
  (List.range 3).foldl (fun q _ => if q.stale then q.emitBare 0 else q) q

/-- Class of a waiting flit: data by virtual channel, management beside them (R301). -/
def TxFlit.cls (f : TxFlit) : Nat := if f.ftype = 1 then f.vc else 3

/-- A flit may go out: the port carries it, fewer than 512 are unacknowledged, and a data flit's VC has a credit
(R300, R301). -/
def Port.canSend (q : Port) (f : TxFlit) : Bool :=
  decide (q.unacked.length < 512)
    && (if f.ftype = 1 then decide (q.state = .admitted) && decide (0 < nthD 0 q.credits f.vc) else q.takes)

/-- A port that has used a data flit's credit. -/
def Port.charge (q : Port) (f : TxFlit) : Port :=
  if f.ftype = 1 then { q with credits := setNth q.credits f.vc (nthD 0 q.credits f.vc - 1) } else q

/-- Send the waiting flits in order, each VC by its own credits. -/
def pumpList : List TxFlit → Port → Port
  | [], q => q
  | f :: t, q =>
    if q.canSend f && !(q.waiting.any (fun g => g.cls == f.cls)) then pumpList t ((q.charge f).emit f)
    else pumpList t { q with waiting := q.waiting ++ [f] }

/-- Flits that wait for credits leave in order. -/
def Port.drain (q : Port) : Port := pumpList q.waiting { q with waiting := [] }

/-- Flits of a virtual channel wait for credits. -/
def Port.blocked (q : Port) (vc : Nat) : Bool := q.waiting.any (fun f => f.ftype == 1 && f.vc == vc)

/-- The forwarding queue that is served next, round-robin by ingress port, with its first transaction and the rest; a
virtual channel whose flits wait for credits is passed over (R308). -/
def Port.nextFwd (q : Port) : Option (Nat × Txn × List Txn) :=
  ((List.range 36).filterMap (fun i =>
    let k := 4 * ((q.fwdLast + 1 + i / 3) % 12) + i % 3
    match lookD [] k q.fwdq with
    | t :: rest => if q.blocked (i % 3) then none else some (k, t, rest)
    | [] => none)).head?

/-- The forwarding queues are served while the port is admitted and something of them can go (R308). -/
def Port.serve : Nat → Port → Port
  | 0, q => q
  | n + 1, q =>
    if q.state = .admitted then
      (match q.nextFwd with
       | some (k, t, rest) =>
         Port.serve n { q with
           fwdq := if rest.isEmpty then del k q.fwdq else put k rest q.fwdq, fwdLast := k / 4
           waiting := q.waiting ++ t.toFlits q.enc }.drain
       | none => q)
    else q

/-- Transactions in the forwarding queues. -/
def Port.fwdCount (q : Port) : Nat := q.fwdq.foldl (fun n e => n + e.2.length) 0

/-- What waits for credits leaves, then what the forwarding queues hold. -/
def Port.pump (q : Port) : Port := q.drain.serve q.fwdCount

/-- A transaction of another device joins the queue of its ingress port (R308). -/
def Port.enqueue (q : Port) (inPort : Nat) (t : Txn) : Port :=
  let k := 4 * inPort + txnVc t.ttype
  { q with fwdq := put k (lookD [] k q.fwdq ++ [t]) q.fwdq }.pump

/-- Queue a transaction's flits behind those that wait, and send what can go; before admission the transaction
waits whole (R307). -/
def Port.send (q : Port) (t : Txn) : Port :=
  if q.state = .admitted then ({ q with waiting := q.waiting ++ t.toFlits q.enc }).pump
  else { q with parked := q.parked ++ [t] }

/-- Send what waited for the admission. -/
def Port.unpark (q : Port) : Port := (q.parked.foldl (fun (x : Port) t => x.send t) { q with parked := [] }).pump

/-- A management flit: no credit, but behind 512 unacknowledged flits like any other (R300, R301). -/
def Port.sendMgmt (q : Port) (m : Mgmt) : Port :=
  let q := ({ q with waiting := q.waiting ++ [({ ftype := 3 } : TxFlit)] }).pump
  { q with mgmt := m :: q.mgmt }

/-- Transactions of which no flit has gone out. -/
def Port.unsent (q : Port) : List Txn := q.waiting.filterMap (·.txn)

/-- A port loses its link and its admission: flits on their way are lost; transactions not yet begun wait for the
next admission, as R307 has it (R298, R309). -/
def Port.goDown (q : Port) : Port :=
  { q with state := .down, width := 0, enc := false, rxSeq := 0, txSeq := 0, discarding := false
           replayAck := none, unacked := [], waiting := [], credits := [0, 0, 0], granted := [0, 0, 0]
           part := [], rxq := [], parked := q.unsent ++ q.parked, sent := [], sentEnc := false
           cipher := none, hello := none, keyTx := 0, keyRx := 0, salt := 0, countTx := 0, countRx := 0, limited := false }

/-! ### Paths and tags -/

/-- The forwarding entry of a device (R307; log 8). -/
def State.fwdEntry (s : State) (dst : Nat) : Nat := (lookD 0 dst s.dev.fwd).toNat

/-- A port that can carry Jexlet traffic once it is admitted. -/
def State.jexlet (s : State) (p : Nat) : Bool := decide (p < 12) && decide ((s.port p).state ≠ .host)

/-- The port by which a transaction leaves, or waits for its admission (R307). -/
def State.egress (s : State) (dst : Nat) (altOk : Bool) : Option Nat :=
  let e := s.fwdEntry dst
  let prim := e % 16
  let alt := e / 16
  if s.admitted prim then some prim
  else if altOk && s.admitted alt then some alt
  else if s.jexlet prim then some prim
  else none

/-- Lowest free tag of a port (R304). -/
def Port.freeTag (q : Port) : Option Nat := lowestFree (q.tags.map (·.tag)) 0 4096

/-- Send a request with a tag of the port, or let it wait for one (R304). -/
def Port.request (q : Port) (now : W64) (t : Txn) (u : TagUse) : Port :=
  match q.freeTag with
  | some g => ({ q with tags := q.tags ++ [Tag.mk g u now] }).send { t with tag := g }
  | none => { q with tagWait := q.tagWait ++ [(t, u)] }

/-- Requests that waited for a tag take the tags that are free. -/
def tagPump (now : W64) : List (Txn × TagUse) → Port → Port
  | [], q => q
  | (t, u) :: rest, q => tagPump now rest (q.request now t u)

/-- Transactions that wait for a tag leave in order. -/
def Port.retag (q : Port) (now : W64) : Port := tagPump now q.tagWait { q with tagWait := [] }

/-- An empty transaction of a type from this device. -/
def State.txn (s : State) (ttype dst job : Nat) : Txn :=
  { ttype := ttype, tag := 0, src := s.deviceId, dst := dst, job := job, len := 0, status := 0, altOk := false
    attempt := 0, space := 0, stepLo := 0, addr := 0, contrib := 0, poison := 0, data := [] }

/-- The path of a request of this device: without an identity record, to its teller alone (R326). -/
def State.ownEgress (s : State) (dst : Nat) (altOk : Bool) : Option Nat :=
  if (look 2 s.su.cfg).isSome || decide (s.fab.claim.map (·.toNat) = some dst) then s.egress dst altOk else none

/-- A request leaves by its alternate port (R307), or finds no free tag (R304): lock breaks of Table 12-10. -/
def State.straying (s : State) (t : Txn) : Bool :=
  match s.ownEgress t.dst t.altOk with
  | some p => decide (s.fwdEntry t.dst % 16 ≠ p) || (s.port p).freeTag.isNone
  | none => false

/-- Send one request of this device on its path, and say whether a port took it. -/
def State.trySend (s : State) (t : Txn) (u : TagUse) : State × Bool :=
  match s.ownEgress t.dst t.altOk with
  | some p => (s.setPort p ((s.port p).request s.time t u), true)
  | none => (s, false)

/-- Send one request; with no usable port it stays undone, to be resent by its owner (R307). -/
def State.sendReq (s : State) (t : Txn) (u : TagUse) : State := (s.trySend t u).1

/-- Answer a request with its one CPL (R303): by the path to the requester while its port is admitted, else by
the port that the request came on (log 16). -/
def State.complete (s : State) (inPort : Nat) (req : Txn) (status : Nat) (poison : Nat) (data : List Byte) : State :=
  let c := { s.txn 5 req.src req.job with
    tag := req.tag, status := status, len := data.length / 16, poison := poison, data := data
    contrib := req.contrib, stepLo := req.stepLo, attempt := req.attempt }
  let p := match s.egress req.src false with
    | some p => if s.admitted p then p else inPort
    | none => inPort
  s.setPort p ((s.port p).send c)

end Sys2Proof.Machine
end

