-- ==== Sys2Proof/Machine/Ops.lean ====
section
/-! DEFINITION. The named operations over the device: pages, units, events and the error ledger, interrupts
and alerts, caps and beat rates, monitors (R11, R36, R330, R351 to R355, R397, R446, R451 to R455, R471). -/

namespace Sys2Proof.Machine

/-! ### Parts by number -/

def State.page (s : State) (n : Nat) : Page := lookD Page.reset n s.pages
def State.setPage (s : State) (n : Nat) (p : Page) : State := { s with pages := put n p s.pages }
def State.region (s : State) (r : Nat) : Region := lookD Region.reset r s.regions
def State.setRegion (s : State) (r : Nat) (x : Region) : State := { s with regions := put r x s.regions }
def State.fabric (s : State) (b : Nat) : FabDomain := lookD FabDomain.reset b s.fabrics
def State.core (s : State) (p : Nat) : CoreHw := lookD CoreHw.reset p s.cores
def State.setCore (s : State) (p : Nat) (c : CoreHw) : State := { s with cores := put p c s.cores }
def State.chan (s : State) (c : Nat) : Chan := lookD Chan.reset c s.chans
def State.setChan (s : State) (c : Nat) (x : Chan) : State := { s with chans := put c x s.chans }
def State.die (s : State) (b : Nat) : BaseDie := lookD BaseDie.reset b s.dies
def State.setDie (s : State) (b : Nat) (x : BaseDie) : State := { s with dies := put b x s.dies }
def State.ring (s : State) (n : Nat) : Option Ring := look n s.rings
def State.setRing (s : State) (n : Nat) (r : Ring) : State := { s with rings := put n r s.rings }

/-! ### Units (Table 11-2, Table 16-1) -/

/-- One number for a unit: UTYPE × 4,096 + PUNIT. -/
def unitKey (utype punit : Nat) : Nat := utype * 4096 + punit

/-- Fenced, withdrawn or retired, at manufacture or in service. -/
def State.isFenced (s : State) (utype punit : Nat) : Bool :=
  let k := unitKey utype punit
  s.units.fenced.contains k || (decide (utype = 1) && s.units.made.contains punit)
    || (decide (utype = 1) && s.units.fenced.contains (unitKey 2 (punit / 18)))

def State.isDegraded (s : State) (utype punit : Nat) : Bool := s.units.degraded.contains (unitKey utype punit)

/-- A core under assay (R383). -/
def State.underAssay (s : State) (p : Nat) : Bool := (s.core p).assay

/-- A core counts as healthy for R23, R24 and R366. -/
def State.coreHealthy (s : State) (p : Nat) : Bool := !s.isFenced 1 p && !s.underAssay p

/-- Base die that an edge's bridge counts for: the lower-numbered of the two it joins (R453). -/
def edgeDie (e : Nat) : Nat := match e with | 0 => 0 | 1 => 2 | 2 => 0 | _ => 1

/-- The page that counts a unit's events (R453). -/
def unitPage (utype punit : Nat) : Nat :=
  match utype with
  | 1 => 0x800 + punit
  | 2 => 0x80 + punit
  | 3 => 0x40 + punit / 32
  | 4 => if punit < 256 then 0x40 + punit / 64 else 0x40 + edgeDie (punit - 256)
  | 5 => 0x400 + punit
  | 6 => 0x40 + punit / 4
  | 7 => 0x10 + punit
  | 8 => 2
  | _ => 0

/-- Timing domain of a unit (Table 1-4); device events carry the bursar's (log 21). An edge bridge joins two base-die
fabrics, and Table 1-4 lists no edge: its record carries the lower-numbered die's (DESIGN CHOICE, R28; log 21). -/
def unitDomain (utype punit : Nat) : Nat :=
  match utype with
  | 1 => punit / 18
  | 2 => punit
  | 3 => 32 + punit / 32
  | 4 => if punit < 256 then 32 + punit / 64 else 32 + edgeDie (punit - 256)
  | 5 => 36 + punit / 64
  | 6 => 32 + punit / 4
  | 7 => 52 + punit / 2
  | _ => 58

/-- Beat count of a domain, 0 for a clocked one (Table 11-9). -/
def State.domainBeats (s : State) (d : Nat) : W64 :=
  if d < 32 then (s.region d).beats else if d < 36 then (s.fabric (d - 32)).beats else 0

/-- TEMP of an error record: the unit's region or base die (Table 11-9). -/
def State.unitTemp (s : State) (utype punit : Nat) : BitVec 16 :=
  let d := unitDomain utype punit
  if d < 32 then (s.region d).temp
  else if d < 36 then lookD 0 (d - 32) s.mod.baseTemp
  else if d < 52 then lookD 0 ((d - 36) / 4) s.mod.baseTemp
  else if d < 58 then lookD 0 (if utype = 7 then punit / 3 else 0) s.mod.baseTemp
  else lookD 0 0 s.mod.baseTemp

/-- VOLT of an error record: the rail that feeds the unit (Table 15-7). -/
def State.unitVolt (s : State) (utype punit : Nat) : Nat :=
  let d := unitDomain utype punit
  if d < 32 then (s.region d).volt
  else if d < 36 then 750
  else if d < 52 then 400
  else if d < 58 then 750
  else 800

/-- Class of an event code (Table 16-4). -/
def evtClass (code : Nat) : Nat :=
  if code ≤ 0x05 ∨ code = 0x1F then 0
  else if code = 0x09 ∨ code = 0x0A ∨ code = 0x0B then 1
  else if code = 0x06 ∨ code = 0x07 ∨ code = 0x08 ∨ code = 0x10 ∨ code = 0x1E then 2
  else if 0x0C ≤ code ∧ code ≤ 0x0F then 3
  else if code = 0x11 ∨ code = 0x12 then 4
  else if 0x13 ≤ code ∧ code ≤ 0x1C then 5
  else if code = 0x1D then 6
  else if (0x20 ≤ code ∧ code ≤ 0x23) ∨ code = 0x27 then 7
  else if 0x24 ≤ code ∧ code ≤ 0x26 then 8
  else if 0x28 ≤ code ∧ code ≤ 0x2E then 9
  else if 0x30 ≤ code ∧ code ≤ 0x34 then 10
  else 11

/-- The class of a code, none for a code that Table 16-4 does not name. -/
def classOf (code : Nat) : Option Nat :=
  if code = 0 ∨ code = 0x2F ∨ 0x3A ≤ code then none else some (evtClass code)

/-! ### Interrupts (R330) -/

/-- The teller of this device: itself, or the holder of its claim (R326). -/
def State.tellerId (s : State) : Option Nat := s.fab.claim.map (·.toNat)

/-- Raise an MSI-X vector: a teller sends the message or sets the pending bit, as it does in D3hot (PRESUMED; log 4); a
member sends an INT (R330). -/
def State.interrupt (s : State) (v : BitVec 11) : State :=
  if s.su.teller then
    let e := lookD MsixEnt.reset v.toNat s.tel.msix
    if e.ctl.getLsbD 0 || s.tel.pcie.d3hot then { s with tel := { s.tel with pend := insertNat v.toNat s.tel.pend } }
    else { s with out := { s.out with msix := ⟨v, e.addr, e.data⟩ :: s.out.msix } }
  else match s.tellerId with
    | some t => s.sendReq { s.txn 0xA t 0 with addr := v.toNat } .int
    | none => s

/-- Type of an assigned page, 0 for an unassigned one (Table 16-1). -/
def State.pageType (s : State) (n : Nat) : Nat :=
  if n ≤ 5 then n + 1
  else if n = 6 then (if s.su.teller then 7 else 0)
  else if 0x10 ≤ n ∧ n ≤ 0x1B then 8
  else if 0x40 ≤ n ∧ n ≤ 0x43 then 9
  else if 0x80 ≤ n ∧ n ≤ 0x9F then 0xA
  else if 0x400 ≤ n ∧ n ≤ 0x7FF then 0xC
  else if 0x800 ≤ n ∧ n ≤ 0xA3F then 0xB
  else 0

/-- DEV_EVT_SUMMARY (R454). -/
def State.evtSummary (s : State) : W32 :=
  BitVec.ofNat 32 (s.pages.foldl (fun acc e =>
    if e.2.evtStatus &&& e.2.evtEnable = 0 ∨ s.pageType e.1 = 0 then acc
    else acc ||| 2 ^ s.pageType e.1) 0)

/-- A change of the summary from zero to nonzero sends its vector while EN is 1 (R454). -/
def State.evtEdge (s : State) : State :=
  let m := s.evtSummary
  let s' := { s with dev := { s.dev with summaryPrev := m } }
  if s.dev.summaryPrev = 0 ∧ m ≠ 0 ∧ s.dev.evtIrq.getLsbD 31 then s'.interrupt (s.dev.evtIrq.setWidth 11) else s'

/-- A page's event status, and its count, which saturates (R451, R453). -/
def State.markPage (s : State) (n cls count : Nat) : State :=
  let p := s.page n
  let s := s.setPage n { p with
    evtStatus := p.evtStatus ||| BitVec.ofNat 32 (2 ^ cls)
    evtCount := BitVec.ofNat 32 (satAdd p.evtCount.toNat count (2 ^ 32 - 1)) }
  s.evtEdge

/-- An event of no class that Table 16-4 names is counted in its page (R451, R453). -/
def State.countPage (s : State) (n count : Nat) : State :=
  s.setPage n { s.page n with evtCount := BitVec.ofNat 32 (satAdd (s.page n).evtCount.toNat count (2 ^ 32 - 1)) }

/-! ### The error ledger (R351 to R355, R471) -/

/-- An event, as its record states it (Table 11-9). -/
structure Evt where
  code : Nat
  info : Bool := false
  job : Nat := 0
  step : Nat := 0
  utype : Nat := 0
  punit : Nat := 0
  lcore : Nat := 0x3FF
  shard : Nat := 0
  run : Nat := 7
  action : Nat := 0
  verdict : Nat := 0
  opindex : Nat := 0xFFFFFF
  opcode : Nat := 0
  w6 : Nat := 0
  w7 : Nat := 0
deriving DecidableEq, Repr

/-- The record of an event, with SEQ 0 and OVERWROTE 0 (Table 11-9). -/
def State.record (s : State) (e : Evt) : List W64 :=
  let d := unitDomain e.utype e.punit
  [ BitVec.ofNat 64 (e.code * 2 ^ 56 + b2n e.info * 2 ^ 54 + e.job % 65536 * 2 ^ 32)
  , s.time
  , BitVec.ofNat 64 e.step
  , s.domainBeats d
  , BitVec.ofNat 64 (d * 2 ^ 58 + e.utype * 2 ^ 52 + e.punit * 2 ^ 40 + e.lcore % 1024 * 2 ^ 30
      + e.shard % 65536 * 2 ^ 14 + e.run % 8 * 2 ^ 11 + e.action % 16 * 2 ^ 7 + e.verdict % 16 * 2 ^ 3)
  , BitVec.ofNat 64 (e.opindex % 2 ^ 24 * 2 ^ 40 + e.opcode % 256 * 2 ^ 32
      + (s.unitTemp e.utype e.punit).toNat * 2 ^ 16 + s.unitVolt e.utype e.punit % 65536)
  , BitVec.ofNat 64 e.w6
  , BitVec.ofNat 64 e.w7 ]

/-- Write an entry's first word with its SEQ. -/
def withSeq (ws : List W64) (seq : W32) : List W64 :=
  match ws with
  | w :: t => BitVec.ofNat 64 (w.toNat / 2 ^ 32 * 2 ^ 32 + seq.toNat) :: t
  | [] => []

/-- Write a record into ring 2, over the oldest one when 65,536 are unread, with its interrupt (R351). -/
def State.ledger (s : State) (ws : List W64) : State :=
  match s.ring 2 with
  | none =>
    if s.su.held.length < 1024 then { s with su := { s.su with held := s.su.held ++ [ws] } }
    else { s with
      su := { s.su with held := s.su.held.drop 1 ++ [ws] }
      ldg := { s.ldg with errLost := s.ldg.errLost + 1 } }
  | some r =>
    let full := decide ((r.tail - r.head).toNat = 65536)
    let ws := withSeq ws r.tail
    let ws := if full then
        (match ws with
         | w :: t => (w ||| BitVec.ofNat 64 (2 ^ 55)) :: t
         | [] => [])
      else ws
    let r' := { r with
      entries := put (r.tail.toNat % 65536) ws r.entries
      tail := r.tail + 1
      head := if full then r.head + 1 else r.head }
    let s := s.setRing 2 r'
    let s := if full then { s with ldg := { s.ldg with errLost := s.ldg.errLost + 1 } } else s
    if s.ldg.errIrq.getLsbD 31 then s.interrupt (s.ldg.errIrq.setWidth 11) else s

/-- SEQ that the next record of the error ledger takes. -/
def State.errSeq (s : State) : Nat :=
  match s.ring 2 with
  | some r => r.tail.toNat
  | none => s.su.held.length

def State.summaryOf (s : State) (k : Nat) : Summary := lookD Summary.healthy k s.units.summary
def State.setSummary (s : State) (k : Nat) (e : Summary) : State :=
  { s with units := { s.units with summary := put k e s.units.summary } }

/-- START_COUNT of the present start-up: the summary header's once its queued update is applied (R356, R419). -/
def State.startNo (s : State) : W32 :=
  s.flash.queue.foldl (fun n w => match w with
    | .start m => m
    | _ => n) s.flash.startCount

/-- LAST_EVENT, LAST_START and LAST_TIME of the unit of a record (Table 11-12). -/
def State.noteUnit (s : State) (e : Evt) : State :=
  if e.utype = 0 then s
  else
    let k := unitKey e.utype e.punit
    s.setSummary k { s.summaryOf k with
      lastEvent := e.code, lastStart := s.startNo, lastTime := s.time }

/-- Raise an event: its record, its unit's summary, and its page's status and count (R352, R353, R453). -/
def State.raise (s : State) (e : Evt) : State :=
  let s := (s.ledger (s.record e)).noteUnit e
  s.markPage (unitPage e.utype e.punit) (evtClass e.code) 1

/-- An event of a code that the unit has already recorded in the run: counted, not written (R352). -/
def State.raiseQuiet (s : State) (e : Evt) : State :=
  s.markPage (unitPage e.utype e.punit) (evtClass e.code) 1

/-- The interrupt that another rule raises on the error ring (R323, R351). -/
def State.errInterrupt (s : State) : State :=
  if s.ldg.errIrq.getLsbD 31 then s.interrupt (s.ldg.errIrq.setWidth 11) else s

/-! ### Caps and beat rates (R36, R37) -/

/-- A run between orders 2 and 5 of Table 8-12, or one that waits for its recount. -/
def Run.executes (r : Run) : Bool := decide (r.order < 6) || r.waiting

/-- TIMING_LOCK as it is in effect now: for the step that runs, the value it was selected with (R362, R365). -/
def State.lockNow (s : State) : Bool :=
  match s.runs.find? Run.executes with
  | some r => r.timingLock
  | none => s.dev.timingLock

/-- Caps on a region in force, each with its BINDING code (Table 1-8, Table 16-16). -/
def State.caps (s : State) (r : Nat) : List (Nat × Nat) :=
  let x := s.region r
  [(1, s.mod.powerCap), (2, x.thermalCap)]
    ++ (if s.mod.sagCap then [(3, 1000)] else [])
    ++ (if x.target < x.t0 then [(4, x.target)] else [])
    ++ (if s.lockNow then [(5, 1250)] else [])

/-- The lowest cap, with the lower BINDING code among equals. -/
def State.cap (s : State) (r : Nat) : Nat × Nat :=
  ((s.caps r).foldl (fun m c => match m with
    | none => some c
    | some b => if c.2 < b.2 then some c else some b) none).getD (0, 0)

/-- BINDING and the pacer cap as REG_CAP shows them: 0 where the region runs below every cap. -/
def State.regCap (s : State) (r : Nat) : Nat × Nat :=
  let c := s.cap r
  if (s.region r).freeRate < c.2 then (0, c.2) else c

/-- Beats per µs of a region: its free-running rate held at the cap (R26). -/
def State.regionRate (s : State) (r : Nat) : Nat := min (s.region r).freeRate (s.cap r).2

/-- Beats per µs of a base-die fabric (Table 1-8). -/
def State.fabricRate (s : State) (b : Nat) : Nat :=
  let f := (s.fabric b).freeRate
  let f := if s.mod.sagCap then min f 1000 else f
  if s.lockNow then min f 1250 else f

/-- A cap below the timing-lock pin is in effect (R37). -/
def State.belowPin (s : State) : Bool :=
  s.lockNow && (s.mod.sagCap || decide (s.mod.powerCap < 1250)
    || (List.range 32).any (fun r =>
      let x := s.region r
      decide (x.thermalCap < 1250) || (decide (x.target < x.t0) && decide (x.target < 1250))))

/-- An information event for which the spec gives no code: its code is a free value (log 26), and it is counted in
page 0, in the class given or in its code's (R453). -/
def State.infoEvent (s : State) (job step : Nat) (cls : Option Nat) : State :=
  let code := Config.freeNat (s.freeCtr * 16384) % 256
  let s := { s with freeCtr := s.freeCtr + 1 }.ledger (s.record { code := code, info := true, job := job, step := step })
  match cls with
  | some c => s.markPage 0 c 1
  | none => match classOf code with
    | some c => s.markPage 0 c 1
    | none => s.countPage 0 1

def breakRun (p : Run → Bool) (r : Run) : Run := if r.timingLock && p r then { r with lockBroken := true } else r

/-- A lock break in the steps that `p` selects and that run under TIMING_LOCK: the first of a step is
counted and reported (R368). -/
def State.lockBreakIf (s : State) (p : Run → Bool) : State :=
  let fresh := s.runs.filter (fun r => r.timingLock && !r.lockBroken && p r)
  let s := { s with
    runs := s.runs.map (breakRun p)
    dev := { s.dev with
      lockBroken := BitVec.ofNat 16 (satAdd s.dev.lockBroken.toNat fresh.length 65535) } }
  fresh.foldl (fun s r => s.infoEvent r.job r.step.toNat (some 13)) s

/-- A lock break of the whole device. -/
def State.lockBreak (s : State) : State := s.lockBreakIf (fun _ => true)

/-- A lock break of one job's step. -/
def State.lockBreakJob (s : State) (job : Nat) : State := s.lockBreakIf (fun r => r.job == job)

/-- The governor's record of a cap below the pin: counted once as it begins, and a lock break (R37, R368). The spec
does not say whether each cap or domain that falls below the pin is a record of its own: one counts for the whole device,
and none while another cap is below already (DESIGN CHOICE; log 52). -/
def State.governor (s : State) : State :=
  let b := s.belowPin
  let s' := { s with mod := { s.mod with capBelowPin := b } }
  if b && !s.mod.capBelowPin then
    ({ s' with mod := { s'.mod with
      undercut := BitVec.ofNat 16 (satAdd s.mod.undercut.toNat 1 65535) } }).lockBreak
  else s'

/-! ### The alert cause and ALERT_N (R446) -/

/-- A region is at its alert limit. -/
def State.regionAlert (s : State) : Bool := s.regions.any (fun x => x.2.tAlert)

/-- The alert cause word (R446). -/
def State.alertCause (s : State) : W32 :=
  BitVec.ofNat 32 (b2n (s.mod.quiesced || s.mod.overVolt) + 2 * b2n s.mod.flashGate + 4 * b2n s.mod.sagCap
    + 8 * b2n s.regionAlert + 16 * b2n (!s.mod.baseAlert.isEmpty) + 32 * b2n (!s.mod.hbmAlert.isEmpty)
    + 64 * b2n s.mod.coolAlert + 128 * b2n s.mod.powerOver + 256 * b2n s.mod.railFault
    + 512 * b2n s.su.halted + 1024 * b2n s.mod.overVolt)

/-- ALERT_N is asserted while bit 0 or a bit from 3 to 10 is set. -/
def State.alert (s : State) : Bool := decide ((s.alertCause &&& 0x7F9) ≠ 0)

/-- Mandatory data byte of an in-band interrupt (R444). -/
def ibiByte : Byte := 0xA1

/-- Each assertion of ALERT_N sends one in-band interrupt with its data byte while they are enabled (R444). -/
def State.alertEdge (s : State) : State :=
  let a := s.alert
  let s' := { s with mod := { s.mod with alertPrev := a } }
  if a && !s.mod.alertPrev && s.i3c.ibiEn then { s' with out := { s'.out with ibi := s'.out.ibi ++ [ibiByte] } } else s'

/-- Held for a sag or an overvoltage (R428, R431). -/
def State.held (s : State) : Bool := s.mod.quiesced || s.mod.overVolt

/-- Start-up is complete and the device has not halted. -/
def State.ready (s : State) : Bool := decide (s.su.phase = 8) && !s.su.halted

/-! ### Monitors (R397 to R399) -/

/-- The bin of a sample (R398). -/
def monBin (base : Int) (v : Int) : Nat :=
  countIf (fun b : Nat =>
    let e := base + (b : Int)
    if 0 ≤ e then decide ((2 : Int) ^ e.toNat ≤ v) else decide (1 ≤ v * (2 : Int) ^ (-e).toNat))
    ((List.range 15).map (· + 1))

/-- Fold one sample into a window that runs and selects the quantity (R398). -/
def Mon.sample (m : Mon) (quantity : Nat) (v : Int) : Mon :=
  if !m.run || m.quantity.toNat != quantity then m
  else
    let v := max (-(2 ^ 31 : Int)) (min v (2 ^ 31 - 1))
    let b := monBin m.base.toInt v
    { m with cap :=
      { min := if m.cap.count = 0 then v else min m.cap.min v
        max := if m.cap.count = 0 then v else max m.cap.max v
        count := (m.cap.count + 1) % 2 ^ 64
        bins := setNth m.cap.bins b (min (nthD 0 m.cap.bins b + 1) (2 ^ 32 - 1)) } }

/-- CLEAR: the capture and the snapshot are emptied (R398). -/
def Mon.clear (m : Mon) : Mon := { m with cap := MonCap.zero, snap := none, kept := none }

/-- A sample of a page's quantity (R399). -/
def State.sample (s : State) (page quantity : Nat) (v : Int) : State :=
  let p := s.page page
  s.setPage page { p with mon := p.mon.sample quantity v }

/-- Quantities that a page type's monitor window offers (Table 13-13). -/
def monQuantities (type : Nat) : Nat :=
  match type with
  | 1 => 3
  | 2 => 2
  | 3 => 1
  | 8 => 3
  | 0xA => 4
  | 0xB => 2
  | 0xC => 3
  | _ => 0

/-! ### The timing class (R366) -/

/-- Healthy cores of a region. -/
def State.healthyIn (s : State) (r : Nat) : List Nat :=
  ((List.range 18).map (fun i => 18 * r + i)).filter (fun p => s.coreHealthy p)

/-- CLASS: bits [31:0] of the sum of H over the class members (R366). -/
def State.timingClass (s : State) : W32 :=
  let mem (k bits : Nat) : W128 := hallmarkH (2 ^ 16 * (k / 4096) + k % 4096) bits
  let regions := (List.range 32).foldl (fun a r =>
    if (s.healthyIn r).length < 16 then a + mem (unitKey 2 r) 0 else a) (0 : W128)
  let out := s.units.fenced.foldl (fun a k =>
    if k / 4096 = 5 ∨ k / 4096 = 3 ∨ k / 4096 = 6 then a + mem k 0 else a) (0 : W128)
  let ports := (List.range 12).foldl (fun a p =>
    if (s.port p).state = .host then a else a + mem (unitKey 7 p) (if s.admitted p then (s.port p).width else 0)) (0 : W128)
  (regions + out + ports).setWidth 32

/-- CLASS_CHANGED latches a change of CLASS (Table 12-8). -/
def State.classEdge (s : State) : State :=
  let c := s.timingClass
  if c = s.dev.classSeen then s else { s with dev := { s.dev with classChanged := true, classSeen := c } }

/-- The next command's effects that depend on edges: governor, ALERT_N and the event summary. -/
def State.settle (s : State) : State := s.governor.alertEdge.evtEdge

end Sys2Proof.Machine
end

