-- ==== Sys2Proof/Machine/Units.lean ====
section
/-! DEFINITION. Hosting of logical cores, fences and permanent actions, the flash queue and the per-unit
summary (R18, R22 to R25, R262, R263, R338, R339, R345, R356, R395, R418, R419). -/

namespace Sys2Proof.Machine

/-! ### Hosting (R23, R24) -/

/-- A logical core without a host. -/
def noHost : Nat := 0xFFFF

/-- Logical cores that a physical core hosts. -/
def hostedBy (m : List Nat) (p : Nat) : Nat := countIf (fun h => h == p) m
/-- Logical cores that a region's cores host. -/
def regionLoad (m : List Nat) (r : Nat) : Nat := countIf (fun h => h / 18 == r) m

/-- The regions of the three sets of R24's third rule: compute die, base die, all. -/
def regionSets (r : Nat) : List (List Nat) :=
  [ (List.range 4).map (fun i => r / 4 * 4 + i), (List.range 8).map (fun i => r / 8 * 8 + i), List.range 32 ]

/-- R24's third rule: the core of another region that takes a logical core, in the first set that has one. -/
def placeFar (healthy : Nat → List Nat) (m : List Nat) : List (List Nat) → Option Nat
  | [] => none
  | set :: rest =>
    let ok := set.filter (fun r => (healthy r).any (fun p => decide (0 < hostedBy m p)))
    match minBy (fun r => regionLoad m r) ok with
    | some r => minBy (fun p => hostedBy m p) ((healthy r).filter (fun p => decide (0 < hostedBy m p)))
    | none => placeFar healthy m rest

/-- The host that R24 gives a logical core on a map of the others. -/
def place (healthy : Nat → List Nat) (m : List Nat) (l : Nat) : Nat :=
  let h := healthy (l / 16)
  match h.find? (fun p => hostedBy m p == 0) with
  | some p => p
  | none =>
    match minBy (fun p => hostedBy m p) h with
    | some p => p
    | none => (placeFar healthy m (regionSets (l / 16))).getD noHost

/-- Place logical cores one at a time, each counting those before it. -/
def placeAll (healthy : Nat → List Nat) : List Nat → List Nat → List Nat
  | [], m => m
  | l :: t, m => placeAll healthy t (setNth m l (place healthy m l))

/-- R23's map of a health state: first every region with a healthy core, then the others. -/
def mapR23 (healthy : Nat → List Nat) : List Nat :=
  let m := (List.range 512).map (fun l => ((healthy (l / 16))[l % 16]?).getD noHost)
  let rest := (List.range 512).filter (fun l => nthD 0 m l == noHost)
  let near := rest.filter (fun l => !(healthy (l / 16)).isEmpty)
  let far := rest.filter (fun l => (healthy (l / 16)).isEmpty)
  placeAll healthy (near ++ far) m

/-- Logical cores that a physical core hosts, in ascending order. -/
def hostsOf (m : List Nat) (p : Nat) : List Nat := (List.range m.length).filter (fun l => nthD noHost m l == p)

/-- A core that hosts work beside `p`, whose die banks a core that takes work must match (R194). -/
def State.bankPeer (s : State) (p : Nat) : Option Nat :=
  s.lmap.find? (fun q => q != p && decide (q < 576) && s.coreHealthy q)

/-- Write a core's die banks to match the others' (R194). -/
def State.matchBanks (s : State) (p : Nat) : State :=
  match s.bankPeer p with
  | some q =>
    let c := s.core q
    s.setCore p { s.core p with
      active := c.active, pending := c.pending, scheduled := c.scheduled, bank0 := c.bank0, bank1 := c.bank1 }
  | none => s

/-- A spare that takes work while a reload is pending gets both banks of the others first (R194). -/
def State.readyBanks (s : State) (p : Nat) : State :=
  match s.bankPeer p with
  | some q => if (s.core q).pending then s.matchBanks p else s
  | none => s

/-- Move a list of logical cores off their hosts by R24, on the present health. -/
def State.rehost (s : State) (ls : List Nat) : State :=
  let m := ls.foldl (fun m l => setNth m l noHost) s.lmap
  let n := placeAll s.healthyIn ls m
  let new := (ls.map (fun l => nthD noHost n l)).filter (fun p => hostedBy s.lmap p == 0 && decide (p < 576))
  { new.foldl (fun s p => s.readyBanks p) s with lmap := n }

/-! ### Arrears (R389) -/

/-- Age of a time in µs. -/
def State.age (s : State) (t : W64) : Nat := (s.time - t).toNat / 1000

/-- Arrears of a background user in µs, 0 with no pending item: of the oldest posted page not yet written back, of a
re-plan that is due, or of the item that the user was last said to have (log 34). -/
def State.arrears (s : State) (user : Nat) : Nat :=
  match user with
  | 0 => s.wback.foldl (fun a w => max a (s.age w.time)) 0
  | 5 => s.age s.asy.agedAt - 3600000000
  | _ => match look user s.asy.items with
    | some t => s.age t
    | none => 0

/-- A user's oldest pending item is of an age in µs; of age 0 it has none. -/
def State.noteItem (s : State) (user age : Nat) : State :=
  if user = 0 ∨ user = 5 then s
  else
    let l := if age = 0 then del user s.asy.items else put user (s.time - BitVec.ofNat 64 (1000 * age)) s.asy.items
    { s with asy := { s.asy with items := l } }

/-! ### Flash writes under the gate (R395, R418, R419) -/

/-- Offsets and sizes of the areas of the flash, in the order of Table 14-8, and the bytes of an erase sector (R414). -/
def flashAreas : List (Nat × Nat) :=
  [ (0, 0x20000), (0x20000, 0xE0000), (0x100000, 0x100000), (0x200000, 0x400000), (0x600000, 0x200000)
  , (0x800000, 0x1800000), (0x2000000, 0x1800000), (0x3800000, 0x1000000), (0x4800000, 0x800000)
  , (0x5000000, 0x400000), (0x5400000, 0x2C00000) ]
def areaSize (k : Nat) : Nat := (nthD (0, 0) flashAreas k).2
def sectorBytes : Nat := 0x10000

/-- Entries of the ageing ring, and of one of its sectors; records of a copy of the security-version chain; bytes of an
image slot (R394, R413, R414). -/
def ageRing : Nat := areaSize 8 / 32
def ageSector : Nat := sectorBytes / 32
def chainRoom : Nat := areaSize 2 / 2 / 3584
def imageRoom : Nat := areaSize 5

/-- Bytes of a queued write (R419, log 23). -/
def FlashWrite.bytes : FlashWrite → Nat
  | .boot _ => 64
  | .summary _ _ => 32
  | .ageing es => 32 * es.length
  | .chain _ => 3584
  | .start _ => 4
  | .config _ _ n => n

/-- PWR_FQUEUE (R459). -/
def Flash.queued (f : Flash) : Nat := f.queue.foldl (fun n w => n + w.bytes) 0

/-- The valid copy of the boot control block with the higher SEQ, none where neither is valid; and whether it is copy 1
(R415). -/
def Flash.bootCopy (f : Flash) : Option (Boot × Bool) :=
  if f.boot0.crcOk && (!f.boot1.crcOk || decide (f.boot1.boot.seq ≤ f.boot0.boot.seq)) then some (f.boot0.boot, false)
  else if f.boot1.crcOk then some (f.boot1.boot, true)
  else none

/-- The boot control block. -/
def Flash.boot (f : Flash) : Boot := match f.bootCopy with | some x => x.1 | none => f.boot0.boot

/-- An update of the boot control block writes the copy with the older SEQ: the one that is not read (R415). -/
def Flash.setBoot (f : Flash) (b : Boot) : Flash :=
  match f.bootCopy with
  | some (_, true) => { f with boot0 := ⟨b, true⟩ }
  | some (_, false) => { f with boot1 := ⟨b, true⟩ }
  | none => { f with boot0 := ⟨b, true⟩ }

/-- The longest prefix after a record in which every record verifies, links and raises the SVN (R413). -/
def chainAfter (p : SvRec) : List SvRec → List SvRec
  | [] => []
  | r :: t => if r.verifies && decide (r.prev = p.digest) && decide (p.svn < r.svn) then r :: chainAfter r t else []

/-- The prefix of a copy: its first record has PREV 0 or is a compaction record (R413). -/
def ChainCopy.good (c : ChainCopy) : List SvRec :=
  match c.recs with
  | [] => []
  | r :: t => if r.verifies && (decide (r.prev = 0) || c.compacted) then r :: chainAfter r t else []

/-- A copy in which every record verifies and links. -/
def ChainCopy.whole (c : ChainCopy) : Bool := decide (c.good.length = c.recs.length)

/-- SVN of a prefix's last record, 0 for none. -/
def lastSvn (l : List SvRec) : Nat := match l.getLast? with | some r => r.svn | none => 0

/-- The chain: the prefix of the copy whose head is higher, copy 0's of equals. -/
def Flash.chain (f : Flash) : List SvRec :=
  if lastSvn f.chain0.good < lastSvn f.chain1.good then f.chain1.good else f.chain0.good

/-- A copy that is torn or fails to verify is rewritten from the other (R413). -/
def Flash.mend (f : Flash) : Flash :=
  if lastSvn f.chain0.good < lastSvn f.chain1.good then (if f.chain1.whole then { f with chain0 := f.chain1 } else f)
  else if f.chain0.whole then { f with chain1 := f.chain0 }
  else if f.chain1.whole && decide (lastSvn f.chain0.good = lastSvn f.chain1.good) then { f with chain0 := f.chain1 }
  else f

/-- The head of the security-version chain: SVN 0 and digest 0 while it is empty (R413). -/
def Flash.head (f : Flash) : SvRec := (f.chain.getLast?).getD ⟨0, 0, 0, true⟩

/-- Compaction: both copies are rewritten with the present head, which verifies, as their only record (R413). -/
def Flash.compact (f : Flash) : Flash :=
  match f.chain.getLast? with
  | some h => { f with chain0 := ⟨[h], true⟩, chain1 := ⟨[h], true⟩ }
  | none => { f with chain0 := ⟨[], false⟩, chain1 := ⟨[], false⟩ }

/-- Append a record to both copies, after compaction where one is full (R413). -/
def Flash.append (f : Flash) (r : SvRec) : Flash :=
  let f := f.mend
  let f := if chainRoom ≤ f.chain0.recs.length ∨ chainRoom ≤ f.chain1.recs.length then f.compact else f
  { f with
    chain0 := { f.chain0 with recs := f.chain0.recs ++ [r] }
    chain1 := { f.chain1 with recs := f.chain1.recs ++ [r] } }

/-- An ageing entry: where the ring wraps into a sector, the sector is erased first (R394, R414). -/
def ageWrite (age : List (Nat × W256)) (e : Nat × W256) : List (Nat × W256) :=
  put e.1 e.2 (age.filter (fun x => decide (e.1 / ageSector < x.1 / ageSector + ageRing / ageSector)))

/-- Put a write into flash. -/
def Flash.apply (f : Flash) : FlashWrite → Flash
  | .boot b => f.setBoot b
  | .summary k e => { f with summary := put k e f.summary }
  | .ageing es => { f with age := es.foldl ageWrite f.age }
  | .chain r => f.append r
  | .start n => { f with startCount := n }
  | .config t r _ =>
    match look t f.cfg with
    | some o => if o.seq.toNat < r.seq.toNat then { f with cfg := put t r f.cfg } else f
    | none => { f with cfg := put t r f.cfg }

/-- Write into flash, or into the queue while the gate is closed; false where the queue is full (R419). -/
def State.flashWrite (s : State) (w : FlashWrite) : State × Bool :=
  if !s.mod.flashGate then ({ s with flash := s.flash.apply w }, true)
  else if s.flash.queued + w.bytes ≤ 2 ^ 24 then
    ({ s with flash := { s.flash with queue := s.flash.queue ++ [w] } }, true)
  else (s, false)

/-- The queue in the order in which it is applied: boot control block updates first (R419). -/
def queueOrder (q : List FlashWrite) : List FlashWrite :=
  q.filter (fun w => match w with | .boot _ => true | _ => false)
    ++ q.filter (fun w => match w with | .boot _ => false | _ => true)

/-- Flash as it stands once its queue is applied. -/
def Flash.settled (f : Flash) : Flash := (queueOrder f.queue).foldl (fun f w => f.apply w) { f with queue := [] }

/-- The flash queue is applied, and a torn copy of the chain is rewritten (R413, R419). -/
def State.drainFlash (s : State) : State := { s with flash := s.flash.settled.mend }

/-- Write a unit's summary entry at once, at most 128 in an hour (R356, R395). -/
def State.summaryNow (s : State) (k : Nat) : State :=
  if s.flash.sumHour < 128 then
    let r := s.flashWrite (.summary k (s.summaryOf k))
    { r.1 with flash := { r.1.flash with sumHour := r.1.flash.sumHour + 1 } }
  else s

/-! ### Fences and permanent actions (R338, R339, R347) -/

/-- The stored fields of a page after unit reset: fields marked (C) or (W) keep their values (R15). -/
def Page.unitReset (p : Page) : Page := { p with evtForce := 0, enable := true }

/-- The latched HI halves of a page's counters are forgotten (R11). -/
def Held.forget (h : Held) (n : Nat) : Held :=
  { h with host := h.host.filter (fun e => e.1 / 4096 != n), sideband := h.sideband.filter (fun e => e.1 / 4096 != n) }

/-- Unit reset of a page (R11, R15). -/
def State.pageReset (s : State) (n : Nat) : State :=
  { s with dev := { s.dev with held := s.dev.held.forget n } }.setPage n (s.page n).unitReset

/-- Unit reset of a core: its page and its window (R15, R84). -/
def State.coreReset (s : State) (p : Nat) : State :=
  let s := s.pageReset (0x800 + p)
  { s with lastSlots := del p s.lastSlots }.setCore p
    { s.core p with
      win := Window.reset 8, lag := 0, idle := false, active := false, pending := false, scheduled := false }

/-- Mark a unit fenced: health, summary and its flash entry (R356). -/
def State.markFenced (s : State) (utype punit : Nat) : State :=
  let k := unitKey utype punit
  let s := { s with units := { s.units with fenced := insertNat k s.units.fenced } }
  let s := s.setSummary k { s.summaryOf k with
    state := 2, fenceStart := s.startNo, fenceTime := s.time }
  s.summaryNow k

/-- Fence a core: its logical cores move by R24, in ascending order; a FENCE record names the record that
caused it. -/
def State.fenceCore (s : State) (p cause : Nat) : State :=
  let ls := hostsOf s.lmap p
  let s := (s.markFenced 1 p).coreReset p
  let s := s.rehost ls
  s.raise { code := 0x0D, utype := 1, punit := p, action := 4, w6 := cause }

/-- Fence a region with its 18 cores; its logical cores move by R24's third rule. -/
def State.fenceRegion (s : State) (r cause : Nat) : State :=
  let cs := (List.range 18).map (fun i => 18 * r + i)
  let ls := (List.range 512).filter (fun l => nthD noHost s.lmap l / 18 == r)
  let s := cs.foldl (fun s p => if s.isFenced 1 p then s else (s.markFenced 1 p).coreReset p) s
  let s := s.markFenced 2 r
  let s := s.pageReset (0x80 + r)
  let s := s.rehost ls
  s.raise { code := 0x0D, utype := 2, punit := r, action := 4, w6 := cause }

/-- A unit becomes degraded (R339). -/
def State.markDegraded (s : State) (utype punit : Nat) : State :=
  let k := unitKey utype punit
  let s := { s with units := { s.units with degraded := insertNat k s.units.degraded } }
  s.setSummary k { s.summaryOf k with state := 1 }

/-- The permanent action of a unit (Table 11-2), with its record; a unit without a spare is degraded (R339). -/
def State.permanent (s : State) (utype punit cause : Nat) : State :=
  let repair : Evt := { code := 0x0F, utype := utype, punit := punit, action := 6, w6 := cause }
  match utype with
  | 1 => if s.isFenced 1 punit then s else s.fenceCore punit cause
  | 2 => if s.isFenced 2 punit then s else s.fenceRegion punit cause
  | 3 =>
    let d := s.die (punit / 32)
    if d.spareFor = none ∧ punit % 32 < 16 then
      (s.setDie (punit / 32) { d with spareFor := some (punit % 32) }).raise repair
    else s.markDegraded 3 punit
  | 4 =>
    if punit < 256 then
      let d := s.die (punit / 64)
      let b := BitVec.ofNat 24 (2 ^ (punit % 64))
      if d.meshSpare &&& b = 0 then (s.setDie (punit / 64) { d with meshSpare := d.meshSpare ||| b }).raise repair
      else (s.setDie (punit / 64) { d with meshDeg := d.meshDeg ||| b }).markDegraded 4 punit
    else
      let e := punit - 256
      let b := BitVec.ofNat 4 (2 ^ e)
      let d := s.die (edgeDie e)
      if d.edgeSpare &&& b = 0 then (s.setDie (edgeDie e) { d with edgeSpare := d.edgeSpare ||| b }).raise repair
      else (s.setDie (edgeDie e) { d with edgeDeg := d.edgeDeg ||| b }).markDegraded 4 punit
  | 5 => (s.setChan punit { s.chan punit with candidate := true, cause := cause }).markDegraded 5 punit
  | 6 =>
    if s.isFenced 6 punit then s
    else if (List.range 4).all (fun i => decide (4 * (punit / 4) + i = punit) || s.isFenced 6 (4 * (punit / 4) + i)) then
      s.markDegraded 6 punit
    else (s.markFenced 6 punit).raise { code := 0x0D, utype := 6, punit := punit, action := 4, w6 := cause }
  | 7 => (s.setPort punit (s.port punit).goDown).raise repair
  | _ => s

/-- Times of a unit's transient verdicts within 24 hours, with one now. -/
def State.transientTimes (s : State) (k : Nat) : List W64 :=
  (lookD [] k s.units.times).filter (fun t => decide ((s.time - t).toNat < 86400000000000)) ++ [s.time]

/-- A transient verdict now is the unit's fourth within 24 hours (R345). -/
def State.fourth (s : State) (utype punit : Nat) : Bool := decide (4 ≤ (s.transientTimes (unitKey utype punit)).length)

/-- A transient verdict of a unit: counted in its summary, and at the fourth within 24 hours its permanent
action becomes due at the next step boundary, caused by record `cause` (R345). Injected events do not count (R455). -/
def State.countTransient (s : State) (utype punit cause : Nat) : State :=
  let k := unitKey utype punit
  let e := s.summaryOf k
  let ts := s.transientTimes k
  let s := s.setSummary k { e with transients := satAdd e.transients 1 (2 ^ 32 - 1) }
  if ts.length < 4 then { s with units := { s.units with times := put k ts s.units.times } }
  else { s with units := { s.units with times := del k s.units.times, accumulated := put k cause s.units.accumulated } }

/-- A core's transient verdict from an assay: the fourth has a VERDICT record of its own (R345, Table 13-7). -/
def State.transientAssay (s : State) (p : Nat) : State :=
  if s.fourth 1 p then
    let cause := s.errSeq
    let s := (s.countTransient 1 p cause).raise { code := 0x0C, utype := 1, punit := p, action := 4, verdict := 4 }
    (s.setSummary (unitKey 1 p) { s.summaryOf (unitKey 1 p) with lastVerdict := 4 }).summaryNow (unitKey 1 p)
  else s.countTransient 1 p 0

/-! ### Placement in HBM and vault (R262, R263) -/

/-- Healthy pseudo-channels in the order of R263: the map that a reset builds. -/
def State.channels (s : State) : List Nat := fullHbmMap.filter (fun c => !s.isFenced 5 c)

/-- Where program frame `k` of channel `c` lies once the channels of a list have been retired in turn: each
frame of one went to one of the channels that took its contents, by a free value (R292; log 24). -/
def sparedTo (k : Nat) (l : List Spared) (c : Nat) : Nat :=
  l.foldl (fun c x =>
    if x.chan = c ∧ x.hosts ≠ [] then
      nthD c x.hosts (Config.freeNat (x.stamp * 16384 + k) % x.hosts.length)
    else c) c

/-- The pseudo-channel of an HBM logical offset (R263, R292). -/
def State.channelOf (s : State) (addr : Nat) : Nat :=
  if s.hbmMap.isEmpty then 0
  else
    let f := addr / 2097152
    sparedTo (f / s.hbmMap.length) s.spared (nthD 0 s.hbmMap (f % s.hbmMap.length))

/-- DRAM row of a block, as the trigger on distinct rows tells them apart: blocks of one 2 KiB stretch of a
channel's frame (log 24). -/
def rowOf (block : Nat) : Nat := block / 32

/-- The group that serves a vault group's lines: the die's spare group once it has replaced it (R338). -/
def BaseDie.serving (d : BaseDie) (g : Nat) : Nat := if d.spareFor = some g then 16 else g

/-- PUNIT of the bank group that holds a vault offset: the group of R262, the spare that replaced it, or one of the
die's other groups once it was withdrawn (R338, R339; log 49). -/
def State.vaultUnit (s : State) (addr : Nat) : Nat :=
  let b := addr / 2 ^ 27
  let d := s.die b
  let g := d.serving (addr / 256 % 16)
  if d.groupsOut.contains g then
    let live := ((List.range 16).map d.serving).filter (fun g => !d.groupsOut.contains g)
    b * 32 + nthD g live (Config.vaultHome b (addr / 256) % live.length)
  else b * 32 + g

end Sys2Proof.Machine
end

