-- ==== Sys2Proof/Machine/Rings.lean ====
section
/-! DEFINITION. Ledger rings, completions, and the consumption of a command (R244 to R251, R289, R329). -/

namespace Sys2Proof.Machine

/-! ### Jobs by number -/

def State.job (s : State) (n : Nat) : Option Job := s.jobs.find? (fun j => j.num == n)
def State.setJob (s : State) (j : Job) : State :=
  { s with jobs := s.jobs.map (fun k => if k.num == j.num then j else k) }
def State.run (s : State) (job : Nat) : Option Run := s.runs.find? (fun r => r.job == job)
def State.setRun (s : State) (r : Run) : State :=
  { s with runs := s.runs.map (fun k => if k.job == r.job then r else k) }
def State.dropRun (s : State) (job : Nat) : State := { s with runs := s.runs.filter (fun r => r.job != job) }

/-! ### Entries -/

def Ring.size (r : Ring) : Nat := 2 ^ r.sizeLog2
def Ring.used (r : Ring) : Nat := (r.tail - r.head).toNat
def Ring.full (r : Ring) : Bool := decide (r.size ≤ r.used + r.ahead.length)
def Ring.isEmpty (r : Ring) : Bool := r.tail == r.head
/-- Address of entry `k` (R245). -/
def Ring.addr (r : Ring) (k : W32) : Nat := r.base.toNat + 64 * (k.toNat % r.size)

def wordsOf (bs : List Byte) : List Nat := (chunks 8 8 bs).map leNat
def entryBytes (ws : List W64) : List Byte := ws.flatMap (fun w => leBytes 8 w.toNat)

/-- Host memory can be reached: at a teller, or through an admitted path to it (R329). -/
def State.reachHost (s : State) : Bool :=
  s.su.teller || (match s.tellerId with
    | some t => (match s.egress t false with | some p => s.admitted p | none => false)
    | none => false)

/-- The eight words of the entry at HEAD, as the device reads them. -/
def State.entryAt (s : State) (r : Ring) (f : Fetch) : List Nat :=
  if r.host then f.entry.map (·.toNat)
  else if r.job = 0 then (lookD [] (r.head.toNat % r.size) r.entries).map (·.toNat)
  else match s.job r.job with
    | some j => wordsOf (j.hbm.read (r.addr r.head) 64)
    | none => []

/-- A byte of host memory that a member writes back beside its own, in a block that it writes in part: what the
host holds there, a free value (log 14). -/
def padByte (ctr k : Nat) : Byte := BitVec.ofNat 8 (Config.freeNat (ctr * 16384 + k))

/-- The WR transactions that write bytes into host memory: whole 64-byte blocks, none across a 4 KiB boundary
(R302, R329). -/
def hostTxns (base : Txn) (ctr addr : Nat) (bs : List Byte) : List Txn :=
  let lo := addr / 64 * 64
  let hi := alignUp (addr + bs.length) 64
  (List.range ((hi + 4095) / 4096 - lo / 4096)).map (fun i =>
    let a := max lo (4096 * (lo / 4096 + i))
    let b := min hi (4096 * (lo / 4096 + i + 1))
    { base with
      space := 3, addr := a, len := (b - a) / 16
      data := (List.range (b - a)).map (fun k =>
        if addr ≤ a + k ∧ a + k < addr + bs.length then nthD 0 bs (a + k - addr) else padByte ctr (a + k)) })

/-- Write bytes into host memory: a teller's PCIe writes are output (log 4); a member sends them to its teller
(R329). -/
def State.hostWrite (s : State) (addr : Nat) (bs : List Byte) : State :=
  if s.su.teller then { s with out := { s.out with hostMem := cellPutList addr bs s.out.hostMem } }
  else match s.tellerId with
    | none => s
    | some t =>
      (hostTxns (s.txn 2 t 0) s.freeCtr addr bs).foldl (fun s x => s.sendReq x .host)
        { s with freeCtr := s.freeCtr + 1 }

/-- A member's ring in host memory: TAIL follows the writes of an entry once they have completed (R306). -/
def State.farRing (s : State) (r : Ring) : Bool := r.host && !s.su.teller

/-- Send a write of ring entry `k` to the teller, or keep it until a port takes it. -/
def State.sendEntryWr (s : State) (n : Nat) (k : W32) (t : Txn) : State :=
  let r := s.trySend t (.entry n k t)
  if r.2 then r.1 else { s with out := { s.out with hostWait := s.out.hostWait ++ [(n, k, t)] } }

/-- Write an entry of a member's host ring: its writes go out, and TAIL waits for them (R306). -/
def State.produceFar (s : State) (n : Nat) (r : Ring) (ws : List W64) : State :=
  match s.tellerId with
  | none => s
  | some t =>
    let k := r.tail + BitVec.ofNat 32 r.ahead.length
    let ts := hostTxns (s.txn 2 t 0) s.freeCtr (r.addr k) (entryBytes (withSeq ws k))
    ts.foldl (fun s x => s.sendEntryWr n k x)
      ({ s with freeCtr := s.freeCtr + 1 }.setRing n { r with ahead := r.ahead ++ [ts.length] })

/-- Write an entry at TAIL and advance TAIL (R245). -/
def State.produce (s : State) (n : Nat) (r : Ring) (ws : List W64) : State :=
  let ws := withSeq ws r.tail
  let r' := { r with tail := r.tail + 1 }
  if s.farRing r then s.produceFar n r ws
  else if r.host then
    (s.hostWrite (r.addr r.tail) (entryBytes ws)).setRing n r'
  else if r.job = 0 then s.setRing n { r' with entries := put (r.tail.toNat % r.size) ws r.entries }
  else match s.job r.job with
    | some j =>
      (s.setJob { j with hbm := (j.hbm.write (r.addr r.tail) (entryBytes ws)).setPoison (r.addr r.tail / 64) false }).setRing n r'
    | none => s.setRing n r'

/-- The interrupt that accompanies a produced entry (R244, R247, R330). -/
def State.ringIrq (s : State) (n : Nat) (r : Ring) : State :=
  if n = 1 then
    (if s.ldg.cplIrq.getLsbD 31 then s.interrupt (s.ldg.cplIrq.setWidth 11) else s)
  else if r.irqEn then s.interrupt r.msix else s

/-! ### Completions -/

/-- The words of a completion entry, with SEQ 0 (Table 8-24). -/
def Completion.words (c : Completion) : List W64 :=
  [ BitVec.ofNat 64 (c.opcode % 256 * 2 ^ 56 + c.flags % 256 * 2 ^ 48 + c.job % 65536 * 2 ^ 32)
  , BitVec.ofNat 64 (c.cmdRing % 2 ^ 20 * 2 ^ 44 + c.cmdSeq % 2 ^ 32)
  , BitVec.ofNat 64 (c.record % 2 ^ 32 * 2 ^ 32 + c.section_ % 65536 * 2 ^ 16 + c.status % 65536)
  , BitVec.ofNat 64 c.result0
  , BitVec.ofNat 64 c.result1
  , 0, 0, 0 ]

/-- A completion ring takes an entry now. -/
def State.cplOpen (s : State) (r : Ring) : Bool := !r.full && (!r.host || s.reachHost)

/-- Produce an entry with its interrupt; a member's host ring interrupts when TAIL follows (R330). -/
def State.produceIrq (s : State) (n : Nat) (r : Ring) (ws : List W64) : State :=
  if s.farRing r then s.produce n r ws else (s.produce n r ws).ringIrq n r

/-- A completion written to a ring. -/
def State.putCpl (s : State) (n : Nat) (r : Ring) (c : Completion) : State := s.produceIrq n r c.words

/-- Entries at the front of those beyond TAIL whose writes have all completed. -/
def Ring.landed (r : Ring) : Nat := (r.ahead.takeWhile (fun n => n == 0)).length

/-- TAIL passes the entries whose writes have completed, each with its interrupt (R306, R330). -/
def State.passTail (s : State) (n : Nat) (r : Ring) : State :=
  let m := r.landed
  let r := { r with tail := r.tail + BitVec.ofNat 32 m, ahead := r.ahead.drop m }
  (List.range m).foldl (fun s _ => s.ringIrq n r) (s.setRing n r)

/-- A write of entry `k` of a member's host ring completes; one that was not done waits to be sent again. -/
def State.entryDone (s : State) (n : Nat) (k : W32) (t : Txn) (status : Nat) : State :=
  if status ≠ 0 then { s with out := { s.out with hostWait := s.out.hostWait ++ [(n, k, t)] } }
  else match s.ring n with
    | some r =>
      let i := (k - r.tail).toNat
      s.passTail n { r with ahead := setNth r.ahead i (nthD 0 r.ahead i - 1) }
    | none => s

/-- Send again the writes of ring entries that waited for a path to the teller. -/
def State.hostResend (s : State) : State :=
  s.out.hostWait.foldl (fun s x => s.sendEntryWr x.1 x.2.1 x.2.2) { s with out := { s.out with hostWait := [] } }

/-- A member reads host memory with RD transactions to its teller; what they return stands in the command
(R329; log 14). -/
def State.hostFetch (s : State) (addr n : Nat) : State :=
  if s.su.teller || decide (n = 0) then s
  else match s.tellerId with
    | none => s
    | some t =>
      (hostTxns (s.txn 1 t 0) 0 addr (List.replicate n 0)).foldl (fun s x => s.sendReq { x with data := [] } .host) s

/-- Write a completion, or queue it on the device behind those that wait (R246). -/
def State.pushCpl (s : State) (c : Completion) : State :=
  match s.ring c.ring with
  | none => s
  | some r =>
    match s.job c.job with
    | some j =>
      if j.queued.isEmpty && s.cplOpen r then s.putCpl c.ring r c
      else s.setJob { j with queued := j.queued ++ [c] }
    | none =>
      if s.queued0.isEmpty && s.cplOpen r then s.putCpl c.ring r c
      else { s with queued0 := s.queued0 ++ [c] }

/-- Write the completions of a list while their rings take them; answer those that still wait. -/
def State.drainList (s : State) : List Completion → State × List Completion
  | [] => (s, [])
  | c :: t =>
    match s.ring c.ring with
    | none => State.drainList s t
    | some r =>
      if s.cplOpen r then State.drainList (s.putCpl c.ring r c) t
      else (s, c :: t)

/-- Queued completions take the room that a HEAD made. -/
def State.drainCpl (s : State) : State :=
  let r := s.drainList s.queued0
  let s := { r.1 with queued0 := r.2 }
  s.jobs.foldl (fun s j =>
    match s.job j.num with
    | some j =>
      let r := s.drainList j.queued
      (match r.1.job j.num with
       | some k => r.1.setJob { k with queued := r.2 }
       | none => r.1)
    | none => s) s

/-! ### Commands -/

/-- A consumed command: its ring, SEQ, words and what host memory returned for it. -/
structure Cmd where
  ring : Nat
  seq : Nat
  peer : Nat
  words : List Nat
  data : List Byte
  snap : List Byte
deriving DecidableEq, Repr

def Cmd.w (c : Cmd) (i : Nat) : Nat := nthD 0 c.words i
def Cmd.opcode (c : Cmd) : Nat := bits (c.w 0) 63 56
def Cmd.job (c : Cmd) : Nat := bits (c.w 0) 47 32
def Cmd.waiting (c : Cmd) : Waiting := ⟨c.ring, BitVec.ofNat 32 c.seq⟩

/-- A completion of a command (R248, R250). -/
def Cmd.cpl (c : Cmd) (status : Nat) : Completion :=
  { opcode := c.opcode + 0x80, flags := 0, job := c.job, cmdRing := c.ring, cmdSeq := c.seq, record := 0
    section_ := 0, status := status, result0 := 0, result1 := 0, ring := c.peer }

def State.finish (s : State) (c : Cmd) (status : Nat) : State := s.pushCpl (c.cpl status)
def State.finishWith (s : State) (c : Cmd) (r0 r1 : Nat) : State :=
  s.pushCpl { c.cpl 0 with result0 := r0, result1 := r1 }

/-- Complete a command that waited, by its ring and SEQ. -/
def State.finishLate (s : State) (w : Waiting) (opcode job status flags r0 r1 : Nat) : State :=
  let peer := match s.ring w.ring with | some r => r.peerRing | none => 1
  s.pushCpl { opcode := opcode + 0x80, flags := flags, job := job, cmdRing := w.ring, cmdSeq := w.seq.toNat
              record := 0, section_ := 0, status := status, result0 := r0, result1 := r1
              ring := if w.ring = 0 then 1 else peer }

/-- The bits of words 1 to 7 that Table 8-23 names for an opcode. -/
def cmdMasks (opcode : Nat) : List Nat :=
  let all := 2 ^ 64 - 1
  let loc := 0xC000FFFFFFFFFFFF
  match opcode with
  | 0x01 => [all, loc, 0xFFFFFFFFFFFF0000, all, all, 0xE000FFFFFFFFFFFF, 0xFFFFF]
  | 0x02 => [0xFFFF, all, 0, 0, 0, 0, 0]
  | 0x03 | 0x06 | 0x0B | 0x0C | 0x0F | 0x12 => [all, loc, 0, 0, 0, 0, 0]
  | 0x07 | 0x0A => [0xFFFFF, 0, 0, 0, 0, 0, 0]
  | 0x08 => [0x7FFFFFFFFFFF, 0, 0, 0, 0, 0, 0]
  | 0x09 => [0x7FF, 0, 0, 0, 0, 0, 0]
  | 0x0D => [0xFFFF, 0, 0, 0, 0, 0, 0]
  | 0x0E => [0xE0000000FFFFFFFF, 0, 0, 0, 0, 0, 0]
  | 0x13 => [all, all, all, all, all, loc, 0]
  | _ => [0, 0, 0, 0, 0, 0, 0]

/-- Commands that name no job (R249). RING_ALLOC and RING_FREE may name one. -/
def deviceOnly (opcode : Nat) : Bool := decide (0x0B ≤ opcode)

/-- Commands that need the job of their header to be resident (R251). -/
def jobOnly (opcode : Nat) : Bool := decide ((2 ≤ opcode ∧ opcode ≤ 5) ∨ (8 ≤ opcode ∧ opcode ≤ 0xA))

/-- Word that holds the second word of an opcode's location, if it names one. -/
def locWord (opcode : Nat) : Option Nat :=
  match opcode with
  | 0x01 | 0x03 | 0x06 | 0x0B | 0x0C | 0x0F | 0x12 => some 2
  | 0x13 => some 6
  | _ => none

/-- A location word that R249 allows: host memory, or HBM of the resident job of the header. -/
def State.locOk (s : State) (c : Cmd) (w : Nat) : Bool :=
  let loc := bits w 63 62
  decide (loc = 1) || (decide (loc = 0) && (s.job c.job).isSome)

/-- What a command breaks of the rules of R249 and R251: 0, BAD_COMMAND or JOB_UNKNOWN. -/
def State.cmdCheck (s : State) (c : Cmd) : Nat :=
  let op := c.opcode
  if op = 0 ∨ 0x14 < op then 0x0401
  else if bits (c.w 0) 55 48 ≠ 0 then 0x0401
  else if (List.range 7).any (fun i => decide (c.w (i + 1) &&& (2 ^ 64 - 1 - nthD 0 (cmdMasks op) i) ≠ 0)) then 0x0401
  else if deviceOnly op && decide (c.job ≠ 0) then 0x0401
  else if jobOnly op && (s.job c.job).isNone then 0x0402
  else if (op = 6 ∨ op = 7) ∧ c.job ≠ 0 ∧ (s.job c.job).isNone then 0x0402
  else match locWord op with
    | some i => if s.locOk c (c.w i) then 0 else 0x0401
    | none => 0

/-- The bytes at a command's location: what host memory returned, or the job's HBM. -/
def State.locBytes (s : State) (c : Cmd) (addr w : Nat) (given : List Byte) : List Byte :=
  let n := bits w 47 0
  if bits w 63 62 = 1 then bytesAt given 0 n
  else match s.job c.job with
    | some j => j.hbm.read addr n
    | none => []

/-- A job's ring entry or descriptor is poisoned (R288, R289). -/
def State.ringPoison (s : State) (r : Ring) : Bool :=
  !r.host && (match s.job r.job with
    | some j => j.hbm.isPoisoned (r.addr r.head / 64)
    | none => false)

/-- A ring whose entry does not carry its index stops (R246). -/
def State.stale (s : State) (n : Nat) (r : Ring) : State :=
  (s.setRing n { r with stopped := true }).raise { code := 0x12, job := r.job }

/-- A ring that the device may consume from now. -/
def State.ringLive (s : State) (n kind : Nat) (f : Fetch) : Option Ring :=
  match s.ring n with
  | some r =>
    if s.ready && decide (r.kind = kind) && !r.stopped && !r.isEmpty
        && (!r.host || (s.reachHost && decide (f.entry.length = 8))) then some r
    else none
  | none => none

/-- The command at HEAD of a ring, and what it breaks. -/
def State.cmdAt (s : State) (n : Nat) (r : Ring) (f : Fetch) : Cmd :=
  { ring := n, seq := r.head.toNat, peer := if n = 0 then 1 else r.peerRing
    words := s.entryAt r f, data := f.data, snap := f.snap }

/-- Commands that read the bytes at the location of words 1 and 2 (Table 8-23). -/
def readsLoc (opcode : Nat) : Bool := [0x01, 0x06, 0x0B, 0x0C, 0x0F, 0x12].contains opcode

/-- The reads of host memory that the consumption of an entry takes: the entry, and what a command names (R329). -/
def State.fetched (s : State) (f : Fetch) (r : Ring) : State :=
  let c := s.cmdAt f.ring r f
  let s := if r.host then s.hostFetch (r.addr r.head) 64 else s
  let s := if decide (r.kind = 0) && readsLoc c.opcode && decide (bits (c.w 2) 63 62 = 1) then
      s.hostFetch (c.w 1) f.data.length else s
  if r.kind = 0 ∧ c.opcode = 1 ∧ bits (c.w 6) 63 62 = 1 then s.hostFetch (c.w 5) f.snap.length else s

end Sys2Proof.Machine
end

