-- ==== Sys2Proof/Machine/Issue.lean ====
section
/-! DEFINITION. How a record of the running step issues and completes: waits, turns, effects in escrow,
digests, checks, poison (R225 to R230, R270, R273, R275, R287, R288, R332 to R335, R455, R473). -/

namespace Sys2Proof.Machine

/-! ### Slots and turns -/

/-- A slot at the start of a run: everything per-step is clear (R149, R181, R237 order 2); tile buffers and
weight registers hold what the run has not yet written (logs 2, 10). R161 gives the lane registers no value
at the start of a run: they are zero here, and on a core that has run nothing (DESIGN CHOICE; log 53). -/
def Slot.fresh (pc : Nat) : Slot :=
  { pc := pc, begun := false, ended := false, skipTo := 0, flights := [], arrivals := [], landings := [], tally := []
    wreg0 := .reset, wreg1 := .reset, tb := List.replicate 4 ⟨.fp32, []⟩, stat := List.replicate 64 StatSet.zero
    drain := List.replicate 16 0, hall := List.replicate 8 0, smax := List.replicate 64 SmaxRow.zero
    lanes := List.replicate 16 Lane.zero
    groupMax := [], till := Shadow.empty, digest := 0, spoiled := false, former := false
    started := 0 }

/-- A slot of a run, and its physical core. -/
def Run.slot (r : Run) (d : Nat) : Slot := nthD (Slot.fresh 0) r.slots d
def Run.setSlot (r : Run) (d : Nat) (x : Slot) : Run := { r with slots := setNth r.slots d x }
def Run.host (r : Run) (d : Nat) : Nat := nthD noHost r.hosts d

/-- The run whose records issue: between orders 2 and 5, and not waiting for a recount (R237). -/
def State.issuing (s : State) : Option Run := s.runs.find? (fun r => decide (r.order < 5) && !r.waiting && !r.broken)

/-- Arrivals that a template declares for a token of a slot: moves between the logical cores of its shard, and
contributions of every pair (R228, R318). -/
def moveArrivals (token lcore : Nat) : List W128 → Nat
  | [] => 0
  | w :: t =>
    let r := w.toNat
    (if decide (rOpcode r = 0x21) && bit r 36 && decide (48 + bits r 35 32 = token)
        && decide (bits r 45 37 = lcore) then 1 else 0) + moveArrivals token lcore t

/-- Arrivals that the contributions of a stream bring a token of a logical core (R228). -/
def collArrivals (token shards own shard lcore : Nat) : List W128 → Nat
  | [] => 0
  | w :: t =>
    let r := w.toNat
    (if decide (rOpcode r = 0x71) && bit r 19 && decide (48 + bits r 18 15 = token)
        && decide (bits r 78 70 = lcore) && decide (collShard shards own r = shard) then 1 else 0)
      + collArrivals token shards own shard lcore t

/-- Arrivals that a token of a slot waits for (R228). -/
def declared (j : Job) (template d token : Nat) : Nat :=
  let l := j.lcoreOf d
  let sh := j.shardOf d
  j.bin.streams.foldl (fun n st =>
    let seg := (segment st template).2
    let own := moveArrivals token l seg
    let others := (List.range j.bin.shards).foldl (fun n x => n + collArrivals token j.bin.shards x sh l seg) 0
    n + own + others) 0

/-- A wait that is not met (R228). -/
def unmet (j : Job) (template d : Nat) (x : Slot) (t : Nat) : Bool :=
  if t = 0 then false
  else if t < 48 then x.flights.any (fun f => f.signal == t)
  else decide (lookD 0 t x.arrivals < declared j template d t)

/-- The record a slot issues next. -/
def Job.recAt (j : Job) (d i : Nat) : Nat := (nthD 0 (j.streamOf d) i).toNat

/-- The slot's sequencer holds on an arrival token, and what it issued has completed (R473). -/
def slotWaits (j : Job) (template d : Nat) (x : Slot) : Bool :=
  let r := j.recAt d x.pc
  let arr (t : Nat) : Bool := decide (48 ≤ t) && unmet j template d x t
  x.begun && x.flights.isEmpty && (arr (rWaitA r) || arr (rWaitB r))

/-- Order of turns on one physical core: device logical core, then slot (R473). -/
def turnKey (d : Nat) : Nat := d % 512 * 2 ^ 26 + d

/-- The turn that runs next on a core: the present one while it neither ended nor waits, else the first in
order that does not wait. -/
def nextTurn (j : Job) (r : Run) (p : Nat) : Option Nat :=
  let ds := (List.range r.slots.length).filter (fun d => r.host d == p)
  let go (d : Nat) : Bool := !(r.slot d).ended && !slotWaits j r.template d (r.slot d)
  match look p r.turns with
  | some d => if r.host d == p && go d then some d else minBy turnKey (ds.filter go)
  | none => minBy turnKey (ds.filter go)

/-- Choose the turn of every core again. -/
def turnsAgain (j : Job) (r : Run) : Run :=
  let ps := r.hosts.foldl (fun l p => insertNat p l) []
  { r with turns := ps.filterMap (fun p => (nextTurn j r p).map (fun d => (p, d))) }

/-! ### Requant blocks that are skipped (R213) -/

/-- Carder records that come in pairs and stay in flight as data movements (R227, R278, R318). -/
def isMove (op : Nat) : Bool := decide (op = 0x20) || decide (op = 0x22) || decide (op = 0x23)
def isPair (op : Nat) : Bool := isMove op || decide (op = 0x70)

/-- Records of a requant block that is skipped, and the moves among them (R213, R225). -/
def skipLen : List W128 → Nat
  | [] => 0
  | [r] => if rRq r.toNat then 1 else 0
  | r :: r2 :: t =>
    if rRq r.toNat then (if isPair (rOpcode r.toNat) then 2 + skipLen t else 1 + skipLen (r2 :: t)) else 0

/-- The arrival that a skipped record would have signalled on this device: slot and token. -/
def skipArrival (j : Job) (d a b : Nat) : Option (Nat × Nat) :=
  if isMove (rOpcode a) && bit b 36 then
    some (d / j.bin.lcores * j.bin.lcores + bits b 45 37, 48 + bits b 35 32)
  else if decide (rOpcode a = 0x70) && bit b 19 then
    (j.slotOf (collShard j.bin.shards (j.shardOf d) b) (bits b 78 70)).map (fun k => (k, 48 + bits b 18 15))
  else none

/-- An arrival lands on a slot's token (R228). -/
def Run.arrive (r : Run) (d token : Nat) : Run :=
  if token = 0 then r
  else
    let x := r.slot d
    r.setSlot d { x with arrivals := put token (lookD 0 token x.arrivals + 1) x.arrivals }

/-- The waits of the record at a slot's position are met (R225, R228). -/
def waitsMet (j : Job) (template d : Nat) (x : Slot) : Bool :=
  let rec_ := j.recAt d x.pc
  !unmet j template d x (rWaitA rec_) && !unmet j template d x (rWaitB rec_) && (!rOrdered rec_ || x.flights.isEmpty)

/-- One slot passes the skipped records whose waits are met: each takes its place in the order of waits and leaves
nothing, and the arrival that it would have signalled counts as landed, so that skipping changes timing only (R213). -/
def skipSlot (j : Job) (d : Nat) : Nat → Run → Run
  | 0, r => r
  | n + 1, r =>
    let x := r.slot d
    if decide (x.pc < x.skipTo) && waitsMet j r.template d x then
      let a := j.recAt d x.pc
      let r := match skipArrival j d a (j.recAt d (x.pc + 1)) with
        | some y => r.arrive y.1 y.2
        | none => r
      let x := r.slot d
      skipSlot j d n (r.setSlot d { x with pc := x.pc + (if isPair (rOpcode a) then 2 else 1) })
    else r

/-- Every slot of a run passes what it can of the block that it skips. -/
def skipRound (j : Job) (r : Run) : Run :=
  (List.range r.slots.length).foldl (fun r d => skipSlot j d ((r.slot d).skipTo - (r.slot d).pc) r) r

/-- The slots of a run pass what they can; an arrival that one slot's block leaves may let another's go on. -/
def skipAll (j : Job) (r : Run) : Run :=
  if r.slots.any (fun x => decide (x.pc < x.skipTo)) then
    (List.range r.slots.length).foldl (fun r _ => skipRound j r) r
  else r

/-- The records of the run move on as far as they can by themselves: those of skipped requant blocks, and the turns. -/
def resched (j : Job) (r : Run) : Run := turnsAgain j (skipAll j r)

/-- A slot begins to skip the requant block at its position. -/
def Run.startSkip (r : Run) (j : Job) (d : Nat) : Run :=
  let x := r.slot d
  r.setSlot d { x with skipTo := x.pc + skipLen ((j.streamOf d).drop x.pc) }

/-! ### Events of a run -/

/-- A run that its check had let through is checked again: what the check had put into the history is taken out. -/
def Run.reopen (r : Run) : Run := { r with order := 5, history := r.history.dropLast }

/-- Raise an event of a run, recorded once per code and unit (R352), and keep it for the verdicts. A run with a recount
event does not post, even when the event comes after its check (R332). -/
def State.raiseRun (s : State) (job : Nat) (d : Option Nat) (e : Evt) (detail : Nat) (recount injected : Bool) : State :=
  match s.run job with
  | none => s.raise e
  | some r =>
    let seen := r.events.find? (fun x => x.code == e.code && x.utype == e.utype && x.punit == e.punit)
    let seq := match seen with | some x => x.seq | none => s.errSeq
    let x : RunEvent := ⟨e.code, e.utype, e.punit, d, seq, detail, recount, injected⟩
    let s := if seen.isSome then s.raiseQuiet e else s.raise e
    let r := { r with
      events := r.events ++ [x]
      detected := if recount && r.detected.isNone then some s.time else r.detected }
    match s.run job with
    | some q =>
      let q := { q with events := r.events, detected := r.detected }
      s.setRun (if recount && decide (7 ≤ q.order) then q.reopen else q)
    | none => s

/-- The record of an event at record `idx` of slot `d`. -/
def slotEvt (j : Job) (r : Run) (d idx code utype punit w6 w7 action : Nat) : Evt :=
  { code := code, job := j.num, step := r.step.toNat, utype := utype, punit := punit
    lcore := j.lcoreOf d, shard := j.shardOf d, run := r.run, action := action
    opindex := idx, opcode := rOpcode (j.recAt d idx), w6 := w6, w7 := w7 }

/-! ### Blocks that ECC touches (R270, R271) -/

/-- Mark a posted block of a job poisoned. -/
def Job.poisonBlock (j : Job) (space slot block : Nat) : Job :=
  match space with
  | 0 => { j with tills := setNth j.tills slot ((nthD Mem.empty j.tills slot).setPoison block true) }
  | 1 => { j with vault := j.vault.setPoison block true }
  | _ => { j with hbm := j.hbm.setPoison block true }

/-- The unit that holds a block: core, vault bank group or pseudo-channel. -/
def State.blockUnit (s : State) (space slot block : Nat) : Nat × Nat :=
  match space with
  | 0 => (1, nthD 0 s.lmap (slot % 512))
  | 1 => (3, s.vaultUnit (64 * block))
  | _ => (5, s.channelOf (64 * block))

/-- Retirement triggers on a channel's counters (Table 11's companion, Table 9-11): two rows in 24 hours, or
more than 1,024 corrected symbols in an hour. -/
def Chan.triggered (c : Chan) : Bool :=
  decide (2 ≤ c.rows.length) || decide (1024 < c.hour.foldl (fun n x => n + x.2) 0)

/-- A channel becomes a retirement candidate (R291, Table 9-12 order 1). -/
def State.candidate (s : State) (c cause : Nat) : State :=
  if s.isFenced 5 c || (s.chan c).candidate then s
  else (s.setChan c { s.chan c with candidate := true, cause := cause }).markDegraded 5 c

/-- Check a channel's triggers. -/
def State.triggers (s : State) (c cause : Nat) : State := if (s.chan c).triggered then s.candidate c cause else s

/-- Symbols of a block corrected: counted, and an HBM block is rewritten (R270, R271). -/
def State.corrected (s : State) (job : Nat) (utype punit block n : Nat) : State :=
  let s := s.markPage (unitPage utype punit) 12 1
  if utype = 5 then
    let c := s.chan punit
    let hour := c.hour.filter (fun x => decide ((s.time - x.1).toNat < 3600000000000)) ++ [(s.time, n)]
    (s.setChan punit { c with
      corr := c.corr + BitVec.ofNat 64 n, hour := hour, rewrite := c.rewrite ++ [(job, block, false)] }).triggers punit 0
  else s

/-- The tensor descriptor whose region holds an address, by lowest index; regenerable regions first (R240). -/
def Job.regionAt (j : Job) (space addr : Nat) (regen : Bool) : Option Nat :=
  (List.range j.bin.pool.length).find? (fun i =>
    let d := j.bin.entry i
    decide (j.bin.entryType i = 1) && decide (dSpace d = space) && decide (dBase d ≤ addr / 64 * 64 + 63)
      && decide (addr / 64 * 64 < dEnd d) && (!regen || decide (dRole d = 3)))

/-- An uncorrectable block of a channel: counted with its row, and to be rewritten (R270, R291). -/
def Chan.uncorrectable (c : Chan) (now : W64) (job block : Nat) (poisoned : Bool) : Chan :=
  let rows := c.rows.filter (fun x => decide ((now - x.2).toNat < 86400000000000) && x.1 != rowOf block)
  { c with
    uncorr := BitVec.ofNat 32 (satAdd c.uncorr.toNat 1 (2 ^ 32 - 1))
    rows := rows ++ [(rowOf block, now)]
    rewrite := c.rewrite ++ [(job, block, poisoned)] }

/-- An uncorrectable block: poisoned and counted (R270, R271). -/
def State.poisonAt (s : State) (j : Job) (u : Nat × Nat) (space slot block : Nat) : State :=
  let s := s.setJob (j.poisonBlock space slot block)
  if u.1 = 5 then s.setChan u.2 ((s.chan u.2).uncorrectable s.time j.num block true) else s

/-- Syndrome of ECC_UNCORRECTABLE (Table 11-11); descriptor 0 where no region holds the block. -/
def eccWord6 (space block : Nat) (injected : Bool) : Nat := space * 2 ^ 62 + b2n injected * 2 ^ 48 + 64 * block
def Job.eccWord7 (j : Job) (space block s0 s1 : Nat) : Nat :=
  s0 * 2 ^ 56 + s1 * 2 ^ 48 + (j.regionAt space (64 * block) false).getD 0

/-- An uncorrectable block found outside a run. -/
def State.uncorrectable (s : State) (j : Job) (u : Nat × Nat) (space slot block s0 s1 : Nat) : State :=
  let s := s.poisonAt j u space slot block
  let cause := s.errSeq
  let s := s.raise { code := 0x09, job := j.num, utype := u.1, punit := u.2, action := 1
                     w6 := eccWord6 space block false, w7 := j.eccWord7 space block s0 s1 }
  if u.1 = 5 then s.triggers u.2 cause else s

/-! ### The context of a record -/

/-- The die bank that a slot's former records use (R193, R194): the first run's, else the host's active one. -/
def State.dieBank (s : State) (r : Run) (p : Nat) : Nat × Nat :=
  match r.bank with
  | some b => if r.history.isEmpty then
      (let c := s.core p
       let k := if c.active then c.bank1 else c.bank0
       (k.tag.toNat, k.recId)) else b
  | none =>
    let c := s.core p
    let k := if c.active then c.bank1 else c.bank0
    (k.tag.toNat, k.recId)

/-- Place of a slot's next record among the records of all steps, shards and logical cores (R357). -/
def recordPlace (j : Job) (r : Run) (d : Nat) : Nat :=
  ((r.step.toNat * 65536 + j.shardOf d) * 512 + j.lcoreOf d) * 2 ^ 32 + (r.slot d).pc

/-- What a record of a run reads. -/
def State.ctx (s : State) (j : Job) (r : Run) (d : Nat) : Ctx :=
  let b := s.dieBank r (r.host d)
  { job := j, run := r, d := d, slot := r.slot d, place := recordPlace j r d, dieTag := b.1
    userDies := lookD [] b.2 s.dieRecs }

/-! ### Effects in escrow (R275, R287, R334) -/

/-- A run's shadow of a space, as slot `d` writes it. -/
def Run.shadow (r : Run) (d space : Nat) : Shadow :=
  match space with
  | 0 => (r.slot d).till
  | 1 => r.vault
  | _ => r.hbm

/-- The writes of a run to a space. -/
def Run.setShadow (r : Run) (d space : Nat) (x : Shadow) : Run :=
  match space with
  | 0 => r.setSlot d { r.slot d with till := x }
  | 1 => { r with vault := x }
  | _ => { r with hbm := x }

/-- Bytes written over cells. -/
def putBytes : List (Nat × Byte) → List Host.Cell → List Host.Cell
  | [], m => m
  | (a, b) :: t, m => putBytes t (cellPutRaw a b m)

/-- Blocks that a list of written bytes covers whole. -/
def wholeBlocks (ws : List (Nat × Byte)) : List Nat :=
  let cs := putBytes ws []
  let bs := cs.foldl (fun l c => insertNat (c.1 / 64) l) []
  bs.filter (fun b => decide (countIf (fun c => decide (c.1 / 64 = b)) cs = 64))

/-- One record's writes into a shadow: whole blocks written clean lose their mark, marked blocks take it. -/
def Shadow.writeAll (sh : Shadow) (ws : List (Nat × Byte)) (marks : List Nat) : Shadow :=
  let sh := { sh with cells := putBytes ws sh.cells }
  let sh := (wholeBlocks ws).foldl (fun sh b => if marks.contains b then sh else sh.setPoison b false) sh
  marks.foldl (fun sh b => sh.setPoison b true) sh

/-- The writes to one space. -/
def ofSpace (sp : Nat) (ws : List (Nat × Nat × Byte)) : List (Nat × Byte) :=
  ws.filterMap (fun w => if w.1 = sp then some w.2 else none)

/-- Apply writes of slot `d` to the run's shadows, and note where they land in a till (R151). -/
def Run.applyWrites (r : Run) (d : Nat) (ws : List (Nat × Nat × Byte)) (marks : List (Nat × Nat)) : Run :=
  let one (r : Run) (sp : Nat) : Run :=
    let w := ofSpace sp ws
    let m := marks.filterMap (fun x => if x.1 = sp then some x.2 else none)
    if w.isEmpty && m.isEmpty then r else r.setShadow d sp ((r.shadow d sp).writeAll w m)
  one (one (one r 0) 1) 2

/-- A run of consecutive written addresses as byte ranges. -/
def landRanges : List (Nat × Byte) → List (Nat × Nat) → List (Nat × Nat)
  | [], acc => acc
  | (a, _) :: t, [] => landRanges t [(a, a + 1)]
  | (a, _) :: t, (lo, hi) :: acc =>
    if a = hi then landRanges t ((lo, hi + 1) :: acc) else landRanges t ((a, a + 1) :: (lo, hi) :: acc)

/-- Note that bytes have landed in a slot's till: what lands together has one place in the order (R151). -/
def Run.noteLanding (r : Run) (d : Nat) (ws : List (Nat × Byte)) : Run :=
  if ws.isEmpty then r
  else r.setSlot d { r.slot d with landings := (r.slot d).landings ++ [landRanges ws []] }

/-! ### Poison consumed (Table 9-10) -/

/-- The run ends without posting; its shadow is discarded when the next run begins. -/
def Run.breakUp (r : Run) : Run :=
  let r := if 7 ≤ r.order then r.reopen else r
  { r with broken := true, order := 5 }

/-- A poisoned block that the running step's own shadow holds (R288). -/
def Run.inShadow (r : Run) (d space addr : Nat) : Bool := (look (addr / 64) (r.shadow d space).poison).isSome

end Sys2Proof.Machine
end

