-- ==== Sys2Proof/Machine/Collect.lean ====
section
/-! DEFINITION. Contributions as their sender handles them, and the received set as a run reads it (R306,
R318 to R323; logs 16, 17). -/

namespace Sys2Proof.Machine

/-! ### The sender (R321) -/

/-- Bytes of a list of writes in rising order. -/
def settled (ws : List (Nat × Byte)) : List Host.Cell := putBytes ws []

/-- Consecutive 64-byte blocks of one 4 KiB page: first block and count (R302). -/
def blockRuns : List Nat → List (Nat × Nat) → List (Nat × Nat)
  | [], acc => acc.reverse
  | b :: t, [] => blockRuns t [(b, 1)]
  | b :: t, (f, n) :: acc =>
    if b = f + n ∧ b / 64 = f / 64 then blockRuns t ((f, n + 1) :: acc) else blockRuns t ((b, 1) :: (f, n) :: acc)

/-- The transactions of a contribution: 64-byte blocks of its destination bytes, in address order (log 17). -/
def contribTxns (base : Txn) (slot : Nat) (ws : List (Nat × Byte)) : List Txn :=
  let cs := settled ws
  let blocks := cs.foldl (fun l c => insertNat (c.1 / 64) l) []
  (blockRuns blocks []).map (fun x =>
    { base with
      len := 4 * x.2
      addr := (if base.space = 0 then slot * 2 ^ 22 else 0) + 64 * x.1
      data := cellRead cs (64 * x.1) (64 * x.2) })

/-- A contribution that is being sent, changed, found, and taken away. -/
def State.setSend (s : State) (x : Send) : State :=
  { s with fab := { s.fab with sends := s.fab.sends.map (fun y => if y.id == x.id then x else y) } }
def State.send (s : State) (id : Nat) : Option Send := s.fab.sends.find? (fun x => x.id == id)
def State.dropSend (s : State) (id : Nat) : State :=
  { s with fab := { s.fab with sends := s.fab.sends.filter (fun x => x.id != id) } }

/-- Stream the transactions with the given numbers; those that no port takes wait to be resent. -/
def State.stream (s : State) (id : Nat) : List Nat → State
  | [] => s
  | i :: rest =>
    match s.send id with
    | none => s
    | some x =>
      match x.txns[i]? with
      | none => State.stream s id rest
      | some t =>
        let t := { t with altOk := x.alt, attempt := x.attempt }
        let r := s.trySend t (.contrib id i)
        let s := if !r.2 then s.setSend { x with retry := insertNat i x.retry }
          else if s.straying t then r.1.lockBreakJob x.job else r.1
        State.stream s id rest

/-- Two sends are attempts of one contribution. -/
def Send.sameAs (x y : Send) : Bool := x.job == y.job && x.slot == y.slot && x.contrib == y.contrib

/-- A contribution to another device begins to stream (Table 8-12 order 4). -/
def State.startSend (s : State) (j : Job) (r : Run) (d : Nat) (ordinal : Nat) (c : Contrib) : State :=
  let dst := Config.shardDevice j.num c.shard
  let mode := bits (nthD 0 j.bin.coll c.plan).toNat 123 122
  let slot := (c.shard - Config.shardFirst j.num dst) * j.bin.lcores + c.lcore
  let base := { s.txn (if mode = 0 then 2 else if mode = 1 then 3 else 4) dst j.num with
    attempt := r.attempt, space := c.space, stepLo := r.step.toNat % 2 ^ 32, contrib := ordinal }
  let ts := contribTxns base slot c.writes
  let x : Send :=
    { id := s.fab.nextSend, job := j.num, slot := d, contrib := ordinal, plan := c.plan, attempt := r.attempt % 4
      dst := dst, csgn := c.csgn, bytes := (settled c.writes).length, txns := ts
      open_ := List.range ts.length, retry := [], alt := false, state := .streaming, void := none }
  let old := s.fab.sends.filter (fun y => !(x.sameAs y && decide (y.state = .retracted)))
  let s := { s with fab := { s.fab with sends := old ++ [x], nextSend := s.fab.nextSend + 1 } }
  s.stream x.id (List.range ts.length)

/-- The message of a contribution that carries no data of its region: CSGN or VOID, with the place of its
first transaction (log 16). -/
def Send.message (x : Send) (s : State) (ttype status : Nat) (data : List Byte) : Txn :=
  let first := (x.txns[0]?).getD (s.txn 2 x.dst x.job)
  { first with ttype := ttype, len := data.length / 16, status := status, attempt := x.attempt, data := data
               poison := 0, altOk := x.alt }

/-- Send a message of a contribution: `done` is the contribution once a port has taken it, `late` while none does.
A path or tag of R304 or R307 that delays it breaks the lock of its job's step (Table 12-10). -/
def State.sendMsg (s : State) (x : Send) (t : Txn) (u : TagUse) (done late : Send) : State :=
  let r := s.trySend t u
  if r.2 then (if s.straying t then r.1.lockBreakJob x.job else r.1).setSend done else s.setSend late

/-- The countersign of a contribution: digest, then byte count (R320). -/
def State.sendCsgn (s : State) (x : Send) : State :=
  let data := leBytes 16 x.csgn.toNat ++ leBytes 16 x.bytes
  s.sendMsg x (x.message s 8 0 data) (.csgn x.id) { x with state := .signed } { x with state := .landed }

/-- A VOID of a contribution: status 0 retract, 1 final. It is held until its VOID has completed. -/
def State.sendVoid (s : State) (x : Send) (status : Nat) : State :=
  let x := { x with void := some status, open_ := [], retry := [] }
  s.sendMsg x (x.message s 9 status []) (.voidMsg x.id) x { x with retry := [0] }

/-- A run that ends without posting retracts every contribution it has started (R321). Those to its own shards are
discarded with it, without an event, for no port carried a VOID (log 16). -/
def State.voidRun (s : State) (job stepLo : Nat) : State :=
  let xs := s.fab.sends.filter (fun x => x.job == job && x.void.isNone && (x.txns.all (fun t => t.stepLo == stepLo)))
  let s := xs.foldl (fun s x => s.sendVoid x 0) s
  { s with fab := { s.fab with recvs := s.fab.recvs.filter (fun v =>
      !(v.job == job && v.stepLo == stepLo && v.own.isSome)) } }

/-- A VOID final of a contribution: beside a retract that has not completed it is a message of its own. -/
def State.sendFinal (s : State) (x : Send) : State :=
  if x.void.isNone || decide (x.state = .retracted) then s.sendVoid x 1
  else
    let y := { x with id := s.fab.nextSend }
    { s with fab := { s.fab with sends := s.fab.sends ++ [y], nextSend := s.fab.nextSend + 1 } }.sendVoid y 1

/-- A job that ends makes every unverified contribution of it final, those that a run has retracted among them (R321). -/
def State.voidJob (s : State) (job : Nat) : State :=
  let xs := s.fab.sends.filter (fun x => x.job == job && decide (x.void ≠ some 1))
  xs.foldl (fun s x => s.sendFinal x) s

/-- The countersigns of a run whose checks pass (Table 8-12 order 7). -/
def State.signRun (s : State) (job : Nat) : State :=
  let xs := s.fab.sends.filter (fun x => x.job == job && x.void.isNone && decide (x.state = .landed))
  xs.foldl (fun s x => s.sendCsgn x) s

/-! ### The received set (R322) -/

/-- A received contribution belongs to the step of a run. -/
def Recv.ofStep (x : Recv) (r : Run) : Bool := x.job == r.job && x.stepLo == r.step.toNat % 2 ^ 32

/-- Everything received, changed. -/
def State.mapRecvs (s : State) (f : Recv → Recv) : State :=
  { s with fab := { s.fab with recvs := s.fab.recvs.map f } }

/-- A byte of a space as the running step sees it. -/
def Run.seen (r : Run) (j : Job) (d space a : Nat) : Byte :=
  match space with
  | 0 => shGet (r.slot d).till (nthD Mem.empty j.tills d) a
  | 1 => shGet r.vault j.vault a
  | _ => shGet r.hbm j.hbm a

/-- A block that a run sees poisoned: by its own writes, else as posted. -/
def Run.seenPoison (r : Run) (j : Job) (d space b : Nat) : Bool :=
  match space with
  | 0 => shPoisoned (r.slot d).till (nthD Mem.empty j.tills d) b
  | 1 => shPoisoned r.vault j.vault b
  | _ => shPoisoned r.hbm j.hbm b

/-- The bytes that addends leave in one space of a run (R284, R286). -/
def addBytes (j : Job) (r : Run) (d sp : Nat) (fp32 : Bool) (ws : List (Nat × Byte)) : List (Nat × Nat × Byte) :=
  inSpace sp (atomWrites fp32 (fun a => r.seen j d sp a) ws)

/-- Blocks of a list of addends that are poisoned already and stay so (Table 9-9). -/
def addMarks (j : Job) (r : Run) (d sp : Nat) (ws : List (Nat × Byte)) : List (Nat × Nat) :=
  let bs := ws.foldl (fun l w => insertNat (w.1 / 64) l) []
  (bs.filter (fun b => r.seenPoison j d sp b)).map (fun b => (sp, b))

/-- The arrival token that a declared contribution signals: its COLL_DST in the sender's segment (R318). -/
def nthColl : List W128 → Nat → Option (Nat × Nat)
  | [], _ => none
  | w :: t, n =>
    if rOpcode w.toNat = 0x70 then
      (match n with
       | 0 => some (w.toNat, (nthD 0 t 0).toNat)
       | n + 1 => nthColl t n)
    else nthColl t n

/-- The record pair of a declared contribution: sender's logical core, template and ordinal. -/
def Job.collPair (j : Job) (template lcore ordinal : Nat) : Option (Nat × Nat) :=
  nthColl (segment (j.bin.stream lcore) template).2 ordinal

/-- Token that a received contribution signals. -/
def Job.collToken (j : Job) (template : Nat) (x : Recv) : Nat :=
  match j.collPair template x.lcore x.ordinal with
  | some p => if bit p.2 19 then 48 + bits p.2 18 15 else 0
  | none => 0

/-- The bytes that a received contribution fills in part (R318). -/
def Job.collEdges (j : Job) (template : Nat) (x : Recv) : List (Nat × Nat) :=
  match j.collPair template x.lcore x.ordinal with
  | some p => partialBytes (j.bin.entry (bits p.2 69 58)) p.1 p.2
  | none => []

/-- Bytes that a received contribution leaves in a run: written, beside the bits of its neighbours, or added to what
the run's view holds. -/
def landBytes (j : Job) (r : Run) (x : Recv) : List (Nat × Nat × Byte) :=
  if x.mode = 0 then
    let edges := j.collEdges r.template x
    x.landed.map (fun w => match look w.2.1 edges with
      | some k => (w.1, w.2.1, mergeByte k w.2.2 (r.seen j x.slot w.1 w.2.1))
      | none => w)
  else [0, 1, 2].flatMap (fun sp => addBytes j r x.slot sp (decide (x.mode = 2)) (ofSpace sp x.landed))

/-- The poison marks that it leaves there. -/
def landMarks (j : Job) (r : Run) (x : Recv) : List (Nat × Nat) :=
  x.marks.filterMap (fun m => if m.2.2 then some (m.1, m.2.1) else none)
    ++ (if x.mode = 0 then [] else [0, 1, 2].flatMap (fun sp => addMarks j r x.slot sp (ofSpace sp x.landed)))

/-- Put a received contribution's bytes into a run, with its arrival when it is complete. -/
def Run.land (r : Run) (j : Job) (x : Recv) (arrival : Nat) : Run :=
  let r := r.applyWrites x.slot (landBytes j r x) (landMarks j r x)
  if x.complete then r.arrive x.slot arrival else r

/-- A new run takes the received set: its bytes, and the arrivals of what has landed whole. They count as landed at the
run's start (R151, R322, R340). -/
def State.takeReceived (s : State) (j : Job) (r : Run) : Run :=
  (s.fab.recvs.filter (fun x => x.ofStep r && !x.voided)).foldl (fun r x => r.land j x (j.collToken r.template x)) r

/-- Answer a request with a status alone (Table 10-6). -/
def State.answer (s : State) (p : Nat) (t : Txn) (status : Nat) : State := s.complete p t status 0 []

/-- A countersign that was held for data which has gone completes with STALE (R303, Table 10-14; log 16). -/
def State.answerHeld (s : State) (v : Recv) : State :=
  match v.held with
  | some h => s.answer h.port h.txn 3
  | none => s

/-- Mark the received contributions whose bytes a record reads (R322). -/
def State.markRead (s : State) (r : Run) (d : Nat) (reads : List (Nat × Nat × Nat)) : State :=
  if s.fab.recvs.isEmpty then s
  else s.mapRecvs (fun x =>
    if x.ofStep r && !x.read && x.landed.any (fun w => reads.any (fun q =>
        decide (q.1 = w.1) && decide (q.2.1 ≤ w.2.1) && decide (w.2.1 < q.2.2) && (decide (w.1 ≠ 0) || x.slot == d)))
    then { x with read := true } else x)

/-- Byte ranges that a record reads, by space. -/
def Ctx.reads (c : Ctx) (r r2 : Nat) : List (Nat × Nat × Nat) :=
  let wk := (c.slot.wreg (bits r 87 87)).wK0
  let p := (c.job.bin.entry (bits r 35 24)).toNat
  (rects r r2 wk p).flatMap (fun x =>
    if x.write then []
    else
      let dsc := c.desc x.desc
      (rectRanges dsc x).map (fun q => (dSpace dsc, q)))

end Sys2Proof.Machine
end

