-- ==== Sys2Proof/Machine/Requests.lean ====
section
/-! DEFINITION. What the completion of a request does for the device that sent it, and the paths of transactions
that wait or pass through (R303, R304, R306, R307, R316, R320, R321, R328; logs 16, 17). -/

namespace Sys2Proof.Machine

/-! ### Contributions (R321) -/

/-- The run that a contribution belongs to has decided to post, or has posted (R321). -/
def State.sendDecided (s : State) (x : Send) : Bool :=
  match s.run x.job with
  | some r => decide (7 ≤ r.order) || x.txns.all (fun t => t.stepLo != r.step.toNat % 2 ^ 32)
  | none => true

/-- A transaction of a contribution is done: with the last one the contribution has landed, and one whose run is
decided is countersigned at once. -/
def State.contribLanded (s : State) (x : Send) (i : Nat) : State :=
  let x := { x with open_ := eraseNat i x.open_, retry := eraseNat i x.retry }
  if x.open_.isEmpty && decide (x.state = .streaming) then
    let x := { x with state := .landed }
    let s := s.setSend x
    if s.sendDecided x then s.sendCsgn x else s
  else s.setSend x

/-- A contribution that has not been withdrawn. -/
def State.liveSend (s : State) (id : Nat) : Option Send :=
  match s.send id with
  | some x => if x.void.isNone then some x else none
  | none => none

/-- A transaction of a contribution completes (R321). -/
def State.contribDone (s : State) (id i status : Nat) : State :=
  match s.liveSend id with
  | none => s
  | some x =>
    match status with
    | 0 => s.contribLanded x i
    | 2 => s.setSend { x with retry := insertNat i x.retry }
    | 6 => (s.stream id [i]).lockBreakJob x.job
    | _ => s

/-- A contribution streams again with the same ATTEMPT (R321, MISMATCH). -/
def State.restream (s : State) (x : Send) : State :=
  let all := List.range x.txns.length
  ((s.setSend { x with state := .streaming, open_ := all, retry := [] }).stream x.id all).lockBreakJob x.job

/-- A countersign completes (R321). -/
def State.csgnDone (s : State) (id status : Nat) : State :=
  match s.liveSend id with
  | none => s
  | some x =>
    match status with
    | 0 => s.dropSend id
    | 2 => s.setSend { x with state := .landed }
    | 4 => s.restream x
    | 6 => s.sendCsgn x
    | _ => s

/-- A VOID completes: RETRY_STEP and ABORT are sent again. Any other answer ends a final one; a retracted contribution
waits for the next run to stream it, or for its job's end, unless it streams again already (R303, R321). -/
def State.voidDone (s : State) (id status : Nat) : State :=
  match s.send id with
  | none => s
  | some x =>
    match status with
    | 2 => s.setSend { x with retry := [0] }
    | 6 => s.sendVoid x (x.void.getD 0)
    | _ =>
      if x.void = some 0 ∧ s.fab.sends.all (fun y => !x.sameAs y || decide (y.id ≤ x.id)) then
        s.setSend { x with state := .retracted }
      else s.dropSend id

/-- An entry of a message stream is delivered: the producer's HEAD passes it (R317). -/
def State.msgDone (s : State) (n : Nat) (k : W32) (status : Nat) : State :=
  match s.ring n with
  | some r => if status = 0 ∧ k = r.head then s.setRing n { r with head := k + 1 } else s
  | none => s

/-! ### Relayed accesses (R328) -/

/-- A relayed read completes at the host, with data or with Completer Abort. -/
def State.relayAnswer (s : State) (status : Nat) (v : W32) : State :=
  if status = 0 then { s with out := { s.out with lastRead := v } }
  else { s with out := { s.out with pcieAbort := s.out.pcieAbort + 1 } }

/-- Answered reads that no earlier write of the same member holds back, and what stays. -/
def releaseRelays : List Nat → List Relay → List (Nat × W32) × List Relay
  | _, [] => ([], [])
  | held, x :: t =>
    match x.read, x.answer with
    | true, some a =>
      if held.contains x.pos then
        let r := releaseRelays held t
        (r.1, x :: r.2)
      else
        let r := releaseRelays held t
        (a :: r.1, r.2)
    | rd, _ =>
      let r := releaseRelays (if rd then held else x.pos :: held) t
      (r.1, x :: r.2)

/-- Complete at the host what is released. -/
def State.relayPump (s : State) : State :=
  let r := releaseRelays [] s.tel.relays
  r.1.foldl (fun s a => s.relayAnswer a.1 a.2) { s with tel := { s.tel with relays := r.2 } }

/-- The answer of relayed access `id`: a read waits for the earlier writes of its member, a write is done. -/
def State.relayDone (s : State) (id status : Nat) (data : List Byte) : State :=
  let l := s.tel.relays
  let l := (l.filter (fun x => x.read || x.id != id)).map (fun x =>
    if x.id = id then { x with answer := some (status, BitVec.ofNat 32 (natAt data (x.off % 64) 4)) } else x)
  { s with tel := { s.tel with relays := l } }.relayPump

/-- Relay an access to a member; one that no port takes completes with Completer Abort, or is dropped. -/
def State.relay (s : State) (pos : Nat) (read : Bool) (off : Nat) (t : Txn) : State :=
  let id := s.tel.nextRelay
  let r := s.trySend t (.relay id)
  if r.2 then
    { r.1 with tel := { r.1.tel with relays := r.1.tel.relays ++ [⟨id, pos, read, off, none⟩], nextRelay := id + 1 } }
  else if read then s.relayAnswer 6 0 else s

/-- A relayed access is not answered within 1 ms: a read completes with Completer Abort, a write is dropped. -/
def State.relayExpired (s : State) (id : Nat) : State :=
  let read := s.tel.relays.any (fun x => x.id == id && x.read)
  let s := { s with tel := { s.tel with relays := s.tel.relays.filter (fun x => x.id != id) } }
  (if read then s.relayAnswer 6 0 else s).relayPump

/-! ### Completions -/

/-- A request completes with a status and data (Table 10-6). -/
def State.completeUse (s : State) (u : TagUse) (status : Nat) (data : List Byte) : State :=
  match u with
  | .contrib id i => s.contribDone id i status
  | .csgn id => s.csgnDone id status
  | .voidMsg id => s.voidDone id status
  | .msg n k => s.msgDone n k status
  | .entry n k t => s.entryDone n k t status
  | .relay id => s.relayDone id status data
  | .int | .host => s

/-- The outstanding tag of a number. -/
def Port.tagUse (q : Port) (g : Nat) : Option TagUse := (q.tags.find? (fun t => t.tag == g)).map (·.use_)

/-- A request of this device, and not a completion that it sends. -/
def State.ownRequest (s : State) (t : Txn) : Bool := t.src == s.deviceId && t.ttype != 5

/-- A tag of a port is freed; requests that waited take it (R304). -/
def State.freeTag (s : State) (p g : Nat) : State :=
  let q := s.port p
  s.setPort p ({ q with
    tags := q.tags.filter (fun t => t.tag != g)
    parked := q.parked.filter (fun t => t.tag != g || !s.ownRequest t) }.retag s.time)

/-! ### Forwarding (R307) -/

/-- Pass a transaction on; one with no usable port completes with ABORT, and a completion is lost (log 16). A port
of a partner without an identifier record carries no traffic of other devices (R326). -/
def State.forward (s : State) (inPort : Nat) (t : Txn) : State :=
  let out := if (s.port inPort).limited then none
    else (s.egress t.dst t.altOk).bind (fun p => if (s.port p).limited then none else some p)
  match out with
  | some p =>
    let u := s.setPort p ((s.port p).enqueue inPort t)
    if s.fwdEntry t.dst % 16 = p then u else u.lockBreakJob t.job
  | none => if t.ttype = 5 then s else s.complete inPort t 6 0 []

/-- A request of this device that waits at port `p` takes the path that R307 gives it now; with no usable port it
completes with ABORT. -/
def State.redirect (s : State) (p : Nat) (t : Txn) : State :=
  match (s.port p).tagUse t.tag with
  | none => s
  | some u =>
    match s.ownEgress t.dst t.altOk with
    | none => (s.freeTag p t.tag).completeUse u 6 []
    | some k =>
      if k = p then s.setPort p ((s.port p).send t)
      else ((s.freeTag p t.tag).sendReq t u).lockBreakJob t.job

/-- What waits at a port goes by the paths that R307 gives it now. -/
def State.reroutePort (s : State) (p : Nat) : State :=
  let q := s.port p
  let ts := q.parked
  let fs := q.fwdq.flatMap (fun e => e.2.map (fun t => (e.1 / 4, t)))
  fs.foldl (fun s x => s.forward x.1 x.2) (ts.foldl (fun s t =>
      if s.ownRequest t then s.redirect p t
      else if t.src = s.deviceId then
        (match s.egress t.dst t.altOk with
         | some k => s.setPort k ((s.port k).send t)
         | none => s)
      else s.forward p t)
    (s.setPort p { q with parked := [], fwdq := [] }))

/-- The forwarding table or a port has changed: transactions not yet forwarded follow it. -/
def State.rerouteAll (s : State) : State := (List.range 12).foldl (fun s p => s.reroutePort p) s

/-- A port goes down: its admission is lost, what waited there takes other paths, and the timing class may change
(R298, R307, R309, R366). -/
def State.portDown (s : State) (p : Nat) : State := ((s.setPort p (s.port p).goDown).reroutePort p).classEdge

end Sys2Proof.Machine
end

