-- ==== Sys2Proof/Machine/Demand.lean ====
section
/-! DEFINITION. What a job asks of the memories: the capacity checks of JOB_LOAD, of a vault group's
withdrawal and of the sparing reserve use it (R236, R262, R276, R277, R293; log 25). -/

namespace Sys2Proof.Machine

/-- Insert a byte range by its first address. -/
def insertRange (x : Nat × Nat) : List (Nat × Nat) → List (Nat × Nat)
  | [] => [x]
  | y :: t => if x.1 ≤ y.1 then x :: y :: t else y :: insertRange x t

/-- Bytes of the union of ranges that rise by their first address, past `from_`. -/
def unionLen (from_ : Nat) : List (Nat × Nat) → Nat
  | [] => 0
  | (a, b) :: t => (b - max a from_) + unionLen (max from_ b) t

/-- Bytes of the whole pages of `g` bytes that a list of ranges touches. -/
def pageBytes (g : Nat) (rs : List (Nat × Nat)) : Nat :=
  unionLen 0 ((rs.map (fun r => (r.1 / g * g, alignUp r.2 g))).foldl (fun l x => insertRange x l) [])

/-- The pages of `g` bytes that a list of ranges touches, rising. -/
def pagesOf (g : Nat) (rs : List (Nat × Nat)) : List Nat :=
  rs.foldl (fun l r =>
    (List.range ((r.2 - 1) / g + 1 - r.1 / g)).foldl (fun l i => insertNat (r.1 / g + i) l) l) []

/-- The part of a list of ranges between two addresses. -/
def clipRanges (lo hi : Nat) (rs : List (Nat × Nat)) : List (Nat × Nat) :=
  rs.filterMap (fun r => if max r.1 lo < min r.2 hi then some (max r.1 lo, min r.2 hi) else none)

/-- The regions of a binary's tensors in a space. -/
def Binary.regions (b : Binary) (space : Nat) : List (Nat × Nat) :=
  (List.range b.pool.length).filterMap (fun i =>
    if b.entryType i = 1 ∧ dSpace (b.entry i) = space then some (dBase (b.entry i), dEnd (b.entry i)) else none)

/-- The records of a template as numbers, each with the record after it, by logical core. -/
def pairs : List W128 → List (Nat × Nat)
  | [] => []
  | r :: t => (r.toNat, (nthD 0 t 0).toNat) :: pairs t

/-- The records of a template in a stream. -/
def Binary.recs (b : Binary) (l t : Nat) : List (Nat × Nat) := pairs (segment (b.stream l) t).2

/-- The first K index of the weight register that a pass of a segment uses: the latest load's (R105). -/
def wk0At (reg : Nat) : List (Nat × Nat) → Nat → Nat
  | [], cur => cur
  | (r, _) :: t, cur => wk0At reg t (if rOpcode r = 0x40 ∧ bits r 91 91 = reg then bits r 66 51 else cur)

/-- Rectangles that each record of a segment touches, by its index in the segment. -/
def Binary.segRects (b : Binary) (l t : Nat) : List (Nat × Rect) :=
  let ps := b.recs l t
  (List.range ps.length).flatMap (fun i =>
    let p := nthD (0, 0) ps i
    (rects p.1 p.2 (wk0At (bits p.1 87 87) (ps.take i) 0) (b.entry (bits p.1 35 24)).toNat).map (fun x => (i, x)))

/-- Byte ranges of a space that a template's records write. -/
def Binary.written (b : Binary) (t space : Nat) : List (Nat × Nat) :=
  (List.range b.lcores).flatMap (fun l => (b.segRects l t).flatMap (fun x =>
    let d := b.entry x.2.desc
    if x.2.write && decide (dSpace d = space) then rectRanges d x.2 else []))

/-- The largest demand of any template on till, vault and escrow. -/
def Binary.maxTill (b : Binary) : Nat :=
  (List.range b.templates).foldl (fun m t => max m (bits (b.stepEntry t) 95 80)) 0
def Binary.maxVault (b : Binary) : Nat :=
  (List.range b.templates).foldl (fun m t => max m (bits (b.stepEntry t) 79 64)) 0
def Binary.maxEscrow (b : Binary) : Nat :=
  (List.range b.templates).foldl (fun m t => max m (bits (b.stepEntry t) 127 96)) 0

/-- Till bytes of a job on each device logical core that it uses (R236). -/
def Job.tillUse (j : Job) : Nat := pageBytes 1024 (j.bin.regions 0) + 1024 * j.bin.maxTill
/-- Vault bytes of a job (R236). -/
def Job.vaultUse (j : Job) : Nat := pageBytes 4096 (j.bin.regions 1) + 4096 * j.bin.maxVault
/-- HBM bytes of a job, with the till images of slots that share a logical core (R236, R277). -/
def Job.hbmUse (j : Job) : Nat := pageBytes 1 (j.bin.regions 2) + (j.slots - 512) * 5 * 2 ^ 20

/-- The part of a list of vault ranges that lies on a base die (R262). -/
def onDie (b : Nat) (rs : List (Nat × Nat)) : List (Nat × Nat) := clipRanges (b * 2 ^ 27) (b * 2 ^ 27 + 2 ^ 27) rs

/-- Bytes of the largest vault shadow of a job that falls on a base die (R262). -/
def Job.dieShadow (j : Job) (b : Nat) : Nat :=
  (List.range j.bin.templates).foldl (fun m t =>
    max m (min (4096 * bits (j.bin.stepEntry t) 79 64) (pageBytes 4096 (onDie b (j.bin.written t 1))))) 0

/-- Vault bytes of a job on a base die: its program pages, and the largest shadow that falls there (R262). -/
def Job.dieUse (j : Job) (b : Nat) : Nat := pageBytes 4096 (onDie b (j.bin.regions 1)) + j.dieShadow b

/-- The sum of a count over a list. -/
def sumBy {α : Type} (f : α → Nat) : List α → Nat
  | [] => 0
  | a :: t => f a + sumBy f t

/-- Vault bytes that a base die still offers: 8 MiB less for each group withdrawn (R339). -/
def State.dieRoom (s : State) (b : Nat) : Nat := 2 ^ 27 - (s.die b).groupsOut.length * 2 ^ 23

/-- Jobs fit the vault of every base die. -/
def State.vaultFits (s : State) (js : List Job) : Bool :=
  decide (sumBy Job.vaultUse js ≤ sumBy s.dieRoom [0, 1, 2, 3])
    && (List.range 4).all (fun b => decide (sumBy (fun j => j.dieUse b) js ≤ s.dieRoom b))

/-- Jobs fit the HBM capacity offered to programs (R236, R292). -/
def hbmFits (room : Nat) (js : List Job) : Bool := decide (sumBy Job.hbmUse js ≤ room)

/-- Jobs fit every device logical core's till (R236). -/
def tillFits (js : List Job) : Bool :=
  (List.range 512).all (fun l =>
    decide (sumBy (fun j => if l < j.slots then j.tillUse else 0) js ≤ 4 * 2 ^ 20))

/-- 4 KiB pages of one step's HBM shadow, per pseudo-channel: none above half of a channel's share of 10 GB,
1,192 whole pages (R8, R264, R276). -/
def State.escrowSpread (s : State) (j : Job) : Bool :=
  (List.range j.bin.templates).all (fun t =>
    let ps := pagesOf 4096 (j.bin.written t 2)
    ps.all (fun p =>
      let c := s.channelOf (4096 * p)
      decide (countIf (fun q => decide (s.channelOf (4096 * q) = c)) ps ≤ 1192)))

/-- Escrow pages of a job's largest step fit with those of the others: 5 GB (R236, R276). -/
def escrowFits (js : List Job) : Bool := decide (sumBy (fun j => 1024 * j.bin.maxEscrow) js ≤ 5 * 10 ^ 9)

/-- Withdraw the degraded vault groups that the resident jobs leave room for (R339). -/
def State.withdrawVault (s : State) : State :=
  s.units.degraded.foldl (fun s k =>
    if k / 4096 = 3 then
      let p := k % 4096
      let d := s.die (p / 32)
      let t := s.setDie (p / 32) { d with groupsOut := insertNat (p % 32) d.groupsOut }
      if t.vaultFits s.jobs then
        ({ t with units := { t.units with degraded := eraseNat k t.units.degraded } }).markFenced 3 p
      else s
    else s) s

/-- The permanent action of a unit, which its flash summary takes at once; a vault group that it leaves degraded is
withdrawn as soon as the resident jobs fit (R339, R356). -/
def State.act (s : State) (utype punit cause : Nat) : State :=
  ((s.permanent utype punit cause).withdrawVault).summaryNow (unitKey utype punit)

end Sys2Proof.Machine
end

