-- ==== Sys2Proof/Machine/Jobs.lean ====
section
/-! DEFINITION. How a job ends, with what its end completes and frees; the commands that end one (R238, R246,
R250, R258, R321, R339; log 25). -/

namespace Sys2Proof.Machine

/-- The STEP_RUN at the head of the queue after one of its steps has posted. -/
def StepReq.advance (q : StepReq) (j : Job) (r : Run) : StepReq :=
  { q with
    template := j.bin.next r.template
    left := q.left.map (· - 1)
    posted := q.posted + 1
    locked := q.locked && r.timingLock && !r.lockBroken }

/-- A STEP_RUN has no step left: its count is done, or the chain returns to the host. -/
def StepReq.isDone (q : StepReq) : Bool := decide (q.left = some 0) || decide (q.template = 0xFFFF)

/-- RESULT0 of a STEP_RUN: the step counter of the job's last posted step; a free value where none has posted (R250;
log 25). -/
def Job.lastStep (j : Job) : Nat :=
  if j.everPosted then (j.step - 1).toNat else Config.noStep j.step0.toNat % 2 ^ 64

/-- The completion of a STEP_RUN; `last` is the step counter of the job's last posted step. Its flag says that every
step of the command ran under TIMING_LOCK with no lock break (R250, R368). -/
def StepReq.cpl (q : StepReq) (job status peer last : Nat) : Completion :=
  { opcode := 0x82, flags := b2n q.locked, job := job, cmdRing := q.ring
    cmdSeq := q.seq.toNat, record := 0, section_ := 0, status := status, result0 := last
    result1 := q.posted, ring := peer }

/-- Completion ring of a command ring (R248). -/
def State.peerOf (s : State) (ring : Nat) : Nat :=
  if ring = 0 then 1 else match s.ring ring with | some r => r.peerRing | none => 1

/-- A core's turn in a run, or its first slot. -/
def Run.coreSlot (r : Run) (p : Nat) : Option Slot :=
  match look p r.turns with
  | some d => r.slots[d]?
  | none =>
    match minBy turnKey ((List.range r.slots.length).filter (fun d => r.host d == p)) with
    | some d => r.slots[d]?
    | none => none

/-- Keep what every core of a run shows once it has ended (R470). -/
def State.keepSlots (s : State) (r : Run) : State :=
  { s with lastSlots := (r.hosts.foldl (fun l p => insertNat p l) []).foldl (fun l p =>
      match r.coreSlot p with
      | some x => put p x l
      | none => l) s.lastSlots }

/-- The job is no longer resident; what it queued for rings of JOB 0 stays queued, its own rings are freed. -/
def State.dropJob (s : State) (n : Nat) : State :=
  match s.job n with
  | none => s
  | some j =>
    let rings := s.rings.filter (fun x => x.2.job != n)
    let s := match s.run n with
      | some r => if r.order < 6 then s.keepSlots r else s
      | none => s
    let s := (s.fab.recvs.filter (fun x => x.job == n)).foldl (fun s x => s.answerHeld x) s
    let s := { s with
      jobs := s.jobs.filter (fun k => k.num != n)
      runs := s.runs.filter (fun r => r.job != n)
      rings := rings
      queued0 := s.queued0 ++ j.queued.filter (fun (c : Completion) => (look c.ring rings).isSome)
      seqTab := s.seqTab.filter (fun x => x.2.job != n)
      batches := s.batches.filter (fun b => b.job != n)
      wback := s.wback.filter (fun w => w.job != n)
      pageMap := s.pageMap.filter (fun e => e.job != n)
      fab := { s.fab with recvs := s.fab.recvs.filter (fun x => x.job != n) } }
    s.withdrawVault.classEdge.drainCpl

/-- The STEP_RUNs of a job as its end finds them: the first of them ran whole if its last step is the one that runs, which
counts though it does not post; no other did (R368). -/
def State.endQueue (s : State) (j : Job) : List StepReq :=
  let cut (q : StepReq) : StepReq := { q with locked := false }
  match s.run j.num, j.queue with
  | some r, q :: t =>
    { q with locked := (q.advance j r).locked && (q.advance j r).isDone } :: t.map cut
  | _, l => l.map cut

/-- What a job's end completes: its unverified contributions become final voids, and every command that still waits on
it completes. -/
def State.closeJob (s : State) (n status : Nat) : State :=
  match s.job n with
  | none => s
  | some j =>
    let s := s.voidJob n
    let s := (s.endQueue j).foldl (fun s q => s.pushCpl (q.cpl n status (s.peerOf q.ring) j.lastStep)) s
    let s := j.snaps.foldl (fun s q => s.finishLate ⟨q.ring, BitVec.ofNat 32 q.seq⟩ 0x03 n 0x0402 0 0 0) s
    match j.ending with
    | some e => s.finishLate ⟨e.1, BitVec.ofNat 32 e.2⟩ 0x04 n 0 0 0 0
    | none => s

/-- End a job: its shadow is discarded, what waited on it completes, and its rings, sequences and regions are
released. -/
def State.endJob (s : State) (n status : Nat) : State := (s.closeJob n status).dropJob n

/-- A program fault: its record, then the job's end (R258, Table 8-22). -/
def State.programFault (s : State) (n code operand : Nat) (e : Evt) : State :=
  (s.raise { e with code := 0x10, action := 9, w6 := code, w7 := operand }).endJob n code

end Sys2Proof.Machine
end

