-- ==== Sys2Proof/Machine/Stage.lean ====
section
/-! DEFINITION. Arrival-dependent constructs, and the stage of the device-control page group (R14, R124, R151,
R192, R285, R324, R360, R362). -/

namespace Sys2Proof.Machine

/-- A record that is an arrival-dependent construct (Table 12-3). -/
def varyingRecord (r : Nat) : Bool :=
  let op := rOpcode r
  (decide (op = 0x23)) || (decide (op = 0x5C) && bit r 87 && decide (bits r 91 88 = 0))
    || (decide (0x60 ≤ op) && decide (op ≤ 0x63) && decide (bits r 70 55 = 0))

/-- MODE of a collective plan entry (Table 10-13). -/
def collMode (e : W128) : Nat := bits e.toNat 123 122
/-- TIMER of a batch rule (Table 8-20). -/
def batchTimerOf (e : W64) : Nat := bits e.toNat 56 41

/-- A binary holds an arrival-dependent construct (R360). -/
def Binary.varies (b : Binary) : Bool :=
  b.streams.any (fun st => st.any (fun r => varyingRecord r.toNat))
    || b.coll.any (fun e => decide (collMode e = 2))
    || b.batch.any (fun e => decide (batchTimerOf e ≠ 0))

/-- Table 12-4: a stage that the resident jobs refuse. -/
def State.stageRefused (s : State) (proof : Bool) : Bool :=
  if proof = s.dev.proofEn then false
  else if proof then s.jobs.any (fun j => j.bin.varies)
  else s.jobs.any (fun j => j.bin.proofReq)

/-- Apply the staged PROOF_EN and TIMING_LOCK, or discard the stage (R14, R362). -/
def State.applyStage (s : State) : State :=
  match s.dev.stage with
  | none => s
  | some (p, t) =>
    if s.stageRefused p then
      ({ s with dev := { s.dev with stage := none, proofRefused := true } }).infoEvent 0 0 none
    else { s with dev := { s.dev with stage := none, proofEn := p, timingLock := t } }.settle

end Sys2Proof.Machine
end

