-- ==== Sys2Proof/Machine/Signed.lean ====
section
/-! DEFINITION. Signature blocks, certificates and signers; the measurement registers; the running image; the
exchange of die banks (R193, R400, R404, R406 to R411, R413). -/

namespace Sys2Proof.Machine

/-! ### Keys -/

/-- The bytes of a digest. -/
def digestBytes (d : BitVec 384) : List Byte := leBytes 48 d.toNat

/-- KEY_ID of a key pair: the first 8 bytes of its SHA-384 (Table 14-4). -/
def keyIdOf (k : List Byte × List Byte) : W64 := (Config.sha384 (k.1 ++ k.2)).setWidth 64

/-- The 57-byte message that a signature block signs (R406). -/
def sigMessage (cls : Nat) (covered : List Byte) : List Byte :=
  leBytes 8 0x314749532D4B5354 ++ [BitVec.ofNat 8 cls] ++ digestBytes (Config.sha384 covered)

/-- Bytes of a signature block. -/
def sigLen : Nat := 3392

/-- The signature block that ends an item, and the bytes it covers. -/
def sigOf (item : List Byte) : List Byte := bytesAt item (item.length - sigLen) sigLen
def coveredOf (item : List Byte) : List Byte := item.take (item.length - sigLen)

/-- KEY_ID that an item's signature block names. -/
def sigKeyId (item : List Byte) : W64 := BitVec.ofNat 64 (natAt (sigOf item) 8 8)

/-- A signer: its class (SIGNER of Table 14-4) and its key pair, Ed25519 and ML-DSA-65. -/
structure Signer where
  cls : Nat
  pair : List Byte × List Byte
deriving DecidableEq, Repr

/-- Verify an item against the signers that Table 14-5 allows: 0, SIGNATURE or SIGNER, the last also where SIGNER and
KEY_ID name different classes (R407, Table 14-9). -/
def verifyItem (keys : List Signer) (cls : Nat) (item : List Byte) : Nat :=
  let b := sigOf item
  if item.length < sigLen ∨ natAt b 0 4 ≠ 0x53494742 ∨ natAt b 5 1 ≠ cls then 0x0301
  else match keys.find? (fun k => decide (k.cls = natAt b 4 1) && keyIdOf k.pair == sigKeyId item) with
    | none => 0x0302
    | some k =>
      let m := sigMessage cls (coveredOf item)
      if Config.edVerify k.pair.1 m (bytesAt b 16 64) && Config.mldsaVerify k.pair.2 m (bytesAt b 80 3309) then 0 else 0x0301

/-! ### Certificates (R410) -/

/-- Keys of a certificate (R410), and the two roots. -/
def certKeys (c : List Byte) : List Byte × List Byte := (bytesAt c 16 32, bytesAt c 48 1952)
def rootPairs : List Signer := [⟨1, Config.rootKeys 0⟩, ⟨1, Config.rootKeys 1⟩]

/-- The form of a certificate of a role: length, MAGIC, ROLE, reserved bytes 0 (DEDUCED; log 12), and SERIAL 0 unless it
is a device's (R410). -/
def certForm (role : Nat) (c : List Byte) : Bool :=
  decide (c.length = 5440) && decide (natAt c 0 4 = 0x43455254) && decide (natAt c 4 1 = role)
    && (bytesAt c 5 3 ++ bytesAt c 2000 48).all (· == 0) && (decide (role = 2) || decide (natAt c 8 8 = 0))

/-- A certificate of a Tsuvik signing key that a root issued. -/
def isSigningCert (c : List Byte) : Bool := certForm 1 c && decide (verifyItem rootPairs 6 c = 0)

/-- Tsuvik's signing keys whose certificates are in the certificate area. -/
def State.tsuvikKeys (s : State) : List Signer :=
  (s.flash.certs.filter isSigningCert).map (fun c => ⟨1, certKeys c⟩)

/-- Serial number of the manufacture record in flash. -/
def Flash.serial (f : Flash) : Nat := match look 1 f.cfg with | some r => r.body.serial | none => 0

/-- The device certificate: ROLE device identity, with this module's serial number (DEDUCED; log 12), issued by a
signing key. -/
def State.deviceCert (s : State) : Option (List Byte) :=
  s.flash.certs.find? (fun c =>
    certForm 2 c && decide (natAt c 8 8 = s.flash.serial) && decide (verifyItem s.tsuvikKeys 6 c = 0))

/-- The certificates that admission sends: the device's, and that of the signing key that issued it (R410). -/
def State.ownCerts (s : State) : List (List Byte) :=
  match s.deviceCert with
  | some c => c :: (s.flash.certs.find? (fun k => isSigningCert k && keyIdOf (certKeys k) == sigKeyId c)).toList
  | none => []

/-! ### Identity (R409) -/

/-- "TSK-ID-ED25519" and "TSK-ID-MLDSA65" in ASCII. -/
def infoEd : List Byte := [0x54, 0x53, 0x4B, 0x2D, 0x49, 0x44, 0x2D, 0x45, 0x44, 0x32, 0x35, 0x35, 0x31, 0x39]
def infoMldsa : List Byte := [0x54, 0x53, 0x4B, 0x2D, 0x49, 0x44, 0x2D, 0x4D, 0x4C, 0x44, 0x53, 0x41, 0x36, 0x35]

/-- The Ed25519 private key and the ML-DSA-65 seed that the boot ROM derives from the manufacture record's helper data. -/
def Flash.identityKeys (f : Flash) : List Byte × List Byte :=
  let secret := Config.pufSecret (match look 1 f.cfg with | some r => r.body.helper | none => [])
  (bytesAt (Config.hkdf secret infoEd) 0 32, bytesAt (Config.hkdf secret infoMldsa) 0 32)

/-- The public key pair of a private key and a seed. -/
def publicKeys (k : List Byte × List Byte) : List Byte × List Byte := (Config.edPublic k.1, Config.mldsaPublic k.2)

/-- The device's own signatures over a message, as the 3,373 bytes that Table 14-4 places from byte 16: Ed25519, then
ML-DSA-65. -/
def State.deviceSign (s : State) (msg : List Byte) : List Byte :=
  match s.su.keys with
  | some k => bytesAt (Config.edSign k.1 msg) 0 64 ++ bytesAt (Config.mldsaSign k.2 msg) 0 3309
  | none => []

/-! ### Records in effect -/

/-- Serial number of the manufacture record. -/
def State.serial (s : State) : Nat := match look 1 s.su.cfg with | some r => r.body.serial | none => 0

/-- The owner key pair in effect on this module (Table 14-3). -/
def State.ownerKeys (s : State) : Option (List Byte × List Byte) :=
  match look 4 s.su.cfg with
  | some r => (match r.body.scope with
    | some n => if n = s.serial then r.body.owner else none
    | none => r.body.owner)
  | none => none

/-- Signers of an item that Tsuvik or the owner may sign. -/
def State.eitherKeys (s : State) : List Signer :=
  s.tsuvikKeys ++ (match s.ownerKeys with | some k => [⟨2, k⟩] | none => [])

/-- The image that a slot holds, and the image that runs. -/
def Flash.image (f : Flash) (slot : Bool) : Option FwImage := if slot then f.imgB else f.imgA
def Flash.setImage (f : Flash) (slot : Bool) (i : Option FwImage) : Flash :=
  if slot then { f with imgB := i } else { f with imgA := i }
def State.running (s : State) : FwImage := (s.flash.image s.su.slot).getD FwImage.shipped

/-! ### Measurement (R411) -/

/-- extend(M, kind, item) of R411. -/
def extendBy (m : BitVec 384) (kind : Nat) (item : BitVec 384) : BitVec 384 :=
  Config.sha384 (digestBytes m ++ [BitVec.ofNat 8 kind] ++ digestBytes item)

/-- Extend M_RUN; the log keeps every extension. -/
def State.extendRun (s : State) (kind : Nat) (item : BitVec 384) : State :=
  { s with su := { s.su with
    mRun := extendBy s.su.mRun kind item
    mCount := s.su.mCount + 1
    mLog := s.su.mLog ++ [⟨BitVec.ofNat 8 kind, item, s.time⟩] } }

/-- Extend M_BOOT while the device starts. -/
def State.extendBoot (s : State) (kind : Nat) (item : BitVec 384) : State :=
  { s with su := { s.su with
    mBoot := extendBy s.su.mBoot kind item
    mLog := s.su.mLog ++ [⟨BitVec.ofNat 8 kind, item, s.time⟩] } }

/-! ### Die banks (R193) -/

/-- Digest of the die bank record in effect, 0 without one. -/
def State.dieRecDigest (s : State) : BitVec 384 := match s.flash.dieRec with | some r => r.digest | none => 0

/-- A core exchanges its banks; the switch is recorded and measured (Table 6-13 orders 6 and 7, R411). -/
def State.switchBank (s : State) (p job step : Nat) : State :=
  let c := s.core p
  let s := s.setCore p { c with
    active := !c.active, pending := false, scheduled := false, switches := c.switches + 1 }
  (s.raise { code := 0x1D, info := true, job := job, step := step, utype := 1, punit := p }).extendRun 5 s.dieRecDigest

/-- A core hosts work of a resident job: a slot of the running placement or of a run. -/
def State.coreHasJob (s : State) (p : Nat) : Bool :=
  s.runs.any (fun r => r.hosts.contains p)
    || s.jobs.any (fun j => (List.range (min 512 j.slots)).any (fun l => nthD noHost s.lmap l == p))

end Sys2Proof.Machine
end

