-- ==== Sys2Proof/Machine/Admission.lean ====
section
/-! DEFINITION. Training, admission, bindings and folio claims (R298, R309 to R312, R326; logs 12, 16). -/

namespace Sys2Proof.Machine

/-! ### Training (Table 10-8) -/

/-- A fabric event of a port, with the identifier that it names, an order or counter, a contribution and a
countersign. -/
def fabricEvt (code p id order contrib w7 : Nat) : Evt :=
  { code := code, utype := 7, punit := p, w6 := id % 65536 * 2 ^ 48 + p * 2 ^ 40 + order % 256 * 2 ^ 32 + contrib % 65536
    w7 := w7 }

/-- The width of a set of healthy lanes; 0 takes the port down. -/
def widthOf (lanes : Byte) : Nat :=
  let n := countIf (fun i : Nat => lanes.getLsbD i) (List.range 8)
  if n = 8 then 8 else if 6 ≤ n then 6 else if 4 ≤ n then 4 else 0

/-- The port attempts training: enabled, and neither in service nor quarantined; from order 6 of start-up on, whose first
attempts run while PHASE is 5 (R401). -/
def State.trainable (s : State) (p : Nat) : Bool :=
  let q := s.port p
  s.jexlet p && (s.page (0x10 + p)).enable && (decide (s.su.phase = 5) || decide (s.su.phase = 8))
    && (decide (q.state = .down) || decide (q.state = .training) || decide (q.state = .authFail))

/-- The device's HELLO of an attempt (Table 10-9, order 1): its identifier and whether a record gives it, its place in
the folio, a nonce, its security version, its certificates, whether it asks for encryption, and its key shares. -/
def State.ownHello (s : State) (attempt : Nat) (enc : Bool) : List Byte :=
  Config.helloBytes (look 2 s.su.cfg).isSome (BitVec.ofNat 16 s.deviceId) s.mod.folioPos s.su.teller
    (Config.nonce attempt) (BitVec.ofNat 32 s.running.head.svn)
    s.ownCerts enc (Config.kemShare attempt) (Config.dhShare attempt)

/-- The fleet policy record: the floor for partners, and whether encryption is required. -/
def State.fleetFloor (s : State) : Nat := match look 3 s.su.cfg with | some r => r.body.floor | none => 0
def State.fleetEncrypt (s : State) : Bool := match look 3 s.su.cfg with | some r => r.body.encrypt | none => false

/-- A trained port enters AUTH and sends its HELLO, with a nonce of its own. -/
def State.enterAuth (s : State) (p : Nat) (lanes : Byte) : State :=
  let q := (s.port p).goDown
  let enc := q.encReq || s.fleetEncrypt
  let own := s.ownHello s.freeCtr enc
  { s with freeCtr := s.freeCtr + 1 }.setPort p
    ({ q with
      state := .auth, lanes := lanes, width := widthOf lanes, attempt := s.freeCtr, sent := own, sentEnc := enc
      floor := s.fleetFloor }.sendMgmt
        (.hello own))

/-- The lanes that each end finds healthy give the width, or the port stays DOWN (R298, R309). -/
def State.train (s : State) (port : Nat) (lanes partner : BitVec 8) : State :=
  if s.trainable port then
    let both := lanes &&& partner
    if widthOf both = 0 then (s.setPort port { (s.port port).goDown with lanes := both }).classEdge
    else (s.enterAuth port both).classEdge
  else s

/-- TRAINING (R309). -/
def execTraining (port : Nat) (lanes partner : BitVec 8) (s : State) : Host.Outcome State Fault Refusal :=
  .next (s.train port lanes partner)

/-! ### Admission (Table 10-9) -/

/-- Admission fails: AUTH_FAIL, with an event that names the order and the claimed identifier (R310, R311). -/
def State.failAuth (s : State) (p code order id : Nat) : State :=
  (s.setPort p { (s.port p).goDown with state := .authFail }).raise (fabricEvt code p id order 0 0)

/-- Both chains of a HELLO verify: a device certificate issued by a signing key that a root certified (R410). -/
def certsOk (h : Hello) : Bool :=
  isSigningCert h.issuer && certForm 2 h.cert && decide (verifyItem [⟨1, certKeys h.issuer⟩] 6 h.cert = 0)

/-- An identifier that is bound to another digest: in the binding table, or as this device's own (R311). -/
def State.bindConflict (s : State) (id : Nat) (digest : W64) : Bool :=
  (match look id s.fab.binding with | some d => d != digest | none => false)
    || ((look 2 s.su.cfg).isSome && decide (id = s.deviceId) && (digest != s.su.keyId))

/-- This device's folio table names a partner that has no identifier record (R326). -/
def State.folioNames (s : State) (h : Hello) : Bool :=
  s.su.teller && (lookD FolioEnt.reset h.pos.toNat s.tel.folio).valid

/-- A HELLO is checked: 0, or the order that fails. The floor is that of the policy in effect when the attempt began
(R405). -/
def State.helloOrder (s : State) (p : Nat) (h : Hello) : Nat :=
  if !certsOk h then 2
  else if h.svn.toNat < (s.port p).floor then 3
  else if h.record && s.bindConflict h.id.toNat (keyIdOf (certKeys h.cert)) then 4
  else if !h.record && !s.folioNames h then 4
  else 0

/-- The transcript: SHA-384 of both HELLO messages, the lower identifier's first (R310). -/
def State.transcript (s : State) (p : Nat) (h : Hello) : List Byte :=
  let own := (s.port p).sent
  digestBytes (Config.sha384 (if s.deviceId < h.id.toNat then own ++ h.bytes else h.bytes ++ own))

/-- The port once its RESPONSE has gone out: both signatures over the transcript, with the ML-KEM-768 ciphertext where
this end has the lower identifier and the port encrypts (Table 10-9, order 5). -/
def State.respond (s : State) (p : Nat) (h : Hello) : Port :=
  let q := s.port p
  let c := if s.deviceId < h.id.toNat ∧ (q.sentEnc || h.enc) = true then some (Config.kemSeal q.attempt h.kem) else none
  { q with hello := some h, cipher := c }.sendMgmt
    (.response (s.deviceSign (s.transcript p h)) (match c with | some x => x.1 | none => []))

/-- A partner's HELLO that passes is answered with a RESPONSE (R310, orders 2 to 5). Without IDENTITY_OK no port leaves
AUTH: no message and no timeout ends its attempt (R409, DEDUCED; log 12). -/
def State.greet (s : State) (port : Nat) (hello : Hello) : State :=
  let q := s.port port
  if s.su.identityOk = true ∧ q.state = .auth ∧ q.hello = none then
    let o := s.helloOrder port hello
    if o = 0 then s.setPort port (s.respond port hello)
    else (s.failAuth port (if o = 4 ∧ hello.record = true then 0x1B else 0x1A) o hello.id.toNat).classEdge
  else s

/-- HELLO (R310). -/
def execHello (port : Nat) (hello : Hello) (s : State) : Host.Outcome State Fault Refusal := .next (s.greet port hello)

/-- Both signatures of a RESPONSE verify over the transcript. -/
def State.responseOk (s : State) (p : Nat) (h : Hello) (sigs : Sigs) : Bool :=
  let k := certKeys h.cert
  let t := s.transcript p h
  Config.edVerify k.1 t sigs.ed && Config.mldsaVerify k.2 t sigs.mldsa

/-- The admitted ports but one, each sent a management message. -/
def State.tellOthers (s : State) (p : Nat) (m : Mgmt) : State :=
  ((List.range 12).filter (fun k => k != p && s.admitted k)).foldl (fun s k => s.setPort k ((s.port k).sendMgmt m)) s

/-- A new binding is entered, and forwarded once to the other admitted partners (R311). -/
def State.bind (s : State) (p id : Nat) (digest : W64) : State :=
  if (look id s.fab.binding).isSome then s
  else
    { s with fab := { s.fab with binding := put id digest s.fab.binding } }.tellOthers p
      (.binding (BitVec.ofNat 16 id) digest)

/-- Send the folio claim of a position to the member, where it is an admitted partner (log 16). -/
def State.sendClaim (s : State) (pos : Nat) (id : BitVec 16) : State :=
  match (List.range 12).find? (fun p => s.admitted p && decide ((s.port p).partner = id)) with
  | some p => s.setPort p ((s.port p).sendMgmt (.claim pos))
  | none => s

/-- A teller claims the positions whose member has become its partner (R326). -/
def State.claimAll (s : State) (id : BitVec 16) : State :=
  (s.tel.folio.filter (fun e => e.2.valid && !e.2.claimed && decide (e.2.id = id))).foldl
    (fun s e => s.sendClaim e.1 id) s

/-- The ML-KEM-768 secret of a port: that of the ciphertext which the end with the lower identifier sent. -/
def Port.kemSecret (q : Port) (cipher : List Byte) : List Byte :=
  match q.cipher with
  | some x => x.2
  | none => Config.kemOpen q.attempt cipher

/-- The port of an admitted partner: its credits, and where it encrypts its salt and its keys, one for each direction
(R301, R312). -/
def State.admittedPort (s : State) (p : Nat) (h : Hello) (cipher : List Byte) : Port :=
  let q := s.port p
  let low := decide (s.deviceId < h.id.toNat)
  let t := s.transcript p h
  let kem := q.kemSecret cipher
  let dh := Config.dhSecret q.attempt h.x25519
  let enc := q.sentEnc || h.enc
  { q with
    state := .admitted, partner := h.id, enc := enc, credits := [24, 24, 16], granted := [24, 24, 16]
    keyTx := if enc then Config.sessionKey kem dh t low else 0
    keyRx := if enc then Config.sessionKey kem dh t (!low) else 0
    salt := if enc then Config.sessionSalt kem dh t else 0
    countTx := 0, countRx := 0, limited := !h.record }

/-- What was kept for host memory goes out once the teller is reached (R306, R329). -/
def State.hostAgain (s : State) : State := if s.reachHost then s.hostResend.drainCpl else s

/-- The port is admitted: its partner is bound and claimed, and what waited goes out (R307, R310 order 7). -/
def State.admitPort (s : State) (p : Nat) (h : Hello) (cipher : List Byte) : State :=
  let s := s.setPort p (s.admittedPort p h cipher)
  let s := if h.record then s.bind p h.id.toNat (keyIdOf (certKeys h.cert)) else s
  let s := if s.su.teller && decide (7 ≤ s.su.phase) then s.claimAll h.id else s
  s.rerouteAll.hostAgain.classEdge

/-- A partner's RESPONSE (R310, orders 6 and 7), with IDENTITY_OK (R409). -/
def State.answered (s : State) (port : Nat) (sigs : Sigs) : State :=
  match s.su.identityOk, (s.port port).state, (s.port port).hello with
  | true, .auth, some h =>
    if s.responseOk port h sigs then s.admitPort port h sigs.cipher
    else (s.failAuth port 0x1A 6 h.id.toNat).classEdge
  | _, _, _ => s

/-- RESPONSE (R310). -/
def execResponse (port : Nat) (sigs : Sigs) (s : State) : Host.Outcome State Fault Refusal := .next (s.answered port sigs)

/-- An admission fails or times out at an order, with IDENTITY_OK (R409, R310). -/
def State.giveUp (s : State) (port order : Nat) : State :=
  let q := s.port port
  if s.su.identityOk = true ∧ q.state = .auth then
    (s.failAuth port 0x1A order (match q.hello with | some h => h.id.toNat | none => 0)).classEdge
  else s

/-- AUTH_FAIL (R310). -/
def execAuthFail (port order : Nat) (s : State) : Host.Outcome State Fault Refusal := .next (s.giveUp port order)

/-- A port's first training and admission attempt, to its end (order 6 of Table 14-1). -/
def State.firstAttempt (s : State) (a : PortAttempt) : State :=
  let s := s.train a.port a.lanes a.partner
  let s := match a.hello with
    | some h => s.greet a.port h
    | none => s
  let s := match a.sigs with
    | some g => s.answered a.port g
    | none => s
  s.giveUp a.port a.late

/-- BINDING_FORWARD (R311): entered and forwarded, or refused with ID_CONFLICT. -/
def execBindingForward (port : Nat) (id : BitVec 16) (digest : W64) (s : State) : Host.Outcome State Fault Refusal :=
  if s.admitted port then
    (if s.bindConflict id.toNat digest then .next (s.raise (fabricEvt 0x1B port id.toNat 0 0 0))
     else .next (s.bind port id.toNat digest))
  else .next s

/-! ### Folio claims (R326) -/

/-- A member takes a claim of its position that no other teller holds. -/
def State.claimOk (s : State) (pos : Nat) (teller : BitVec 16) : Bool :=
  decide (pos = s.mod.folioPos.toNat)
    && (match s.fab.claim with | some t => t == teller | none => true)

/-- A warm reset of the teller that holds the claim has ended it. -/
def State.endClaim (s : State) : State := { s with fab := { s.fab with claim := none } }

/-- The reply to a claim goes back to the teller. -/
def State.replyClaim (s : State) (p : Nat) (ok : Bool) : State :=
  s.setPort p ((s.port p).sendMgmt (.claimReply ok))

/-- A member receives a claim: held, or refused and reported. -/
def State.takeClaim (s : State) (p pos : Nat) (teller : BitVec 16) : State :=
  if s.claimOk pos teller then
    ({ s with fab := { s.fab with claim := some teller } }.replyClaim p true).hostAgain
  else (s.replyClaim p false).infoEvent 0 0 (some 5)

/-- A teller receives a member's answer, which names the teller that holds the position (log 16). -/
def State.claimAnswer (s : State) (pos : Nat) (holder : BitVec 16) : State :=
  let e := lookD FolioEnt.reset pos s.tel.folio
  if !e.valid then s
  else
    let ok := decide (holder.toNat = s.deviceId)
    let s := { s with tel := { s.tel with folio := put pos { e with claimed := ok, refused := !ok } s.tel.folio } }
    if ok then s else s.infoEvent 0 0 (some 5)

/-- FOLIO_CLAIM (R326). The spec does not say how a member learns of its teller's warm reset: `released` says that it
has happened (DESIGN CHOICE; log 16). -/
def execFolioClaim (port pos : Nat) (teller : FolioClaim) (s : State) : Host.Outcome State Fault Refusal :=
  if !s.admitted port then .next s
  else if s.su.teller then .next (s.claimAnswer pos teller.teller)
  else .next ((if teller.released then s.endClaim else s).takeClaim port pos teller.teller)

end Sys2Proof.Machine
end

