-- ==== Sys2Proof/Machine/Assay.lean ====
section
/-! DEFINITION. Assays: which core of a region is next, when it starts, what its runs decide (R381 to R388,
Tables 13-4 to 13-7, R456; log 29). -/

namespace Sys2Proof.Machine

/-! ### Installed sets -/

/-- The installed assay set of an identifier. -/
def Flash.setById (f : Flash) (id : Nat) : Option AssaySet := (f.assay.find? (fun x => x.2.setId == id)).map (·.2)

/-- Identifiers of the installed sets that `p` takes, ascending. -/
def Flash.setIds (f : Flash) (p : AssaySet → Bool) : List Nat :=
  f.assay.foldl (fun l x => if p x.2 then insertNat x.2.setId l else l) []

/-- The first set of a list that is still installed, and the rest. -/
def takeSet (f : Flash) : List Nat → Option AssaySet × List Nat
  | [] => (none, [])
  | i :: t => match f.setById i with
    | some x => (some x, t)
    | none => takeSet f t

/-- The next set of an assay, and those after it: a rotation takes no version that was installed since its pass began
(R380). -/
def State.nextSet (s : State) (j : AssayJob) : Option AssaySet × List Nat :=
  takeSet s.flash (if j.why = .rotation then j.ids.filter (fun i => !s.asy.late.contains i) else j.ids)

/-! ### Requests -/

/-- The assay state, replaced. -/
def State.setAsy (s : State) (a : AssayState) : State := { s with asy := a }

def State.dropAssay (s : State) (j : AssayJob) : State :=
  s.setAsy { s.asy with jobs := delFirst (fun x => decide (x = j)) s.asy.jobs }

def State.putAssay (s : State) (j k : AssayJob) : State :=
  s.setAsy { s.asy with jobs := updFirst (fun x => decide (x = j)) (fun _ => k) s.asy.jobs }

/-- A job of a request has ended: its FLAGS count, and with the last one the request completes (R386). -/
def State.endAssay (s : State) (j : AssayJob) (flags : Nat) : State :=
  let s := s.dropAssay j
  match j.why with
  | .request n =>
    let reqs := s.asy.reqs.map (fun q => if q.stamp == n then { q with flags := max q.flags flags } else q)
    let more := s.asy.jobs.any (fun k => decide (k.why = .request n))
    let s := s.setAsy { s.asy with reqs := if more then reqs else reqs.filter (fun q => q.stamp != n) }
    if more then s
    else match reqs.find? (fun q => q.stamp == n) with
      | some q => s.finishLate q.cmd 0x0E 0 0 q.flags 0 0
      | none => s
  | _ => s

/-! ### Units -/

/-- A core, or its region, is a suspect in a pending recount (R347, Table 13-7). -/
def State.suspectPending (s : State) (p : Nat) : Bool :=
  let of (u n : Nat) : Bool := (u == 1 && n == p) || (u == 2 && n == p / 18)
  s.runs.any (fun r => r.suspects.any (fun x => of x.utype x.punit && x.verdict == 0)
    || r.events.any (fun e => e.recount && of e.utype e.punit))

/-- A core hosts slots of a run, or is a provisional host. -/
def State.heldByRun (s : State) (p : Nat) : Bool :=
  s.runs.any (fun r => r.hosts.contains p) || s.jobs.any (fun j => j.prov.any (fun x => x.2 == p))

/-- A healthy spare of a core's region, other than the core. -/
def State.spareFor (s : State) (p : Nat) : Option Nat :=
  (s.healthyIn (p / 18)).find? (fun q => q != p && hostedBy s.lmap q == 0 && !s.heldByRun q)

/-- Return a core to service as a healthy spare (R456, R194). -/
def State.unfenceCore (s : State) (p : Nat) : State :=
  let k := unitKey 1 p
  let s := { s with units := { s.units with
    fenced := eraseNat k s.units.fenced, made := eraseNat p s.units.made, degraded := eraseNat k s.units.degraded } }
  let s := (s.setSummary k { s.summaryOf k with state := 0 }).summaryNow k
  ((s.coreReset p).matchBanks p).classEdge

/-! ### Turns of a region -/

/-- The assay that a region serves next: one core at a time, on-demand requests first, suspects wait
(R383, Table 13-7); with ROT_EN 0 the rotation ends with the cores under assay (R384). -/
def State.assayTurn (s : State) (r : Nat) : Option AssayJob :=
  if s.asy.jobs.any (fun j => j.started && j.core / 18 == r) then none
  else
    let ws := s.asy.jobs.filter (fun j => j.core / 18 == r && !s.suspectPending j.core
      && (decide (j.why ≠ .rotation) || s.asy.rotEn))
    match ws.find? (fun j => decide (j.why ≠ .rotation)) with
    | some j => some j
    | none => ws.head?

/-- A hosting core whose work can move at the next step boundary (R385, R386). -/
def State.borrowable (s : State) (j : AssayJob) : Bool :=
  let n := hostedBy s.lmap j.core
  s.coreHealthy j.core && decide (1 ≤ n)
    && ((decide (n = 1) && (s.spareFor j.core).isSome)
      || (j.force && (s.healthyIn (j.core / 18)).any (fun q => q != j.core)))

/-- The core is marked under assay and its first run begins; with no set left to run it was not run. -/
def State.startAssay (s : State) (j : AssayJob) : State :=
  let x := match j.cur with | some c => (some c, j.ids) | none => s.nextSet j
  match x.1 with
  | none => (s.setCore j.core { s.core j.core with assay := false }).endAssay j 3
  | some c =>
    let s := s.setCore j.core { s.core j.core with assay := true }
    (s.putAssay j { j with cur := some c, ids := x.2, started := true }).classEdge

/-- A rotation core is skipped (R383). -/
def State.skipCore (s : State) (p code : Nat) : State :=
  let s := s.setAsy { s.asy with skipped := BitVec.ofNat 16 (satAdd s.asy.skipped.toNat 1 65535) }
  s.raise { code := 0x27, utype := 1, punit := p, w6 := code }

/-- An assay that cannot run now, whether its core was fenced meanwhile or has no spare (R386, Table 13-7). -/
def State.notRun (s : State) (j : AssayJob) : State :=
  if s.isFenced 1 j.core then s.endAssay j 2
  else
    let s := if j.why = .rotation then s.skipCore j.core (if 2 ≤ hostedBy s.lmap j.core then 2 else 1) else s
    s.endAssay j 3

/-- Serve a region's turn as far as it goes without a step boundary. -/
def State.pumpAssay : Nat → Nat → State → State
  | 0, _, s => s
  | n + 1, r, s =>
    match s.assayTurn r with
    | none => s
    | some j =>
      if s.isFenced 1 j.core then
        (if j.wasFenced then s.startAssay j else State.pumpAssay n r (s.notRun j))
      else if hostedBy s.lmap j.core = 0 then (if s.heldByRun j.core then s else s.startAssay j)
      else if s.borrowable j then s
      else State.pumpAssay n r (s.notRun j)

/-- Serve every region with an assay waiting. -/
def State.assaySettle (s : State) : State :=
  if s.asy.jobs.isEmpty || s.held || !s.ready then s
  else (List.range 32).foldl (fun s r => State.pumpAssay (s.asy.jobs.length + 1) r s) s

/-- A region's assay waits for a step boundary. -/
def State.borrowDue (s : State) : Bool :=
  !s.asy.jobs.isEmpty && (List.range 32).any (fun r =>
    match s.assayTurn r with
    | some j => s.borrowable j
    | none => false)

/-- ASSAY_BORROW: at the boundary a core's work moves away and it is assayed, at most one core per region. -/
def State.borrowAll (s : State) : State :=
  (List.range 32).foldl (fun s r =>
    match s.assayTurn r with
    | some j =>
      if s.borrowable j then
        let ls := hostsOf s.lmap j.core
        ((s.setCore j.core { s.core j.core with assay := true }).rehost ls).startAssay j
      else s
    | none => s) s

/-! ### Runs and verdicts -/

/-- A run of a cross vector that raised no event meets its reference: the vector's reference after it, whether the
run fails, and a core whose earlier run turns out to have failed, with its digest (R382). `rot` says that this is
the rotation's own first run of its core: a third run that settles a dispute is the rotation's next core's. -/
def meetRef (core : Nat) (d : W128) (rot : Bool) : Option RefState → Option RefState × Bool × Option (Nat × W128)
  | none => (some (.provisional core d), false, none)
  | some (.provisional c0 d0) =>
    if d = d0 then (some (.confirmed d), false, none) else (some (.disputed c0 d0 core d none), false, none)
  | some (.disputed c0 d0 c1 d1 third) =>
    if rot = false ∨ third ≠ some core then (some (.disputed c0 d0 c1 d1 third), false, none)
    else if d = d0 then (some (.confirmed d), false, some (c1, d1))
    else if d = d1 then (some (.confirmed d), false, some (c0, d0))
    else (some .void, false, none)
  | some (.confirmed r) => (some (.confirmed r), decide (d ≠ r), none)
  | some .void => (some .void, false, none)
  | some .failing => (some .failing, true, none)

/-- Queue the second run of a core whose run a confirmed reference has overturned (Table 13-6). -/
def State.queueSecond (s : State) (x : AssaySet) (vec core : Nat) (d : W128) : State :=
  s.setAsy { s.asy with jobs := s.asy.jobs ++
    [{ core := core, why := .rotation, ids := [], cur := some x, started := false, force := false
       wasFenced := s.isFenced 1 core, fail := some (vec, d.setWidth 64, vec + 1), worst := 0 }] }

/-- The event of a cross vector whose three runs differ: it has no reference (R382). -/
def State.voidRef (s : State) (x : AssaySet) (i : Nat) : State :=
  s.raise { code := 0x23, w6 := x.setId * 2 ^ 48 + i, w7 := s.asy.round }

/-- One vector of a run: what becomes of its reference, and whether the vector fails. A cross-checked vector
meets its reference (R382); any other is compared with EXPECTED. -/
def State.judgeVec (s : State) (x : AssaySet) (core : Nat) (event rot : Bool) (i : Nat) (v : Vec) (d : W128) :
    State × Bool :=
  if v.cross then
    let k := x.setId * 4096 + i
    if event then
      (s, match look k s.asy.refs with
        | some (.confirmed r) => d != r
        | some .failing => true
        | _ => false)
    else
      let old := look k s.asy.refs
      let m := meetRef core d rot old
      let s := match m.1 with
        | some r => s.setAsy { s.asy with refs := put k r s.asy.refs }
        | none => s
      let s := match m.2.2 with
        | some (c, e) => s.queueSecond x i c e
        | none => s
      (if m.1 = some .void ∧ old ≠ some .void then s.voidRef x i else s, m.2.1)
  else (s, d != v.expected)

/-- The vectors of a run in table order: the first that fails, with its digest. -/
def State.judge (s : State) (x : AssaySet) (core : Nat) (event rot : Bool) : Nat → List (Vec × W128) →
    State × Option (Nat × W64)
  | _, [] => (s, none)
  | i, (v, d) :: t =>
    let r := s.judgeVec x core event rot i v d
    if r.2 then (r.1, some (i, d.setWidth 64)) else State.judge r.1 x core event rot (i + 1) t

/-- The record of a verdict of a set (Table 13-11). -/
def State.assayRecord (s : State) (x : AssaySet) (core verdict nrun vec : Nat) (d : W64) : State :=
  let w := x.setId * 2 ^ 48 + x.setVer * 2 ^ 32 + nrun % 65536 * 2 ^ 16
  let s := if verdict = 0 then
      s.raise { code := 0x20, info := true, utype := 1, punit := core, w6 := w + s.asy.round % 65536 }
    else s.raise { code := 0x21, utype := 1, punit := core, verdict := verdict, w6 := w + vec % 65536, w7 := d.toNat }
  let k := unitKey 1 core
  s.setSummary k { s.summaryOf k with lastVerdict := verdict }

/-- The core leaves assay; a reload that waits switches before it takes work (Table 13-7). -/
def State.leaveAssay (s : State) (j : AssayJob) (worst : Nat) : State :=
  let c := s.core j.core
  let s := s.setCore j.core { c with assay := false }
  let s := if c.pending && !s.isFenced 1 j.core then s.switchBank j.core 0 0 else s
  let s := if j.why = .unfence ∧ worst = 0 then s.unfenceCore j.core else s
  (s.endAssay j worst).classEdge.assaySettle

/-- The verdict of the present set, and the next one (Tables 13-5 and 13-6). -/
def State.assayVerdict (s : State) (j : AssayJob) (x : AssaySet) (verdict nrun vec : Nat) (d : W64) : State :=
  let s := s.assayRecord x j.core verdict nrun vec d
  let cause := s.errSeq - 1
  let s := if verdict = 2 then s.transientAssay j.core else s
  let s := if verdict = 3 ∧ !s.isFenced 1 j.core then s.fenceCore j.core cause else s
  let worst := max j.worst (if verdict = 3 then 2 else if verdict = 2 then 1 else 0)
  let n := s.nextSet j
  match (if verdict = 3 then none else n.1) with
  | none => s.leaveAssay j worst
  | some y => s.putAssay j { j with cur := some y, ids := n.2, fail := none, worst := worst }

/-- A run has ended: a first failure leads to run B, and the other outcomes to a verdict. -/
def State.assayOutcome (s : State) (j : AssayJob) (x : AssaySet) (nrun : Nat) (failed : Option (Nat × W64)) : State :=
  match j.fail, failed with
  | none, none => s.assayVerdict j x 0 nrun 0 0
  | none, some (i, d) => s.putAssay j { j with fail := some (i, d, nrun) }
  | some (i, d, n), none => s.assayVerdict j x 2 n i d
  | some (i, d, n), some _ => s.assayVerdict j x 3 n i d

/-- The assay that a core is under. -/
def State.assayOf (s : State) (core : Nat) : Option (AssayJob × AssaySet) :=
  match s.asy.jobs.find? (fun j => j.started && j.core == core) with
  | some j => (match j.cur with
    | some x => some (j, x)
    | none => none)
  | none => none

/-! ### The rotation (R383, R384) -/

/-- The unfenced core of a base die that its rotation stream reaches next. -/
def State.rotationNext (s : State) (die : Nat) : Option Nat :=
  let from_ := lookD (144 * (die + 1)) die s.asy.streams
  ((List.range 144).map (fun i => 144 * die + i)).find? (fun p => decide (from_ ≤ p) && !s.isFenced 1 p)

/-- A new pass begins once every stream has ended and no core of it is under assay: the next round, with no
references (R382). -/
def State.newPass (s : State) : State :=
  if (List.range 4).all (fun b => (s.rotationNext b).isNone) && !s.asy.jobs.any (fun j => decide (j.why = .rotation)) then
    s.setAsy { s.asy with round := s.asy.round + 1, refs := [], late := [], streams := (List.range 4).map (fun b => (b, 144 * b)) }
  else s

/-- The core that the rotation reaches next runs the third run of a disputed vector, once for each; a core that has left
the rotation without it is followed by the next (R382). -/
def State.reachThird (s : State) (p : Nat) (ids : List Nat) : State :=
  let gone (t : Option Nat) : Bool := match t with
    | some q => !s.asy.jobs.any (fun j => decide (j.why = .rotation) && decide (j.core = q))
    | none => true
  s.setAsy { s.asy with refs := s.asy.refs.map (fun e => match e.2 with
    | .disputed c0 d0 c1 d1 t =>
      if ids.contains (e.1 / 4096) && gone t && p != c0 && p != c1 then (e.1, .disputed c0 d0 c1 d1 (some p)) else e
    | _ => e) }

/-- ASSAY_ROTATION (R383): the stream's next core is queued, once the core before it has its verdict. -/
def execAssayRotation (die : Nat) (s : State) : Host.Outcome State Fault Refusal :=
  if s.held || !s.ready || !s.asy.rotEn then .next s
  else
    let s := s.newPass
    if s.asy.jobs.any (fun j => decide (j.why = .rotation) && decide (j.core / 144 = die)) then .next s
    else match s.rotationNext die with
      | none => .next s
      | some p =>
        let ids := (s.flash.setIds (·.rotation)).filter (fun i => !s.asy.late.contains i)
        let s := s.setAsy { s.asy with streams := put die (p + 1) s.asy.streams }
        if ids.isEmpty then .next s
        else
          let j : AssayJob :=
            { core := p, why := .rotation, ids := ids, cur := none, started := false, force := false
              wasFenced := false, fail := none, worst := 0 }
          let s := s.reachThird p ids
          .next (s.setAsy { s.asy with jobs := s.asy.jobs ++ [j] }).assaySettle

/-! ### Requests (R386) -/

/-- Queue an assay of a list of cores. -/
def State.queueAssays (s : State) (cores ids : List Nat) (why : AssayWhy) (force : Bool) : State :=
  s.setAsy { s.asy with jobs := s.asy.jobs ++ cores.map (fun p =>
    { core := p, why := why, ids := ids, cur := none, started := false, force := force
      wasFenced := s.isFenced 1 p, fail := none, worst := 0 }) }

/-- Cores that a request covers; none where it names no unit. -/
def State.requestCores (s : State) (kind target : Nat) : Option (List Nat) :=
  match kind with
  | 0 => if target < 576 then some [target] else none
  | 1 => if target < 512 ∧ nthD noHost s.lmap target < 576 then some [nthD noHost s.lmap target] else none
  | 2 =>
    if target < 32 then
      let cs := ((List.range 18).map (fun i => 18 * target + i)).filter (fun p => !s.isFenced 1 p)
      some (cs.filter (fun p => hostedBy s.lmap p == 0) ++ cs.filter (fun p => hostedBy s.lmap p != 0))
    else none
  | _ => none

end Sys2Proof.Machine
end

