-- ==== Sys2Proof/Machine/Incoming.lean ====
section
/-! DEFINITION. The contributions that a template declares, the received set's entries, and the contributions between
shards of one device (R151, R305, R318, R320, R322; logs 16, 17). -/

namespace Sys2Proof.Machine

/-! ### Declared contributions of a template (R305, R318) -/

/-- A contribution that a shard declares for this device: its records, and the slot it targets. -/
structure Incoming where
  shard : Nat
  lcore : Nat
  ordinal : Nat
  slot : Nat
  send : Nat
  dst : Nat
deriving DecidableEq, Repr

/-- The contributions of one segment that target this device. -/
def Job.incomingOf (j : Job) (template shard lcore : Nat) : List Incoming :=
  let ps := (j.bin.recs lcore template).filter (fun p => decide (rOpcode p.1 = 0x70))
  (List.range ps.length).filterMap (fun n =>
    let p := nthD (0, 0) ps n
    (j.slotOf (collShard j.bin.shards shard p.2) (bits p.2 78 70)).map (fun d => ⟨shard, lcore, n, d, p.1, p.2⟩))

/-- This device hosts a shard of the job. -/
def Job.hostsShard (j : Job) (sh : Nat) : Bool := decide (j.shardFirst ≤ sh) && decide (sh ≤ j.shardLast)

/-- Those of every shard that `from_` keeps. -/
def Job.incoming (j : Job) (template : Nat) (from_ : Nat → Bool) : List Incoming :=
  ((List.range j.bin.shards).filter from_).flatMap
    (fun sh => (List.range j.bin.lcores).flatMap (fun l => j.incomingOf template sh l))

/-- Descriptor of the region that a contribution lands in. -/
def Incoming.desc (x : Incoming) (j : Job) : W128 := j.bin.entry (bits x.dst 69 58)

/-- The destination rectangle. -/
def Incoming.rect (x : Incoming) : Rect :=
  ⟨bits x.dst 69 58, bits x.dst 57 34, bits x.send 45 34 + 1, 64 * bits x.dst 33 20, bits x.send 33 28 + 1, true, none, false⟩

/-- Bytes that a contribution lands in; its plan entry; its MODE and token (Table 10-13). -/
def Incoming.ranges (x : Incoming) (j : Job) : List (Nat × Nat) := rectRanges (x.desc j) x.rect
def Incoming.plan (x : Incoming) (j : Job) : Nat := (nthD 0 j.bin.coll (bits x.send 27 16)).toNat
def Incoming.mode (x : Incoming) (j : Job) : Nat := bits (x.plan j) 123 122
/-- Bytes of the contribution. -/
def Incoming.count (x : Incoming) (j : Job) : Nat := pageBytes 1 (x.ranges j)
def Incoming.token (x : Incoming) : Nat := if bit x.dst 19 then 48 + bits x.dst 18 15 else 0

/-- An address lies in one of the ranges. -/
def inRanges (rs : List (Nat × Nat)) (a : Nat) : Bool := rs.any (fun q => decide (q.1 ≤ a) && decide (a < q.2))

/-- KIND of a contribution's plan entry (Table 10-13). -/
def Incoming.kind (x : Incoming) (j : Job) : Nat := bits (x.plan j) 127 124

/-- The countersign of landed bytes. -/
def Incoming.csgn (x : Incoming) (j : Job) (landed : List (Nat × Nat × Byte)) : W128 :=
  let d := x.desc j
  let q := x.rect
  let cells := putBytes (landed.map (·.2)) []
  let rd (a : Nat) : Byte := (shadowLook a cells).getD 0
  (List.range q.rows).foldl (fun acc i => (List.range q.cols).foldl (fun acc k =>
    acc + hallmarkH ((q.row + i) * dCols d + q.col + k)
      (hallBits (dFmt d) (dElemCode rd d (q.row + i) (q.col + k)) (dElemAux rd d (q.row + i) (q.col + k)))) acc) 0

/-! ### The received set (R322) -/

/-- Put an entry of the received set. -/
def State.setRecv (s : State) (v : Recv) : State :=
  let same (w : Recv) : Bool := w.job == v.job && w.stepLo == v.stepLo && w.src == v.src && w.shard == v.shard
    && w.lcore == v.lcore && w.ordinal == v.ordinal
  let l := s.fab.recvs
  { s with fab := { s.fab with recvs := if l.any same then l.map (fun w => if same w then v else w) else l ++ [v] } }

/-- Cells and marks taken out of a shadow. -/
def Shadow.drop (sh : Shadow) (as blocks : List Nat) : Shadow :=
  ⟨sh.cells.filter (fun c => !as.contains c.1), sh.poison.filter (fun b => !blocks.contains b.1)⟩

/-- Take a contribution that nothing has read out of a run. -/
def Run.unland (r : Run) (v : Recv) (token : Nat) : Run :=
  let one (r : Run) (sp : Nat) : Run :=
    let as := (ofSpace sp v.landed).map (·.1)
    if as.isEmpty then r
    else r.setShadow v.slot sp ((r.shadow v.slot sp).drop as
      (v.marks.filterMap (fun m => if m.1 = sp then some m.2.1 else none)))
  let r := one (one (one r 0) 1) 2
  let x := r.slot v.slot
  let as := (ofSpace 0 v.landed).map (·.1)
  let gone (q : Nat × Nat) : Bool := as.any (fun a => decide (q.1 ≤ a) && decide (a < q.2))
  let x := { x with landings := (x.landings.map (fun l => l.filter (fun q => !gone q))).filter (fun l => !l.isEmpty) }
  r.setSlot v.slot (if v.complete && token ≠ 0 then
    { x with arrivals := put token (lookD 0 token x.arrivals - 1) x.arrivals } else x)

/-- A contribution whose last byte has landed takes its place in the order of landing (R151). -/
def Run.landedWhole (r : Run) (v : Recv) : Run := if v.complete then r.noteLanding v.slot (ofSpace 0 v.landed) else r

/-! ### Contributions between shards of this device (R318) -/

/-- The received entry of a contribution that slot `d` of a run sends to slot `t` of this device: nothing of it has
landed, and its sender has formed its countersign. -/
def Run.ownRecv (r : Run) (j : Job) (dev d t n mode : Nat) (csgn : W128) : Recv :=
  { job := j.num, stepLo := r.step.toNat % 2 ^ 32, src := dev, shard := j.shardOf d, lcore := j.lcoreOf d, ordinal := n
    slot := t, attempt := r.attempt % 4, port := none, landed := [], marks := [], mode := mode, complete := false
    verified := false, read := false, voided := false, due := false, held := none, own := some csgn }

/-- The entry of the contribution `n` of slot `d`. -/
def State.ownAt (s : State) (j : Job) (r : Run) (d n : Nat) : Option Recv :=
  s.fab.recvs.find? (fun v => v.ofStep r && v.own.isSome && v.shard == j.shardOf d && v.lcore == j.lcoreOf d && v.ordinal == n)

/-- It has landed whole. -/
def Recv.whole (v : Recv) (ws : List (Nat × Nat × Byte)) (marks : List (Nat × Nat × Bool)) : Recv :=
  { v with landed := ws, marks := marks, complete := true, read := v.read || decide (v.mode ≠ 0) }

/-- The declared contribution that an entry belongs to. -/
def Job.declaredAs (j : Job) (template : Nat) (v : Recv) : Option Incoming :=
  (j.incomingOf template v.shard v.lcore).find? (fun x => decide (x.ordinal = v.ordinal))

/-- The countersign of an own contribution equals that of its landed data. -/
def Job.ownAgrees (j : Job) (template : Nat) (v : Recv) : Bool :=
  match v.own, j.declaredAs template v with
  | some c, some x => v.complete && decide (c = x.csgn j v.landed)
  | _, _ => false

/-- The countersigns of a run's own contributions at order 7, which are compared at once. -/
def State.signOwn (s : State) (j : Job) (r : Run) : State :=
  s.mapRecvs (fun v => if v.ofStep r && v.own.isSome then { v with verified := j.ownAgrees r.template v } else v)

/-- What of a run's shadow may post: a contribution that no countersign has verified, which the run has then not read
either, is taken out (R322). -/
def State.verifiedPart (s : State) (r : Run) : Run :=
  (s.fab.recvs.filter (fun v => v.ofStep r && !v.verified)).foldl (fun r v => r.unland v 0) r

end Sys2Proof.Machine
end

