-- ==== Sys2Proof/Machine/Records.lean ====
section
/-! DEFINITION. The shared course of a record of the running step: when it issues, what its checks and its
reads meet, what it leaves in escrow, and how it completes (R225 to R230, R270, R273, R283, R288, R332 to
R335, R455, R473). -/

namespace Sys2Proof.Machine

/-! ### Issue -/

/-- A record that issues now: its job and run, itself and the record after it. -/
structure Iss where
  job : Job
  run : Run
  rec_ : Nat
  rec2 : Nat
deriving DecidableEq, Repr

/-- The index of the record in its stream. -/
def Iss.idx (i : Iss) (d : Nat) : Nat := (i.run.slot d).pc

def isFormer (op : Nat) : Bool := decide (0x60 ≤ op) && decide (op ≤ 0x63)

/-- Data movements of a run in flight (R227). -/
def movesInFlight (r : Run) : Nat := sumBy (fun x => countIf (fun f => isMove f.opcode) x.flights) r.slots

/-- A former record waits while this is its core's named switch step and the core has not switched (R193 order 6). -/
def State.bankHold (s : State) (r : Run) (d op : Nat) : Bool :=
  isFormer op && r.history.isEmpty && (s.core (r.host d)).pending && r.toSwitch.contains (r.host d)

/-- Whether the record at a slot's position may issue: its turn runs, its waits are met (R227, R228, R473). -/
def State.mayIssue (s : State) (j : Job) (r : Run) (d op : Nat) : Bool :=
  let x := r.slot d
  let rec_ := j.recAt d x.pc
  decide (d < r.slots.length) && decide (look (r.host d) r.turns = some d) && x.begun && !x.ended
    && decide (x.skipTo ≤ x.pc) && decide (x.pc < (j.streamOf d).length) && decide (rOpcode rec_ = op)
    && !unmet j r.template d x (rWaitA rec_) && !unmet j r.template d x (rWaitB rec_)
    && (!rOrdered rec_ || x.flights.isEmpty)
    && (!isMove op || decide (movesInFlight r < 1024))
    && !s.bankHold r d op

/-- The record of slot `d` with an opcode, if it issues now. While the module is held for its supply or not
ready, nothing issues (R238, R428). -/
def State.issueAt (s : State) (d op : Nat) : Option Iss :=
  if s.held || !s.ready then none
  else match s.issuing with
    | none => none
    | some r =>
      match s.job r.job with
      | none => none
      | some j =>
        if s.mayIssue j r d op then
          some ⟨j, r, j.recAt d (r.slot d).pc, j.recAt d ((r.slot d).pc + 1)⟩
        else none

/-! ### Reads that meet an error in a block (R270, R271) -/

/-- An uncorrectable block that slot `d` of the running step reads: poisoned where it lies, in the step's own
shadow or in the posted copy. -/
def State.uncorrAt (s : State) (n d space block s0 s1 : Nat) (injected : Bool) : State :=
  match s.job n, s.run n with
  | some j, some r =>
    let u := if space = 0 then (1, r.host d) else s.blockUnit space d block
    let cause := match r.events.find? (fun x => x.code == 0x09 && x.utype == u.1 && x.punit == u.2) with
      | some x => x.seq
      | none => s.errSeq
    let e := slotEvt j r d (r.slot d).pc 0x09 u.1 u.2 (eccWord6 space block injected) (j.eccWord7 space block s0 s1) 1
    let t := (s.poisonAt j u space d block).raiseRun n (some d) e 0 false injected
    let t := if u.1 = 5 then t.triggers u.2 cause else t
    if (r.shadow d space).cells.any (fun c => decide (c.1 / 64 = block)) then
      match t.run n with
      | some q => (t.setJob j).setRun (q.setShadow d space ((q.shadow d space).setPoison block true))
      | none => t
    else t
  | _, _ => s

/-- Symbols corrected as a record of a job reads a block. -/
def State.corrAt (s : State) (n d space block symbols : Nat) : State :=
  match s.run n with
  | some r =>
    let u := if space = 0 then (1, r.host d) else s.blockUnit space d block
    s.corrected n u.1 u.2 block symbols
  | none => s

/-- A read of a block of a space lies among a record's reads. -/
def readsBlock (reads : List (Nat × Nat × Nat)) (space block : Nat) : Bool :=
  reads.any (fun q => decide (q.1 = space) && decide (q.2.1 < 64 * block + 64) && decide (64 * block < q.2.2))

/-- An armed bit of a page's EVT_FORCE clears as it is taken (R455). -/
def State.disarm (s : State) (page bit_ : Nat) : State :=
  s.setPage page { s.page page with evtForce := (s.page page).evtForce &&& ~~~(BitVec.ofNat 32 (2 ^ bit_)) }
def State.armed (s : State) (page bit_ : Nat) : Bool := (s.page page).evtForce.getLsbD bit_

/-- Injected outcomes of program reads of HBM blocks (R455, bits 1 and 12 of an HBM page). -/
def State.injectReads (s : State) (n d : Nat) : List Nat → State
  | [] => s
  | b :: t =>
    let page := 0x400 + s.channelOf (64 * b)
    let s := if s.armed page 1 then (s.disarm page 1).uncorrAt n d 2 b 0 0 true else s
    let s := if s.armed page 12 then (s.disarm page 12).corrAt n d 2 b 1 else s
    State.injectReads s n d t

/-- Blocks of HBM among a record's reads. -/
def hbmBlocks (reads : List (Nat × Nat × Nat)) : List Nat :=
  reads.foldl (fun l q => if q.1 = 2 then
    (List.range ((q.2.2 + 63) / 64 - q.2.1 / 64)).foldl (fun l i => insertNat (q.2.1 / 64 + i) l) l else l) []

/-- An event is armed on some HBM page. -/
def State.armedHbm (s : State) : Bool := s.pages.any (fun p => decide (0x400 ≤ p.1 ∧ p.1 ≤ 0x7FF ∧ p.2.evtForce ≠ 0))

/-- What a record's reads meet before it executes. -/
def State.readChecks (s : State) (i : Iss) (d : Nat) (chk : Chk) : State :=
  let reads := (s.ctx i.job i.run d).reads i.rec_ i.rec2
  let s := if s.armedHbm then s.injectReads i.job.num d (hbmBlocks reads) else s
  match chk with
  | .uncorrectable space block s0 s1 =>
    if readsBlock reads space block then s.uncorrAt i.job.num d space block s0.toNat s1.toNat false else s
  | .corrected space block n =>
    if readsBlock reads space block then s.corrAt i.job.num d space block n else s
  | _ => s

/-! ### Events that a record raises -/

/-- Raise an event of a record. -/
def State.recRaise (s : State) (i : Iss) (d code utype punit w6 w7 detail : Nat) (recount injected : Bool) : State :=
  s.raiseRun i.job.num (some d)
    (slotEvt i.job i.run d (i.idx d) code utype punit w6 w7 (if recount then 2 else 1)) detail recount injected

/-- The run's data is no longer what the model computes: its digest is a free value (log 15). -/
def State.spoil (s : State) (n d : Nat) (corrupt : Bool) : State :=
  match s.run n with
  | some r => if corrupt then s.setRun (r.setSlot d { r.slot d with spoiled := true }) else s
  | none => s

/-- A drain that traps is recorded when the run's checks are evaluated (R101); other events at once. -/
def State.recEvent (s : State) (i : Iss) (d : Nat) (x : Raise) : State :=
  if x.code = 0x08 then
    match s.run i.job.num with
    | some r => s.setRun { r with traps := r.traps ++ [⟨d, i.idx d, BitVec.ofNat 64 x.w6, BitVec.ofNat 64 x.w7⟩] }
    | none => s
  else s.recRaise i d x.code 1 (i.run.host d) x.w6 x.w7 x.detail x.recount false

/-- Records whose engine checks parity, and residues (R273, R333). -/
def hasParity (op : Nat) : Bool :=
  decide (op = 0x03) || isPair op || decide (op = 0x40) || decide (op = 0x41)
    || (decide (0x50 ≤ op) && decide (op ≤ 0x5C)) || isFormer op
def hasResidue (op : Nat) : Bool :=
  decide (op = 0x41) || (decide (0x50 ≤ op) && decide (op ≤ 0x5C)) || isFormer op

/-- The binary's blank-strike threshold enables strikes: 0 disables them (R119). -/
def Binary.strikes (b : Binary) : Bool := decide (bits (nthD 0 b.header 1).toNat 20 9 ≠ 0)

/-- The event of a strike whose residue check failed: no result is affected. Its record names the job, the step, the run
and the core; the spec does not say which of the fields that name a record it carries, since no record caused it, and
here it carries none (DESIGN CHOICE; log 53, R120, R333). -/
def strikeEvt (r : Run) (core w6 w7 : Nat) : Evt :=
  { code := 0x02, job := r.job, step := r.step.toNat, utype := 1, punit := core, run := r.run, action := 2
    w6 := w6, w7 := w7 }

/-- A strike is checked like any product (R120, R333). -/
def State.strikeRaise (s : State) (r : Run) (d : Option Nat) (core : Nat) (w6 w7 : W64) : State :=
  let w := residueWords (w6.toNat % 2 ^ 60) w7.toNat
  if residueFails w.1 then s.raiseRun r.job d (strikeEvt r core w.1 w.2) 0 true false else s

/-- What the checks of Table 11-1 find (log 15), or that an item of the record comes late at a clocked crossing
(R365). -/
def State.chkReport (s : State) (i : Iss) (d : Nat) (chk : Chk) : State :=
  let op := rOpcode i.rec_
  match chk with
  | .parity w6 w7 ut pu corrupt =>
    if hasParity op then
      (s.recRaise i d 0x01 ut pu (parityWord w6.toNat) w7.toNat 0 true false).spoil i.job.num d corrupt
    else s
  | .residue w6 w7 ut pu corrupt =>
    let w := residueWords w6.toNat w7.toNat
    if hasResidue op && residueFails w.1 then
      (s.recRaise i d 0x02 ut pu w.1 w.2 0 true false).spoil i.job.num d corrupt
    else s
  | .sequencer w6 corrupt =>
    (s.recRaise i d 0x03 1 (i.run.host d) (sequencerWord w6.toNat) (recHigh i.rec_) 0 true false).spoil i.job.num d corrupt
  | .strike w6 w7 =>
    if op = 0x41 ∧ i.job.bin.strikes = true then s.strikeRaise i.run (some d) (i.run.host d) w6 w7 else s
  | .late => s.lockBreakJob i.job.num
  | _ => s

/-- Checking point of an engine (Table 11-11). -/
def parityPoint (op : Nat) : Nat :=
  if op = 0x03 then 1 else if isPair op then 4 else if op = 0x40 ∨ op = 0x41 then 5 else if isFormer op then 7 else 6

/-- The first 64-bit word at a byte offset of a space. -/
def Ctx.wordAt (c : Ctx) (sp a : Nat) : Nat × Nat := (a / 8 * 8, leNat ((List.range 8).map (fun k => c.rd sp (a / 8 * 8 + k))))

/-- The first word of memory that a record reads. -/
def Ctx.firstRead (c : Ctx) (r r2 : Nat) : Option (Nat × Nat) :=
  match c.reads r r2 with
  | (sp, q) :: _ => some (c.wordAt sp q.1)
  | [] => none

/-- The first word that the sources of a finisher or former record take from a tile buffer or from the till. -/
def Ctx.sourceWord (c : Ctx) (r r2 : Nat) : List Nat → Option (Nat × Nat)
  | [] => none
  | y :: t => if y < 4 then some (0, c.tbWord y) else if y = 4 then c.firstRead r r2 else Ctx.sourceWord c r r2 t

/-- The word that a record's first parity check takes, with its offset, or 0 for one that no memory holds: none where the
record's first check is one of residues (R273, R333; log 15). -/
def Ctx.parityFirst (c : Ctx) (after : Ctx) (r r2 : Nat) : Option (Nat × Nat) :=
  let op := rOpcode r
  if op = 0x03 then
    ((rects r r2 0 0).flatMap (fun x => rectRanges (c.desc x.desc) x)).head?.map (fun q => after.wordAt 0 q.1)
  else if 0x50 ≤ op ∧ op ≤ 0x5A then
    c.sourceWord r r2 ([bits r 79 77] ++ (if 0x56 ≤ op ∧ op ≤ 0x58 then [] else [bits r 76 74])
      ++ (if op = 0x53 ∨ op = 0x59 then [bits r 73 72] else []))
  else if op = 0x5B then (if bits r 84 83 = 0 then none else c.sourceWord r r2 [bits r 87 85])
  else if isFormer op then c.sourceWord r r2 [bits r 87 86]
  else c.firstRead r r2

/-- The residue that a drain's first check expects: of the drained integer, where the lane is an exact one; else the spec
gives no integer and it is a free value (log 15). -/
def Ctx.firstResidue (c : Ctx) (r : Nat) : Nat :=
  let seg := segment (c.job.streamOf c.d) c.run.template
  if rOpcode r = 0x5B ∧ trackedMode (bits r 67 57) (seg.2.take (c.slot.pc - seg.1)) false = false then
    ((signed (tallyEntry c.slot 0 (bits r 67 57)).word.toNat 256) % 7).toNat
  else Config.recordFree c.place (5 * 4096) % 7

/-- Raise an injected parity event (R455). -/
def State.injectParity (s : State) (i : Iss) (d page utype punit point : Nat) (w : Nat × Nat) : State :=
  if s.armed page 0 then
    (s.disarm page 0).recRaise i d 0x01 utype punit (point * 2 ^ 56 + 2 ^ 48 + w.1) w.2 0 true true
  else s

/-- Raise an injected residue event of the finisher: lane 0, column 0 (R455, Table 11-11). -/
def State.injectResidue (s : State) (i : Iss) (d page utype punit expected : Nat) : State :=
  if s.armed page 0 then
    (s.disarm page 0).recRaise i d 0x02 utype punit
      (4 * 2 ^ 60 + expected * 2 ^ 45 + (expected + 1) % 7 * 2 ^ 42 + 2 ^ 41) 0 0 true true
  else s

/-- The next check of a record's own core takes what is armed there: one of parity where the record takes a word from a
store, else one of residues (R455). -/
def State.injectCore (s : State) (i : Iss) (d : Nat) : State :=
  let op := rOpcode i.rec_
  let h := i.run.host d
  let c := s.ctx i.job i.run d
  let after := match s.run i.job.num with | some r => s.ctx i.job r d | none => c
  if !hasParity op then s
  else match c.parityFirst after i.rec_ i.rec2 with
    | some w => s.injectParity i d (0x800 + h) 1 h (parityPoint op) w
    | none => if hasResidue op then s.injectResidue i d (0x800 + h) 1 h (c.firstResidue i.rec_) else s

/-- Base dies and edges that a route between two base dies takes: the horizontal edge first, then the vertical one
(R33). -/
def dieRoute (a b : Nat) : List Nat × List Nat :=
  let c := a / 2 * 2 + b % 2
  ( [a] ++ (if c = a then [] else [c]) ++ (if b = c then [] else [b])
  , (if c = a then [] else [a / 2]) ++ (if b = c then [] else [2 + b % 2]) )

/-- A transfer of a carder record over the fabric: between which base dies, the far core's region for a till, and the
vault offset that it reads or writes. -/
structure Haul where
  src : Nat
  dst : Nat
  region : Option Nat
  vault : Option Nat
deriving DecidableEq, Repr

/-- Where a transfer to or from a memory ends: the base die, the region of a till, the offset in the vault. -/
def State.memoryEnd (s : State) (core space addr : Nat) : Nat × Option Nat × Option Nat :=
  match space with
  | 0 => (core / 144, some (core / 18), none)
  | 1 => (addr / 2 ^ 27, none, some addr)
  | _ => (s.channelOf addr / 256, none, none)

/-- The transfer of one end of a record: none within the core's own till. -/
def State.haul (s : State) (i : Iss) (d : Nat) (x : Rect) : Option Haul :=
  let e := i.job.bin.entry x.desc
  let h := i.run.host d
  let lc := i.job.bin.lcores
  let far := i.run.host (match x.lcore with | some l => d / lc * lc + l | none => d)
  let m := s.memoryEnd far (dSpace e) (dElemAddr e x.row x.col)
  if dSpace e = 0 ∧ far = h then none
  else some (if x.write then ⟨h / 144, m.1, m.2.1, m.2.2⟩ else ⟨m.1, h / 144, m.2.1, m.2.2⟩)

/-- The unit of a base-die page that checks a transfer: the vault group at its end, else an edge of the route that the
page counts, else mesh link 0 of a die on the route (log 15). -/
def State.baseUnit (s : State) (b : Nat) (t : Haul) : Option (Nat × Nat × Nat) :=
  let r := dieRoute t.src t.dst
  match t.vault.filter (fun a => a / 2 ^ 27 == b), r.2.find? (fun e => edgeDie e == b) with
  | some a, _ => some (3, s.vaultUnit a, 2)
  | none, some e => some (4, 256 + e, 0)
  | none, none => if r.1.contains b then some (4, 64 * b, 0) else none

/-- Where a contribution of a slot goes: to a memory of this device, or to the port that its path takes. -/
def State.sendHaul (s : State) (i : Iss) (d : Nat) : Option Haul :=
  let h := i.run.host d
  let e := i.job.bin.entry (bits i.rec2 69 58)
  let shard := collShard i.job.bin.shards (i.job.shardOf d) i.rec2
  match i.job.slotOf shard (bits i.rec2 78 70) with
  | some t =>
    let far := i.run.host t
    let m := s.memoryEnd far (dSpace e) (dElemAddr e (bits i.rec2 57 34) (64 * bits i.rec2 33 20))
    if dSpace e = 0 ∧ far = h then none else some ⟨h / 144, m.1, m.2.1, m.2.2⟩
  | none => (s.ownEgress (Config.shardDevice i.job.num shard) false).map (fun p => ⟨h / 144, p / 3, none, none⟩)

/-- What is armed on the pages of the base dies that transfers cross. -/
def State.armDies (s : State) (ts : List Haul) (inject : State → Nat → Nat × Nat × Nat → State) : State :=
  (List.range 4).foldl (fun s b =>
    match (ts.filterMap (s.baseUnit b)).head? with
    | some u => inject s (0x40 + b) u
    | none => s) s

/-- Events armed through EVT_FORCE that a record takes (R455). -/
def State.armReport (s : State) (i : Iss) (d : Nat) : State :=
  let op := rOpcode i.rec_
  let h := i.run.host d
  let s := s.injectCore i d
  if isPair op then
    let c := s.ctx i.job i.run d
    let w := (c.firstRead i.rec_ i.rec2).getD (0, 0)
    let ts := (rects i.rec_ i.rec2 0 0).filterMap (s.haul i d) ++ (if op = 0x70 then (s.sendHaul i d).toList else [])
    let regions := (if ts.isEmpty then [] else [h / 18]) ++ ts.filterMap (·.region)
    let s := regions.foldl (fun s g => s.injectParity i d (0x80 + g) 2 g 0 w) s
    s.armDies ts (fun s page u => s.injectParity i d page u.1 u.2.1 u.2.2 w)
  else s

/-! ### Poison consumed (R288, Table 9-10) -/

/-- The step's run stops: its checks end it without posting. -/
def State.breakRun (s : State) (n : Nat) : State :=
  match s.run n with
  | some r => s.setRun r.breakUp
  | none => s

/-- A record consumes a poisoned block: the event and what follows for its job (R288, R289). -/
def State.consume (s : State) (i : Iss) (d sp addr : Nat) : State :=
  let n := i.job.num
  let h := i.run.host d
  let u := if sp = 0 then (1, h) else s.blockUnit sp d (addr / 64)
  let w6 := sp * 2 ^ 62 + addr / 64 * 64
  let ev (region action : Nat) : Evt := slotEvt i.job i.run d (i.idx d) 0x0A u.1 u.2 w6 region action
  let any := (i.job.regionAt sp addr false).getD 0
  if i.run.inShadow d sp addr then (s.raiseRun n (some d) (ev any 2) 0 false false).breakRun n
  else match i.job.regionAt sp addr true with
    | some k =>
      let s := (s.raiseRun n (some d) (ev k 8) 0 false false).breakRun n
      match s.run n with
      | some r => s.setRun { r with poisoned := r.poisoned ++ [(sp, d, addr, k)] }
      | none => s
    | none =>
      (s.raiseRun n (some d) (ev any 9) 0 false false).programFault n 0x0105 addr
        (slotEvt i.job i.run d (i.idx d) 0x10 0 0 0 0 9)

/-! ### Pages marked as read (R235) -/

/-- The pages of the rectangles that a record reads, or writes: of which memory (0, or a slot's till), descriptor, page.
A page is marked for the region that the step reads, so that a region beside it on the page can be written: R235 says
that a program never meets a marked page (DEDUCED; log 53). -/
def Ctx.markPages (c : Ctx) (r r2 : Nat) (write : Bool) : List (Nat × Nat × Nat) :=
  let lc := c.job.bin.lcores
  let wk := (c.slot.wreg (bits r 87 87)).wK0
  let p := (c.job.bin.entry (bits r 35 24)).toNat
  (rects r r2 wk p).flatMap (fun x =>
    if x.write != write then []
    else
      let dsc := c.desc x.desc
      let d := match x.lcore with | some l => c.d / lc * lc + l | none => c.d
      (pagesOf (if dSpace dsc = 0 then 1024 else 4096) (rectRanges dsc x)).map (fun g =>
        (if dSpace dsc = 0 then d + 1 else 0, x.desc, g)))

/-- The escrow plan declares a region as an accumulator of a template (Table 8-11). -/
def Binary.accumulator (b : Binary) (t desc : Nat) : Bool :=
  b.escrow.any (fun e => decide (bits e.toNat 63 52 = desc) && decide (bits e.toNat 51 36 = t) && decide (bits e.toNat 35 32 = 1))

/-- The pages that a record reads are marked, and a write of it to a marked page outside an accumulator region is a
sequencer fault (R235, R335). -/
def State.markCheck (s : State) (i : Iss) (d : Nat) : State :=
  let c := s.ctx i.job i.run d
  let bad := (c.markPages i.rec_ i.rec2 true).find? (fun x =>
    i.run.readMarks.contains x && !i.job.bin.accumulator i.run.template x.2.1)
  let s := match s.run i.job.num with
    | some r => s.setRun { r with readMarks := (c.markPages i.rec_ i.rec2 false).foldl (fun l x =>
        if l.contains x then l else x :: l) r.readMarks }
    | none => s
  match bad with
  | some x =>
    let g := if x.1 = 0 then 4096 else 1024
    s.recRaise i d 0x03 1 (i.run.host d) (2 * 2 ^ 56 + g * x.2.2) (recHigh i.rec_) 0 true false
  | none => s

/-! ### What a record leaves -/

/-- The flight of a record that has issued and not completed. -/
def Iss.flight (i : Iss) (d : Nat) : Flight :=
  { idx := i.idx d, opcode := rOpcode i.rec_, signal := rSignal i.rec_, writes := [], marks := [], dst := d
    arrival := 0, atom := 0, send := none }

/-- The run after a record of slot `d` has executed: its writes in escrow, their digest terms, its place in the
stream, its flight (R227, R275, R334). -/
def Iss.after (i : Iss) (d : Nat) (o : RecOut) (digest : W128) (f : Flight) (bank : Option (Nat × Nat)) : Run :=
  let r := i.run.setSlot d { o.slot with
    pc := i.idx d + (if isPair (rOpcode i.rec_) then 2 else 1)
    digest := (i.run.slot d).digest + digest
    former := (i.run.slot d).former || isFormer (rOpcode i.rec_)
    flights := (i.run.slot d).flights ++ [f] }
  let r := { r with bank := bank }
  let r := r.applyWrites d o.writes (o.marks.filterMap (fun m => if m.2.2 then some (m.1, m.2.1) else none))
  let r := r.noteLanding d (ofSpace 0 o.writes)
  if o.skipRq then r.startSkip i.job d else r

/-- The bank that a run's former records use, recorded by the first of them (R194). -/
def State.bankAfter (s : State) (i : Iss) (d : Nat) : Option (Nat × Nat) :=
  if isFormer (rOpcode i.rec_) && i.run.bank.isNone then some (s.dieBank i.run (i.run.host d)) else i.run.bank

/-- Put a run back with its turns chosen again, and step the free values on. -/
def State.advance (s : State) (j : Job) (r : Run) : State :=
  { s.setRun (resched j r) with freeCtr := s.freeCtr + 1 }

/-- A record's effect once it issues: program fault, poison, or its writes and events. -/
def State.perform (s : State) (i : Iss) (d : Nat) (chk : Chk) (o : RecOut) : State :=
  match o.fault with
  | some f => s.programFault i.job.num f.1 f.2 (slotEvt i.job i.run d (i.idx d) 0x10 1 (i.run.host d) 0 0 9)
  | none =>
    match o.consumed with
    | (sp, a) :: _ => s.consume i d sp a
    | [] =>
      let s := s.markRead i.run d ((s.ctx i.job i.run d).reads i.rec_ i.rec2)
      let s := s.advance i.job (i.after d o (digestOf (o.digestAs.getD o.writes)) (i.flight d) (s.bankAfter i d))
      let s := o.raises.foldl (fun s x => s.recEvent i d x) s
      ((s.markCheck i d).chkReport i d chk).armReport i d

/-- A record of an engine: issue, checks of its reads, effect. -/
def State.doRecord (s : State) (d op : Nat) (chk : Chk) (f : Ctx → Nat → RecOut) : State :=
  match s.issueAt d op with
  | none => s
  | some i =>
    let s := s.readChecks i d chk
    match s.issueAt d op with
    | none => s
    | some i => s.perform i d chk (f (s.ctx i.job i.run d) i.rec_)

/-- A former record: a named die must be there, at its version (R164, R191). -/
def guarded (f : Ctx → Nat → RecOut) (c : Ctx) (r : Nat) : RecOut :=
  match frmFault c r with
  | some e => { slot := c.slot, fault := some e }
  | none => f c r

/-! ### Data movements (R278 to R287) -/

/-- A move or an atomic add issues: its source is read now, its writes are in flight (R283). -/
def State.doMove (s : State) (d op : Nat) (chk : Chk) : State :=
  match s.issueAt d op with
  | none => s
  | some i =>
    let s := s.readChecks i d chk
    match s.issueAt d op with
    | none => s
    | some i =>
      let c := s.ctx i.job i.run d
      let k := c.capture i.rec_ i.rec2
      let ws := inSpace k.space k.writes
      let f := { i.flight d with
        writes := ws, marks := k.marks.map (fun b => (k.space, b, true)), dst := k.slot, arrival := k.arrival
        atom := if op = 0x22 then 1 else if op = 0x23 then 2 else 0 }
      let s := s.markRead i.run d (c.reads i.rec_ i.rec2)
      let s := s.advance i.job (i.after d { slot := i.run.slot d } (digestOf ws) f i.run.bank)
      ((s.markCheck i d).chkReport i d chk).armReport i d

/-- The running record of slot `d` whose flight has an index: records already issued complete while the module
is quiesced (R431). -/
def State.flightAt (s : State) (d idx : Nat) : Option (Job × Run × Flight) :=
  if !s.ready then none
  else match s.issuing with
    | none => none
    | some r =>
      match s.job r.job with
      | none => none
      | some j =>
        match (r.slot d).flights.find? (fun f => f.idx == idx) with
        | some f => some (j, r, f)
        | none => none

/-- A record is no longer in flight. -/
def Run.dropFlight (r : Run) (d idx : Nat) : Run :=
  r.setSlot d { r.slot d with flights := (r.slot d).flights.filter (fun f => f.idx != idx) }

/-- The bytes and marks that a flight leaves when it lands: atomic adds act on the shadow as it stands then,
in the order of landing (R284, R285). -/
def Flight.lands (f : Flight) (j : Job) (r : Run) : List (Nat × Nat × Byte) × List (Nat × Nat) :=
  let ms := f.marks.filterMap (fun m => if m.2.2 then some (m.1, m.2.1) else none)
  if f.atom = 0 then (f.writes, ms)
  else
    ( [0, 1, 2].flatMap (fun sp => addBytes j r f.dst sp (decide (f.atom = 2)) (ofSpace sp f.writes))
    , ms ++ [0, 1, 2].flatMap (fun sp => addMarks j r f.dst sp (ofSpace sp f.writes)) )

/-- The run after a move of slot `d` has landed. -/
def Run.landed (r : Run) (j : Job) (d : Nat) (f : Flight) : Run :=
  let w := f.lands j r
  let r := r.applyWrites f.dst w.1 w.2
  let r := r.noteLanding f.dst (ofSpace 0 w.1)
  (r.arrive f.dst f.arrival).dropFlight d f.idx

/-- No earlier record of the flight's engine is still in flight: one engine completes its records in the order in which
they issued (R364). -/
def Slot.inTurn (x : Slot) (f : Flight) : Bool :=
  match orderedEngine f.opcode with
  | some e => x.flights.all (fun g => orderedEngine g.opcode != some e || decide (f.idx ≤ g.idx))
  | none => true

/-- A move lands, with what the checks of its bytes find (R278, R472). -/
def State.landMove (s : State) (d idx : Nat) (chk : Chk) : State :=
  match s.flightAt d idx with
  | none => s
  | some (j, r, f) =>
    if isMove f.opcode && (r.slot d).inTurn f then
      let s := s.advance j (r.landed j d f)
      match chk with
      | .parity w6 w7 ut pu corrupt =>
        (s.raiseRun j.num (some d) (slotEvt j r d idx 0x01 ut pu (parityWord w6.toNat) w7.toNat 2) 0 true false).spoil
          j.num d corrupt
      | .sequencer w6 corrupt =>
        (s.raiseRun j.num (some d) (slotEvt j r d idx 0x03 1 (r.host d) (sequencerWord w6.toNat) (recHigh (j.recAt d idx)) 2)
          0 true false).spoil j.num d corrupt
      | .late => s.lockBreakJob j.num
      | _ => s
    else s

/-! ### Contributions (R318, R321) -/

/-- Ordinal of the contribution at a position of a segment (R318). -/
def sendOrdinal (seg : List W128) (n : Nat) : Nat := countIf (fun r => decide (rOpcode r.toNat = 0x70)) (seg.take n)

/-- Poison that a contribution carries. -/
def Contrib.marks (c : Contrib) : List (Nat × Nat × Bool) := c.consumed.map (fun p => (p.1, p.2 / 64, true))

/-- A contribution begins: its data is read now; a target on another device receives it through a port, one on
this device when the record completes. -/
def State.doSend (s : State) (d : Nat) (chk : Chk) : State :=
  match s.issueAt d 0x70 with
  | none => s
  | some i =>
    let s := s.readChecks i d chk
    match s.issueAt d 0x70 with
    | none => s
    | some i =>
      let c := s.ctx i.job i.run d
      let k := c.contrib i.rec_ i.rec2
      match k.consumed with
      | (sp, a) :: _ => s.consume i d sp a
      | [] =>
        let seg := segment (i.job.streamOf d) i.run.template
        let n := sendOrdinal seg.2 (i.idx d - seg.1)
        let mode := bits (nthD 0 i.job.bin.coll k.plan).toNat 123 122
        let term := hallmarkH (3 * 2 ^ 40 + n) k.csgn.toNat
        let f := i.flight d
        let f := match i.job.slotOf k.shard k.lcore with
          | some t => { f with writes := inSpace k.space k.writes, dst := t, arrival := k.arrival }
          | none => { f with send := some s.fab.nextSend }
        let s := s.markRead i.run d (c.reads i.rec_ i.rec2)
        let s := s.advance i.job (i.after d { slot := i.run.slot d } term f i.run.bank)
        let s := match i.job.slotOf k.shard k.lcore with
          | none => s.startSend i.job i.run d n k
          | some t => s.setRecv (i.run.ownRecv i.job s.deviceId d t n mode k.csgn)
        ((s.markCheck i d).chkReport i d chk).armReport i d

/-! ### Completion (R227, Table 8-8) -/

/-- A flight has reached its completion event: a contribution to another device when all its transactions have
completed with OK (R321). -/
def State.flightDone (s : State) (f : Flight) : Bool :=
  !isMove f.opcode && (match f.send with
    | none => true
    | some id => match s.send id with
      | some x => decide (x.state ≠ .streaming)
      | none => true)

/-- A contribution to a shard of this device lands: in the received set of the step, and in the run (R318, R322). -/
def State.landOwn (s : State) (j : Job) (r : Run) (d : Nat) (f : Flight) : State :=
  let seg := segment (j.streamOf d) r.template
  match s.ownAt j r d (sendOrdinal seg.2 (f.idx - seg.1)) with
  | some v =>
    let v := v.whole f.writes f.marks
    (s.setRun (resched j (((r.land j v f.arrival).landedWhole v).dropFlight d f.idx))).setRecv v
  | none => s.setRun (resched j (r.dropFlight d f.idx))

/-- The effect of RECORD_COMPLETE: the flight leaves its engine, and a contribution to this device lands (R318, R364). -/
def State.completeRecord (s : State) (d idx : Nat) : State :=
  match s.flightAt d idx with
  | none => s
  | some (j, r, f) =>
    if s.flightDone f && (r.slot d).inTurn f then
      if f.opcode = 0x70 ∧ f.send = none then s.landOwn j r d f else s.setRun (resched j (r.dropFlight d idx))
    else s

/-! ### Segments (R209, R230) -/

/-- The record of slot `d` is the control record `op`, its turn runs, and it has begun or not as `begun` says. -/
def State.controlAt (s : State) (d op : Nat) (begun : Bool) : Option (Job × Run) :=
  if s.held || !s.ready then none
  else match s.issuing with
    | none => none
    | some r =>
      match s.job r.job with
      | none => none
      | some j =>
        let x := r.slot d
        if decide (d < r.slots.length) && decide (look (r.host d) r.turns = some d) && (x.begun == begun) && !x.ended
            && decide (rOpcode (j.recAt d x.pc) = op) && x.flights.isEmpty then some (j, r) else none

/-- The check of a control record that has issued (R335). -/
def State.controlCheck (s : State) (j : Job) (r : Run) (d : Nat) (chk : Chk) : State :=
  s.chkReport ⟨j, r, j.recAt d (r.slot d).pc, j.recAt d ((r.slot d).pc + 1)⟩ d chk

/-- STEP_BEGIN opens a segment: no token is signalled (R230). -/
def State.beginSegment (s : State) (d : Nat) (chk : Chk) : State :=
  match s.controlAt d 0x01 false with
  | none => s
  | some (j, r) =>
    let x := r.slot d
    (s.setRun (resched j
      { r.setSlot d { x with pc := x.pc + 1, begun := true, started := s.time } with order := 3 })).controlCheck j r d chk

/-- The second-level plane entries that a slot writes after its last operation (R209). -/
def planeWrites (j : Job) (gm : List (Nat × Frac)) : List (Nat × Nat × Byte) :=
  gm.flatMap (fun e =>
    let d := j.bin.entry (e.1 / 65536)
    let g := e.1 % 65536
    if e.2.isZero then []
    else
      let a := dElemAddr d (g / dCols d) (g % dCols d)
      let bs := leBytes 4 (encodeS2 e.2)
      (List.range 4).map (fun k => (0, a + k, nthD 0 bs k)))

/-- A slot's digest as its run ends: a free value where a hardware check failed on its data (log 15). -/
def Slot.ending (x : Slot) (free : Nat) (terms : W128) : W128 :=
  if x.spoiled then BitVec.ofNat 128 (Config.freeNat (free * 16384)) else x.digest + terms

/-- A segment ends when every record of it has completed; the step's records are done with its last slot. -/
def State.endSegment (s : State) (d : Nat) (chk : Chk) : State :=
  match s.controlAt d 0x02 true with
  | none => s
  | some (j, r) =>
    let x := r.slot d
    let ws := planeWrites j x.groupMax
    let q := r.applyWrites d ws []
    let q := q.setSlot d
      { q.slot d with pc := x.pc + 1, ended := true, digest := x.ending s.freeCtr (digestOf ws) }
    let q := if q.slots.all (fun y => y.ended) then { q with order := 5 } else q
    ((s.advance j q).sample (0x800 + r.host d) 0 ((s.time - x.started).toNat / 1000)).controlCheck j r d chk

end Sys2Proof.Machine
end

