-- ==== Sys2Proof/Machine/EngineRecords.lean ====
section
/-! DEFINITION. The commands of the random fill, the mill, the finisher and the former: a record of slot `d` issues
and has its effect (R105, R128, R138, R142, R150, R154, R179 to R186, R242). -/

namespace Sys2Proof.Machine

/-- RNG_FILL (R242). -/
def execRngFill (d : Nat) (chk : Chk) (s : State) : Host.Outcome State Fault Refusal :=
  .next (s.doRecord d 0x03 chk doRng)

/-- MILL_LOAD (R105). -/
def execMillLoad (d : Nat) (chk : Chk) (s : State) : Host.Outcome State Fault Refusal :=
  .next (s.doRecord d 0x40 chk doMillLoad)

/-- A pass that issues ends the idling of its core's mill (R118). -/
def State.wakeMill (s t : State) (d : Nat) : State :=
  match s.issueAt d 0x41 with
  | some i =>
    let c := t.core (i.run.host d)
    if c.idle then t.setCore (i.run.host d) { c with idle := false } else t
  | none => t

/-- MILL_PASS (R128). -/
def execMillPass (d : Nat) (chk : Chk) (s : State) : Host.Outcome State Fault Refusal :=
  .next (s.wakeMill (s.doRecord d 0x41 chk doMillPass) d)

/-- ADD (R138). -/
def execAdd (d : Nat) (chk : Chk) (s : State) : Host.Outcome State Fault Refusal :=
  .next (s.doRecord d 0x50 chk (doElem .add))

/-- SUB (R138). -/
def execSub (d : Nat) (chk : Chk) (s : State) : Host.Outcome State Fault Refusal :=
  .next (s.doRecord d 0x51 chk (doElem .sub))

/-- MUL (R138). -/
def execMul (d : Nat) (chk : Chk) (s : State) : Host.Outcome State Fault Refusal :=
  .next (s.doRecord d 0x52 chk (doElem .mul))

/-- MAD (R138). -/
def execMad (d : Nat) (chk : Chk) (s : State) : Host.Outcome State Fault Refusal :=
  .next (s.doRecord d 0x53 chk (doElem .mad))

/-- MIN (R138). -/
def execMin (d : Nat) (chk : Chk) (s : State) : Host.Outcome State Fault Refusal :=
  .next (s.doRecord d 0x54 chk (doElem .min))

/-- MAX (R138). -/
def execMax (d : Nat) (chk : Chk) (s : State) : Host.Outcome State Fault Refusal :=
  .next (s.doRecord d 0x55 chk (doElem .max))

/-- ABS (R138). -/
def execAbs (d : Nat) (chk : Chk) (s : State) : Host.Outcome State Fault Refusal :=
  .next (s.doRecord d 0x56 chk (doElem .abs))

/-- NEG (R138). -/
def execNeg (d : Nat) (chk : Chk) (s : State) : Host.Outcome State Fault Refusal :=
  .next (s.doRecord d 0x57 chk (doElem .neg))

/-- CVT (R138). -/
def execCvt (d : Nat) (chk : Chk) (s : State) : Host.Outcome State Fault Refusal :=
  .next (s.doRecord d 0x58 chk (doElem .cvt))

/-- SEL (R138). -/
def execSel (d : Nat) (chk : Chk) (s : State) : Host.Outcome State Fault Refusal :=
  .next (s.doRecord d 0x59 chk (doElem .sel))

/-- CMPGE (R138). -/
def execCmpge (d : Nat) (chk : Chk) (s : State) : Host.Outcome State Fault Refusal :=
  .next (s.doRecord d 0x5a chk (doElem .cmpge))

/-- FIN_DRAIN (R142). -/
def execFinDrain (d : Nat) (chk : Chk) (s : State) : Host.Outcome State Fault Refusal :=
  .next (s.doRecord d 0x5B chk doDrain)

/-- FIN_REDUCE (R150). -/
def execFinReduce (d : Nat) (chk : Chk) (s : State) : Host.Outcome State Fault Refusal :=
  .next (s.doRecord d 0x5C chk doReduce)

/-- FIN_CHECK (R154). -/
def execFinCheck (d : Nat) (chk : Chk) (s : State) : Host.Outcome State Fault Refusal :=
  .next (s.doRecord d 0x5D chk doCheck)

/-- FRM_EVAL (R179). -/
def execFrmEval (d : Nat) (chk : Chk) (s : State) : Host.Outcome State Fault Refusal :=
  .next (s.doRecord d 0x60 chk (guarded doEval))

/-- FRM_SMAX_ACC (R183). -/
def execFrmSmaxAcc (d : Nat) (chk : Chk) (s : State) : Host.Outcome State Fault Refusal :=
  .next (s.doRecord d 0x61 chk (guarded doSmaxAcc))

/-- FRM_SMAX_OUT (R184). -/
def execFrmSmaxOut (d : Nat) (chk : Chk) (s : State) : Host.Outcome State Fault Refusal :=
  .next (s.doRecord d 0x62 chk (guarded doSmaxOut))

/-- FRM_RMS (R186). -/
def execFrmRms (d : Nat) (chk : Chk) (s : State) : Host.Outcome State Fault Refusal :=
  .next (s.doRecord d 0x63 chk (guarded doRms))

end Sys2Proof.Machine
end

