-- ==== Sys2Proof/Machine/Commands.lean ====
section
/-! DEFINITION. Host commands on a command ring: how one is consumed, and those of jobs, rings and sequences
(R237, R238, R245 to R256, R288, R289). -/

namespace Sys2Proof.Machine

/-! ### Consumption (R246, R248, R289) -/

/-- A poisoned entry or descriptor ends the job that owns the ring (R288, R289). -/
def State.poisonJob (s : State) (n addr : Nat) : State :=
  let u := s.blockUnit 2 0 (addr / 64)
  let e : Evt := { code := 0x0A, job := n, utype := u.1, punit := u.2, action := 9, w6 := 2 * 2 ^ 62 + addr / 64 * 64 }
  (s.raise e).programFault n 0x0105 addr { code := 0x10, job := n, action := 9 }

/-- Take the entry at HEAD of a ring of a kind, if it is the one `want` names: poison, then SEQ, then HEAD, then `k`. -/
def State.consumeEntry (s : State) (f : Fetch) (kind : Nat) (want : Cmd → Bool) (k : State → Cmd → State) : State :=
  match s.ringLive f.ring kind f with
  | none => s
  | some r =>
    if s.ringPoison r then s.poisonJob r.job (r.addr r.head)
    else
      let c := s.cmdAt f.ring r f
      if bits (c.w 0) 31 0 ≠ r.head.toNat then s.stale f.ring r
      else if want c then k ((s.fetched f r).setRing f.ring { r with head := r.head + 1 }) c
      else s

/-- RESULT0 of a command that is refused: of a STEP_RUN of a resident job, its last posted step (R250). -/
def State.runResult (s : State) (c : Cmd) : Nat :=
  match s.job c.job with
  | some j => if c.opcode = 2 then j.lastStep else 0
  | none => 0

/-- A host command of an opcode; an entry with a reserved opcode is taken by any command row (R249). -/
def State.command (s : State) (f : Fetch) (op : Nat) (h : State → Cmd → State) : State :=
  s.consumeEntry f 0 (fun c => c.opcode == op || c.opcode == 0 || decide (0x14 < c.opcode)) (fun s c =>
    match s.cmdCheck c with
    | 0 => h s c
    | code => s.pushCpl { c.cpl code with result0 := if c.opcode = 1 then c.w 4 else s.runResult c })

/-! ### Steps and jobs -/

/-- The effect of STEP_RUN on an accepted command. -/
def doStepRun (s : State) (c : Cmd) : State :=
  match s.job c.job with
  | none => s.finish c 0x0402
  | some j =>
    if j.bin.templates ≤ c.w 1 then s.pushCpl { c.cpl 0x0401 with result0 := s.runResult c }
    else
      let q : StepReq :=
        { template := c.w 1, left := if c.w 2 = 0 then none else some (c.w 2), posted := 0, locked := true
          ring := c.ring, seq := BitVec.ofNat 32 c.seq, stamp := s.stamp }
      { s.setJob { j with queue := j.queue ++ [q] } with stamp := s.stamp + 1 }

/-- STEP_RUN (R248). -/
def execStepRun (f : Fetch) (s : State) : Host.Outcome State Fault Refusal := .next (s.command f 0x02 doStepRun)

/-- The effect of SNAPSHOT on an accepted command. -/
def doSnapshot (s : State) (c : Cmd) : State :=
  match s.job c.job with
  | none => s.finish c 0x0402
  | some j =>
    if bits (c.w 2) 63 62 ≠ 1 then s.finish c 0x0401
    else s.setJob { j with snaps := j.snaps ++ [⟨c.w 1, bits (c.w 2) 47 0, c.ring, c.seq⟩] }

/-- SNAPSHOT (R252): the image is taken at the next step boundary. -/
def execSnapshot (f : Fetch) (s : State) : Host.Outcome State Fault Refusal := .next (s.command f 0x03 doSnapshot)

/-- The effect of JOB_END on an accepted command. -/
def doJobEnd (s : State) (c : Cmd) : State :=
  match s.job c.job with
  | none => s.finish c 0x0402
  | some j => if j.ending.isSome then s.finish c 0 else s.setJob { j with ending := some (c.ring, c.seq) }

/-- JOB_END (R238): takes effect with JOB_END_EFFECT. -/
def execJobEnd (f : Fetch) (s : State) : Host.Outcome State Fault Refusal := .next (s.command f 0x04 doJobEnd)

/-- The effect of JOB_ABORT on an accepted command. -/
def doJobAbort (s : State) (c : Cmd) : State := ((s.closeJob c.job 0).finish c 0).dropJob c.job

/-- JOB_ABORT (R238): the shadow is discarded, and the job ends at once. -/
def execJobAbort (f : Fetch) (s : State) : Host.Outcome State Fault Refusal := .next (s.command f 0x05 doJobAbort)

/-! ### Rings -/

/-- A ring that may receive completions of rings of a job (Table 8-15). -/
def State.peerOk (s : State) (job n : Nat) : Bool :=
  match s.ring n with
  | some r => decide (r.kind = 1) && (decide (r.job = job) || decide (r.job = 0))
  | none => false

/-- What a ring descriptor of four words breaks: 0, BAD_COMMAND or RING_UNKNOWN (R244, Table 8-25; log 31). -/
def State.descCheck (s : State) (job : Nat) (w : List Nat) : Nat :=
  let w0 := nthD 0 w 0
  let w1 := nthD 0 w 1
  let w2 := nthD 0 w 2
  let w3 := nthD 0 w 3
  let kind := bits w1 61 58
  let n := bits w1 57 53
  let loc := bits w1 63 62
  if bits w0 5 0 ≠ 0 ∨ 1 < loc ∨ 4 < kind ∨ n < 4 ∨ 24 < n ∨ bits w1 4 0 ≠ 0 ∨ bits w3 27 0 ≠ 0 then 0x0401
  else if bits w3 63 48 ≠ job ∨ (loc = 0 ∧ job = 0) then 0x0401
  else if ((kind = 1 ∨ kind = 4) ∧ bits w1 52 33 ≠ 0) ∨ 2 ^ n < (bits w2 63 32 + 2 ^ 32 - bits w2 31 0) % 2 ^ 32 then 0x0401
  else if (kind = 0 ∨ kind = 3) ∧ s.peerOk job (bits w1 52 33) = false then 0x0404
  else 0

/-- The ring that a descriptor describes. -/
def ringOf (w : List Nat) : Ring :=
  let w1 := nthD 0 w 1
  { base := BitVec.ofNat 64 (nthD 0 w 0), host := decide (bits w1 63 62 = 1), kind := bits w1 61 58
    sizeLog2 := bits w1 57 53, peerRing := bits w1 52 33, peerDev := BitVec.ofNat 16 (bits w1 32 17)
    msix := BitVec.ofNat 11 (bits w1 16 6), irqEn := bit w1 5, tail := BitVec.ofNat 32 (bits (nthD 0 w 2) 63 32)
    head := BitVec.ofNat 32 (bits (nthD 0 w 2) 31 0), job := bits (nthD 0 w 3) 63 48, stopped := false, entries := [], ahead := [] }

/-- Write a ring's number into its descriptor's RING field, where the command found the descriptor. -/
def State.writeDesc (s : State) (c : Cmd) (w3 n : Nat) : State :=
  let bs := leBytes 8 (setBits w3 47 28 n)
  if bits (c.w 2) 63 62 = 1 then s.hostWrite (c.w 1 + 24) bs
  else match s.job c.job with
    | some j => s.setJob { j with hbm := j.hbm.write (c.w 1 + 24) bs }
    | none => s

/-- A poisoned block among the bytes at a command's location in HBM. -/
def State.locPoison (s : State) (c : Cmd) (len : Nat) : Option Nat :=
  if bits (c.w 2) 63 62 = 0 then
    (match s.job c.job with
     | some j => ((List.range ((c.w 1 + len + 63) / 64 - c.w 1 / 64)).map (fun i => 64 * (c.w 1 / 64 + i))).find?
         (fun a => j.hbm.isPoisoned (a / 64))
     | none => none)
  else none

/-- The effect of RING_ALLOC on an accepted command. -/
def doRingAlloc (s : State) (c : Cmd) : State :=
  match s.locPoison c 32 with
  | some a => (s.poisonJob c.job a).finish c 0x0105
  | none =>
    let w := wordsOf (bytesAt (s.locBytes c (c.w 1) (c.w 2) c.data) 0 32) |>.take 4
    match (if bits (c.w 2) 47 0 < 32 then 0x0401 else s.descCheck c.job w) with
    | 0 =>
      (match lowestFree (s.rings.map (·.1)) 16 (2 ^ 20 - 16) with
       | none => s.finish c 0x0403
       | some n => ((s.setRing n (ringOf w)).writeDesc c (nthD 0 w 3) n).finishWith c n 0)
    | code => s.finish c code

/-- RING_ALLOC (R246). -/
def execRingAlloc (f : Fetch) (s : State) : Host.Outcome State Fault Refusal := .next (s.command f 0x06 doRingAlloc)

/-- A ring that a command may name: allocated, of the job, and not one of rings 0 to 15 (Table 8-25). -/
def State.namedRing (s : State) (job n : Nat) : Option Ring :=
  match s.ring n with
  | some r => if 16 ≤ n ∧ r.job = job then some r else none
  | none => none

/-- The effect of RING_FREE on an accepted command. -/
def doRingFree (s : State) (c : Cmd) : State :=
  match s.namedRing c.job (c.w 1) with
  | none => s.finish c 0x0404
  | some _ => ({ s with rings := del (c.w 1) s.rings }).finish c 0

/-- RING_FREE (R246). -/
def execRingFree (f : Fetch) (s : State) : Host.Outcome State Fault Refusal := .next (s.command f 0x07 doRingFree)

/-! ### Sequences (R254 to R256) -/

/-- A sequence request ring of a job. -/
def State.seqRing (s : State) (job n : Nat) : Bool :=
  match s.namedRing job n with
  | some r => decide (r.kind = 3)
  | none => false

/-- The effect of SEQ_OPEN on an accepted command. -/
def doSeqOpen (s : State) (c : Cmd) : State :=
  let w := c.w 1
  match s.job c.job with
  | none => s.finish c 0x0402
  | some j =>
    if !s.seqRing c.job (bits w 46 27) then s.finish c 0x0404
    else if j.bin.batch.length ≤ bits w 14 9 then s.finish c 0x0401
    else match lowestFree (s.seqTab.map (·.1)) 0 2048 with
      | none => s.finish c 0x0405
      | some i =>
        let e : SeqEntry :=
          { closing := false, job := c.job, lcore := bits w 8 0, rule := bits w 14 9, cacheDesc := bits w 26 15
            length := 0, reqRing := bits w 46 27 }
        ({ s with seqTab := put i e s.seqTab }).finishWith c i 0

/-- SEQ_OPEN (R255). -/
def execSeqOpen (f : Fetch) (s : State) : Host.Outcome State Fault Refusal := .next (s.command f 0x08 doSeqOpen)

/-- A sequence of a job. -/
def State.seqOf (s : State) (job i : Nat) : Option SeqEntry :=
  match look i s.seqTab with
  | some e => if e.job = job then some e else none
  | none => none

/-- The effect of SEQ_CLOSE on an accepted command. -/
def doSeqClose (s : State) (c : Cmd) : State :=
  let i := c.w 1
  match s.seqOf c.job i with
  | none => s.finish c 0x0406
  | some e =>
    if s.batches.any (fun b => b.reqs.any (fun q => q.index == i)) then
      ({ s with seqTab := put i { e with closing := true } s.seqTab }).finish c 0
    else ({ s with seqTab := del i s.seqTab }).finish c 0

/-- SEQ_CLOSE (R255). -/
def execSeqClose (f : Fetch) (s : State) : Host.Outcome State Fault Refusal := .next (s.command f 0x09 doSeqClose)

/-- The effect of BOUNDARY on an accepted command. -/
def doBoundary (s : State) (c : Cmd) : State :=
  match s.namedRing c.job (c.w 1) with
  | none => s.finish c 0x0404
  | some r =>
    if r.kind ≠ 3 then s.finish c 0x0404
    else if r.full then (s.raise { code := 0x11, job := r.job }).finish c 0
    else
      let w0 := BitVec.ofNat 64 (0x21 * 2 ^ 56 + c.job * 2 ^ 32)
      (s.produceIrq (c.w 1) r [w0, 0, 0, 0, 0, 0, 0, 0]).finish c 0

/-- BOUNDARY (R256): a marker entry at the ring's TAIL; a full ring takes none (R246). -/
def execBoundary (f : Fetch) (s : State) : Host.Outcome State Fault Refusal := .next (s.command f 0x0A doBoundary)

/-! ### Batches (R122, R123, R256) -/

/-- Requests of a batch when it closes by count. -/
def batchCount (rule : W64) : Nat := bits rule.toNat 63 58 + 1

/-- A job's batch rule. -/
def State.batchRule (s : State) (job rule : Nat) : W64 := match s.job job with | some j => nthD 0 j.bin.batch rule | none => 0

/-- Put a request into the first open batch of its key that does not hold its sequence, or into a new one. -/
def enter (job lcore rule count : Nat) (q : Req) : List Batch → List Batch
  | [] => [{ job := job, lcore := lcore, rule := rule, reqs := [q], closed := decide (count = 1), served := none }]
  | b :: t =>
    if b.job == job && b.lcore == lcore && b.rule == rule && !b.closed && !b.reqs.any (fun x => x.index == q.index) then
      { b with reqs := b.reqs ++ [q], closed := decide (count ≤ b.reqs.length + 1) } :: t
    else b :: enter job lcore rule count q t

/-- Completion of a refused sequence request (R250). -/
def Cmd.refused (c : Cmd) (status : Nat) : Completion := { c.cpl status with opcode := 0xC1 }

/-- A sequence ring's entry keeps the reserved bits clear and names the ring's job (Table 8-28). -/
def Cmd.seqWf (c : Cmd) (job : Nat) : Bool :=
  decide (bits (c.w 0) 55 48 = 0) && decide (c.job = job) && decide (bits (c.w 1) 63 11 = 0) && decide (c.w 7 = 0)

/-- The job that owns a ring. -/
def State.ringJob (s : State) (n : Nat) : Nat := match s.ring n with | some r => r.job | none => 0

/-- The effect of SEQUENCE_REQUEST on an accepted entry. -/
def doSeqRequest (s : State) (c : Cmd) : State :=
  let job := s.ringJob c.ring
  if c.opcode ≠ 0x20 ∨ c.seqWf job = false then s.pushCpl (c.refused 0x0401)
  else
    let i := bits (c.w 1) 10 0
    match s.seqOf job i with
    | none => s.pushCpl (c.refused 0x0406)
    | some e =>
      if e.closing then s.pushCpl (c.refused 0x0406)
      else if 16777215 ≤ e.length then s.pushCpl (c.refused 0x0407)
      else
        let q : Req := ⟨i, e.length, (List.range 5).map (fun k => BitVec.ofNat 64 (c.w (2 + k)))⟩
        { s with
          seqTab := put i { e with length := e.length + 1 } s.seqTab
          batches := enter job e.lcore e.rule (batchCount (s.batchRule job e.rule)) q s.batches }

/-- SEQUENCE_REQUEST (R256). An entry of neither kind is refused here. -/
def execSequenceRequest (f : Fetch) (s : State) : Host.Outcome State Fault Refusal :=
  .next (s.consumeEntry f 3 (fun c => c.opcode != 0x21) doSeqRequest)

/-- Close the first open batch of every key that `p` takes. -/
def closeFirst (p : Batch → Bool) : List (Nat × Nat) → List Batch → List Batch
  | _, [] => []
  | seen, b :: t =>
    let k := (b.lcore, b.rule)
    if !b.closed && !seen.contains k && p b then { b with closed := true } :: closeFirst p (k :: seen) t
    else b :: closeFirst p (if !b.closed && p b then k :: seen else seen) t

/-- A batch that a marker on a ring closes: its rule enables it, and a sequence of it uses the ring. R122 speaks of the
batch's ledger ring, and a batch may hold sequences of several request rings: here each of them is one (DESIGN CHOICE;
log 53). -/
def State.marked (s : State) (job ring : Nat) (b : Batch) : Bool :=
  b.job == job && bit (s.batchRule job b.rule).toNat 57 && b.reqs.any (fun q =>
    match look q.index s.seqTab with
    | some e => e.reqRing == ring
    | none => false)

/-- The effect of BOUNDARY_MARKER on an accepted entry. -/
def doMarker (s : State) (c : Cmd) : State :=
  let job := s.ringJob c.ring
  if c.seqWf job && (List.range 6).all (fun i => decide (c.w (i + 1) = 0)) then
    { s with batches := closeFirst (s.marked job c.ring) [] s.batches }
  else s.pushCpl (c.refused 0x0401)

/-- BOUNDARY_MARKER (R123). -/
def execBoundaryMarker (f : Fetch) (s : State) : Host.Outcome State Fault Refusal :=
  .next (s.consumeEntry f 3 (fun c => c.opcode == 0x21) doMarker)

/-- BATCH_TIMER (R122): the open batch of a logical core and rule closes, where the rule has a timer. -/
def execBatchTimer (job : BitVec 16) (lcore rule : Nat) (s : State) : Host.Outcome State Fault Refusal :=
  if batchTimerOf (s.batchRule job.toNat rule) = 0 then .next s
  else .next { s with
    batches := closeFirst (fun b => b.job == job.toNat && b.lcore == lcore && b.rule == rule) [] s.batches }

/-! ### On-demand assays (R386) -/

/-- A request holds an assay of the core. -/
def State.underRequest (s : State) (p : Nat) : Bool :=
  s.asy.jobs.any (fun j => j.core == p && (match j.why with | .request _ => true | _ => false))

/-- The effect of ASSAY_REQUEST on an accepted command. -/
def doAssayRequest (s : State) (c : Cmd) : State :=
  let w := c.w 1
  let id := bits w 31 16
  let ids := if id = 0 then s.flash.setIds (·.demand) else [id]
  match s.requestCores (bits w 63 62) (bits w 15 0) with
  | none => s.finish c 0x0206
  | some cores =>
    if id ≠ 0 ∧ (s.flash.setById id).isNone then s.finish c 0x0206
    else if cores.any s.underRequest then s.finish c 0x0207
    else if ids.isEmpty then s.pushCpl { c.cpl 0 with flags := 3 }
    else if cores.isEmpty then s.finish c 0
    else
      let n := s.asy.nextStamp
      let s := s.setAsy { s.asy with
        nextStamp := n + 1, reqs := s.asy.reqs ++ [⟨n, c.waiting, 0⟩] }
      (s.queueAssays cores ids (.request n) (bit w 61)).assaySettle

/-- ASSAY_REQUEST (R386). -/
def execAssayRequest (f : Fetch) (s : State) : Host.Outcome State Fault Refusal := .next (s.command f 0x0E doAssayRequest)

end Sys2Proof.Machine
end

