-- ==== Sys2Proof/Machine/Container.lean ====
section
/-! DEFINITION. The container of a binary: its header, directory and sections, and what breaks them (R218 to
R223, R233, R234, R253, R319, R373; log 36). -/

namespace Sys2Proof.Machine

/-- A failed check: section, record and code (R257). -/
structure Reject where
  sec : Nat
  rec_ : Nat
  code : Nat
deriving DecidableEq, Repr

/-- Where a check failed: section, then record. -/
def Reject.pos (r : Reject) : Nat := r.sec * 2 ^ 64 + r.rec_

/-- The failures of one record, by code. -/
def rejectsAt (sec rec_ : Nat) (cs : List (Bool × Nat)) : List Reject :=
  (cs.filter (fun c => c.1)).map (fun c => ⟨sec, rec_, c.2⟩)

/-- A byte list as little-endian numbers of `k` bytes each. -/
def wordList (k : Nat) (bs : List Byte) : List Nat := (chunks k (bs.length / k) bs).map leNat

/-! ### Header and directory -/

/-- A directory entry (Table 8-2). -/
structure Dir where
  type : Nat
  inst : Nat
  off : Nat
  len : Nat
  /-- every reserved bit is 0 -/
  clean : Bool
deriving DecidableEq, Repr

/-- The 32 words of the header (Table 8-1). -/
def headerOf (bs : List Byte) : List Nat := wordList 8 (bytesAt bs 0 256)

/-- Directory entries that the header counts. -/
def sectionCount (h : List Nat) : Nat := bits (nthD 0 h 0) 15 0

/-- A directory entry (Table 8-2). -/
def dirAt (bs : List Byte) (i : Nat) : Dir :=
  let w0 := natAt bs (256 + 32 * i) 8
  { type := bits w0 63 56
    inst := bits w0 55 40
    off := natAt bs (256 + 32 * i + 8) 8
    len := natAt bs (256 + 32 * i + 16) 8
    clean := decide (bits w0 39 0 = 0) && decide (natAt bs (256 + 32 * i + 24) 8 = 0) }

/-- The directory. -/
def dirsOf (bs : List Byte) : List Dir := (List.range (sectionCount (headerOf bs))).map (dirAt bs)

/-- Logical cores that a header counts. -/
def lcoresOf (h : List Nat) : Nat := bits (nthD 0 h 1) 63 55 + 1

/-- Header checks (Table 8-1, R218). -/
def headerRejects (bs : List Byte) (proof : Bool) : List Reject :=
  let h := headerOf bs
  let w (i : Nat) : Nat := nthD 0 h i
  if bs.length < 256 ∨ bits (w 0) 63 32 ≠ 0x4E495742 then [⟨0, 0, 0x0001⟩]
  else
    let reserved := decide (bits (w 0) 31 28 = 0) || decide (bits (w 0) 27 16 ≠ 0) || decide (bits (w 1) 6 0 ≠ 0)
      || (!bit (w 1) 38 && decide (bits (w 1) 36 21 ≠ 0)) || decide (bits (w 2) 63 48 = 0)
      || decide (bits (w 2) 47 0 ≠ 0) || decide (w 3 ≠ 0) || (h.drop 8).any (· ≠ 0)
    rejectsAt 0 0
      [ (decide (1 < bits (w 0) 31 28), 0x0002)
      , (decide (sectionCount h = 0) || decide (bs.length < 256 + 32 * sectionCount h), 0x0003)
      , (reserved, 0x0004)
      , (bit (w 1) 37 && !proof, 0x000E) ]

/-- Section types that appear exactly once. -/
def requiredTypes : List Nat := [0x01, 0x04, 0x06]

/-- Two byte ranges of the container meet. -/
def Dir.meets (a b : Dir) : Bool := decide (a.off < b.off + b.len) && decide (b.off < a.off + a.len)

/-- Whether a section's length suits its type: whole entries, and no more of them than the type allows. -/
def lengthOk (h : List Nat) (d : Dir) : Bool :=
  match d.type with
  | 0x01 => decide (2048 ≤ d.len ∧ d.len ≤ 2048 + 16 * 4096 ∧ d.len % 16 = 0)
  | 0x02 | 0x0A => decide (d.len % 8 = 0 ∧ d.len ≤ 512)
  | 0x03 | 0x05 => decide (d.len % 16 = 0)
  | 0x04 => decide (d.len = 16 * bits (nthD 0 h 2) 63 48)
  | 0x06 => decide (d.len % 8 = 0)
  | 0x07 => decide (d.len % 16 = 0 ∧ d.len ≤ 16 * 4096)
  | 0x08 => decide (d.len % 8 = 0 ∧ 8 ≤ d.len)
  | 0x09 => decide (d.len % 4 = 0)
  | 0x0B => decide (32 ≤ d.len)
  | _ => true

/-- Directory checks of entry `i` (R220, R221). -/
def dirRejects (bs : List Byte) (h : List Nat) (ds : List Dir) (i : Nat) (d : Dir) : List Reject :=
  let start := 256 + 32 * ds.length
  let known := decide (1 ≤ d.type ∧ d.type ≤ 0x0B)
  let inst := if d.type = 5 then decide (d.inst < lcoresOf h) else decide (d.inst = 0)
  let place := decide (d.off % 64 = 0) && decide (start ≤ d.off) && decide (d.off + d.len ≤ bs.length)
  let single := (ds.take i).all (fun e => !(e.type == d.type && e.inst == d.inst) && !e.meets d)
  rejectsAt i 0 [(!(known && inst && place && single && lengthOk h d), 0x0003), (!d.clean, 0x0004)]

/-- A section that must be there is missing: reported past the last section (log 36). -/
def missingRejects (h : List Nat) (ds : List Dir) : List Reject :=
  let all := requiredTypes.all (fun t => ds.any (fun d => d.type == t))
    && (List.range (lcoresOf h)).all (fun l => ds.any (fun d => d.type == 5 && d.inst == l))
  rejectsAt ds.length 0 [(!all, 0x0003)]

/-- What breaks the container itself. -/
def containerRejects (bs : List Byte) (proof : Bool) : List Reject :=
  match headerRejects bs proof with
  | r :: t => r :: t
  | [] =>
    let h := headerOf bs
    let ds := dirsOf bs
    (List.range ds.length).flatMap (fun i => dirRejects bs h ds i (nthD ⟨0, 0, 0, 0, false⟩ ds i))
      ++ missingRejects h ds

/-! ### The binary -/

/-- Index of the section of a type and instance. -/
def secOf (ds : List Dir) (type inst : Nat) : Nat :=
  (ds.findIdx? (fun d => d.type == type && d.inst == inst)).getD ds.length

/-- Bytes of the section of a type and instance; none where it is absent. -/
def secBytes (bs : List Byte) (ds : List Dir) (type inst : Nat) : List Byte :=
  match ds.find? (fun d => d.type == type && d.inst == inst) with
  | some d => bytesAt bs d.off d.len
  | none => []

/-- Types of the pool's entries. -/
def poolTypesOf (pool : List Byte) : List Nat :=
  (List.range ((pool.length - 2048) / 16)).map (fun j => bits (natAt pool (j / 2) 1) (4 * (j % 2) + 3) (4 * (j % 2)))

/-- Initial-image entries with their data (Table 8-27). -/
def imagesOf (img : List Byte) : List (List W64 × List Byte) :=
  (List.range (bits (natAt img 0 8) 63 48)).map (fun i =>
    let ws := wordList 8 (bytesAt img (32 + 32 * i) 32)
    (ws.map (BitVec.ofNat 64), if nthD 0 ws 2 ≤ img.length then bytesAt img (nthD 0 ws 1) (nthD 0 ws 2) else []))

/-- The binary that a container holds. -/
def binaryOf (bs : List Byte) : Binary :=
  let h := headerOf bs
  let ds := dirsOf bs
  let sec (t : Nat) : List Byte := secBytes bs ds t 0
  let pool := sec 1
  let hall := wordList 8 (sec 8)
  { digest := Config.sha384 bs
    header := h.map (BitVec.ofNat 64)
    poolTypes := poolTypesOf pool
    pool := (wordList 16 (pool.drop 2048)).map (BitVec.ofNat 128)
    rules := (wordList 8 (sec 2)).map (BitVec.ofNat 64)
    folds := (wordList 16 (sec 3)).map (BitVec.ofNat 128)
    steps := (wordList 16 (sec 4)).map (BitVec.ofNat 128)
    streams := (List.range (lcoresOf h)).map (fun l => (wordList 16 (secBytes bs ds 5 l)).map (BitVec.ofNat 128))
    escrow := (wordList 8 (sec 6)).map (BitVec.ofNat 64)
    coll := (wordList 16 (sec 7)).map (BitVec.ofNat 128)
    hallHeader := BitVec.ofNat 64 (nthD 0 hall 0)
    hall := (hall.drop 1).map (BitVec.ofNat 64)
    rng := (wordList 4 (sec 9)).map (BitVec.ofNat 32)
    batch := (wordList 8 (sec 0x0A)).map (BitVec.ofNat 64)
    images := imagesOf (sec 0x0B) }

end Sys2Proof.Machine
end

