-- ==== Sys2Proof/Machine/TableChecks.lean ====
section
/-! DEFINITION. What breaks the tables of a binary: pool, scale rules, folds, step table, escrow plan, collective
plan, hallmark plan, streams, batch rules and initial images (R41, R51, R124, R153, R201, R208, R215, R222 to
R224, R233, R234, R242, R253, R254, R256, R319, R324, R373; log 36). -/

namespace Sys2Proof.Machine

/-- A pool index that names a tensor descriptor, and one of the till. -/
def Binary.isTensor (b : Binary) (i : Nat) : Bool := decide (i ≠ 0) && decide (b.entryType i = 1)
def Binary.isTill (b : Binary) (i : Nat) : Bool := b.isTensor i && decide (dSpace (b.entry i) = 0)

/-- Logical size of a space in bytes (R224); a GB of HBM is 10^9 bytes (R8). -/
def spaceSize (space : Nat) : Nat :=
  match space with
  | 0 => 2 ^ 22
  | 1 => 2 ^ 29
  | _ => 1008 * 10 ^ 9

/-- Length of the image of a region (R224, R253). -/
def imageLen (d : W128) : Nat := dEnd d - dBase d

/-- The escrow plan declares a descriptor for a template with a kind that `p` takes. -/
def Binary.declares (b : Binary) (t desc : Nat) (p : Nat → Bool) : Bool :=
  b.escrow.any (fun e => decide (bits e.toNat 63 52 = desc) && decide (bits e.toNat 51 36 = t) && p (bits e.toNat 35 32))

/-! ### Constant pool -/

/-- What breaks a tensor descriptor (R224, Table 8-5). -/
def descRejects (d : W128) : List (Bool × Nat) :=
  let n := d.toNat
  let blk := isBlock (dFmt d)
  if dSpace d = 3 ∨ (fmtOf (dFmtCode d)).isNone ∨ (bit n 121 && !blk) = true ∨ 4 < dRole d ∨ bits n 116 112 ≠ 0 then
    [(true, 0x0004)]
  else
    [ (blk && decide ((if dRax d = 0 then dCols d else dRows d) % dBlock d ≠ 0), 0x0007)
    , (decide (dBase d % 32 ≠ 0) || decide (dPitch d < dRowBytes d) || decide (spaceSize (dSpace d) < dEnd d), 0x0016) ]

/-- What breaks a range envelope (R153). -/
def envRejects (n : Nat) : List (Bool × Nat) :=
  [ (decide (bits n 31 30 = 3) || decide (bits n 29 0 ≠ 0), 0x0004)
  , (decide (bits n 127 96 = 0x80000000) || decide (bits n 95 80 = 0x8000) || decide (bits n 79 64 = 0x8000), 0x000D) ]

/-- A descriptor that narrow fields do not reach (R259). -/
def tooWide (d : W128) : Bool := decide (65536 < dRows d) || decide (65536 < dCols d)

/-- What breaks an entry of the constant pool, by its type (R222); a parameter entry names its destination in narrow fields
(R259). -/
def poolRejects (sec : Nat) (b : Binary) (j : Nat) : List Reject :=
  let e := b.entry j
  rejectsAt sec j ((decide (j = 0) && decide (b.entryType j ≠ 0), 0x0003) ::
    (match b.entryType j with
     | 0 => [(decide (e ≠ 0), 0x0004)]
     | 1 => descRejects e
     | 2 => envRejects e.toNat
     | 3 =>
       let x := bits e.toNat 63 52
       [ (decide (bits e.toNat 19 0 ≠ 0), 0x0004)
       , (decide (b.entryType x = 1) && tooWide (b.entry x), 0x0016) ]
     | 4 => []
     | _ => [(true, 0x0004)]))

/-! ### Scale rules and folds -/

/-- A rule that has a second-level plane. -/
def hasPlane (r : Nat) : Bool := decide (bits r 63 60 = 3) || (decide (bits r 63 60 = 2) && bit r 43)

/-- What breaks an entry of the scale rule table (R201, Table 7-2). -/
def ruleRejects (sec : Nat) (b : Binary) (j : Nat) : List Reject :=
  let r := b.rule j
  let k := bits r 63 60
  let f := bits r 59 56
  let plane := bits r 42 31
  let dest := if k ≤ 1 then decide (6 ≤ f ∧ f ≤ 8) else decide (k ≤ 4) && decide (f = 9)
  let zero := (k = 0 ∨ bits r 55 52 = 0) ∧ (k = 1 ∨ k = 4 ∨ bits r 51 44 = 0) ∧ (k = 2 ∨ k = 3 ∨ bits r 43 43 = 0)
    ∧ (hasPlane r = true ∨ plane = 0) ∧ (k = 3 ∨ bits r 30 23 = 0) ∧ bits r 22 0 = 0
  let codes := (k ≠ 1 ∨ badExp (bits r 51 44) = false) ∧ (k ≠ 4 ∨ (1 ≤ bits r 51 44 ∧ bits r 51 44 ≤ 0x7F))
    ∧ (k ≠ 3 ∨ (1 ≤ bits r 30 23 ∧ bits r 30 23 ≤ 0x7F))
  let planeOk := !hasPlane r || (b.isTill plane && decide (dFmt (b.entry plane) = .fp32)
    && b.escrow.any (fun e => decide (bits e.toNat 63 52 = plane) && decide (bits e.toNat 35 32 = 1)))
  rejectsAt sec j [(!(dest && decide zero && decide codes && planeOk), 0x001C)]

/-- What breaks a fold table entry (Table 7-7). -/
def foldRejects (sec : Nat) (b : Binary) (j : Nat) : List Reject :=
  let e := (nthD 0 b.folds j).toNat
  let s := bits e 127 116
  let d := bits e 115 104
  rejectsAt sec j [(!(b.isTensor s && b.isTensor d) || decide (dCols (b.entry s) ≠ dRows (b.entry d))
    || decide (1 < bits e 103 100) || decide (1 < bits e 99 96) || decide (bits e 31 0 ≠ 0), 0x001D)]

/-! ### Step table, escrow plan, collective plan -/

/-- What breaks a step table entry (Table 8-10). -/
def stepRejects (sec : Nat) (b : Binary) (j : Nat) : List Reject :=
  rejectsAt sec j
    [ (decide (b.next j ≠ 0xFFFF) && decide (b.templates ≤ b.next j), 0x0003)
    , (decide (bits (b.stepEntry j) 46 0 ≠ 0), 0x0004) ]

/-- What breaks an entry of the escrow plan (R234). -/
def escrowRejects (sec : Nat) (b : Binary) (j : Nat) : List Reject :=
  let e := (nthD 0 b.escrow j).toNat
  rejectsAt sec j
    [ (decide (b.templates ≤ bits e 51 36), 0x0003)
    , (decide (2 < bits e 35 32) || decide (bits e 31 0 ≠ 0), 0x0004)
    , (!b.isTensor (bits e 63 52), 0x000D) ]

/-- Template that a collective plan entry serves. -/
def collTemplate (e : W128) : Nat := bits e.toNat 120 105

/-- What breaks an entry of the collective plan (R319). -/
def collRejects (sec : Nat) (b : Binary) (proof : Bool) (j : Nat) : List Reject :=
  let e := nthD 0 b.coll j
  if j = 0 then []
  else rejectsAt sec j
    [ (decide (b.templates ≤ collTemplate e), 0x0003)
    , (decide (3 < bits e.toNat 127 124) || decide (collMode e = 3) || decide (bits e.toNat 88 0 ≠ 0), 0x0004)
    , (proof && decide (collMode e = 2), 0x000E) ]

/-! ### Hallmark plan, streams, batch rules -/

/-- What breaks the head of the hallmark plan (R373). -/
def hallHeadRejects (sec : Nat) (b : Binary) : List Reject :=
  let h := b.hallHeader.toNat
  let l := bits h 63 52
  let d := b.entry l
  let n := bits h 51 39
  rejectsAt sec 0
    [ (decide (bits h 38 0 ≠ 0), 0x0004)
    , (!b.isTensor l || decide (dSpace d ≠ 2) || decide (dFmt d ≠ .t256) || decide (dCols d ≠ 1) || decide (dRole d ≠ 1)
        || decide (n = 0) || decide (4096 < n) || decide (n ≠ b.hall.length), 0x001F) ]

/-- What breaks an entry of the hallmark plan (R373). -/
def hallRejects (sec : Nat) (b : Binary) (j : Nat) : List Reject :=
  let e := (nthD 0 b.hall j).toNat
  let t := bits e 39 24
  let twice := (b.hall.take j).any (fun x => decide (bits x.toNat 39 21 = bits e 39 21))
  rejectsAt sec j
    [ (decide (bits e 20 0 ≠ 0), 0x0004)
    , (twice || !b.declares t (bits b.hallHeader.toNat 63 52) (fun _ => true), 0x001F) ]

/-- What breaks a random stream entry. -/
def rngRejects (sec : Nat) (b : Binary) (j : Nat) : List Reject :=
  rejectsAt sec j [(decide (bits (nthD 0 b.rng j).toNat 31 20 ≠ 0), 0x0004)]

/-- What breaks a batch rule (Table 8-20). -/
def batchRejects (sec : Nat) (b : Binary) (proof : Bool) (j : Nat) : List Reject :=
  let e := nthD 0 b.batch j
  let i := bits e.toNat 40 29
  rejectsAt sec j
    [ (decide (bits e.toNat 28 0 ≠ 0), 0x0004)
    , (!b.isTill i || decide (dRows (b.entry i) < 64) || decide (dRowBytes (b.entry i) < 64), 0x000D)
    , (proof && decide (batchTimerOf e ≠ 0), 0x000E) ]

/-! ### Initial images (R253) -/

/-- A word of an entry of the initial images section, and the descriptor it names (Table 8-27). -/
def Binary.imgWord (b : Binary) (j i : Nat) : Nat := (nthD 0 (nthD ([], []) b.images j).1 i).toNat
def Binary.imgDesc (b : Binary) (j : Nat) : Nat := bits (b.imgWord j 0) 63 52

/-- A shard of the range `[lo, hi]` that an entry names. -/
def Binary.imgHits (b : Binary) (j lo hi : Nat) : Bool :=
  bit (b.imgWord j 0) 38 || (decide (lo ≤ bits (b.imgWord j 0) 15 0) && decide (bits (b.imgWord j 0) 15 0 ≤ hi))

/-- Two entries write bytes of one memory, where shards `[lo, hi]` share the vault and HBM. -/
def Binary.imgMeets (b : Binary) (lo hi i j : Nat) : Bool :=
  let di := b.entry (b.imgDesc i)
  let dj := b.entry (b.imgDesc j)
  let wi := b.imgWord i 0
  let wj := b.imgWord j 0
  decide (dSpace di = dSpace dj) && meets (dBase di, dEnd di) (dBase dj, dEnd dj)
    && (if dSpace di = 0 then
          decide (bits wi 47 39 = bits wj 47 39) && (bit wi 38 || bit wj 38 || decide (bits wi 15 0 = bits wj 15 0))
        else b.imgHits i lo hi && b.imgHits j lo hi)

/-- What breaks an entry of the initial images section (R253). -/
def imageRejects (sec len : Nat) (b : Binary) (lo hi j : Nat) : List Reject :=
  let w0 := b.imgWord j 0
  let off := b.imgWord j 1
  let n := b.imgWord j 2
  let mode := bits w0 51 48
  let i := b.imgDesc j
  let d := b.entry i
  let data := if mode = 0 then decide (off % 64 = 0) && decide (off + n ≤ len) && decide (n = imageLen d)
    else decide (off = 0) && decide (n = 0)
  let core := if dSpace d = 0 then decide (bits w0 47 39 < b.lcores) else decide (bits w0 47 39 = 0)
  let shard := bit w0 38 || decide (bits w0 15 0 < b.shards)
  let twice := (List.range j).any (fun k => b.imgMeets lo hi k j)
  rejectsAt sec j
    [ (!(b.isTensor i && data && core && shard) || twice, 0x0003)
    , (decide (1 < mode) || decide (bits w0 37 16 ≠ 0) || decide (b.imgWord j 3 ≠ 0), 0x0004) ]

/-- The header of the section: its own words, at least one entry, and room for its entries. DEDUCED: a
count of 0, which Table 8-27 excludes, is a fault of the section (log 36). -/
def imageHeadRejects (sec : Nat) (img : List Byte) : List Reject :=
  let n := bits (natAt img 0 8) 63 48
  rejectsAt sec 0
    [ (decide (n = 0) || decide (img.length < 32 + 32 * n), 0x0003)
    , (decide (bits (natAt img 0 8) 47 0 ≠ 0) || (bytesAt img 8 24).any (· ≠ 0), 0x0004) ]

/-! ### All tables -/

/-- Failures of every table; `lo` to `hi` are the shards that this device hosts. -/
def tableRejects (bs : List Byte) (ds : List Dir) (b : Binary) (proof : Bool) (lo hi : Nat) : List Reject :=
  let sec (t : Nat) : Nat := secOf ds t 0
  let each (n : Nat) (f : Nat → List Reject) : List Reject := (List.range n).flatMap f
  let img := secBytes bs ds 0x0B 0
  each b.pool.length (poolRejects (sec 1) b)
    ++ each b.rules.length (ruleRejects (sec 2) b)
    ++ each b.folds.length (foldRejects (sec 3) b)
    ++ each b.steps.length (stepRejects (sec 4) b)
    ++ each b.escrow.length (escrowRejects (sec 6) b)
    ++ each b.coll.length (collRejects (sec 7) b proof)
    ++ (if (ds.any (fun d => d.type == 8)) then hallHeadRejects (sec 8) b ++ each b.hall.length (hallRejects (sec 8) b) else [])
    ++ each b.rng.length (rngRejects (sec 9) b)
    ++ each b.batch.length (batchRejects (sec 0x0A) b proof)
    ++ (if img.isEmpty then [] else imageHeadRejects (sec 0x0B) img)
    ++ each b.images.length (imageRejects (sec 0x0B) img.length b lo hi)

end Sys2Proof.Machine
end

