-- ==== Sys2Proof/Machine/RecordChecks.lean ====
section
/-! DEFINITION. What breaks the records of an operation stream, one record after the other: segments, tokens
that no record signals, operands, formats, tile buffers, tally lanes, requant blocks (R75, R81, R82, R86, R88,
R105, R129, R133, R137, R139, R142, R145, R148, R150, R156, R160, R187, R192, R197, R208, R210, R213, R218, R225,
R226, R228, R230, R234, R242, R259, R278, R282, R284, R318, R324, R373; log 36). -/

namespace Sys2Proof.Machine

/-- What a stream is checked against. -/
structure LoadEnv where
  bin : Binary
  proof : Bool
  lcore : Nat
deriving DecidableEq, Repr

/-- What the last load of a weight register fixed (Table 4-10). -/
structure Loaded where
  fmt : Nat
  q : Nat
  kRows : Nat
  nCols : Nat
  wK0 : Nat
  desc : Nat
deriving DecidableEq, Repr

/-- An operation on the tally bank: a pass, in its own numbering (R81). -/
structure TallyOp where
  fp32 : Bool
  index : Nat
  rows : Nat
  cols : Nat
  /-- it begins a reduction: overwrite or till load -/
  opens : Bool
deriving DecidableEq, Repr

/-- What earlier records of a stream leave for the checks of the next. -/
structure Scan where
  /-- template of the open segment -/
  open_ : Option Nat
  /-- template that the next segment must have -/
  next : Nat
  /-- local tokens that records of the segment signal -/
  signals : List Nat
  wreg0 : Option Loaded
  wreg1 : Option Loaded
  /-- format and rows written of each tile buffer (R133) -/
  tb : List (Option (Fmt × Nat))
  /-- operations on the tally bank, newest first -/
  ops : List TallyOp
  /-- pairs of plane and group that updating stores reach (R210) -/
  groups : List (Nat × Nat)
  /-- a requant block may go on here (R225) -/
  rq : Bool
  /-- quantised stores of the segment outside requant blocks: their SAT counts stand in the statistics that a
  later CHECK tests, until the step run ends (R149) -/
  stores : List Rect
  /-- stores that the last CHECK outside a block checked (R213) -/
  checked : List Rect
  /-- contributions of the segment so far -/
  sends : Nat
deriving DecidableEq, Repr

/-- What the checks of a segment start from: nothing written, no token signalled. -/
def Scan.start (next : Nat) (t : Option Nat) : Scan :=
  { open_ := t, next := next, signals := [], wreg0 := none, wreg1 := none, tb := [none, none, none, none], ops := []
    groups := [], rq := false, stores := [], checked := [], sends := 0 }

/-! ### Rectangles and formats -/

/-- A rectangle leaves its descriptor (R224). DEDUCED for mill loads and passes, whose tile or rows may pass
the descriptor's end under Table 4-10: such a record is rejected with DESCRIPTOR (log 36). -/
def areaOut (d : W128) (r0 nr c0 nc : Nat) : Bool := decide (dRows d < r0 + nr) || decide (dCols d < c0 + nc)
/-- A rectangle of a block format that does not hold whole blocks (R145, R282). -/
def blockOut (d : W128) (r0 nr c0 nc : Nat) : Bool :=
  isBlock (dFmt d) && (if dRax d = 0 then decide (c0 % dBlock d ≠ 0) || decide (nc % dBlock d ≠ 0)
    else decide (r0 % dBlock d ≠ 0) || decide (nr % dBlock d ≠ 0))

/-- A reserved format code; the format of a code; the formats that are quantised. -/
def badFmt (f : Nat) : Bool := (fmtOf f).isNone
def fmtC (f : Nat) : Fmt := (fmtOf f).getD .fp32
def quantFmt (f : Fmt) : Bool := isBlock f || decide (f = .i8)
/-- Formats that take round to odd (R66, R139). -/
def oddFmt (f : Fmt) : Bool := decide (f = .fp32) || decide (f = .p32) || decide (f = .p16)

/-- An index that is unused or names an entry of a type (R222). -/
def Binary.mayName (b : Binary) (i type : Nat) : Bool := decide (i = 0) || decide (b.entryType i = type)
/-- An index that names an entry of a type. -/
def Binary.names (b : Binary) (i type : Nat) : Bool := decide (i ≠ 0) && decide (b.entryType i = type)

/-- A literal whose code fills no more than its format's bits. -/
def Binary.literal (b : Binary) (i : Nat) (f : Fmt) : Bool :=
  b.names i 4 && decide ((b.entry i).toNat < 2 ^ fmtBits f)

/-! ### Tile buffers (R133) -/

/-- A read of rows of a tile buffer that no record wrote, or under another format. -/
def Scan.tbBad (s : Scan) (tb : Nat) (f : Option Fmt) (rows : Nat) : Bool :=
  match nthD none s.tb tb with
  | none => true
  | some (g, n) => decide (n < rows) || (match f with | some f => decide (f ≠ g) | none => false)

/-- A record writes rows of a tile buffer under a format. -/
def Scan.tbWrite (s : Scan) (tb : Nat) (f : Fmt) (rows : Nat) : Scan :=
  { s with tb := setNth s.tb tb (some (f, max rows (match nthD none s.tb tb with | some x => x.2 | none => 0))) }

/-! ### Tally lanes (R81, R82, R88, R142) -/

/-- An operation's rectangle holds a row-entry of a column. -/
def TallyOp.covers (o : TallyOp) (re col : Nat) : Bool :=
  decide (o.index ≤ re) && decide (re < o.index + o.rows) && decide (col < o.cols)

/-- Tally entry that holds a row-entry (Table 3-3). -/
def tallyEntryOf (fp32 : Bool) (re : Nat) : Nat := if fp32 then re / 8 else re

/-- An operation works on a tally entry of a column. -/
def TallyOp.touches (o : TallyOp) (entry col : Nat) : Bool :=
  decide (tallyEntryOf o.fp32 o.index ≤ entry) && decide (entry ≤ tallyEntryOf o.fp32 (o.index + o.rows - 1))
    && decide (col < o.cols)

/-- The tag that the segment gave an entry of a column. -/
def tagOf (entry col : Nat) (ops : List TallyOp) : Option Bool :=
  (ops.find? (fun o => o.opens && o.touches entry col)).map (fun o => o.fp32)

/-- A lane's reduction has begun in the segment and no tag change has ended it. -/
def laneLive (fp32 : Bool) (re col : Nat) : List TallyOp → Bool
  | [] => false
  | o :: t =>
    if o.opens && o.touches (tallyEntryOf fp32 re) col then
      (if o.fp32 = fp32 then o.covers re col || laneLive fp32 re col t else false)
    else laneLive fp32 re col t

/-- Passes into a lane since its reduction began (R75). -/
def lanePasses (fp32 : Bool) (re col : Nat) : List TallyOp → Nat
  | [] => 0
  | o :: t =>
    if decide (o.fp32 = fp32) && o.covers re col then (if o.opens then 1 else 1 + lanePasses fp32 re col t)
    else lanePasses fp32 re col t

/-- Mode of the latest begin at a row-entry, in either numbering (R142). -/
def latestBegin (re col : Nat) (ops : List TallyOp) : Option Bool :=
  (ops.find? (fun o => o.opens && o.covers re col)).map (fun o => o.fp32)

/-- Some lane of a rectangle has a property. -/
def anyLane (index rows cols : Nat) (p : Nat → Nat → Bool) : Bool :=
  (List.range rows).any (fun m => (List.range cols).any (fun c => p (index + m) c))

/-- Row-entries of a column in a mode (Table 3-3). -/
def tallyRange (fp32 : Bool) : Nat := if fp32 then 2048 else 256

/-- What a pass breaks on the tally bank; `o` is its own operation. -/
def passTally (o : TallyOp) (ops : List TallyOp) : List (Bool × Nat) :=
  let add := !o.opens
  [ (decide (tallyRange o.fp32 < o.index + o.rows)
      || (add && anyLane o.index o.rows o.cols (fun re c =>
            tagOf (tallyEntryOf o.fp32 re) c ops == some (!o.fp32))), 0x0008)
  , (add && anyLane o.index o.rows o.cols (fun re c => !laneLive o.fp32 re c ops), 0x0009)
  , (!o.fp32 && anyLane o.index o.rows o.cols (fun re c =>
        decide (2 ^ 25 - 1 < lanePasses false re c (o :: ops))), 0x000A) ]

/-- What a drain breaks on the tally bank. -/
def drainTally (index rows cols : Nat) (ops : List TallyOp) : List (Bool × Nat) :=
  let mode := (latestBegin index 0 ops).getD false
  [ (decide (tallyRange mode < index + rows), 0x0008)
  , (anyLane index rows cols (fun re c => latestBegin re c ops != some mode || !laneLive mode re c ops), 0x0009) ]

/-! ### Stores of the finisher and the former -/

/-- The destination of a store. -/
structure StoreF where
  till : Bool
  tb : Nat
  fmt : Fmt
  desc : Nat
  row : Nat
  rows : Nat
  col : Nat
  cols : Nat
  stat : Nat
  hall : Bool
  hslot : Nat
  rule : Nat
deriving DecidableEq, Repr

/-- The scale rule of a quantised store is missing or does not suit it (R201, R208, R213). The template of a
store that updates the plane must declare it; a store that only reads it is served by the rule's own check. -/
def LoadEnv.ruleBad (e : LoadEnv) (t : Nat) (rq : Bool) (x : StoreF) : Bool :=
  let r := e.bin.rule x.rule
  let p := rulePlane r
  decide (e.bin.rules.length ≤ x.rule) || decide (fmtOf (bits r 59 56) ≠ some x.fmt)
    || (hasPlane r && !((!ruleUpdate r || e.bin.declares t p (fun k => decide (k = 1)))
          && decide ((x.row + x.rows - 1) / 256 < dRows (e.bin.entry p) * dCols (e.bin.entry p))))
    || (rq && decide (ruleKind r = 3))

/-- Pairs of plane and group that an updating store reaches (R210). -/
def LoadEnv.ruleGroups (e : LoadEnv) (x : StoreF) : List (Nat × Nat) :=
  let r := e.bin.rule x.rule
  if x.till && quantFmt x.fmt && ruleUpdate r then
    (List.range ((x.row + x.rows - 1) / 256 + 1 - x.row / 256)).map (fun i => (rulePlane r, x.row / 256 + i))
  else []

/-- Pairs added to a list without repeats. -/
def addPairs (l new : List (Nat × Nat)) : List (Nat × Nat) :=
  new.foldl (fun l x => if l.contains x then l else l ++ [x]) l

/-- A hallmark that the record may not take (R156, R373). -/
def LoadEnv.hallBad (e : LoadEnv) (t : Nat) (x : StoreF) : Bool :=
  x.hall && !(x.till && decide (x.fmt ≠ .t256)
    && e.bin.hall.any (fun h => decide (bits h.toNat 39 24 = t) && decide (bits h.toNat 23 21 = x.hslot)))

/-- The bytes that a store writes, as a rectangle. -/
def StoreF.rect (x : StoreF) : Rect := ⟨x.desc, x.row, x.rows, x.col, x.cols, true, none, false⟩

/-- What a store of a record breaks (R145, R160, R208, R259). -/
def storeCodes (e : LoadEnv) (t : Nat) (s : Scan) (rq : Bool) (x : StoreF) : List (Bool × Nat) :=
  let d := e.bin.entry x.desc
  let till := e.bin.isTill x.desc
  let q := quantFmt x.fmt
  [ (decide (x.stat = 3), 0x001E)
  , (e.hallBad t x, 0x001F)
  , (x.till && !(till && decide (dFmt d = x.fmt)), 0x000D)
  , (!x.till && !isTbFmt x.fmt, 0x000D)
  , ((e.bin.isTensor x.desc && tooWide d) || (x.till && till && areaOut d x.row x.rows x.col x.cols), 0x0016)
  , (x.till && till && q && blockOut d x.row x.rows x.col x.cols, 0x0007)
  , (q && (e.ruleBad t rq x || decide (256 < (addPairs s.groups (e.ruleGroups x)).length)
      || (rq && !s.checked.any (fun c => decide (c.desc = x.desc)))), 0x001C) ]

/-- What a store leaves for the records after it. -/
def Scan.store (s : Scan) (e : LoadEnv) (rq : Bool) (x : StoreF) : Scan :=
  if x.till then
    let s := { s with groups := addPairs s.groups (e.ruleGroups x) }
    if quantFmt x.fmt && !rq then { s with stores := s.stores ++ [x.rect] } else s
  else s.tbWrite x.tb x.fmt x.rows

/-- A till source of a finisher record (R160). -/
def tillSource (e : LoadEnv) (desc fmt row rows col cols : Nat) : List (Bool × Nat) :=
  let d := e.bin.entry desc
  let till := e.bin.isTill desc
  [ (!(till && decide (fmtOf fmt = some (dFmt d))), 0x000D)
  , (till && (tooWide d || areaOut d row rows col cols), 0x0016) ]

/-! ### Control records and random fills -/

/-- A control record: SYNC and TEMPLATE (R230), reserved bits. -/
def controlCodes (r : Nat) : List (Bool × Nat) :=
  [ (decide (bits r 115 96 ≠ 0) || (decide (rOpcode r ≠ 1) && decide (bits r 95 80 ≠ 0)), 0x0003)
  , (decide (bits r 79 0 ≠ 0), 0x0004) ]

/-- RNG_FILL (R242). -/
def rngCodes (e : LoadEnv) (r : Nat) : List (Bool × Nat) :=
  let f := bits r 95 92
  let dist := bits r 91 90
  let dst := bits r 89 87
  let i := bits r 54 43
  let d := e.bin.entry i
  let rows := bits r 66 61 + 1
  let cols := bits r 60 55 + 1
  let row := bits r 42 27
  let col := 64 * bits r 26 17
  let lit := bits r 16 5
  let t := decodePosit ((e.bin.entry lit).toNat % 2 ^ 32) 32 2
  let prob := t.cls = .zero ∨ (t.cls = .finite ∧ t.neg = false ∧ t.num ≤ t.den)
  [ (badFmt f || decide (dist = 3) || decide (4 < dst) || decide (bits r 4 0 ≠ 0) || (decide (dist ≠ 2) && decide (lit ≠ 0)),
      0x0004)
  , ((decide (dist = 0) && !(decide (fmtC f = .fp32) && decide (dst = 4)))
      || (decide (dist = 1) && !oddFmt (fmtC f)), 0x000C)
  , (decide (dist = 2) && (quantFmt (fmtC f) || !(e.bin.literal lit .p32 && decide prob)), 0x000D)
  , (!e.bin.isTensor i || (decide (dst = 4) && !(e.bin.isTill i && decide (dFmt d = fmtC f)))
      || (decide (dst < 4) && !isTbFmt (fmtC f)), 0x000D)
  , (e.bin.isTensor i && (tooWide d || areaOut d row rows col cols), 0x0016)
  , (!e.bin.rng.any (fun x => decide (bits x.toNat 19 0 = bits r 86 67))
      || decide (2 ^ 36 ≤ (row + rows - 1) * dCols d + col + cols - 1), 0x0019) ]

/-! ### Mill records (Table 4-10)

DESIGN CHOICE: FMT_W and FMT_A are not compared with the formats of the descriptors; an ACC_DESC that a pass
does not use is accepted where it is 0 or names a tensor descriptor (R127, R128; log 50). -/

/-- What a MILL_LOAD breaks (Table 4-10). -/
def millLoadCodes (e : LoadEnv) (r : Nat) : List (Bool × Nat) :=
  let f := bits r 95 92
  let i := bits r 78 67
  let d := e.bin.entry i
  let k0 := bits r 66 51
  [ (badFmt f || decide (bits r 34 33 = 3) || decide (bits r 32 0 ≠ 0), 0x0004)
  , (!(isExactFmt (fmtC f) || isFp32Path (fmtC f)), 0x0005)
  , (isBlock (fmtC f) && decide (k0 % dBlock d ≠ 0), 0x0007)
  , (!e.bin.isTill i, 0x000D)
  , (e.bin.isTill i && (tooWide d || areaOut d k0 (qOf (bits r 34 33) * (bits r 90 85 + 1)) (bits r 50 35)
      (bits r 84 79 + 1)), 0x0016) ]

/-- A MILL_LOAD fixes what the passes of its weight register may do. -/
def Scan.load (s : Scan) (r : Nat) : Scan :=
  let l : Loaded := ⟨bits r 95 92, qOf (bits r 34 33), bits r 90 85 + 1, bits r 84 79, bits r 66 51, bits r 78 67⟩
  if bit r 91 then { s with wreg1 := some l } else { s with wreg0 := some l }

/-- The operation of a pass on the tally bank. -/
def passOp (r : Nat) : TallyOp :=
  ⟨isFp32Path (fmtC (bits r 95 92)), bits r 80 70, bits r 69 59 + 1, bits r 50 45 + 1, decide (bits r 84 83 ≠ 0)⟩

/-- What a MILL_PASS breaks (Table 4-10). -/
def millPassCodes (e : LoadEnv) (s : Scan) (r : Nat) : List (Bool × Nat) :=
  let fa := bits r 95 92
  let fw := bits r 91 88
  let a := fmtC fa
  let w := fmtC fw
  let i := bits r 44 33
  let d := e.bin.entry i
  let rows := bits r 69 59 + 1
  let cols := bits r 50 45 + 1
  let k := bits r 58 51 + 1
  let ai := bits r 16 5
  let ad := e.bin.entry ai
  let usesAcc := decide (bits r 84 83 = 2) || bit r 82
  let lane : Fmt := if isFp32Path a then .fp32 else .t256
  [ (badFmt fa || badFmt fw || decide (bits r 86 85 = 3) || decide (bits r 84 83 = 3) || bit r 81
      || decide (bits r 4 0 ≠ 0), 0x0004)
  , (!((isExactFmt a && isExactFmt w) || (isFp32Path a && isFp32Path w)), 0x0005)
  , (!e.bin.isTill i, 0x000D)
  , (if usesAcc then !(e.bin.isTill ai && decide (dFmt ad = lane) && decide (rows ≤ dRows ad) && decide (cols ≤ dCols ad))
      else !e.bin.mayName ai 1, 0x000D) ]
  ++ passTally (passOp r) s.ops
  ++ (match (if bit r 87 then s.wreg1 else s.wreg0) with
    | none => [(true, 0x0006)]
    | some l =>
      [ (decide (l.fmt ≠ fw) || decide (l.q ≠ passQ a w) || decide (l.q * l.kRows < k)
          || decide (l.nCols < bits r 50 45), 0x0006)
      , ((isBlock w && (decide (l.wK0 % dBlock (e.bin.entry l.desc) ≠ 0) || decide (k % dBlock (e.bin.entry l.desc) ≠ 0)))
          || (isBlock a && (decide (l.wK0 % dBlock d ≠ 0) || decide (k % dBlock d ≠ 0))), 0x0007)
      , (e.bin.isTill i && (tooWide d || areaOut d (bits r 32 17) rows l.wK0 k), 0x0016) ])

/-! ### Finisher records -/

/-- Operands that an element-wise opcode uses (Table 5-2). -/
def elemArity (op : Nat) : Nat :=
  if op = 0x53 ∨ op = 0x59 then 3 else if op = 0x56 ∨ op = 0x57 ∨ op = 0x58 then 1 else 2

/-- Source and format codes of the operands that a record uses. -/
def elemSources (r : Nat) : List (Nat × Nat) :=
  [(bits r 79 77, bits r 91 88), (bits r 76 74, bits r 87 84), (bits r 73 72, bits r 83 80)].take (elemArity (rOpcode r))

/-- The store of an element-wise record (Table 5-11). -/
def elemStore (r : Nat) : StoreF :=
  { till := decide (bits r 71 69 = 4), tb := bits r 71 69, fmt := fmtC (bits r 95 92), desc := bits r 49 38
    row := bits r 37 22, rows := bits r 61 56 + 1, col := 64 * bits r 21 12, cols := bits r 55 50 + 1
    stat := bits r 67 66, hall := bit r 65, hslot := bits r 64 62, rule := bits r 5 0 }

/-- What an element-wise record breaks (R139, R145, R148, R160). -/
def elemCodes (e : LoadEnv) (t : Nat) (s : Scan) (r : Nat) : List (Bool × Nat) :=
  let n := elemArity (rOpcode r)
  let srcs := elemSources r
  let x := elemStore r
  let q := quantFmt x.fmt
  let k := bits r 11 0
  let fmts := [bits r 95 92, bits r 91 88, bits r 87 84, bits r 83 80]
  let tills := countIf (fun y : Nat × Nat => decide (y.1 = 4)) srcs
  let consts := countIf (fun y : Nat × Nat => decide (y.1 = 5)) srcs
  [ (fmts.any badFmt || decide (4 < bits r 71 69)
      || (decide (n < 2) && (decide (bits r 87 84 ≠ 0) || decide (bits r 76 74 ≠ 7)))
      || (decide (n < 3) && (decide (bits r 83 80 ≠ 0) || decide (bits r 73 72 ≠ 0)))
      || (q && decide (bits r 11 6 ≠ 0)), 0x0004)
  , (srcs.any (fun y => decide (y.1 = 7)) || decide (1 < tills + b2n x.till) || decide (1 < consts)
      || (decide (0 < consts) && q) || !e.bin.mayName x.desc 1
      || srcs.any (fun y => decide (y.1 = 5) && !e.bin.literal k (fmtC y.2)), 0x000D)
  , (q && (decide (rOpcode r ≠ 0x58) || !x.till), 0x000D)
  , (srcs.any (fun y => decide (y.1 < 4) && s.tbBad y.1 (some (fmtC y.2)) x.rows), 0x000B)
  , (bit r 68 && !oddFmt x.fmt, 0x000C) ]
  ++ srcs.flatMap (fun y => if y.1 = 4 then tillSource e x.desc y.2 x.row x.rows x.col x.cols else [])
  ++ storeCodes e t s (rRq r) x

/-- The store of a FIN_DRAIN (Table 5-12). -/
def drainStore (r : Nat) : StoreF :=
  { till := decide (bits r 82 80 = 4), tb := bits r 82 80, fmt := fmtC (bits r 95 92), desc := bits r 44 33
    row := bits r 32 17, rows := bits r 56 51 + 1, col := 64 * bits r 16 7, cols := bits r 50 45 + 1
    stat := bits r 78 77, hall := bit r 76, hslot := bits r 75 73, rule := bits r 6 1 }

/-- What a FIN_DRAIN breaks (R142, R145, R160). -/
def drainCodes (e : LoadEnv) (t : Nat) (s : Scan) (r : Nat) : List (Bool × Nat) :=
  let x := drainStore r
  let fuse := bits r 84 83
  let sz := bits r 87 85
  let fz := bits r 91 88
  [ (badFmt (bits r 95 92) || badFmt fz || decide (fuse = 3) || decide (4 < bits r 82 80) || bit r 0
      || (decide (fuse = 0) && (decide (fz ≠ 0) || decide (sz ≠ 7))), 0x0004)
  , (decide (fuse ≠ 0) && (decide (sz = 5) || decide (sz = 7) || (decide (sz ≠ 6) && !isTbFmt (fmtC fz))
      || (decide (sz = 4) && x.till)), 0x000D)
  , (!e.bin.mayName x.desc 1 || (quantFmt x.fmt && !x.till), 0x000D)
  , (decide (fuse ≠ 0) && decide (sz < 4) && s.tbBad sz (some (fmtC fz)) x.rows, 0x000B)
  , (bit r 79 && !oddFmt x.fmt, 0x000C) ]
  ++ (if fuse ≠ 0 ∧ sz = 4 then tillSource e x.desc fz x.row x.rows x.col x.cols else [])
  ++ drainTally (bits r 67 57) x.rows x.cols s.ops
  ++ storeCodes e t s (rRq r) x

/-- What a FIN_REDUCE breaks (Table 5-13). -/
def reduceCodes (e : LoadEnv) (r : Nat) : List (Bool × Nat) :=
  let f := fmtC (bits r 95 92)
  let fp := bits r 91 88
  let i := bits r 53 42
  let d := e.bin.entry i
  [ (badFmt (bits r 95 92) || (decide (fp ≠ 0) && decide (fp ≠ 0xA)) || decide (bits r 41 0 ≠ 0), 0x0004)
  , (bit r 84 && !oddFmt f, 0x000C)
  , (!isTbFmt f || !(e.bin.isTill i && decide (dFmtCode d = fp)), 0x000D)
  , (e.proof && bit r 87 && decide (fp = 0), 0x000E)
  , (decide (bits r 83 82 = 3), 0x001E)
  , (e.bin.isTill i && areaOut d 0 ((bits r 81 66 + 1) * (bits r 65 60 + 1)) 0 (bits r 59 54 + 1), 0x0016) ]

/-- What a FIN_CHECK breaks (Table 5-13). -/
def checkCodes (e : LoadEnv) (r : Nat) : List (Bool × Nat) :=
  [(decide (bits r 77 0 ≠ 0), 0x0004), (!e.bin.names (bits r 95 84) 2, 0x000D)]

/-! ### Former records (R187, R192, R197 to R199) -/

/-- The parameter entry of a former record. -/
def LoadEnv.param (e : LoadEnv) (r : Nat) : Nat := if bits r 35 24 = 0 then 0 else (e.bin.entry (bits r 35 24)).toNat

/-- The store of a former record, from its parameter entry (Table 6-17). -/
def formerStore (p r : Nat) : StoreF :=
  { till := bit r 79, tb := bits r 78 77, fmt := fmtC (bits r 95 92), desc := bits p 63 52, row := bits p 51 36
    rows := bits r 47 42 + 1, col := 64 * bits p 35 26, cols := bits r 41 36 + 1, stat := bits r 53 52
    hall := bit r 51, hslot := bits r 50 48, rule := bits p 25 20 }

/-- What a former record breaks (R197 to R199). DESIGN CHOICE: a PARAM that the record does not use is accepted where it
names a parameter entry, and FIRST outside FRM_SMAX_ACC is accepted and ignored (log 20). -/
def formerCodes (e : LoadEnv) (t : Nat) (s : Scan) (r : Nat) : List (Bool × Nat) :=
  let op := rOpcode r
  let p := e.param r
  let x := formerStore p r
  let rows := x.rows
  let sb := bits r 85 83
  let ss := bits r 82 80
  let soft := decide (op = 0x61) || decide (op = 0x62)
  let eval := decide (op = 0x60)
  let rms := decide (op = 0x63)
  let mask := bits r 23 22
  let uses := (x.till && decide (op ≠ 0x61)) || (eval && decide (sb = 5)) || ((eval || rms) && decide (ss = 5))
    || (soft && decide (mask = 2)) || rms
  let eps := decodePosit (bits p 127 96) 32 2
  [ (badFmt (bits r 95 92) || badFmt (bits r 91 88) || decide (sb = 4) || decide (sb = 6) || decide (ss = 4)
      || decide (ss = 6) || decide (mask = 3)
      || (decide (op = 0x61) && (bits r 79 77 != 0 || x.stat != 0 || x.hall)), 0x0004)
  , (decide (bits r 18 0 ≠ 0) || !isTbFmt (fmtC (bits r 91 88)) || decide (x.fmt = .i8) || decide (x.fmt = .t256)
      || (!eval && decide (bits r 76 71 ≠ 0)) || (!soft && decide (bits r 23 20 ≠ 0)) || (!eval && isBlock x.fmt), 0x0010)
  , (if uses then !e.bin.names (bits r 35 24) 3 else !e.bin.mayName (bits r 35 24) 3, 0x000D)
  , (rms && (decide (eps.cls = .invalid) || eps.neg), 0x000D)
  , (e.proof && decide (bits r 70 55 = 0), 0x000E)
  , (s.tbBad (bits r 87 86) (some (fmtC (bits r 91 88))) rows || (eval && decide (sb < 4) && s.tbBad sb none rows)
      || (eval && decide (ss < 4) && s.tbBad ss none rows) || (rms && decide (ss < 4) && s.tbBad ss none 1)
      || (soft && decide (mask = 1) && s.tbBad (bits r 21 20) none rows), 0x000B) ]
  ++ (if op = 0x61 then [(e.bin.isTensor x.desc && tooWide (e.bin.entry x.desc), 0x0016)] else storeCodes e t s (rRq r) x)

/-! ### Moves, atomic adds and contributions (R282, R284, R324)

Checks of the first record stand at it; checks of the second record, and those that involve both, at the
second (R257). -/

/-- The source rectangle of a copy (R224, R281, R282). -/
def sourceCodes (e : LoadEnv) (r : Nat) (turned : Bool) : List (Bool × Nat) :=
  let i := bits r 95 84
  let d := e.bin.entry i
  let ok := e.bin.isTensor i
  let nr := bits r 45 34 + 1
  let nc := bits r 33 28 + 1
  [ (!ok || (turned && (decide (64 < nr) || !isTbFmt (dFmt d))), 0x000D)
  , (ok && !turned && blockOut d (bits r 83 60) nr (64 * bits r 59 46) nc, 0x0007)
  , (ok && areaOut d (bits r 83 60) nr (64 * bits r 59 46) nc, 0x0016) ]

/-- The destination rectangle of a copy, and its common fields (R224, R278, R282, R318). -/
def targetCodes (e : LoadEnv) (r r2 di dr dc : Nat) (turned : Bool) : List (Bool × Nat) :=
  let sd := e.bin.entry (bits r 95 84)
  let dd := e.bin.entry di
  let ok := e.bin.isTensor di
  let nr := bits r 45 34 + 1
  let nc := bits r 33 28 + 1
  [ (decide (bits r2 115 96 ≠ 0) || decide (rLevel r2 = 0), 0x0004)
  , (decide (1 < rLevel r2), 0x0002)
  , (!ok || (e.bin.isTensor (bits r 95 84)
      && (decide (dFmtCode sd ≠ dFmtCode dd) || decide (dBlock sd ≠ dBlock dd) || decide (dRax sd ≠ dRax dd))), 0x000D)
  , (ok && !turned && blockOut dd dr nr dc nc, 0x0007)
  , (ok && areaOut dd dr (if turned then nc else nr) dc (if turned then nr else nc), 0x0016) ]

/-- The format that an atomic add works on (R284). -/
def atomFmt (op : Nat) : Fmt := if op = 0x22 then .t256 else .fp32

/-- What the first record of a MOVE or an atomic add breaks. -/
def moveCodes (e : LoadEnv) (r : Nat) : List (Bool × Nat) :=
  let op := rOpcode r
  let sd := e.bin.entry (bits r 95 84)
  [ (decide (bits r 26 0 ≠ 0), 0x0004)
  , (decide (op ≠ 0x20) && (bit r 27 || decide (dSpace sd ≠ 0) || decide (dFmt sd ≠ atomFmt op)), 0x000D)
  , (e.proof && decide (op = 0x23), 0x000E) ]
  ++ sourceCodes e r (bit r 27)

/-- What a MOVE_DST breaks, beside its first record. -/
def moveDstCodes (e : LoadEnv) (t r r2 : Nat) : List (Bool × Nat) :=
  let op := rOpcode r
  let di := bits r2 95 84
  let dd := e.bin.entry di
  let lc := bits r2 45 37
  [ (decide (bits r2 31 0 ≠ 0), 0x0004)
  , (if dSpace dd = 0 then decide (e.bin.lcores ≤ lc) else decide (lc ≠ 0), 0x000D)
  , (bit r2 36 && decide (lc = e.lcore), 0x000D)
  , (decide (op ≠ 0x20) && (decide (lc ≠ 0) || bit r2 36 || decide (dSpace dd ≠ 2) || decide (dFmt dd ≠ atomFmt op)
      || !e.bin.declares t di (fun k => decide (k = 1))), 0x000D) ]
  ++ targetCodes e r r2 di (bits r2 83 60) (64 * bits r2 59 46) (bit r 27)

/-- A contribution of some shard targets its own sender, or a pair that does not exist. -/
def targetBad (b : Binary) (l r2 : Nat) : Bool :=
  let shard := bits r2 94 79
  let lc := bits r2 78 70
  decide (b.lcores ≤ lc)
    || (if bit r2 95 then decide (shard % b.shards = 0) && decide (lc = l)
        else decide (b.shards ≤ shard) || decide (lc = l))

/-- What a COLL_SEND breaks (R318, R324). -/
def sendCodes (e : LoadEnv) (t : Nat) (s : Scan) (r : Nat) : List (Bool × Nat) :=
  let plan := bits r 27 16
  [ (decide (plan = 0) || decide (e.bin.coll.length ≤ plan) || decide (collTemplate (nthD 0 e.bin.coll plan) ≠ t)
      || !e.bin.coll1 t, 0x0003)
  , (decide (bits r 15 0 ≠ 0), 0x0004)
  , (decide (65536 ≤ s.sends), 0x000D) ]
  ++ sourceCodes e r false

/-- What a COLL_DST breaks, beside its first record. -/
def collDstCodes (e : LoadEnv) (t r r2 : Nat) : List (Bool × Nat) :=
  let mode := collMode (nthD 0 e.bin.coll (bits r 27 16))
  let di := bits r2 69 58
  let dd := e.bin.entry di
  [ (decide (bits r2 14 0 ≠ 0), 0x0004)
  , (targetBad e.bin e.lcore r2, 0x000D)
  , (!e.bin.declares t di (fun k => decide (mode = 0) || decide (k = 1))
      || (decide (mode = 1) && decide (dFmt dd ≠ .t256)) || (decide (mode = 2) && decide (dFmt dd ≠ .fp32)), 0x000D)
  , (e.bin.isTensor di && decide (dRole dd = 0), 0x0013) ]
  ++ targetCodes e r r2 di (bits r2 57 34) (64 * bits r2 33 20) false

/-! ### One record -/

/-- Opcodes that level 1 assigns (R137, R197, R226, R278, R318). -/
def opAssigned (op : Nat) : Bool :=
  decide (op ≤ 0x03) || (decide (0x20 ≤ op) && decide (op ≤ 0x23)) || decide (op = 0x40) || decide (op = 0x41)
    || (decide (0x50 ≤ op) && decide (op ≤ 0x5D)) || (decide (0x60 ≤ op) && decide (op ≤ 0x63)) || decide (op = 0x70)
    || decide (op = 0x71)

/-- A record that another must follow. -/
def isPairFirst (op : Nat) : Bool := decide (op = 0x20) || decide (op = 0x22) || decide (op = 0x23) || decide (op = 0x70)
/-- A record that must follow another. -/
def isPairSecond (op : Nat) : Bool := decide (op = 0x21) || decide (op = 0x71)

/-- The record that must follow a first record. -/
def secondOf (op : Nat) : Nat := if op = 0x70 then 0x71 else 0x21

/-- A move or a contribution lands with a declared arrival for a token on logical core `l` of shard `s` (R228). -/
def arrivalsOf (b : Binary) (t l token : Nat) (shard : Nat) : Bool :=
  (List.range b.lcores).any (fun k => (b.recs k t).any (fun p =>
    (isPairMove (rOpcode p.1) && bit p.2 36 && decide (48 + bits p.2 35 32 = token) && decide (bits p.2 45 37 = l)
      && decide (k ≠ l))
    || (decide (rOpcode p.1 = 0x70) && bit p.2 19 && decide (48 + bits p.2 18 15 = token) && decide (bits p.2 78 70 = l)
      && (bit p.2 95 || decide (bits p.2 94 79 = shard)))))
where
  isPairMove (op : Nat) : Bool := decide (op = 0x20) || decide (op = 0x22) || decide (op = 0x23)

/-- Waits that nothing can meet, and signals of arrival tokens (R228). -/
def tokenBad (e : LoadEnv) (t : Nat) (s : Scan) (r : Nat) : Bool :=
  let wait (w : Nat) : Bool :=
    if w = 0 then false
    else if w < 48 then !s.signals.contains w
    else (List.range e.bin.shards).any (fun k => !arrivalsOf e.bin t e.lcore w k)
  wait (rWaitA r) || wait (rWaitB r) || decide (48 ≤ rSignal r)

/-- The part of the checks that turns on the opcode. -/
def opCodes (e : LoadEnv) (t : Nat) (s : Scan) (r : Nat) : List (Bool × Nat) :=
  match rOpcode r with
  | 0x00 => controlCodes r
  | 0x03 => rngCodes e r
  | 0x20 | 0x22 | 0x23 => moveCodes e r
  | 0x40 => millLoadCodes e r
  | 0x41 => millPassCodes e s r
  | 0x5B => drainCodes e t s r
  | 0x5C => reduceCodes e r
  | 0x5D => checkCodes e r
  | 0x60 | 0x61 | 0x62 | 0x63 => formerCodes e t s r
  | 0x70 => sendCodes e t s r
  | op => if 0x50 ≤ op ∧ op ≤ 0x5A then elemCodes e t s r else []

/-- The checks of a pair's second record `r2` and of both together (R257). -/
def secondCodes (e : LoadEnv) (t : Nat) (r r2 : Nat) : List (Bool × Nat) :=
  if rOpcode r = 0x70 then collDstCodes e t r r2 else moveDstCodes e t r r2

/-- What the rectangles of a record break: writes that the escrow plan does not name (R234), reported at the
record that names the destination, and reads of a requant block (R213). -/
def rectCodes (e : LoadEnv) (t : Nat) (s : Scan) (r r2 : Nat) : List (Bool × Nat) × List (Bool × Nat) :=
  let wk0 := match (if bit r 87 then s.wreg1 else s.wreg0) with | some l => l.wK0 | none => 0
  let xs := rects r r2 wk0 (e.param r)
  let bad (x : Rect) : Bool := x.write && e.bin.isTensor x.desc
    && (decide (dRole (e.bin.entry x.desc) = 0) || !e.bin.declares t x.desc (fun _ => true))
  let again (x : Rect) : Bool := !x.write && e.bin.isTill x.desc
    && (rectRanges (e.bin.entry x.desc) x).any (fun q => s.checked.any (fun c =>
        (rectRanges (e.bin.entry c.desc) c).any (fun w => meets q w)))
  ([(rRq r && xs.any again, 0x001C)], [(xs.any bad, 0x0013)])

/-- What the record leaves for the next ones. -/
def Scan.after (s : Scan) (e : LoadEnv) (r : Nat) : Scan :=
  let rq := rRq r
  let s := match rOpcode r with
    | 0x03 => if bits r 89 87 < 4 then s.tbWrite (bits r 89 87) (fmtC (bits r 95 92)) (bits r 66 61 + 1) else s
    | 0x40 => s.load r
    | 0x41 => { s with ops := passOp r :: s.ops }
    | 0x5B => s.store e rq (drainStore r)
    | 0x5C => s.tbWrite (bits r 86 85) (fmtC (bits r 95 92)) (bits r 65 60 + 1)
    | 0x5D => if rq then s else { s with checked := s.stores }
    | 0x60 | 0x62 | 0x63 => s.store e rq (formerStore (e.param r) r)
    | 0x70 => { s with sends := s.sends + 1 }
    | op => if 0x50 ≤ op ∧ op ≤ 0x5A then s.store e rq (elemStore r) else s
  { s with
    rq := rq || decide (rOpcode r = 0x5D)
    signals := if 1 ≤ rSignal r ∧ rSignal r < 48 then rSignal r :: s.signals else s.signals }

/-- The second record of a pair is missing or out of place (R278, R318). -/
def pairBad (r0 r r2 : Nat) (last : Bool) : Bool :=
  let op := rOpcode r
  if isPairSecond op then !(isPairFirst (rOpcode r0) && secondOf (rOpcode r0) == op)
  else if isPairFirst op then last || decide (rOpcode r2 ≠ secondOf op)
  else false

/-- Checks of a record, and those that are reported at the second record of its pair: `r0` is the record
before it, 0 for none, `r2` the one after it. -/
def recordCodes (e : LoadEnv) (s : Scan) (r0 r r2 : Nat) (last : Bool) : List (Bool × Nat) × List (Bool × Nat) :=
  let op := rOpcode r
  let pair := pairBad r0 r r2 last
  let level :=
    [ (decide (rLevel r = 0) || !opAssigned op, 0x0004)
    , (decide (1 < rLevel r), 0x0002) ]
  let structural :=
    [ (pair, 0x0003)
    , (decide (op = 1) && (s.open_.isSome || decide (bits r 95 80 ≠ s.next)), 0x0003)
    , (decide (op ≠ 1) && s.open_.isNone, 0x0003) ]
  let body := match s.open_ with
    | none => ([], [])
    | some t =>
      if !opAssigned op || pair then ([], [])
      else
        let xs := rectCodes e t s r r2
        let own := [(tokenBad e t s r, 0x0012), (rRq r && !s.rq, 0x001C)] ++ opCodes e t s r ++ xs.1
        if isPairFirst op then (own, secondCodes e t r r2 ++ xs.2) else (own ++ xs.2, [])
  if isPairSecond op && !pair then (structural, [])
  else
    let body := if op = 1 ∨ op = 2 then (controlCodes r, []) else body
    (level ++ structural ++ body.1, body.2)

/-- Walk a stream; a stream without every segment, or with an open one, concerns the whole section (R257). -/
def streamWalk (e : LoadEnv) (sec : Nat) : Nat → Nat → Scan → List W128 → List Reject
  | _, _, s, [] => rejectsAt sec 0 [(s.open_.isSome || decide (s.next ≠ e.bin.templates), 0x0003)]
  | i, r0, s, w :: t =>
    let r := w.toNat
    let op := rOpcode r
    let codes := recordCodes e s r0 r (nthD 0 t 0).toNat t.isEmpty
    let fails := rejectsAt sec i codes.1 ++ rejectsAt sec (i + 1) codes.2
    let s' :=
      if op = 1 then Scan.start (bits r 95 80 + 1) (some (bits r 95 80))
      else if op = 2 then Scan.start s.next none
      else if isPairSecond op then s
      else s.after e r
    fails ++ streamWalk e sec (i + 1) r s' t

/-- Failures of the records of every operation stream. -/
def streamRejects (ds : List Dir) (b : Binary) (proof : Bool) : List Reject :=
  (List.range b.lcores).flatMap (fun l =>
    streamWalk ⟨b, proof, l⟩ (secOf ds 5 l) 0 0 (Scan.start 0 none) (b.stream l))

end Sys2Proof.Machine
end

