-- ==== Sys2Proof/Machine/OrderChecks.lean ====
section
/-! DEFINITION. What breaks the records of a template together: unordered or read-then-written bytes, cycles of
waits, repeated random elements, regeneration cones and the escrow of contributions (R228, R229, R232, R235,
R240, R241, R257, R285, R324; log 36). A failure is reported at the last record involved (R257). -/

namespace Sys2Proof.Machine

/-- Bytes of a space that a record touches. -/
structure Touch where
  space : Nat
  /-- shard whose till, or whose device's vault or HBM, it is; logical core of a till -/
  shard : Nat
  lcore : Nat
  lo : Nat
  hi : Nat
  write : Bool
  /-- class of adds that are ordered among themselves (R285), 0 for none -/
  atom : Nat
  /-- the region of its descriptor -/
  region : Nat × Nat
deriving DecidableEq, Repr

/-- A record of one slot of a template. -/
structure Node where
  shard : Nat
  lcore : Nat
  /-- section and record that a failure names -/
  sec : Nat
  idx : Nat
  /-- index in its segment -/
  pos : Nat
  rec_ : Nat
  rec2 : Nat
  touches : List Touch
  /-- tile buffers, with whether it writes them -/
  tbs : List (Nat × Bool)
  /-- tally slots of column 0: first, past the last, and whether it writes them -/
  lanes : Option (Nat × Nat × Bool)
deriving DecidableEq, Repr

/-! ### Nodes -/

/-- Touches of a rectangle of a tensor. -/
def touchesOf (b : Binary) (shard lcore atom : Nat) (x : Rect) : List Touch :=
  let d := b.entry x.desc
  if b.isTensor x.desc then
    (rectRanges d x).map (fun q => ⟨dSpace d, shard, x.lcore.getD lcore, q.1, q.2, x.write, atom, (dBase d, dEnd d)⟩)
  else []

/-- The rectangle that a contribution writes. -/
def sendRect (r r2 : Nat) : Rect :=
  ⟨bits r2 69 58, bits r2 57 34, bits r 45 34 + 1, 64 * bits r2 33 20, bits r 33 28 + 1, true, some (bits r2 78 70), false⟩

/-- Class of the adds of a record (R285). -/
def atomClass (b : Binary) (r : Nat) : Nat :=
  if rOpcode r = 0x22 then 1 else if rOpcode r = 0x23 then 2
  else if rOpcode r = 0x70 then
    (let m := collMode (nthD 0 b.coll (bits r 27 16))
     if m = 0 then 0 else 2 + m)
  else 0

/-- Tile buffers that a record touches. -/
def tbTouches (r : Nat) : List (Nat × Bool) :=
  let op := rOpcode r
  let src (s : Nat) : List (Nat × Bool) := if s < 4 then [(s, false)] else []
  let dst (d : Nat) : List (Nat × Bool) := if d < 4 then [(d, true)] else []
  if op = 0x03 then dst (bits r 89 87)
  else if 0x50 ≤ op ∧ op ≤ 0x5A then (elemSources r).flatMap (fun y => src y.1) ++ dst (bits r 71 69)
  else if op = 0x5B then (if bits r 84 83 = 0 then [] else src (bits r 87 85)) ++ dst (bits r 82 80)
  else if op = 0x5C then dst (bits r 86 85)
  else if isFormer_ op then
    src (bits r 87 86) ++ (if op = 0x60 then src (bits r 85 83) else [])
      ++ (if op = 0x60 ∨ op = 0x63 then src (bits r 82 80) else [])
      ++ (if bits r 23 22 = 1 then src (bits r 21 20) else [])
      ++ (if op = 0x61 ∨ bit r 79 = true then [] else dst (bits r 78 77))
  else []
where
  isFormer_ (op : Nat) : Bool := decide (0x60 ≤ op) && decide (op ≤ 0x63)

/-- Tally slots that a pass or a drain touches; `ops` are the passes before it, newest first (R82, Table 3-3). -/
def laneTouch (r : Nat) (ops : List TallyOp) : Option (Nat × Nat × Bool) :=
  if rOpcode r = 0x41 then
    let o := passOp r
    if !o.fp32 then some (8 * o.index, 8 * (o.index + o.rows), true)
    else if o.opens && anyLane o.index o.rows o.cols (fun re c => tagOf (re / 8) c ops == some false) then
      some (o.index / 8 * 8, (o.index + o.rows + 7) / 8 * 8, true)
    else some (o.index, o.index + o.rows, true)
  else if rOpcode r = 0x5B then
    let i := bits r 67 57
    let n := bits r 56 51 + 1
    if latestBegin i 0 ops == some true then some (i, i + n, false) else some (8 * i, 8 * (i + n), false)
  else none

/-- The nodes of one slot's segment. -/
def slotNodes (b : Binary) (sec t shard l : Nat) : List Node :=
  let ps := b.recs l t
  let first := (segment (b.stream l) t).1
  (List.range ps.length).filterMap (fun i =>
    let p := nthD (0, 0) ps i
    let op := rOpcode p.1
    if op ≤ 2 ∨ isPairSecond op = true then none
    else
      let wk0 := wk0At (bits p.1 87 87) (ps.take i) 0
      let ops := ((ps.take i).filter (fun q => rOpcode q.1 == 0x41)).reverse.map (fun q => passOp q.1)
      let cls := atomClass b p.1
      let own := (rects p.1 p.2 wk0 (b.entry (bits p.1 35 24)).toNat).flatMap (fun x =>
        touchesOf b shard l (if x.write then cls else 0) x)
      let far := if op = 0x70 then touchesOf b (collShard b.shards shard p.2) l cls (sendRect p.1 p.2) else []
      some { shard := shard, lcore := l, sec := sec, idx := first + i, pos := i, rec_ := p.1
             rec2 := p.2, touches := own ++ far, tbs := tbTouches p.1, lanes := laneTouch p.1 ops })

/-- The nodes of a template over all slots of all shards. -/
def templateNodes (ds : List Dir) (b : Binary) (t : Nat) : List Node :=
  (List.range b.shards).flatMap (fun s => (List.range b.lcores).flatMap (fun l => slotNodes b (secOf ds 5 l) t s l))

/-! ### Order -/

/-- In-order engine of a record (R229). -/
def engineOf (r : Nat) : Option Nat := engineOfOp (rOpcode r)

/-- Two nodes lie in one segment. -/
def Node.sameSlot (a b : Node) : Bool := decide (a.shard = b.shard) && decide (a.lcore = b.lcore)
/-- `a` stands before `b` in one segment. -/
def Node.before (a b : Node) : Bool := a.sameSlot b && decide (a.pos < b.pos)

/-- `a` signals an arrival that `b` waits on (R228). -/
def Node.arrives (bin : Binary) (a b : Node) : Bool :=
  let token := if rOpcode a.rec_ = 0x70 then (if bit a.rec2 19 then 48 + bits a.rec2 18 15 else 0)
    else if isPairFirst (rOpcode a.rec_) && bit a.rec2 36 then 48 + bits a.rec2 35 32 else 0
  let at_ := if rOpcode a.rec_ = 0x70 then
      decide (collShard bin.shards a.shard a.rec2 = b.shard) && decide (bits a.rec2 78 70 = b.lcore)
    else decide (a.shard = b.shard) && decide (bits a.rec2 45 37 = b.lcore)
  decide (token ≠ 0) && at_ && (decide (rWaitA b.rec_ = token) || decide (rWaitB b.rec_ = token))

/-- `b` waits on `a`: tokens, ORDERED, arrivals (R228). -/
def Node.waitsOn (bin : Binary) (b a : Node) : Bool :=
  (a.before b && (rOrdered b.rec_
      || (decide (rSignal a.rec_ ≠ 0) && (decide (rWaitA b.rec_ = rSignal a.rec_) || decide (rWaitB b.rec_ = rSignal a.rec_)))))
    || a.arrives bin b

/-- One in-order engine runs `a`, then `b` (R229). -/
def Node.sameEngine (a b : Node) : Bool :=
  a.before b && (engineOf a.rec_).isSome && decide (engineOf a.rec_ = engineOf b.rec_)

/-- Indices of a list at which `p` holds. -/
def indices {α : Type} (p : α → Bool) (l : List α) : List Nat :=
  (List.range l.length).filter (fun i => match l[i]? with | some x => p x | none => false)

/-- Everything that a worklist reaches through a list of edges. -/
def reach (edges : List (List Nat)) : Nat → List Nat → List Nat → List Nat
  | 0, _, seen => seen
  | _, [], seen => seen
  | n + 1, a :: t, seen =>
    if seen.contains a then reach edges n t seen else reach edges n (nthD [] edges a ++ t) (a :: seen)

/-- Ancestors of every node. -/
def ancestors (edges : List (List Nat)) : List (List Nat) :=
  let fuel := sumBy List.length edges + edges.length + 1
  edges.map (fun ps => reach edges fuel ps [])

/-! ### Hazards (R229, R232, R235, R285) -/

/-- Two touches share bytes of one space. -/
def Touch.overlaps (a b : Touch) : Bool := decide (a.space = b.space) && meets (a.lo, a.hi) (b.lo, b.hi)

/-- The touches lie in one memory; this device hosts shards `lo` to `hi`. -/
def Touch.sameMemory (lo hi : Nat) (a b : Touch) : Bool :=
  if a.space = 0 then decide (a.shard = b.shard) && decide (a.lcore = b.lcore)
  else
    let hosted (s : Nat) : Bool := decide (lo ≤ s) && decide (s ≤ hi)
    decide (a.shard = b.shard) || (hosted a.shard && hosted b.shard)

/-- The bytes of two touches lie in one region declared with KIND 1 (R235). -/
def accumulates (b : Binary) (t : Nat) (x y : Touch) : Bool :=
  b.escrow.any (fun e =>
    let d := b.entry (bits e.toNat 63 52)
    decide (bits e.toNat 51 36 = t) && decide (bits e.toNat 35 32 = 1) && decide (dSpace d = x.space)
      && decide (dBase d ≤ min x.lo y.lo) && decide (max x.hi y.hi ≤ dEnd d))

/-- A read and a write of one region, whichever of its bytes: the read's region takes the write, or the write's region the
read (R235). -/
def Touch.oneRegion (x y : Touch) : Bool :=
  decide (x.space = y.space) && (meets (y.lo, y.hi) x.region || meets (x.lo, x.hi) y.region)

/-- Touches of one shard's records, the first not ordered after the second: a read before a write of its region, outside an
accumulator (R235). -/
def readThenWrite (b : Binary) (t : Nat) (x y : Touch) : Bool :=
  !x.write && y.write && x.oneRegion y && decide (x.shard = y.shard) && x.sameMemory 0 0 y && !accumulates b t x y

/-- `x` reads a region that atomic adds of `y` write in the same step, whichever of its bytes (R285). -/
def Touch.readsAdds (lo hi : Nat) (x y : Touch) : Bool :=
  !x.write && y.write && decide (y.atom ≠ 0) && decide (x.space = y.space) && x.sameMemory lo hi y
    && meets (x.lo, x.hi) y.region

/-- Two touches of records without an order. -/
def unorderedBad (x y : Touch) : Bool := (x.write || y.write) && !(x.atom != 0 && decide (x.atom = y.atom))

/-- A conflict between two nodes, where `ab` and `ba` say which of them is ordered before the other. Two engines
that may use one tile buffer in the same beat conflict even where both read it (R20). Till banks need no check:
R266 and R267 serve their claims one after another. -/
def conflict (bin : Binary) (t lo hi : Nat) (a b : Node) (ab ba : Bool) : Bool :=
  let hosted (s : Nat) : Bool := decide (lo ≤ s) && decide (s ≤ hi)
  let apart := decide (a.shard ≠ b.shard) && hosted a.shard && hosted b.shard
  let free := !(ab || ba)
  a.touches.any (fun x => b.touches.any (fun y =>
      x.overlaps y && x.sameMemory lo hi y && ((decide (x.space ≠ 0) && apart) || free) && unorderedBad x y
        || (!ba && readThenWrite bin t x y) || (!ab && readThenWrite bin t y x)
        || x.readsAdds lo hi y || y.readsAdds lo hi x))
    || (free && a.sameSlot b && (
        a.tbs.any (fun x => b.tbs.any (fun y => decide (x.1 = y.1)))
        || (match a.lanes, b.lanes with
            | some x, some y => decide (x.1 < y.2.1) && decide (y.1 < x.2.1) && (x.2.2 || y.2.2)
            | _, _ => false)))

/-- A record whose own touches conflict: it reads and writes one region outside an accumulator region (R235), or bytes
that its own atomic adds write. -/
def selfConflict (bin : Binary) (t : Nat) (a : Node) : Bool :=
  a.touches.any (fun x => a.touches.any (fun y =>
    readThenWrite bin t x y
      || (!x.write && y.write && x.overlaps y && x.sameMemory 0 0 y && decide (x.shard = y.shard) && y.atom != 0)))

/-- The last record of a node: of a pair, the second. -/
def Node.last (a : Node) : Nat := a.idx + b2n (isPairFirst (rOpcode a.rec_))
/-- The later of two nodes in directory order and stream order. -/
def Node.place (a : Node) : Nat := Reject.pos ⟨a.sec, a.last, 0⟩
/-- A failure reported at a node's last record, and the later of two nodes. -/
def Node.reject (a : Node) (code : Nat) : Reject := ⟨a.sec, a.last, code⟩
def lastOf (a b : Node) : Node := if a.place ≤ b.place then b else a

/-- Conflicting records without an order, or in the wrong one (HAZARD; R229, R235, R285). -/
def hazardRejects (b : Binary) (t lo hi : Nat) (ns : List Node) : List Reject :=
  let anc := ancestors (ns.map (fun y => indices (fun x => y.waitsOn b x) ns))
  let ordered (x y : Node) (i j : Nat) : Bool := x.sameEngine y || (nthD [] anc j).contains i
  let pairOf (i j : Nat) : Option Reject :=
    match ns[i]?, ns[j]? with
    | some x, some y =>
      if conflict b t lo hi x y (ordered x y i j) (ordered y x j i) then some ((lastOf x y).reject 0x0011)
      else none
    | _, _ => none
  (ns.filter (fun x => selfConflict b t x)).map (fun x => x.reject 0x0011)
    ++ (List.range ns.length).flatMap (fun j => (List.range j).filterMap (fun i => pairOf i j))

/-! ### Cycles of waits (R228, R324) -/

/-- Take away the nodes that no cycle passes, one round for every node. -/
def cycleCore (edges : List (List Nat)) : Nat → List Nat → List Nat
  | 0, set => set
  | n + 1, set =>
    cycleCore edges n (set.filter (fun i =>
      (nthD [] edges i).any (fun p => set.contains p) && set.any (fun j => (nthD [] edges j).contains i)))

/-- A node is the last one of some cycle: it reaches itself through nodes of the core that stand no later. -/
def lastOfCycle (edges : List (List Nat)) (core : List Nat) (place : Nat → Nat) (i : Nat) : Bool :=
  let keep := core.filter (fun k => decide (place k ≤ place i))
  let es := edges.map (fun l => l.filter keep.contains)
  (reach es (sumBy List.length es + es.length + 1) (nthD [] es i) []).contains i

/-- Records that wait on each other: a record issues after those before it in its segment and those that it waits
on. Every cycle is reported at its own last record. -/
def cycleRejects (b : Binary) (ns : List Node) : List Reject :=
  let edges := ns.map (fun y => indices (fun x => x.before y || y.waitsOn b x) ns)
  let core := cycleCore edges ns.length (List.range ns.length)
  let place (i : Nat) : Nat := match ns[i]? with | some x => x.place | none => 0
  (core.filter (lastOfCycle edges core place)).filterMap (fun i => (ns[i]?).map (fun x => x.reject 0x0012))

/-! ### Random streams (R241) -/

/-- Element indices that a fill draws, as ranges. -/
def fillRanges (b : Binary) (r : Nat) : List (Nat × Nat) :=
  let n := dCols (b.entry (bits r 54 43))
  (List.range (bits r 66 61 + 1)).map (fun m =>
    let i := (bits r 42 27 + m) * n + 64 * bits r 26 17
    (i, i + bits r 60 55 + 1))

/-- Two fills may draw one element of one stream. -/
def sameElement (b : Binary) (x y : Node) : Bool :=
  decide (rOpcode x.rec_ = 0x03) && decide (rOpcode y.rec_ = 0x03) && decide (bits x.rec_ 86 67 = bits y.rec_ 86 67)
    && (fillRanges b x.rec_).any (fun p => (fillRanges b y.rec_).any (fun q => meets p q))

/-- Elements of a stream that two fills of a step draw (R241). -/
def reuseRejects (b : Binary) (ns : List Node) : List Reject :=
  (List.range ns.length).flatMap (fun j => (List.range j).filterMap (fun i =>
    match ns[i]?, ns[j]? with
    | some x, some y => if sameElement b x y then some ((lastOf x y).reject 0x001A) else none
    | _, _ => none))

/-! ### Regeneration cones (R240) -/

/-- A record reads something that a regeneration cannot have: a tensor that is neither an input nor a regenerable
intermediate, or the plane of a rule that looks back. -/
def coneBad (b : Binary) (r : Nat) (xs : List Rect) : Bool :=
  let quant : Option Nat :=
    if rOpcode r = 0x58 ∧ quantFmt (elemStore r).fmt then some (elemStore r).rule
    else if rOpcode r = 0x5B ∧ quantFmt (drainStore r).fmt then some (drainStore r).rule
    else none
  xs.any (fun x => !x.write && b.isTensor x.desc && decide (dRole (b.entry x.desc) ≠ 0) && decide (dRole (b.entry x.desc) ≠ 3))
    || (match quant with | some i => decide (ruleKind (b.rule i) = 3) | none => false)

/-- What breaks the cone of a regenerable region (R240). -/
def coneRejects (ds : List Dir) (b : Binary) (t : Nat) : List Reject :=
  let es := (List.range b.escrow.length).filter (fun j =>
    let e := (nthD 0 b.escrow j).toNat
    decide (bits e 35 32 = 2) && decide (bits e 51 36 = t))
  match es with
  | [] => []
  | j :: _ =>
    (List.range b.lcores).flatMap (fun l =>
      let ps := b.recs l t
      let xs := b.segRects l t
      (List.range ps.length).filterMap (fun i =>
        if coneBad b (nthD (0, 0) ps i).1 ((xs.filter (fun x => x.1 == i)).map (fun x => x.2)) then
          let at_ : Reject := ⟨secOf ds 5 l, (segment (b.stream l) t).1 + i, 0x001B⟩
          let plan : Reject := ⟨secOf ds 6 0, j, 0x001B⟩
          some (if at_.pos ≤ plan.pos then plan else at_)
        else none))

/-! ### Escrow of contributions (R324) -/

/-- Bytes of a contribution. -/
def sendBytes (b : Binary) (x : Node) : Nat :=
  sumBy (fun q : Nat × Nat => q.2 - q.1) (rectRanges (b.entry (bits x.rec2 69 58)) (sendRect x.rec_ x.rec2))

/-- Contributions that the escrow cannot hold, or that no entry of the plan serves (R324). -/
def sendRejects (ds : List Dir) (b : Binary) (t lo hi : Nat) (ns : List Node) : List Reject :=
  let hosted (s : Nat) : Bool := decide (lo ≤ s) && decide (s ≤ hi)
  let sends := ns.filter (fun x => rOpcode x.rec_ == 0x70)
  let need := sumBy (fun x => (b2n (hosted x.shard) + b2n (hosted (collShard b.shards x.shard x.rec2))) * sendBytes b x) sends
  match sends with
  | [] => []
  | x :: rest =>
    if need ≤ 1024 * bits (b.stepEntry t) 127 96 then []
    else
      let last := (rest.foldl lastOf x).reject 0x0014
      let entry : Reject := ⟨secOf ds 4 0, t, 0x0014⟩
      [if last.pos ≤ entry.pos then entry else last]

/-! ### All templates -/

/-- Failures of records together; `lo` to `hi` are the shards that this device hosts. -/
def orderRejects (ds : List Dir) (b : Binary) (lo hi : Nat) : List Reject :=
  (List.range b.templates).flatMap (fun t =>
    let ns := templateNodes ds b t
    hazardRejects b t lo hi ns ++ cycleRejects b ns ++ reuseRejects b ns ++ coneRejects ds b t ++ sendRejects ds b t lo hi ns)

end Sys2Proof.Machine
end

