-- ==== Sys2Proof/Machine/Pages.lean ====
section
/-! DEFINITION. The till and vault page maps: what a load writes into them, and the exchanges of posting (R261, R262,
R275; log 49). -/

namespace Sys2Proof.Machine

/-- The first `n` of a unit's physical pages that a list of used ones leaves free. -/
def freePages (used : List Nat) (total n : Nat) : List Nat :=
  ((List.range total).filter (fun p => !used.contains p)).take n

/-- Physical pages of a unit that the maps give away. -/
def State.usedPages (s : State) (till : Bool) (unit : Nat) : List Nat :=
  s.pageMap.filterMap (fun e => if e.till = till ∧ e.unit = unit then some e.phys else none)

/-- The entries of a job's home pages `ps` and of `k` shadow pages, on a list of physical pages. -/
def pageEntries (till : Bool) (unit job slot k : Nat) (ps phys : List Nat) : List PageEnt :=
  (List.range ps.length).map (fun i => ⟨till, unit, job, slot, false, nthD 0 ps i, nthD 0 phys i⟩)
    ++ (List.range k).map (fun i => ⟨till, unit, job, slot, true, i, nthD 0 phys (ps.length + i)⟩)

/-- The till page maps of a job at its load: every slot's pages on its device logical core. Slots that share a core
take turns in it, so they share its physical pages (R277). -/
def State.tillEntries (s : State) (j : Job) : List PageEnt :=
  let ps := pagesOf 1024 (j.bin.regions 0)
  let k := j.bin.maxTill
  (List.range j.slots).flatMap (fun d =>
    pageEntries true (d % 512) j.num d k ps (freePages (s.usedPages true (d % 512)) 4096 (ps.length + k)))

/-- The vault page maps of a job at its load. -/
def State.vaultEntries (s : State) (j : Job) : List PageEnt :=
  (List.range 4).flatMap (fun b =>
    let ps := pagesOf 4096 (onDie b (j.bin.regions 1))
    let k := j.dieShadow b / 4096
    pageEntries false b j.num 0 k ps (freePages (s.usedPages false b) 32768 (ps.length + k)))

/-- The bursar writes the page maps at load (R261). -/
def State.mapPages (s : State) (j : Job) : State :=
  { s with pageMap := s.pageMap ++ s.tillEntries j ++ s.vaultEntries j }

/-- Pages of a shadow, of `g` bytes. -/
def Shadow.pages (sh : Shadow) (g : Nat) : List Nat := sh.cells.foldl (fun l c => insertNat (c.1 / g) l) []

/-- Home page `p` and shadow page `k` of one map exchange places. -/
def swapPage (mine : PageEnt → Bool) (p k : Nat) (l : List PageEnt) : List PageEnt :=
  let home (e : PageEnt) : Bool := mine e && !e.shadow && e.page == p
  let shadow (e : PageEnt) : Bool := mine e && e.shadow && e.page == k
  match l.find? home, l.find? shadow with
  | some a, some b =>
    l.map (fun e => if home e then { e with phys := b.phys } else if shadow e then { e with phys := a.phys } else e)
  | _, _ => l

/-- The pages that a step shadowed, lowest first, exchange places with the map's shadow pages in order. -/
def swapPages (mine : PageEnt → Bool) (ps : List Nat) (l : List PageEnt) : List PageEnt :=
  (List.range ps.length).foldl (fun l k => swapPage mine (nthD 0 ps k) k l) l

/-- Posting exchanges every till and vault shadow page of a step with its home page (R275). -/
def State.exchange (s : State) (r : Run) : State :=
  let tills := (List.range r.slots.length).foldl (fun l d =>
    match r.slots[d]? with
    | some x => swapPages (fun e => e.till && e.job == r.job && e.slot == d) (x.till.pages 1024) l
    | none => l) s.pageMap
  let vault := (List.range 4).foldl (fun l b =>
    swapPages (fun e => !e.till && e.job == r.job && e.unit == b)
      ((r.vault.pages 4096).filter (fun p => p / 32768 == b)) l) tills
  { s with pageMap := vault }

end Sys2Proof.Machine
end

