-- ==== Sys2Proof/Machine/Snapshot.lean ====
section
/-! DEFINITION. The image of a job's posted state, as SNAPSHOT writes it and JOB_LOAD reads it (R252,
Table 8-26), and the packed forms it holds. -/

namespace Sys2Proof.Machine

/-- The 128-bit sequence table entry (Table 8-19). -/
def SeqEntry.code (e : SeqEntry) : Nat :=
  (if e.closing then 2 else 1) * 2 ^ 126 + e.job % 65536 * 2 ^ 110 + e.lcore % 512 * 2 ^ 101 + e.rule % 64 * 2 ^ 95
    + e.cacheDesc % 4096 * 2 ^ 83 + e.length % 2 ^ 24 * 2 ^ 59 + e.reqRing % 2 ^ 20 * 2 ^ 39

/-- The entry that an image restores, with the command's job number. -/
def SeqEntry.ofCode (c job : Nat) : SeqEntry :=
  { closing := decide (bits c 127 126 = 2), job := job, lcore := bits c 109 101, rule := bits c 100 95
    cacheDesc := bits c 94 83, length := bits c 82 59, reqRing := bits c 58 39 }

/-- Descriptors that the escrow plan declares with a kind that `p` takes, in ascending order. -/
def Binary.declaredWith (b : Binary) (p : Nat → Bool) : List Nat :=
  b.escrow.foldl (fun l e => if p (bits e.toNat 35 32) then insertNat (bits e.toNat 63 52) l else l) []

/-- A region record of an image: descriptor, shard and logical core (none for vault and HBM), and the memory
that holds it. -/
structure SnapRegion where
  desc : Nat
  shard : Nat
  lcore : Nat
  mem : Mem
deriving DecidableEq, Repr

/-- The regions of a job's image: those that the escrow plan names with KIND 0 or 1 and no input role (log 28: by
descriptor, shard and logical core, ascending). -/
def Job.snapRegions (j : Job) : List SnapRegion :=
  ((j.bin.declaredWith (fun k => decide (k ≤ 1))).filter (fun i => decide (dRole (j.bin.entry i) ≠ 0))).flatMap (fun i =>
    let sp := dSpace (j.bin.entry i)
    if sp = 0 then
      (List.range j.slots).map (fun d => ⟨i, j.shardOf d, j.lcoreOf d, nthD Mem.empty j.tills d⟩)
    else [⟨i, 0xFFFF, 0xFFFF, if sp = 1 then j.vault else j.hbm⟩])

/-- Length of a region's byte image (R224). -/
def regionLen (d : W128) : Nat := dEnd d - dBase d

/-- A byte string padded with zeros to a multiple of 64. -/
def pad64 (bs : List Byte) : List Byte := bytesAt bs 0 (alignUp bs.length 64)

/-- Poison bits of a region's data blocks: bit `k` when a byte of data block `k` lies in a poisoned memory block. -/
def poisonBits (d : W128) (m : Mem) : List Bool :=
  (List.range (alignUp (regionLen d) 64 / 64)).map (fun k =>
    let lo := dBase d + 64 * k
    let hi := min (lo + 63) (dEnd d - 1)
    m.isPoisoned (lo / 64) || m.isPoisoned (hi / 64))

/-- Bits as bytes, bit `k` in bit `k mod 8` of byte `k div 8`. -/
def packBits : Nat → List Bool → List Byte
  | 0, _ => []
  | n + 1, bs =>
    BitVec.ofNat 8 ((List.range 8).foldl (fun a i => a + b2n (bs.getD i false) * 2 ^ i) 0) :: packBits n (bs.drop 8)

/-- Offsets of the regions' data: each begins on a 64-byte boundary. -/
def dataOffsets (from_ : Nat) : List Nat → List Nat
  | [] => []
  | n :: t => from_ :: dataOffsets (from_ + alignUp n 64) t

/-- The image of a job's posted state on this device. -/
def State.snapImage (s : State) (j : Job) : List Byte :=
  let rs := j.snapRegions
  let lens := rs.map (fun r => regionLen (j.bin.entry r.desc))
  let seqs := s.seqTab.filter (fun x => x.2.job == j.num)
  let head := 256 + 64 * rs.length + 16 * j.regen.length + 32 * seqs.length
  let start := alignUp head 64
  let offs := dataOffsets start lens
  let dataLen := sumBy (fun n => alignUp n 64) lens
  let header := leBytes 4 0x534E4150 ++ leBytes 2 1 ++ leBytes 2 j.num ++ leBytes 8 (j.step - 1).toNat
    ++ leBytes 48 j.bin.digest.toNat ++ leBytes 2 j.shardFirst ++ leBytes 2 j.shardLast ++ leBytes 2 j.devices
    ++ leBytes 2 0 ++ leBytes 4 rs.length ++ leBytes 4 j.regen.length ++ leBytes 4 seqs.length ++ leBytes 4 0
    ++ leBytes 8 dataLen ++ leBytes 160 0
  let recs := (List.range rs.length).flatMap (fun i =>
    let r := nthD ⟨0, 0, 0, Mem.empty⟩ rs i
    leBytes 2 r.desc ++ leBytes 2 r.shard ++ leBytes 2 r.lcore ++ leBytes 2 0 ++ leBytes 8 (nthD 0 offs i)
      ++ leBytes 8 (nthD 0 lens i) ++ leBytes 40 0)
  let regens := j.regen.flatMap (fun x => leBytes 2 x.1 ++ leBytes 6 0 ++ leBytes 8 x.2)
  let seqRecs := seqs.flatMap (fun x => leBytes 16 x.2.code ++ leBytes 2 x.1 ++ leBytes 14 0)
  let data := rs.flatMap (fun r =>
    let d := j.bin.entry r.desc
    pad64 (r.mem.read (dBase d) (regionLen d)))
  let marks := rs.flatMap (fun r => poisonBits (j.bin.entry r.desc) r.mem)
  let map := packBits (alignUp (dataLen / 64) 512 / 8) marks
  bytesAt (header ++ recs ++ regens ++ seqRecs) 0 start ++ data ++ map

/-- Write one job's waiting snapshots (R252). -/
def State.captureJob (s : State) (n : Nat) : State :=
  match s.job n with
  | none => s
  | some j =>
    let img := s.snapImage j
    let s := s.setJob { j with snaps := [] }
    j.snaps.foldl (fun s q =>
      let w : Waiting := ⟨q.ring, BitVec.ofNat 32 q.seq⟩
      if q.len < img.length then s.finishLate w 0x03 n 0x0409 0 0 0
      else (s.hostWrite q.addr img).finishLate w 0x03 n 0 0 (j.step - 1).toNat img.length) s

/-- SNAPSHOT_CAPTURE: every snapshot that waits, at the device step boundary. -/
def State.captureAll (s : State) : State :=
  s.jobs.foldl (fun s j => if j.snaps.isEmpty then s else s.captureJob j.num) s

end Sys2Proof.Machine
end

