-- ==== Sys2Proof/Machine/Selection.lean ====
section
/-! DEFINITION. How a step is selected, and what a device step boundary does before the next one (R193, R237,
R246, R256, R276, R290, R345, R346, R362, R377, R390, R393, R399, R417; log 28). -/

namespace Sys2Proof.Machine

/-! ### Batches that the step serves (R256) -/

/-- Descriptor index that a batch rule names. -/
def Job.batchDesc (j : Job) (rule : Nat) : Nat := bits (nthD 0 j.bin.batch rule).toNat 40 29

/-- One row of a closed batch: sequence index, position, count, payload. -/
def Req.row (q : Req) (count : Nat) : List Byte :=
  bytesAt (leBytes 2 q.index ++ leBytes 3 q.position ++ leBytes 3 count
    ++ bytesAt (entryBytes q.payload) 0 40) 0 64

/-- The 64 rows of a batch at its descriptor in a till: rows past the count are 0. -/
def Batch.writes (b : Batch) (d : W128) : List (Nat × Byte) :=
  (List.range 64).flatMap (fun i =>
    let bs := match b.reqs[i]? with
      | some q => q.row b.reqs.length
      | none => List.replicate 64 0
    (List.range 64).map (fun k => (dBase d + dPitch d * i + k, nthD 0 bs k)))

/-- Closed batches that the job's next step serves: the oldest for each logical core and descriptor. The spec does
not say which of several closed batches of one core and descriptor a step serves, nor how many (DESIGN CHOICE, R122;
log 28). -/
def dueBatches (j : Job) : List (Nat × Nat) → List Batch → List Batch
  | _, [] => []
  | seen, b :: t =>
    let k := (b.lcore, j.batchDesc b.rule)
    if b.job == j.num && b.closed && b.served.isNone && !seen.contains k then b :: dueBatches j (k :: seen) t
    else dueBatches j seen t

/-- Write a batch's rows into the posted till of its logical core. -/
def Job.takeBatch (j : Job) (b : Batch) : Job :=
  let sh := Shadow.empty.writeAll (b.writes (j.bin.entry (j.batchDesc b.rule))) []
  { j with tills := setNth j.tills b.lcore ((nthD Mem.empty j.tills b.lcore).post sh) }

/-- The batches with the served ones marked. -/
def markServed (due : List Batch) (step : W64) (bs : List Batch) : List Batch :=
  bs.map (fun b => if due.contains b then { b with served := some step } else b)

/-- A job at the start of its step: the rows of the batches it serves are written, and no slot is placed anew. -/
def Job.withBatches (j : Job) (bs : List Batch) : Job :=
  (dueBatches j [] bs).foldl (fun j b => j.takeBatch b) { j with prov := [] }

/-- The batches that a job's next step serves, marked with the step. -/
def State.markBatches (s : State) (j : Job) : State :=
  { s with batches := markServed (dueBatches j [] s.batches) j.step s.batches }

/-- The received values that a run's shards name are read, those with a mode. -/
def State.readReceived (s : State) (r : Run) : State :=
  s.mapRecvs (fun x => if x.ofStep r then { x with read := decide (x.mode ≠ 0) } else x)

/-! ### Which step (R237) -/

/-- Work is assigned to the next step boundary (R377). A promoted user that the full 2 ms did not bring below half
its limit stays promoted, and the step begins (R390). -/
def State.boundaryDue (s : State) : Bool :=
  s.jobs.any (fun j => !j.snaps.isEmpty) || s.su.fwSwitch.isSome || !s.units.accumulated.isEmpty
    || (!s.asy.promoted.isEmpty && decide (s.asy.delay < 2000)) || !s.asy.slow.isEmpty || s.borrowDue

/-- Retirement candidates in service, ascending (R292). -/
def State.candidates (s : State) : List Nat :=
  s.chans.filterMap (fun c => if c.2.candidate && !s.isFenced 5 c.1 then some c.1 else none)

/-- A candidate waits and the sparing reserve has room: no further step begins (Table 9-12). -/
def State.retireDue (s : State) : Bool := decide (0 < s.spareGb) && !s.candidates.isEmpty

/-- 4 KiB pages of HBM that a template writes. -/
def Binary.hbmPages (b : Binary) (t : Nat) : List Nat := pagesOf 4096 (b.written t 2)

/-- A template's step claims HBM escrow (R234). -/
def Binary.usesEscrow (b : Binary) (t : Nat) : Bool := decide (bits (b.stepEntry t) 127 96 ≠ 0)

/-- Steps that use the escrow area: unposted ones, and posted ones that wait for write-back (R276). -/
def State.escrowSteps (s : State) : Nat :=
  countIf (fun r : Run => (s.job r.job).any (fun j => j.bin.usesEscrow r.template)) s.runs
    + ((s.wback.map (fun w => (w.job, w.step))).eraseDups).length

/-- Hosts of a job's slots on the present map (R231). -/
def State.hostsFor (s : State) (j : Job) : List Nat := (List.range j.slots).map (fun d => nthD noHost s.lmap (d % 512))

/-- A job's next step can begin. -/
def State.canBegin (s : State) (j : Job) : Bool :=
  match j.queue with
  | [] => false
  | q :: _ =>
    (s.run j.num).isNone && j.ending.isNone && decide (j.queued.length < 64) && j.regenDue.isEmpty
      && !(s.wback.any (fun w => w.job == j.num && (j.bin.hbmPages q.template).contains w.page))
      && (!j.bin.usesEscrow q.template || decide (s.escrowSteps ≤ 1))
      && (s.hostsFor j).all (fun p => decide (p < 576))

/-- No other step is between orders 2 and 5, and none is in the recount sequence (R237, R346). -/
def State.runsAllow (s : State) : Bool :=
  s.runs.all (fun r => decide (6 ≤ r.order) && !r.waiting && r.history.length == 1)

/-- The job whose step is selected: the earliest requested that can begin. -/
def State.chosen (s : State) : Option Job :=
  minBy (fun j => match j.queue with | q :: _ => q.stamp | [] => 0) (s.jobs.filter (fun j => s.canBegin j))

/-- The run that opens at order 2. -/
def State.openRun (s : State) (j : Job) (q : StepReq) : Run :=
  { job := j.num, template := q.template, step := j.step, gen := j.gen, order := 2, run := 0, counted := 0
    proofEn := s.dev.proofEn, timingLock := s.dev.timingLock, lockBroken := false, readMarks := [], bank := none
    toSwitch := (s.hostsFor j).filter (fun p => (s.core p).pending)
    hosts := s.hostsFor j
    slots := (List.range j.slots).map (fun d => Slot.fresh (segment (j.streamOf d) q.template).1)
    vault := Shadow.empty, hbm := Shadow.empty, turns := [], events := [], traps := [], poisoned := []
    broken := false, uncounted := false, waiting := false, posting := false, suspects := [], history := []
    agreed := [], attempt := 0, errStart := s.errSeq, started := s.time, detected := none }

/-- The named switch step of a reload that waits on a host (Table 6-13 order 5). -/
def State.nameSwitch (s : State) (hosts : List Nat) : State :=
  (hosts.foldl (fun l p => insertNat p l) []).foldl (fun s p =>
    let c := s.core p
    if c.pending then s.setCore p { c with scheduled := true } else s) s

/-- The start of a step samples the delay of its boundary (R390). -/
def State.endDelay (s : State) : State :=
  let s := s.sample 0 1 s.asy.delay
  s.setAsy { s.asy with delay := 0 }

/-- A run joins the step machinery. -/
def State.beginRun (s : State) (r : Run) : State := { s with runs := s.runs ++ [r], freeCtr := s.freeCtr + 1 }

/-- STEP_SELECT (R237): orders 1 and 2 of Table 8-12. -/
def execStepSelect (s : State) : Host.Outcome State Fault Refusal :=
  if s.held || !s.ready || !s.runsAllow || s.boundaryDue || s.retireDue then .next s
  else match s.chosen with
    | none => .next s
    | some j =>
      match j.queue with
      | [] => .next s
      | q :: _ =>
        let k := j.withBatches s.batches
        let s := (s.setJob k).markBatches j
        let r := s.openRun k q
        let s := s.readReceived r
        let r := resched k (s.takeReceived k r)
        let s := ((s.nameSwitch r.hosts).endDelay).beginRun r
        .next (if s.mod.capBelowPin then s.lockBreakJob j.num else s)

/-! ### The device step boundary (R377) -/

/-- A unit with four transient verdicts gets its permanent action, caused by record `cause` (R345). -/
def State.takeAccumulated (s : State) (k cause : Nat) : State :=
  { s with units := { s.units with accumulated := del k s.units.accumulated } }.act (k / 4096) (k % 4096) cause

/-- A persistently slow core is reported, and fenced where its region has a spare (R393). -/
def State.takeSlow (s : State) (p share : Nat) : State :=
  let s := s.setAsy { s.asy with slow := s.asy.slow.filter (fun y => y.1 != p) }
  if s.isFenced 1 p then s
  else
    let spare := (s.spareFor p).isSome
    let cause := s.errSeq
    let s := s.raise { code := 0x26, info := !spare, utype := 1, punit := p, w6 := share }
    if spare then s.fenceCore p cause else s

/-- What is due of one core: its accumulated verdict, then its slowness. -/
def State.takeCore (s : State) (p : Nat) : State :=
  let s := match look (unitKey 1 p) s.units.accumulated with
    | some cause => s.takeAccumulated (unitKey 1 p) cause
    | none => s
  match look p s.asy.slow with
  | some share => s.takeSlow p share
  | none => s

/-- ACCUMULATED and SLOW_CORE of the cores: their fences are applied together, in ascending physical order (R24,
R345, R393). -/
def State.doCores (s : State) : State := (List.range 576).foldl (fun s p => s.takeCore p) s

/-- ACCUMULATED of the other units (R345). -/
def State.doAccumulated (s : State) : State :=
  (s.units.accumulated.filter (fun x => x.1 / 4096 != 1)).foldl (fun (s : State) x => s.takeAccumulated x.1 x.2) s

/-- FW_SWITCH_APPLY, orders 3 and 4 of Table 14-10: the new image starts from the checkpoint, or the old one again. -/
def State.applySwitch (s : State) (restored : Bool) (us : Nat) : State :=
  match s.su.fwSwitch with
  | none => s
  | some w =>
    let old := s.running
    let slot := !s.su.slot
    let s := { s with su := { s.su with fwSwitch := none } }
    match s.flash.image slot with
    | none => s.finishLate w.cmd 0x10 0 0x0306 0 0 0
    | some img =>
      if !img.head.restores.contains old.head.ckptVer && !s.jobs.isEmpty then s.finishLate w.cmd 0x10 0 0x0307 0 0 0
      else if !restored then
        (s.raise { code := 0x2A, w6 := img.head.svn * 2 ^ 32 + 1 }).finishLate w.cmd 0x10 0 0x0307 0 0 0
      else
        { s with su := { s.su with slot := slot, revert := some ⟨s.su.slot, s.time, w.cmd, old.head.svn, us⟩ } }

/-- Orders 5 and 6 of Table 14-10: the boot control block, M_RUN, the event and the completion. A divergence within 1 s
leaves the block as it was and completes the command otherwise, so they wait for that second (DEDUCED; log 30). -/
def State.sealSwitch (s : State) (v : Revert) : State :=
  let s := { s with su := { s.su with trial := true, revert := none } }
  let s := (s.flashWrite (.boot ⟨s.su.slot, true, 0, s.flash.settled.boot.seq + 1⟩)).1
  let s := s.extendRun 2 s.running.digest
  let s := s.raise { code := 0x29, w6 := s.running.head.svn * 2 ^ 32 + v.svn, w7 := v.us }
  s.finishLate v.cmd 0x10 0 0 0 0 0

/-- The second of a switch is over. -/
def State.endSwitch (s : State) : State :=
  match s.su.revert with
  | some v => if (s.time - v.time).toNat ≤ 1000000000 then s else s.sealSwitch v
  | none => s

/-- The limit that an age has reached, none where it has reached none or promotion is disabled. For patrol scrub
at its default, 5 % of a period of R272: the longest one reached (log 34). -/
def arrearsLimit (user limit age : Nat) : Option Nat :=
  if limit = 0 then none
  else if user = 3 ∧ limit = 0xFFFFFFFF then [4320000000, 180000000, 30000000].find? (fun l => decide (l ≤ age))
  else if limit ≤ age then some limit
  else none

/-- The limit of a user's present arrears: for patrol scrub at its default the longest one reached, else the shortest. -/
def State.limitNow (s : State) (user : Nat) : Nat :=
  let l := (nthD 0 s.asy.arrLimit user).toNat
  (arrearsLimit user l (s.arrears user)).getD (if user = 3 ∧ l = 0xFFFFFFFF then 30000000 else l)

/-- A promoted user has been served: what the age of its oldest item is now the spec does not give. It is below half the
limit where the wait ended before 2 ms, and no higher than the boundary made it where it ended then (log 34). -/
def State.served (s : State) (us user : Nat) : State :=
  let x := Config.freeNat (s.freeCtr * 16384 + user)
  s.noteItem user (if us < 2000 then x % ((s.limitNow user + 1) / 2) else x % (s.arrears user + us + 1))

/-- ARREARS_SERVICE: promoted users take every slot; those below half their limit are no longer promoted, nor is one
whose limit has become 0 (R389, R390; log 34). -/
def State.serveArrears (s : State) (us : Nat) : State :=
  let half := s.asy.promoted.map (fun u => (u, s.limitNow u))
  let s := half.foldl (fun s x => s.served us x.1) { s with freeCtr := s.freeCtr + 1 }
  s.setAsy { s.asy with promoted := (half.filter (fun x => decide (0 < x.2 ∧ x.2 ≤ 2 * s.arrears x.1))).map (·.1) }

/-- STEP_BOUNDARY (R377): `us` is the delay of the next step's start. -/
def execStepBoundary (restored : Bool) (us : Nat) (s : State) : Host.Outcome State Fault Refusal :=
  if s.held || !s.ready || !s.runs.isEmpty then .next s
  else
    let s := s.captureAll.doCores.doAccumulated
    let s := s.applySwitch restored us
    let s := (s.assaySettle.borrowAll).serveArrears us
    .next (s.setAsy { s.asy with delay := us }).classEdge

end Sys2Proof.Machine
end

