-- ==== Sys2Proof/Machine/Verdicts.lean ====
section
/-! DEFINITION. The check of a run that has ended: suspects, verdicts, traps, and whether the step posts, is run
again or ends its job (R101, R155, R332, R338 to R347, R359). -/

namespace Sys2Proof.Machine

/-! ### What a run says of a unit -/

/-- Events whose response is a recount. -/
def flags (es : List RunEvent) : List RunEvent := es.filter (fun e => e.recount)

/-- The run raised an event that names the unit. -/
def names (es : List RunEvent) (u : Suspect) : Bool :=
  (flags es).any (fun e => e.utype == u.utype && e.punit == u.punit)

/-- The run raised no event. -/
def PastRun.passes (p : PastRun) : Bool := p.whole && (flags p.events).isEmpty

/-- A replaceable unit (Table 11-2). -/
def isReplaceable (utype : Nat) : Bool := decide (utype = 1) || decide (utype = 2)

/-- A unit hosts a slot whose host physical core is `h`. -/
def Suspect.hosted (u : Suspect) (h : Nat) : Bool :=
  if u.utype = 1 then h == u.punit else if u.utype = 2 then h / 18 == u.punit else true

/-- Slots over which a suspect's digests are compared: those that it hosted in run 1, or every slot (R342). -/
def Suspect.slots (u : Suspect) (h : List PastRun) : List Nat :=
  match h[u.run1]? with
  | some p => (List.range p.hosts.length).filter (fun d => u.hosted (nthD noHost p.hosts d))
  | none => []

/-- A run that was not made, and the record of a run of the sequence. -/
def PastRun.empty : PastRun := ⟨[], [], [], false, false, false⟩
def pastAt (h : List PastRun) (k : Nat) : PastRun := nthD PastRun.empty h k

/-- Two runs agree on a list of slots; a run that does not count has no digests to compare (R344). -/
def agree (h : List PastRun) (ds : List Nat) (i k : Nat) : Bool :=
  let a := pastAt h i
  let b := pastAt h k
  a.counted && b.counted && ds.all (fun d => nthD 0 a.digests d == nthD 0 b.digests d)

/-- Sum of a run's digests over slots (Table 11-11). -/
def digestSum (p : PastRun) (ds : List Nat) : W128 := ds.foldl (fun a d => a + nthD 0 p.digests d) 0

/-- What a run with plausibility failures and no other event failed: test and row, with the slot (R347). -/
def plausKeys (p : PastRun) : Option (List (Nat × Option Nat)) :=
  let es := flags p.events
  if p.whole && !es.isEmpty && es.all (fun e => e.code == 0x06) then some (es.map (fun e => (e.detail, e.slot))) else none

/-- Two runs failed the same plausibility tests and nothing else, in whatever order. -/
def samePlaus (a b : PastRun) : Bool :=
  match plausKeys a, plausKeys b with
  | some x, some y => x.all (fun e => y.contains e) && y.all (fun e => x.contains e)
  | _, _ => false

/-! ### Table 11-4 -/

/-- A suspect after run `k`: `cmp` says that digests are evidence (R359). -/
def Suspect.second (u : Suspect) (h : List PastRun) (k : Nat) (cmp : Bool) : Suspect :=
  let p := pastAt h k
  let same := cmp && agree h (u.slots h) u.run1 k
  if !isReplaceable u.utype && names p.events u then { u with verdict := 3 }
  else if p.passes then (if same then { u with verdict := 1 } else { u with run2 := some k })
  else if samePlaus (pastAt h u.run1) p && (same || !cmp) then { u with run2 := some k }
  else { u with run2 := none }

/-- The verdict after a third run (Table 11-4). -/
def Suspect.third (u : Suspect) (h : List PastRun) (k k2 : Nat) (cmp : Bool) : Suspect :=
  let p := pastAt h k
  if (pastAt h k2).passes then
    let differ := cmp && p.whole && !agree h (u.slots h) k2 k
    if names p.events u || differ then { u with verdict := 3 }
    else if p.passes then { u with verdict := 2 }
    else u
  else if samePlaus (pastAt h u.run1) p && (!cmp || agree h (u.slots h) u.run1 k) then { u with verdict := 5 }
  else { u with run2 := none }.second h k cmp

/-- One suspect after run `k`. A run that does not count decides nothing (R344). -/
def Suspect.judge (u : Suspect) (h : List PastRun) (k : Nat) (cmp : Bool) : Suspect :=
  if u.verdict ≠ 0 ∨ u.run1 = k ∨ (pastAt h k).counted = false then u
  else match u.run2 with
    | none => u.second h k cmp
    | some k2 => u.third h k k2 cmp

/-- The digests that a decision agrees on, per slot: run 2's (R342). -/
def Suspect.agreedSlots (u : Suspect) (h : List PastRun) (k : Nat) : List (Nat × W128) :=
  let src := match u.run2 with | some k2 => some k2 | none => if u.verdict = 1 then some k else none
  match src with
  | some i => if (pastAt h i).passes then (u.slots h).map (fun d => (d, nthD 0 (pastAt h i).digests d)) else []
  | none => []

/-- A fixed unit that needs a permanent action and has no spare: it stays, and no verdict is reached again (R339). A
retirement candidate has one while the sparing reserve has room (R293). -/
def State.unjudged (s : State) (utype punit : Nat) : Bool :=
  !isReplaceable utype && s.isDegraded utype punit && (decide (utype ≠ 5) || decide (s.spareGb = 0))

/-- An event names a suspect that is pending. -/
def pendingFor (us : List Suspect) (e : RunEvent) : Bool :=
  us.any (fun u => u.utype == e.utype && u.punit == e.punit && u.verdict == 0)

/-- Suspects that the events of run `k` name; `old` are those that the run was to decide. -/
def State.newSuspects (s : State) (k : Nat) (old : List Suspect) : List RunEvent → List Suspect → List Suspect
  | [], us => us
  | e :: t, us =>
    if !e.recount || e.utype == 0 || e.utype == 8 || pendingFor old e || pendingFor us e || s.unjudged e.utype e.punit then
      State.newSuspects s k old t us
    else State.newSuspects s k old t (us ++ [⟨e.utype, e.punit, e.seq, k, none, 0⟩])

/-! ### Verdicts as they are taken -/

/-- All the events that named a unit in the runs of a step were injected (R455). -/
def allInjected (h : List PastRun) (u : Suspect) : Bool :=
  h.all (fun p => p.events.all (fun e => !(e.utype == u.utype && e.punit == u.punit) || e.injected))

/-- ACTION of a verdict's record: what follows the verdict (Table 11-2, Table 11-9). -/
def verdictAction (utype verdict : Nat) : Nat :=
  if verdict = 5 then 9
  else if verdict < 3 then 0
  else match utype with
    | 1 | 2 | 6 => 4
    | 5 => 5
    | _ => 6

/-- The record of a verdict, with the unit's last verdict (Table 11-3 order 8, Table 11-11). -/
def State.verdictRecord (s : State) (r : Run) (u : Suspect) : State :=
  let ds := u.slots r.history
  let good := u.agreedSlots r.history (r.history.length - 1)
  let s := s.raise
    { code := 0x0C, job := r.job, step := r.step.toNat, utype := u.utype, punit := u.punit, run := r.run
      action := verdictAction u.utype u.verdict
      verdict := u.verdict, w6 := (digestSum (pastAt r.history u.run1) ds).toNat % 2 ^ 64
      w7 := (good.foldl (fun a x => a + x.2) (0 : W128)).toNat % 2 ^ 64 }
  let k := unitKey u.utype u.punit
  s.setSummary k { s.summaryOf k with lastVerdict := u.verdict }

/-- A transient verdict counted; at the fourth the unit receives the verdict accumulated as well. The run's VERDICT
record of the unit stands already, so this one is counted and not written (R345, R352, R356). -/
def State.transient (s : State) (r : Run) (u : Suspect) (cause : Nat) : State :=
  let k := unitKey u.utype u.punit
  if s.fourth u.utype u.punit then
    let s := (s.countTransient u.utype u.punit cause).raiseQuiet
      { code := 0x0C, job := r.job, step := r.step.toNat, utype := u.utype, punit := u.punit, run := r.run, verdict := 4 }
    (s.setSummary k { s.summaryOf k with lastVerdict := 4 }).summaryNow k
  else s.countTransient u.utype u.punit 0

/-- A verdict: its record, the unit's summary, and its action (Table 11-3 order 8, R345, R356). -/
def State.verdict (s : State) (r : Run) (u : Suspect) : State :=
  let cause := s.errSeq
  let s := s.verdictRecord r u
  let k := unitKey u.utype u.punit
  if u.verdict = 1 ∨ u.verdict = 2 then (if allInjected r.history u then s else s.transient r u cause)
  else if u.verdict = 3 ∨ u.verdict = 6 then s.act u.utype u.punit cause
  else s

/-- Suspects in ascending order of their units: fences of one check are applied in physical order (R24). -/
def insertUnit (u : Suspect) : List Suspect → List Suspect
  | [] => [u]
  | v :: t =>
    if unitKey u.utype u.punit < unitKey v.utype v.punit then u :: v :: t else v :: insertUnit u t

/-- Suspects one for each unit, in ascending order. -/
def byUnit (us : List Suspect) : List Suspect := us.foldl (fun l u => insertUnit u l) []

/-! ### Digests alone (R343) -/

/-- A whole run, one that counts, in which no event was raised anywhere on the device. -/
def quiet (h : List PastRun) (i : Nat) : Bool :=
  let p := pastAt h i
  p.whole && p.counted && p.events.isEmpty && p.silent

/-- Slots whose digest differs between two quiet runs, with the earlier run. -/
def mismatches (h : List PastRun) (k : Nat) : List (Nat × Nat) :=
  if !quiet h k then []
  else (List.range k).flatMap (fun i =>
    if quiet h i then
      ((List.range (pastAt h k).hosts.length).filter (fun d =>
        nthD 0 (pastAt h i).digests d != nthD 0 (pastAt h k).digests d)).map (fun d => (i, d))
    else [])

/-- Name a slot's host in run `i` as a suspect from digests; a fenced host is not named. -/
def State.nameHost (s : State) (j : Job) (r : Run) (d i a b : Nat) : State × Run :=
  let p := nthD noHost (pastAt r.history i).hosts d
  let known := r.suspects.any (fun u => u.utype == 1 && u.punit == p && u.verdict == 0)
  if s.isFenced 1 p || known then (s, r)
  else
    let seq := s.errSeq
    let s := s.raise
      { code := 0x1F, job := r.job, step := r.step.toNat, utype := 1, punit := p, lcore := j.lcoreOf d
        shard := j.shardOf d, run := r.run, action := 2, w6 := a, w7 := b }
    (s, { r with suspects := r.suspects ++ [⟨1, p, seq, i, none, 0⟩] })

/-- Hosts named by digests that differ between two quiet runs (R343). -/
def State.nameHosts (s : State) (j : Job) (r : Run) (k : Nat) : List (Nat × Nat) → State × Run
  | [] => (s, r)
  | (i, d) :: t =>
    let a := (nthD 0 (pastAt r.history i).digests d).toNat % 2 ^ 64
    let b := (nthD 0 (pastAt r.history k).digests d).toNat % 2 ^ 64
    let x := s.nameHost j r d i a b
    let x := x.1.nameHost j x.2 d k a b
    State.nameHosts x.1 j x.2 k t

/-! ### After the verdicts -/

/-- The run posts: it passed, no suspect is pending, and its digests are the agreed ones (Table 11-3 order 10). -/
def Run.posts (r : Run) (cmp : Bool) : Bool :=
  let p := pastAt r.history (r.history.length - 1)
  p.passes && p.counted && !r.broken && r.suspects.all (fun u => u.verdict != 0)
    && (!cmp || r.agreed.all (fun x => nthD 0 p.digests x.1 == x.2))

/-- INVALID_TRAP: the traps of the run that would post are recorded, and the job ends (R100, R101). -/
def State.trapJob (s : State) (j : Job) (r : Run) : State :=
  let s := r.traps.foldl (fun s t =>
    s.raiseRun j.num (some t.slot) (slotEvt j r t.slot t.idx 0x08 1 (r.host t.slot) t.w6.toNat t.w7.toNat 9) 0 false false) s
  match r.traps with
  | t :: _ => s.programFault j.num 0x0103 0 (slotEvt j r t.slot t.idx 0x10 1 (r.host t.slot) 0 0 9)
  | [] => s

/-- RECOUNT_LIMIT: the sixth run leaves the step undecided (R344). -/
def State.limitJob (s : State) (r : Run) : State :=
  let s := (byUnit (r.suspects.filter (fun u => u.verdict == 0))).foldl (fun s u => s.verdict r { u with verdict := 6 }) s
  let s := s.raise { code := 0x1E, job := r.job, step := r.step.toNat, run := r.run, action := 9, w6 := 0x0106 }
  s.endJob r.job 0x0106

/-- The step waits for its next run: the shadow and the started contributions are given up (Table 11-3 order 3). -/
def State.awaitRun (s : State) (r : Run) (counted : Nat) : State :=
  let s := s.setRun { r with waiting := true, counted := counted, order := 5 }
  (s.voidRun r.job (r.step.toNat % 2 ^ 32)).lockBreakJob r.job

/-- Order 6 of Table 8-12 and the verdicts of Table 11-4, for a run that has ended. -/
def State.checkRun (s : State) (j : Job) (r : Run) : State :=
  let k := r.history.length
  let cmp := !j.bin.varies
  let past : PastRun :=
    { digests := r.slots.map (fun x => x.digest), hosts := r.hosts, events := r.events
      counted := !r.uncounted, whole := r.slots.all (fun x => x.ended) && !r.broken
      silent := decide (s.errSeq = r.errStart) }
  let h := r.history ++ [past]
  let old := r.suspects
  let us := old.map (fun u => u.judge h k cmp)
  let decided := (old.zip us).filterMap (fun x => if x.1.verdict = 0 ∧ x.2.verdict ≠ 0 then some x.2 else none)
  let r := { r with
    history := h
    suspects := s.newSuspects k old r.events us
    agreed := decided.foldl (fun a u => (u.agreedSlots h k).foldl (fun a x => put x.1 x.2 a) a) r.agreed }
  let s := (byUnit decided).foldl (fun s u => s.verdict r u) s
  let x := if cmp then s.nameHosts j r k (mismatches h k) else (s, r)
  let s := x.1
  let r := x.2
  if us.any (fun u => u.verdict == 5) then
    s.programFault j.num 0x0104 0 { code := 0x10, job := j.num, step := r.step.toNat, run := r.run, action := 9 }
  else if r.posts cmp then
    (if r.traps.isEmpty then (((s.keepSlots r).setRun { r with order := 7 }).signRun j.num).signOwn j r else s.trapJob j r)
  else
    let counted := r.counted + (if r.uncounted then 0 else 1)
    if 6 ≤ counted then s.limitJob r else s.awaitRun r counted

/-- STEP_CHECK (R237): the check of a job's run once it has reached order 5. -/
def execStepCheck (job : BitVec 16) (s : State) : Host.Outcome State Fault Refusal :=
  match s.job job.toNat, s.run job.toNat with
  | some j, some r =>
    if s.held || !s.ready || r.order != 5 || r.waiting then .next s
    else .next (s.checkRun j r).classEdge.assaySettle
  | _, _ => .next s

end Sys2Proof.Machine
end

