-- ==== Sys2Proof/Machine/Recount.lean ====
section
/-! DEFINITION. The further runs of a step: where its logical cores go, and what a run starts from (R24, R194, R240,
R322, R338 to R342, R344). -/

namespace Sys2Proof.Machine

/-- A pending suspect excludes a core from taking work. -/
def suspectCore (us : List Suspect) (p : Nat) : Bool := us.any (fun u => u.verdict == 0 && isReplaceable u.utype && u.hosted p)

/-- Host of a device logical core in a run: that of its first slot. -/
def runHost (m hosts : List Nat) (l : Nat) : Nat := (hosts[l]?).getD (nthD noHost m l)

/-- The last run's hosts by device logical core, those that have left service replaced by R24's map. -/
def State.keptHosts (s : State) (r : Run) : List Nat :=
  (List.range 512).map (fun l =>
    let p := runHost s.lmap r.hosts l
    if s.coreHealthy p && decide (p < 576) then p else nthD noHost s.lmap l)

/-- Move the logical cores of a list to where an earlier run had them, while those hosts are healthy. -/
def State.goBack (s : State) (past : PastRun) (ls m : List Nat) : List Nat :=
  ls.foldl (fun m l =>
    let p := runHost m past.hosts l
    if s.coreHealthy p then setNth m l p else m) m

/-- Device logical cores that a suspect hosted in its run 1. -/
def Suspect.lcores (u : Suspect) (h : List PastRun) : List Nat :=
  (u.slots h).foldl (fun l d => insertNat (d % 512) l) []

/-- One suspect's part of the next placement: back on its run-1 host for run 3, or kept where run 2 had it once it
is decided as transient (R342). -/
def State.placeSuspect (s : State) (h : List PastRun) (m : List Nat) (u : Suspect) : List Nat :=
  if isReplaceable u.utype then
    (match u.run2 with
     | some k2 =>
       if u.verdict = 0 then s.goBack (pastAt h u.run1) (u.lcores h) m
       else if u.verdict = 2 then s.goBack (pastAt h k2) (u.lcores h) m
       else m
     | none => m)
  else m

/-- Hosts of the next run by device logical core (Table 11-3 orders 4, 7 and 9). -/
def State.nextHosts (s : State) (r : Run) : List Nat :=
  let m := s.keptHosts r
  let m := r.suspects.foldl (fun m u => s.placeSuspect r.history m u) m
  let move := r.suspects.filter (fun u => u.verdict == 0 && u.run2.isNone && isReplaceable u.utype)
  let ls := (List.range 512).filter (fun l => move.any (fun u => u.hosted (nthD noHost m l)))
  placeAll (fun g => (s.healthyIn g).filter (fun p => !suspectCore r.suspects p))
    ls (ls.foldl (fun m l => setNth m l noHost) m)

/-- The step's next run: per-step state cleared, inputs held, the received set taken again (R340). Its number is that of
the runs before it that count toward six (R344, R353; log 40). -/
def Run.again (r : Run) (j : Job) (m : List Nat) (errStart : Nat) : Run :=
  { r with
    order := 2, run := r.counted, attempt := r.attempt + 1, errStart := errStart
    hosts := (List.range j.slots).map (fun d => nthD noHost m (d % 512))
    slots := (List.range j.slots).map (fun d => Slot.fresh (segment (j.streamOf d) r.template).1)
    vault := Shadow.empty, hbm := Shadow.empty, turns := [], events := [], traps := [], poisoned := []
    readMarks := [], broken := false, uncounted := false, waiting := false
    posting := r.suspects.any (fun u => u.verdict == 3) && r.suspects.all (fun u => u.verdict != 0) }

/-- Another step is between orders 2 and 5: a recount run holds the device as the first run did (R346). -/
def State.othersRun (s : State) (job : Nat) : Bool :=
  s.runs.any (fun r => r.job != job && decide (r.order < 6) && !r.waiting)

/-- A replacement that the next run waits for has not landed (R152, R322). -/
def State.replacementDue (s : State) (r : Run) : Bool := s.fab.recvs.any (fun x => x.ofStep r && x.due)

/-- The job names the hosts of the logical cores that moved. -/
def Job.placed (j : Job) (m moved : List Nat) : Job := { j with prov := moved.map (fun l => (l, nthD noHost m l)) }

/-- The hosts of the logical cores that moved get their die banks. -/
def State.readyAll (s : State) (m moved : List Nat) : State :=
  moved.foldl (fun s l => s.readyBanks (nthD noHost m l)) s

/-- The step's run is replaced by its next. -/
def State.nextRun (s : State) (r : Run) : State := { s.setRun r with freeCtr := s.freeCtr + 1 }

/-- RECOUNT_RUN (R341). -/
def execRecountRun (job : BitVec 16) (s : State) : Host.Outcome State Fault Refusal :=
  match s.job job.toNat, s.run job.toNat with
  | some j, some r =>
    if s.held || !s.ready || !r.waiting || !r.poisoned.isEmpty || s.replacementDue r || s.othersRun r.job then .next s
    else
      let m := s.nextHosts r
      let moved := (List.range 512).filter (fun l => nthD noHost m l != nthD noHost s.lmap l && decide (l < j.slots))
      let r := r.again j m s.errSeq
      if r.hosts.any (fun p => decide (576 ≤ p)) then .next s
      else
        let s := (s.setJob (j.placed m moved)).readyAll m moved
        let s := s.readReceived r
        .next (s.nextRun (resched j (s.takeReceived j r)))
  | _, _ => .next s

end Sys2Proof.Machine
end

