-- ==== Sys2Proof/Machine/Posting.lean ====
section
/-! DEFINITION. Posting and what follows it: the new generation, hallmark records, regeneration counters, the
completions, escrow write-back; and the end of a job that waited for its step (R237 to R240, R250, R255, R275,
R339, R368, R372, R374, R399, R470). -/

namespace Sys2Proof.Machine

/-! ### The new posted state (Table 8-12 order 9) -/

/-- Every till with what its slot wrote. -/
def postTills : List Mem → List Slot → List Mem
  | m :: ms, x :: xs => m.post x.till :: postTills ms xs
  | ms, _ => ms

/-- The partial hallmark of an entry: the sum of its slot over the device's slots (R372). -/
def Run.hallmark (r : Run) (hslot : Nat) : W128 := r.slots.foldl (fun a x => a + nthD 0 x.hall hslot) 0

/-- The 32 bytes of a hallmark record (Table 12-12). -/
def hallRecord (h : W128) (step layer sf sl : Nat) : List Byte :=
  leBytes 32 (h.toNat * 2 ^ 128 + step % 2 ^ 64 * 2 ^ 64 + layer % 2 ^ 24 * 2 ^ 40 + sf % 65536 * 2 ^ 24
    + sl % 65536 * 2 ^ 8 + 1)

/-- Number of entries of a hallmark plan, and descriptor of its log (Table 12-11). -/
def hallEntries (b : Binary) : Nat := bits b.hallHeader.toNat 51 39
def hallLog (b : Binary) : W128 := b.entry (bits b.hallHeader.toNat 63 52)

/-- The bytes of one plan entry's record in the log: none for another template. -/
def hallWrite (j : Job) (r : Run) (e x : Nat) : List (Nat × Byte) :=
  if bits x 39 24 = r.template then
    let d := hallLog j.bin
    let row := (r.step.toNat * hallEntries j.bin + e) % dRows d
    let bs := hallRecord (r.hallmark (bits x 23 21)) r.step.toNat (bits x 63 40) j.shardFirst j.shardLast
    (List.range 32).map (fun k => (dBase d + dPitch d * row + k, nthD 0 bs k))
  else []

/-- The hallmark records of a posted step (R374). -/
def hallWrites (j : Job) (r : Run) : List (Nat × Byte) :=
  (List.range j.bin.hall.length).flatMap (fun e => hallWrite j r e (nthD 0 j.bin.hall e).toNat)

/-- Descriptors that a template produces (KIND 0x2 of the escrow plan). -/
def Binary.produces (b : Binary) (t : Nat) : List Nat :=
  b.escrow.foldl (fun l e => if bits e.toNat 35 32 = 2 ∧ bits e.toNat 51 36 = t then insertNat (bits e.toNat 63 52) l else l) []

/-- A job whose step has posted. -/
def Job.post (j : Job) (r : Run) : Job :=
  let hbm := j.hbm.post r.hbm
  let log := Shadow.empty.writeAll (hallWrites j r) []
  { j with
    tills := postTills j.tills r.slots
    vault := j.vault.post r.vault
    hbm := hbm.post log
    regen := (j.bin.produces r.template).foldl (fun l d => put d r.step.toNat l) j.regen
    step := j.step + 1
    gen := j.gen + 1
    everPosted := true }

/-! ### The queue of steps -/

/-- Order 10: the STEP_POSTED entry, and the completion of a STEP_RUN after that of its last step. -/
def State.reportPost (s : State) (j : Job) (r : Run) : State :=
  let s := s.pushCpl
    { opcode := 0xC0, flags := 0, job := j.num, cmdRing := 0, cmdSeq := 0, record := 0, section_ := 0, status := 0
      result0 := r.step.toNat, result1 := (r.gen + 1).toNat, ring := j.cplRing }
  match s.job j.num with
  | none => s
  | some j =>
    match j.queue with
    | [] => s
    | q :: t =>
      let q := q.advance j r
      if q.isDone then
        (s.setJob { j with queue := t }).pushCpl (q.cpl j.num 0 (s.peerOf q.ring) r.step.toNat)
      else s.setJob { j with queue := q :: t }

/-! ### The sequence table -/

/-- A sequence has a request in some batch. -/
def inBatch (bs : List Batch) (i : Nat) : Bool := bs.any (fun b => b.reqs.any (fun q => q.index == i))

/-- Batches that the posted step served are done, and closing sequences without requests become free (R255). -/
def State.dropServed (s : State) (n : Nat) (step : W64) : State :=
  let bs := s.batches.filter (fun b => !(b.job == n && decide (b.served = some step)))
  { s with
    batches := bs
    seqTab := s.seqTab.filter (fun x => !(x.2.job == n && x.2.closing && !inBatch bs x.1)) }

/-! ### The end of a run -/

/-- Whole µs and ms between two times. -/
def usSince (now then_ : W64) : Nat := (now - then_).toNat / 1000
def msSince (now then_ : W64) : Nat := (now - then_).toNat / 1000000

/-- Every countersign that the step read has verified (Table 8-12 order 8). -/
def State.allVerified (s : State) (r : Run) : Bool := s.fab.recvs.all (fun x => !x.ofStep r || !x.read || x.verified)

/-- A run posts: memories, hallmarks, completions (R239). -/
def State.postRun (s : State) (j : Job) (r : Run) : State :=
  let r := s.verifiedPart r
  let s := s.setJob (j.post r)
  let s := { s.exchange r with wback := s.wback ++ (r.hbm.pages 4096).map (fun p => WBack.mk j.num p r.step.toNat s.time) }
  let s := s.applyStage
  let s := { s with fab := { s.fab with recvs := s.fab.recvs.filter (fun x => !x.ofStep r) } }
  let s := s.dropServed j.num r.step
  let s := s.sample 0 0 (usSince s.time r.started)
  let s := match r.detected with
    | some t => if 1 < r.history.length then s.sample 0 2 (msSince s.time t) else s
    | none => s
  let s := s.reportPost j r
  s.dropRun j.num

/-- STEP_POST (R237). -/
def execStepPost (job : BitVec 16) (s : State) : Host.Outcome State Fault Refusal :=
  match s.job job.toNat, s.run job.toNat with
  | some j, some r =>
    if s.held || !s.ready || r.order != 7 || r.waiting || r.broken || !s.allVerified r then .next s
    else .next (s.postRun j r)
  | _, _ => .next s

/-- ESCROW_WRITE_BACK (R275): the page is home, and its escrow is free. -/
def execEscrowWriteBack (job : BitVec 16) (page : Nat) (s : State) : Host.Outcome State Fault Refusal :=
  .next { s with wback := s.wback.filter (fun w => !(w.job == job.toNat && w.page == page)) }

/-- JOB_END_EFFECT (R238): the job's step has posted or ended. -/
def execJobEndEffect (job : BitVec 16) (s : State) : Host.Outcome State Fault Refusal :=
  match s.job job.toNat with
  | some j =>
    if s.held || !s.ready || j.ending.isNone || (s.run j.num).isSome || !j.snaps.isEmpty then .next s
    else .next (s.endJob j.num 0)
  | none => .next s

/-- DIE_BANK_SWITCH (Table 6-13 order 6): at the switch step, before the core's first former instruction, and
not in a recount (R194). -/
def execDieBankSwitch (core : Nat) (s : State) : Host.Outcome State Fault Refusal :=
  let c := s.core core
  if s.held || !s.ready || !c.scheduled || !c.pending then .next s
  else match s.runs.find? (fun r => r.toSwitch.contains core && r.hosts.contains core && decide (r.order < 5)
      && r.history.isEmpty && !r.broken) with
    | none => .next s
    | some r =>
      if (List.range r.slots.length).any (fun d => r.host d == core && (r.slot d).former) then .next s
      else .next (s.switchBank core r.job r.step.toNat)

end Sys2Proof.Machine
end

