-- ==== Sys2Proof/Machine/Regen.lean ====
section
/-! DEFINITION. Regeneration: a producing template is executed again at a recorded step counter, and only the
regenerated region is posted (R240, R288, R290, Table 9-10; log 27). -/

namespace Sys2Proof.Machine

/-- What an engine's record computes, by opcode. -/
def engineFun (op : Nat) : Option (Ctx → Nat → RecOut) :=
  match op with
  | 0x03 => some doRng
  | 0x40 => some doMillLoad
  | 0x41 => some doMillPass
  | 0x50 => some (doElem .add)
  | 0x51 => some (doElem .sub)
  | 0x52 => some (doElem .mul)
  | 0x53 => some (doElem .mad)
  | 0x54 => some (doElem .min)
  | 0x55 => some (doElem .max)
  | 0x56 => some (doElem .abs)
  | 0x57 => some (doElem .neg)
  | 0x58 => some (doElem .cvt)
  | 0x59 => some (doElem .sel)
  | 0x5A => some (doElem .cmpge)
  | 0x5B => some doDrain
  | 0x5C => some doReduce
  | 0x5D => some doCheck
  | 0x60 => some (guarded doEval)
  | 0x61 => some (guarded doSmaxAcc)
  | 0x62 => some (guarded doSmaxOut)
  | 0x63 => some (guarded doRms)
  | _ => none

/-- How a regeneration's record ends. -/
inductive Redo where
  | run (r : Run)
  | fault (code operand : Nat)
  | poison (space slot addr : Nat)
deriving DecidableEq, Repr

/-- The record at a slot's position completes at once: a regeneration is a run of its own, with nothing of it
visible until it posts. -/
def redoRecord (s : State) (j : Job) (r : Run) (d : Nat) : Redo :=
  let x := r.slot d
  let rec_ := j.recAt d x.pc
  let rec2 := j.recAt d (x.pc + 1)
  let op := rOpcode rec_
  let c := s.ctx j r d
  let i : Iss := ⟨j, r, rec_, rec2⟩
  if op = 0x01 then .run (resched j (r.setSlot d { x with pc := x.pc + 1, begun := true }))
  else if op = 0x02 then
    let r := r.applyWrites d (planeWrites j x.groupMax) []
    .run (resched j (r.setSlot d { r.slot d with pc := x.pc + 1, ended := true }))
  else if isMove op then
    let k := c.capture rec_ rec2
    let f := { i.flight d with
      writes := inSpace k.space k.writes, marks := k.marks.map (fun b => (k.space, b, true)), dst := k.slot
      arrival := k.arrival, atom := if op = 0x22 then 1 else if op = 0x23 then 2 else 0 }
    .run (resched j ((i.after d { slot := x } 0 f r.bank).landed j d f))
  else if op = 0x70 then .run (resched j (r.setSlot d { x with pc := x.pc + 2 }))
  else match engineFun op with
    | none => .run (resched j (r.setSlot d { x with pc := x.pc + 1 }))
    | some f =>
      let o := f c rec_
      match o.fault, o.consumed with
      | some e, _ => .fault e.1 e.2
      | none, (sp, a) :: _ => .poison sp d a
      | none, [] =>
        let q := i.after d o 0 (i.flight d) r.bank
        .run (resched j (q.dropFlight d (i.idx d)))

/-- A slot whose turn runs and whose waits are met. -/
def redoReady (j : Job) (r : Run) (d : Nat) : Bool :=
  let x := r.slot d
  let rec_ := j.recAt d x.pc
  !x.ended && decide (look (r.host d) r.turns = some d) && decide (x.skipTo ≤ x.pc)
    && (!x.begun || (!unmet j r.template d x (rWaitA rec_) && !unmet j r.template d x (rWaitB rec_)))

/-- Run every slot to its end, one record at a time; `n` bounds the records. -/
def redoLoop (s : State) (j : Job) : Nat → Run → Redo
  | 0, r => .run r
  | n + 1, r =>
    match (List.range r.slots.length).find? (fun d => redoReady j r d) with
    | none => .run r
    | some d =>
      match redoRecord { s with freeCtr := s.freeCtr + n } j r d with
      | .run r => redoLoop s j n r
      | x => x

/-- Records of a template over all slots, and as many again for the segments' ends. -/
def redoFuel (j : Job) (t : Nat) : Nat :=
  sumBy (fun l => (segment (j.bin.stream l) t).2.length + 1) (List.range j.bin.lcores)
    * (j.shardLast + 1 - j.shardFirst)

/-- The template that produces a regenerable region. -/
def Binary.producer (b : Binary) (desc : Nat) : Option Nat :=
  (b.escrow.find? (fun e => decide (bits e.toNat 35 32 = 2) && decide (bits e.toNat 63 52 = desc))).map
    (fun e => bits e.toNat 51 36)

/-- A block lies, in part or whole, between two addresses. -/
def blockIn (lo hi b : Nat) : Bool := decide (lo ≤ 64 * b + 63) && decide (64 * b < hi)

/-- The cells of a shadow between two addresses. -/
def Shadow.within (sh : Shadow) (lo hi : Nat) : Shadow :=
  ⟨sh.cells.filter (fun c => decide (lo ≤ c.1) && decide (c.1 < hi)), []⟩

/-- Rewritten frames lose their marks, but for the blocks that a move of the re-execution poisoned (R287, R288). -/
def Mem.remark (m : Mem) (sh : Shadow) (lo hi : Nat) : Mem :=
  { m with poison := m.poison.filter (fun b => !blockIn lo hi b || decide (look b sh.poison = some true)) }

/-- Post one region of a regeneration, and nothing else (R240). -/
def Job.takeRegion (j : Job) (r : Run) (desc : Nat) : Job :=
  let d := j.bin.entry desc
  let lo := dBase d
  let hi := dEnd d
  let marks (sh : Shadow) : Shadow := ⟨[], sh.poison.filter (fun x => x.2 && blockIn lo hi x.1)⟩
  let up (m : Mem) (sh : Shadow) : Mem := ((m.post (sh.within lo hi)).post (marks sh)).remark sh lo hi
  match dSpace d with
  | 0 => { j with tills := (List.range j.tills.length).map (fun k => up (nthD Mem.empty j.tills k) (r.slot k).till) }
  | 1 => { j with vault := up j.vault r.vault }
  | _ => { j with hbm := up j.hbm r.hbm }

/-- The run of a regeneration of a template at a step counter (R240). -/
def State.redoRun (s : State) (j : Job) (t n : Nat) (bank : Option (Nat × Nat)) : Run :=
  let r := { s.openRun j { template := t, left := none, posted := 0, locked := false, ring := 0, seq := 0
                           stamp := 0 } with step := BitVec.ofNat 64 n, bank := bank }
  resched j r

/-- What a regeneration ends in. -/
inductive Regened where
  | done (j : Job)
  | fault (code operand : Nat)
deriving DecidableEq, Repr

/-- Regenerate a region, its producers first where they are poisoned themselves. -/
def State.regenerate (s : State) (bank : Option (Nat × Nat)) : Nat → Job → Nat → Regened
  | 0, _, _ => .fault 0x0105 0
  | n + 1, j, desc =>
    match j.bin.producer desc, look desc j.regen with
    | some t, some step =>
      (match redoLoop s j (redoFuel j t) (s.redoRun j t step bank) with
       | .run r => .done (j.takeRegion r desc)
       | .fault c o => .fault c o
       | .poison sp _ a =>
         match j.regionAt sp a true with
         | some k => (match State.regenerate s bank n j k with
           | .done j => State.regenerate s bank n j desc
           | x => x)
         | none => .fault 0x0105 a)
    | _, _ => .fault 0x0105 0

/-- Levels of producers that a regeneration follows: one for every block that may be poisoned twice over. -/
def regenDepth (j : Job) : Nat := 2 * j.bin.pool.length + 2

/-- The record of a regeneration (Table 11-11). -/
def State.regenEvent (s : State) (j : Job) (r : Option Run) (space addr desc : Nat) : State :=
  s.raise { code := 0x0B, job := j.num, step := match r with | some r => r.step.toNat | none => 0
            run := match r with | some r => r.run | none => 7
            utype := (s.blockUnit space 0 (addr / 64)).1, punit := (s.blockUnit space 0 (addr / 64)).2
            action := 8, w6 := space * 2 ^ 62 + addr / 64 * 64, w7 := desc }

/-- The blocks of a regenerated HBM region are read back in background slots (R291). -/
def State.readBack (s : State) (j : Job) (desc : Nat) : State :=
  let d := j.bin.entry desc
  if dSpace d = 2 then
    (List.range ((dEnd d + 63) / 64 - dBase d / 64)).foldl (fun s i =>
      let b := dBase d / 64 + i
      let c := s.channelOf (64 * b)
      s.setChan c { s.chan c with rewrite := (s.chan c).rewrite ++ [(j.num, b, false)] }) s
  else s

/-- Regenerate one region of a job for the run that consumed its poison, or for the job's next step. -/
def State.regenJob (s : State) (j : Job) (r : Option Run) (desc : Nat) : State :=
  let bank := match r with | some r => r.bank | none => none
  let d := j.bin.entry desc
  let at_ := match r with
    | some r => (match r.poisoned.find? (fun x => decide (x.2.2.2 = desc)) with
      | some x => x.2.2.1
      | none => dBase d)
    | none => dBase d
  let s := s.regenEvent j r (dSpace d) at_ desc
  match s.regenerate bank (regenDepth j) j desc with
  | .fault c o =>
    let e : Evt := { code := 0x10, job := j.num, action := 9 }
    s.programFault j.num c o (match r with | some r => { e with step := r.step.toNat, run := r.run } | none => e)
  | .done k =>
    let s := (s.setJob { k with regenDue := eraseNat desc k.regenDue }).readBack j desc
    let s := match r with
      | some r => s.setRun { r with poisoned := r.poisoned.filter (fun x => decide (x.2.2.2 ≠ desc)) }
      | none => s
    { s with freeCtr := s.freeCtr + redoFuel j 0 + 1 }.lockBreakJob j.num

/-- REGENERATION (R240, R288, R290): once the run that met the poison has ended, or before the job's next step. -/
def execRegeneration (job : BitVec 16) (desc : BitVec 12) (s : State) : Host.Outcome State Fault Refusal :=
  match s.job job.toNat with
  | none => .next s
  | some j =>
    if s.held || !s.ready then .next s
    else match s.run job.toNat with
      | some r =>
        if r.waiting && r.poisoned.any (fun x => decide (x.2.2.2 = desc.toNat)) then .next (s.regenJob j (some r) desc.toNat)
        else .next s
      | none => if j.regenDue.contains desc.toNat then .next (s.regenJob j none desc.toNat) else .next s

end Sys2Proof.Machine
end

