-- ==== Sys2Proof/Machine/Loader.lean ====
section
/-! DEFINITION. JOB_LOAD: the checks of a whole load, the initial images, resuming from a snapshot (R23, R217, R231,
R232, R236, R243, R252, R253, R257, R362; log 36). -/

namespace Sys2Proof.Machine

/-- What a JOB_LOAD names beside its binary (Table 8-23). -/
structure LoadCmd where
  num : Nat
  devices : Nat
  first : Nat
  last : Nat
  step0 : Nat
  snap : Bool
  cplRing : Nat
deriving DecidableEq, Repr

/-- The fields of a JOB_LOAD (Table 8-23). -/
def Cmd.load (c : Cmd) : LoadCmd :=
  { num := c.job, devices := bits (c.w 3) 63 48, first := bits (c.w 3) 47 32, last := bits (c.w 3) 31 16
    step0 := c.w 4, snap := bit (c.w 6) 61, cplRing := c.w 7 }

/-- The job that a load makes, with empty memories. -/
def LoadCmd.job (l : LoadCmd) (b : Binary) : Job :=
  { num := l.num, bin := b, devices := l.devices, shardFirst := l.first, shardLast := l.last
    step0 := BitVec.ofNat 64 l.step0, step := BitVec.ofNat 64 l.step0, gen := 0
    tills := List.replicate ((l.last + 1 - l.first) * b.lcores) Mem.empty, vault := Mem.empty, hbm := Mem.empty
    regen := [], queue := [], cplRing := l.cplRing, queued := [], ending := none, snaps := [], everPosted := false
    regenDue := [], prov := [] }

/-! ### Checks of a load -/

/-- A shard range that the job cannot have (R232): it leaves the binary's shards, or a device is left without one. -/
def rangeBad (l : LoadCmd) (b : Binary) : Bool :=
  decide (l.last < l.first) || decide (b.shards ≤ l.last)
    || (decide (l.devices = 0) && decide (l.last + 1 - l.first ≠ b.shards))
    || decide (b.shards < (l.last + 1 - l.first) + l.devices)

/-- What the command breaks with its binary, reported at the header. -/
def fitRejects (l : LoadCmd) (b : Binary) : List Reject :=
  rejectsAt 0 0
    [ (rangeBad l b, 0x0017)
    , (b.form && decide (l.devices ≠ b.chips), 0x0018) ]

/-- Demand of the new job beside that of the resident jobs, reported at the step table (R236, R262, R276, R277). -/
def State.capacityRejects (s : State) (ds : List Dir) (j : Job) : List Reject :=
  let js := s.jobs ++ [j]
  rejectsAt (secOf ds 4 0) 0
    [ (!(escrowFits js && s.escrowSpread j), 0x0014)
    , (!(tillFits js && s.vaultFits js && hbmFits s.hbmBytes js), 0x0015) ]

/-- Rank of a code among the checks that fail at one place: the table's order, but the token rule stands before
the hazard rule, which is stated over the order that tokens give (R228, R229; log 36). -/
def tieRank (code : Nat) : Nat := if code = 0x11 then 2 * 0x12 + 1 else 2 * code

/-- The first failure of a list: section, record, then the rank of its code. -/
def firstOf (rs : List Reject) : Option Reject := minBy (fun r => r.pos * 2 ^ 17 + tieRank r.code) rs

/-- The first failure of a load by its place among all checks (R257). Of a check of one record and one of several
that fall on the same record, the first is reported; behind a header that fails nothing is read (log 36). -/
def State.loadReject (s : State) (l : LoadCmd) (bs : List Byte) : Option Reject :=
  match headerRejects bs s.dev.proofEn with
  | r :: t => firstOf (r :: t)
  | [] =>
    let ds := dirsOf bs
    let b := binaryOf bs
    let own := firstOf (containerRejects bs s.dev.proofEn ++ fitRejects l b ++ tableRejects bs ds b s.dev.proofEn l.first l.last
      ++ streamRejects ds b s.dev.proofEn ++ s.capacityRejects ds (l.job b))
    match own, firstOf (orderRejects ds b l.first l.last) with
    | some x, some y => if x.pos ≤ y.pos then some x else some y
    | some x, none => some x
    | none, y => y

/-! ### Initial images (R253) -/

/-- Write one entry of the initial images. -/
def Job.applyImage (j : Job) (i : Nat) : Job :=
  let b := j.bin
  let w0 := b.imgWord i 0
  let d := b.entry (b.imgDesc i)
  let data := (nthD ([], []) b.images i).2
  if bits w0 51 48 ≠ 0 then j
  else match dSpace d with
    | 0 => { j with tills := (List.range j.tills.length).map (fun k =>
        let m := nthD Mem.empty j.tills k
        if j.lcoreOf k = bits w0 47 39 ∧ (bit w0 38 = true ∨ j.shardOf k = bits w0 15 0) then m.write (dBase d) data else m) }
    | 1 => if b.imgHits i j.shardFirst j.shardLast then { j with vault := j.vault.write (dBase d) data } else j
    | _ => if b.imgHits i j.shardFirst j.shardLast then { j with hbm := j.hbm.write (dBase d) data } else j

/-- Every initial image of a binary written (R253). -/
def Job.applyImages (j : Job) : Job := (List.range j.bin.images.length).foldl (fun j i => j.applyImage i) j

/-! ### Resuming from a snapshot (R252, Table 8-26) -/

/-- A region record of an image, with the place of its data. -/
structure SnapRec where
  desc : Nat
  shard : Nat
  lcore : Nat
  off : Nat
  len : Nat
deriving DecidableEq, Repr

/-- The region records of a snapshot image (R252). -/
def snapRecs (img : List Byte) : List SnapRec :=
  (List.range (natAt img 72 4)).map (fun i =>
    let o := 256 + 64 * i
    ⟨natAt img o 2, natAt img (o + 2) 2, natAt img (o + 4) 2, natAt img (o + 8) 8, natAt img (o + 16) 8⟩)

/-- Regeneration records: descriptor and step counter. -/
def snapRegens (img : List Byte) : List (Nat × Nat) :=
  let o := 256 + 64 * natAt img 72 4
  (List.range (natAt img 76 4)).map (fun i => (natAt img (o + 16 * i) 2, natAt img (o + 16 * i + 8) 8))

/-- Sequence records: index and entry. -/
def snapSeqs (img : List Byte) : List (Nat × Nat) :=
  let o := 256 + 64 * natAt img 72 4 + 16 * natAt img 76 4
  (List.range (natAt img 80 4)).map (fun i => (natAt img (o + 32 * i + 16) 2, natAt img (o + 32 * i) 16))

/-- Where the region data begins, and how long it is. -/
def snapData (img : List Byte) : Nat × Nat :=
  (alignUp (256 + 64 * natAt img 72 4 + 16 * natAt img 76 4 + 32 * natAt img 80 4) 64, natAt img 88 8)

/-- A region record that the binary and the load do not hold. -/
def snapRecBad (j : Job) (img : List Byte) (r : SnapRec) : Bool :=
  let d := j.bin.entry r.desc
  !(j.bin.isTensor r.desc && (j.bin.declaredWith (fun k => decide (k ≤ 1))).contains r.desc
    && decide (r.len = regionLen d) && decide (r.off + r.len ≤ img.length)
    && (if dSpace d = 0 then decide (j.shardFirst ≤ r.shard) && decide (r.shard ≤ j.shardLast) && decide (r.lcore < j.bin.lcores)
        else true))

/-- An image that does not fit the load (R252; log 36). -/
def State.snapBad (s : State) (l : LoadCmd) (j : Job) (img : List Byte) : Bool :=
  let data := snapData img
  decide (img.length < 256) || decide (natAt img 0 4 ≠ 0x534E4150) || decide (natAt img 4 2 ≠ 1)
    || decide (natAt img 16 48 ≠ j.bin.digest.toNat) || decide (natAt img 64 2 ≠ l.first)
    || decide (natAt img 66 2 ≠ l.last) || decide (natAt img 68 2 ≠ l.devices)
    || decide ((natAt img 8 8 + 1) % 2 ^ 64 ≠ l.step0)
    || decide (img.length < data.1 + data.2)
    || (snapRecs img).any (snapRecBad j img)
    || (snapRegens img).any (fun x => (j.bin.producer x.1).isNone)
    || (snapSeqs img).any (fun x => decide (2048 ≤ x.1) || (look x.1 s.seqTab).isSome)

/-- The memory that a region record names, changed by `f`. -/
def Job.onRegion (j : Job) (r : SnapRec) (f : Mem → Mem) : Job :=
  match dSpace (j.bin.entry r.desc) with
  | 0 =>
    let k := (r.shard - j.shardFirst) * j.bin.lcores + r.lcore
    { j with tills := setNth j.tills k (f (nthD Mem.empty j.tills k)) }
  | 1 => { j with vault := f j.vault }
  | _ => { j with hbm := f j.hbm }

/-- Poison the memory blocks that hold a byte of data block `k` of a region. -/
def markBlock (d : W128) (k : Nat) (m : Mem) : Mem :=
  let lo := dBase d + 64 * k
  let hi := min (lo + 63) (dEnd d - 1)
  (m.setPoison (lo / 64) true).setPoison (hi / 64) true

/-- Write the region of a record, then mark its poisoned blocks. -/
def Job.takeRecord (j : Job) (img : List Byte) (r : SnapRec) : Job :=
  j.onRegion r (fun m => m.write (dBase (j.bin.entry r.desc)) (bytesAt img r.off r.len))

/-- The poison marks that a snapshot image gives a region (R289). -/
def Job.markRecord (j : Job) (img : List Byte) (r : SnapRec) : Job :=
  let d := j.bin.entry r.desc
  let data := snapData img
  j.onRegion r (fun m =>
    (List.range ((r.len + 63) / 64)).foldl (fun m k =>
      let b := (r.off - data.1) / 64 + k
      if bit (natAt img (data.1 + data.2 + b / 8) 1) (b % 8) then markBlock d k m else m) m)

/-- A job with the regions of an image. -/
def Job.takeImage (j : Job) (img : List Byte) : Job :=
  let rs := snapRecs img
  let j := rs.foldl (fun j r => j.takeRecord img r) j
  let j := rs.foldl (fun j r => j.markRecord img r) j
  { j with regen := (snapRegens img).foldl (fun l x => put x.1 x.2 l) [] }

/-- Regenerate the regenerable regions of an image, in ascending order (R252). -/
def State.regenAll (s : State) : List (Nat × Nat) → Job → Regened
  | [], j => .done j
  | x :: t, j =>
    match s.regenerate none (regenDepth j) j x.1 with
    | .done j => s.regenAll t j
    | e => e

/-! ### JOB_LOAD -/

/-- Where a command's completion stands beside its code (R250, R257). -/
def State.finishLoad (s : State) (c : Cmd) (r : Reject) : State :=
  s.pushCpl { c.cpl r.code with record := r.rec_, section_ := r.sec, result0 := c.w 4 }

/-- The device maps its logical cores anew at a load (R23). -/
def State.remap (s : State) : State :=
  let m := mapR23 s.healthyIn
  let new := (List.range 576).filter (fun p => hostedBy s.lmap p == 0 && decide (0 < hostedBy m p))
  { new.foldl (fun s p => s.readyBanks p) s with lmap := m }

/-- Make a loaded job resident. -/
def State.makeResident (s : State) (c : Cmd) (j : Job) : State :=
  let s := s.remap
  { s.mapPages j with jobs := s.jobs ++ [j] }.finishLoad c ⟨0, 0, 0⟩

/-- Resume a loaded job from an image, or refuse it. -/
def State.resumeJob (s : State) (c : Cmd) (j : Job) (img : List Byte) : State :=
  if s.snapBad c.load j img then s.finishLoad c ⟨0, 0, 0x0408⟩
  else
    let j := j.takeImage img
    match s.regenAll j.regen j with
    | .fault code _ => s.finishLoad c ⟨0, 0, code⟩
    | .done j =>
      let s := { s with
        freeCtr := s.freeCtr + redoFuel j 0 + 1
        seqTab := (snapSeqs img).foldl (fun l (x : Nat × Nat) => put x.1 (SeqEntry.ofCode x.2 j.num) l) s.seqTab }
      s.makeResident c j

/-- The completion ring that a load names. -/
def State.loadRing (s : State) (n : Nat) : Bool :=
  decide (n = 1) || (decide (16 ≤ n) && (match s.ring n with
    | some r => decide (r.kind = 1) && decide (r.job = 0)
    | none => false))

/-- What the command's own words break: 0, BAD_COMMAND, JOB_BUSY, JOB_LIMIT or RING_UNKNOWN. -/
def State.loadCheck (s : State) (c : Cmd) : Nat :=
  let loc := bits (c.w 6) 63 62
  if c.job = 0 ∨ 1 < loc ∨ (bit (c.w 6) 61 = true ∧ loc = 0) ∨ (bit (c.w 6) 61 = false ∧ c.w 5 ≠ 0) then 0x0401
  else if (s.job c.job).isSome then 0x0020
  else if 16 ≤ s.jobs.length then 0x0021
  else if s.loadRing (c.w 7) then 0
  else 0x0404

/-- The effect of JOB_LOAD: checks, then the job becomes resident. -/
def doJobLoad (s : State) (c : Cmd) : State :=
  match s.loadCheck c with
  | 0 =>
    let bs := s.locBytes c (c.w 1) (c.w 2) c.data
    (match s.loadReject c.load bs with
     | some r => s.finishLoad c r
     | none =>
       let j := (c.load.job (binaryOf bs)).applyImages
       if c.load.snap then s.resumeJob c j (s.locBytes c (c.w 5) (c.w 6) c.snap) else s.makeResident c j)
  | code => s.finishLoad c ⟨0, 0, code⟩

/-- JOB_LOAD (R243, R248, R257). While a retirement is due it waits, and is handled after it (R294). -/
def execJobLoad (f : Fetch) (s : State) : Host.Outcome State Fault Refusal :=
  .next (if s.retireDue then s else s.command f 0x01 doJobLoad)

end Sys2Proof.Machine
end

