-- ==== Sys2Proof/Machine/AssayRuns.lean ====
section
/-! DEFINITION. The runs of an assay: each vector is one run of its template, with the seed of R381, and what a run
leads to (R379, R381, R385, R387; log 29). -/

namespace Sys2Proof.Machine

/-! ### A vector's run (R381) -/

/-- Every record of the one slot has completed. -/
def Run.drained (r : Run) : Run := r.setSlot 0 { r.slot 0 with flights := [] }

/-- The next record of a vector's run, from its issue to its completion. An assay binary has no other core, no other
space and no atomic add (R379), so that its records may run one after the other. -/
def State.vectorStep (s : State) (j : Job) (r : Run) : Run :=
  let x := r.slot 0
  let i : Iss := ⟨j, r, j.recAt 0 x.pc, j.recAt 0 (x.pc + 1)⟩
  let op := rOpcode i.rec_
  let c := s.ctx j r 0
  if op = 0x02 then
    let ws := planeWrites j x.groupMax
    let q := r.applyWrites 0 ws []
    q.setSlot 0 { q.slot 0 with pc := x.pc + 1, ended := true, digest := x.digest + digestOf ws }
  else if op = 0x20 then
    let k := c.capture i.rec_ i.rec2
    let ws := inSpace k.space k.writes
    let f := { i.flight 0 with
      writes := ws, marks := k.marks.map (fun b => (k.space, b, true)), dst := k.slot, arrival := k.arrival }
    ((i.after 0 { slot := x } (digestOf ws) f r.bank).landed j 0 f).drained
  else match engineFun op with
    | some f =>
      let o := f c i.rec_
      (i.after 0 o (digestOf (o.digestAs.getD o.writes)) (i.flight 0) (s.bankAfter i 0)).drained
    | none => r.setSlot 0 { x with pc := x.pc + 1, begun := true }

/-- The records of a vector's run until its segment ends. -/
def State.vectorSteps (s : State) (j : Job) : Nat → Run → Run
  | 0, r => r
  | n + 1, r => if (r.slot 0).ended then r else State.vectorSteps s j n (s.vectorStep j r)

/-- A binary with another SEED (R241). -/
def Binary.withSeed (b : Binary) (seed : List Byte) : Binary :=
  { b with header := (List.range 4).foldl (fun h k => setNth h (4 + k) (BitVec.ofNat 64 (natAt seed (8 * k) 8))) b.header }

/-- SEED of a binary as 32 bytes. -/
def Binary.seed (b : Binary) : List Byte := (List.range 4).flatMap (fun k => leBytes 8 (nthD 0 b.header (4 + k)).toNat)

/-- The round seed: bytes 0 to 31 of the SHA-384 hash of SEED, the device identifier, START_COUNT and the round
number. -/
def State.roundSeed (s : State) (b : Binary) : List Byte :=
  bytesAt (digestBytes (Config.sha384
    (b.seed ++ leBytes 2 s.deviceId ++ leBytes 4 s.startNo.toNat ++ leBytes 4 s.asy.round))) 0 32

/-- The binary that a vector runs: a known-answer vector with the header's SEED, a cross vector with the round seed. -/
def State.vectorBinary (s : State) (x : AssaySet) (v : Vec) : Binary :=
  if v.cross then x.bin.withSeed (s.roundSeed x.bin) else x.bin

/-- The digest that vector `i` of a set gives on a core that computes it right: one run of its template with step
counter `i`, on the core's own die bank. -/
def State.vectorDigest (s : State) (core : Nat) (x : AssaySet) (i : Nat) (v : Vec) : W128 :=
  let l : LoadCmd := ⟨0, 0, 0, 0, 0, false, 1⟩
  let j := { (l.job (s.vectorBinary x v)).applyImages with step := BitVec.ofNat 64 i }
  let r := { s.openRun j ⟨v.template, some 1, 0, true, 0, 0, 0⟩ with hosts := [core] }
  ((s.vectorSteps j (j.streamOf 0).length r).slot 0).digest

/-- The digests of a run: of each vector what the core gave, where it computed another one than the right one. -/
def State.runDigests (s : State) (core : Nat) (x : AssaySet) (run : AssayRun) : List W128 :=
  (List.range (min run.digests.length x.vecs.length)).map (fun i =>
    match nthD none run.digests i with
    | some d => d
    | none => s.vectorDigest core x i (nthD ⟨0, 0, false⟩ x.vecs i))

/-! ### The rows -/

/-- ASSAY_RUN_END (R387): a run that completed, or that stopped at its first failing vector. -/
def execAssayRunEnd (core : Nat) (run : AssayRun) (s : State) : Host.Outcome State Fault Refusal :=
  match s.assayOf core with
  | none => .next s
  | some (j, x) =>
    if s.held || !s.ready then .next s
    else
      let ds := s.runDigests core x run
      let r := s.judge x core run.event (decide (j.why = .rotation) && j.fail.isNone) 0 (x.vecs.zip ds)
      let failed := match r.2 with
        | some f => some f
        | none => if run.event then some (ds.length - 1, (nthD 0 ds (ds.length - 1)).setWidth 64) else none
      if failed.isNone ∧ run.digests.length < x.vecs.length then .next s
      else .next (r.1.assayOutcome j x run.digests.length failed)

/-- ASSAY_RUN_LIMIT (R385): the run is stopped and counts as failed; the vector it had reached and the digest
are not known (log 29). -/
def execAssayRunLimit (core : Nat) (s : State) : Host.Outcome State Fault Refusal :=
  match s.assayOf core with
  | none => .next s
  | some (j, x) =>
    if s.held || !s.ready then .next s
    else
      let v := Config.freeNat (s.freeCtr * 16384) % (x.vecs.length + 1)
      let d := BitVec.ofNat 64 (Config.freeNat (s.freeCtr * 16384 + 1))
      .next ({ s with freeCtr := s.freeCtr + 1 }.assayOutcome j x v (some (v, d)))

end Sys2Proof.Machine
end

