-- ==== Sys2Proof/Machine/Firmware.lean ====
section
/-! DEFINITION. Host commands for die banks, firmware, configuration and attestation, and the end of a flash
write (R193 to R197, R403 to R419; logs 13, 29, 30). -/

namespace Sys2Proof.Machine

/-- The bytes at a command's location in words 1 and 2. -/
def State.item (s : State) (c : Cmd) : List Byte := s.locBytes c (c.w 1) (c.w 2) c.data

/-! ### DIE_BANK (Tables 6-13, 6-14 and 6-18) -/

/-- User slots that a mask names, ascending. -/
def maskSlots (mask : Nat) : List Nat := ((List.range 32).filter (fun j => bit mask j)).map (fun j => 32 + j)

/-- Slot images of a record. -/
def recSlots (item : List Byte) : List (Nat × List Byte) :=
  let ss := maskSlots (natAt item 8 4)
  (List.range ss.length).map (fun i => (nthD 0 ss i, bytesAt item (64 + 4096 * i) 4096))

/-- Why a die bank record is refused, 0 where it is accepted (R196, R408, R251). -/
def State.dieBankCode (s : State) (item : List Byte) : Nat :=
  let code := verifyItem s.eitherKeys 5 item
  let n := natAt item 12 4
  if code ≠ 0 then code
  else if natAt item 0 4 ≠ 0x44424E4B ∨ natAt item 6 2 = 0 ∨ n ≠ (maskSlots (natAt item 8 4)).length
      ∨ item.length ≠ 64 + 4096 * n + sigLen ∨ (bytesAt item 16 48).any (· ≠ 0)
      ∨ natAt item 4 2 ≠ s.running.head.builtin then 0x040A
  else (((recSlots item).map (fun x => dieSlotCode x.2)).find? (· ≠ 0)).getD 0

/-- No step that has begun switches a core. -/
def State.forgetSwitch (s : State) (p : Nat) : State :=
  { s with runs := s.runs.map (fun (r : Run) => { r with toSwitch := eraseNat p r.toSwitch }) }

/-- Write a record into a core's inactive bank: a reload that waits for its switch (orders 4 and 5), which no step that
has begun already makes (R194). -/
def State.loadBank (s : State) (tag : W32) (n p : Nat) : State :=
  let c := s.core p
  let b : DieBank := ⟨tag, n⟩
  (s.forgetSwitch p).setCore p { c with
    bank0 := if c.active then b else c.bank0
    bank1 := if c.active then c.bank1 else b
    pending := true
    scheduled := false }

/-- The switch step of every resident job is named: its first step that begins from now on (order 5). -/
def State.nameSwitches (s : State) : State := s.jobs.foldl (fun s j => s.nameSwitch (s.hostsFor j)) s

/-- A record that is accepted (orders 4 and 5): a core without a job switches at once. -/
def State.reload (s : State) (item : List Byte) : State :=
  let ver := natAt item 6 2
  let slots := recSlots item
  let n := s.dieRecs.foldl (fun m x => max m (x.1 + 1)) 1
  let tag := BitVec.ofNat 32 (natAt item 4 2 * 65536 + ver)
  let r : DieRec := ⟨BitVec.ofNat 16 ver, BitVec.ofNat 16 (natAt item 4 2), Config.sha384 item, slots⟩
  let s := { s with dieRecs := put n slots s.dieRecs, flash := { s.flash with dieRec := some r, dieOld := s.flash.dieRec } }
  let ps := (List.range 576).filter (fun p => !s.isFenced 1 p)
  let s := (ps.foldl (fun s p => s.loadBank tag n p) s).nameSwitches
  (ps.filter (fun p => !s.coreHasJob p && !s.underAssay p)).foldl (fun s p => s.switchBank p 0 0) s

/-- The effect of DIE_BANK: verified, then orders 4 and 5 of Table 6-13. -/
def doDieBank (s : State) (c : Cmd) : State :=
  if s.mod.flashGate then s.finish c 0x0309
  else
    let item := s.item c
    match s.dieBankCode item with
    | 0 => (s.reload item).finish c 0
    | code => (s.raise { code := 0x1D }).finish c code

/-- DIE_BANK (R193): orders 1 to 5 of Table 6-13. -/
def execDieBank (f : Fetch) (s : State) : Host.Outcome State Fault Refusal := .next (s.command f 0x0B doDieBank)

/-! ### Firmware (R413 to R417) -/

/-- The security-version record that an image carries: one that verifies, of the image's own SVN (R413). -/
def State.carried (s : State) (h : Config.FwHeader) (item : List Byte) : Option SvRec :=
  let r := bytesAt item h.svOffset 3584
  if h.svOffset ≠ 0 ∧ natAt r 0 4 = 0x53565243 ∧ natAt r 4 4 = h.svn ∧ verifyItem s.tsuvikKeys 2 r = 0 then
    some ⟨h.svn, BitVec.ofNat 384 (natAt r 8 48), Config.sha384 r, true⟩
  else none

/-- A firmware image, as a slot holds it. -/
def State.imageOf (s : State) (item : List Byte) : FwImage :=
  let h := Config.fwHeader item
  ⟨h, Config.sha384 item, s.carried h item, true⟩

/-- What an image breaks: 0, or a code of Table 14-9 (R407, R413). -/
def State.imageCode (s : State) (item : List Byte) : Nat :=
  let code := verifyItem s.tsuvikKeys 1 item
  if natAt item 0 4 ≠ 0x4657494D ∨ imageRoom < item.length then 0x0301
  else if code ≠ 0 then code
  else if (Config.fwHeader item).svn < s.flash.settled.head.svn then 0x0303
  else 0

/-- A time of the last 24 hours (log 30). -/
def State.within24h (s : State) (t : W64) : Bool := decide ((s.time - t).toNat < 86400000000000)

/-- What keeps FW_STAGE from starting. -/
def State.stageBusy (s : State) : Nat :=
  if s.mod.flashGate then 0x0309
  else if s.su.fwStaging.isSome || s.su.fwSwitch.isSome || s.su.revert.isSome then 0x030B
  else match s.flash.staged with
    | some t => if s.within24h t then 0x0308 else 0
    | none => 0

/-- The event of an FW_STAGE. -/
def State.stageEvent (s : State) (svn code : Nat) : State :=
  s.raise { code := 0x28, info := true, w6 := svn % 2 ^ 32 * 2 ^ 32 + code }

/-- The effect of FW_STAGE: checks, then the write to the inactive slot begins. -/
def doFwStage (s : State) (c : Cmd) : State :=
  let item := s.item c
  let img := s.imageOf item
  match (if s.stageBusy = 0 then s.imageCode item else s.stageBusy) with
  | 0 =>
    { s with
      flash := { s.flash.setImage (!s.su.slot) none with staged := some s.time }
      su := { s.su with fwStaging := some (c.waiting, img) } }
  | code => (s.stageEvent img.head.svn code).finish c code

/-- FW_STAGE (R416): verified, then written to the inactive slot; FLASH_WRITE_END ends the write. -/
def execFwStage (f : Fetch) (s : State) : Host.Outcome State Fault Refusal := .next (s.command f 0x0F doFwStage)

/-- FLASH_WRITE_END (R414, R418): the header is written last, and the command completes. -/
def execFlashWriteEnd (s : State) : Host.Outcome State Fault Refusal :=
  match s.su.fwStaging with
  | none => .next s
  | some (w, img) =>
    if s.mod.flashGate || !s.ready then .next s
    else
      let s := { s with flash := s.flash.setImage (!s.su.slot) (some img), su := { s.su with fwStaging := none } }
      .next ((s.stageEvent img.head.svn 0).finishLate w 0x0F 0 0 0 0 0)

/-- What keeps FW_SWITCH from waiting for its boundary: the staged image is verified again (R416, R417). -/
def State.switchCode (s : State) : Nat :=
  if s.su.fwStaging.isSome || s.su.fwSwitch.isSome || s.su.revert.isSome then 0x030B
  else match s.flash.image (!s.su.slot) with
    | none => 0x0306
    | some img =>
      if !img.verifies then 0x0301
      else if img.head.svn < s.flash.settled.head.svn then 0x0303
      else if !img.head.restores.contains s.running.head.ckptVer && !s.jobs.isEmpty then 0x0307
      else if s.mod.flashGate && decide (2 ^ 24 < s.flash.queued + 64) then 0x0309
      else 0

/-- The effect of FW_SWITCH up to the boundary that applies it (Table 14-10). -/
def doFwSwitch (s : State) (c : Cmd) : State :=
  match s.switchCode with
  | 0 => { s with su := { s.su with fwSwitch := some ⟨c.waiting, s.time⟩ } }
  | code => s.finish c code

/-- FW_SWITCH (R417): the boundary applies it. -/
def execFwSwitch (f : Fetch) (s : State) : Host.Outcome State Fault Refusal := .next (s.command f 0x10 doFwSwitch)

/-- The record that a commit appends: above the head, and linked to it (R413). -/
def State.appends (s : State) : Option SvRec :=
  match s.running.sv with
  | some r => if s.flash.settled.head.svn < r.svn ∧ r.prev = s.flash.settled.head.digest then some r else none
  | none => none

/-- The effect of FW_COMMIT: TRIAL clears, and the security-version record is appended (R413). -/
def doFwCommit (s : State) (c : Cmd) : State :=
  let b := s.flash.settled.boot
  let need := 64 + (if s.appends.isSome then 3584 else 0)
  if !s.su.trial then s.finish c 0x0306
  else if s.mod.flashGate && decide (2 ^ 24 < s.flash.queued + need) then s.finish c 0x0309
  else
    let add := s.appends
    let s := { s with su := { s.su with trial := false } }
    let s := (s.flashWrite (.boot { b with trial := false, tries := 0, seq := b.seq + 1 })).1
    let s := match add with
      | some r => (s.flashWrite (.chain r)).1.extendRun 3 r.digest
      | none => s
    s.finish c 0

/-- FW_COMMIT (R413, R416). -/
def execFwCommit (f : Fetch) (s : State) : Host.Outcome State Fault Refusal := .next (s.command f 0x11 doFwCommit)

/-! ### CONFIG_INSTALL (R403 to R405) -/

/-- TYPE, body and SEQ of a configuration record. -/
def cfgType (item : List Byte) : Nat := natAt item 4 1
def cfgBodyBytes (item : List Byte) : List Byte := bytesAt item 16 (natAt item 6 2)
def cfgSeq (item : List Byte) : Nat := natAt item 8 8

/-- What a configuration record breaks: 0, or a code of Table 14-9. -/
def State.configCode (s : State) (item : List Byte) : Nat :=
  let t := cfgType item
  let code := verifyItem (if t = 1 then s.tsuvikKeys else s.eitherKeys) 3 item
  if natAt item 0 4 ≠ 0x43464752 ∨ t = 0 ∨ 4 < t ∨ natAt item 5 1 ≠ 0
      ∨ item.length ≠ 16 + natAt item 6 2 + sigLen
      ∨ (bytesAt (sigOf item) 6 2 ++ bytesAt (sigOf item) 3389 3).any (· ≠ 0) then 0x0305
  else if code ≠ 0 then code
  else if (match look t s.su.cfg with | some r => decide (cfgSeq item ≤ r.seq.toNat) | none => false) then 0x0304
  else if s.mod.flashGate && (decide (65536 < item.length) || decide (2 ^ 24 < s.flash.queued + item.length)) then 0x0309
  else 0

/-- The effect of CONFIG_INSTALL: verified, written, in effect (R403 to R405). -/
def doConfigInstall (s : State) (c : Cmd) : State :=
  let item := s.item c
  let t := cfgType item
  match s.configCode item with
  | 0 =>
    let r : CfgRec :=
      ⟨BitVec.ofNat 64 (cfgSeq item), sigKeyId item, Config.sha384 item, Config.cfgBody t (cfgBodyBytes item)⟩
    let s := (s.flashWrite (.config t r item.length)).1
    let s := if 3 ≤ t then { s with su := { s.su with cfg := put t r s.su.cfg } } else s
    let s := s.raise { code := 0x2C, info := true, w6 := t * 2 ^ 56 + cfgSeq item % 2 ^ 56, w7 := r.keyId.toNat }
    (s.extendRun 4 r.digest).finish c 0
  | code => s.finish c code

/-- CONFIG_INSTALL (R403): fleet policy and owner keys take effect at once, the others at the next start-up. -/
def execConfigInstall (f : Fetch) (s : State) : Host.Outcome State Fault Refusal := .next (s.command f 0x12 doConfigInstall)

/-! ### ATTEST (R412) -/

/-- Bytes 0 to 191 of the attestation report (Table 14-6). -/
def State.report (s : State) (nonce : List Byte) : List Byte :=
  leBytes 4 0x41545354 ++ leBytes 2 1 ++ leBytes 2 s.deviceId ++ bytesAt nonce 0 32 ++ digestBytes s.su.mBoot
    ++ digestBytes s.su.mRun ++ leBytes 4 s.su.mCount ++ leBytes 4 s.startNo.toNat
    ++ leBytes 4 s.flash.settled.head.svn ++ leBytes 4 s.timingClass.toNat ++ leBytes 8 s.time.toNat
    ++ leBytes 4 (b2n s.dev.proofEn + 2 * b2n s.dev.timingLock + 4 * b2n s.su.slot + 8 * b2n s.su.trial
        + 16 * b2n s.su.teller)
    ++ leBytes 8 (match s.ownerKeys with | some k => (keyIdOf k).toNat | none => 0) ++ leBytes 20 0

/-- The signature block of the device identity over a report (Table 14-4). -/
def State.reportBlock (s : State) (covered : List Byte) : List Byte :=
  leBytes 4 0x53494742 ++ [3, 7, 0, 0] ++ leBytes 8 s.su.keyId.toNat
    ++ bytesAt (s.deviceSign (sigMessage 7 covered)) 0 3373 ++ leBytes 3 0

/-- The effect of ATTEST: the signed report goes to the host (R412). -/
def doAttest (s : State) (c : Cmd) : State :=
  if bits (c.w 6) 47 0 < 3584 then s.finish c 0x0401
  else if !s.su.identityOk then s.finish c 0x030A
  else
    let rep := s.report ((List.range 4).flatMap (fun i => leBytes 8 (c.w (1 + i))))
    (s.hostWrite (c.w 5) (rep ++ s.reportBlock rep)).finishWith c 3584 0

/-- ATTEST (R412). -/
def execAttest (f : Fetch) (s : State) : Host.Outcome State Fault Refusal := .next (s.command f 0x13 doAttest)

end Sys2Proof.Machine
end

