-- ==== Sys2Proof/Machine/AssaySets.lean ====
section
/-! DEFINITION. Host commands that install and remove assay sets (R378 to R380, R411, R419; log 29). -/

namespace Sys2Proof.Machine

/-! ### The record of a set (Table 13-1) -/

/-- Length of the binary that a set's header gives. -/
def setBinLen (item : List Byte) : Nat := natAt item 16 8
/-- Vectors that it gives. -/
def setVecs (item : List Byte) : Nat := bits (natAt item 8 8) 47 32
/-- The binary that an assay set carries. -/
def setBinary (item : List Byte) : List Byte := bytesAt item 32 (setBinLen item)

/-- A vector of an assay set. -/
def vecAt (item : List Byte) (i : Nat) : Vec :=
  let o := 32 + setBinLen item + 32 * i
  { expected := BitVec.ofNat 128 (natAt item o 16), template := natAt item (o + 16) 2
    cross := decide (natAt item (o + 18) 1 = 1) }

/-- The set that a record holds. -/
def assaySetOf (item : List Byte) : AssaySet :=
  let w0 := natAt item 0 8
  let w1 := natAt item 8 8
  { setId := bits w0 31 16, setVer := bits w0 15 0, startup := bit w1 63, rotation := bit w1 62, demand := bit w1 61
    runMs := bits w1 31 16, vecs := (List.range (setVecs item)).map (vecAt item), digest := Config.sha384 item
    bin := binaryOf (setBinary item) }

/-- A vector that breaks the layout of the vector table. -/
def vecBad (item : List Byte) (templates i : Nat) : Bool :=
  let o := 32 + setBinLen item + 32 * i
  let kind := natAt item (o + 18) 1
  decide (1 < kind) || decide (templates ≤ natAt item (o + 16) 2) || decide (natAt item (o + 19) 13 ≠ 0)
    || (decide (kind = 1) && decide (natAt item o 16 ≠ 0))

/-- A record whose header or lengths break Table 13-1. -/
def setHeadBad (item : List Byte) : Bool :=
  let w0 := natAt item 0 8
  let w1 := natAt item 8 8
  decide (bits w0 63 32 ≠ 0x41535359) || decide (bits w0 31 16 = 0) || decide (bits w1 60 48 ≠ 0) || decide (bits w1 15 0 ≠ 0)
    || decide (natAt item 24 8 ≠ 0) || decide (setVecs item = 0) || decide (4096 < setVecs item) || decide (bits w1 31 16 = 0)
    || decide (item.length ≠ 32 + setBinLen item + 32 * setVecs item + sigLen) || decide (2 ^ 20 < item.length)

/-- A construct that R379 keeps out of an assay binary. -/
def assayConstruct (b : Binary) : Bool :=
  b.lcores != 1 || b.shards != 1 || b.form || !b.coll.isEmpty || !b.batch.isEmpty || b.varies
    || (List.range b.pool.length).any (fun i => b.isTensor i && decide (dSpace (b.entry i) ≠ 0))
    || b.streams.any (fun st => st.any (fun r =>
        let op := rOpcode r.toNat
        decide (op = 0x22) || decide (op = 0x23) || decide (op = 0x70) || decide (op = 0x71)))

/-- The binary of a set breaks R379. -/
def State.assayBinaryBad (s : State) (item : List Byte) : Bool :=
  let bs := setBinary item
  setHeadBad item ||
    (match containerRejects bs s.dev.proofEn with
     | _ :: _ => true
     | [] =>
       let ds := dirsOf bs
       let b := binaryOf bs
       let l : LoadCmd := ⟨0, 0, 0, 0, 0, false, 1⟩
       assayConstruct b || (List.range (setVecs item)).any (vecBad item b.templates)
         || !(tableRejects bs ds b s.dev.proofEn 0 0).isEmpty || !(streamRejects ds b s.dev.proofEn).isEmpty
         || !(orderRejects ds b 0 0).isEmpty || !tillFits [l.job b])

/-! ### The store (Table 13-3) -/

/-- Slot that holds a set. -/
def Flash.slotOf (f : Flash) (id : Nat) : Option Nat := (f.assay.find? (fun x => x.2.setId == id)).map (·.1)

/-- Slot that an install writes: the set's own, or the lowest free one. -/
def Flash.slotFor (f : Flash) (id : Nat) : Option Nat :=
  match f.slotOf id with
  | some k => some k
  | none => lowestFree (f.assay.map (·.1)) 0 16

/-- A slot was erased within the preceding 24 hours. -/
def State.erasedLately (s : State) (slot : Nat) : Bool :=
  match look slot s.flash.erased with
  | some t => s.within24h t
  | none => false

/-- Why an install is refused, 0 where it is accepted. -/
def State.installCode (s : State) (item : List Byte) : Nat :=
  let x := assaySetOf item
  let keys := if x.setId = 1 then s.tsuvikKeys else s.eitherKeys
  if verifyItem keys 4 item ≠ 0 then 0x0201
  else if s.assayBinaryBad item then 0x0204
  else if (match s.flash.setById x.setId with | some o => decide (x.setVer ≤ o.setVer) | none => false) then 0x0202
  else match s.flash.slotFor x.setId with
    | none => 0x0203
    | some k =>
      if 8 ≤ (s.flash.installs.filter s.within24h).length ∨ ((s.flash.slotOf x.setId).isSome = true ∧ s.erasedLately k = true)
      then 0x0205 else 0

/-- The event of an install or a removal (Table 13-16). -/
def State.setEvent (s : State) (id ver act code : Nat) : State :=
  s.raise { code := 0x22, w6 := id * 2 ^ 48 + ver * 2 ^ 32 + act * 2 ^ 24 + code }

/-- Write a set into its slot, over an older version (which erases it). -/
def State.storeSet (s : State) (x : AssaySet) (k : Nat) : State :=
  let f := s.flash
  let erased := if (f.slotOf x.setId).isSome then put k s.time f.erased else f.erased
  { s with
    flash := { f with
      assay := put k x f.assay, erased := erased, installs := f.installs.filter s.within24h ++ [s.time] }
    asy := { s.asy with
      late := insertNat x.setId s.asy.late, refs := s.asy.refs.filter (fun r => r.1 / 4096 != x.setId) } }

/-- The effect of ASSAY_INSTALL (R380). -/
def doAssayInstall (s : State) (c : Cmd) : State :=
  if s.mod.flashGate then s.finish c 0x0309
  else
    let item := s.item c
    let x := assaySetOf item
    let code := s.installCode item
    match (if code = 0 then s.flash.slotFor x.setId else none) with
    | some k => (((s.storeSet x k).extendRun 6 x.digest).setEvent x.setId x.setVer 1 0).finish c 0
    | none => (s.setEvent x.setId x.setVer 1 code).finish c code

/-- ASSAY_INSTALL (R380). -/
def execAssayInstall (f : Fetch) (s : State) : Host.Outcome State Fault Refusal := .next (s.command f 0x0C doAssayInstall)

/-- Why a removal is refused, 0 where it is accepted. -/
def State.removeCode (s : State) (id : Nat) : Nat :=
  match s.flash.slotOf id with
  | none => 0x0206
  | some k => if id = 1 then 0x0208 else if s.erasedLately k then 0x0205 else 0

/-- Erase a slot. -/
def State.eraseSet (s : State) (k : Nat) : State :=
  { s with flash := { s.flash with assay := del k s.flash.assay, erased := put k s.time s.flash.erased } }

/-- The effect of ASSAY_REMOVE (R380). -/
def doAssayRemove (s : State) (c : Cmd) : State :=
  if s.mod.flashGate then s.finish c 0x0309
  else
    let id := c.w 1
    let code := s.removeCode id
    let ver := match s.flash.setById id with | some x => x.setVer | none => 0
    match s.flash.slotOf id, s.flash.setById id with
    | some k, some x =>
      if code = 0 then (((s.eraseSet k).extendRun 6 x.digest).setEvent id ver 2 0).finish c 0
      else (s.setEvent id ver 2 code).finish c code
    | _, _ => (s.setEvent id ver 2 code).finish c code

/-- ASSAY_REMOVE (R380). -/
def execAssayRemove (f : Fetch) (s : State) : Host.Outcome State Fault Refusal := .next (s.command f 0x0D doAssayRemove)

end Sys2Proof.Machine
end

