-- ==== Sys2Proof/Machine/CarderRecords.lean ====
section
/-! DEFINITION. The commands of the control records, the carder and the contributions, and of completion
(R227, R230, R280 to R284, R321). -/

namespace Sys2Proof.Machine

/-- NOP (R230): the record does nothing; the sequencer's check of it may fail (R335). -/
def execNop (d : Nat) (chk : Chk) (s : State) : Host.Outcome State Fault Refusal :=
  match s.issueAt d 0x00 with
  | none => .next s
  | some i =>
    let r := i.run.setSlot d { i.run.slot d with pc := i.idx d + 1 }
    .next ((s.setRun (resched i.job r)).chkReport i d chk)

/-- STEP_BEGIN (R230). -/
def execStepBegin (d : ControlRec) (s : State) : Host.Outcome State Fault Refusal := .next (s.beginSegment d.d d.chk)

/-- STEP_END (R230). -/
def execStepEnd (d : ControlRec) (s : State) : Host.Outcome State Fault Refusal := .next (s.endSegment d.d d.chk)

/-- MOVE (R280, R281): the source is read at issue; the bytes land by MOVE_LANDS. -/
def execMove (d : Nat) (chk : Chk) (s : State) : Host.Outcome State Fault Refusal := .next (s.doMove d 0x20 chk)

/-- MOVE_LANDS (R283). -/
def execMoveLands (d idx : Nat) (chk : Chk) (s : State) : Host.Outcome State Fault Refusal :=
  .next (s.landMove d idx chk)

/-- ATOM_T256 (R284). -/
def execAtomT256 (d : Nat) (chk : Chk) (s : State) : Host.Outcome State Fault Refusal := .next (s.doMove d 0x22 chk)

/-- ATOM_FP32 (R284). -/
def execAtomFp32 (d : Nat) (chk : Chk) (s : State) : Host.Outcome State Fault Refusal := .next (s.doMove d 0x23 chk)

/-- COLL_SEND (R318, R321). -/
def execCollSend (d : Nat) (chk : Chk) (s : State) : Host.Outcome State Fault Refusal := .next (s.doSend d chk)

/-- RECORD_COMPLETE (R227). -/
def execRecordComplete (d idx : Nat) (s : State) : Host.Outcome State Fault Refusal := .next (s.completeRecord d idx)

end Sys2Proof.Machine
end

