-- ==== Sys2Proof/Machine/Fences.lean ====
section
/-! DEFINITION. A fence of a unit while a step runs (R347, Table 16-5). -/

namespace Sys2Proof.Machine

/-- Runs in progress that a unit hosts slots of end at once without posting; they do not count toward six, and a
plain recount follows on the new placement (R347). -/
def State.endHosted (s : State) (hosted : List Nat) : State :=
  { s with runs := s.runs.map (fun r =>
      if decide (r.order < 6) && !r.waiting && r.hosts.any (fun p => hosted.contains p) then
        { r.breakUp with uncounted := true }
      else r) }

def regionCores (r : Nat) : List Nat := (List.range 18).map (fun i => 18 * r + i)

/-- Fence a core, or a region with its cores, at once. -/
def State.fenceNow (s : State) (utype punit cause : Nat) : State :=
  let cs := if utype = 1 then [punit] else regionCores punit
  let s := s.endHosted cs
  let s := if utype = 1 then s.fenceCore punit cause else s.fenceRegion punit cause
  (s.classEdge).assaySettle

end Sys2Proof.Machine
end

