-- ==== Sys2Proof/Machine/StartUp.lean ====
section
/-! DEFINITION. Start-up, and the resets that lead to it (R15, R22, R247, R263, R294, R325, R381 to R388, R391,
R400 to R403, R409, R411, R415, R420, R421, R434, R436, R443, R471; Tables 14-1, 14-11 and 15-8; logs 7, 9, 30, 32). -/

namespace Sys2Proof.Machine

/-! ### What a reset clears (R15, Table 14-11) -/

/-- Flash with what a start-up clears beside it: the queue and a suspended erase. -/
def Flash.restart (f : Flash) : Flash := { f with queue := [], suspended := false }

/-- The ages of R380's and R417's limits go on as DEVICE_TIME starts again from 0; the time without power does not
count (DESIGN CHOICE; log 29). -/
def Flash.since (f : Flash) (now : W64) : Flash :=
  { f with
    installs := f.installs.map (fun t => t - now)
    erased := f.erased.map (fun e => (e.1, e.2 - now))
    staged := f.staged.map (fun t => t - now) }

/-- A region at cold reset; its sensors read what they read. -/
def Region.cold (x : Region) : Region := { Region.reset with temp := x.temp, tAlert := x.tAlert }

/-- Everything but flash, measurements and what has been put out is lost: cold reset, and a loss of power. -/
def State.bare (s : State) : State :=
  { State.reset with
    pending := s.pending
    freeCtr := s.freeCtr
    time := s.time
    out := s.out
    mod := s.mod
    i3c := s.i3c
    regions := s.regions.map (fun x => (x.1, x.2.cold))
    flash := s.flash.restart }

/-- A page at warm reset: no stored field of the header is marked (C). -/
def Page.warm (_ : Page) : Page := Page.reset

def Chan.warm (c : Chan) : Chan :=
  { Chan.reset with trained := c.trained, candidate := c.candidate, corr := c.corr, uncorr := c.uncorr }

/-- Links that are degraded are withdrawn by a warm reset (R339). -/
def Units.warm (u : Units) (sum : List (Nat × Summary)) : Units :=
  let links := u.degraded.filter (fun k => k / 4096 == 4)
  { made := u.made
    fenced := links.foldl (fun l k => insertNat k l) u.fenced
    degraded := u.degraded.filter (fun k => k / 4096 != 4)
    summary := u.fenced.foldl (fun l k => match look k u.summary with
      | some e => put k e l
      | none => l) sum
    times := []
    accumulated := [] }

/-- What a warm reset keeps: fields marked (C), beat counters, fences and retirements, and flash, into which the
queue drains while the gate is open (R420). -/
def State.warmBare (s : State) : State :=
  let f := if s.mod.flashGate then s.flash else s.flash.settled
  { s.bare with
    mod := { s.mod with powerCap := 1500, undercut := 0, capBelowPin := false }
    regions := s.regions
    fabrics := s.fabrics
    chans := s.chans.map (fun x => (x.1, x.2.warm))
    dies := s.dies
    units := s.units.warm f.summary
    asy := { s.bare.asy with rotEn := s.asy.rotEn, periodH := s.asy.periodH, arrLimit := s.asy.arrLimit }
    ports := s.ports.map (fun x => (x.1, { Port.reset with fec := x.2.fec }))
    flash := f.restart }

/-! ### Order 2 (R325, R409, R415) -/

/-- A copy of the chain whose last record is torn. -/
def ChainCopy.tear (c : ChainCopy) : ChainCopy :=
  match c.recs.getLast? with
  | some r => { c with recs := c.recs.dropLast ++ [{ r with verifies := false }] }
  | none => c

/-- Damage that the flash has taken while the device was not running, as the start-up finds it: the copies and slots
that a list names (DESIGN CHOICE; log 30). -/
def Flash.damage (f : Flash) (l : List Nat) : Flash :=
  let hurt (k : Nat) (i : FwImage) : FwImage := { i with verifies := i.verifies && !l.contains k }
  { f with
    boot0 := { f.boot0 with crcOk := f.boot0.crcOk && !l.contains 0 }
    boot1 := { f.boot1 with crcOk := f.boot1.crcOk && !l.contains 1 }
    chain0 := if l.contains 2 then f.chain0.tear else f.chain0
    chain1 := if l.contains 3 then f.chain1.tear else f.chain1
    imgA := f.imgA.map (hurt 4)
    imgB := f.imgB.map (hurt 5) }

/-- What the boot ROM finds in a slot: 0 a bootable image, 2 none that verifies, 3 one below the head. -/
def Flash.bootFault (f : Flash) (slot : Bool) : Nat :=
  match f.image slot with
  | none => 2
  | some i => if i.verifies = false then 2 else if i.head.svn < f.head.svn then 3 else 0

/-- The boot ROM's choice: slot, on trial, why it fell back (0 it did not), and the boot control block. -/
structure BootPick where
  slot : Bool
  trial : Bool
  cause : Nat
  boot : Boot
deriving DecidableEq, Repr

/-- The boot control block as a start-up leaves it, and whether its trial was exhausted: the update is made before a
slot is tried (R415). -/
def Flash.entry (f : Flash) : Boot × Bool :=
  let b := f.boot
  if b.trial && decide (2 ≤ b.tries) then
    ({ b with active := !b.active, trial := false, tries := 0, seq := b.seq + 1 }, true)
  else if b.trial then ({ b with tries := b.tries + 1, seq := b.seq + 1 }, false)
  else (b, false)

/-- The selection of R415; none where neither slot is bootable, or no copy of the boot control block is valid (DESIGN
CHOICE; log 30). -/
def Flash.pick (f : Flash) : Option BootPick :=
  let b := f.entry.1
  if f.bootCopy.isNone then none
  else if f.bootFault b.active = 0 then some ⟨b.active, b.trial, if f.entry.2 then 1 else 0, b⟩
  else if f.bootFault (!b.active) = 0 then some ⟨!b.active, false, f.bootFault b.active, b⟩
  else none

/-- Identity: the keys are derived into the key store; the pair is that of the device certificate, or an event says that
it is not (R409). -/
def State.identify (s : State) : State :=
  let k := s.flash.identityKeys
  let s := { s with su := { s.su with keys := some k, keyId := keyIdOf (publicKeys k) } }
  let cert := match s.deviceCert with | some c => keyIdOf (certKeys c) | none => 0
  if s.deviceCert.isSome ∧ cert = s.su.keyId then { s with su := { s.su with identityOk := true } }
  else s.raise { code := 0x2D, w6 := s.su.keyId.toNat, w7 := cert.toNat }

/-- Events that the last power-down, or the power-up, left to this start-up: a rail's goes into the flash summary too,
that of a rail of no region as the device's, UTYPE 0 (DEDUCED; log 32); a region whose regulator did not restart is
fenced (R436, R443). -/
def State.latched (s : State) : State :=
  let s := match s.mod.tripLatch with
    | some t => s.raise { code := 0x37, w6 := t.point * 2 ^ 56 + t.unit * 2 ^ 48 + t.temp.toNat, w7 := t.start.toNat }
    | none => s
  let s := match s.mod.railLatch with
    | some r =>
      let rail := r.1.toNat / 2 ^ 56
      let seq := s.errSeq
      let s := s.raise { code := 0x34, utype := if rail < 32 then 2 else 0, punit := if rail < 32 then rail else 0
                         w6 := r.1.toNat, w7 := r.2.toNat }
      if rail < 32 then
        let s := s.summaryNow (unitKey 2 rail)
        if r.1.toNat % 256 = 2 ∧ s.isFenced 2 rail = false then
          (s.setRegion rail { s.region rail with rail := false }).fenceRegion rail seq
        else s
      else
        (s.setSummary 0 { s.summaryOf 0 with
          lastEvent := 0x34, lastStart := s.startNo, lastTime := s.time }).summaryNow 0
    | none => s
  { s with mod := { s.mod with tripLatch := none, railLatch := none } }

/-- What the boot ROM writes: START_COUNT, the boot control block where it changes, and a torn copy of the chain from the
other. While the gate is closed the first two wait in the queue, and the last is left (R413, R415, R418, R419). -/
def State.bootWrites (s : State) : State :=
  let b := s.flash.entry.1
  let old := s.flash.boot
  let s := (s.flashWrite (.start (s.startNo + 1))).1
  let s := if b = old then s else (s.flashWrite (.boot b)).1
  if s.mod.flashGate then s else { s with flash := s.flash.mend }

/-- Order 2: straps, START_COUNT, the image and the identity keys. -/
def State.order2 (s : State) (env : StartEnv) : State :=
  let teller := env.tellerEn && decide (env.folioPos = 0)
  let f := (s.flash.since s.time).damage env.torn
  let p := f.pick
  let s := { s with
    time := 0
    mod := { s.mod with tellerEn := env.tellerEn, folioPos := env.folioPos }
    flash := f
    su := { State.reset.su with
      phase := if p.isSome then 2 else 0xE
      slot := match p with | some p => p.slot | none => false
      trial := match p with | some p => p.trial | none => false
      fallback := match p with | some p => decide (p.cause ≠ 0) | none => false
      strapErr := env.tellerEn && decide (env.folioPos ≠ 0)
      teller := teller }
    tel := if teller then { s.tel with linkUp := true, width := env.link.1, gen := env.link.2 } else s.tel }
  let s := if teller then [0, 1].foldl (fun s q => s.setPort q { s.port q with state := .host }) s else s
  let s := s.bootWrites.identify
  if p.isNone then s
  else
    let s := (s.extendBoot 1 Config.romDigest).extendBoot 2 s.running.digest
    if s.flash.chain.isEmpty then s else s.extendBoot 3 s.flash.head.digest

/-! ### Order 3 (R22, R263, R294, R356, R391, R403) -/

/-- A START_FAIL event of a unit, and the record that it takes. -/
def State.startFail (s : State) (order cause utype punit : Nat) : State :=
  let s := s.raise { code := 0x2E, utype := utype, punit := punit, w6 := order * 2 ^ 56 + cause }
  { s with su := { s.su with failOrder := order } }

/-- A channel retired during start-up, before the map is built. -/
def State.retireEarly (s : State) (c cause : Nat) : State :=
  let s := s.setChan c { s.chan c with candidate := false, cause := 0 }
  let s := { s with units := { s.units with degraded := eraseNat (unitKey 5 c) s.units.degraded } }
  (s.markFenced 5 c).raise { code := 0x0E, utype := 5, punit := c, action := 5, w6 := cause }

/-- Voltage and target that R391 gives a region: the last ledger entry's, else V0 and T0. -/
def State.setRail (s : State) (r v0 vmax t0 : Nat) : State :=
  let last := s.flash.age.foldl (fun a e => if bits e.2.toNat 191 187 = r then some e.2.toNat else a) none
  s.setRegion r { s.region r with
    v0 := v0, vmax := vmax, t0 := t0
    volt := match last with | some e => bits e 183 172 | none => v0
    target := match last with | some e => bits e 171 160 | none => t0 }

/-- Entries of a list laid over another. -/
def overlay {α : Type} : List (Nat × α) → List (Nat × α) → List (Nat × α)
  | [], l => l
  | (k, v) :: t, l => overlay t (put k v l)

/-- Vault groups that are withdrawn no longer serve pages. -/
def State.groupsFromFences (s : State) : State :=
  s.units.fenced.foldl (fun s k =>
    if k / 4096 = 3 then
      let d := s.die (k % 4096 / 32)
      s.setDie (k % 4096 / 32) { d with groupsOut := insertNat (k % 32) d.groupsOut }
    else s) s

/-- Records in effect, fences of both lists, rails, HBM channels and the maps. -/
def State.order3 (s : State) (env : StartEnv) : State :=
  match look 1 s.flash.cfg with
  | none =>
    let s := s.startFail 3 3 0 0
    { s with su := { s.su with phase := 0xF, halted := true, held := [] } }
  | some m =>
    let sum : List (Nat × Summary) := s.flash.summary.filter (fun e => e.2.state == 2)
    let s := { s with
      su := { s.su with phase := 3, cfg := s.flash.cfg }
      units := { s.units with
        made := m.body.fences.foldl (fun l p => insertNat p l) []
        fenced := sum.foldl (fun (l : List Nat) (e : Nat × Summary) => insertNat e.1 l) s.units.fenced
        summary := overlay s.units.summary s.flash.summary } }
    let s := s.latched.groupsFromFences
    let s := (List.range 32).foldl (fun s r =>
      let x := nthD (700, 800, 1500) m.body.regions r
      s.setRail r x.1 x.2.1 x.2.2) s
    let s := s.candidates.foldl (fun s c => s.retireEarly c 0) s
    let s := (env.trainFail.foldl (fun l c => insertNat c l) []).foldl (fun s c =>
      if s.isFenced 5 c || decide (1024 ≤ c) then s
      else
        let s := s.setChan c { s.chan c with trained := false }
        let cause := s.errSeq
        (s.startFail 3 1 5 c).retireEarly c cause) s
    let s := { s with
      lmap := mapR23 s.healthyIn
      hbmMap := s.channels
      spared := []
      hbmBytes := s.channels.length * 984375000
      spareGb := s.channels.length * 1953125 / 984375000 }
    s.su.cfg.foldl (fun s r => s.extendBoot 4 r.2.digest) s

/-! ### Orders 4 and 5 (R190 to R194, R381 to R388) -/

/-- The die bank record that a start-up loads: the last one, where it requires the built-in version of the running image
(R408). -/
def State.dieRecIn (s : State) : Option DieRec :=
  match s.flash.dieRec with
  | some r => if r.builtin.toNat = s.running.head.builtin then some r else none
  | none => none

/-- Both die banks of every core: the running image's built-in dies and the last signed record's user slots. A record
that requires another built-in version is refused with its event (R408). -/
def State.loadBanks (s : State) : State :=
  let d := s.dieRecIn
  let s := if s.flash.dieRec.isSome && d.isNone then s.raise { code := 0x1D } else s
  let ver := match d with | some r => r.userVer.toNat | none => 0
  let b : DieBank := ⟨BitVec.ofNat 32 (s.running.head.builtin * 65536 + ver), if d.isSome then 1 else 0⟩
  let s := { s with dieRecs := match d with | some r => [(1, r.slots)] | none => [] }
  (List.range 576).foldl (fun s p => s.setCore p { CoreHw.reset with bank0 := b, bank1 := b }) s

/-- Vault and till words that fail the memory test, and the die banks. -/
def State.order4 (s : State) (env : StartEnv) : State :=
  let s := env.vaultFail.foldl (fun s g =>
    if 128 ≤ g then s
    else
      let cause := s.errSeq
      (s.startFail 4 2 3 g).permanent 3 g cause) s
  let s := s.withdrawVault
  let s := env.tillFail.foldl (fun s p =>
    if 576 ≤ p ∨ s.isFenced 1 p then s
    else
      let cause := s.errSeq
      (s.startFail 4 2 1 p).fenceCore p cause) s
  let s := s.loadBanks
  let s := match s.dieRecIn with
    | some r => s.extendBoot 5 r.digest
    | none => s
  let s := s.flash.setIds (fun _ => true) |>.foldl (fun s i => match s.flash.setById i with
    | some x => s.extendBoot 6 x.digest
    | none => s) s
  { s with su := { s.su with phase := 4 } }

/-- What a core gives in a vector of the start-up assay, in run A or B: its digest, `right` unless it computes wrong, and
whether the run raised an event on it or exceeded its time (R381, R385). -/
def givenAt (env : StartEnv) (set : Nat) (right : W128) (p i : Nat) (again : Bool) : W128 × Bool :=
  match env.assay.find? (fun a => a.core == p && a.set == set && a.vector == i) with
  | some a => if again then (a.second.getD right, a.eventAgain) else (a.first.getD right, a.event)
  | none => (right, false)

/-- The digest that more than half of the runs give (R382). -/
def majority (ds : List W128) : Option W128 := ds.find? (fun d => decide (ds.length < 2 * countIf (fun e => e == d) ds))

/-- The digest that vector `i` of a set gives at start-up on a core that computes right: both banks of every core are
the same after order 4, so that any core's does (R381). -/
def State.rightDigest (s : State) (x : AssaySet) (i : Nat) : W128 := s.vectorDigest 0 x i (nthD ⟨0, 0, false⟩ x.vecs i)

/-- Vector `i` on the cores that run it, all at once: its reference of round 0 where it is a cross vector, and the cores
that fail it with their digests (R382). -/
def State.roundVector (s : State) (env : StartEnv) (x : AssaySet) (i : Nat) (v : Vec) (live : List Nat) :
    State × List (Nat × W128) :=
  let gs := live.map (fun p => (p, givenAt env x.setId (s.rightDigest x i) p i false))
  let bad (ok : W128 → Bool) : List (Nat × W128) :=
    (gs.filter (fun g => g.2.2 || !ok g.2.1)).map (fun g => (g.1, g.2.1))
  if v.cross then
    let k := x.setId * 4096 + i
    match majority (gs.map (fun g => g.2.1)) with
    | some d => (s.setAsy { s.asy with refs := put k (.confirmed d) s.asy.refs }, bad (fun e => e == d))
    | none =>
      ((s.setAsy { s.asy with refs := put k .failing s.asy.refs }).raise { code := 0x23, w6 := x.setId * 2 ^ 48 + i, w7 := 0 },
        bad (fun _ => false))
  else (s, bad (fun e => e == v.expected))

/-- Run A of a set on a list of cores: each stops at its first failing vector; the cores that fail, with that vector and
the digest seen. -/
def State.runA (s : State) (env : StartEnv) (x : AssaySet) : Nat → List Vec → List Nat → List (Nat × Nat × W128) →
    State × List (Nat × Nat × W128)
  | _, [], _, fs => (s, fs)
  | i, v :: t, live, fs =>
    let r := s.roundVector env x i v live
    State.runA r.1 env x (i + 1) t (live.filter (fun p => !r.2.any (fun f => f.1 == p)))
      (fs ++ r.2.map (fun f => (f.1, i, f.2)))

/-- Run B of a set fails on a core too. -/
def State.runB (s : State) (env : StartEnv) (x : AssaySet) (p : Nat) : Bool :=
  (List.range x.vecs.length).any (fun i =>
    let v := nthD ⟨0, 0, false⟩ x.vecs i
    let g := givenAt env x.setId (s.rightDigest x i) p i true
    g.2 || (if v.cross then (match look (x.setId * 4096 + i) s.asy.refs with
        | some (.confirmed d) => g.1 != d
        | some .failing => true
        | _ => false)
      else g.1 != v.expected))

/-- A core's verdict of a set in the start-up assay (Table 13-6). -/
def State.roundZero (s : State) (x : AssaySet) (fs : List (Nat × Nat × W128)) (again : Nat → Bool) (p : Nat) : State :=
  match look p fs with
  | none => s.assayRecord x p 0 x.vecs.length 0 0
  | some (v, d) =>
    let s := s.assayRecord x p (if again p then 3 else 2) (v + 1) v (d.setWidth 64)
    let cause := s.errSeq - 1
    if again p then s.fenceCore p cause else s.transientAssay p

/-- The start-up assay of one set on every core that is not fenced (R382, R383). -/
def State.roundSet (s : State) (env : StartEnv) (x : AssaySet) : State :=
  let ps := (List.range 576).filter (fun p => !s.isFenced 1 p)
  let a := s.runA env x 0 x.vecs ps []
  let again := a.2.map (fun f => (f.1, a.1.runB env x f.1))
  ps.foldl (fun s p => s.roundZero x a.2 (fun p => lookD false p again) p) a.1

/-- Order 5: the start-up assay, set by set in ascending SET_ID. -/
def State.order5 (s : State) (env : StartEnv) : State :=
  let s := (s.flash.setIds (·.startup)).foldl (fun s i => match s.flash.setById i with
    | some x => s.roundSet env x
    | none => s) s
  { s with su := { s.su with phase := 5 }, lmap := mapR23 s.healthyIn }

/-! ### Orders 6 and 7 (R309, R310, R326, R401) -/

/-- Order 6: the first attempt of every port whose lanes lock; the others stay DOWN. -/
def State.order6 (s : State) (env : StartEnv) : State :=
  let s := env.ports.foldl (fun s a => s.firstAttempt a) s
  { s with su := { s.su with phase := 6 } }

/-- Order 7: a teller sends folio claims for the entries of its folio table. -/
def State.order7 (s : State) : State :=
  let s := { s with su := { s.su with phase := 7 } }
  if s.su.teller then (s.tel.folio.filter (fun e => e.2.valid)).foldl (fun s e => s.sendClaim e.1 e.2.id) s else s

/-! ### Order 8 (R247, R351, R411, R415, R471) -/

/-- A device ring at its creation: JOB 0, in HBM. BASE counts from the start of the share of the reserve that
holds the ring: rings 0 and 1 follow each other in the bursar area, ring 2 begins the log area (R264; log 48). -/
def deviceRing (base : W64) (kind size peer : Nat) : Ring :=
  { base := base, host := false, kind := kind, sizeLog2 := size, peerRing := peer, peerDev := 0, msix := 0
    irqEn := false, tail := 0, head := 0, job := 0, stopped := false, entries := [], ahead := [] }

/-- The loader is ready: rings 0 to 2, the held records, the boot control block, the measurements. -/
def State.order8 (s : State) (cause : Nat) : State :=
  let held := s.su.held
  let s := { s with
    rings := [(0, deviceRing 0 0 8 1), (1, deviceRing 0x4000 1 8 0), (2, deviceRing 0 4 16 0)]
    su := { s.su with held := [], phase := 8, mRun := s.su.mBoot } }
  let s := held.foldl (fun s r => s.ledger r) s
  let s := if cause ≠ 0 then s.raise { code := 0x2B, w6 := s.running.head.svn * 2 ^ 32 + cause } else s
  let s := if s.su.trial then
      let b := s.flash.settled.boot
      (s.flashWrite (.boot { b with tries := 0, seq := b.seq + 1 })).1
    else s
  ({ s with dev := { s.dev with classSeen := s.timingClass, classChanged := false } }).settle

/-- Table 14-1 from order 2. -/
def State.startUp (s : State) (env : StartEnv) : State :=
  let cause := match (s.flash.damage env.torn).pick with | some p => p.cause | none => 0
  let s := s.order2 env
  if s.su.phase ≠ 2 then s.settle
  else
    let s := s.order3 env
    if s.su.phase ≠ 3 then s.settle
    else ((((s.order4 env).order5 env).order6 env).order7).order8 cause

/-! ### Resets -/

/-- A warm reset (R420): every job ends, the flash queue drains, and start-up runs from order 2. It does nothing
while the rails are down. -/
def State.warmReset (s : State) (env : StartEnv) : State :=
  if s.mod.railsUp then s.warmBare.startUp env else s

/-- WARM_RESET (R420): its completion is written before the reset begins. -/
def execWarmReset (f : Fetch) (env : StartEnv) (s : State) : Host.Outcome State Fault Refusal :=
  .next (s.command f 0x14 (fun s c => (s.finish c 0).warmReset env))

/-- PERST_N (R420). -/
def execPerstN (env : StartEnv) (s : State) : Host.Outcome State Fault Refusal := .next (s.warmReset env)

/-- HOT_RESET (R327): a teller has the PCIe link that carries it. -/
def execHotReset (env : StartEnv) (s : State) : Host.Outcome State Fault Refusal :=
  .next (if s.su.teller then s.warmReset env else s)

/-- FLR (R327). -/
def execFlr (env : StartEnv) (s : State) : Host.Outcome State Fault Refusal :=
  .next (if s.su.teller then s.warmReset env else s)

/-- DEV_CTL_RESET (R457): the host reaches the register from order 2 on. -/
def execDevCtlReset (env : StartEnv) (s : State) : Host.Outcome State Fault Refusal := .next (s.warmReset env)

/-! ### Power-up (R432, R434, R436) -/

/-- The module with its rails as a power-up leaves them. -/
def Module.powered (m : Module) (env : StartEnv) (rails : Bool) : Module :=
  { m with
    railsUp := rails, mgmtUp := true, pwrEn := true, lost := false, mref := env.mref, inMv := env.inMv, flashGate := false
    sagCap := false, quiesced := false, overVolt := false, quiesceStart := 0, episode := none, powerCap := 1500
    undercut := 0, capBelowPin := false, railFault := false, thermTrip := false, doubled := [], powerOver := false }

/-- Words 6 and 7 of a RAIL_FAULT event (Table 15-14). -/
def railWords (rail cause outcome mv : Nat) : W64 × W64 :=
  (BitVec.ofNat 64 (rail * 2 ^ 56 + cause * 2 ^ 48 + outcome), BitVec.ofNat 64 mv)

/-- A power-up goes ahead: the input is at 46.0 V or more and MREF runs (R426, R432; orders 1 and 2 of Table 15-8). -/
def powers (env : StartEnv) : Bool := env.mref && decide (46000 ≤ env.inMv)

/-- POWER_UP (R434): an assertion of PWR_EN. It takes a deassertion before the next one (R432). Below 46.0 V or without
MREF no rail rises and the management domain does not start; with a rail fault of no region the module stays at
order 1 with ALERT_N asserted; a region's regulator restarts, or its region is fenced (R436). -/
def execPowerUp (env : StartEnv) (s : State) : Host.Outcome State Fault Refusal :=
  if s.mod.pwrEn then .next s
  else
    let m := s.mod.powered env false
    let b := { s.bare with i3c := ⟨none, true⟩, mod := m, time := 0, flash := s.flash.restart.since s.time }
    if !powers env then .next { b with mod := { m with mgmtUp := false } }
    else match env.rail with
      | some r =>
        if r.rail < 32 then
          .next ({ b with mod := { m with
            railsUp := true, railLatch := some (railWords r.rail r.cause (if r.restarted then 1 else 2) r.mv) } }.startUp env)
        else
          .next { b with mod := { m with
            railFault := true, railLatch := some (railWords r.rail r.cause 3 r.mv) } }.alertEdge
      | none => .next ({ b with mod := { m with railsUp := true } }.startUp env)

/-! ### Recovery (R421, R458) -/

/-- The recovery image: the stored pieces in order; a word that was not written is a free value (log 33). -/
def Recovery.bytes (r : Recovery) : List Byte :=
  let n := r.pieces.foldl (fun m p => max m (p.1 + 1)) 0
  (List.range n).flatMap (fun i =>
    let ws := lookD [] i r.pieces
    (List.range 1024).flatMap (fun k => leBytes 4 (lookD (BitVec.ofNat 32 (Config.recoveryWord i k)) k ws).toNat))

/-- The recovery image proper: the stored pieces, cut after the signature block that ends it. Its length is that
of the longest prefix that verifies (log 33). -/
def State.recoveryImage (s : State) : Option (List Byte) :=
  let bs := s.su.rcv.bytes
  (List.range 4096).findSome? (fun k =>
    let item := bs.take (bs.length - k)
    if s.imageCode item = 0 then some item else none)

def State.setRcv (s : State) (r : Recovery) : State := { s with su := { s.su with rcv := r } }

/-- FINISH: the image is verified, written to slot A, and started from order 2; an image that fails is discarded
(R421, R458). While the flash gate is closed no program begins: a verified image waits for it to open (R418; log 33). -/
def State.recFinish (s : State) (env : StartEnv) : State :=
  if s.su.phase ≠ 0xE then s
  else if s.su.rcv.pieces.isEmpty then s.setRcv { s.su.rcv with status := 4 }
  else match s.recoveryImage with
    | none => s.setRcv { Recovery.reset with status := 4 }
    | some item =>
      if s.mod.flashGate then s.setRcv { s.su.rcv with status := 2, waiting := some env }
      else
      let f := (s.flash.setImage false (some (s.imageOf item))).setBoot ⟨false, false, 0, s.flash.boot.seq + 1⟩
      let t := { s with flash := f }
      ({ t.warmBare with flash := f }.startUp env).setRcv { Recovery.reset with status := 3 }

/-- The gate is open: an image that waits is installed. -/
def State.recResume (s : State) : State :=
  match s.su.rcv.waiting with
  | some env => s.recFinish env
  | none => s

/-- FINISH (R421). -/
def execFinish (env : StartEnv) (s : State) : Host.Outcome State Fault Refusal := .next (s.recFinish env)

end Sys2Proof.Machine
end

