-- ==== Sys2Proof/Machine/Power.lean ====
section
/-! DEFINITION. Supply, rails, power and temperature (R36, R418, R419, R428 to R447; logs 32, 35). -/

namespace Sys2Proof.Machine

def State.setMod (s : State) (m : Module) : State := { s with mod := m }

/-! ### Caps (R36, R438, R442) -/

/-- The power cap after a 1 ms interval of a mean input power (Table 1-8). -/
def nextPowerCap (cap watts : Nat) : Nat :=
  if 3150 < watts then max 800 (cap - 25)
  else if watts < 3000 then min 1800 (cap + 25)
  else cap

/-- POWER_CAP (R36). -/
def execPowerCap (watts : Nat) (s : State) : Host.Outcome State Fault Refusal :=
  if !s.mod.railsUp then .next s
  else
    let cap := nextPowerCap s.mod.powerCap watts
    .next (s.setMod { s.mod with
      inW := watts, powerCap := cap, powerOver := s.mod.powerOver && decide (3200 < watts) && decide (cap = 800) }).settle

/-- POWER_OVER (R438): at the lowest cap only. -/
def execPowerOver (watts : Nat) (s : State) : Host.Outcome State Fault Refusal :=
  if !s.mod.railsUp || decide (watts ≤ 3200) || decide (s.mod.powerCap ≠ 800) || s.mod.powerOver then .next s
  else
    let s := s.setMod { s.mod with powerOver := true }
    .next (s.raise { code := 0x39, w6 := watts % 65536, w7 := s.mod.powerCap }).settle

/-- A region's thermal cap after an interval of a highest temperature (R442). -/
def nextThermalCap (cap : Nat) (t : Int) : Nat :=
  if 840 ≤ t then 800
  else if 824 ≤ t then max 800 (cap - 50)
  else if 800 ≤ t then max 800 (cap - 25)
  else if 776 ≤ t then cap
  else min 1800 (cap + 25)

/-- The temperatures of the regions from `r` upward. -/
def State.heat (s : State) : Nat → List (BitVec 16) → State
  | _, [] => s
  | r, t :: ts =>
    let x := s.region r
    State.heat (s.setRegion r { x with temp := t, thermalCap := nextThermalCap x.thermalCap t.toInt }) (r + 1) ts

/-- THERMAL_CAP (R442). -/
def execThermalCap (temps : List (BitVec 16)) (s : State) : Host.Outcome State Fault Refusal :=
  if !s.mod.railsUp then .next s else .next (s.heat 0 (temps.take 32)).settle

/-! ### Temperature (R441, R443) -/

/-- Alert and trip thresholds of a point, in eighths of a degree (Table 15-12). -/
def alertAt (point : Nat) : Int := if point = 2 then 760 else 840
def tripAt (point : Nat) : Int := if point = 2 then 840 else 920

/-- The point's alert holds. -/
def State.alerted (s : State) (point unit : Nat) : Bool :=
  match point with
  | 0 => (s.region unit).tAlert
  | 1 => s.mod.baseAlert.contains unit
  | 2 => s.mod.hbmAlert.contains unit
  | _ => s.mod.coolAlert

/-- A temperature reported at a point. -/
def State.senseAt (s : State) (point unit : Nat) (temp : BitVec 16) : State :=
  match point with
  | 0 => s.setRegion unit { s.region unit with temp := temp }
  | 1 => s.setMod { s.mod with baseTemp := put unit temp s.mod.baseTemp }
  | 2 => s.setMod { s.mod with hbmTemp := put unit temp s.mod.hbmTemp }
  | _ => s.setMod { s.mod with coolIn := temp }

/-- An alert begins or clears. -/
def State.setAlert (s : State) (point unit : Nat) (on : Bool) : State :=
  let upd (l : List Nat) : List Nat := if on then insertNat unit l else eraseNat unit l
  match point with
  | 0 => s.setRegion unit { s.region unit with tAlert := on }
  | 1 => s.setMod { s.mod with baseAlert := upd s.mod.baseAlert }
  | 2 => s.setMod { s.mod with hbmAlert := upd s.mod.hbmAlert }
  | _ => s.setMod { s.mod with coolAlert := on }

/-- The event of a thermal alert (Table 15-14). -/
def State.alertEvent (s : State) (point unit : Nat) (temp : BitVec 16) : State :=
  if point = 0 then
    s.raise { code := 0x35, utype := 2, punit := unit, w6 := unit * 2 ^ 56 + temp.toNat, w7 := (s.region unit).thermalCap }
  else s.raise { code := 0x36, w6 := point * 2 ^ 56 + unit * 2 ^ 48 + temp.toNat }

/-- THERMAL_ALERT (R441): at the alert threshold; a region's cap drops to 0.8 G beats/s. -/
def execThermalAlert (point unit : Nat) (temp : BitVec 16) (s : State) : Host.Outcome State Fault Refusal :=
  if !s.mod.railsUp then .next s
  else
    let s := s.senseAt point unit temp
    if temp.toInt < alertAt point ∨ s.alerted point unit = true then .next s
    else
      let s := if point = 0 then s.setRegion unit { s.region unit with thermalCap := 800 } else s
      .next ((s.setAlert point unit true).alertEvent point unit temp).settle

/-- THERMAL_ALERT_CLEAR (R441): 2 °C below the threshold; the coolant inlet's is 45.0 °C. -/
def execThermalAlertClear (point unit : Nat) (temp : BitVec 16) (s : State) : Host.Outcome State Fault Refusal :=
  let limit := if point = 3 then 360 else alertAt point
  let s := s.senseAt point unit temp
  if temp.toInt ≤ limit - 16 then .next (s.setAlert point unit false).settle else .next s

/-- COOLANT (R441): the inlet has stayed above 45.0 °C for 1 s. -/
def execCoolant (inlet outlet : BitVec 16) (s : State) : Host.Outcome State Fault Refusal :=
  if !s.mod.railsUp then .next s
  else
    let s := s.setMod { s.mod with coolIn := inlet, coolOut := outlet }
    if inlet.toInt ≤ 360 ∨ s.mod.coolAlert = true then .next s
    else
      let s := s.setMod { s.mod with coolAlert := true }
      .next (s.raise { code := 0x38, info := true, w6 := inlet.toNat * 2 ^ 16 + outlet.toNat }).settle

/-! ### Loss of the rails (R432, R436, R443) -/

/-- Every rail but the management rails switches off: jobs and memories are lost, and only a cold start resumes. -/
def State.railsOff (s : State) (phase : Nat) (halted : Bool) : State :=
  let b := s.bare
  { b with
    mod := { s.mod with railsUp := false, lost := true, flashGate := false, sagCap := false, quiesced := false
                        overVolt := false, episode := none, powerOver := false, doubled := [] }
    su := { b.su with phase := phase, halted := halted } }

/-- THERMTRIP (R443): handled in hardware; the regulator latches point and temperature. -/
def execThermtrip (point unit : Nat) (temp : BitVec 16) (s : State) : Host.Outcome State Fault Refusal :=
  if !s.mod.railsUp then .next s
  else
    let s := s.senseAt point unit temp
    if temp.toInt < tripAt point then .next s
    else
      let n := s.startNo
      let s := s.railsOff 0 false
      .next (s.setMod { s.mod with thermTrip := true, tripLatch := some ⟨point, unit, temp, n⟩ }).settle

/-- POWER_LOSS (R432): the input below 40.0 V, or PWR_EN deasserted; the management rails follow, and with no power no
sensor reports and ALERT_N is not driven (R427). -/
def execPowerLoss (mv : Nat) (pwrEn : Bool) (s : State) : Host.Outcome State Fault Refusal :=
  if 40000 ≤ mv ∧ pwrEn = true then .next s
  else
    let t := s.railsOff 0 false
    .next { t with
      i3c := ⟨none, true⟩
      regions := t.regions.map (fun x => (x.1, { x.2 with tAlert := false }))
      mod := { t.mod with
        baseAlert := [], hbmAlert := [], coolAlert := false
        inMv := mv, mgmtUp := false, pwrEn := s.mod.pwrEn && pwrEn, thermTrip := s.mod.thermTrip && pwrEn
        railFault := false, alertPrev := false } }

/-- A run in progress takes part in a region. -/
def State.regionRuns (s : State) (r : Nat) : Option Run :=
  s.runs.find? (fun x => decide (x.order < 6) && !x.waiting && x.hosts.any (fun p => p / 18 == r))

/-- A fault on a region's rail: an integrity event whose suspect is the region; where the restart fails, the
region is fenced at once (Table 15-9). -/
def State.regionRail (s : State) (r cause mv : Nat) (restarted : Bool) : State :=
  let w := railWords r cause (if restarted then 1 else 2) mv
  let e : Evt := { code := 0x34, utype := 2, punit := r, action := if restarted then 2 else 4, w6 := w.1.toNat, w7 := w.2.toNat }
  let seq := s.errSeq
  let s := if restarted then s else s.setRegion r { s.region r with rail := false }
  let s := match s.regionRuns r with
    | some x => s.raiseRun x.job none { e with job := x.job, step := x.step.toNat, run := x.run } 0 true false
    | none => s.raise { e with action := if restarted then 1 else 4 }
  if restarted || s.isFenced 2 r then s else s.fenceNow 2 r seq

/-- RAIL_FAULT (R436) in service: rails are numbered in the order of Table 15-7. -/
def execRailFault (rail cause mv : Nat) (restarted : Bool) (s : State) : Host.Outcome State Fault Refusal :=
  if !s.mod.railsUp then .next s
  else if rail < 32 then .next (s.regionRail rail cause mv restarted).settle
  else
    let s := s.railsOff 0xF true
    .next (s.setMod { s.mod with railFault := true, railLatch := some (railWords rail cause 3 mv) }).settle

/-! ### Sag (R418, R428 to R431) -/

/-- A SUPPLY_SAG record with the depth and lowest input of its episode, and its duration so far (Table 15-14). -/
def Sag.mark (e : Sag) (now : W64) (ws : List W64) : List W64 :=
  if bits (nthD 0 ws 0).toNat 63 56 = 0x30 then
    ws.take 6 ++ [BitVec.ofNat 64 (e.deepest * 2 ^ 56 + e.lowest % 65536), BitVec.ofNat 64 ((now - e.start).toNat / 1000)]
  else ws

/-- The record of an episode stands in the ledger from the first threshold crossed, and its words 6 and 7 follow the
episode while it is unread, until the episode ends (R430, Table 15-14; DEDUCED, log 35). -/
def State.sagRecord (s : State) (e : Sag) : State :=
  match s.ring 2 with
  | none =>
    { s with su := { s.su with held :=
        if e.seq < s.su.held.length then setNth s.su.held e.seq (e.mark s.time (nthD [] s.su.held e.seq)) else s.su.held } }
  | some r =>
    match look (e.seq % 65536) r.entries with
    | some ws =>
      if (r.tail - BitVec.ofNat 32 e.seq).toNat ≤ r.used then
        s.setRing 2 { r with entries := put (e.seq % 65536) (e.mark s.time ws) r.entries }
      else s
    | none => s

/-- The record of the open episode, if there is one. -/
def State.sagFollow (s : State) : State :=
  match s.mod.episode with
  | some e => s.sagRecord e
  | none => s

/-- A sag episode begins, with its SUPPLY_SAG record, or goes deeper; its lowest sample (R430). -/
def State.sagAt (s : State) (depth mv before : Nat) : State :=
  match s.mod.episode with
  | some e =>
    (s.setMod { s.mod with
      inMv := mv, episode := some { e with deepest := max e.deepest depth, lowest := min e.lowest mv } }).sagFollow
  | none =>
    let e : Sag := ⟨depth, mv, BitVec.ofNat 64 (s.time.toNat - before), s.errSeq⟩
    ((s.setMod { s.mod with inMv := mv, episode := some e }).raise { code := 0x30, info := true }).sagFollow

/-- The flash gate closes: nothing begins, and an erase in progress is suspended. -/
def State.closeGate (s : State) : State :=
  { s with
    mod := { s.mod with flashGate := true }
    flash := { s.flash with suspended := s.flash.suspended || s.su.fwStaging.isSome } }

/-- A sample moves the episode's lowest value. -/
def State.inputIs (s : State) (mv : Nat) : State :=
  (s.setMod { s.mod with
    inMv := mv, episode := s.mod.episode.map (fun e => { e with lowest := min e.lowest mv }) }).sagFollow

/-- FLASH_GATE_CLOSE (R418): every sample for 10 µs below 47.0 V. -/
def execFlashGateClose (mv : Nat) (s : State) : Host.Outcome State Fault Refusal :=
  if !s.mod.railsUp then .next s
  else if 47000 ≤ mv then .next (s.inputIs mv)
  else .next (s.sagAt 1 mv 10000).closeGate.settle

/-- FLASH_GATE_OPEN (R418, R419): above 47.5 V the queue is applied, a recovery image that waits is installed, and the
episode ends. -/
def execFlashGateOpen (mv : Nat) (s : State) : Host.Outcome State Fault Refusal :=
  if !s.mod.railsUp then .next s
  else if mv ≤ 47500 then .next (s.inputIs mv)
  else
    let s := s.inputIs mv
    let s := { s.drainFlash with mod := { s.mod with flashGate := false, episode := none } }
    .next ({ s with flash := { s.flash with suspended := false } }.settle).recResume

/-- The supply-sag cap applies; a sample this low closes the flash gate at once (R430). -/
def State.sagBegin (s : State) (depth mv : Nat) : State :=
  let s := (s.sagAt depth mv 0).closeGate
  s.setMod { s.mod with sagCap := true }

/-- SAG_CAP (R429): a sample below 45.5 V. -/
def execSagCap (mv : Nat) (s : State) : Host.Outcome State Fault Refusal :=
  if !s.mod.railsUp then .next s
  else if 45500 ≤ mv then .next (s.inputIs mv)
  else .next (s.sagBegin 2 mv).settle

/-- SAG_CAP_END (R429). -/
def execSagCapEnd (mv : Nat) (s : State) : Host.Outcome State Fault Refusal :=
  if !s.mod.railsUp then .next s
  else
    let s := s.inputIs mv
    if mv < 45500 then .next s else .next (s.setMod { s.mod with sagCap := false }).settle

/-- The module quiesces: its event, unless it is held already, and a lock break of the step that it holds (R370,
R431). -/
def State.hold (s : State) (mv : Nat) : State :=
  if s.held then s
  else ((s.setMod { s.mod with quiesceStart := s.time }).raise { code := 0x31, w6 := mv % 65536 }).lockBreak

/-- Service resumes once nothing holds the module: the event carries the duration. -/
def State.resume (s : State) (mv : Nat) : State :=
  if s.held then s
  else
    (s.raise { code := 0x32, info := true, w6 := mv % 65536, w7 := (s.time - s.mod.quiesceStart).toNat / 1000 }).assaySettle

/-- QUIESCE (R431): a sample below 44.0 V, which meets the shallower thresholds too. -/
def execQuiesce (mv : Nat) (s : State) : Host.Outcome State Fault Refusal :=
  if !s.mod.railsUp then .next s
  else if 44000 ≤ mv ∨ s.mod.quiesced = true then .next (s.inputIs mv)
  else
    let s := (s.sagBegin 3 mv).hold mv
    .next (s.setMod { s.mod with quiesced := true }).settle

/-- QUIESCE_END (R429): every sample for 1 ms at or above 44.0 V. -/
def execQuiesceEnd (mv : Nat) (s : State) : Host.Outcome State Fault Refusal :=
  let s := s.inputIs mv
  if mv < 44000 ∨ s.mod.quiesced = false then .next s
  else .next ((s.setMod { s.mod with quiesced := false }).resume mv).settle

/-- OVERVOLTAGE (R428): above 57.0 V for 100 µs the module quiesces as below 44.0 V. -/
def execOvervoltage (mv : Nat) (s : State) : Host.Outcome State Fault Refusal :=
  if !s.mod.railsUp then .next s
  else if mv ≤ 57000 ∨ s.mod.overVolt = true then .next (s.inputIs mv)
  else
    let s := ((s.inputIs mv).hold mv).raise { code := 0x33, w6 := mv % 65536 }
    .next (s.setMod { s.mod with overVolt := true }).settle

/-- OVERVOLTAGE_END (R428): 1 ms at or below 56.0 V. -/
def execOvervoltageEnd (mv : Nat) (s : State) : Host.Outcome State Fault Refusal :=
  let s := s.inputIs mv
  if 56000 < mv ∨ s.mod.overVolt = false then .next s
  else .next ((s.setMod { s.mod with overVolt := false }).resume mv).settle

end Sys2Proof.Machine
end

