-- ==== Sys2Proof/Machine/Upkeep.lean ====
section
/-! DEFINITION. What the bursar does beside the steps: patrol scrub, block rewrites, retirement of
pseudo-channels, arrears, the hourly re-plan and fold, refresh forms, blank strikes (R118, R269 to R272, R290 to
R294, R356, R389 to R395; logs 24, 34). -/

namespace Sys2Proof.Machine

/-! ### Scrub and rewrites (R270 to R272, R290) -/

/-- Blocks of a pseudo-channel of 10^9 bytes: one patrol pass (R8, R260). -/
def chanBlocks : Nat := 15625000

/-- A block of a channel that lies in the bursar or the log area, both stored twice. Program frames come first in a
channel, and then the shares in the order of Table 9-2, each 1/1,024 of its size (R264; log 48). -/
def duplicated (block : Nat) : Bool := decide (3986328125 ≤ 256 * block) && decide (256 * block < 3992187500)

/-- A block of a channel has been scrubbed. -/
def Chan.step (c : Chan) : Chan :=
  if c.scrubbed + 1 < chanBlocks then { c with scrubbed := c.scrubbed + 1 }
  else { c with scrubbed := 0, passes := c.passes + 1 }

/-- A poisoned block in a regenerable region is regenerated before the job's next step (R290). -/
def State.dueRegen (s : State) (n space addr : Nat) : State :=
  match s.job n with
  | none => s
  | some j =>
    match j.regionAt space addr true with
    | some d => s.setJob { j with regenDue := insertNat d j.regenDue }
    | none => s

/-- What a read of a job's block through its code does (Table 9-5, R271). -/
def State.readBlock (s : State) (j : Job) (l : MemLoc) (u : Nat × Nat) : EccOut → State
  | .clean => s
  | .corrected n => if n = 0 then s else s.corrected j.num u.1 u.2 l.block n
  | .uncorrectable a b => s.uncorrectable j u l.space l.slot l.block a.toNat b.toNat
  | .poison => s

/-- What the scrub of a job's block finds. -/
def State.scrubbed (s : State) (j : Job) (l : MemLoc) (u : Nat × Nat) (o : EccOut) : State :=
  let t := s.readBlock j l u o
  match o with
  | .uncorrectable _ _ => t.dueRegen j.num l.space (64 * l.block)
  | .poison => t.dueRegen j.num l.space (64 * l.block)
  | _ => t

/-- The unit of a block that no job's memory holds: till of core `slot`, bank group `slot`, channel `slot`. -/
def looseUnit (l : MemLoc) : Nat × Nat :=
  match l.space with
  | 0 => (1, l.slot)
  | 1 => (3, l.slot)
  | _ => (5, l.slot)

/-- The mark of a block that no job's memory holds (R271, R272). -/
def State.markLoose (s : State) (l : MemLoc) : State :=
  let u := looseUnit l
  match u.1 with
  | 1 => s.setCore u.2 { s.core u.2 with loose := insertNat l.block (s.core u.2).loose }
  | 3 =>
    let d := s.die (u.2 / 32)
    if d.loose.contains (u.2 % 32, l.block) then s
    else s.setDie (u.2 / 32) { d with loose := d.loose ++ [(u.2 % 32, l.block)] }
  | _ => s.setChan u.2 { s.chan u.2 with loose := insertNat l.block (s.chan u.2).loose }

/-- An uncorrectable block that no job's memory holds: poisoned, but for the areas stored twice, whose block is
rewritten from the other copy (R264, R270 to R272). -/
def State.uncorrLoose (s : State) (l : MemLoc) (s0 s1 : Nat) : State :=
  let u := looseUnit l
  let whole := decide (u.1 = 5) && duplicated l.block
  let s := if u.1 = 5 then s.setChan u.2 ((s.chan u.2).uncorrectable s.time 0 l.block (!whole)) else s
  let s := if whole then s else s.markLoose l
  let cause := s.errSeq
  let s := s.raise { code := 0x09, utype := u.1, punit := u.2, action := 1, w6 := eccWord6 l.space l.block false
                     w7 := s0 * 2 ^ 56 + s1 * 2 ^ 48 }
  if u.1 = 5 then s.triggers u.2 cause else s

/-- What the scrub of a block that no job's memory holds finds. -/
def State.scrubLoose (s : State) (l : MemLoc) : EccOut → State
  | .corrected n => if n = 0 then s else s.corrected 0 (looseUnit l).1 (looseUnit l).2 l.block n
  | .uncorrectable a b => s.uncorrLoose l a.toNat b.toNat
  | _ => s

/-- A block of the device, for a location that names no job. -/
def looseBlock (l : MemLoc) : Bool :=
  match l.space with
  | 0 => decide (l.slot < 576) && decide (l.block < 65536)
  | 1 => decide (l.slot < 128) && decide (l.slot % 32 ≤ 16) && decide (l.block < 131072)
  | _ => decide (l.slot < 1024) && decide (l.block < chanBlocks)

/-- A pseudo-channel's patrol moves on by one block. -/
def State.patrol (s : State) (u : Nat × Nat) : State :=
  if u.1 = 5 then s.setChan u.2 (s.chan u.2).step else s

/-- SCRUB (R272): program frames of resident jobs, and with job 0 unallocated memory and every share of the reserve.
Patrol scrub stops while the module is held (R431), and a retired channel has none. -/
def execScrub (l : MemLoc) (ecc : EccOut) (s : State) : Host.Outcome State Fault Refusal :=
  if s.held || !s.ready then .next s
  else match s.job l.job.toNat with
    | none =>
      if l.job ≠ 0 ∨ looseBlock l = false ∨ s.isFenced (looseUnit l).1 (looseUnit l).2 = true then .next s
      else .next ((s.patrol (looseUnit l)).scrubLoose l ecc)
    | some j =>
      let u := s.blockUnit l.space l.slot l.block
      .next ((s.patrol u).scrubbed j l u ecc)

/-- The waiting rewrite of a block is done. -/
def Chan.rewritten (c : Chan) (job block : Nat) : Chan :=
  { c with rewrite := delFirst (fun x => x.1 == job && x.2.1 == block) c.rewrite }

/-- ECC_REWRITE (R270, R291): a block that reads back uncorrectable makes its channel a candidate. -/
def execEccRewrite (l : MemLoc) (bad : Bool) (s : State) : Host.Outcome State Fault Refusal :=
  let n := l.job.toNat
  let c := if n = 0 then l.slot else s.channelOf (64 * l.block)
  if !s.ready || decide (l.space ≠ 2) || !(s.chan c).rewrite.any (fun x => x.1 == n && x.2.1 == l.block) then .next s
  else
    let s := s.setChan c ((s.chan c).rewritten n l.block)
    if bad then
      let cause := s.errSeq
      let t := match s.job n with
        | some j => s.uncorrectable j (5, c) 2 l.slot l.block 0 0
        | none => s.uncorrLoose { l with slot := c } 0 0
      .next (t.candidate c cause)
    else .next s

/-! ### Retirement (R291 to R294) -/

/-- Nothing that retirement waits for: no step in progress, no regeneration pending (Table 9-13). -/
def State.quiet (s : State) : Bool := s.runs.isEmpty && s.jobs.all (fun j => j.regenDue.isEmpty)

/-- A retired channel's frames go into the sparing reserve, which every healthy channel holds a part of, and its reserve
pages into other channels' shares: the spec does not say which goes where (log 24). `loose` are the blocks that no job's
memory holds and that keep their poison. -/
def State.moveFrames (s : State) (c : Nat) (loose : List Nat) : State :=
  { s with spared := s.spared ++ [⟨c, s.freeCtr, s.channels, loose⟩], freeCtr := s.freeCtr + 1 }

/-- A channel fenced: unit reset of what its page counts, but for the fields that are kept (R15, Table 16-15). -/
def Chan.fenced (c : Chan) : Chan :=
  { Chan.reset with trained := c.trained, corr := c.corr, uncorr := c.uncorr }

/-- Order 3 reads every program frame and reserve page of a channel through ECC: what the reads of its blocks find. -/
def State.readOut (s : State) (c : Nat) (es : List (MemLoc × EccOut)) : State :=
  es.foldl (fun s e => match s.job e.1.job.toNat with
    | some j => if e.1.space = 2 ∧ s.channelOf (64 * e.1.block) = c then s.readBlock j e.1 (5, c) e.2 else s
    | none =>
      let l : MemLoc := { e.1 with space := 2, slot := c }
      if e.1.job.toNat = 0 ∧ looseBlock l = true then s.scrubLoose l e.2 else s) s

/-- Orders 3 to 5 of Table 9-12 for a channel. -/
def State.retire (s : State) (c : Nat) (es : List (MemLoc × EccOut)) : State :=
  let cause := (s.chan c).cause
  let s := s.readOut c es
  let loose := (s.chan c).loose
  let s := s.setChan c (s.chan c).fenced
  let s := { s with
    units := { s.units with degraded := eraseNat (unitKey 5 c) s.units.degraded }
    hbmBytes := s.hbmBytes - 10 ^ 9
    spareGb := s.spareGb - 1 }
  let s := (s.markFenced 5 c).moveFrames c loose
  let s := s.pageReset (0x400 + c)
  (s.raise { code := 0x0E, utype := 5, punit := c, action := 5, w6 := cause }).classEdge

/-- RETIREMENT (R292): the lowest-numbered candidate, while the reserve has room for it. What the reads of its
frames find is the memory's own: a free value (log 24). -/
def execRetirement (s : State) : Host.Outcome State Fault Refusal :=
  if s.held || !s.ready || !s.retireDue || !s.quiet then .next s
  else match s.candidates with
    | [] => .next s
    | c :: _ => .next (s.retire c (Config.retireReads c s.freeCtr))

/-- SPARING_REFILL (R293): 1 GB of free program frames once the jobs fit the reduced capacity. -/
def execSparingRefill (s : State) : Host.Outcome State Fault Refusal :=
  if s.ready && decide (s.spareGb < 2) && hbmFits s.hbmBytes s.jobs then .next { s with spareGb := s.spareGb + 1 }
  else .next s

/-- RUN_TIME_RETRAINING (R291). -/
def execRunTimeRetraining (chan : Nat) (ok : Bool) (s : State) : Host.Outcome State Fault Refusal :=
  if !s.ready || s.isFenced 5 chan then .next s
  else
    let s := s.setChan chan { s.chan chan with trained := ok }
    .next (if ok then s else s.candidate chan 0)

/-! ### Arrears (R389, R390) -/

/-- ARREARS_PROMOTED (R390): what the user's oldest item has reached; the state knows the age of write-back's and of the
re-plan's, and takes the others from the command. -/
def execArrearsPromoted (user arrears : Nat) (s : State) : Host.Outcome State Fault Refusal :=
  if !s.ready || s.asy.promoted.contains user then .next s
  else
    let s := s.noteItem user arrears
    let a := s.arrears user
    match arrearsLimit user (nthD 0 s.asy.arrLimit user).toNat a with
    | none => .next s
    | some l =>
      let s := s.setAsy { s.asy with promoted := insertNat user s.asy.promoted }
      .next (s.raise { code := 0x24, info := true, w6 := (user + 1) * 2 ^ 56 + a % 2 ^ 32, w7 := l })

/-! ### The hourly re-plan (R391 to R394) -/

/-- The rates of measurement `k`, monitor by monitor; the last one given stands for those after it. -/
def ratesAt (m : RegionMeas) (k : Nat) : List Nat := (m.rates.getD k ((m.rates.getLast?).getD [])).take 16

/-- The lowest rate of measurement `k` and the monitor that gave it. -/
def measureAt (m : RegionMeas) (k : Nat) : Nat × Nat :=
  let l := ratesAt m k
  match minBy (fun i => nthD 0 l i) (List.range l.length) with
  | some i => (nthD 0 l i, i)
  | none => (0, 0)

/-- Raise the voltage while the margin is below the guard: at most four steps of 5 mV. The region, the steps
taken and the last measurement. -/
def raiseVolt (m : RegionMeas) : Nat → Nat → Region → Region × Nat
  | 0, k, x => (x, k)
  | n + 1, k, x =>
    let f := (measureAt m k).1
    if f < x.target + x.guardLo.toNat ∧ x.volt + 5 ≤ x.vmax then raiseVolt m n (k + 1) { x with volt := x.volt + 5 }
    else (x, k)

/-- `replan`: the region, the voltage steps taken, and ACTION of Table 13-9. -/
def Region.replan (x : Region) (m : RegionMeas) : Region × Nat × Nat :=
  let r := raiseVolt m 4 0 x
  let y := r.1
  let k := r.2
  let f := (measureAt m k).1
  let lo := y.guardLo.toNat
  if f < y.target + lo then
    if y.vmax < y.volt + 5 then
      let d := y.target + lo - f
      let t := max 800 (y.target - 25 * ((d + 24) / 25))
      ({ y with target := t }, k, if t = 800 ∧ f < 800 + lo then 6 else 3)
    else (y, k, if k = 0 then 0 else 1)
  else if k = 0 ∧ y.target + y.guardHi.toNat ≤ f then
    if y.target < y.t0 then ({ y with target := min y.t0 (y.target + 25) }, k, 4)
    else if y.v0 + 5 ≤ y.volt then ({ y with volt := y.volt - 5 }, k, 2)
    else (y, k, 0)
  else (y, k, if k = 0 then 0 else 1)

/-- The core index with the highest lag share, the lowest of equals, and the share. -/
def topLag (lag : List Nat) : Nat × Nat :=
  (List.range lag.length).foldl (fun b i => if b.2 < nthD 0 lag i then (i, nthD 0 lag i) else b) (0, nthD 0 lag 0)

/-- Lag shares of a region's cores; one that is slow at three re-plans in a row is due at the next boundary (R393). -/
def State.lagged (s : State) (r : Nat) (m : RegionMeas) : State :=
  let x := s.region r
  let tight := decide (x.volt = x.vmax) || decide (x.target < x.t0)
  (List.range 18).foldl (fun s i =>
    let p := 18 * r + i
    let share := min 100 (nthD 0 m.lag i)
    let c := s.core p
    let n := if tight && decide (50 ≤ share) then c.slow + 1 else 0
    let s := s.setCore p { c with lag := share, slow := n }
    if 3 ≤ n ∧ !s.isFenced 1 p ∧ !s.asy.slow.any (fun y => y.1 == p) then
      s.setAsy { s.asy with slow := put p share s.asy.slow }
    else s) s

/-- The ledger entry of a re-plan (Table 13-9). -/
def State.ageEntry (s : State) (r action fmin mon : Nat) (m : RegionMeas) : W256 :=
  let x := s.region r
  let l := topLag m.lag
  BitVec.ofNat 256 (s.startNo.toNat * 2 ^ 224 + s.time.toNat / 3600000000000 % 2 ^ 32 * 2 ^ 192
    + r * 2 ^ 187 + action * 2 ^ 184 + x.volt % 4096 * 2 ^ 172 + x.target % 4096 * 2 ^ 160 + fmin % 4096 * 2 ^ 148
    + mon % 16 * 2 ^ 144 + x.temp.toNat * 2 ^ 128 + l.1 % 32 * 2 ^ 123 + min 100 l.2 * 2 ^ 116 + x.beats.toNat)

/-- One region's re-plan: its registers, its event, its ledger entry. -/
def State.replan (s : State) (r : Nat) (m : RegionMeas) : State × List W256 :=
  if m.rates.isEmpty then (s, [])
  else
    let out := { s.region r with temp := m.temp }.replan m
    let last := measureAt m out.2.1
    let s := s.setRegion r { out.1 with freeRate := last.1 }
    let s : State := (List.range (out.2.1 + 1)).foldl (fun (s : State) (k : Nat) =>
      (ratesAt m k).foldl (fun (s : State) (f : Nat) => s.sample (0x80 + r) 3 (f : Int)) s) s
    let s := s.lagged r m
    let act : Nat := out.2.2
    let act : Nat := if act = 0 ∧ s.asy.slow.any (fun y => y.1 / 18 == r && (s.spareFor y.1).isSome) then 5 else act
    let s := if act = 6 then s.markDegraded 2 r else s
    let x := s.region r
    let s := if act = 0 then s
      else s.raise { code := 0x25, info := decide (act ≠ 6), utype := 2, punit := r
                     w6 := act * 2 ^ 56 + x.volt % 4096 * 2 ^ 44 + x.target % 4096 * 2 ^ 32 + last.1 % 4096 * 2 ^ 20 }
    (s, [s.ageEntry r act last.1 last.2 m])

/-- Regions 0 upward. -/
def replanAll : Nat → List RegionMeas → State → List W256 → State × List W256
  | _, [], s, es => (s, es)
  | r, m :: t, s, es =>
    let x := s.replan r m
    replanAll (r + 1) t x.1 (es ++ x.2)

/-- The entries of an hour, after those that earlier hours could not write, go to flash in one write; with the flash queue
full they wait in the bursar's memory for the next hour (R394, R419). -/
def State.ageWrite (s : State) (es : List W256) : State :=
  let all := s.asy.ageHeld ++ es
  let w := s.flashWrite (.ageing ((List.range all.length).map (fun i => (s.flash.ageNext + i, nthD 0 all i))))
  if w.2 then
    { w.1 with
      flash := { w.1.flash with ageNext := w.1.flash.ageNext + all.length }
      asy := { w.1.asy with ageHeld := [] } }
  else { w.1 with asy := { w.1.asy with ageHeld := all } }

/-- AGEING (R392): nothing while the module is held or the supply-sag cap applies. -/
def execAgeing (meas : List RegionMeas) (s : State) : Host.Outcome State Fault Refusal :=
  if s.held || !s.ready || s.mod.sagCap then .next s
  else
    let x := replanAll 0 (meas.take 32) (s.setAsy { s.asy with agedAt := s.time }) []
    .next (x.1.ageWrite x.2).settle

/-! ### The hourly fold (R356, R395) -/

/-- Entries of the bursar's copy that flash does not hold, at most one hour's budget of 128. -/
def State.unfolded (s : State) : List (Nat × Summary) :=
  (s.units.summary.filter (fun e => decide (look e.1 s.flash.settled.summary ≠ some e.2))).take 128

/-- SUMMARY_FOLD (R356). -/
def execSummaryFold (s : State) : Host.Outcome State Fault Refusal :=
  if !s.ready then .next s
  else
    let s := s.unfolded.foldl (fun s e => (s.flashWrite (.summary e.1 e.2)).1) s
    .next { s with flash := { s.flash with sumHour := 0 } }

/-! ### Refresh forms and blank strikes -/

/-- REFRESH_DOUBLED (R269): at 85 °C. -/
def execRefreshDoubled (stack : Nat) (temp : BitVec 16) (s : State) : Host.Outcome State Fault Refusal :=
  let s := { s with mod := { s.mod with hbmTemp := put stack temp s.mod.hbmTemp } }
  if 680 ≤ temp.toInt then .next { s with mod := { s.mod with doubled := insertNat stack s.mod.doubled } }
  else .next s

/-- REFRESH_NORMAL (R269): after 10 ms below 82 °C. -/
def execRefreshNormal (stack : Nat) (temp : BitVec 16) (s : State) : Host.Outcome State Fault Refusal :=
  let s := { s with mod := { s.mod with hbmTemp := put stack temp s.mod.hbmTemp } }
  if temp.toInt < 656 then .next { s with mod := { s.mod with doubled := eraseNat stack s.mod.doubled } }
  else .next s

/-- The core's mill strikes blanks for a run between orders 2 and 4. -/
def State.strikes (s : State) (core : Nat) : Bool :=
  s.runs.any (fun r => r.hosts.contains core && decide (r.order < 5) && (s.job r.job).any (fun j => j.bin.strikes))

/-- A strike of a core's mill is checked like any product (R333). -/
def State.strikeCheck (s : State) (core : Nat) (chk : Chk) : State :=
  match s.runs.find? (fun r => r.hosts.contains core && decide (r.order < 5)) with
  | none => s
  | some r =>
    let d := (List.range r.slots.length).find? (fun d => r.host d == core)
    match chk with
    | .residue w6 w7 _ _ _ => s.strikeRaise r d core w6 w7
    | .strike w6 w7 => s.strikeRaise r d core w6 w7
    | _ => s

/-- BLANK_STRIKE_RAMP_DOWN (R118): the mill idles; the check of its strikes says what it found (R120). -/
def execBlankStrikeRampDown (core : StrikeEnd) (s : State) : Host.Outcome State Fault Refusal :=
  let p := core.core
  if s.strikes p then .next ((s.setCore p { s.core p with idle := true }).strikeCheck p core.chk) else .next s

end Sys2Proof.Machine
end

