-- ==== Sys2Proof/Machine/Registers.lean ====
section
/-! DEFINITION. What the registers of the register window read as (R10, R11, R13, R448 to R470; logs 37, 38). -/

namespace Sys2Proof.Machine

/-! ### Pages (R448, R450 to R452) -/

/-- First page of the range that an assigned page lies in (Table 16-1). -/
def pageFirst (n : Nat) : Nat :=
  if n ≤ 6 then n else if n < 0x40 then 0x10 else if n < 0x80 then 0x40 else if n < 0x400 then 0x80
  else if n < 0x800 then 0x400 else 0x800

/-- INSTANCE: the number of the page's unit (R448). -/
def pageInstance (n : Nat) : Nat := n - pageFirst n

/-- PAGE_CAP by type: STAGE, ENABLE, UNFENCE, FENCE (Tables 16-2 and 16-5). -/
def pageCap (type : Nat) : Nat :=
  match type with
  | 1 => 8
  | 8 => 5
  | 0xA => 3
  | 0xB => 3
  | 0xC => 1
  | _ => 0

/-- UTYPE of the unit that a page controls, 0 where it controls none (Table 11-2). -/
def pageUtype (type : Nat) : Nat :=
  match type with
  | 8 => 7
  | 0xA => 2
  | 0xB => 1
  | 0xC => 5
  | _ => 0

/-- FENCED: the page's unit is fenced, withdrawn or retired. -/
def State.pageFenced (s : State) (n : Nat) : Bool :=
  let u := pageUtype (s.pageType n)
  decide (u ≠ 0) && s.isFenced u (pageInstance n)

/-- An access reaches a page: the host from order 2 of Table 14-1, and pages other than the device-control page
from order 8, when the rings exist; the sideband two pages, with the management rails (R401, R445, R450). -/
def State.pageOpen (s : State) (side : Bool) (n : Nat) : Bool :=
  decide (s.pageType n ≠ 0)
    && (if side then s.mod.mgmtUp && decide (n ≤ 1)
        else s.mod.railsUp && decide (2 ≤ s.su.phase) && (decide (n = 0) || (s.ring 2).isSome))

/-! ### Placement now (R23, R24, R341, R457) -/

/-- The run of a job between orders 2 and 5, which holds its cores. -/
def State.activeRun (s : State) : Option Run := s.runs.find? (fun r => decide (r.order < 6) && !r.waiting)

/-- Physical core that hosts a device logical core now: of the run in progress, else a provisional placement that
still stands, else the map (log 37). -/
def State.hostNow (s : State) (l : Nat) : Nat :=
  match s.activeRun.bind (fun r => r.hosts[l]?) with
  | some p => p
  | none =>
    match (s.jobs.flatMap (·.prov)).find? (fun x => x.1 == l) with
    | some x => x.2
    | none => nthD noHost s.lmap l

/-- Device logical cores that a physical core hosts now. -/
def State.hostedNow (s : State) (p : Nat) : List Nat := (List.range 512).filter (fun l => s.hostNow l == p)

/-! ### PAGE_STATUS (Tables 16-2 and 16-3) -/

/-- The page's unit, or a unit it counts for, is a suspect whose verdict is pending (R342, R453). -/
def State.pageSuspect (s : State) (n : Nat) : Bool :=
  s.runs.any (fun r => r.suspects.any (fun x => decide (unitPage x.utype x.punit = n) && x.verdict == 0)
    || r.events.any (fun e => e.recount && decide (unitPage e.utype e.punit = n)))

/-- A core serves as provisional host in a recount (Table 11-3, order 4). -/
def State.provisional (s : State) (p : Nat) : Bool :=
  s.jobs.any (fun j => j.prov.any (fun x => x.2 == p))

/-- DEGRADED: a region in service without a healthy spare, and units that are degraded (R339, R392, Table 9-12). -/
def State.pageDegraded (s : State) (n : Nat) : Bool :=
  let i := pageInstance n
  match s.pageType n with
  | 0xA => !s.pageFenced n && (s.isDegraded 2 i || !(s.healthyIn i).any (fun p => (s.hostedNow p).isEmpty))
  | 0xB => s.isDegraded 1 i
  | 0xC => !s.pageFenced n && s.isDegraded 5 i
  | 9 => s.units.degraded.any (fun k => decide (unitPage (k / 4096) (k % 4096) = n))
  | _ => false

/-- HEALTH: the first value of Table 16-3 that applies. -/
def State.health (s : State) (n : Nat) : Nat :=
  let i := pageInstance n
  let core := decide (s.pageType n = 0xB)
  if n ≤ 6 then 0xF
  else if s.pageFenced n then
    (if core && !s.units.fenced.contains (unitKey 1 i) && !s.units.fenced.contains (unitKey 2 (i / 18)) then 8 else 9)
  else if core && s.underAssay i then 1
  else if s.pageSuspect n then 3
  else if core && s.provisional i then 2
  else if core && decide (1 < (s.hostedNow i).length) then 4
  else if s.pageDegraded n then 5
  else 0

/-- BUSY: the unit takes part in the step run in progress (log 37). -/
def State.pageBusy (s : State) (n : Nat) : Bool :=
  let i := pageInstance n
  match s.activeRun with
  | none => false
  | some r =>
    match s.pageType n with
    | 0xB => r.hosts.contains i
    | 0xA => r.hosts.any (fun p => p / 18 == i)
    | 9 => r.hosts.any (fun p => decide (p < 576) && p / 144 == i)
    | 0xC => s.hbmMap.contains i && !r.hosts.isEmpty
    | 8 => (s.port i).tags.any (fun t => match t.use_ with | .contrib _ _ => true | .csgn _ => true | _ => false)
    | _ => false

/-- PAGE_STATUS. -/
def State.pageStatus (s : State) (n : Nat) : Nat :=
  s.health n * 16 + b2n (s.pageBusy n) * 8 + b2n (s.pageDegraded n) * 4 + b2n (s.pageFenced n) * 2 + 1

/-! ### The common header (Tables 16-2 and 13-12) -/

/-- A monitor's snapshot; before the first one since a clear it reads 0 (R398). -/
def Mon.shown (m : Mon) : MonCap := m.snap.getD MonCap.zero

/-- The monitor window's registers. -/
def Mon.reg (m : Mon) (o : Nat) : Nat :=
  match o with
  | 0x20 => m.base.toNat * 65536 + m.quantity.toNat
  | 0x24 => b2n m.run * 2 ^ 30
  | 0x28 => wrap m.shown.min 32
  | 0x2C => wrap m.shown.max 32
  | 0x30 => m.shown.count % 2 ^ 32
  | 0x34 => m.shown.count / 2 ^ 32
  | 0x38 => m.bin.toNat
  | 0x3C => nthD 0 m.shown.bins m.bin.toNat
  | _ => 0

/-- Registers at 0x000 to 0x0FF of an assigned page. -/
def State.headReg (s : State) (n o : Nat) : Nat :=
  let p := s.page n
  let t := s.pageType n
  match o with
  | 0x00 => t * 2 ^ 24 + 0x10000 + pageInstance n
  | 0x04 => pageCap t
  | 0x08 => s.pageStatus n
  | 0x0C => if bit (pageCap t) 2 then b2n p.enable else 1
  | 0x10 => p.evtStatus.toNat
  | 0x14 => p.evtEnable.toNat
  | 0x18 => p.evtForce.toNat
  | 0x1C => p.evtCount.toNat
  | _ => p.mon.reg o

/-! ### Device-level pages -/

/-- DEV_START_STATUS (Table 14-2). -/
def StartUp.status (u : StartUp) : Nat :=
  u.phase % 16 * 2 ^ 28 + u.failOrder % 16 * 2 ^ 24 + b2n u.slot * 2 ^ 23 + b2n u.trial * 2 ^ 22
    + b2n u.fallback * 2 ^ 21 + b2n u.identityOk * 2 ^ 20 + b2n u.strapErr * 2 ^ 19 + b2n u.teller * 2 ^ 18

/-- DEV_REPRO_STATUS (Table 12-8). -/
def State.repro (s : State) : Nat :=
  b2n s.dev.proofRefused * 2 ^ 31
    + b2n (match s.activeRun with
        | some r => r.timingLock && !r.lockBroken
        | none => if s.runs.isEmpty then s.dev.timingLock else s.runs.all (fun r => r.timingLock && !r.lockBroken)) * 2 ^ 30
    + b2n s.dev.classChanged * 2 ^ 29 + s.dev.lockBroken.toNat

/-- DEV_LMAP. -/
def State.lmapReg (s : State) : Nat :=
  let p := s.hostNow s.dev.lmapSel.toNat
  if p < 576 then 2 ^ 31 + p else 0

/-- The four forwarding entries at FWD_INDEX (R458). -/
def State.fwdWord (s : State) : Nat :=
  leNat ((List.range 4).map (fun i => lookD 0 (4 * s.dev.fwdIndex.toNat + i) s.dev.fwd))

/-- REC_PIECE, REC_PTR and REC_STATUS: they act only while PHASE is 0xE (R458). -/
def State.recReg (s : State) (o : Nat) : Nat :=
  if s.su.phase ≠ 0xE then 0
  else match o with
    | 0x160 => s.su.rcv.piece.toNat
    | 0x168 => s.su.rcv.ptr.toNat
    | 0x170 => s.su.rcv.status * 2 ^ 28 + s.su.rcv.pieces.length % 2 ^ 13
    | _ => 0

/-- The device-control page (Table 16-6). -/
def State.devReg (s : State) (o : Nat) : Nat :=
  match o with
  | 0x100 => 0x0512A001
  | 0x104 => s.deviceId
  | 0x108 => s.serial % 2 ^ 32
  | 0x10C => s.serial / 2 ^ 32
  | 0x110 => b2n s.su.halted * 128 + b2n s.dev.timingLock * 2 + b2n s.dev.proofEn
  | 0x114 => s.su.status
  | 0x118 => s.startNo.toNat
  | 0x11C => s.timingClass.toNat
  | 0x120 => s.repro
  | 0x128 => s.time.toNat % 2 ^ 32
  | 0x12C => s.time.toNat / 2 ^ 32
  | 0x130 => s.evtSummary.toNat
  | 0x134 => s.dev.evtIrq.toNat
  | 0x140 => s.dev.lmapSel.toNat
  | 0x144 => s.lmapReg
  | 0x150 => s.dev.fwdIndex.toNat * 4
  | 0x154 => s.fwdWord
  | _ => s.recReg o

/-- The power page (Table 16-8). -/
def State.powerReg (s : State) (o : Nat) : Nat :=
  match o with
  | 0x100 => s.mod.inMv
  | 0x104 => s.mod.inW
  | 0x108 => s.alertCause.toNat
  | 0x10C => s.mod.powerCap
  | 0x110 => b2n s.mod.flashGate + 2 * b2n s.mod.sagCap + 4 * b2n s.held + 8 * b2n s.belowPin
  | 0x114 => s.flash.queued
  | 0x118 => s.mod.undercut.toNat
  | 0x11C => s.mod.coolIn.toNat * 65536 + s.mod.coolOut.toNat
  | _ => 0

/-- The bursar page (R461). -/
def State.bursarReg (s : State) (o : Nat) : Nat :=
  match o with
  | 0x100 => s.running.head.svn
  | 0x104 => s.running.head.ckptVer % 256 * 256 + b2n s.su.trial * 2 + b2n s.su.slot
  | 0x108 => min s.su.diverged.length 65535 * 65536
      + min (countIf (fun t : W64 => decide ((s.time - t).toNat < 3600000000000)) s.su.diverged) 255
  | 0x110 => s.su.win.sel.toNat
  | 0x114 => s.flash.ageNext
  | 0x118 => s.su.mLog.length
  | _ => if 0x140 ≤ o ∧ o < 0x180 then (nthD 0 s.su.win.data ((o - 0x140) / 4)).toNat else 0

/-- HEAD and TAIL of a ring, 0 before it exists. -/
def State.ringHead (s : State) (n : Nat) : Nat := match s.ring n with | some r => r.head.toNat | none => 0
def State.ringTail (s : State) (n : Nat) : Nat := match s.ring n with | some r => r.tail.toNat | none => 0

/-- Word `j` of 32 bits of the entry at a device ring's HEAD; 0 when the ring is empty. -/
def State.headWord (s : State) (n j : Nat) : Nat :=
  match s.ring n with
  | some r =>
    if r.isEmpty then 0
    else bits (nthD 0 (lookD [] (r.head.toNat % r.size) r.entries) (j / 2)).toNat (32 * (j % 2) + 31) (32 * (j % 2))
  | none => 0

/-- The ledger page (Table 16-9). -/
def State.ledgerReg (s : State) (o : Nat) : Nat :=
  match o with
  | 0x100 => s.ldg.dbRing.toNat
  | 0x108 => s.ldg.discard.toNat
  | 0x110 => s.ringHead 2
  | 0x114 => s.ringTail 2
  | 0x118 => s.ldg.errLost.toNat % 2 ^ 32
  | 0x11C => s.ldg.errLost.toNat / 2 ^ 32
  | 0x124 => s.ldg.errIrq.toNat
  | 0x244 => s.ringHead 0
  | 0x248 => s.ringTail 0
  | 0x250 => s.ringHead 1
  | 0x254 => s.ringTail 1
  | 0x25C => s.ldg.cplIrq.toNat
  | _ =>
    if 0x140 ≤ o ∧ o < 0x180 then s.headWord 2 ((o - 0x140) / 4)
    else if 0x280 ≤ o ∧ o < 0x2C0 then s.headWord 1 ((o - 0x280) / 4)
    else 0

/-- The assay page (Table 16-11). -/
def State.assayReg (s : State) (o : Nat) : Nat :=
  match o with
  | 0x100 => b2n s.asy.rotEn * 2 ^ 31 + s.asy.periodH
  | 0x104 => s.asy.round % 65536 * 65536 + s.asy.skipped.toNat
  | _ =>
    if 0x120 ≤ o ∧ o < 0x138 then (nthD 0 s.asy.arrLimit ((o - 0x120) / 4)).toNat
    else if 0x140 ≤ o ∧ o < 0x158 then min (s.arrears ((o - 0x140) / 4)) (2 ^ 32 - 1)
    else 0

/-- A folio table entry; entry 0 names the teller itself (Table 16-12). -/
def State.folioReg (s : State) (p : Nat) : Nat :=
  if p = 0 then 2 ^ 31 + s.deviceId
  else
    let e := lookD FolioEnt.reset p s.tel.folio
    b2n e.valid * 2 ^ 31 + b2n e.claimed * 2 ^ 30 + b2n e.refused * 2 ^ 29 + e.id.toNat

/-- A host window's register. -/
def State.winReg (s : State) (w r : Nat) : Nat :=
  let x := lookD HostWin.reset w s.tel.wins
  match r with
  | 0 => x.base.toNat % 2 ^ 32
  | 1 => x.base.toNat / 2 ^ 32
  | 2 => x.limit.toNat % 2 ^ 32
  | 3 => x.limit.toNat / 2 ^ 32
  | 4 => b2n x.we * 2 + b2n x.re
  | _ => 0

/-- The teller page (R464). -/
def State.tellerReg (s : State) (o : Nat) : Nat :=
  if 0x100 ≤ o ∧ o < 0x140 then s.folioReg ((o - 0x100) / 4)
  else if o = 0x140 then b2n s.tel.linkUp * 2 ^ 31 + s.tel.width % 32 * 16 + s.tel.gen % 16
  else if o = 0x144 then s.tel.relayTo.toNat
  else if 0x400 ≤ o ∧ o < 0xC00 then s.winReg ((o - 0x400) / 32) ((o - 0x400) % 32 / 4)
  else 0

/-! ### Unit pages -/

/-- PORT_STATE's code (Table 16-13). -/
def PortState.code : PortState → Nat
  | .down => 0
  | .training => 1
  | .auth => 2
  | .admitted => 3
  | .authFail => 4
  | .quarantined => 5
  | .host => 6

/-- Events that a quarantine counter holds in its 1 s window (R315). -/
def Port.qcount (q : Port) (now : W64) (k : Nat) : Nat :=
  countIf (fun e : Nat × W64 => e.1 == k && decide ((now - e.2).toNat < 1000000000)) q.qev

/-- The port page (Table 16-13); timers, limits and counters of a port in HOST read 0. -/
def State.portReg (s : State) (p o : Nat) : Nat :=
  let q := s.port p
  match o with
  | 0x100 => q.partner.toNat * 65536 + q.lanes.toNat * 256 + q.width * 16 + b2n q.enc * 8 + q.state.code
  | 0x104 => b2n q.encReq * 2
  | 0x160 => q.qcause
  | 0x164 => q.fec.toNat % 2 ^ 32
  | 0x168 => q.fec.toNat / 2 ^ 32
  | _ =>
    if q.state = .host then 0
    else match o with
      | 0x110 => q.tmrAck
      | 0x114 => q.tmrSilence
      | 0x118 => q.tmrCredit
      | 0x11C => q.tmrTxn
      | _ =>
        if 0x120 ≤ o ∧ o < 0x13C then nthD 0 q.qlim ((o - 0x120) / 4)
        else if 0x140 ≤ o ∧ o < 0x15C then q.qcount s.time ((o - 0x140) / 4)
        else 0

/-- Base dies that an edge joins (R453). -/
def edgeEnds (e : Nat) : Nat × Nat := match e with | 0 => (0, 1) | 1 => (2, 3) | 2 => (0, 2) | _ => (1, 3)

/-- BASE_EDGE of a die: its edges whose spare is in use, and those that are degraded. -/
def State.edgeReg (s : State) (b : Nat) : Nat :=
  (List.range 4).foldl (fun a e =>
    let x := s.die (edgeDie e)
    if (edgeEnds e).1 = b ∨ (edgeEnds e).2 = b then
      a + b2n (x.edgeSpare.getLsbD e) * 2 ^ e + b2n (x.edgeDeg.getLsbD e) * 2 ^ (4 + e)
    else a) 0

/-- BASE_VAULT: the spare's use, and the bank groups in service, bit 16 the spare (log 37). -/
def BaseDie.vaultReg (d : BaseDie) : Nat :=
  let live (g : Nat) : Bool := !d.groupsOut.contains g && decide (d.spareFor ≠ some g)
  b2n d.spareFor.isSome * 2 ^ 31 + d.spareFor.getD 0 % 16 * 2 ^ 27
    + b2n (d.spareFor.isSome && !d.groupsOut.contains 16) * 65536
    + (List.range 16).foldl (fun a g => a + b2n (live g) * 2 ^ g) 0

/-- The base-die page (Table 16-14). -/
def State.baseReg (s : State) (b o : Nat) : Nat :=
  match o with
  | 0x100 => (s.die b).vaultReg
  | 0x104 => (List.range 4).foldl (fun a i => a + b2n (!s.isFenced 6 (4 * b + i)) * 2 ^ i) 0
  | 0x108 => (s.die b).meshSpare.toNat
  | 0x10C => (s.die b).meshDeg.toNat
  | 0x110 => s.edgeReg b
  | 0x118 => (s.fabric b).beats.toNat % 2 ^ 32
  | 0x11C => (s.fabric b).beats.toNat / 2 ^ 32
  | 0x120 => (s.dieRoom b - sumBy (fun j => j.dieUse b) s.jobs) / 4096
  | _ => 0

/-- The HBM page (Table 16-15). -/
def State.hbmReg (s : State) (c o : Nat) : Nat :=
  let x := s.chan c
  match o with
  | 0x100 => (lookD 0 (c / 64) s.mod.hbmTemp).toNat * 65536
      + b2n (s.mod.doubled.contains (c / 64) || s.lockNow) * 4 + b2n (s.isFenced 5 c) * 2 + b2n x.trained
  | 0x104 => x.corr.toNat % 2 ^ 32
  | 0x108 => x.corr.toNat / 2 ^ 32
  | 0x10C => x.hour.foldl (fun n e => if (s.time - e.1).toNat < 3600000000000 then n + e.2 else n) 0
  | 0x110 => x.uncorr.toNat
  | 0x114 => countIf (fun e : Nat × W64 => decide ((s.time - e.2).toNat < 86400000000000)) x.rows
  | 0x118 => x.passes.toNat * 65536 + x.scrubbed * 65536 / chanBlocks
  | _ => 0

/-- BINDING and cap of REG_CAP. -/
def State.capReg (s : State) (r : Nat) : Nat := (s.regCap r).1 * 65536 + (s.regCap r).2

/-- The region page (Table 16-16). -/
def State.regionReg (s : State) (r o : Nat) : Nat :=
  let x := s.region r
  match o with
  | 0x100 =>
    let h := if s.isFenced 2 r then [] else s.healthyIn r
    countIf (fun p : Nat => (s.hostedNow p).isEmpty) h * 2 ^ 24 + h.foldl (fun a p => a + 2 ^ (p - 18 * r)) 0
  | 0x104 => x.volt
  | 0x108 => x.target
  | 0x10C => s.capReg r
  | 0x110 => x.guardHi.toNat * 65536 + x.guardLo.toNat
  | 0x114 => x.v0 * 65536 + x.vmax
  | 0x118 => x.t0
  | 0x120 => x.beats.toNat % 2 ^ 32
  | 0x124 => x.beats.toNat / 2 ^ 32
  | 0x128 => x.temp.toNat
  | _ => 0

/-- FRM_DIE_STATUS (Table 6-15). -/
def CoreHw.dieStatus (c : CoreHw) : Nat :=
  b2n c.active * 2 ^ 31 + b2n c.pending * 2 ^ 30 + b2n c.scheduled * 2 ^ 29 + c.switches.toNat

/-- The core page (Table 16-17). -/
def State.coreReg (s : State) (p o : Nat) : Nat :=
  let c := s.core p
  match o with
  | 0x100 =>
    let ls := s.hostedNow p
    min ls.length 15 * 2 ^ 28 + ls.head?.getD 0x3FF
  | 0x110 => c.dieStatus
  | 0x114 => c.bank0.tag.toNat
  | 0x118 => c.bank1.tag.toNat
  | 0x120 => c.win.sel.toNat
  | 0x13C => b2n c.win.tag
  | 0x160 => c.lag
  | _ => if 0x140 ≤ o ∧ o < 0x160 then (nthD 0 c.win.data ((o - 0x140) / 4)).toNat else 0

/-! ### The window -/

/-- The present value of a register, without what reading it does. -/
def State.regValue (s : State) (n o : Nat) : Nat :=
  if o < 0x100 then s.headReg n o
  else match s.pageType n with
    | 1 => s.devReg o
    | 2 => s.powerReg o
    | 3 => s.bursarReg o
    | 4 => s.ledgerReg o
    | 5 => s.assayReg o
    | 6 => if o = 0x104 then s.asy.snaps.toNat else 0
    | 7 => s.tellerReg o
    | 8 => s.portReg (pageInstance n) o
    | 9 => s.baseReg (pageInstance n) o
    | 0xA => s.regionReg (pageInstance n) o
    | 0xB => s.coreReg (pageInstance n) o
    | 0xC => s.hbmReg (pageInstance n) o
    | _ => 0

/-- Offset of LO in a pair of the host windows, and whether the register is LO: the only pairs that software may
write (R11, R464; log 38). -/
def winPair (o : Nat) : Option (Nat × Bool) :=
  if 0x400 ≤ o ∧ o < 0xC00 ∧ o % 32 < 16 then some (o / 8 * 8, decide (o % 8 = 0)) else none

/-- Offset of LO in the 64-bit pair that a register belongs to, and whether the register is LO (R11; log 38). -/
def pairOf (type o : Nat) : Option (Nat × Bool) :=
  let at_ (lo : Nat) : Option (Nat × Bool) := if o = lo then some (lo, true) else if o = lo + 4 then some (lo, false) else none
  match type with
  | 1 => at_ 0x128
  | 4 => at_ 0x118
  | 7 => winPair o
  | 8 => at_ 0x164
  | 9 => at_ 0x118
  | 0xA => at_ 0x120
  | 0xC => at_ 0x104
  | _ => none

/-- The holding registers of one reader. -/
def State.latches (s : State) (side : Bool) : List (Nat × W32) :=
  if side then s.dev.held.sideband else s.dev.held.host

/-- Latch the HI half of the pair whose LO lies at a window offset. -/
def State.latch (s : State) (side : Bool) (lo : Nat) (hi : W32) : State :=
  let h := s.dev.held
  { s with dev := { s.dev with held :=
    if side then { h with sideband := put lo hi h.sideband } else { h with host := put lo hi h.host } } }

/-- A read of EVT_COUNT clears it (R451). -/
def State.countRead (s : State) (n : Nat) : State := s.setPage n { s.page n with evtCount := 0 }

/-- A monitor window as a read of MON_COUNT_LO leaves it: a new snapshot, unless SNAP's waits to be read (R463). -/
def Mon.take (m : Mon) : Mon := { m with snap := some (m.kept.getD m.cap), kept := none }

/-- A read of MON_COUNT_LO takes a snapshot (R398). -/
def State.monTake (s : State) (n : Nat) : State := s.setPage n { s.page n with mon := (s.page n).mon.take }

/-- FWD_INDEX after an access to FWD_DATA (R458). -/
def State.fwdNext (s : State) : State := { s with dev := { s.dev with fwdIndex := s.dev.fwdIndex + 1 } }

/-- What a read of a register does beside answering (R11, R398, R451, R458, R460, R464). -/
def State.afterRead (s : State) (side : Bool) (n o : Nat) : State :=
  if o = 0x1C then s.countRead n
  else if o = 0x30 then s.monTake n
  else match pairOf (s.pageType n) o with
    | some (_, true) => s.latch side (4096 * n + o) (BitVec.ofNat 32 (s.regValue n (o + 4)))
    | some (_, false) => s
    | none =>
      if n = 0 ∧ o = 0x154 then s.fwdNext
      else if n = 3 ∧ o = 0x108 then { s with ldg := { s.ldg with discard := 0 } }
      else if n = 6 ∧ o = 0x144 then { s with tel := { s.tel with relayTo := 0 } }
      else s

/-- What a read of a register answers: HI answers what LO latched; MON_COUNT_LO its snapshot. -/
def State.readValue (s : State) (side : Bool) (n o : Nat) : W32 :=
  if o = 0x30 then BitVec.ofNat 32 ((s.monTake n).regValue n o)
  else match pairOf (s.pageType n) o with
    | some (lo, false) => lookD 0 (4096 * n + lo) (s.latches side)
    | _ => BitVec.ofNat 32 (s.regValue n o)

/-- A read of the register window, by the host or the sideband: its answer and what it does (R10, R13). -/
def State.readReg (s : State) (side : Bool) (off : W32) : W32 × State :=
  let n := off.toNat / 4096
  let o := off.toNat % 4096
  if s.pageOpen side n then (s.readValue side n o, s.afterRead side n o) else (0, s)

/-- A read by the host: what it answers goes out. -/
def State.hostRead (s : State) (off : W32) : State :=
  let r := s.readReg false off
  { r.2 with out := { r.2.out with lastRead := r.1 } }

/-- An access that R10 allows: naturally aligned, inside the window. -/
def regAligned (off : W32) : Bool := decide (off.toNat % 4 = 0) && decide (off.toNat < 2 ^ 26)

/-! ### The read rows -/

/-- COUNTER_LO_READ (R11). -/
def execCounterLoRead (off : W32) (s : State) : Host.Outcome State Fault Refusal :=
  if regAligned off then .next (s.hostRead off) else .fault (.misaligned off)

/-- EVT_COUNT (R451). -/
def execEvtCount (page : Nat) (s : State) : Host.Outcome State Fault Refusal :=
  .next (s.hostRead (BitVec.ofNat 32 (4096 * page + 0x1C)))

/-- MON_COUNT_LO (R398). -/
def execMonCountLo (page : Nat) (s : State) : Host.Outcome State Fault Refusal :=
  .next (s.hostRead (BitVec.ofNat 32 (4096 * page + 0x30)))

/-- LDG_DB_DISCARD (R460). -/
def execLdgDbDiscard (s : State) : Host.Outcome State Fault Refusal := .next (s.hostRead 0x3108)

/-- TEL_RELAY_TO (R464). -/
def execTelRelayTo (s : State) : Host.Outcome State Fault Refusal := .next (s.hostRead 0x6144)

end Sys2Proof.Machine
end

