-- ==== Sys2Proof/Machine/Windows.lean ====
section
/-! DEFINITION. The read windows of the bursar page and of the core pages (R461, R470; Tables 16-10 and 16-18). -/

namespace Sys2Proof.Machine

/-- `n` 32-bit words of a number, the low one first. -/
def split32 : Nat → Nat → List W32
  | 0, _ => []
  | n + 1, v => BitVec.ofNat 32 v :: split32 n (v / 2 ^ 32)

/-- Words of a window, 0 past those that its table names. -/
def winWords (n : Nat) (ws : List W32) : List W32 := (ws ++ List.replicate n 0).take n

/-! ### The bursar window -/

/-- The item that a selector names (Table 16-10). -/
def State.bursarItem (s : State) (sel : Nat) : List W32 :=
  let i := bits sel 27 0
  match bits sel 31 28 with
  | 0 => (match look i s.flash.age with
      | some e => split32 8 e.toNat
      | none => [])
  | 1 => (match s.su.mLog[i]? with
      | some e => [BitVec.ofNat 32 e.kind.toNat] ++ split32 12 e.item.toNat ++ split32 2 e.time.toNat
      | none => [])
  | 2 => if i = 0 then split32 12 s.su.mBoot.toNat else []
  | 3 => if i = 0 then split32 12 s.su.mRun.toNat ++ [BitVec.ofNat 32 s.su.mCount] else []
  | _ => []

/-- A write of BUR_WIN_SEL: the item is copied at one instant. A reserved KIND leaves the field as it was (R12) and
copies 0. -/
def State.burSelect (s : State) (data : W32) : State :=
  let kind := if 3 < bits data.toNat 31 28 then bits s.su.win.sel.toNat 31 28 else bits data.toNat 31 28
  let sel : W32 := BitVec.ofNat 32 (kind * 2 ^ 28 + bits data.toNat 27 0)
  { s with su := { s.su with win := ⟨sel, winWords 16 (s.bursarItem data.toNat), false⟩ } }

/-! ### The core window -/

/-- What a core shows: of the run in progress there, or of the last run that ended; a fenced core its reset state (R84, R470). -/
def State.shownSlot (s : State) (p : Nat) : Slot :=
  if s.isFenced 1 p then Slot.fresh 0
  else match s.runs.findSome? (fun r => if decide (r.order < 6) && r.hosts.contains p then r.coreSlot p else none) with
    | some x => x
    | none => lookD (Slot.fresh 0) p s.lastSlots

/-- Lane status and pass counter of a lane of a tally entry; SLOT is 0 for an exact entry. -/
def laneItem (e : TallyEntry) (sl : Nat) : Option (List W32) :=
  if !e.fp32 && decide (sl ≠ 0) then none
  else
    let l := nthD {} e.lanes sl
    some (split32 2 l.status.toNat ++ [BitVec.ofNat 32 l.pass])

/-- The item that a selector names, with its mode tag; none for a reserved encoding (Table 16-18). -/
def coreItem (x : Slot) (sel : Nat) : Option (List W32 × Bool) :=
  let i := bits sel 13 8
  let e := tallyEntry x i (bits sel 23 16)
  let st := nthD StatSet.zero x.stat i
  let sm := nthD SmaxRow.zero x.smax i
  match bits sel 31 28 with
  | 0 => (laneItem e (bits sel 2 0)).map (fun ws => (ws, false))
  | 1 => some (split32 8 e.word.toNat, e.fp32)
  | 2 => if i < 16 then some (split32 4 (nthD 0 x.drain i).toNat, false) else none
  | 3 => some (split32 2 st.status.toNat ++ split32 2 st.count.toNat ++ split32 2 st.maxabs.toNat, false)
  | 4 => some (split32 8 st.sumsq.toNat, false)
  | 5 => if i < 8 then some (split32 4 (nthD 0 x.hall i).toNat, false) else none
  | 6 => some (split32 2 sm.m.toNat ++ split32 2 sm.s.toNat ++ [sm.u, BitVec.ofNat 32 (b2n sm.bad)], false)
  | _ => none

/-- A write of CORE_WIN_SEL: the item is copied at one instant; a reserved encoding is discarded. -/
def State.coreSelect (s : State) (p : Nat) (data : W32) : State :=
  match coreItem (s.shownSlot p) data.toNat with
  | some (ws, tag) => s.setCore p { s.core p with win := ⟨data &&& 0xF0FF3F07, winWords 8 ws, tag⟩ }
  | none => s

end Sys2Proof.Machine
end

