-- ==== Sys2Proof/Machine/Doorbells.lean ====
section
/-! DEFINITION. Doorbells, the error window, the administrative rings and the producing end of a message stream
(R245 to R247, R317, R351, R460; logs 14, 39). -/

namespace Sys2Proof.Machine

/-! ### Message streams, the producer (R317) -/

/-- The words of entry `k` of a ring, as the device reads them to send them: from the job's HBM, or from host
memory, whose bytes no command names: free values, whose JOB and SEQ the device then checks (R256; log 14). -/
def State.streamWords (s : State) (r : Ring) (k : W32) : List W64 :=
  if r.host then
    (List.range 8).map (fun i => BitVec.ofNat 64 (Config.freeNat (s.freeCtr * 16384 + i)))
  else match s.job r.job with
    | some j => (wordsOf (j.hbm.read (r.addr k) 64)).map (BitVec.ofNat 64)
    | none => []

/-- Entry `k` of a ring lies in a poisoned block. -/
def State.entryPoison (s : State) (r : Ring) (k : W32) : Bool :=
  !r.host && (match s.job r.job with
    | some j => j.hbm.isPoisoned (r.addr k / 64)
    | none => false)

/-- An entry's header carries the JOB of its ring and its own index: all that the device checks (R256). -/
def entryOk (ws : List W64) (r : Ring) (k : W32) : Bool :=
  let w := (nthD 0 ws 0).toNat
  decide (bits w 31 0 = k.toNat) && decide (bits w 47 32 = r.job)

/-- Send entry `k` of a ring as one MSG to PEER_RING at PEER_DEV. A poisoned entry ends the job (R288, R289); one
with another SEQ, or another JOB, stops the ring (R246; log 39). -/
def State.sendEntry (s : State) (n : Nat) (r : Ring) (k : W32) : State :=
  let ws := s.streamWords r k
  if s.entryPoison r k then s.poisonJob r.job (r.addr k)
  else if entryOk ws r k then
    let s := if r.host then s.hostFetch (r.addr k) 64 else s
    { s with freeCtr := s.freeCtr + 1 }.sendReq { s.txn 7 r.peerDev.toNat r.job with
      addr := r.peerRing, len := 4, data := entryBytes ws } (.msg n k)
  else s.stale n r

/-- Send the entries from `k`, `m` of them, in SEQ order, while the ring is consumed. -/
def State.sendEntries (s : State) (n : Nat) (r : Ring) (k : W32) : Nat → State
  | 0 => s
  | m + 1 =>
    let s := s.sendEntry n r k
    match s.ring n with
    | some q => if q.stopped then s else State.sendEntries s n r (k + 1) m
    | none => s

/-- Entries of a stream that are not delivered and for which no request is outstanding: the first of them. -/
def State.undelivered (s : State) (n : Nat) (r : Ring) : Option W32 :=
  let out := s.ports.flatMap (fun p => p.2.tags.filterMap (fun t => match t.use_ with
    | .msg m k => if m = n then some k else none
    | _ => none) ++ p.2.tagWait.filterMap (fun t => match t.2 with
    | .msg m k => if m = n then some k else none
    | _ => none))
  ((List.range r.used).map (fun i => r.head + BitVec.ofNat 32 i)).find? (fun k => !out.contains k)

/-- MSG_RESEND (R317): the producer sends again from the first entry that was not accepted. -/
def execMsgResend (ring : Nat) (s : State) : Host.Outcome State Fault Refusal :=
  match s.ring ring with
  | none => .next s
  | some r =>
    if r.kind ≠ 2 ∨ r.stopped = true ∨ s.ready = false then .next s
    else match s.undelivered ring r with
      | some k => .next (s.sendEntries ring r k (r.tail - k).toNat)
      | none => .next s

/-! ### Doorbells (R246, R460) -/

/-- A doorbell that is discarded: counted, with bit 4 of the ledger page's event status. -/
def State.discardDoorbell (s : State) : State :=
  let s := { s with ldg := { s.ldg with discard := BitVec.ofNat 32 (satAdd s.ldg.discard.toNat 1 (2 ^ 32 - 1)) } }
  let p := s.page 3
  (s.setPage 3 { p with evtStatus := p.evtStatus ||| 16 }).evtEdge

/-- A TAIL doorbell on an allocated ring: an overrun is discarded and reported; a stopped ring resumes; a message
stream's new entries go out. -/
def State.setTail (s : State) (n : Nat) (r : Ring) (v : W32) : State :=
  if r.size < (v - r.head).toNat then s.discardDoorbell.raise { code := 0x11, job := r.job }
  else
    let r' := { r with tail := v, stopped := false }
    let s := s.setRing n r'
    if r.kind = 2 then s.sendEntries n r' r.tail (v - r.tail).toNat else s

/-- A HEAD doorbell: never beyond TAIL (log 39); completions that wait take the room. -/
def State.setHead (s : State) (n : Nat) (r : Ring) (v : W32) : State :=
  if r.used < (v - r.head).toNat then s.discardDoorbell
  else (s.setRing n { r with head := v, stopped := false }).drainCpl

/-- A write of LDG_DB_VALUE. Rings 0 to 2 take no doorbell (R247). -/
def State.doorbell (s : State) (v : W32) : State :=
  let n := bits s.ldg.dbRing.toNat 19 0
  match (if n ≤ 2 then none else s.ring n) with
  | none => s.discardDoorbell
  | some r => if s.ldg.dbRing.getLsbD 31 then s.setHead n r v else s.setTail n r v

/-! ### The error window and the administrative rings (R247, R351) -/

/-- HEAD of a device ring after a pop of `n`. -/
def Ring.pop (r : Ring) (n : Nat) : Ring := { r with head := r.head + BitVec.ofNat 32 (min n r.used) }

/-- A write of ERR_POP. -/
def State.errPop (s : State) (v : W32) : State :=
  match s.ring 2 with
  | some r => s.setRing 2 (r.pop (bits v.toNat 16 0))
  | none => s

/-- A write of ADM_CPL_POP. -/
def State.cplPop (s : State) (v : W32) : State :=
  match s.ring 1 with
  | some r => (s.setRing 1 (r.pop (bits v.toNat 16 0))).drainCpl
  | none => s

/-- The eight words of the staged command. -/
def stagedWords (cmd : List W32) : List W64 :=
  (List.range 8).map (fun i =>
    BitVec.ofNat 64 ((nthD 0 cmd (2 * i)).toNat + (nthD 0 cmd (2 * i + 1)).toNat * 2 ^ 32))

/-- A write of ADM_CMD_PUSH: the staged entry goes to ring 0 with its SEQ; a full ring discards it (R247). -/
def State.cmdPush (s : State) (v : W32) : State :=
  if v.getLsbD 0 then
    match s.ring 0 with
    | some r =>
      if r.full then
        { s with ldg := { s.ldg with discard := BitVec.ofNat 32 (satAdd s.ldg.discard.toNat 1 (2 ^ 32 - 1)) } }.raise
          { code := 0x11 }
      else s.produce 0 { r with stopped := false } (stagedWords s.ldg.cmd)
    | none => s
  else s

/-- A write of an interrupt register keeps EN and VECTOR. -/
def irqBits (v : W32) : W32 := v &&& 0x800007FF

/-- A write of ERR_IRQ: ring 2's IRQ_EN and MSIX follow at once (R351). -/
def State.setErrIrq (s : State) (v : W32) : State :=
  let s := { s with ldg := { s.ldg with errIrq := irqBits v } }
  match s.ring 2 with
  | some r => s.setRing 2 { r with irqEn := v.getLsbD 31, msix := v.setWidth 11 }
  | none => s

end Sys2Proof.Machine
end

