-- ==== Sys2Proof/Machine/RegisterWrites.lean ====
section
/-! DEFINITION. Writes of the register window: access rules, PAGE_CTRL, and every writable register (R10 to R14,
R397, R449 to R470; logs 33, 37 to 40). -/

namespace Sys2Proof.Machine

/-! ### Access (R450) -/

/-- Registers that the page of a fenced, withdrawn or retired unit still accepts. -/
def fencedTakes (o : Nat) : Bool := [0x0C, 0x10, 0x14, 0x20, 0x24, 0x38].contains o

/-- A write reaches a register of a page. -/
def State.takesWrite (s : State) (side : Bool) (n o : Nat) : Bool :=
  s.pageOpen side n && (!s.pageFenced n || fencedTakes o)

/-- A write that reaches its register has its effect; another is discarded. -/
def State.regWrite (s : State) (side : Bool) (n o : Nat) (k : State → State) : State :=
  if s.takesWrite side n o then k s else s

/-! ### PAGE_CTRL (Table 16-5) -/

/-- ENABLE of a port page: 0 holds it in DOWN, 1 resumes training; a port in HOST ignores it. -/
def State.setEnable (s : State) (p : Nat) (on : Bool) : State :=
  if !s.jexlet p then s
  else
    let s := s.setPage (0x10 + p) { s.page (0x10 + p) with enable := on }
    if on || decide ((s.port p).state = .quarantined) then s else s.portDown p

/-- Another healthy core, or region, than the one named. -/
def State.otherCore (s : State) (p : Nat) : Bool := (List.range 576).any (fun q => q != p && s.coreHealthy q)
def State.otherRegion (s : State) (r : Nat) : Bool := (List.range 32).any (fun q => q != r && !(s.healthyIn q).isEmpty)

/-- FENCE_REQ by page type. -/
def State.fenceReq (s : State) (n : Nat) : State :=
  let i := pageInstance n
  match s.pageType n with
  | 0xB => if s.isFenced 1 i || !s.otherCore i then s else s.fenceNow 1 i 0
  | 0xA => if s.isFenced 2 i || !s.otherRegion i then s else s.fenceNow 2 i 0
  | 0xC => if s.isFenced 5 i then s else s.permanent 5 i 0
  | 8 => if !s.jexlet i || decide ((s.port i).state = .quarantined) then s else s.portDown i
  | _ => s

/-- A region whose rail restarts at V0; its cores stay fenced. -/
def State.unfenceRegion (s : State) (r : Nat) : State :=
  let k := unitKey 2 r
  let s := { s with units := { s.units with fenced := eraseNat k s.units.fenced } }
  let s := (s.setSummary k { s.summaryOf k with state := 0 }).summaryNow k
  let s := s.pageReset (0x80 + r)
  s.setRegion r { s.region r with volt := (s.region r).v0, rail := true }

/-- UNFENCE_REQ by page type: a fenced core runs the DEMAND sets, unless an assay of it already waits. -/
def State.unfenceReq (s : State) (n : Nat) : State :=
  let i := pageInstance n
  match s.pageType n with
  | 0xB =>
    let ids := s.flash.setIds (·.demand)
    if !s.isFenced 1 i || ids.isEmpty || s.asy.jobs.any (fun j => j.core == i) then s
    else (s.queueAssays [i] ids .unfence false).assaySettle
  | 0xA => if s.isFenced 2 i then s.unfenceRegion i else s
  | _ => s

/-- STAGE_COMMIT: the device group holds the only stage (R14, R449). -/
def State.stageCommit (s : State) (n : Nat) : State := if n ≤ 6 then s.applyStage else s

/-- A write of PAGE_CTRL: ENABLE, then the requests in bit order (log 37). -/
def State.pageCtrl (s : State) (n : Nat) (data : W32) : State :=
  let s := if s.pageType n = 8 then s.setEnable (pageInstance n) (data.getLsbD 0) else s
  let s := if data.getLsbD 1 then s.fenceReq n else s
  let s := if data.getLsbD 2 then s.unfenceReq n else s
  if data.getLsbD 3 then s.stageCommit n else s

/-! ### The common header -/

/-- Bits that EVT_FORCE accepts by page type (R455). -/
def forceMask (type : Nat) : W32 :=
  match type with
  | 8 => 1
  | 9 => 1
  | 0xA => 1
  | 0xB => 1
  | 0xC => 0x1002
  | _ => 0

def State.setForce (s : State) (n : Nat) (data : W32) : State :=
  s.setPage n { s.page n with evtForce := (s.page n).evtForce ||| (data &&& forceMask (s.pageType n)) }

/-- A write of MON_SEL: a selector that the page does not offer keeps QUANTITY; the capture is cleared (R397, R398). -/
def Mon.select (m : Mon) (offered : Nat) (data : W32) : Mon :=
  let q := bits data.toNat 7 0
  { m with base := BitVec.ofNat 8 (bits data.toNat 23 16)
           quantity := if q < offered then BitVec.ofNat 8 q else m.quantity }.clear

/-- Change a page's monitor window. -/
def State.onMon (s : State) (n : Nat) (f : Mon → Mon) : State := s.setPage n { s.page n with mon := f (s.page n).mon }

def State.monSelect (s : State) (n : Nat) (data : W32) : State := s.onMon n (·.select (monQuantities (s.pageType n)) data)

/-- A write of MON_CTL: RUN, and CLEAR. -/
def Mon.control (m : Mon) (data : W32) : Mon :=
  let m := { m with run := data.getLsbD 30 }
  if data.getLsbD 31 then m.clear else m

/-- A write of a register of the common header. -/
def State.writeHead (s : State) (n o : Nat) (data : W32) : State :=
  match o with
  | 0x0C => s.pageCtrl n data
  | 0x10 => (s.setPage n { s.page n with evtStatus := (s.page n).evtStatus &&& ~~~data }).evtEdge
  | 0x14 => (s.setPage n { s.page n with evtEnable := data &&& 0x3FFF }).evtEdge
  | 0x18 => s.setForce n data
  | 0x20 => s.monSelect n data
  | 0x24 => s.onMon n (·.control data)
  | 0x38 => s.onMon n (fun m => { m with bin := data.setWidth 4 })
  | _ => s

/-! ### The device-control page (R457, R458) -/

/-- A write of DEV_CTL stages both ST fields. -/
def State.stageCtl (s : State) (data : W32) : State :=
  { s with dev := { s.dev with stage := some (data.getLsbD 0, data.getLsbD 1) } }

/-- Four forwarding entries, from `k`. -/
def putEntries (k v : Nat) : Nat → List (Nat × Byte) → List (Nat × Byte)
  | 0, l => l
  | m + 1, l => putEntries (k + 1) (v / 256) m (put k (BitVec.ofNat 8 v) l)

/-- A write of FWD_DATA takes effect at once on what is not yet forwarded, and FWD_INDEX advances (R307). -/
def State.fwdWrite (s : State) (data : W32) : State :=
  { s with dev := { s.dev with fwd := putEntries (4 * s.dev.fwdIndex.toNat) data.toNat 4 s.dev.fwd } }.rerouteAll.fwdNext

/-- A recovery register acts only in recovery mode. -/
def State.onRcv (s : State) (f : Recovery → Recovery) : State :=
  if s.su.phase = 0xE then s.setRcv (f s.su.rcv) else s

/-- A write of REC_DATA: word REC_PTR of the piece, then the next one. -/
def Recovery.store (r : Recovery) (data : W32) : Recovery :=
  { r with words := put r.ptr.toNat data r.words, ptr := r.ptr + 1, status := 1 }

/-- PIECE_DONE: the piece becomes piece REC_PIECE of the image (log 33). -/
def Recovery.done (r : Recovery) : Recovery :=
  { r with pieces := put r.piece.toNat r.words r.pieces, words := [], status := 1, waiting := none }

/-- ABORT: every stored piece is discarded. -/
def Recovery.abort (r : Recovery) : Recovery := { r with pieces := [], words := [], status := 0, waiting := none }

/-- A write of REC_CTL: PIECE_DONE, FINISH, ABORT in that order (log 33). -/
def State.recCtl (s : State) (data : W32) (env : StartEnv) : State :=
  let s := if data.getLsbD 0 then s.onRcv (·.done) else s
  let s := if data.getLsbD 1 then s.recFinish env else s
  if data.getLsbD 2 then s.onRcv (·.abort) else s

/-- DEV_REPRO_STATUS: its two W1C bits (Table 12-8). -/
def State.clearRepro (s : State) (data : W32) : State :=
  { s with dev := { s.dev with
    proofRefused := s.dev.proofRefused && !data.getLsbD 31
    classChanged := s.dev.classChanged && !data.getLsbD 29 } }

/-- A write of a register of the device-control page. -/
def State.writeDev (s : State) (o : Nat) (data : W32) (env : StartEnv) : State :=
  match o with
  | 0x110 =>
    let s := s.stageCtl data
    if bits data.toNat 31 16 = 0xA5A5 then s.warmReset env else s
  | 0x120 => s.clearRepro data
  | 0x134 => { s with dev := { s.dev with evtIrq := irqBits data } }
  | 0x140 => { s with dev := { s.dev with lmapSel := data.setWidth 9 } }
  | 0x150 => { s with dev := { s.dev with fwdIndex := BitVec.ofNat 14 (bits data.toNat 15 2) } }
  | 0x154 => s.fwdWrite data
  | 0x160 => s.onRcv (fun r => { r with piece := data.setWidth 13 })
  | 0x164 => s.onRcv (·.store data)
  | 0x168 => s.onRcv (fun r => { r with ptr := data.setWidth 10 })
  | 0x16C => s.recCtl data env
  | _ => s

/-! ### The other device-level pages -/

/-- A write of a register of the ledger page (Table 16-9). -/
def State.writeLedger (s : State) (o : Nat) (data : W32) : State :=
  match o with
  | 0x100 => { s with ldg := { s.ldg with dbRing := data &&& 0x800FFFFF } }
  | 0x104 => s.doorbell data
  | 0x120 => s.errPop data
  | 0x124 => s.setErrIrq data
  | 0x240 => s.cmdPush data
  | 0x258 => s.cplPop data
  | 0x25C => { s with ldg := { s.ldg with cplIrq := irqBits data } }
  | _ =>
    if 0x200 ≤ o ∧ o < 0x240 then
      { s with ldg := { s.ldg with cmd := setNth s.ldg.cmd ((o - 0x200) / 4) data } }
    else s

/-- A limit that ARREARS_LIMIT`i` takes (Table 16-11). -/
def limitOk (i v : Nat) : Bool :=
  decide (v = 0) || (decide (100 ≤ v) && decide (v ≤ 3600000000)) || (decide (i = 3) && decide (v = 2 ^ 32 - 1))

/-- A write of a register of the assay page: one outside a register's range is discarded (R462). -/
def State.writeAssay (s : State) (o : Nat) (data : W32) : State :=
  let h := bits data.toNat 7 0
  if o = 0x100 then
    (if 1 ≤ h ∧ h ≤ 168 then s.setAsy { s.asy with rotEn := data.getLsbD 31, periodH := h } else s)
  else if 0x120 ≤ o ∧ o < 0x138 ∧ limitOk ((o - 0x120) / 4) data.toNat = true then
    s.setAsy { s.asy with arrLimit := setNth s.asy.arrLimit ((o - 0x120) / 4) data }
  else s

/-- Every assigned page. -/
def State.assigned (s : State) : List Nat := (List.range 0xA40).filter (fun n => decide (s.pageType n ≠ 0))

/-- SNAP: every window of the device at one instant; MONG_SNAPS counts it (R463). -/
def State.monSnap (s : State) : State :=
  let snap (p : Page) : Page := { p with mon := { p.mon with kept := some p.mon.cap } }
  let s := { s with pages := s.assigned.map (fun n => (n, snap (s.page n))) }
  s.setAsy { s.asy with snaps := BitVec.ofNat 16 (satAdd s.asy.snaps.toNat 1 65535) }

/-- CLEAR_ALL: as MON_CTL.CLEAR in every page (R463). -/
def State.monClear (s : State) : State :=
  { s with pages := s.pages.map (fun p => (p.1, { p.2 with mon := p.2.mon.clear })) }

/-- A write of MONG_CTL: the snapshot first (R463; log 40). -/
def State.writeMonitor (s : State) (o : Nat) (data : W32) : State :=
  if o = 0x100 then
    let s := if data.getLsbD 0 then s.monSnap else s
    if data.getLsbD 1 then s.monClear else s
  else s

/-! ### The teller page (R326, R464) -/

/-- A write of a folio table entry: entry 0 is RO, and DEVICE_ID keeps while VALID is 1. -/
def State.folioWrite (s : State) (pos : Nat) (data : W32) : State :=
  let e := lookD FolioEnt.reset pos s.tel.folio
  let id : BitVec 16 := data.setWidth 16
  if pos = 0 ∨ (e.valid = true ∧ id ≠ e.id) then s
  else
    let on := data.getLsbD 31
    let s := { s with tel := { s.tel with folio := put pos ⟨on, false, false, id⟩ s.tel.folio } }
    if on then s.sendClaim pos id else s

/-- BASE or LIMIT of a host window takes no write while HW_CTL is not 0. -/
def HostWin.locked (w : HostWin) : Bool := w.re || w.we

/-- A host window with both halves of BASE or LIMIT loaded (R11, R464): bits [11:0] are reserved. -/
def HostWin.load (w : HostWin) (limit : Bool) (hi lo : W32) : HostWin :=
  let v : W64 := BitVec.ofNat 64 (hi.toNat * 2 ^ 32 + lo.toNat / 4096 * 4096)
  if limit then { w with limit := v } else { w with base := v }

/-- A write of LO of a writable pair is held (R11). -/
def State.holdLo (s : State) (o : Nat) (data : W32) : State :=
  if (lookD HostWin.reset ((o - 0x400) / 32) s.tel.wins).locked then s
  else { s with dev := { s.dev with held := { s.dev.held with
    writes := put (0x6000 + o) data s.dev.held.writes } } }

/-- A write of HI loads both halves; with no held LO, LO becomes 0 (R11). -/
def State.loadHi (s : State) (o : Nat) (data : W32) : State :=
  let w := (o - 0x400) / 32
  let x := lookD HostWin.reset w s.tel.wins
  if x.locked then s
  else
    let lo := lookD 0 (0x6000 + (o - 4)) s.dev.held.writes
    { s with
      tel := { s.tel with wins := put w (x.load (decide (8 ≤ o % 32)) data lo) s.tel.wins }
      dev := { s.dev with held := { s.dev.held with writes := del (0x6000 + (o - 4)) s.dev.held.writes } } }

/-- A write of a register of the teller page. -/
def State.writeTeller (s : State) (o : Nat) (data : W32) : State :=
  if 0x100 ≤ o ∧ o < 0x140 then s.folioWrite ((o - 0x100) / 4) data
  else if 0x400 ≤ o ∧ o < 0xC00 then
    (match winPair o with
     | some (_, low) => if low then s.holdLo o data else s.loadHi o data
     | none =>
       if o % 32 = 16 then
         let w := (o - 0x400) / 32
         { s with tel := { s.tel with
           wins := put w { lookD HostWin.reset w s.tel.wins with re := data.getLsbD 0, we := data.getLsbD 1 } s.tel.wins } }
       else s)
  else s

/-! ### Unit pages -/

/-- RELEASE: a quarantined port starts again from TRAINING, unless ENABLE holds it in DOWN (R316). -/
def State.portRelease (s : State) (p : Nat) : State :=
  if (s.port p).state = .quarantined then
    s.setPort p { s.port p with state := if (s.page (0x10 + p)).enable then .training else .down }
  else s

/-- A write of a register of a port page (R465): a timer outside its range is discarded; a port in HOST has none. -/
def State.writePort (s : State) (p o : Nat) (data : W32) : State :=
  let q := s.port p
  let v := data.toNat
  if o = 0x104 then
    let s := s.setPort p { q with encReq := data.getLsbD 1 }
    if data.getLsbD 0 then s.portRelease p else s
  else if q.state = .host then s
  else if o = 0x110 ∧ 1 ≤ v ∧ v ≤ 64 then s.setPort p { q with tmrAck := v }
  else if o = 0x114 ∧ 2 ≤ v ∧ v ≤ 1000 then s.setPort p { q with tmrSilence := v }
  else if o = 0x118 ∧ 1 ≤ v ∧ v ≤ 1000 then s.setPort p { q with tmrCredit := v }
  else if o = 0x11C ∧ 1 ≤ v ∧ v ≤ 1000 then s.setPort p { q with tmrTxn := v }
  else if 0x120 ≤ o ∧ o < 0x13C then s.setPort p { q with qlim := setNth q.qlim ((o - 0x120) / 4) v }
  else s

/-- A write of AGEING_CTL: GUARD_LO from 1 to below GUARD_HI (R468). -/
def State.writeRegion (s : State) (r o : Nat) (data : W32) : State :=
  let lo := bits data.toNat 15 0
  let hi := bits data.toNat 31 16
  if o = 0x110 ∧ 0 < lo ∧ lo < hi then
    s.setRegion r { s.region r with guardLo := BitVec.ofNat 16 lo, guardHi := BitVec.ofNat 16 hi }
  else s

/-! ### The window -/

/-- The effect of a write of a register; what the tables give no meaning is ignored (R12, R13). -/
def State.regEffect (s : State) (n o : Nat) (data : W32) (env : StartEnv) : State :=
  if o < 0x100 then s.writeHead n o data
  else match s.pageType n with
    | 1 => s.writeDev o data env
    | 3 => if o = 0x110 then s.burSelect data else s
    | 4 => s.writeLedger o data
    | 5 => s.writeAssay o data
    | 6 => s.writeMonitor o data
    | 7 => s.writeTeller o data
    | 8 => s.writePort (pageInstance n) o data
    | 0xA => s.writeRegion (pageInstance n) o data
    | 0xB => if o = 0x120 then s.coreSelect (pageInstance n) data else s
    | _ => s

/-- A write of the register window, by the host or the sideband. -/
def State.writeReg (s : State) (side : Bool) (off data : W32) (env : StartEnv) : State :=
  let n := off.toNat / 4096
  let o := off.toNat % 4096
  s.regWrite side n o (fun s => s.regEffect n o data env)

end Sys2Proof.Machine
end

