-- ==== Sys2Proof/Machine/Fabric.lean ====
section
/-! DEFINITION. A port's events, counters and quarantine, and the completions and timeouts of its requests (R303,
R304, R307, R315, R316, R321, R328; log 16). -/

namespace Sys2Proof.Machine

/-! ### Fabric events (Table 11-11) -/

/-- A fabric event that names the port's bound partner. -/
def State.fabricEvent (s : State) (code p order contrib : Nat) : State :=
  s.raise (fabricEvt code p (s.port p).partner.toNat order contrib 0)

/-- The running step has contributions on a port. -/
def State.portTraffic (s : State) (p : Nat) (r : Run) : Bool :=
  (s.port p).tags.any (fun t => match t.use_ with
    | .contrib id _ => (match s.send id with | some x => x.job == r.job | none => false)
    | .csgn id => (match s.send id with | some x => x.job == r.job | none => false)
    | _ => false)
  || s.fab.recvs.any (fun x => x.ofStep r && decide (x.port = some p))

/-- A lock break of the steps with traffic on a port (Table 12-10). -/
def State.lockBreakPort (s : State) (p : Nat) : State := s.lockBreakIf (s.portTraffic p)

/-! ### Quarantine (R315, R316) -/

/-- Every request outstanding on a port, or waiting there for a tag, completes with ABORT. -/
def State.abortAll (s : State) (p : Nat) : State :=
  let q := s.port p
  let us := q.tags.map (·.use_) ++ q.tagWait.map (·.2)
  let s := s.setPort p { q with
    tags := [], tagWait := [], parked := q.parked.filter (fun t => !s.ownRequest t) }
  us.foldl (fun s u => s.completeUse u 6 []) s

/-- A port enters QUARANTINED by counter `k` (R316). -/
def State.quarantine (s : State) (p k : Nat) : State :=
  let s := s.setPort p { (s.port p).goDown with state := .quarantined, qcause := k }
  (((s.abortAll p).reroutePort p).fabricEvent 0x19 p k 0).classEdge

/-- Count an event of Table 10-11; at its limit the port is quarantined. -/
def State.countQ (s : State) (p k : Nat) : State :=
  let q := s.port p
  let ev := q.qev.filter (fun e => decide ((s.time - e.2).toNat < 1000000000)) ++ [(k, s.time)]
  let q := { q with qev := ev }
  let lim := nthD 0 q.qlim k
  let s := s.setPort p q
  if lim ≠ 0 ∧ lim ≤ q.qcount s.time k ∧ q.state ≠ .quarantined then s.quarantine p k else s

/-! ### The transactions that a port has received -/

/-- Take the oldest received transaction of a type's virtual channel, if it is of that type. -/
def State.takeTxn (s : State) (p ttype : Nat) : Option (Txn × State) :=
  let q := s.port p
  let vc := txnVc ttype
  match q.rxq.find? (fun t => txnVc t.ttype == vc) with
  | some t =>
    if t.ttype = ttype ∧ q.state = .admitted then
      some (t, s.setPort p { q with rxq := delFirst (fun t => txnVc t.ttype == vc) q.rxq }.idle)
    else none
  | none => none

/-- A request outside every window: ACCESS, counted against the port (R305). -/
def State.denied (s : State) (p : Nat) (t : Txn) : State := (s.answer p t 1).countQ p 4

/-! ### CPL, TAG_ABORT, RELAY_TIMEOUT, CONTRIB_RESEND -/

/-- A received completion: of a tag outstanding on the port, or unexpected. -/
def State.recvCpl (s : State) (p : Nat) (t : Txn) : State :=
  match (s.port p).tagUse t.tag with
  | some u => (s.freeTag p t.tag).completeUse u t.status t.data
  | none => s.countQ p 3

/-- CPL (R303). -/
def execCpl (port : Nat) (s : State) : Host.Outcome State Fault Refusal :=
  match s.takeTxn port 5 with
  | some (t, s) => .next (s.recvCpl port t)
  | none => .next s

/-- The contribution that an outstanding request belongs to, 0 for none (Table 11-11). -/
def State.tagContrib (s : State) (u : TagUse) : Nat :=
  match u with
  | .contrib id _ => (match s.send id with | some x => x.contrib | none => 0)
  | _ => 0

/-- TAG_ABORT (R304): the requester completes the request with ABORT, and an event is written. A transaction of
another device that waits here for a port has the same limit, and its requester completes it (R307; log 16). -/
def execTagAbort (port tag : Nat) (s : State) : Host.Outcome State Fault Refusal :=
  match (s.port port).tagUse tag with
  | some u =>
    .next (((s.freeTag port tag).fabricEvent 0x17 port 0 (s.tagContrib u)).completeUse u 6 [])
  | none =>
    let q := s.port port
    let stays (t : Txn) : Bool := t.tag != tag || s.ownRequest t
    .next (s.setPort port { q with
      parked := q.parked.filter stays, fwdq := q.fwdq.map (fun e => (e.1, e.2.filter stays)) })

/-- Relay timeouts counted, and the event (R328). -/
def State.countRelay (s : State) (p : Nat) : State :=
  { s with tel := { s.tel with relayTo := BitVec.ofNat 32 (satAdd s.tel.relayTo.toNat 1 (2 ^ 32 - 1)) } }.fabricEvent 0x1C p 0 0

/-- RELAY_TIMEOUT (R328): a read completes with Completer Abort, a write is dropped. -/
def execRelayTimeout (port tag : Nat) (s : State) : Host.Outcome State Fault Refusal :=
  match (s.port port).tagUse tag with
  | some (.relay id) => .next (((s.freeTag port tag).countRelay port).relayExpired id)
  | _ => .next s

/-- CONTRIB_RESEND (R321): the transactions that wait to be sent again, or the countersign or VOID that does. -/
def execContribResend (send : Nat) (s : State) : Host.Outcome State Fault Refusal :=
  match s.send send with
  | none => .next s
  | some x =>
    if x.void.isSome then .next (if x.retry.isEmpty then s else s.sendVoid x (x.void.getD 0))
    else if !x.retry.isEmpty then
      .next (((s.setSend { x with retry := [] }).stream send x.retry).lockBreakJob x.job)
    else if decide (x.state = .landed) && s.sendDecided x then .next (s.sendCsgn x)
    else .next s

end Sys2Proof.Machine
end

