-- ==== Sys2Proof/Machine/Flits.lean ====
section
/-! DEFINITION. The receiving half of a port's link layer, and its timers (R298 to R302, R304, R307, R312, R313,
R315; log 17). -/

namespace Sys2Proof.Machine

/-! ### The link header (Table 10-3) -/

/-- Fields of the link header of a flit (Table 10-3). -/
structure LinkHead where
  ftype : Nat
  seq : BitVec 12
  ack : BitVec 12
  cvc : Nat
  credits : Nat
  vc : Nat
  enc : Bool
  first : Nat
  reserved : Nat
deriving DecidableEq, Repr

/-- The link header, from its 96 bits. -/
def linkHead (h : Nat) : LinkHead :=
  { ftype := bits h 95 92, seq := BitVec.ofNat 12 (bits h 91 80), ack := BitVec.ofNat 12 (bits h 79 68)
    cvc := bits h 67 66, credits := bits h 65 58, vc := bits h 57 56, enc := bit h 55, first := bits h 54 51
    reserved := bits h 50 0 }

/-- A reserved type, channel or field, a SEQ where none is due, or a FIRST in a flit that begins no transaction
(Table 10-11, malformed). -/
def LinkHead.bad (h : LinkHead) : Bool :=
  decide (3 < h.ftype) || decide (h.reserved ≠ 0) || decide (h.cvc = 3) || decide (h.vc = 3)
    || (decide (h.ftype ≠ 1) && decide (h.vc ≠ 0))
    || ((decide (h.ftype = 0) || decide (h.ftype = 2)) && decide (h.seq ≠ 0))
    || (decide (h.ftype ≠ 1) && decide (h.first ≠ 15))

/-! ### Transactions in a payload (Table 10-4, Table 10-5) -/

/-- A transaction type whose header carries a data length for data that follows. -/
def txnSize (h : Nat) : Nat := if bits h 255 252 = 1 then 32 else 32 + 16 * bits h 191 183

/-- Every byte is 0. -/
def allZero (bs : List Byte) : Bool := bs.all (fun b => b == 0)

/-- LEN that a type carries. -/
def lenOk (ttype len : Nat) : Bool :=
  match ttype with
  | 1 | 2 | 3 | 4 => decide (len % 4 = 0)
  | 5 => true
  | 6 => decide (len = 1)
  | 7 => decide (len = 4)
  | 8 => decide (len = 2)
  | _ => decide (len = 0)

/-- A header that can be decoded, on its virtual channel: known codes, reserved bits 0, and R302's rules of ADDR
and LEN. -/
def txnOk (vc h : Nat) : Bool :=
  let t := bits h 255 252
  let len := bits h 191 183
  let st := bits h 182 180
  let sp := bits h 176 174
  let a := bits h 127 80
  decide (1 ≤ t) && decide (t ≤ 10) && decide (txnVc t = vc) && decide (len ≤ 256)
    && (if t = 5 then decide (st ≠ 7) else if t = 9 then decide (st ≤ 1) else decide (st = 0))
    && decide (sp ≤ 4) && decide (bits h 173 160 = 0) && lenOk t len
    && (decide (4 < t) || (decide (a % 64 = 0) && decide (a % 4096 + 16 * len ≤ 4096)))

/-- A transaction of a header and its data. -/
def txnOf (h : Nat) (data : List Byte) : Txn :=
  { ttype := bits h 255 252, tag := bits h 251 240, src := bits h 239 224, dst := bits h 223 208
    job := bits h 207 192, len := bits h 191 183, status := bits h 182 180, altOk := bit h 179
    attempt := bits h 178 177, space := bits h 176 174, stepLo := bits h 159 128, addr := bits h 127 80
    contrib := bits h 79 64, poison := bits h 63 0, data := data }

/-- What a payload holds: whole transactions, what begins one that runs on, and whether it can be decoded. -/
structure Parsed where
  txns : List Txn
  part : List Byte
  bad : Bool
deriving DecidableEq, Repr

/-- Read transactions from the start of one; zeros to the end are padding. -/
def parseTxns (vc : Nat) : Nat → List Byte → Parsed
  | 0, bs => ⟨[], bs, false⟩
  | n + 1, bs =>
    if allZero bs then ⟨[], [], false⟩
    else if bs.length < 32 then ⟨[], bs, false⟩
    else
      let h := natAt bs 0 32
      if !txnOk vc h then ⟨[], [], true⟩
      else if bs.length < txnSize h then ⟨[], bs, false⟩
      else
        let r := parseTxns vc n (bs.drop (txnSize h))
        { r with txns := txnOf h ((bs.drop 32).take (txnSize h - 32)) :: r.txns }

/-- The FIRST that a payload's contents call for: the unit after those of a transaction that runs on. -/
def flitFirst (part pl : List Byte) : Nat :=
  let c := if part.isEmpty then 0 else (txnSize (natAt (part ++ pl) 0 32) - part.length) / 16
  if pl.length / 16 ≤ c then 15 else if allZero (pl.drop (16 * c)) then 15 else c

/-! ### Delivery -/

/-- A whole transaction: to its service here, or on to its target (R307). -/
def State.deliver (s : State) (p : Nat) (t : Txn) : State :=
  if t.dst = s.deviceId then
    let q := s.port p
    s.setPort p { q with rxq := q.rxq ++ [t] }
  else s.forward p t

/-- The transactions of a data flit's payload. -/
def State.takePayload (s : State) (p : Nat) (h : LinkHead) (pl : List Byte) : State :=
  let q := s.port p
  let part := lookD [] h.vc q.part
  if flitFirst part pl ≠ h.first then
    (s.setPort p { q with part := del h.vc q.part }).countQ p 0
  else
    let r := parseTxns h.vc 16 (part ++ pl)
    let s := s.setPort p { q with part := if r.part.isEmpty then del h.vc q.part else put h.vc r.part q.part }
    let s := r.txns.foldl (fun s t => s.deliver p t) s
    if r.bad then s.countQ p 0 else s

/-- A data flit takes one credit of its channel; without one it is a violation (R301). -/
def State.takeData (s : State) (p : Nat) (h : LinkHead) (pl : List Byte) : State :=
  let q := s.port p
  if nthD 0 q.granted h.vc = 0 then s.countQ p 1
  else
    let s := s.setPort p { q with granted := setNth q.granted h.vc (nthD 0 q.granted h.vc - 1) }
    s.takePayload p h pl

/-! ### Flits (R300, R312) -/

/-- Flits that an ACK covers leave the sender's buffer. -/
def dropAcked (ack : BitVec 12) (fs : List TxFlit) : List TxFlit :=
  if fs.any (fun f => f.seq == ack) then (fs.dropWhile (fun f => f.seq != ack)).drop 1 else fs

/-- ACK and credits of a flit that is accepted. -/
def Port.credit (q : Port) (h : LinkHead) : Port :=
  { q with
    unacked := dropAcked h.ack q.unacked
    credits := setNth q.credits h.cvc (nthD 0 q.credits h.cvc + h.credits) }.pump

/-- Ask for a replay, once until the expected flit arrives: the last good flit is the one before it. A port that
takes no flits asks for none. -/
def State.askReplay (s : State) (p : Nat) : State :=
  let q := s.port p
  if q.discarding || !q.takes then s
  else
    ((s.setPort p ({ q with discarding := true }.emitBare 2)).countQ p 2).lockBreakPort p

/-- A data or management flit in order, its payload in clear. -/
def State.inOrder (s : State) (p : Nat) (h : LinkHead) (pl : List Byte) : State :=
  let s := s.setPort p ({ s.port p with rxSeq := h.seq + 1, discarding := false }.credit h)
  if h.bad || h.enc != (s.port p).enc then s.countQ p 0
  else if h.ftype = 1 then s.takeData p h pl
  else s

/-- Count an encrypted flit of the partner; its key is replaced after every 2^32 (R312). -/
def Port.opened (q : Port) : Port :=
  let n := q.countRx + 1
  { q with countRx := n, keyRx := if n.toNat % 2 ^ 32 = 0 then Config.nextKey q.keyRx else q.keyRx }

/-- A flit with the SEQ that is due: an encrypted one is opened first, and one whose tag fails is replayed. -/
def State.dueFlit (s : State) (p : Nat) (h : LinkHead) (flit : List Byte) : State :=
  let q := s.port p
  if h.enc && q.enc then
    match Config.gcmOpen q.keyRx q.salt q.countRx.toNat (flit.take 12) (bytesAt flit 12 240) with
    | none => (s.countQ p 5).askReplay p
    | some pl => (s.setPort p q.opened).inOrder p h (bytesAt pl 0 224)
  else s.inOrder p h (bytesAt flit 12 240)

/-- A flit with a good CRC. -/
def State.goodFlit (s : State) (p : Nat) (h : LinkHead) (flit : List Byte) : State :=
  let q := s.port p
  if 3 < h.ftype then s.countQ p 0
  else if h.ftype = 1 ∨ h.ftype = 3 then
    if h.seq = q.rxSeq then s.dueFlit p h flit
    else if (q.rxSeq - h.seq).toNat ≤ 512 then s
    else s.askReplay p
  else
    let s := s.setPort p (q.credit h)
    let s := if h.bad then s.countQ p 0 else s
    if h.ftype = 2 then
      ((s.setPort p { s.port p with replayAck := some h.ack }).countQ p 2).lockBreakPort p
    else s

/-- Idle flits go out on a port (R300). -/
def State.idle (s : State) (p : Nat) : State := s.setPort p (s.port p).idle

/-- FLIT_RECEIVE (R300); `corrected` symbols of its codeword were corrected by FEC (R296). -/
def execFlitReceive (port : Nat) (flit : List Byte) (corrected : Nat) (s : State) : Host.Outcome State Fault Refusal :=
  let q := s.port port
  if !q.takes || decide (12 ≤ port) then .next s
  else
    let s := s.setPort port { q with fec := q.fec + BitVec.ofNat 64 corrected }
    if crc32 (bytesAt flit 0 252) = natAt flit 252 4 then
      .next ((s.goodFlit port (linkHead (natAt flit 0 12)) flit).idle port)
    else .next (s.askReplay port)

/-! ### Replay and timers (R300, R313) -/

/-- Send again every flit that no ACK covers, in order. -/
def Port.replay (q : Port) : Port := { q with wire := q.unacked.reverse ++ q.wire }

/-- REPLAY_REQUEST (R300): from the flit after the ACK of the request. -/
def execReplayRequest (port : Nat) (s : State) : Host.Outcome State Fault Refusal :=
  let q := s.port port
  match q.replayAck with
  | some a => .next (s.setPort port { q with replayAck := none, unacked := dropAcked a q.unacked }.replay.pump)
  | none => .next s

/-- ACK_TIMER (R300, R313). -/
def execAckTimer (port : Nat) (s : State) : Host.Outcome State Fault Refusal :=
  let q := s.port port
  if q.takes && !q.unacked.isEmpty then .next ((s.setPort port q.replay).lockBreakPort port) else .next s

/-- SILENCE_TIMER (R313): the port goes DOWN, and retraining begins. -/
def execSilenceTimer (port : Nat) (s : State) : Host.Outcome State Fault Refusal :=
  .next (if (s.port port).state = .admitted then s.portDown port else s)

/-- SLOW_PARTNER (R313, R314): reported; the port stays admitted. -/
def execSlowPartner (port vc : Nat) (s : State) : Host.Outcome State Fault Refusal :=
  let q := s.port port
  if decide (q.state = .admitted) && q.waiting.any (fun f => f.vc == vc) then
    .next ((s.fabricEvent 0x18 port vc 0).lockBreak)
  else .next s

/-! ### Lanes (R298) -/

/-- LANE_DROP (R298): the port retrains to its new width and replays, or goes down. -/
def execLaneDrop (port lane : Nat) (s : State) : Host.Outcome State Fault Refusal :=
  let q := s.port port
  let lanes := q.lanes &&& ~~~(BitVec.ofNat 8 (2 ^ lane))
  if !q.takes || lanes = q.lanes then .next s
  else
    let t := (s.setPort port { q with lanes := lanes }).lockBreak
    if widthOf lanes = 0 then .next (t.portDown port)
    else .next (t.setPort port { t.port port with width := min q.width (widthOf lanes) }.replay).classEdge

end Sys2Proof.Machine
end

