-- ==== Sys2Proof/Machine/PageCommands.lean ====
section
/-! DEFINITION. The write rows of the register window, monitor samples and the MSI-X table (R11, R14, R316, R330,
R351, R397 to R399, R449 to R470). -/

namespace Sys2Proof.Machine

/-! ### PAGE_CTRL -/

/-- PORT_ENABLE (R456). -/
def execPortEnable (port : Nat) (on : Bool) (s : State) : Host.Outcome State Fault Refusal :=
  .next (s.regWrite false (0x10 + port) 0x0C (fun s => s.setEnable port on))

/-- FENCE_REQ (R456). -/
def execFenceReq (page : Nat) (s : State) : Host.Outcome State Fault Refusal :=
  .next (s.regWrite false page 0x0C (fun s => s.fenceReq page))

/-- UNFENCE_REQ (R456). -/
def execUnfenceReq (page : Nat) (s : State) : Host.Outcome State Fault Refusal :=
  .next (s.regWrite false page 0x0C (fun s => s.unfenceReq page))

/-- STAGE_COMMIT (R14). -/
def execStageCommit (page : Nat) (s : State) : Host.Outcome State Fault Refusal :=
  .next (s.regWrite false page 0x0C (fun s => s.stageCommit page))

/-! ### Header and device control -/

/-- DEV_CTL (R457): both ST fields are staged, whatever RESET holds. -/
def execDevCtl (data : W32) (s : State) : Host.Outcome State Fault Refusal :=
  .next (s.regWrite false 0 0x110 (fun s => s.stageCtl data))

/-- EVT_FORCE (R455). -/
def execEvtForce (page : Nat) (data : W32) (s : State) : Host.Outcome State Fault Refusal :=
  .next (s.regWrite false page 0x18 (fun s => s.setForce page data))

/-- FWD_DATA (R458): a read or a write, and FWD_INDEX advances. -/
def execFwdData (write : Bool) (data : W32) (s : State) : Host.Outcome State Fault Refusal :=
  .next (if write then s.regWrite false 0 0x154 (fun s => s.fwdWrite data) else s.hostRead 0x154)

/-- REC_DATA (R457). -/
def execRecData (data : W32) (s : State) : Host.Outcome State Fault Refusal := .next (s.onRcv (·.store data))

/-- PIECE_DONE (R457). -/
def execPieceDone (s : State) : Host.Outcome State Fault Refusal := .next (s.onRcv (·.done))

/-- ABORT (R457). -/
def execAbort (s : State) : Host.Outcome State Fault Refusal := .next (s.onRcv (·.abort))

/-! ### The ledger page -/

/-- LDG_DB_VALUE (R460). -/
def execLdgDbValue (data : W32) (s : State) : Host.Outcome State Fault Refusal :=
  .next (s.regWrite false 3 0x104 (fun s => s.doorbell data))

/-- ERR_POP (R460). -/
def execErrPop (data : W32) (s : State) : Host.Outcome State Fault Refusal :=
  .next (s.regWrite false 3 0x120 (fun s => s.errPop data))

/-- ERR_IRQ (R351). -/
def execErrIrq (data : W32) (s : State) : Host.Outcome State Fault Refusal :=
  .next (s.regWrite false 3 0x124 (fun s => s.setErrIrq data))

/-- ADM_CMD_PUSH (R247). -/
def execAdmCmdPush (data : W32) (s : State) : Host.Outcome State Fault Refusal :=
  .next (s.regWrite false 3 0x240 (fun s => s.cmdPush data))

/-- ADM_CPL_POP (R247). -/
def execAdmCplPop (data : W32) (s : State) : Host.Outcome State Fault Refusal :=
  .next (s.regWrite false 3 0x258 (fun s => s.cplPop data))

/-! ### 64-bit pairs (R11) -/

/-- COUNTER_LO_WRITE: LO of a writable pair is held; of another pair it is RO (log 38). -/
def execCounterLoWrite (off data : W32) (s : State) : Host.Outcome State Fault Refusal :=
  let n := off.toNat / 4096
  let o := off.toNat % 4096
  if !regAligned off then .fault (.misaligned off)
  else match s.pageType n, winPair o with
    | 7, some (_, true) => .next (s.regWrite false n o (fun s => s.holdLo o data))
    | _, _ => .next s

/-- COUNTER_HI_WRITE: HI of a writable pair loads both halves; of another pair it is RO. -/
def execCounterHiWrite (off data : W32) (s : State) : Host.Outcome State Fault Refusal :=
  let n := off.toNat / 4096
  let o := off.toNat % 4096
  if !regAligned off then .fault (.misaligned off)
  else match s.pageType n, winPair o with
    | 7, some (_, false) => .next (s.regWrite false n o (fun s => s.loadHi o data))
    | _, _ => .next s

/-! ### Monitors (R397 to R399, R463) -/

/-- MON_SEL (R397). -/
def execMonSel (page : Nat) (data : W32) (s : State) : Host.Outcome State Fault Refusal :=
  .next (s.regWrite false page 0x20 (fun s => s.monSelect page data))

/-- MON_CTL_CLEAR (R397). -/
def execMonCtlClear (page : Nat) (s : State) : Host.Outcome State Fault Refusal :=
  .next (s.regWrite false page 0x24 (fun s => s.onMon page Mon.clear))

/-- SNAP (R463). -/
def execSnap (s : State) : Host.Outcome State Fault Refusal := .next (s.regWrite false 5 0x100 (fun s => s.monSnap))

/-- CLEAR_ALL (R463). -/
def execClearAll (s : State) : Host.Outcome State Fault Refusal := .next (s.regWrite false 5 0x100 (fun s => s.monClear))

/-- MONITOR_SAMPLE (R398, R399): a quantity that the page's block has, folded while the module runs. -/
def execMonitorSample (page quantity : Nat) (value : Int) (s : State) : Host.Outcome State Fault Refusal :=
  if s.mod.railsUp && decide (quantity < monQuantities (s.pageType page)) then .next (s.sample page quantity value)
  else .next s

/-! ### Windows, ports and the teller -/

/-- BUR_WIN_SEL (R461). -/
def execBurWinSel (data : W32) (s : State) : Host.Outcome State Fault Refusal :=
  .next (s.regWrite false 2 0x110 (fun s => s.burSelect data))

/-- CORE_WIN_SEL (R470). -/
def execCoreWinSel (core : Nat) (data : W32) (s : State) : Host.Outcome State Fault Refusal :=
  .next (s.regWrite false (0x800 + core) 0x120 (fun s => s.coreSelect core data))

/-- RELEASE (R316). -/
def execRelease (port : Nat) (s : State) : Host.Outcome State Fault Refusal :=
  .next (s.regWrite false (0x10 + port) 0x104 (fun s => s.portRelease port))

/-- FOLIO_ENT (R464). -/
def execFolioEnt (pos : Nat) (data : W32) (s : State) : Host.Outcome State Fault Refusal :=
  .next (s.regWrite false 6 (0x100 + 4 * pos) (fun s => s.folioWrite pos data))

/-- REGISTER_WRITE (R13). -/
def execRegisterWrite (off data : W32) (env : StartEnv) (s : State) : Host.Outcome State Fault Refusal :=
  if regAligned off then .next (s.writeReg false off data env) else .fault (.misaligned off)

/-- An entry of the MSI-X table as the host writes it: vector control bits [31:1] are reserved (R12, R328). -/
def State.setMsix (s : State) (vector : Nat) (e : MsixEnt) : State :=
  { s with tel := { s.tel with msix := put vector e s.tel.msix } }

/-- A pending vector is sent once its mask is clear (R330). -/
def State.sendPending (s : State) (vector : Nat) : State :=
  if s.tel.pend.contains vector then
    { s with tel := { s.tel with pend := eraseNat vector s.tel.pend } }.interrupt (BitVec.ofNat 11 vector)
  else s

/-- A size that a PCIe limit field takes, else its present value. -/
def sizeOr (low top now n : Nat) : Nat :=
  if (List.range 6).any (fun i => decide (n = low * 2 ^ i)) && decide (n ≤ top) then n else now

/-- The configuration space as the host writes it: 1 GiB and 64 KiB BARs, payloads to 512 bytes, read requests to 4,096
(Table 10-15). -/
def Pcie.configure (f : Pcie) (c : PcieCfg) (aborts : Nat) : Pcie :=
  { f with
    bar0 := c.bar0 &&& ~~~(BitVec.ofNat 64 (2 ^ 30 - 1)), bar2 := c.bar2 &&& ~~~(BitVec.ofNat 64 (2 ^ 16 - 1))
    d3hot := c.d3hot, maxPayload := sizeOr 128 512 f.maxPayload c.maxPayload
    maxRead := sizeOr 128 4096 f.maxRead c.maxRead, ecrc := c.ecrc
    aerClear := if c.aerClear then aborts else f.aerClear }

/-- AER shows a Completer Abort (Table 10-15). -/
def State.aerAbort (s : State) : Bool := decide (s.tel.pcie.aerClear < s.out.pcieAbort)

/-- The host configures the function; on its way back to D0 the vectors that were held are sent. -/
def State.configure (s : State) (c : PcieCfg) : State :=
  let t := { s with tel := { s.tel with pcie := s.tel.pcie.configure c s.out.pcieAbort } }
  if s.tel.pcie.d3hot && !c.d3hot then
    (t.tel.pend.filter (fun v => !(lookD MsixEnt.reset v t.tel.msix).ctl.getLsbD 0)).foldl (fun t v => t.sendPending v) t
  else t

/-- MSIX_UNMASK (R330): the host writes a vector's table entry; a pending vector is sent as its mask clears. -/
def execMsixUnmask (vector : MsixWrite) (s : State) : Host.Outcome State Fault Refusal :=
  if !s.su.teller || decide (2048 ≤ vector.vector) then .next s
  else
    let s := match vector.cfg with | some c => s.configure c | none => s
    let s := s.setMsix vector.vector ⟨vector.addr, vector.data, vector.ctl &&& 1⟩
    .next (if vector.ctl.getLsbD 0 then s else s.sendPending vector.vector)

end Sys2Proof.Machine
end

