-- ==== Sys2Proof/Machine/Receive.lean ====
section
/-! DEFINITION. Requests that other devices send: access windows, the received set of contributions, countersigns
and voids, doorbells, message entries and interrupts (R245, R303 to R306, R317 to R323, R329, R330; logs 14 to 17). -/

namespace Sys2Proof.Machine

/-! ### Declared contributions of a template (R305, R318) -/

/-- Address of a transaction inside its space, and the slot that a till address names (Table 10-4). -/
def Txn.offset (t : Txn) : Nat := if t.space = 0 then t.addr % 2 ^ 22 else t.addr
def Txn.slot (t : Txn) : Nat := t.addr / 2 ^ 22

/-- Every 64-byte block of `n` from a transaction's address touches a destination (log 17). -/
def Incoming.reach (x : Incoming) (j : Job) (t : Txn) (n : Nat) : Bool :=
  let rs := x.ranges j
  decide (dSpace (x.desc j) = t.space) && (decide (t.space ≠ 0) || decide (t.slot = x.slot))
    && (List.range n).all (fun i => rs.any (fun q => meets q (t.offset + 64 * i, t.offset + 64 * i + 64)))

/-- A shard of a job that another device hosts. -/
def fromDevice (j : Job) (dev shard : Nat) : Bool := !j.hostsShard shard && decide (Config.shardDevice j.num shard = dev)

/-- A partner is a device of the job: it hosts one of its shards (Table 10-7). -/
def Job.ofJob (j : Job) (dev : Nat) : Bool := (List.range j.bin.shards).any (fromDevice j dev)

/-- The declared contribution that a transaction belongs to (R305, R318). -/
def Job.named (j : Job) (template : Nat) (t : Txn) (blocks : Nat) : Option Incoming :=
  (j.incoming template (fromDevice j t.src)).find? (fun x => decide (x.ordinal = t.contrib) && x.reach j t blocks)

/-- Where STEP_LO stands to the receiver's current step (Table 10-14). -/
inductive StepAt where
  | now (r : Run)
  | ahead
  | behind
deriving DecidableEq, Repr

/-- Which step of a job a contribution's STEP_LO names: its current step, the next one, or none (R322). -/
def State.stepAt (s : State) (j : Job) (stepLo : Nat) : StepAt :=
  let x : W32 := BitVec.ofNat 32 stepLo
  match s.run j.num with
  | some r =>
    let d := x - r.step.setWidth 32
    if d = 0 then .now r else if d.toNat < 2 ^ 31 then .ahead else .behind
  | none => if (x - j.step.setWidth 32).toNat < 2 ^ 31 then .ahead else .behind

/-! ### The received set (R322) -/

/-- What was received of a contribution belongs to it. -/
def Incoming.is (x : Incoming) (t : Txn) (v : Recv) : Bool :=
  v.job == t.job && v.stepLo == t.stepLo && v.src == t.src && v.shard == x.shard && v.lcore == x.lcore
    && v.ordinal == x.ordinal

/-- What was received of a contribution so far. -/
def State.recvOf (s : State) (x : Incoming) (t : Txn) : Option Recv := s.fab.recvs.find? (x.is t)

/-- A contribution of which nothing has landed. -/
def Incoming.fresh (x : Incoming) (j : Job) (t : Txn) (p : Nat) : Recv :=
  { job := t.job, stepLo := t.stepLo, src := t.src, shard := x.shard, lcore := x.lcore, ordinal := x.ordinal
    slot := x.slot, attempt := t.attempt, port := some p, landed := [], marks := [], mode := x.mode j
    complete := false, verified := false, read := false, voided := false, due := false, held := none, own := none }

/-- An event about the step of a job: of its run while there is one, else outside a run (Table 11-9). -/
def State.stepEvent (s : State) (job : Nat) (e : Evt) : State :=
  match s.run job with
  | some r =>
    if r.waiting then s.raise { e with step := r.step.toNat }
    else s.raiseRun job none { e with step := r.step.toNat, run := r.run } 0 false false
  | none => s.raise e

/-- A fabric event about a contribution. R319 has its KIND reported in events: it stands where Table 11-11 has the order,
counter or test (DESIGN CHOICE; log 16). -/
def State.collEvent (s : State) (code p : Nat) (j : Job) (x : Incoming) (v : Recv) (w7 : Nat) : State :=
  s.stepEvent v.job { fabricEvt code p v.src (x.kind j) v.ordinal w7 with job := v.job, step := v.stepLo }

/-! ### Discarding (R322, R152) -/

/-- Discard a contribution's data; a countersign held for it is answered. A run that has read it ends without posting,
and its recount waits for the replacement. -/
def State.discard (s : State) (v : Recv) (token attempt : Nat) : State :=
  let s := (s.lockBreakJob v.job).answerHeld v
  let gone : Recv := { v with landed := [], marks := [], complete := false, verified := false, held := none
                              voided := true, attempt := attempt % 4 }
  match s.run v.job with
  | none => s.setRecv gone
  | some r =>
    let spent := r.waiting || r.broken
    if !v.ofStep r then s.setRecv gone
    else if v.read then
      (if spent then s else s.setRun { r.breakUp with uncounted := true }).setRecv { gone with due := true }
    else (if spent then s else s.setRun (r.unland v token)).setRecv gone

/-! ### Countersigns (R320) -/

/-- Compare a countersign with the data, all of which has landed: verified, or handled as a void whose attempt
comes again (R321, Table 8-13, Table 10-14), counted against the port that the contribution came on (R315). -/
def State.compare (s : State) (j : Job) (x : Incoming) (v : Recv) (h : HeldCsgn) : State :=
  let v := { v with held := none }
  let p := v.port.getD h.port
  if h.digest = x.csgn j v.landed ∧ h.bytes = x.count j then
    (s.setRecv { v with verified := true }).answer h.port h.txn 0
  else
    (((s.collEvent 0x13 p j x v (h.digest.toNat % 2 ^ 64)).discard v x.token (v.attempt + 3)).answer h.port h.txn 4).countQ
      p 6

/-! ### Data (Table 10-14) -/

/-- Bytes of a transaction that its destination takes, and that have not landed before. -/
def Incoming.bytes (x : Incoming) (j : Job) (t : Txn) (have_ : List (Nat × Nat × Byte)) : List (Nat × Nat × Byte) :=
  let rs := x.ranges j
  (List.range (16 * t.len)).filterMap (fun k =>
    let a := t.offset + k
    if inRanges rs a && !have_.any (fun w => w.2.1 == a) then some (t.space, a, nthD 0 t.data k) else none)

/-- The poison marks of a transaction's blocks (R302). -/
def Txn.marks (t : Txn) : List (Nat × Nat × Bool) :=
  (List.range (t.len / 4)).map (fun i => (t.space, t.offset / 64 + i, bit t.poison i))

/-- New bytes of a contribution land: in the received set, and in the run while it executes. -/
def State.landIn (s : State) (p : Nat) (j : Job) (x : Incoming) (v : Recv) (t : Txn) : State :=
  let new := x.bytes j t v.landed
  let marks := t.marks
  let all := v.landed ++ new
  let whole := decide (all.length = x.count j)
  let part : Recv := { v with landed := new, marks := marks, complete := whole && !v.complete }
  let v := { v with
    port := some p, landed := all, marks := v.marks ++ marks, complete := whole, due := v.due && !whole
    read := v.read || decide (v.mode ≠ 0) }
  let s := match s.run j.num with
    | some r =>
      if r.waiting || r.broken then s
      else
        let r := r.land j part x.token
        s.setRun (resched j (if part.complete then r.landedWhole v else r))
    | none => s
  s.setRecv v

/-- A parity failure at the ingress: an integrity event of the run, or outside a run while the recount waits. -/
def State.ingressEvent (s : State) (d : Nat) (j : Job) (r : Run) (ut pu w6 w7 : Nat) (injected : Bool) : State :=
  let e : Evt :=
    { code := 0x01, job := j.num, step := r.step.toNat, utype := ut, punit := pu, lcore := j.lcoreOf d
      shard := j.shardOf d, action := 2, w6 := w6, w7 := w7 }
  if r.waiting then s.raise e else s.raiseRun j.num (some d) { e with run := r.run } 0 true injected

/-- Armed pages on the way of a contribution's data, from its port to its memory, with the unit that checks there and
the checking point (R33, R455). -/
def State.wayArmed (s : State) (p d : Nat) (r : Run) (t : Txn) : Option (Nat × Nat × Nat × Nat) :=
  let m := s.memoryEnd (r.host d) t.space t.offset
  let way : Haul := ⟨p / 3, m.1, m.2.1, m.2.2⟩
  ([(0x10 + p, 7, p, 0)]
    ++ (List.range 4).filterMap (fun b => (s.baseUnit b way).map (fun u => (0x40 + b, u)))
    ++ way.region.toList.map (fun g => (0x80 + g, 2, g, 0))).find? (fun x => s.armed x.1 0)

/-- What the ingress finds of a transaction's parity, by a check or armed (R273, R455): its event, and whether a word
has failed, which is then never stored. An arrival later than its release beat breaks the lock (R365). -/
def State.ingress (s : State) (p d : Nat) (j : Job) (r : Run) (t : Txn) (chk : Chk) : State × Bool :=
  match chk with
  | .parity w6 w7 ut pu _ => (s.ingressEvent d j r ut pu (parityWord w6.toNat) w7.toNat false, true)
  | _ =>
    let s := if chk = .late then s.lockBreakJob j.num else s
    match s.wayArmed p d r t with
    | some x =>
      ((s.disarm x.1 0).ingressEvent d j r x.2.1 x.2.2.1 (x.2.2.2 * 2 ^ 56 + 2 ^ 48 + t.offset) (natAt t.data 0 8) true, true)
    | none => (s, false)

/-- After a contribution has landed whole, a countersign that was held is compared. -/
def State.compareHeld (s : State) (j : Job) (x : Incoming) (t : Txn) : State :=
  match s.recvOf x t with
  | some v =>
    (match v.held with
     | some h => if v.complete then s.compare j x v h else s
     | none => s)
  | none => s

/-- Data of the current step for a declared contribution. Data that fails parity at the ingress is not stored: the
transaction completes with ABORT, as a request without a path does, and its sender sends it again (DESIGN CHOICE, R273;
log 15). -/
def State.recvData (s : State) (p : Nat) (j : Job) (r : Run) (x : Incoming) (t : Txn) (chk : Chk) : State :=
  let land (s : State) (v : Recv) : State :=
    let c := s.ingress p x.slot j r t chk
    if c.2 then c.1.answer p t 6 else ((c.1.landIn p j x v t).answer p t 0).compareHeld j x t
  match s.recvOf x t with
  | none => land s (x.fresh j t p)
  | some v =>
    match (t.attempt + 4 - v.attempt) % 4 with
    | 0 => if v.voided then s.answer p t 3 else land s v
    | 3 => s.answer p t 3
    | _ =>
      let s := if v.voided then s else (s.collEvent 0x14 p j x v 0).discard v x.token v.attempt
      let due := match s.recvOf x t with | some w => w.due | none => false
      land s { x.fresh j t p with due := due }

/-- WR, AT256 or AFP32 into a job's memory: landing, RETRY_STEP, STALE or ACCESS (Table 10-7, Table 10-14). -/
def State.contribution (s : State) (p : Nat) (t : Txn) (mode : Nat) (chk : Chk) : State :=
  match s.job t.job with
  | none => s.denied p t
  | some j =>
    if !j.ofJob t.src then s.denied p t
    else match s.stepAt j t.stepLo with
      | .ahead => s.answer p t 2
      | .behind => s.answer p t 3
      | .now r =>
        match j.named r.template t (t.len / 4) with
        | some x => if x.mode j = mode then s.recvData p j r x t chk else s.denied p t
        | none => s.denied p t

/-! ### Host memory, at a teller (R329) -/

/-- The requester is a member of the teller's folio. -/
def State.isMember (s : State) (dev : Nat) : Bool :=
  s.su.teller && s.tel.folio.any (fun e => e.2.valid && e.2.claimed && decide (e.2.id.toNat = dev))

/-- A host window covers `n` bytes from an address: BASE to the end of LIMIT's page (Table 16-12). A function in D3hot
issues no memory request (PRESUMED; log 4). -/
def State.hostWindow (s : State) (write : Bool) (addr n : Nat) : Bool :=
  !s.tel.pcie.d3hot && s.tel.wins.any (fun w => (if write then w.2.we else w.2.re) && decide (w.2.base.toNat ≤ addr)
    && decide (addr + n ≤ w.2.limit.toNat + 4096))

/-- A register access of the window: only of the device's teller (Table 10-7). -/
def State.fromTeller (s : State) (t : Txn) : Bool :=
  !s.su.teller && decide (s.tellerId = some t.src) && decide (t.addr + 16 * t.len ≤ 2 ^ 26)

/-- The register at an address is one that an access of its block names. R302 leaves a relayed access no smaller unit than
64 bytes, and no field that names one register of them: here bits [63:48] of POISON, which mark no data byte of a single
block, name registers of it, and 0 names them all (DESIGN CHOICE; log 17). -/
def Txn.names (t : Txn) (a : Nat) : Bool :=
  decide (t.len ≠ 4) || decide (bits t.poison 63 48 = 0) || bit (bits t.poison 63 48) (a / 4 % 16)

/-- Read the named ones of `n` registers in address order: what they answer, and what reading them does. -/
def State.readRegs (s : State) (addr : Nat) (named : Nat → Bool) : Nat → List Byte × State
  | 0 => ([], s)
  | n + 1 =>
    let r := if named addr then s.readReg false (BitVec.ofNat 32 addr) else (0, s)
    let q := State.readRegs r.2 (addr + 4) named n
    (leBytes 4 r.1.toNat ++ q.1, q.2)

/-- Write the named ones of `n` registers in address order. -/
def State.writeRegs (s : State) (addr : Nat) (named : Nat → Bool) (data : List Byte) (env : StartEnv) (n : Nat) : State :=
  (List.range n).foldl (fun s i =>
    if named (addr + 4 * i) then
      s.writeReg false (BitVec.ofNat 32 (addr + 4 * i)) (BitVec.ofNat 32 (natAt data (4 * i) 4)) env
    else s) s

/-! ### RD -/

/-- A job's posted memory of a space. -/
def Job.posted (j : Job) (d space : Nat) : Mem :=
  match space with
  | 0 => nthD Mem.empty j.tills d
  | 1 => j.vault
  | _ => j.hbm

/-- The poison marks of `n` blocks of a memory, one bit per block (R287, R302). -/
def poisonMask (m : Mem) (block : Nat) : Nat → Nat
  | 0 => 0
  | n + 1 => poisonMask m block n + b2n (m.isPoisoned (block + n)) * 2 ^ n

/-- A read by a device of the job inside a destination region of the current step's declared contributions, whoever
sends them (R305, Table 10-7): it returns posted content, for no value of an unposted run leaves this way (R350). -/
def State.readWindow (s : State) (p : Nat) (t : Txn) : State :=
  match s.job t.job with
  | none => s.denied p t
  | some j =>
    match s.stepAt j t.stepLo with
    | .now r =>
      if j.ofJob t.src
          && (j.incoming r.template (fun _ => true)).any (fun x => x.reach j t (t.len / 4)) then
        let m := j.posted t.slot t.space
        s.complete p t 0 (poisonMask m (t.offset / 64) (t.len / 4)) (m.read t.offset (16 * t.len))
      else s.denied p t
    | _ => s.denied p t

/-- RD (R303): a register of this device, host memory at a teller, or a destination region. -/
def State.recvRd (s : State) (p : Nat) (t : Txn) : State :=
  match t.space with
  | 4 =>
    if s.fromTeller t then
      let r := s.readRegs t.addr t.names (4 * t.len)
      r.2.complete p t 0 0 (bytesAt r.1 0 (16 * t.len))
    else s.denied p t
  | 3 =>
    if s.isMember t.src && s.hostWindow false t.addr (16 * t.len) then
      { s with freeCtr := s.freeCtr + 1 }.complete p t 0 0 ((List.range (16 * t.len)).map (fun k => padByte s.freeCtr k))
    else s.denied p t
  | _ => s.readWindow p t

/-- RD (R303, R329): a read that another device or the host asks for. -/
def execRd (port : Nat) (s : State) : Host.Outcome State Fault Refusal :=
  match s.takeTxn port 1 with
  | some (t, s) => .next (s.recvRd port t)
  | none => .next s

/-! ### WR and the atomic adds -/

/-- A WR, by its space (R302). -/
def State.recvWr (s : State) (p : Nat) (t : Txn) (chk : Chk) (env : StartEnv) : State :=
  match t.space with
  | 4 =>
    if s.fromTeller t then
      (s.writeRegs t.addr t.names t.data env (4 * t.len)).answer p t 0
    else s.denied p t
  | 3 =>
    if s.isMember t.src && s.hostWindow true t.addr (16 * t.len) then (s.hostWrite t.addr t.data).answer p t 0
    else s.denied p t
  | _ => s.contribution p t 0 chk

/-- WR (R303). -/
def execWr (port : Nat) (chk : Chk) (env : StartEnv) (s : State) : Host.Outcome State Fault Refusal :=
  match s.takeTxn port 2 with
  | some (t, s) => .next (s.recvWr port t chk env)
  | none => .next s

/-- AT256 (R303, Table 9-9). -/
def execAt256 (port : Nat) (chk : Chk) (s : State) : Host.Outcome State Fault Refusal :=
  match s.takeTxn port 3 with
  | some (t, s) => .next (if t.space < 3 then s.contribution port t 1 chk else s.denied port t)
  | none => .next s

/-- AFP32 (R303, Table 9-9). -/
def execAfp32 (port : Nat) (chk : Chk) (s : State) : Host.Outcome State Fault Refusal :=
  match s.takeTxn port 4 with
  | some (t, s) => .next (if t.space < 3 then s.contribution port t 2 chk else s.denied port t)
  | none => .next s

/-! ### CSGN and VOID -/

/-- A countersign of the current step. -/
def State.recvCsgn (s : State) (p : Nat) (j : Job) (x : Incoming) (t : Txn) : State :=
  let h : HeldCsgn := ⟨BitVec.ofNat 128 (natAt t.data 0 16), natAt t.data 16 8, p, t⟩
  match s.recvOf x t with
  | none => s.setRecv { x.fresh j t p with held := some h }
  | some v =>
    match (t.attempt + 4 - v.attempt) % 4 with
    | 0 =>
      if v.voided then s.answer p t 3
      else if v.complete then s.compare j x v h
      else (s.answerHeld v).setRecv { v with held := some h }
    | 3 => s.answer p t 3
    | _ =>
      let s := if v.voided then s else (s.collEvent 0x14 p j x v 0).discard v x.token v.attempt
      let due := match s.recvOf x t with | some w => w.due | none => false
      s.setRecv { x.fresh j t p with due := due, held := some h }

/-- A void of the current step. -/
def State.recvVoid (s : State) (p : Nat) (j : Job) (x : Incoming) (t : Txn) : State :=
  let v := (s.recvOf x t).getD (x.fresh j t p)
  if (t.attempt + 4 - v.attempt) % 4 = 3 then s.answer p t 3
  else
    let s := s.collEvent 0x14 p j x v 0
    let s := if v.voided then s.setRecv { v with attempt := t.attempt } else s.discard v x.token t.attempt
    let s := if t.status = 1 then (s.collEvent 0x15 p j x v 0).errInterrupt else s
    s.answer p t 0

/-- A message about a contribution: of the current step, else RETRY_STEP or STALE; ACCESS where none is declared. -/
def State.aboutContrib (s : State) (p : Nat) (t : Txn) (k : State → Job → Incoming → State) : State :=
  match s.job t.job with
  | none => s.denied p t
  | some j =>
    match s.stepAt j t.stepLo with
    | .ahead => s.answer p t 2
    | .behind => s.answer p t 3
    | .now r =>
      match j.named r.template t 1 with
      | some x => k s j x
      | none => s.denied p t

/-- CSGN (R320, R322). -/
def execCsgn (port : Nat) (s : State) : Host.Outcome State Fault Refusal :=
  match s.takeTxn port 8 with
  | some (t, s) => .next (s.aboutContrib port t (fun s j x => s.recvCsgn port j x t))
  | none => .next s

/-- VOID (R320, R322). -/
def execVoid (port : Nat) (s : State) : Host.Outcome State Fault Refusal :=
  match s.takeTxn port 9 with
  | some (t, s) => .next (s.aboutContrib port t (fun s j x => s.recvVoid port j x t))
  | none => .next s

/-! ### DB, MSG and INT -/

/-- A doorbell of another device: on a message stream in HBM whose other end it is (Table 10-7, R245, R246). -/
def State.recvDb (s : State) (p : Nat) (t : Txn) : State :=
  let n := t.addr % 2 ^ 20
  let v : W32 := BitVec.ofNat 32 (natAt t.data 0 4)
  match s.ring n with
  | none => s.denied p t
  | some r =>
    if r.kind ≠ 2 ∨ r.host = true ∨ r.peerDev.toNat ≠ t.src ∨ r.job ≠ t.job then s.denied p t
    else if r.size < (v - r.head).toNat then (s.raise { code := 0x11, job := r.job }).answer p t 5
    else
      let r := { r with tail := v, stopped := false }
      ((s.setRing n r).ringIrq n r).answer p t 0

/-- DB (R303). -/
def execDb (port : Nat) (s : State) : Host.Outcome State Fault Refusal :=
  match s.takeTxn port 6 with
  | some (t, s) => .next (s.recvDb port t)
  | none => .next s

/-- Poison of a message marks the entry's block (R287). -/
def State.poisonEntry (s : State) (r : Ring) (t : Txn) : State :=
  match (if r.host || !bit t.poison 0 then none else s.job r.job) with
  | some j => s.setJob { j with hbm := j.hbm.setPoison (r.addr r.tail / 64) true }
  | none => s

/-- An entry of a message stream: of the ring's own job (R256), accepted in SEQ order while the ring has room (R317). -/
def State.recvMsg (s : State) (p : Nat) (t : Txn) : State :=
  let n := t.addr % 2 ^ 20
  match s.ring n with
  | none => s.denied p t
  | some r =>
    if r.kind ≠ 2 ∨ r.peerDev.toNat ≠ t.src ∨ r.job ≠ t.job ∨ r.job ≠ natAt t.data 4 2 then s.denied p t
    else if natAt t.data 0 4 ≠ (r.tail + BitVec.ofNat 32 r.ahead.length).toNat ∨ s.cplOpen r = false then s.answer p t 5
    else ((s.produceIrq n r ((wordsOf t.data).map (BitVec.ofNat 64))).poisonEntry r t).answer p t 0

/-- MSG (R317). -/
def execMsg (port : Nat) (s : State) : Host.Outcome State Fault Refusal :=
  match s.takeTxn port 7 with
  | some (t, s) => .next (s.recvMsg port t)
  | none => .next s

/-- INT (R330): the teller sends or pends the vector for a member of its folio. -/
def execIntr (port : Nat) (s : State) : Host.Outcome State Fault Refusal :=
  match s.takeTxn port 0xA with
  | some (t, s) =>
    .next (if s.isMember t.src then (s.interrupt (BitVec.ofNat 11 t.addr)).answer port t 0 else s.denied port t)
  | none => .next s

/-! ### COLL_WAIT (R323) -/

/-- The arrival tokens that a slot waits for. -/
def waitedTokens (j : Job) (r : Run) (d : Nat) : List Nat :=
  let x := r.slot d
  if slotWaits j r.template d x then
    let i := j.recAt d x.pc
    [rWaitA i, rWaitB i].filter (fun t => decide (48 ≤ t) && unmet j r.template d x t)
  else []

/-- The received entry of a declared contribution of the run's step. -/
def State.recvFor (s : State) (r : Run) (x : Incoming) : Option Recv :=
  s.fab.recvs.find? (fun v => v.ofStep r && v.shard == x.shard && v.lcore == x.lcore && v.ordinal == x.ordinal)

/-- The run waits for a declared contribution: a record waits on its token, or its countersign is due. -/
def State.waitsFor (s : State) (j : Job) (r : Run) (x : Incoming) : Bool :=
  match s.recvFor r x with
  | some v =>
    if r.order = 7 then v.read && !v.verified
    else !v.complete && decide (x.token ≠ 0) && (waitedTokens j r x.slot).contains x.token
  | none => decide (r.order ≠ 7) && decide (x.token ≠ 0) && (waitedTokens j r x.slot).contains x.token

/-- The port that a wait's event names: the one that the data came on, else the path to the sender (log 16). -/
def State.waitPort (s : State) (r : Run) (x : Incoming) (dev : Nat) : Nat :=
  match (s.recvFor r x).bind (·.port) with
  | some p => p
  | none => let p := s.fwdEntry dev % 16; if p < 12 then p else 0

/-- Outside proof mode, the job's own contributions that may take alternate ports do so. -/
def State.reroute (s : State) (j : Job) : State :=
  let alt (x : Send) : Send :=
    if x.job == j.num && bit (nthD 0 j.bin.coll x.plan).toNat 121 then { x with alt := true } else x
  { s with fab := { s.fab with sends := s.fab.sends.map alt } }.lockBreakJob j.num

/-- A wait of a run has reached its TIMEOUT. -/
def State.waitTimeout (s : State) (j : Job) (r : Run) (x : Incoming) : State :=
  let dev := if j.hostsShard x.shard then s.deviceId else Config.shardDevice j.num x.shard
  let p := s.waitPort r x dev
  let evt (code : Nat) : Evt :=
    { fabricEvt code p dev (x.kind j) x.ordinal 0 with job := j.num, step := r.step.toNat }
  if !r.proofEn && bit (x.plan j) 121 then (s.stepEvent j.num (evt 0x16)).reroute j
  else (s.stepEvent j.num (evt 0x15)).errInterrupt

/-- COLL_WAIT (R323): of the contributions that the job's run waits for, the one whose TIMEOUT is reached. -/
def execCollWait (job : CollTimeout) (s : State) : Host.Outcome State Fault Refusal :=
  match s.job job.job.toNat, s.run job.job.toNat with
  | some j, some r =>
    if r.waiting || r.broken || !s.ready then .next s
    else match ((j.incoming r.template (fun _ => true)).filter (s.waitsFor j r))[job.which]? with
      | some x => .next (s.waitTimeout j r x)
      | none => .next s
  | _, _ => .next s

end Sys2Proof.Machine
end

