-- ==== Sys2Proof/Machine/Relay.lean ====
section
/-! DEFINITION. The host's accesses of a folio through its teller (R326, R328; log 17). -/

namespace Sys2Proof.Machine

/-- The member that a position names: valid and claimed. -/
def State.memberAt (s : State) (pos : Nat) : Option Nat :=
  let e := lookD FolioEnt.reset pos s.tel.folio
  if e.valid && e.claimed then some e.id.toNat else none

/-- The host reaches the teller over its PCIe link: in D0, for a function in D3hot takes no memory request (PRESUMED;
log 4). -/
def State.hostLink (s : State) : Bool := s.su.teller && s.mod.railsUp && s.tel.linkUp && !s.tel.pcie.d3hot

/-- The transaction of a relayed access: the 64-byte block of its register, as R302 has it (log 17). -/
def State.regTxn (s : State) (ttype dev off : Nat) (data : List Byte) : Txn :=
  { s.txn ttype dev 0 with
    space := 4, addr := off / 64 * 64, len := 4, poison := 2 ^ (48 + off / 4 % 16), data := data }

/-- RELAY_READ (R328). -/
def execRelayRead (pos : Nat) (off : W32) (s : State) : Host.Outcome State Fault Refusal :=
  if !regAligned off then .fault (.misaligned off)
  else if !s.hostLink then .next s
  else if pos = 0 then .next (s.hostRead off)
  else match s.memberAt pos with
    | none => .next { s with out := { s.out with lastRead := 0 } }
    | some dev =>
      .next (s.relay pos true off.toNat (s.regTxn 1 dev off.toNat []))

/-- RELAY_WRITE (R328). -/
def execRelayWrite (pos : Nat) (off : W32) (data : W32) (env : StartEnv) (s : State) :
    Host.Outcome State Fault Refusal :=
  if !regAligned off then .fault (.misaligned off)
  else if !s.hostLink then .next s
  else if pos = 0 then .next (s.writeReg false off data env)
  else match s.memberAt pos with
    | none => .next s
    | some dev =>
      .next (s.relay pos false off.toNat (s.regTxn 2 dev off.toNat (leBytes 64 (data.toNat * 2 ^ (8 * (off.toNat % 64))))))

end Sys2Proof.Machine
end

