-- ==== Sys2Proof/Machine/Sideband.lean ====
section
/-! DEFINITION. The sideband: the I3C target and its commands (R444, R445; log 6). -/

namespace Sys2Proof.Machine

/-- What a sideband transaction returns: four data bytes, where it has them, and the status byte. -/
def State.sbAnswer (s : State) (status : Byte) (data : W32) : State :=
  { s with out := { s.out with sbStatus := status, lastRead := data } }

/-- An offset that the sideband reaches: the device-control page, with the recovery window, and the power page. -/
def sbReach (off : W32) : Bool := decide (off.toNat < 0x2000)

/-- SIDEBAND_READ (R445): `ok` says that the command and its length are good. -/
def execSidebandRead (off : W32) (ok : Bool) (s : State) : Host.Outcome State Fault Refusal :=
  if !s.mod.mgmtUp then .next s
  else if !ok then .next (s.sbAnswer 2 0)
  else if !sbReach off then .next (s.sbAnswer 1 0)
  else if !regAligned off then .fault (.misaligned off)
  else
    let r := s.readReg true off
    .next (r.2.sbAnswer 0 r.1)

/-- SIDEBAND_WRITE (R445). -/
def execSidebandWrite (off data : W32) (ok : Bool) (env : StartEnv) (s : State) : Host.Outcome State Fault Refusal :=
  if !s.mod.mgmtUp then .next s
  else if !ok then .next (s.sbAnswer 2 0)
  else if !sbReach off then .next (s.sbAnswer 1 0)
  else if !regAligned off then .fault (.misaligned off)
  else .next ((s.writeReg true off data env).sbAnswer 0 0)

/-- SIDEBAND_ALERT (R445): its offset is 0. -/
def execSidebandAlert (off : W32) (ok : Bool) (s : State) : Host.Outcome State Fault Refusal :=
  if !s.mod.mgmtUp then .next s
  else if !ok || decide (off ≠ 0) then .next (s.sbAnswer 2 0)
  else .next (s.sbAnswer 0 s.alertCause)

/-- SIDEBAND_RESET (R420, R445): its offset is 0x0000_A5A5. -/
def execSidebandReset (off : W32) (ok : Bool) (env : StartEnv) (s : State) : Host.Outcome State Fault Refusal :=
  if !s.mod.mgmtUp then .next s
  else if !ok || decide (off ≠ 0xA5A5) then .next (s.sbAnswer 2 0)
  else .next ((s.warmReset env).sbAnswer 0 0)

/-! ### CCCs (R444) -/

/-- The target takes part in a CCC while the management rails are up. -/
def State.onI3c (s : State) (k : I3c → I3c) : State := if s.mod.mgmtUp then { s with i3c := k s.i3c } else s

/-- Bytes that a CCC returns. -/
def State.cccAnswer (s : State) (bs : List Byte) : State :=
  if s.mod.mgmtUp then { s with out := { s.out with cccData := bs } } else s

/-- The static address: 0x60 + FOLIO_POS. -/
def State.staticAddr (s : State) : BitVec 7 := 0x60 + s.mod.folioPos.setWidth 7

/-- ENTDAA: a target without a dynamic address takes the one that is assigned. -/
def execEntdaa (addr : BitVec 7) (s : State) : Host.Outcome State Fault Refusal :=
  .next (s.onI3c (fun i => if i.dynAddr.isNone then { i with dynAddr := some addr } else i))

/-- SETDASA: by the static address. -/
def execSetdasa (static addr : BitVec 7) (s : State) : Host.Outcome State Fault Refusal :=
  .next (s.onI3c (fun i => if static = s.staticAddr ∧ i.dynAddr = none then { i with dynAddr := some addr } else i))

/-- RSTDAA. -/
def execRstdaa (s : State) : Host.Outcome State Fault Refusal := .next (s.onI3c (fun i => { i with dynAddr := none }))

/-- ENEC. -/
def execEnec (s : State) : Host.Outcome State Fault Refusal := .next (s.onI3c (fun i => { i with ibiEn := true }))

/-- DISEC. -/
def execDisec (s : State) : Host.Outcome State Fault Refusal := .next (s.onI3c (fun i => { i with ibiEn := false }))

/-- The provisional ID: manufacturer, part 0x0512, and the low 12 bits of the serial number. -/
def State.provisionalId (s : State) : Nat :=
  Config.mipiId.toNat * 2 ^ 33 + 0x0512 * 2 ^ 16 + Config.pidInstance.toNat * 2 ^ 12 + s.serial % 2 ^ 12

/-- GETPID: six bytes, the high one first. -/
def execGetpid (s : State) : Host.Outcome State Fault Refusal :=
  .next (s.cccAnswer (leBytes 6 s.provisionalId).reverse)

/-- GETBCR. -/
def execGetbcr (s : State) : Host.Outcome State Fault Refusal := .next (s.cccAnswer [Config.bcr])

/-- GETDCR. -/
def execGetdcr (s : State) : Host.Outcome State Fault Refusal := .next (s.cccAnswer [Config.dcr])

/-- GETSTATUS: two bytes whose content the spec does not give (log 6). -/
def execGetstatus (s : State) : Host.Outcome State Fault Refusal :=
  .next ({ s with freeCtr := s.freeCtr + 1 }.cccAnswer (leBytes 2 (Config.freeNat (s.freeCtr * 16384))))

/-- RSTACT: the action "reset the whole target", 0x02, requests a warm reset (R420). -/
def execRstact (action : Byte) (env : StartEnv) (s : State) : Host.Outcome State Fault Refusal :=
  .next (if s.mod.mgmtUp && decide (action = 2) then s.warmReset env else s)

end Sys2Proof.Machine
end

