-- ==== Sys2Proof/Machine/StepEvents.lean ====
section
/-! DEFINITION. What stops a run from outside its records: the watchdog and the bursar's lockstep (R336, R337,
R417). -/

namespace Sys2Proof.Machine

/-- Host cores of the slots that have not completed STEP_END, each with its lowest such slot. -/
def lateHosts (r : Run) : List (Nat × Nat) :=
  (List.range r.slots.length).foldl (fun l d =>
    if (r.slot d).ended || (look (r.host d) l).isSome then l else put (r.host d) d l) []

/-- The watchdog's events: a late host each, else the fabric of a base die (R336). -/
def State.watchdogEvents (s : State) (j : Job) (r : Run) (limit elapsed die : Nat) : State :=
  let hs := lateHosts r
  if hs.isEmpty then
    s.raiseRun j.num none
      { code := 0x04, job := j.num, step := r.step.toNat, utype := 4, punit := 64 * die, run := r.run, action := 2
        w6 := limit, w7 := elapsed } 0 true false
  else hs.foldl (fun s h =>
    s.raiseRun j.num (some h.2)
      { code := 0x04, job := j.num, step := r.step.toNat, utype := 1, punit := h.1, lcore := j.lcoreOf h.2
        shard := j.shardOf h.2, run := r.run, action := 2, w6 := limit, w7 := elapsed } 0 true false) s

/-- WATCHDOG (R336): the run is stopped; its check sends it to a recount. -/
def execWatchdog (job : BitVec 16) (limit elapsed die : Nat) (s : State) : Host.Outcome State Fault Refusal :=
  match s.job job.toNat, s.run job.toNat with
  | some j, some r =>
    if s.held || !s.ready || decide (elapsed ≤ limit) || r.waiting || r.broken || decide (6 ≤ r.order) then .next s
    else .next ((s.watchdogEvents j r limit elapsed die).breakRun j.num)
  | _, _ => .next s

/-- A live switch-over that diverges within a second goes back to the old image: the boot control block stands as it
was, and the command completes with FW_INCOMPATIBLE (R417). -/
def State.revertSwitch (s : State) : State :=
  match s.su.revert with
  | none => s
  | some v =>
    if (s.time - v.time).toNat ≤ 1000000000 then
      let svn := s.running.head.svn
      let s := { s with su := { s.su with slot := v.slot, revert := none } }
      (s.raise { code := 0x2A, w6 := svn * 2 ^ 32 + 2 }).finishLate v.cmd 0x10 0 0x0307 0 0 0
    else s.sealSwitch v

/-- Halt: no step begins or posts, every job ends, and only a warm reset resumes service (R337, Table 14-2). -/
def State.halt (s : State) : State :=
  let s := { s with su := { s.su with halted := true, phase := 0xF } }
  (s.jobs.foldl (fun s j => s.endJob j.num 0) s).settle

/-- LOCKSTEP (R337): the bursar restarts from its checkpoint, and the running step is recounted with no suspect. -/
def execLockstep (pc0 pc1 : W64) (s : State) : Host.Outcome State Fault Refusal :=
  if !s.ready then .next s
  else
    let recent := s.su.diverged.filter (fun t => decide ((s.time - t).toNat ≤ 3600000000000))
    let third := decide (2 ≤ recent.length)
    let cur := s.runs.find? (fun r => decide (r.order ≤ 5) && !r.waiting)
    let e : Evt := { code := 0x05, utype := 8, action := if third then 0xB else 2, w6 := pc0.toNat, w7 := pc1.toNat }
    let s := match cur with
      | some r => s.raiseRun r.job none { e with job := r.job, step := r.step.toNat, run := r.run } 0 true false
      | none => s.raise e
    let s := { s with su := { s.su with diverged := s.su.diverged ++ [s.time] } }
    let s := s.revertSwitch
    let s := match cur with
      | some r => s.breakRun r.job
      | none => s
    .next (if third then s.halt else s)

end Sys2Proof.Machine
end

