-- ==== Sys2Proof/Machine/Dispatch.lean ====
section
/-! DEFINITION. `exec`: one arm per command, each a direct call of its meaning. -/

namespace Sys2Proof.Machine

def exec (i : Instr) (s : State) : Host.Outcome State Fault Refusal :=
  match i with
  | .jobLoad f => Sys2Proof.Machine.execJobLoad f s
  | .stepRun f => Sys2Proof.Machine.execStepRun f s
  | .snapshot f => Sys2Proof.Machine.execSnapshot f s
  | .jobEnd f => Sys2Proof.Machine.execJobEnd f s
  | .jobEndEffect job => Sys2Proof.Machine.execJobEndEffect job s
  | .jobAbort f => Sys2Proof.Machine.execJobAbort f s
  | .ringAlloc f => Sys2Proof.Machine.execRingAlloc f s
  | .ringFree f => Sys2Proof.Machine.execRingFree f s
  | .seqOpen f => Sys2Proof.Machine.execSeqOpen f s
  | .seqClose f => Sys2Proof.Machine.execSeqClose f s
  | .boundary f => Sys2Proof.Machine.execBoundary f s
  | .dieBank f => Sys2Proof.Machine.execDieBank f s
  | .dieBankSwitch core => Sys2Proof.Machine.execDieBankSwitch core s
  | .assayInstall f => Sys2Proof.Machine.execAssayInstall f s
  | .assayRemove f => Sys2Proof.Machine.execAssayRemove f s
  | .assayRequest f => Sys2Proof.Machine.execAssayRequest f s
  | .fwStage f => Sys2Proof.Machine.execFwStage f s
  | .fwSwitch f => Sys2Proof.Machine.execFwSwitch f s
  | .fwCommit f => Sys2Proof.Machine.execFwCommit f s
  | .configInstall f => Sys2Proof.Machine.execConfigInstall f s
  | .attest f => Sys2Proof.Machine.execAttest f s
  | .warmReset f env => Sys2Proof.Machine.execWarmReset f env s
  | .sequenceRequest f => Sys2Proof.Machine.execSequenceRequest f s
  | .boundaryMarker f => Sys2Proof.Machine.execBoundaryMarker f s
  | .batchTimer job lcore rule => Sys2Proof.Machine.execBatchTimer job lcore rule s
  | .nop d chk => Sys2Proof.Machine.execNop d chk s
  | .stepBegin d => Sys2Proof.Machine.execStepBegin d s
  | .stepEnd d => Sys2Proof.Machine.execStepEnd d s
  | .rngFill d chk => Sys2Proof.Machine.execRngFill d chk s
  | .move d chk => Sys2Proof.Machine.execMove d chk s
  | .moveLands d idx chk => Sys2Proof.Machine.execMoveLands d idx chk s
  | .atomT256 d chk => Sys2Proof.Machine.execAtomT256 d chk s
  | .atomFp32 d chk => Sys2Proof.Machine.execAtomFp32 d chk s
  | .millLoad d chk => Sys2Proof.Machine.execMillLoad d chk s
  | .millPass d chk => Sys2Proof.Machine.execMillPass d chk s
  | .recordComplete d idx => Sys2Proof.Machine.execRecordComplete d idx s
  | .add d chk => Sys2Proof.Machine.execAdd d chk s
  | .sub d chk => Sys2Proof.Machine.execSub d chk s
  | .mul d chk => Sys2Proof.Machine.execMul d chk s
  | .mad d chk => Sys2Proof.Machine.execMad d chk s
  | .min d chk => Sys2Proof.Machine.execMin d chk s
  | .max d chk => Sys2Proof.Machine.execMax d chk s
  | .abs d chk => Sys2Proof.Machine.execAbs d chk s
  | .neg d chk => Sys2Proof.Machine.execNeg d chk s
  | .cvt d chk => Sys2Proof.Machine.execCvt d chk s
  | .sel d chk => Sys2Proof.Machine.execSel d chk s
  | .cmpge d chk => Sys2Proof.Machine.execCmpge d chk s
  | .finDrain d chk => Sys2Proof.Machine.execFinDrain d chk s
  | .finReduce d chk => Sys2Proof.Machine.execFinReduce d chk s
  | .finCheck d chk => Sys2Proof.Machine.execFinCheck d chk s
  | .frmEval d chk => Sys2Proof.Machine.execFrmEval d chk s
  | .frmSmaxAcc d chk => Sys2Proof.Machine.execFrmSmaxAcc d chk s
  | .frmSmaxOut d chk => Sys2Proof.Machine.execFrmSmaxOut d chk s
  | .frmRms d chk => Sys2Proof.Machine.execFrmRms d chk s
  | .collSend d chk => Sys2Proof.Machine.execCollSend d chk s
  | .stepSelect => Sys2Proof.Machine.execStepSelect s
  | .stepBoundary restored us => Sys2Proof.Machine.execStepBoundary restored us s
  | .stepCheck job => Sys2Proof.Machine.execStepCheck job s
  | .stepPost job => Sys2Proof.Machine.execStepPost job s
  | .escrowWriteBack job page => Sys2Proof.Machine.execEscrowWriteBack job page s
  | .recountRun job => Sys2Proof.Machine.execRecountRun job s
  | .watchdog job limit elapsed die => Sys2Proof.Machine.execWatchdog job limit elapsed die s
  | .lockstep pc0 pc1 => Sys2Proof.Machine.execLockstep pc0 pc1 s
  | .regeneration job desc => Sys2Proof.Machine.execRegeneration job desc s
  | .scrub loc ecc => Sys2Proof.Machine.execScrub loc ecc s
  | .eccRewrite loc bad => Sys2Proof.Machine.execEccRewrite loc bad s
  | .retirement => Sys2Proof.Machine.execRetirement s
  | .sparingRefill => Sys2Proof.Machine.execSparingRefill s
  | .arrearsPromoted user arrears => Sys2Proof.Machine.execArrearsPromoted user arrears s
  | .assayRotation die => Sys2Proof.Machine.execAssayRotation die s
  | .assayRunEnd core run => Sys2Proof.Machine.execAssayRunEnd core run s
  | .ageing meas => Sys2Proof.Machine.execAgeing meas s
  | .summaryFold => Sys2Proof.Machine.execSummaryFold s
  | .blankStrikeRampDown core => Sys2Proof.Machine.execBlankStrikeRampDown core s
  | .powerCap watts => Sys2Proof.Machine.execPowerCap watts s
  | .powerOver watts => Sys2Proof.Machine.execPowerOver watts s
  | .thermalCap temps => Sys2Proof.Machine.execThermalCap temps s
  | .thermalAlert point unit temp => Sys2Proof.Machine.execThermalAlert point unit temp s
  | .coolant inlet outlet => Sys2Proof.Machine.execCoolant inlet outlet s
  | .thermtrip point unit temp => Sys2Proof.Machine.execThermtrip point unit temp s
  | .refreshDoubled stack temp => Sys2Proof.Machine.execRefreshDoubled stack temp s
  | .refreshNormal stack temp => Sys2Proof.Machine.execRefreshNormal stack temp s
  | .flashGateClose mv => Sys2Proof.Machine.execFlashGateClose mv s
  | .flashGateOpen mv => Sys2Proof.Machine.execFlashGateOpen mv s
  | .sagCap mv => Sys2Proof.Machine.execSagCap mv s
  | .sagCapEnd mv => Sys2Proof.Machine.execSagCapEnd mv s
  | .quiesce mv => Sys2Proof.Machine.execQuiesce mv s
  | .quiesceEnd mv => Sys2Proof.Machine.execQuiesceEnd mv s
  | .overvoltage mv => Sys2Proof.Machine.execOvervoltage mv s
  | .overvoltageEnd mv => Sys2Proof.Machine.execOvervoltageEnd mv s
  | .powerLoss mv pwrEn => Sys2Proof.Machine.execPowerLoss mv pwrEn s
  | .powerUp env => Sys2Proof.Machine.execPowerUp env s
  | .railFault rail cause mv restarted => Sys2Proof.Machine.execRailFault rail cause mv restarted s
  | .perstN env => Sys2Proof.Machine.execPerstN env s
  | .hotReset env => Sys2Proof.Machine.execHotReset env s
  | .flr env => Sys2Proof.Machine.execFlr env s
  | .relayRead pos off => Sys2Proof.Machine.execRelayRead pos off s
  | .relayWrite pos off data env => Sys2Proof.Machine.execRelayWrite pos off data env s
  | .relayTimeout port tag => Sys2Proof.Machine.execRelayTimeout port tag s
  | .sidebandRead off ok => Sys2Proof.Machine.execSidebandRead off ok s
  | .sidebandWrite off data ok env => Sys2Proof.Machine.execSidebandWrite off data ok env s
  | .sidebandAlert off ok => Sys2Proof.Machine.execSidebandAlert off ok s
  | .sidebandReset off ok env => Sys2Proof.Machine.execSidebandReset off ok env s
  | .entdaa addr => Sys2Proof.Machine.execEntdaa addr s
  | .setdasa static addr => Sys2Proof.Machine.execSetdasa static addr s
  | .rstdaa => Sys2Proof.Machine.execRstdaa s
  | .enec => Sys2Proof.Machine.execEnec s
  | .disec => Sys2Proof.Machine.execDisec s
  | .getpid => Sys2Proof.Machine.execGetpid s
  | .getbcr => Sys2Proof.Machine.execGetbcr s
  | .getdcr => Sys2Proof.Machine.execGetdcr s
  | .getstatus => Sys2Proof.Machine.execGetstatus s
  | .rstact action env => Sys2Proof.Machine.execRstact action env s
  | .laneDrop port lane => Sys2Proof.Machine.execLaneDrop port lane s
  | .training port lanes partner => Sys2Proof.Machine.execTraining port lanes partner s
  | .hello port hello => Sys2Proof.Machine.execHello port hello s
  | .response port sigs => Sys2Proof.Machine.execResponse port sigs s
  | .authFail port order => Sys2Proof.Machine.execAuthFail port order s
  | .bindingForward port id digest => Sys2Proof.Machine.execBindingForward port id digest s
  | .folioClaim port pos teller => Sys2Proof.Machine.execFolioClaim port pos teller s
  | .flitReceive port flit corrected => Sys2Proof.Machine.execFlitReceive port flit corrected s
  | .replayRequest port => Sys2Proof.Machine.execReplayRequest port s
  | .ackTimer port => Sys2Proof.Machine.execAckTimer port s
  | .silenceTimer port => Sys2Proof.Machine.execSilenceTimer port s
  | .slowPartner port vc => Sys2Proof.Machine.execSlowPartner port vc s
  | .tagAbort port tag => Sys2Proof.Machine.execTagAbort port tag s
  | .rd port => Sys2Proof.Machine.execRd port s
  | .wr port chk env => Sys2Proof.Machine.execWr port chk env s
  | .at256 port chk => Sys2Proof.Machine.execAt256 port chk s
  | .afp32 port chk => Sys2Proof.Machine.execAfp32 port chk s
  | .cpl port => Sys2Proof.Machine.execCpl port s
  | .db port => Sys2Proof.Machine.execDb port s
  | .msg port => Sys2Proof.Machine.execMsg port s
  | .csgn port => Sys2Proof.Machine.execCsgn port s
  | .void port => Sys2Proof.Machine.execVoid port s
  | .intr port => Sys2Proof.Machine.execIntr port s
  | .msgResend ring => Sys2Proof.Machine.execMsgResend ring s
  | .contribResend send => Sys2Proof.Machine.execContribResend send s
  | .collWait job => Sys2Proof.Machine.execCollWait job s
  | .portEnable port on => Sys2Proof.Machine.execPortEnable port on s
  | .fenceReq page => Sys2Proof.Machine.execFenceReq page s
  | .unfenceReq page => Sys2Proof.Machine.execUnfenceReq page s
  | .stageCommit page => Sys2Proof.Machine.execStageCommit page s
  | .devCtl data => Sys2Proof.Machine.execDevCtl data s
  | .devCtlReset env => Sys2Proof.Machine.execDevCtlReset env s
  | .evtForce page data => Sys2Proof.Machine.execEvtForce page data s
  | .evtCount page => Sys2Proof.Machine.execEvtCount page s
  | .ldgDbValue data => Sys2Proof.Machine.execLdgDbValue data s
  | .ldgDbDiscard => Sys2Proof.Machine.execLdgDbDiscard s
  | .errPop data => Sys2Proof.Machine.execErrPop data s
  | .errIrq data => Sys2Proof.Machine.execErrIrq data s
  | .admCmdPush data => Sys2Proof.Machine.execAdmCmdPush data s
  | .admCplPop data => Sys2Proof.Machine.execAdmCplPop data s
  | .counterLoRead off => Sys2Proof.Machine.execCounterLoRead off s
  | .counterLoWrite off data => Sys2Proof.Machine.execCounterLoWrite off data s
  | .counterHiWrite off data => Sys2Proof.Machine.execCounterHiWrite off data s
  | .monSel page data => Sys2Proof.Machine.execMonSel page data s
  | .monCtlClear page => Sys2Proof.Machine.execMonCtlClear page s
  | .monCountLo page => Sys2Proof.Machine.execMonCountLo page s
  | .snap => Sys2Proof.Machine.execSnap s
  | .clearAll => Sys2Proof.Machine.execClearAll s
  | .fwdData write data => Sys2Proof.Machine.execFwdData write data s
  | .recData data => Sys2Proof.Machine.execRecData data s
  | .pieceDone => Sys2Proof.Machine.execPieceDone s
  | .finish env => Sys2Proof.Machine.execFinish env s
  | .abort => Sys2Proof.Machine.execAbort s
  | .burWinSel data => Sys2Proof.Machine.execBurWinSel data s
  | .coreWinSel core data => Sys2Proof.Machine.execCoreWinSel core data s
  | .release port => Sys2Proof.Machine.execRelease port s
  | .folioEnt pos data => Sys2Proof.Machine.execFolioEnt pos data s
  | .telRelayTo => Sys2Proof.Machine.execTelRelayTo s
  | .registerWrite off data env => Sys2Proof.Machine.execRegisterWrite off data env s
  | .thermalAlertClear point unit temp => Sys2Proof.Machine.execThermalAlertClear point unit temp s
  | .monitorSample page quantity value => Sys2Proof.Machine.execMonitorSample page quantity value s
  | .msixUnmask vector => Sys2Proof.Machine.execMsixUnmask vector s
  | .assayRunLimit core => Sys2Proof.Machine.execAssayRunLimit core s
  | .runTimeRetraining chan ok => Sys2Proof.Machine.execRunTimeRetraining chan ok s
  | .flashWriteEnd => Sys2Proof.Machine.execFlashWriteEnd s

end Sys2Proof.Machine
end

