-- ==== Sys2Proof/Machine/Tick.lean ====
section
/-! DEFINITION. What passes when no command waits (R26, R27, R417; log 18). -/

namespace Sys2Proof.Machine

/-- Device time that one idle step spans, in µs. -/
def tickMicros : Nat := 1

/-- Every self-timed domain whose rail is in regulation beats at its rate, held at the cap in effect. -/
def State.beatAll (s : State) : State :=
  let regions := (List.range 32).foldl (fun l r =>
    let x := s.region r
    if x.rail then put r { x with beats := x.beats + BitVec.ofNat 64 (s.regionRate r * tickMicros) } l else l) s.regions
  let fabrics := (List.range 4).foldl (fun l b =>
    let x := s.fabric b
    put b { x with beats := x.beats + BitVec.ofNat 64 (s.fabricRate b * tickMicros) } l) s.fabrics
  { s with regions := regions, fabrics := fabrics }

/-- Idle time: device time runs with the management domain, beats with the other rails, and a firmware switch ends
after its second (R417; log 18). -/
def tick (s : State) : State :=
  let s := if s.mod.railsUp then s.beatAll else s
  let s := if s.mod.mgmtUp then { s with time := s.time + BitVec.ofNat 64 (1000 * tickMicros) } else s
  s.endSwitch

end Sys2Proof.Machine
end

