-- ==== Sys2Proof/WellFormed.lean ====
section
/-! DEFINITION. The ranges that the spec gives a command's operands: unit numbers by Table 11-2 and Table
1-2, register offsets by R10, entries of eight words (R245). -/

namespace Sys2Proof

/-- A ring number (20 bits), and an entry of eight 64-bit words where one is given. -/
def Fetch.wf (f : Fetch) : Bool := decide (f.ring < 2 ^ 20) && (f.entry.isEmpty || f.entry.length == 8)

/-- An offset inside the 64 MiB register window (R10). -/
def offWf (off : W32) : Bool := decide (off.toNat < 2 ^ 26)

def coreWf (core : Nat) : Bool := decide (core < 576)
def portWf (port : Nat) : Bool := decide (port < 12)
def chanWf (chan : Nat) : Bool := decide (chan < 1024)
def pageWf (page : Nat) : Bool := decide (page < 16384)
/-- A device slot (R231): at most 65,536 shards of 512 logical cores. -/
def slotWf (d : Nat) : Bool := decide (d < 65536 * 512)

/-- The point of a temperature limit and its unit (Table 15-14): 0 region, 1 base die, 2 stack; 3, an
alert's clear only, the coolant inlet. -/
def pointWf (point unit : Nat) : Bool :=
  match point with
  | 0 => decide (unit < 32)
  | 1 => decide (unit < 4)
  | 2 => decide (unit < 16)
  | 3 => decide (unit = 0)
  | _ => false

/-- A command's operands are in range. -/
def Instr.wf : Instr → Bool
  | .jobLoad f | .stepRun f | .snapshot f | .jobEnd f | .jobAbort f | .ringAlloc f | .ringFree f
  | .seqOpen f | .seqClose f | .boundary f | .dieBank f | .assayInstall f | .assayRemove f
  | .assayRequest f | .fwStage f | .fwSwitch f | .fwCommit f | .configInstall f | .attest f
  | .warmReset f _ | .sequenceRequest f | .boundaryMarker f => f.wf
  | .batchTimer _ lcore rule => decide (lcore < 512) && decide (rule < 64)
  | .dieBankSwitch core | .assayRunEnd core _ | .assayRunLimit core | .coreWinSel core _ => coreWf core
  | .blankStrikeRampDown core => coreWf core.core
  | .stepBegin d | .stepEnd d => slotWf d.d
  | .nop d _ | .rngFill d _ | .move d _ | .moveLands d _ _ | .atomT256 d _
  | .atomFp32 d _ | .millLoad d _ | .millPass d _ | .recordComplete d _ | .add d _ | .sub d _ | .mul d _
  | .mad d _ | .min d _ | .max d _ | .abs d _ | .neg d _ | .cvt d _ | .sel d _ | .cmpge d _
  | .finDrain d _ | .finReduce d _ | .finCheck d _ | .frmEval d _ | .frmSmaxAcc d _ | .frmSmaxOut d _
  | .frmRms d _ | .collSend d _ => slotWf d
  | .runTimeRetraining chan _ => chanWf chan
  | .arrearsPromoted user _ => decide (user < 6)
  | .assayRotation die => decide (die < 4)
  | .ageing meas => decide (meas.length = 32)
  | .thermalCap temps => decide (temps.length = 32)
  | .thermalAlert point unit _ | .thermtrip point unit _ => decide (point < 3) && pointWf point unit
  | .thermalAlertClear point unit _ => pointWf point unit
  | .refreshDoubled stack _ | .refreshNormal stack _ => decide (stack < 16)
  | .railFault rail _ _ _ => decide (rail < 58)
  | .relayRead pos off | .relayWrite pos off _ _ => decide (pos < 16) && offWf off
  | .folioEnt pos _ => decide (pos < 16)
  | .laneDrop port lane => portWf port && decide (lane < 8)
  | .relayTimeout port _ | .training port _ _ | .hello port _ | .response port _ | .authFail port _
  | .bindingForward port _ _ | .replayRequest port | .ackTimer port
  | .silenceTimer port | .slowPartner port _ | .tagAbort port _ | .rd port | .wr port _ _ | .at256 port _
  | .afp32 port _ | .cpl port | .db port | .msg port | .csgn port | .void port | .intr port
  | .portEnable port _ | .release port => portWf port
  | .folioClaim port pos _ => portWf port && decide (pos < 16)
  | .flitReceive port flit _ => portWf port && decide (flit.length = 256)
  | .fenceReq page | .unfenceReq page | .stageCommit page | .evtForce page _ | .evtCount page
  | .monSel page _ | .monCtlClear page | .monCountLo page | .monitorSample page _ _ => pageWf page
  | .counterLoRead off | .counterLoWrite off _ | .counterHiWrite off _ | .registerWrite off _ _ => offWf off
  | .msixUnmask vector => decide (vector.vector < 2048)
  | .jobEndEffect _ | .stepSelect | .stepBoundary _ _ | .stepCheck _ | .stepPost _ | .escrowWriteBack _ _
  | .recountRun _ | .watchdog _ _ _ _ | .lockstep _ _ | .regeneration _ _ | .scrub _ _ | .eccRewrite _ _
  | .retirement | .sparingRefill | .summaryFold | .powerCap _ | .powerOver _ | .coolant _ _
  | .flashGateClose _ | .flashGateOpen _ | .sagCap _ | .sagCapEnd _ | .quiesce _ | .quiesceEnd _
  | .overvoltage _ | .overvoltageEnd _ | .powerLoss _ _ | .powerUp _ | .perstN _ | .hotReset _ | .flr _
  | .sidebandRead _ _ | .sidebandWrite _ _ _ _ | .sidebandAlert _ _ | .sidebandReset _ _ _ | .entdaa _
  | .setdasa _ _ | .rstdaa | .enec | .disec | .getpid | .getbcr | .getdcr | .getstatus | .rstact _ _
  | .msgResend _ | .contribResend _ | .collWait _ | .devCtl _ | .devCtlReset _ | .ldgDbValue _
  | .ldgDbDiscard | .errPop _ | .errIrq _ | .admCmdPush _ | .admCplPop _ | .snap | .clearAll
  | .fwdData _ _ | .recData _ | .pieceDone | .finish _ | .abort | .burWinSel _ | .telRelayTo
  | .flashWriteEnd => true

end Sys2Proof
end

