-- ==== Sys2Proof/Safety.lean ====
section
/-! DEFINITION. What the claims call a sound state: posted memories in their one form, a queue of well-formed
commands. -/

namespace Sys2Proof.Machine

/-- A job's posted memories are in their canonical form. -/
def Job.memWf (j : Job) : Bool := j.tills.all Mem.wf && j.vault.wf && j.hbm.wf

/-- Every posted memory of the block is in its canonical form, and so is what it wrote into host memory. -/
def State.memWf (s : State) : Bool := s.jobs.all Job.memWf && cellsWf 0 s.out.hostMem

/-- Every command that waits is well-formed. -/
def State.queueWf (s : State) : Bool := s.pending.all Instr.wf

/-- The invariant that every step keeps. -/
def State.Inv (s : State) : Prop := s.memWf = true ∧ s.queueWf = true

/-! ### Words of the claims -/

/-- The device takes the entry at HEAD of ring `f.ring`, one of a kind: `r` is the ring and `c` the entry, which is
not poisoned and carries its own index (R245, R246, R289). -/
def State.takes (s : State) (f : Fetch) (kind : Nat) (r : Ring) (c : Cmd) : Prop :=
  s.ringLive f.ring kind f = some r ∧ s.ringPoison r = false ∧ c = s.cmdAt f.ring r f
    ∧ bits (c.w 0) 31 0 = r.head.toNat

/-- The entry is a host command of an opcode that breaks no rule of R249 and R251. -/
def State.accepts (s : State) (f : Fetch) (op : Nat) (r : Ring) (c : Cmd) : Prop :=
  s.takes f 0 r c ∧ c.opcode = op ∧ s.cmdCheck c = 0

/-- A command takes an entry: a member's reads of host memory go out, and HEAD moves past it. -/
def State.consumed (s : State) (f : Fetch) (r : Ring) : State :=
  (s.fetched f r).setRing f.ring { r with head := r.head + 1 }

/-- What a record of slot `d` leaves that meets no error: its reads and the pages they lie in are noted, its writes stand
in escrow, it is in flight, and the events that its data causes are raised (R227, R235, R275, R283). -/
def State.left (s : State) (i : Iss) (d : Nat) (o : RecOut) : State :=
  ((o.raises.foldl (fun s x => s.recEvent i d x)
    ((s.markRead i.run d ((s.ctx i.job i.run d).reads i.rec_ i.rec2)).advance i.job
      (i.after d o (digestOf (o.digestAs.getD o.writes)) (i.flight d) (s.bankAfter i d)))).markCheck i d).armReport i d

/-- All that the reports of a command (records, completions, interrupts, and the transactions that carry them) leave
alone. -/
def State.rest (s : State) := (s.pending, s.time, s.mod, s.i3c, s.regions, s.fabrics, s.flash, s.cores, s.chans,
    s.dies, s.dieRecs, s.lmap, s.hbmMap, s.spared, s.hbmBytes, s.spareGb, s.pageMap, s.seqTab, s.batches, s.stamp, s.wback,
    s.runs, s.lastSlots, s.asy, s.fab)

/-- Supply, temperature, device time, and where logical cores and HBM frames are placed. -/
def State.placed (s : State) := (s.time, s.mod, s.i3c, s.regions, s.fabrics, s.dieRecs, s.lmap, s.hbmMap,
    s.spared, s.hbmBytes, s.spareGb)

/-- The resident jobs with their posted memories and page maps, and the requests that wait for them. -/
def State.work (s : State) := (s.jobs, s.pageMap, s.queued0, s.seqTab, s.batches, s.stamp, s.wback)

/-- The resident jobs and their posted memories, their sequences and batches, and where they are placed. -/
def State.posted (s : State) := (s.jobs, s.pageMap, s.queued0, s.seqTab, s.batches, s.stamp, s.wback, s.dies, s.dieRecs,
    s.lmap, s.hbmMap, s.spared, s.hbmBytes, s.spareGb, s.lastSlots)

/-! ### Values -/

/-- The rational number that an exact fraction stands for. -/
def Frac.rat (x : Frac) : Rat := (x.num : Rat) / (x.den : Rat)

/-- `round_int` on a non-negative rational, as R60 writes it. -/
def roundRat (y : Rat) (mode : Rnd) : Nat :=
  let q := y.floor.toNat
  let r := y - (q : Rat)
  match mode with
  | .rne => if 1 / 2 < r ∨ (r = 1 / 2 ∧ q % 2 = 1) then q + 1 else q
  | .rto => if 0 < r then q ||| 1 else q

/-- A decoded value that is zero or finite: the operands for which the spec's formulas are sums and products. -/
def Val.exact (v : Val) : Prop := ((v.cls = .zero ∧ v.num = 0) ∨ (v.cls = .finite ∧ 0 < v.num)) ∧ 0 < v.den

/-- What a planchet product adds to a lane of the exact path, in units of 2^−112; a product that is zero or invalid
adds nothing (R58, R73). -/
def Product.units (p : Product) : Int :=
  if p.cls = .finite then
    (if p.neg then -1 else 1)
      * (if 0 ≤ p.exp + 112 then (p.mag : Int) * 2 ^ (p.exp + 112).toNat else (p.mag : Int) / 2 ^ (-(p.exp + 112)).toNat)
  else 0

end Sys2Proof.Machine

namespace Sys2Proof

/-! ### What commands of a kind leave alone -/

/-- Commands that may change the supply, the module's own registers, device time, the timing regions, the dies' boot
data, or the placement of logical cores and HBM frames. -/
def Instr.movesPlacement : Instr → Bool
  | .jobLoad .. | .dieBank .. | .warmReset .. | .stepBoundary .. | .stepCheck .. | .stepPost .. | .lockstep ..
  | .retirement | .sparingRefill | .assayRunEnd .. | .ageing .. | .powerCap .. | .powerOver .. | .thermalCap ..
  | .thermalAlert .. | .coolant .. | .thermtrip .. | .refreshDoubled .. | .refreshNormal .. | .flashGateClose ..
  | .flashGateOpen .. | .sagCap .. | .sagCapEnd .. | .quiesce .. | .quiesceEnd .. | .overvoltage ..
  | .overvoltageEnd .. | .powerLoss .. | .powerUp .. | .railFault .. | .perstN .. | .hotReset .. | .flr ..
  | .relayWrite .. | .sidebandWrite .. | .sidebandReset .. | .entdaa .. | .setdasa .. | .rstdaa | .enec | .disec
  | .rstact .. | .wr .. | .fenceReq .. | .unfenceReq .. | .stageCommit .. | .devCtlReset .. | .finish ..
  | .registerWrite .. | .thermalAlertClear .. | .assayRunLimit .. => true
  | _ => false

/-- Commands that may change resident jobs, their posted memories, or the requests that wait for them. -/
def Instr.touchesWork : Instr → Bool
  | .jobLoad .. | .stepRun .. | .snapshot .. | .jobEnd .. | .jobEndEffect .. | .jobAbort .. | .ringAlloc ..
  | .ringFree .. | .seqOpen .. | .seqClose .. | .boundary .. | .dieBank .. | .assayInstall .. | .assayRemove ..
  | .assayRequest .. | .fwStage .. | .fwSwitch .. | .fwCommit .. | .configInstall .. | .attest .. | .warmReset ..
  | .sequenceRequest .. | .boundaryMarker .. | .batchTimer .. | .rngFill .. | .move .. | .atomT256 ..
  | .atomFp32 .. | .millLoad .. | .millPass .. | .add .. | .sub .. | .mul .. | .mad .. | .min .. | .max ..
  | .abs .. | .neg .. | .cvt .. | .sel .. | .cmpge .. | .finDrain .. | .finReduce .. | .finCheck .. | .frmEval ..
  | .frmSmaxAcc .. | .frmSmaxOut .. | .frmRms .. | .collSend .. | .stepSelect | .stepBoundary .. | .stepCheck ..
  | .stepPost .. | .escrowWriteBack .. | .recountRun .. | .lockstep .. | .regeneration .. | .scrub ..
  | .eccRewrite .. | .assayRotation .. | .assayRunEnd .. | .thermtrip .. | .quiesceEnd .. | .overvoltageEnd ..
  | .powerLoss .. | .powerUp .. | .railFault .. | .perstN .. | .hotReset .. | .flr .. | .relayWrite ..
  | .sidebandWrite .. | .sidebandReset .. | .rstact .. | .wr .. | .msg .. | .fenceReq .. | .unfenceReq ..
  | .devCtlReset .. | .ldgDbValue .. | .admCmdPush .. | .admCplPop .. | .finish .. | .registerWrite ..
  | .assayRunLimit .. | .flashWriteEnd | .flashGateOpen .. | .retirement | .response .. | .folioClaim ..
  | .msgResend .. => true
  | _ => false

/-- A record that issues from a slot's stream: the slot, and what its checks find (R225, R229). -/
def Instr.issues : Instr → Option (Nat × Chk)
  | .nop d chk | .rngFill d chk | .move d chk | .atomT256 d chk | .atomFp32 d chk | .collSend d chk
  | .millLoad d chk | .millPass d chk | .add d chk | .sub d chk | .mul d chk | .mad d chk
  | .min d chk | .max d chk | .abs d chk | .neg d chk | .cvt d chk | .sel d chk | .cmpge d chk
  | .finDrain d chk | .finReduce d chk | .finCheck d chk | .frmEval d chk | .frmSmaxAcc d chk
  | .frmSmaxOut d chk | .frmRms d chk => some (d, chk)
  | _ => none

end Sys2Proof
end

