-- ==== Sys2Proof/Certificates/Slice0/Obligations.lean ====
section
/-! DEFINITION. The statements about the block, each from the numbered rules of the spec that its docstring names. -/

open Sys2Proof Sys2Proof.Machine

/-- O1. A step runs the command at the front of the queue. For every command c and state s: one step of s with c
put at the front of its queue is exec of c on s with the rest of the queue. The queue is the block model's own (log
18). (From 95_what_each_step_holds.md.) -/
def Obligations.StepRunsFrontCommand : Prop :=
  ∀ (c : Instr) (s : State) (rest : List Instr), step { s with pending := c :: rest } = exec c { s with pending := rest }

/-- O2. With an empty queue a step only lets device time and the beat counters run, and ends a switch whose second
has passed. DESIGN CHOICE (log 18): with no command waiting, a step answers the same state but for device time,
which passes by 1 us while the management rails are up, and the beat counters of the self-timed domains, which
advance at their capped rates while the rails are up: a region only while its own rail is in regulation. A firmware
switch that waits out its first second (R417, log 30) is sealed once more than 1 s of device time has passed since
it; without one, and within the second, nothing more happens. (From R26, R27, R417.) -/
def Obligations.IdleStepLetsTimePass : Prop :=
  ∀ s : State, s.pending = [] → ∃ t : State, step s = .next t.endSwitch
    ∧ t = { s with time := t.time, regions := t.regions, fabrics := t.fabrics }
    ∧ (s.su.revert = none → t.endSwitch = t)
    ∧ (∀ v, s.su.revert = some v → t.endSwitch = if (t.time - v.time).toNat ≤ 1000000000 then t else t.sealSwitch v)
    ∧ (s.mod.mgmtUp = true → t.time = s.time + 1000) ∧ (s.mod.mgmtUp = false → t.time = s.time)
    ∧ (s.mod.railsUp = false → t.regions = s.regions ∧ t.fabrics = s.fabrics)
    ∧ (s.mod.railsUp = true → (∀ r, r < 32 →
        t.region r = if (s.region r).rail = true
          then { s.region r with beats := (s.region r).beats + BitVec.ofNat 64 (s.regionRate r) } else s.region r)
      ∧ ∀ b, b < 4 →
        t.fabric b = { s.fabric b with beats := (s.fabric b).beats + BitVec.ofNat 64 (s.fabricRate b) })

/-- O3. The reset state meets the invariant. The state before power-up has no resident job, an empty host-memory
record and an empty queue, so every memory is in its canonical form and every waiting command is well-formed. (From
R237, R253, R401.) -/
def Obligations.ResetStateIsSound : Prop :=
  State.reset.Inv

/-- O4. Every step keeps every memory in its canonical form and the queue well-formed. For every state s with Inv s
(each posted till, vault and HBM of every resident job lists its bytes by strictly rising address, none equal to 0,
with its poisoned blocks rising; so does the host memory written; and every waiting command is well-formed), if a
step of s answers next t then Inv t. (From R239, R253, R263, R275.) -/
def Obligations.StepKeepsSoundState : Prop :=
  ∀ s t : State, s.Inv → step s = .next t → t.Inv

/-- O5. No command changes the queue of waiting commands. For every command and every state whose memories are in
canonical form: where the command answers a next state, the commands that waited behind it wait there unchanged,
and the memories are in canonical form again. (From 95_what_each_step_holds.md, R237.) -/
def Obligations.CommandsLeaveTheQueue : Prop :=
  ∀ (c : Instr) (s t : State), s.memWf = true → exec c s = .next t → t.pending = s.pending ∧ t.memWf = true

/-- O6. Every command completes in every state, but for a register access that is not aligned. Whatever the state
and the operands, a command answers a next state. The one exception is a register access whose offset is not a
multiple of 4 or lies outside the 64 MiB window, which R10 forbids and for which the spec gives no outcome: it
stops with the fault misaligned, which is the model's choice (DESIGN CHOICE, log 46), and only the eight register
commands can: COUNTER_LO_WRITE, COUNTER_LO_READ, COUNTER_HI_WRITE, REGISTER_WRITE, RELAY_READ, RELAY_WRITE,
SIDEBAND_READ and SIDEBAND_WRITE. No command is refused. (From R10, R12, R251.) -/
def Obligations.EveryCommandAnswers : Prop :=
  ∀ (c : Instr) (s : State), (∃ t, exec c s = .next t)
    ∨ ∃ off : W32, regAligned off = false ∧ exec c s = .fault (.misaligned off)
      ∧ ((∃ v, c = .counterLoWrite off v) ∨ c = .counterLoRead off ∨ (∃ v, c = .counterHiWrite off v)
        ∨ (∃ v env, c = .registerWrite off v env) ∨ (∃ pos, c = .relayRead pos off)
        ∨ (∃ pos v env, c = .relayWrite pos off v env) ∨ c = .sidebandRead off true
        ∨ ∃ v env, c = .sidebandWrite off v true env)

/-- O7. STEP_RUN, SNAPSHOT, JOB_END and JOB_ABORT complete with their effects on the job. For every entry that the
device takes as one of these commands (R249, R251 broken by none of its words) of a resident job: STEP_RUN joins
the job's queue of step requests with TEMPLATE, COUNT (0: without limit) and the next order stamp; SNAPSHOT with a
host location waits for the next step boundary; JOB_END waits for the current step; JOB_ABORT completes with 0, its
job and its run are gone. HEAD of the command ring moves by one. Each next state of the first three is written out
whole: everything else is unchanged. Readings that the rules leave open are the model's: log 25. (From R237, R238,
R245, R248, R251, R252.) -/
def Obligations.JobCommandsAct : Prop :=
  (∀ (s : State) (f : Fetch) (r : Ring) (c : Cmd) (j : Job), s.accepts f 0x02 r c → s.job c.job = some j →
    c.w 1 < j.bin.templates →
    exec (.stepRun f) s = .next { (s.consumed f r).setJob { j with queue := j.queue ++
        [{ template := c.w 1, left := if c.w 2 = 0 then none else some (c.w 2), posted := 0, locked := true
           ring := f.ring, seq := r.head, stamp := s.stamp }] } with stamp := s.stamp + 1 })
  ∧ (∀ (s : State) (f : Fetch) (r : Ring) (c : Cmd) (j : Job), s.accepts f 0x03 r c → s.job c.job = some j →
    bits (c.w 2) 63 62 = 1 →
    exec (.snapshot f) s = .next ((s.consumed f r).setJob { j with snaps := j.snaps ++
        [{ addr := c.w 1, len := bits (c.w 2) 47 0, ring := f.ring, seq := r.head.toNat }] }))
  ∧ (∀ (s : State) (f : Fetch) (r : Ring) (c : Cmd) (j : Job), s.accepts f 0x04 r c → s.job c.job = some j →
    j.ending = none →
    exec (.jobEnd f) s = .next ((s.consumed f r).setJob { j with ending := some (f.ring, r.head.toNat) }))
  ∧ (∀ (s : State) (f : Fetch) (r : Ring) (c : Cmd) (j : Job), s.accepts f 0x05 r c → s.job c.job = some j →
    ∃ t, exec (.jobAbort f) s = .next t ∧ t = (((s.consumed f r).closeJob c.job 0).finish c 0).dropJob c.job
      ∧ t.job c.job = none ∧ t.run c.job = none)

/-- O8. RING_ALLOC, RING_FREE and BOUNDARY complete with their effects on the rings. For every entry taken as one
of these commands and passing its checks: RING_ALLOC puts the ring that the 32-byte descriptor at its location
describes under the lowest free number from 16 up, writes the number into the descriptor and completes with it;
RING_FREE removes the named ring and completes with 0; BOUNDARY on a sequence request ring with room writes a
marker entry (opcode 0x21, the job) at the ring's TAIL, with the ring's interrupt, and completes with 0. The next
state is written out in the named operations for a completion (finish, finishWith), an entry with its interrupt
(produceIrq), whose own frame is stated in ReportsTouchOnlyReports. Readings that the rules leave open are the
model's: log 31. (From R244, R245, R246, R249, R256.) -/
def Obligations.RingCommandsAct : Prop :=
  (∀ (s : State) (f : Fetch) (r : Ring) (c : Cmd) (w : List Nat) (n : Nat), s.accepts f 0x06 r c →
    s.locPoison c 32 = none → 32 ≤ bits (c.w 2) 47 0 →
    w = (wordsOf (bytesAt (s.locBytes c (c.w 1) (c.w 2) c.data) 0 32)).take 4 →
    (s.consumed f r).descCheck c.job w = 0 →
    lowestFree ((s.consumed f r).rings.map (·.1)) 16 (2 ^ 20 - 16) = some n →
    exec (.ringAlloc f) s = .next
      ((((s.consumed f r).setRing n (ringOf w)).writeDesc c (nthD 0 w 3) n).finishWith c n 0))
  ∧ (∀ (s : State) (f : Fetch) (r : Ring) (c : Cmd) (x : Ring), s.accepts f 0x07 r c →
    (s.consumed f r).ring (c.w 1) = some x → 16 ≤ c.w 1 → x.job = c.job →
    exec (.ringFree f) s = .next
      (({ s.consumed f r with rings := del (c.w 1) (s.consumed f r).rings }).finish c 0))
  ∧ (∀ (s : State) (f : Fetch) (r : Ring) (c : Cmd) (x : Ring), s.accepts f 0x0A r c →
    (s.consumed f r).ring (c.w 1) = some x → 16 ≤ c.w 1 → x.job = c.job → x.kind = 3 → x.full = false →
    exec (.boundary f) s = .next (((s.consumed f r).produceIrq (c.w 1) x
      [BitVec.ofNat 64 (0x21 * 2 ^ 56 + c.job * 2 ^ 32), 0, 0, 0, 0, 0, 0, 0]).finish c 0))

/-- O9. Sequences open, take requests and close; batches close by marker and by timer. SEQ_OPEN takes the lowest
free index of the 2,048 with the job, logical core, batch rule, cache descriptor and request ring of its word 1,
length 0, and completes with the index. SEQ_CLOSE frees the entry, or marks it closing while a batch holds a
request of it. A SEQUENCE_REQUEST of an open sequence below the length limit enters the sequence's batch at the
present length, and the length grows by one. A BOUNDARY_MARKER closes the first open batch of every key whose rule
enables markers and whose sequences use the ring; BATCH_TIMER closes the first open batch of its logical core and
rule, where the rule has a timer. Next states are written out whole: nothing else changes but what a completion
reports. Readings that the rules leave open are the model's: log 31. (From R122, R123, R254, R255, R256.) -/
def Obligations.SequenceCommandsAct : Prop :=
  (∀ (s : State) (f : Fetch) (r : Ring) (c : Cmd) (j : Job) (i : Nat), s.accepts f 0x08 r c →
    s.job c.job = some j → (s.consumed f r).seqRing c.job (bits (c.w 1) 46 27) = true →
    bits (c.w 1) 14 9 < j.bin.batch.length → lowestFree (s.seqTab.map (·.1)) 0 2048 = some i →
    exec (.seqOpen f) s = .next (({ s.consumed f r with
      seqTab := put i { closing := false, job := c.job, lcore := bits (c.w 1) 8 0, rule := bits (c.w 1) 14 9
                        cacheDesc := bits (c.w 1) 26 15, length := 0, reqRing := bits (c.w 1) 46 27 } s.seqTab }).finishWith c i 0))
  ∧ (∀ (s : State) (f : Fetch) (r : Ring) (c : Cmd) (e : SeqEntry), s.accepts f 0x09 r c →
    s.seqOf c.job (c.w 1) = some e →
    exec (.seqClose f) s = .next (({ s.consumed f r with
      seqTab := if s.batches.any (fun b => b.reqs.any (fun q => q.index == c.w 1))
        then put (c.w 1) { e with closing := true } s.seqTab else del (c.w 1) s.seqTab }).finish c 0))
  ∧ (∀ (s : State) (f : Fetch) (r : Ring) (c : Cmd) (e : SeqEntry), s.takes f 3 r c → c.opcode = 0x20 →
    c.seqWf r.job = true → s.seqOf r.job (bits (c.w 1) 10 0) = some e → e.closing = false → e.length < 16777215 →
    exec (.sequenceRequest f) s = .next { s.consumed f r with
      seqTab := put (bits (c.w 1) 10 0) { e with length := e.length + 1 } s.seqTab
      batches := enter r.job e.lcore e.rule (batchCount (s.batchRule r.job e.rule))
        ⟨bits (c.w 1) 10 0, e.length, (List.range 5).map (fun k => BitVec.ofNat 64 (c.w (2 + k)))⟩ s.batches })
  ∧ (∀ (s : State) (f : Fetch) (r : Ring) (c : Cmd), s.takes f 3 r c → c.opcode = 0x21 → c.seqWf r.job = true →
    (∀ i, i < 6 → c.w (i + 1) = 0) →
    exec (.boundaryMarker f) s = .next { s.consumed f r with
      batches := closeFirst (s.marked r.job f.ring) [] s.batches })
  ∧ (∀ (s : State) (job : BitVec 16) (lcore rule : Nat), batchTimerOf (s.batchRule job.toNat rule) ≠ 0 →
    exec (.batchTimer job lcore rule) s = .next { s with
      batches := closeFirst (fun b => b.job == job.toNat && b.lcore == lcore && b.rule == rule) [] s.batches })

/-- O10. JOB_LOAD makes an accepted binary resident, alone or resumed from a snapshot. For every entry taken as
JOB_LOAD whose own words break nothing: a binary that the loader accepts becomes a resident job, with its initial
images applied, at the end of the residents, the logical cores are mapped anew, and the completion with 0 carries
RESULT0 = word 4. With the snapshot bit an image that does not fit the job completes with SNAPSHOT_MISMATCH and
loads nothing; one that fits is taken first, its regenerable regions are regenerated and its sequences are entered;
a region that fails to regenerate completes with that fault's code and loads nothing. A binary that the loader
rejects completes with the first rejection's record, section and code and changes nothing else. The command's own
words that break a rule complete with that rule's code. While a retirement is due the command waits (R294): nothing
happens. Readings that the rules leave open are the model's: log 14, 28, 36. (From R23, R243, R248, R250, R252,
R257, R294.) -/
def Obligations.JobLoadActs : Prop :=
  (∀ (s : State) (f : Fetch) (r : Ring) (c : Cmd) (bs : List Byte) (j : Job), s.accepts f 0x01 r c → s.retireDue = false →
    (s.consumed f r).loadCheck c = 0 → bs = s.locBytes c (c.w 1) (c.w 2) c.data →
    (s.consumed f r).loadReject c.load bs = none → j = (c.load.job (binaryOf bs)).applyImages →
    (c.load.snap = false → exec (.jobLoad f) s = .next ((s.consumed f r).makeResident c j))
    ∧ ∀ (img : List Byte), c.load.snap = true → img = s.locBytes c (c.w 5) (c.w 6) c.snap →
      ((s.consumed f r).snapBad c.load j img = true →
        exec (.jobLoad f) s = .next ((s.consumed f r).pushCpl
          { c.cpl 0x0408 with record := 0, section_ := 0, result0 := c.w 4 }))
      ∧ ((s.consumed f r).snapBad c.load j img = false →
        exec (.jobLoad f) s = .next (match (s.consumed f r).regenAll (j.takeImage img).regen (j.takeImage img) with
          | .done k => ({ s.consumed f r with
              freeCtr := s.freeCtr + redoFuel k 0 + 1
              seqTab := (snapSeqs img).foldl (fun l (x : Nat × Nat) => put x.1 (SeqEntry.ofCode x.2 k.num) l)
                s.seqTab }).makeResident c k
          | .fault code _ => (s.consumed f r).pushCpl
              { c.cpl code with record := 0, section_ := 0, result0 := c.w 4 })))
  ∧ (∀ (s : State) (f : Fetch) (r : Ring) (c : Cmd) (x : Reject), s.accepts f 0x01 r c → s.retireDue = false →
    (s.consumed f r).loadCheck c = 0 →
    (s.consumed f r).loadReject c.load (s.locBytes c (c.w 1) (c.w 2) c.data) = some x →
    exec (.jobLoad f) s = .next ((s.consumed f r).pushCpl
      { c.cpl x.code with record := x.rec_, section_ := x.sec, result0 := c.w 4 }))
  ∧ (∀ (s : State) (f : Fetch) (r : Ring) (c : Cmd) (n : Nat), s.accepts f 0x01 r c → s.retireDue = false →
    (s.consumed f r).loadCheck c = n + 1 →
    exec (.jobLoad f) s = .next ((s.consumed f r).pushCpl
      { c.cpl (n + 1) with record := 0, section_ := 0, result0 := c.w 4 }))
  ∧ ∀ (s : State) (c : Cmd) (j : Job),
    (∀ f, s.retireDue = true → exec (.jobLoad f) s = .next s)
    ∧ ((s.makeResident c j).jobs.map (·.num)) = s.jobs.map (·.num) ++ [j.num] ∧ (s.makeResident c j).lmap = mapR23 s.healthyIn

/-- O11. ASSAY_INSTALL, ASSAY_REMOVE and ASSAY_REQUEST complete with their effects. With the flash gate open: a set
that passes the checks of its record is stored in its slot (its own, or the lowest free of 16), its digest extends
the run-time measurement as type 6, and event ASSAY_SET is written, before the completion with 0; a set that is
found and may be removed is erased, measured and reported likewise. A request for cores of which none is under a
request, of a set that exists (or of every on-demand set), takes the next stamp, queues the assays of its cores in
the order that it lists them, and completes when they end. Readings that the rules leave open are the model's: log
29. (From R378, R380, R386, R411.) -/
def Obligations.AssayCommandsAct : Prop :=
  (∀ (s : State) (f : Fetch) (r : Ring) (c : Cmd) (item : List Byte) (k : Nat), s.accepts f 0x0C r c →
    s.mod.flashGate = false → item = s.locBytes c (c.w 1) (c.w 2) c.data →
    (s.consumed f r).installCode item = 0 → s.flash.slotFor (assaySetOf item).setId = some k →
    exec (.assayInstall f) s = .next (((((s.consumed f r).storeSet (assaySetOf item) k).extendRun 6
      (assaySetOf item).digest).setEvent (assaySetOf item).setId (assaySetOf item).setVer 1 0).finish c 0))
  ∧ (∀ (s : State) (f : Fetch) (r : Ring) (c : Cmd) (k : Nat) (x : AssaySet), s.accepts f 0x0D r c →
    s.mod.flashGate = false → s.flash.slotOf (c.w 1) = some k → s.flash.setById (c.w 1) = some x →
    c.w 1 ≠ 1 → s.erasedLately k = false →
    exec (.assayRemove f) s = .next (((((s.consumed f r).eraseSet k).extendRun 6 x.digest).setEvent
      (c.w 1) x.setVer 2 0).finish c 0))
  ∧ (∀ (s : State) (f : Fetch) (r : Ring) (c : Cmd) (cores ids : List Nat), s.accepts f 0x0E r c →
    ids = (if bits (c.w 1) 31 16 = 0 then s.flash.setIds (·.demand) else [bits (c.w 1) 31 16]) →
    (s.consumed f r).requestCores (bits (c.w 1) 63 62) (bits (c.w 1) 15 0) = some cores →
    (bits (c.w 1) 31 16 ≠ 0 → (s.flash.setById (bits (c.w 1) 31 16)).isSome = true) →
    (∀ p ∈ cores, s.underRequest p = false) → ids ≠ [] → cores ≠ [] →
    exec (.assayRequest f) s = .next ((((s.consumed f r).setAsy { s.asy with
      nextStamp := s.asy.nextStamp + 1, reqs := s.asy.reqs ++ [⟨s.asy.nextStamp, c.waiting, 0⟩] }).queueAssays
        cores ids (.request s.asy.nextStamp) (bit (c.w 1) 61)).assaySettle))

/-- O12. DIE_BANK writes a signed record into every core's inactive bank, or refuses it with its code. With the
flash gate open: a record that verifies and whose slots pass the checks of R196 completes with 0, and then every
physical core that is not withdrawn holds the record (tag and new record number) in the bank that was inactive; a
core that hosts no job and is not under assay has switched to that bank and counts the switch, every other core
keeps its active bank with the reload pending. Flash holds the record as the one last accepted. A record that fails
is reported (event 0x1D) and completes with the code of its first failing check. With the gate closed it completes
with FLASH_BUSY (0x0309) and no other effect. Readings that the rules leave open are the model's: log 12. (From
R193, R196, R251, R408.) -/
def Obligations.DieBankActs : Prop :=
  (∀ (s : State) (f : Fetch) (r : Ring) (c : Cmd) (item : List Byte) (b : DieBank), s.accepts f 0x0B r c →
    s.mod.flashGate = false → item = s.locBytes c (c.w 1) (c.w 2) c.data → s.dieBankCode item = 0 →
    b = ⟨BitVec.ofNat 32 (natAt item 4 2 * 65536 + natAt item 6 2), s.dieRecs.foldl (fun m x => max m (x.1 + 1)) 1⟩ →
    ∃ t, exec (.dieBank f) s = .next t ∧ t = ((s.consumed f r).reload item).finish c 0
      ∧ (∃ v, t.flash.dieRec = some v ∧ v.digest = Config.sha384 item ∧ v.slots = recSlots item)
      ∧ ∀ p, p < 576 → s.isFenced 1 p = false →
        (if (s.core p).active then (t.core p).bank0 else (t.core p).bank1) = b
        ∧ (if (s.core p).active then (t.core p).bank1 else (t.core p).bank0)
          = (if (s.core p).active then (s.core p).bank1 else (s.core p).bank0)
        ∧ (s.coreHasJob p = true ∨ s.underAssay p = true →
          (t.core p).active = (s.core p).active ∧ (t.core p).pending = true)
        ∧ (s.coreHasJob p = false → s.underAssay p = false → (t.core p).active = !(s.core p).active
          ∧ (t.core p).pending = false ∧ (t.core p).switches = (s.core p).switches + 1))
  ∧ (∀ (s : State) (f : Fetch) (r : Ring) (c : Cmd) (n : Nat), s.accepts f 0x0B r c → s.mod.flashGate = false →
    s.dieBankCode (s.locBytes c (c.w 1) (c.w 2) c.data) = n + 1 →
    exec (.dieBank f) s = .next (((s.consumed f r).raise { code := 0x1D }).finish c (n + 1)))
  ∧ (∀ (s : State) (f : Fetch) (r : Ring) (c : Cmd), s.accepts f 0x0B r c → s.mod.flashGate = true →
    exec (.dieBank f) s = .next ((s.consumed f r).finish c 0x0309))

/-- O13. FW_STAGE, FLASH_WRITE_END, FW_SWITCH, FW_COMMIT, CONFIG_INSTALL and ATTEST complete with their effects.
FW_STAGE of an image that verifies erases the inactive slot and notes the time; FLASH_WRITE_END, once the write
ends, puts the image into that slot with its event and completes the command; FW_SWITCH waits for the next step
boundary; FW_COMMIT ends the trial, appends the image's security-version record where that is above the head and
linked to it, and completes with 0; CONFIG_INSTALL keeps the record (types 3 and 4 in effect at once), measures it
and completes with 0; ATTEST writes the 192-byte report and its signature block to the host address of word 5 and
completes with RESULT0 = 3,584. Each with the conditions that the rules give; nothing else changes. Readings that
the rules leave open are the model's: log 13, 30. (From R403, R412, R413, R414, R416, R417, R418.) -/
def Obligations.FirmwareCommandsAct : Prop :=
  (∀ (s : State) (f : Fetch) (r : Ring) (c : Cmd) (item : List Byte), s.accepts f 0x0F r c →
    item = s.locBytes c (c.w 1) (c.w 2) c.data → s.stageBusy = 0 → (s.consumed f r).imageCode item = 0 →
    exec (.fwStage f) s = .next { s.consumed f r with
      flash := { s.flash.setImage (!s.su.slot) none with staged := some s.time }
      su := { s.su with fwStaging := some (c.waiting, (s.consumed f r).imageOf item) } })
  ∧ (∀ (s : State) (w : Waiting) (img : FwImage), s.su.fwStaging = some (w, img) → s.mod.flashGate = false →
    s.ready = true → exec .flashWriteEnd s = .next (({ s with
      flash := s.flash.setImage (!s.su.slot) (some img), su := { s.su with fwStaging := none } }.stageEvent
        img.head.svn 0).finishLate w 0x0F 0 0 0 0 0))
  ∧ (∀ (s : State) (f : Fetch) (r : Ring) (c : Cmd), s.accepts f 0x10 r c → s.switchCode = 0 →
    exec (.fwSwitch f) s = .next { s.consumed f r with su := { s.su with fwSwitch := some ⟨c.waiting, s.time⟩ } })
  ∧ (∀ (s : State) (f : Fetch) (r : Ring) (c : Cmd) (b : Boot) (x : State), s.accepts f 0x11 r c →
    s.su.trial = true → s.mod.flashGate = false → b = s.flash.settled.boot →
    x = (({ s.consumed f r with su := { s.su with trial := false } }).flashWrite
        (.boot { b with trial := false, tries := 0, seq := b.seq + 1 })).1 →
    (s.appends = none → exec (.fwCommit f) s = .next (x.finish c 0))
    ∧ ∀ v : SvRec, s.appends = some v →
      exec (.fwCommit f) s = .next (((x.flashWrite (.chain v)).1.extendRun 3 v.digest).finish c 0))
  ∧ (∀ (s : State) (f : Fetch) (r : Ring) (c : Cmd) (item : List Byte) (t : Nat) (v : CfgRec) (x : State),
    s.accepts f 0x12 r c → item = s.locBytes c (c.w 1) (c.w 2) c.data → t = cfgType item →
    (s.consumed f r).configCode item = 0 →
    v = ⟨BitVec.ofNat 64 (cfgSeq item), sigKeyId item, Config.sha384 item, Config.cfgBody t (cfgBodyBytes item)⟩ →
    x = ((s.consumed f r).flashWrite (.config t v item.length)).1 →
    exec (.configInstall f) s = .next ((((if 3 ≤ t then { x with su := { x.su with cfg := put t v x.su.cfg } } else x).raise
      { code := 0x2C, info := true, w6 := t * 2 ^ 56 + cfgSeq item % 2 ^ 56, w7 := v.keyId.toNat }).extendRun 4
        v.digest).finish c 0))
  ∧ (∀ (s : State) (f : Fetch) (r : Ring) (c : Cmd) (rep : List Byte), s.accepts f 0x13 r c →
    3584 ≤ bits (c.w 6) 47 0 → s.su.identityOk = true →
    rep = (s.consumed f r).report ((List.range 4).flatMap (fun i => leBytes 8 (c.w (1 + i)))) →
    exec (.attest f) s = .next (((s.consumed f r).hostWrite (c.w 5)
      (rep ++ (s.consumed f r).reportBlock rep)).finishWith c 3584 0))

/-- O14. WARM_RESET, PERST_N, HOT_RESET, FLR, DEV_CTL reset, SIDEBAND_RESET and RSTACT 0x02 all end every job and
start again from order 2. With the rails up each of the seven resets answers a next state in which nothing is left
of the jobs and of the requests, batches and completions that waited for them, and in which start-up has run from
order 2 on a state that keeps the fields marked (C), the fences and the flash. WARM_RESET writes its completion
first. HOT_RESET and FLR need the teller's PCIe link; SIDEBAND_RESET needs 0xA5A5 and the PEC; that RSTACT 0x02 is
the whole-target reset is PRESUMED (log 6). With the rails down, at a device that is no teller for HOT_RESET and
FLR, and for another RSTACT action nothing is reset; another offset or a bad PEC answers the sideband with status
2. (From R15, R263, R327, R411, R420, R457.) -/
def Obligations.WarmResetsEndEveryJob : Prop :=
  (∀ (s : State) (env : StartEnv), s.mod.railsUp = true →
    ∃ t, t = s.warmBare.startUp env ∧ t.work = State.reset.work
      ∧ exec (.perstN env) s = .next t ∧ exec (.devCtlReset env) s = .next t
      ∧ (s.su.teller = true → exec (.hotReset env) s = .next t ∧ exec (.flr env) s = .next t)
      ∧ (s.mod.mgmtUp = true → exec (.sidebandReset 0xA5A5 true env) s = .next (t.sbAnswer 0 0)
          ∧ exec (.rstact 2 env) s = .next t))
  ∧ (∀ (s : State) (f : Fetch) (env : StartEnv) (r : Ring) (c : Cmd), s.accepts f 0x14 r c → s.mod.railsUp = true →
    ∃ t, exec (.warmReset f env) s = .next t ∧ t = ((s.consumed f r).finish c 0).warmBare.startUp env
      ∧ t.work = State.reset.work)
  ∧ (∀ s : State, s.warmBare.runs = [] ∧ s.warmBare.rings = [] ∧ s.warmBare.units.fenced =
      (s.units.degraded.filter (fun k => k / 4096 == 4)).foldl (fun l k => insertNat k l) s.units.fenced
    ∧ s.warmBare.regions = s.regions ∧ s.warmBare.fabrics = s.fabrics ∧ s.warmBare.dies = s.dies
    ∧ s.warmBare.flash = (if s.mod.flashGate then s.flash else s.flash.settled).restart
    ∧ s.warmBare.chans = s.chans.map (fun x => (x.1, { Chan.reset with
      trained := x.2.trained, candidate := x.2.candidate, corr := x.2.corr, uncorr := x.2.uncorr }))
    ∧ s.warmBare.asy.rotEn = s.asy.rotEn ∧ s.warmBare.asy.periodH = s.asy.periodH ∧ s.warmBare.asy.arrLimit = s.asy.arrLimit
    ∧ s.warmBare.ports = s.ports.map (fun x => (x.1, { Port.reset with fec := x.2.fec }))
    ∧ s.warmBare.mod = { s.mod with powerCap := 1500, undercut := 0, capBelowPin := false })
  ∧ ∀ (s : State) (env : StartEnv) (off : W32) (ok : Bool) (a : Byte),
    (s.mod.railsUp = false → exec (.perstN env) s = .next s ∧ exec (.devCtlReset env) s = .next s
      ∧ exec (.rstact a env) s = .next s ∧ (s.mod.mgmtUp = true → exec (.sidebandReset 0xA5A5 true env) s = .next (s.sbAnswer 0 0)))
    ∧ (s.mod.railsUp = false ∨ s.su.teller = false → exec (.hotReset env) s = .next s ∧ exec (.flr env) s = .next s)
    ∧ (s.mod.mgmtUp = true → ok = false ∨ off ≠ 0xA5A5 → exec (.sidebandReset off ok env) s = .next (s.sbAnswer 2 0))
    ∧ (s.mod.mgmtUp = false → exec (.sidebandReset off ok env) s = .next s)
    ∧ (s.mod.mgmtUp = false ∨ a ≠ 2 → exec (.rstact a env) s = .next s)

/-- O15. POWER_UP and FINISH start the module; POWER_LOSS takes it down. POWER_UP with PWR_EN low: with MREF
running, the input at 46.0 V or more and every rail up, start-up runs from order 2 at time 0 with the rails up, the
caps at reset, and everything but flash and measurements lost; a region's rail that fails is latched, restarted or
not, and start-up runs; another rail's fault leaves the module at order 1; with no MREF or a lower input nothing
starts, and the management rails stay down. FINISH in phase 0xE with a recovery image that verifies writes it to
slot A, settled and active, and starts from order 2 with REC_STATUS 3; while the flash gate is closed it waits with
REC_STATUS 2. POWER_LOSS drops rails and management rails; the latched causes are kept for the next start. POWER_UP
with PWR_EN high and POWER_LOSS above its threshold with PWR_EN high change nothing; FINISH outside phase 0xE
changes nothing, without pieces it sets REC_STATUS 4, and an image that fails is discarded with REC_STATUS 4.
Readings that the rules leave open are the model's: log 5, 32, 33. (From R418, R421, R426, R432, R434, R436, R458.)
-/
def Obligations.PowerAndRecoveryStartUp : Prop :=
  (∀ (s : State) (env : StartEnv) (m : Module) (b : State), s.mod.pwrEn = false →
    m = s.mod.powered env false →
    b = { s.bare with i3c := ⟨none, true⟩, mod := m, time := 0, flash := s.flash.restart.since s.time } →
    (env.mref = false ∨ env.inMv < 46000 → exec (.powerUp env) s = .next { b with mod := { m with mgmtUp := false } })
    ∧ (env.mref = true → 46000 ≤ env.inMv → env.rail = none → ∃ t, exec (.powerUp env) s = .next t
        ∧ t = { b with mod := { m with railsUp := true } }.startUp env ∧ t.work = State.reset.work)
    ∧ (∀ r v, env.mref = true → 46000 ≤ env.inMv → env.rail = some r → r.rail < 32 →
        v = railWords r.rail r.cause (if r.restarted then 1 else 2) r.mv →
        ∃ t, exec (.powerUp env) s = .next t ∧ t = { b with
          mod := { m with railsUp := true, railLatch := some v } }.startUp env ∧ t.work = State.reset.work)
    ∧ (∀ r v, env.mref = true → 46000 ≤ env.inMv → env.rail = some r → 32 ≤ r.rail →
        v = railWords r.rail r.cause 3 r.mv →
        exec (.powerUp env) s = .next { b with mod := { m with railFault := true, railLatch := some v } }.alertEdge)
    ∧ b.jobs = [] ∧ b.runs = [] ∧ b.rings = [] ∧ m.mgmtUp = true ∧ m.pwrEn = true ∧ m.powerCap = 1500 ∧ m.flashGate = false
    ∧ m.inMv = env.inMv ∧ m.mref = env.mref)
  ∧ (∀ (s : State) (env : StartEnv), s.mod.pwrEn = true → exec (.powerUp env) s = .next s)
  ∧ (∀ (s u : State) (env : StartEnv) (item : List Byte) (f : Flash), s.su.phase = 0xE → s.su.rcv.pieces ≠ [] →
    s.recoveryImage = some item → s.mod.flashGate = false →
    f = (s.flash.setImage false (some (s.imageOf item))).setBoot ⟨false, false, 0, s.flash.boot.seq + 1⟩ →
    u = { s with flash := f } →
    ∃ t, exec (.finish env) s = .next t
      ∧ t = ({ u.warmBare with flash := f }.startUp env).setRcv { Recovery.reset with status := 3 }
      ∧ t.su.rcv = { Recovery.reset with status := 3 } ∧ t.work = State.reset.work)
  ∧ (∀ (s : State) (env : StartEnv), (s.su.phase ≠ 0xE → exec (.finish env) s = .next s)
    ∧ (s.su.phase = 0xE → s.su.rcv.pieces = [] →
      exec (.finish env) s = .next (s.setRcv { s.su.rcv with status := 4 }))
    ∧ (s.su.phase = 0xE → s.su.rcv.pieces ≠ [] → s.recoveryImage = none →
      exec (.finish env) s = .next (s.setRcv { Recovery.reset with status := 4 }))
    ∧ (∀ item, s.su.phase = 0xE → s.su.rcv.pieces ≠ [] → s.recoveryImage = some item → s.mod.flashGate = true →
      exec (.finish env) s = .next (s.setRcv { s.su.rcv with status := 2, waiting := some env })))
  ∧ (∀ (s : State) (mv : Nat) (p : Bool), 40000 ≤ mv → p = true → exec (.powerLoss mv p) s = .next s)
  ∧ (∀ (s : State) (mv : Nat) (p : Bool), mv < 40000 ∨ p = false → ∃ t, exec (.powerLoss mv p) s = .next t
    ∧ t.mod.railsUp = false ∧ t.mod.mgmtUp = false ∧ t.mod.inMv = mv ∧ t.jobs = [] ∧ t.runs = [] ∧ t.rings = []
    ∧ t.su.phase = 0 ∧ t.flash = s.flash.restart ∧ t.mod.tripLatch = s.mod.tripLatch ∧ t.mod.railLatch = s.mod.railLatch
    ∧ t.mod.pwrEn = (s.mod.pwrEn && p) ∧ t.mod.thermTrip = (s.mod.thermTrip && p))

/-- O16. RNG_FILL, MILL_LOAD, MILL_PASS, FIN_DRAIN, FIN_REDUCE and FIN_CHECK issue, have their effect and stand in
flight. For every record of one of these opcodes whose turn runs and whose waits are met, and that meets no fault,
no poison and no error of its reads: the command answers the state in which the reads are noted, the record's
outcome (a function of its own context) stands in escrow, the slot is at its next record, and the record is in
flight. A MILL_PASS also ends the idling of its core's mill (R118). Readings that the rules leave open are the
model's: log 10, 45. (From R105, R107, R128, R142, R150, R154, R227, R242.) -/
def Obligations.EngineRecordsAct : Prop :=
  (∀ (s : State) (d : Nat) (i : Iss) (o : RecOut), s.issueAt d 0x03 = some i → s.armedHbm = false →
    o = doRng (s.ctx i.job i.run d) i.rec_ → o.fault = none → o.consumed = [] →
    exec (.rngFill d .ok) s = .next (s.left i d o))
  ∧ (∀ (s : State) (d : Nat) (i : Iss) (o : RecOut), s.issueAt d 0x40 = some i → s.armedHbm = false →
    o = doMillLoad (s.ctx i.job i.run d) i.rec_ → o.fault = none → o.consumed = [] →
    exec (.millLoad d .ok) s = .next (s.left i d o))
  ∧ (∀ (s : State) (d : Nat) (i : Iss) (o : RecOut), s.issueAt d 0x41 = some i → s.armedHbm = false →
    o = doMillPass (s.ctx i.job i.run d) i.rec_ → o.fault = none → o.consumed = [] →
    exec (.millPass d .ok) s = .next (s.wakeMill (s.left i d o) d))
  ∧ (∀ (s : State) (d : Nat) (i : Iss) (o : RecOut), s.issueAt d 0x5B = some i → s.armedHbm = false →
    o = doDrain (s.ctx i.job i.run d) i.rec_ → o.fault = none → o.consumed = [] →
    exec (.finDrain d .ok) s = .next (s.left i d o))
  ∧ (∀ (s : State) (d : Nat) (i : Iss) (o : RecOut), s.issueAt d 0x5C = some i → s.armedHbm = false →
    o = doReduce (s.ctx i.job i.run d) i.rec_ → o.fault = none → o.consumed = [] →
    exec (.finReduce d .ok) s = .next (s.left i d o))
  ∧ (∀ (s : State) (d : Nat) (i : Iss) (o : RecOut), s.issueAt d 0x5D = some i → s.armedHbm = false →
    o = doCheck (s.ctx i.job i.run d) i.rec_ → o.fault = none → o.consumed = [] →
    exec (.finCheck d .ok) s = .next (s.left i d o))

/-- O17. The eleven elementwise records issue, have their effect and stand in flight. For every record ADD, SUB,
MUL, MAD, MIN, MAX, ABS, NEG, CVT, SEL or CMPGE whose turn runs and whose waits are met, and that meets no fault,
no poison and no error of its reads: the command answers the state in which the reads are noted, the outcome of the
elementwise operation stands in escrow, the slot is at its next record, and the record is in flight. (From R138,
R141, R227.) -/
def Obligations.ElementwiseRecordsAct : Prop :=
  (∀ (s : State) (d : Nat) (i : Iss) (o : RecOut), s.issueAt d 0x50 = some i → s.armedHbm = false →
    o = doElem .add (s.ctx i.job i.run d) i.rec_ → o.fault = none → o.consumed = [] →
    exec (.add d .ok) s = .next (s.left i d o))
  ∧ (∀ (s : State) (d : Nat) (i : Iss) (o : RecOut), s.issueAt d 0x51 = some i → s.armedHbm = false →
    o = doElem .sub (s.ctx i.job i.run d) i.rec_ → o.fault = none → o.consumed = [] →
    exec (.sub d .ok) s = .next (s.left i d o))
  ∧ (∀ (s : State) (d : Nat) (i : Iss) (o : RecOut), s.issueAt d 0x52 = some i → s.armedHbm = false →
    o = doElem .mul (s.ctx i.job i.run d) i.rec_ → o.fault = none → o.consumed = [] →
    exec (.mul d .ok) s = .next (s.left i d o))
  ∧ (∀ (s : State) (d : Nat) (i : Iss) (o : RecOut), s.issueAt d 0x53 = some i → s.armedHbm = false →
    o = doElem .mad (s.ctx i.job i.run d) i.rec_ → o.fault = none → o.consumed = [] →
    exec (.mad d .ok) s = .next (s.left i d o))
  ∧ (∀ (s : State) (d : Nat) (i : Iss) (o : RecOut), s.issueAt d 0x54 = some i → s.armedHbm = false →
    o = doElem .min (s.ctx i.job i.run d) i.rec_ → o.fault = none → o.consumed = [] →
    exec (.min d .ok) s = .next (s.left i d o))
  ∧ (∀ (s : State) (d : Nat) (i : Iss) (o : RecOut), s.issueAt d 0x55 = some i → s.armedHbm = false →
    o = doElem .max (s.ctx i.job i.run d) i.rec_ → o.fault = none → o.consumed = [] →
    exec (.max d .ok) s = .next (s.left i d o))
  ∧ (∀ (s : State) (d : Nat) (i : Iss) (o : RecOut), s.issueAt d 0x56 = some i → s.armedHbm = false →
    o = doElem .abs (s.ctx i.job i.run d) i.rec_ → o.fault = none → o.consumed = [] →
    exec (.abs d .ok) s = .next (s.left i d o))
  ∧ (∀ (s : State) (d : Nat) (i : Iss) (o : RecOut), s.issueAt d 0x57 = some i → s.armedHbm = false →
    o = doElem .neg (s.ctx i.job i.run d) i.rec_ → o.fault = none → o.consumed = [] →
    exec (.neg d .ok) s = .next (s.left i d o))
  ∧ (∀ (s : State) (d : Nat) (i : Iss) (o : RecOut), s.issueAt d 0x58 = some i → s.armedHbm = false →
    o = doElem .cvt (s.ctx i.job i.run d) i.rec_ → o.fault = none → o.consumed = [] →
    exec (.cvt d .ok) s = .next (s.left i d o))
  ∧ (∀ (s : State) (d : Nat) (i : Iss) (o : RecOut), s.issueAt d 0x59 = some i → s.armedHbm = false →
    o = doElem .sel (s.ctx i.job i.run d) i.rec_ → o.fault = none → o.consumed = [] →
    exec (.sel d .ok) s = .next (s.left i d o))
  ∧ (∀ (s : State) (d : Nat) (i : Iss) (o : RecOut), s.issueAt d 0x5a = some i → s.armedHbm = false →
    o = doElem .cmpge (s.ctx i.job i.run d) i.rec_ → o.fault = none → o.consumed = [] →
    exec (.cmpge d .ok) s = .next (s.left i d o))

/-- O18. The four former records issue, have their effect and stand in flight. For every record FRM_EVAL,
FRM_SMAX_ACC, FRM_SMAX_OUT or FRM_RMS whose turn runs and whose waits are met, whose dies are there at their
version, and that meets no fault, no poison and no error of its reads: the command answers the state in which the
reads are noted, its outcome stands in escrow, the slot is at its next record, and the record is in flight, with
the die bank that the run uses from its first former record on. Readings that the rules leave open are the model's:
log 11, 20. (From R164, R179, R183, R184, R186, R191, R227.) -/
def Obligations.FormerRecordsAct : Prop :=
  (∀ (s : State) (d : Nat) (i : Iss) (o : RecOut), s.issueAt d 0x60 = some i → s.armedHbm = false →
    o = (guarded doEval) (s.ctx i.job i.run d) i.rec_ → o.fault = none → o.consumed = [] →
    exec (.frmEval d .ok) s = .next (s.left i d o))
  ∧ (∀ (s : State) (d : Nat) (i : Iss) (o : RecOut), s.issueAt d 0x61 = some i → s.armedHbm = false →
    o = (guarded doSmaxAcc) (s.ctx i.job i.run d) i.rec_ → o.fault = none → o.consumed = [] →
    exec (.frmSmaxAcc d .ok) s = .next (s.left i d o))
  ∧ (∀ (s : State) (d : Nat) (i : Iss) (o : RecOut), s.issueAt d 0x62 = some i → s.armedHbm = false →
    o = (guarded doSmaxOut) (s.ctx i.job i.run d) i.rec_ → o.fault = none → o.consumed = [] →
    exec (.frmSmaxOut d .ok) s = .next (s.left i d o))
  ∧ (∀ (s : State) (d : Nat) (i : Iss) (o : RecOut), s.issueAt d 0x63 = some i → s.armedHbm = false →
    o = (guarded doRms) (s.ctx i.job i.run d) i.rec_ → o.fault = none → o.consumed = [] →
    exec (.frmRms d .ok) s = .next (s.left i d o))

/-- O19. NOP, STEP_BEGIN and STEP_END act as the control records they are. Where its turn runs: a NOP whose waits
are met moves its slot to the next record and does nothing else; STEP_BEGIN begins the slot's segment at the
present time, and the step is at order 3; STEP_END, with every record of the slot completed, writes the group
maxima that the slot kept into the plane it names, adds their digest terms, and ends the segment; when every slot
has ended the step is at order 5. Which slot's turn comes next is chosen again after each. (From R209, R227, R230.)
-/
def Obligations.ControlRecordsAct : Prop :=
  (∀ (s : State) (d : Nat) (i : Iss), s.issueAt d 0x00 = some i →
    exec (.nop d .ok) s = .next (s.setRun (resched i.job (i.run.setSlot d { i.run.slot d with pc := i.idx d + 1 }))))
  ∧ (∀ (s : State) (d : Nat) (j : Job) (r : Run), s.controlAt d 0x01 false = some (j, r) →
    exec (.stepBegin ⟨d, .ok⟩) s = .next (s.setRun (resched j { r.setSlot d { r.slot d with
      pc := (r.slot d).pc + 1, begun := true, started := s.time } with order := 3 })))
  ∧ (∀ (s : State) (d : Nat) (j : Job) (r q : Run) (ws : List (Nat × Nat × Byte)) (x : Slot),
    s.controlAt d 0x02 true = some (j, r) → ws = planeWrites j (r.slot d).groupMax →
    x = (r.applyWrites d ws []).slot d →
    q = (r.applyWrites d ws []).setSlot d { x with
      pc := (r.slot d).pc + 1, ended := true, digest := (r.slot d).ending s.freeCtr (digestOf ws) } →
    exec (.stepEnd ⟨d, .ok⟩) s = .next ((s.advance j (if q.slots.all (·.ended) then { q with order := 5 } else q)).sample
      (0x800 + r.host d) 0 ((s.time - (r.slot d).started).toNat / 1000)))

/-- O20. MOVE, ATOM_T256 and ATOM_FP32 capture their source at issue; MOVE_LANDS writes it; RECORD_COMPLETE ends a
record. A MOVE or an atomic add whose turn runs and whose waits are met captures its source now, writes nothing
yet, and stands in flight with the captured bytes, the destination slot and the arrival token; the pages it reads
are marked, and one it writes after an earlier read is looked for; the slot is two records further. MOVE_LANDS, in
the carder's order, applies the bytes of a movement in flight (an atomic add: onto what the run's view of HBM holds
at that moment) and counts the arrival; out of that order it changes nothing. RECORD_COMPLETE takes a record whose
completion event has been reached, in its engine's order, out of flight; a contribution to this device lands then,
whole, and waits for its countersign like one that a port brought. Readings that the rules leave open are the
model's: log 42. (From R227, R228, R235, R278, R281, R283, R284, R318, R364.) -/
def Obligations.DataMovementsAct : Prop :=
  (∀ (s : State) (d : Nat) (i : Iss) (k : Capture) (f : Flight), s.issueAt d 0x20 = some i → s.armedHbm = false →
    k = (s.ctx i.job i.run d).capture i.rec_ i.rec2 →
    f = { i.flight d with
      writes := inSpace k.space k.writes, marks := k.marks.map (fun b => (k.space, b, true)), dst := k.slot
      arrival := k.arrival, atom := 0 } →
    exec (.move d .ok) s = .next ((((s.markRead i.run d ((s.ctx i.job i.run d).reads i.rec_ i.rec2)).advance i.job
      (i.after d { slot := i.run.slot d } (digestOf (inSpace k.space k.writes)) f i.run.bank)).markCheck i d).armReport i d))
  ∧ (∀ (s : State) (d : Nat) (i : Iss) (k : Capture) (f : Flight), s.issueAt d 0x22 = some i → s.armedHbm = false →
    k = (s.ctx i.job i.run d).capture i.rec_ i.rec2 →
    f = { i.flight d with
      writes := inSpace k.space k.writes, marks := k.marks.map (fun b => (k.space, b, true)), dst := k.slot
      arrival := k.arrival, atom := 1 } →
    exec (.atomT256 d .ok) s = .next ((((s.markRead i.run d ((s.ctx i.job i.run d).reads i.rec_ i.rec2)).advance i.job
      (i.after d { slot := i.run.slot d } (digestOf (inSpace k.space k.writes)) f i.run.bank)).markCheck i d).armReport i d))
  ∧ (∀ (s : State) (d : Nat) (i : Iss) (k : Capture) (f : Flight), s.issueAt d 0x23 = some i → s.armedHbm = false →
    k = (s.ctx i.job i.run d).capture i.rec_ i.rec2 →
    f = { i.flight d with
      writes := inSpace k.space k.writes, marks := k.marks.map (fun b => (k.space, b, true)), dst := k.slot
      arrival := k.arrival, atom := 2 } →
    exec (.atomFp32 d .ok) s = .next ((((s.markRead i.run d ((s.ctx i.job i.run d).reads i.rec_ i.rec2)).advance i.job
      (i.after d { slot := i.run.slot d } (digestOf (inSpace k.space k.writes)) f i.run.bank)).markCheck i d).armReport i d))
  ∧ (∀ (s : State) (d idx : Nat) (j : Job) (r : Run) (f : Flight), s.flightAt d idx = some (j, r, f) →
    isMove f.opcode = true →
    ((r.slot d).inTurn f = true → exec (.moveLands d idx .ok) s = .next (s.advance j (r.landed j d f)))
    ∧ ((r.slot d).inTurn f = false → exec (.moveLands d idx .ok) s = .next s))
  ∧ (∀ (s : State) (d idx : Nat) (j : Job) (r : Run) (f : Flight), s.flightAt d idx = some (j, r, f) →
    s.flightDone f = true → (r.slot d).inTurn f = true →
    (¬ (f.opcode = 0x70 ∧ f.send = none) →
      exec (.recordComplete d idx) s = .next (s.setRun (resched j (r.dropFlight d idx))))
    ∧ (∀ v, f.opcode = 0x70 → f.send = none →
      s.ownAt j r d (sendOrdinal (segment (j.streamOf d) r.template).2 (f.idx - (segment (j.streamOf d) r.template).1)) = some v →
      exec (.recordComplete d idx) s = .next ((s.setRun (resched j (((r.land j (v.whole f.writes f.marks) f.arrival).landedWhole
        (v.whole f.writes f.marks)).dropFlight d f.idx))).setRecv (v.whole f.writes f.marks))))

/-- O21. COLL_SEND contributes its data, on this device in flight, to another device through a port. A COLL_SEND
whose turn runs and whose waits are met, and that consumes no poison, reads its data now and stands in flight with
the digest term of its ordinal; towards a slot of this device the bytes wait for completion and the contribution is
noted with its countersign, as every contribution is, towards another device the contribution begins to stream
under the next send number. Readings that the rules leave open are the model's: log 16. (From R318, R321, R326.) -/
def Obligations.ContributionRecordActs : Prop :=
  ∀ (s : State) (d : Nat) (i : Iss) (k : Contrib) (n : Nat) (f : Flight), s.issueAt d 0x70 = some i → s.armedHbm = false →
    k = (s.ctx i.job i.run d).contrib i.rec_ i.rec2 → k.consumed = [] →
    n = sendOrdinal (segment (i.job.streamOf d) i.run.template).2
      (i.idx d - (segment (i.job.streamOf d) i.run.template).1) →
    (∀ t, i.job.slotOf k.shard k.lcore = some t → f = { i.flight d with
        writes := inSpace k.space k.writes, dst := t, arrival := k.arrival } →
      exec (.collSend d .ok) s = .next (((((s.markRead i.run d ((s.ctx i.job i.run d).reads i.rec_ i.rec2)).advance i.job
        (i.after d { slot := i.run.slot d } (hallmarkH (3 * 2 ^ 40 + n) k.csgn.toNat) f i.run.bank)).setRecv
          (i.run.ownRecv i.job s.deviceId d t n (bits (nthD 0 i.job.bin.coll k.plan).toNat 123 122) k.csgn)).markCheck
            i d).armReport i d))
    ∧ (i.job.slotOf k.shard k.lcore = none → f = { i.flight d with send := some s.fab.nextSend } →
      exec (.collSend d .ok) s = .next (((((s.markRead i.run d ((s.ctx i.job i.run d).reads i.rec_ i.rec2)).advance i.job
        (i.after d { slot := i.run.slot d } (hallmarkH (3 * 2 ^ 40 + n) k.csgn.toNat) f i.run.bank)).startSend
          i.job i.run d n k).markCheck i d).armReport i d))

/-- O22. STEP_SELECT begins the earliest requested step that can begin, where no run and no boundary work stands in
the way. In a ready module that is not held, with no other step between orders 2 and 5 nor in a recount, no work
assigned to the boundary and no retirement due: the job whose request at the head has the lowest stamp among those
that can begin takes the closed batches of its step, its run opens at order 2 on the hosts of the present map with
the received contributions taken, reloads waiting on its hosts are named for it, the boundary's delay is sampled,
and the run joins the step machinery. A cap below the pinned rate breaks the job's timing lock at once (DEDUCED,
log 41). (From R237, R256, R322, R377, R390.) -/
def Obligations.StepSelectionBeginsAStep : Prop :=
  ∀ (s : State) (j : Job) (q : StepReq) (rest : List StepReq) (k : Job) (u v : State) (r : Run),
    s.held = false → s.ready = true → s.runsAllow = true → s.boundaryDue = false → s.retireDue = false →
    s.chosen = some j → j.queue = q :: rest → k = j.withBatches s.batches → u = (s.setJob k).markBatches j →
    r = u.openRun k q →
    v = (((u.readReceived r).nameSwitch (resched k ((u.readReceived r).takeReceived k r)).hosts).endDelay).beginRun
      (resched k ((u.readReceived r).takeReceived k r)) →
    ∃ t x, exec .stepSelect s = .next t ∧ t = (if v.mod.capBelowPin then v.lockBreakJob j.num else v)
      ∧ x ∈ t.runs ∧ x.order = 2 ∧ x.run = 0 ∧ x.template = q.template ∧ x.step = j.step ∧ x.job = j.num
      ∧ x.hosts = u.hostsFor k ∧ x.history = [] ∧ x.waiting = false ∧ x.events = []
      ∧ r.vault = Shadow.empty ∧ r.hbm = Shadow.empty

/-- O23. STEP_CHECK, STEP_POST and RECOUNT_RUN take a run through orders 5 to 10 or to its next run. In a ready
module that is not held. STEP_CHECK completes on every run that has reached order 5: a run that passes with no
earlier run, no event, no trap and no suspect is at order 7 with its digests in its history, its shadows untouched;
a first run that raised a recount event, was stopped, or has a slot that did not end waits at order 5 for its next
run, counted toward the six. In both cases the check leaves the resident jobs untouched; so does the whole command
where no assay waits for a core (an assay that then ends may write its completion). STEP_POST of a run at order 7
whose read countersigns have all verified answers a state where the run is gone and the job has the next step and
generation, its tills and vault with the run's shadows posted, without what landed of a contribution that is not
verified; the job's HBM before the reports of order 10 is the posted HBM with the run's shadow and the hallmark
records. RECOUNT_RUN of a waiting run with no region to regenerate, no replacement due and no other step between
orders 2 and 5 answers a state with the step's next run at order 2: numbered by the runs that count, on the hosts
of R341 (provided every slot has one), with the history kept and shadows and events empty before received
contributions are taken. Readings that the rules leave open are the model's: log 44, 45. (From R237, R275, R322,
R340, R341, R344.) -/
def Obligations.StepChecksPostsAndRecounts : Prop :=
  (∀ (s : State) (n : BitVec 16) (j : Job) (r : Run), s.job n.toNat = some j → s.run n.toNat = some r →
    s.held = false → s.ready = true → r.order = 5 → r.waiting = false →
    exec (.stepCheck n) s = .next ((s.checkRun j r).classEdge.assaySettle)
    ∧ (r.history = [] → r.events = [] → r.suspects = [] → r.agreed = [] → r.traps = [] → r.uncounted = false →
        r.broken = false → r.slots.all (·.ended) = true →
        ∃ t q, exec (.stepCheck n) s = .next t ∧ t.run n.toNat = some q ∧ q.order = 7 ∧ q.waiting = false
          ∧ q.history = [⟨r.slots.map (·.digest), r.hosts, [], true, true, decide (s.errSeq = r.errStart)⟩]
          ∧ q.slots = r.slots ∧ q.vault = r.vault ∧ q.hbm = r.hbm
          ∧ (s.checkRun j r).classEdge.jobs = s.jobs ∧ (s.asy.jobs = [] → t.jobs = s.jobs))
    ∧ (r.history = [] → r.suspects = [] →
        (r.broken = true ∨ (∃ x ∈ r.slots, x.ended = false) ∨ ∃ e ∈ r.events, e.recount = true) →
        r.counted + (if r.uncounted then 0 else 1) < 6 →
        ∃ t q, exec (.stepCheck n) s = .next t ∧ t.run n.toNat = some q ∧ q.order = 5 ∧ q.waiting = true
          ∧ q.counted = r.counted + (if r.uncounted then 0 else 1) ∧ q.step = r.step ∧ q.history.length = 1
          ∧ (s.checkRun j r).classEdge.jobs = s.jobs ∧ (s.asy.jobs = [] → t.jobs = s.jobs)))
  ∧ (∀ (s : State) (n : BitVec 16) (j : Job) (r p : Run), s.job n.toNat = some j → s.run n.toNat = some r →
    s.held = false → s.ready = true → r.order = 7 → r.waiting = false → r.broken = false → s.allVerified r = true →
    p = s.verifiedPart r →
    ((∀ v ∈ s.fab.recvs, v.ofStep r = true → v.verified = true) → p = r)
    ∧ ∃ t k, exec (.stepPost n) s = .next t ∧ t = s.postRun j r ∧ t.run n.toNat = none ∧ t.job n.toNat = some k
      ∧ k.step = j.step + 1 ∧ k.gen = j.gen + 1 ∧ k.tills = postTills j.tills p.slots ∧ k.vault = j.vault.post p.vault
      ∧ (j.post p).hbm = (j.hbm.post p.hbm).post (Shadow.empty.writeAll (hallWrites j p) []))
  ∧ (∀ (s : State) (n : BitVec 16) (j : Job) (r q : Run) (m moved : List Nat) (u : State),
    s.job n.toNat = some j → s.run n.toNat = some r → s.held = false → s.ready = true → r.waiting = true →
    r.poisoned = [] → s.replacementDue r = false → s.othersRun r.job = false → m = s.nextHosts r →
    moved = (List.range 512).filter (fun l => nthD noHost m l != nthD noHost s.lmap l && decide (l < j.slots)) →
    q = r.again j m s.errSeq → (∀ p ∈ q.hosts, p < 576) →
    u = (((s.setJob (j.placed m moved)).readyAll m moved).readReceived q) →
    ∃ t x, exec (.recountRun n) s = .next t ∧ t = u.nextRun (resched j (u.takeReceived j q)) ∧ t.run n.toNat = some x
      ∧ x.order = 2 ∧ x.run = r.counted ∧ x.history = r.history ∧ x.step = r.step ∧ x.template = r.template
      ∧ x.hosts = (List.range j.slots).map (fun d => nthD noHost m (d % 512)) ∧ x.waiting = false ∧ x.events = []
      ∧ q.vault = Shadow.empty ∧ q.hbm = Shadow.empty)

/-- O24. STEP_BOUNDARY, WATCHDOG, LOCKSTEP, REGENERATION, JOB_END_EFFECT, DIE_BANK_SWITCH and ESCROW_WRITE_BACK
act. Each under the conditions of its rule: the boundary of a module that is ready, not held and without a run does
its work in the rule's order (snapshots; then the accumulated verdicts and slow cores that are due, core after core
in ascending order, and the accumulated verdicts on other units; a firmware switch; assays; borrowed cores;
arrears); a watchdog over its limit names the late hosts and stops the run; a lockstep divergence is recorded, once
in the running step, a switch-over of the last second goes back to the old slot with 0x0307 (R417; log 30,
DEDUCED), the running step is stopped, and the third in an hour halts the bursar; a poisoned region is regenerated
for the run or the job that waits for it; a job whose end waits ends with 0 once its step and snapshots are done; a
core whose reload is named for the step switches its bank before its first former record; a page written back no
longer blocks steps. (From R193, R194, R238, R275, R290, R336, R337, R345, R377, R393, R417.) -/
def Obligations.StepEventsAct : Prop :=
  (∀ (s : State) (restored : Bool) (us : Nat) (u : State), s.held = false → s.ready = true → s.runs = [] →
    u = ((((s.captureAll.doCores.doAccumulated).applySwitch restored us).assaySettle.borrowAll).serveArrears us) →
    exec (.stepBoundary restored us) s = .next (u.setAsy { u.asy with delay := us }).classEdge)
  ∧ (∀ (s : State) (n : BitVec 16) (limit elapsed die : Nat) (j : Job) (r : Run), s.job n.toNat = some j →
    s.run n.toNat = some r → s.held = false → s.ready = true → limit < elapsed → r.waiting = false → r.broken = false →
    r.order < 6 → exec (.watchdog n limit elapsed die) s = .next ((s.watchdogEvents j r limit elapsed die).breakRun j.num))
  ∧ (∀ (s : State) (pc0 pc1 : W64) (third : Bool) (u v : State), s.ready = true →
    s.runs.find? (fun r => decide (r.order ≤ 5) && !r.waiting) = none →
    third = decide (2 ≤ (s.su.diverged.filter (fun t => decide ((s.time - t).toNat ≤ 3600000000000))).length) →
    u = s.raise { code := 0x05, utype := 8, job := 0, step := 0, run := 7, action := if third then 0xB else 2
                  w6 := pc0.toNat, w7 := pc1.toNat } →
    v = { u with su := { u.su with diverged := u.su.diverged ++ [u.time] } }.revertSwitch →
    exec (.lockstep pc0 pc1) s = .next (if third then v.halt else v))
  ∧ (∀ (s : State) (pc0 pc1 : W64) (third : Bool) (r : Run) (u v : State), s.ready = true →
    s.runs.find? (fun r => decide (r.order ≤ 5) && !r.waiting) = some r →
    third = decide (2 ≤ (s.su.diverged.filter (fun t => decide ((s.time - t).toNat ≤ 3600000000000))).length) →
    u = s.raiseRun r.job none { code := 0x05, utype := 8, job := r.job, step := r.step.toNat, run := r.run
                                action := if third then 0xB else 2, w6 := pc0.toNat, w7 := pc1.toNat } 0 true false →
    v = ({ u with su := { u.su with diverged := u.su.diverged ++ [u.time] } }.revertSwitch).breakRun r.job →
    exec (.lockstep pc0 pc1) s = .next (if third then v.halt else v))
  ∧ (∀ (s : State) (n : BitVec 16) (d : BitVec 12) (j : Job), s.job n.toNat = some j → s.held = false → s.ready = true →
    (∀ r, s.run n.toNat = some r → r.waiting = true → (∃ x ∈ r.poisoned, x.2.2.2 = d.toNat) →
      exec (.regeneration n d) s = .next (s.regenJob j (some r) d.toNat))
    ∧ (s.run n.toNat = none → d.toNat ∈ j.regenDue →
      exec (.regeneration n d) s = .next (s.regenJob j none d.toNat)))
  ∧ (∀ (s : State) (n : BitVec 16) (j : Job) (e : Nat × Nat), s.job n.toNat = some j → s.held = false →
    s.ready = true → j.ending = some e → s.run j.num = none → j.snaps = [] →
    exec (.jobEndEffect n) s = .next (s.endJob j.num 0))
  ∧ (∀ (s : State) (p : Nat) (r : Run), s.held = false → s.ready = true → (s.core p).scheduled = true →
    (s.core p).pending = true →
    s.runs.find? (fun r => r.toSwitch.contains p && r.hosts.contains p && decide (r.order < 5) && r.history.isEmpty
      && !r.broken) = some r →
    (∀ d, d < r.slots.length → r.host d = p → (r.slot d).former = false) →
    exec (.dieBankSwitch p) s = .next (s.switchBank p r.job r.step.toNat))
  ∧ (∀ (s : State) (n : BitVec 16) (page : Nat), exec (.escrowWriteBack n page) s =
    .next { s with wback := s.wback.filter (fun w => !(w.job == n.toNat && w.page == page)) })

/-- O25. SCRUB, ECC_REWRITE, RETIREMENT, SPARING_REFILL and RUN_TIME_RETRAINING act on blocks and channels. In a
ready module: a scrub (not held) moves its channel's scrub position on and treats the block as it decodes: one of a
resident job in the job's memory, one that no job holds (unallocated, or of the reserve) in its channel; the
rewrite of a block that waits for one clears the wait, and a block that is bad again is recorded, poisoned, and
makes its channel a candidate; with a retirement due and no run in the way the lowest candidate is retired: its
frames and the blocks that no job holds are read out, the channel is fenced and the poison of those blocks goes
with its frames, capacity falls by 10^9 bytes, the sparing reserve by one part, and its event is recorded; a
reserve below 2 GB refills by 1 GB while the present jobs still fit; a channel that is not withdrawn is trained, or
becomes a candidate where training fails. Readings that the rules leave open are the model's: log 22, 24. (From
R270, R271, R290, R291, R292, R293, R294.) -/
def Obligations.MemoryUpkeepActs : Prop :=
  (∀ (s : State) (l : MemLoc) (ecc : EccOut) (u : Nat × Nat), s.held = false → s.ready = true →
    (∀ j, s.job l.job.toNat = some j → u = s.blockUnit l.space l.slot l.block →
      exec (.scrub l ecc) s = .next ((if u.1 = 5 then s.setChan u.2 (s.chan u.2).step else s).scrubbed j l u ecc))
    ∧ (l.job = 0 → s.job 0 = none → looseBlock l = true → u = looseUnit l → s.isFenced u.1 u.2 = false →
      exec (.scrub l ecc) s = .next ((if u.1 = 5 then s.setChan u.2 (s.chan u.2).step else s).scrubLoose l ecc)))
  ∧ (∀ (s t : State) (l : MemLoc) (bad : Bool) (c : Nat), s.ready = true → l.space = 2 →
    c = (if l.job.toNat = 0 then l.slot else s.channelOf (64 * l.block)) →
    (∃ x ∈ (s.chan c).rewrite, x.1 = l.job.toNat ∧ x.2.1 = l.block) →
    t = s.setChan c ((s.chan c).rewritten l.job.toNat l.block) →
    (bad = false → exec (.eccRewrite l bad) s = .next t)
    ∧ (∀ j, bad = true → s.job l.job.toNat = some j →
      exec (.eccRewrite l bad) s = .next ((t.uncorrectable j (5, c) 2 l.slot l.block 0 0).candidate c t.errSeq))
    ∧ (bad = true → s.job l.job.toNat = none →
      exec (.eccRewrite l bad) s = .next ((t.uncorrLoose { l with slot := c } 0 0).candidate c t.errSeq)))
  ∧ (∀ (s u w : State) (c : Nat) (rest : List Nat), s.held = false → s.ready = true →
    s.retireDue = true → s.quiet = true → s.candidates = c :: rest →
    w = s.readOut c (Config.retireReads c s.freeCtr) → u = w.setChan c (w.chan c).fenced →
    ∃ t, exec .retirement s = .next t
      ∧ t = ((((({ u with
        units := { u.units with degraded := eraseNat (unitKey 5 c) u.units.degraded }
        hbmBytes := u.hbmBytes - 10 ^ 9
        spareGb := u.spareGb - 1 }).markFenced 5 c).moveFrames c (w.chan c).loose).pageReset (0x400 + c)).raise
          { code := 0x0E, utype := 5, punit := c, action := 5, w6 := (s.chan c).cause }).classEdge
      ∧ t.hbmBytes = s.hbmBytes - 10 ^ 9 ∧ t.spareGb = s.spareGb - 1)
  ∧ (∀ s : State, s.ready = true → s.spareGb < 2 → hbmFits s.hbmBytes s.jobs = true →
    exec .sparingRefill s = .next { s with spareGb := s.spareGb + 1 })
  ∧ (∀ (s : State) (c : Nat), s.ready = true → s.isFenced 5 c = false →
    exec (.runTimeRetraining c true) s = .next (s.setChan c { s.chan c with trained := true })
    ∧ exec (.runTimeRetraining c false) s = .next ((s.setChan c { s.chan c with trained := false }).candidate c 0))

/-- O26. ASSAY_ROTATION, ASSAY_RUN_END, ASSAY_RUN_LIMIT, ARREARS_PROMOTED and AGEING act. In a ready module that is
not held: a rotation of a die that no rotation assay holds takes the die's next core, moves the stream on, becomes
the third run of the references in dispute that it reaches first, and queues the rotation sets; a run that ends
without an event is judged, vector by vector (each by the digest that the core gave, where it differs from the run
of its template), and its outcome taken where it fails or has answered every vector; a run over its limit fails at
a vector and digest that the spec does not give (free values); arrears are noted, and a user whose oldest item has
waited up to the limit is promoted with its event; ageing plans every region anew and writes the entries, with
those still held, to the ageing ledger, in one write that takes all of them or, where the queue of a closed gate
has no room, holds them for the next hour. Ageing does not run under the supply-sag cap. Readings that the rules
leave open are the model's: log 29, 34. (From R381, R382, R385, R386, R387, R388, R390, R391, R392, R394, R419.) -/
def Obligations.AssayEventsAct : Prop :=
  (∀ (s u v : State) (die p : Nat) (ids : List Nat), s.held = false → s.ready = true → s.asy.rotEn = true → u = s.newPass →
    (∀ j ∈ u.asy.jobs, j.why = .rotation → j.core / 144 ≠ die) → u.rotationNext die = some p →
    ids = (u.flash.setIds (·.rotation)).filter (fun i => !u.asy.late.contains i) → ids ≠ [] →
    v = (u.setAsy { u.asy with streams := put die (p + 1) u.asy.streams }).reachThird p ids →
    exec (.assayRotation die) s = .next (v.setAsy { v.asy with
      jobs := v.asy.jobs ++ [{ core := p, why := .rotation, ids := ids, cur := none, started := false, force := false
                               wasFenced := false, fail := none, worst := 0 }] }).assaySettle)
  ∧ (∀ (s : State) (core : Nat) (run : AssayRun) (j : AssayJob) (x : AssaySet), s.assayOf core = some (j, x) →
    s.held = false → s.ready = true → run.event = false →
    (∀ f, (s.judge x core false (decide (j.why = .rotation) && j.fail.isNone) 0 (x.vecs.zip (s.runDigests core x run))).2 = some f →
      exec (.assayRunEnd core run) s = .next
        ((s.judge x core false (decide (j.why = .rotation) && j.fail.isNone) 0 (x.vecs.zip (s.runDigests core x run))).1.assayOutcome j x run.digests.length (some f)))
    ∧ ((s.judge x core false (decide (j.why = .rotation) && j.fail.isNone) 0 (x.vecs.zip (s.runDigests core x run))).2 = none → x.vecs.length ≤ run.digests.length →
      exec (.assayRunEnd core run) s = .next
        ((s.judge x core false (decide (j.why = .rotation) && j.fail.isNone) 0 (x.vecs.zip (s.runDigests core x run))).1.assayOutcome j x run.digests.length none)))
  ∧ (∀ (s : State) (core : Nat) (j : AssayJob) (x : AssaySet), s.assayOf core = some (j, x) → s.held = false →
    s.ready = true → ∃ (v : Nat) (d : W64), v ≤ x.vecs.length ∧
      exec (.assayRunLimit core) s = .next ({ s with freeCtr := s.freeCtr + 1 }.assayOutcome j x v (some (v, d))))
  ∧ (∀ (s u : State) (user arrears : Nat), s.ready = true → user ∉ s.asy.promoted → u = s.noteItem user arrears →
    (arrearsLimit user (nthD 0 u.asy.arrLimit user).toNat (u.arrears user) = none →
      exec (.arrearsPromoted user arrears) s = .next u)
    ∧ (∀ l, arrearsLimit user (nthD 0 u.asy.arrLimit user).toNat (u.arrears user) = some l →
      exec (.arrearsPromoted user arrears) s = .next ((u.setAsy { u.asy with
        promoted := insertNat user u.asy.promoted }).raise
          { code := 0x24, info := true, w6 := (user + 1) * 2 ^ 56 + u.arrears user % 2 ^ 32, w7 := l })))
  ∧ (∀ (s u v : State) (es all : List W256) (meas : List RegionMeas) (ok : Bool), s.held = false → s.ready = true →
    (s.mod.sagCap = true → exec (.ageing meas) s = .next s)
    ∧ (s.mod.sagCap = false → (u, es) = replanAll 0 (meas.take 32) (s.setAsy { s.asy with agedAt := s.time }) [] →
      all = u.asy.ageHeld ++ es →
      (v, ok) = u.flashWrite (.ageing ((List.range all.length).map (fun i => (u.flash.ageNext + i, nthD 0 all i)))) →
      (ok = true → exec (.ageing meas) s = .next ({ v with
        flash := { v.flash with ageNext := v.flash.ageNext + all.length }, asy := { v.asy with ageHeld := [] } }).settle)
      ∧ (ok = false → exec (.ageing meas) s = .next ({ v with asy := { v.asy with ageHeld := all } }).settle)))

/-- O27. SUMMARY_FOLD writes every unit's pending counts to flash; BLANK_STRIKE_RAMP_DOWN idles a mill that strikes
blanks. In a ready module a fold writes every entry that has not been folded and clears the hour's count. A core
whose mill strikes blanks for the running step becomes idle; the next MILL_PASS that issues on it ends the idling.
Readings that the rules leave open are the model's: log 44. (From R118, R355, R356, R393.) -/
def Obligations.SummariesAndIdlingAct : Prop :=
  (∀ s u : State, s.ready = true → u = s.unfolded.foldl (fun s e => (s.flashWrite (.summary e.1 e.2)).1) s →
    exec .summaryFold s = .next { u with flash := { u.flash with sumHour := 0 } })
  ∧ (∀ (s : State) (p : Nat) (r : Run) (j : Job), r ∈ s.runs → p ∈ r.hosts → r.order < 5 → s.job r.job = some j →
    j.bin.strikes = true →
    exec (.blankStrikeRampDown ⟨p, .ok⟩) s = .next (s.setCore p { s.core p with idle := true }))
  ∧ (∀ (s t : State) (d : Nat) (i : Iss), s.issueAt d 0x41 = some i → (t.core (i.run.host d)).idle = true →
    s.wakeMill t d = t.setCore (i.run.host d) { t.core (i.run.host d) with idle := false })

/-- O28. Each bit of the alert cause is its condition, and ALERT_N is asserted by bits 0 and 3 to 10. In every
state: bit 0 of the alert cause is set exactly while the module is quiesced (for a sag or an overvoltage), bit 1
while the flash gate is closed, bit 2 while the sag cap is active, bit 3 while a compute region is at its alert
limit, bit 4 while a base die alert holds, bit 5 an HBM stack alert, bit 6 the coolant inlet's, bit 7 power over,
bit 8 a rail fault, bit 9 while the device is halted, bit 10 in an overvoltage; bits 31 to 11 are 0. ALERT_N is
asserted exactly while one of bits 0 and 3 to 10 is set: bits 1 and 2 alone do not assert it. The word is computed
from the present conditions alone, so a bit clears when its condition ends. The power page answers the same word.
(States R446.) -/
def Obligations.AlertCauseReportsConditions : Prop :=
  ∀ s : State,
    (s.alertCause.getLsbD 0 = true ↔ s.held = true) ∧ (s.alertCause.getLsbD 1 = true ↔ s.mod.flashGate = true)
    ∧ (s.alertCause.getLsbD 2 = true ↔ s.mod.sagCap = true)
    ∧ (s.alertCause.getLsbD 3 = true ↔ ∃ x ∈ s.regions, x.2.tAlert = true)
    ∧ (s.alertCause.getLsbD 4 = true ↔ s.mod.baseAlert ≠ []) ∧ (s.alertCause.getLsbD 5 = true ↔ s.mod.hbmAlert ≠ [])
    ∧ (s.alertCause.getLsbD 6 = true ↔ s.mod.coolAlert = true) ∧ (s.alertCause.getLsbD 7 = true ↔ s.mod.powerOver = true)
    ∧ (s.alertCause.getLsbD 8 = true ↔ s.mod.railFault = true) ∧ (s.alertCause.getLsbD 9 = true ↔ s.su.halted = true)
    ∧ (s.alertCause.getLsbD 10 = true ↔ s.mod.overVolt = true) ∧ (∀ k, 11 ≤ k → s.alertCause.getLsbD k = false)
    ∧ (s.alert = true ↔ s.alertCause.getLsbD 0 = true ∨ ∃ k, 3 ≤ k ∧ k ≤ 10 ∧ s.alertCause.getLsbD k = true)
    ∧ s.powerReg 0x108 = s.alertCause.toNat

/-- O29. The commands of the supply and the rails act on caps, holds, gate and rails as their tables give. With the
rails up: a POWER_CAP interval moves the power cap by the rule of its mean power; 3,200 W exceeded at the lowest
cap is POWER_OVER with its event; below 47.0 V the flash gate closes, and the first threshold crossed begins an
episode and writes its SUPPLY_SAG event, whose record follows the lowest voltage; above 47.5 V the gate opens, the
queue is applied, the episode ends, and a recovery FINISH that waits for the gate is done; below 45.5 V the sag cap
applies and at or above it ends; below 44.0 V the module quiesces, and at or above it it resumes; above 57.0 V it
is held and at or below 56.0 V it resumes; a region's rail fault is an event of the region, another rail's switches
the rails off. Outside its condition a sample is only noted. The edge effects (governor, ALERT_N, event summary)
follow each. Readings that the rules leave open are the model's: log 35. (From R36, R418, R419, R428, R429, R430,
R431, R436, R438.) -/
def Obligations.SupplyCommandsAct : Prop :=
  (∀ (s : State) (w : Nat), s.mod.railsUp = true →
    exec (.powerCap w) s = .next (s.setMod { s.mod with
      inW := w, powerCap := nextPowerCap s.mod.powerCap w
      powerOver := s.mod.powerOver && decide (3200 < w) && decide (nextPowerCap s.mod.powerCap w = 800) }).settle)
  ∧ (∀ (s : State) (w : Nat), s.mod.railsUp = true →
    (3200 < w → s.mod.powerCap = 800 → s.mod.powerOver = false →
      exec (.powerOver w) s = .next ((s.setMod { s.mod with powerOver := true }).raise
        { code := 0x39, w6 := w % 65536, w7 := 800 }).settle)
    ∧ (w ≤ 3200 ∨ s.mod.powerCap ≠ 800 ∨ s.mod.powerOver = true → exec (.powerOver w) s = .next s))
  ∧ (∀ (s : State) (mv : Nat), s.mod.railsUp = true →
    (mv < 47000 → exec (.flashGateClose mv) s = .next ((s.sagAt 1 mv 10000).closeGate.settle))
    ∧ (∀ e : Sag, s.mod.episode = none → e = ⟨1, mv, BitVec.ofNat 64 (s.time.toNat - 10000), s.errSeq⟩ →
      s.sagAt 1 mv 10000 = ((s.setMod { s.mod with inMv := mv, episode := some e }).raise
        { code := 0x30, info := true }).sagRecord e)
    ∧ (47000 ≤ mv → exec (.flashGateClose mv) s = .next (s.inputIs mv)))
  ∧ (∀ (s : State) (mv : Nat) (u v : State), s.mod.railsUp = true → u = (s.inputIs mv).drainFlash →
    v = { u with
      mod := { u.mod with flashGate := false, episode := none }, flash := { u.flash with suspended := false } } →
    (47500 < mv → s.su.rcv.waiting = none → exec (.flashGateOpen mv) s = .next v.settle)
    ∧ (∀ env, 47500 < mv → s.su.rcv.waiting = some env → exec (.flashGateOpen mv) s = .next (v.settle.recFinish env))
    ∧ (mv ≤ 47500 → exec (.flashGateOpen mv) s = .next (s.inputIs mv)))
  ∧ (∀ (s : State) (mv : Nat), s.mod.railsUp = true →
    (mv < 45500 → exec (.sagCap mv) s = .next (s.sagBegin 2 mv).settle
      ∧ exec (.sagCapEnd mv) s = .next (s.inputIs mv))
    ∧ (45500 ≤ mv → exec (.sagCap mv) s = .next (s.inputIs mv)
      ∧ exec (.sagCapEnd mv) s = .next ((s.inputIs mv).setMod { (s.inputIs mv).mod with sagCap := false }).settle))
  ∧ (∀ (s : State) (mv : Nat), s.mod.railsUp = true →
    (mv < 44000 → s.mod.quiesced = false →
      exec (.quiesce mv) s = .next (((s.sagBegin 3 mv).hold mv).setMod
        { ((s.sagBegin 3 mv).hold mv).mod with quiesced := true }).settle)
    ∧ (44000 ≤ mv ∨ s.mod.quiesced = true → exec (.quiesce mv) s = .next (s.inputIs mv)))
  ∧ (∀ (s : State) (mv : Nat),
    (44000 ≤ mv → s.mod.quiesced = true →
      exec (.quiesceEnd mv) s = .next ((((s.inputIs mv).setMod { (s.inputIs mv).mod with quiesced := false }).resume mv).settle))
    ∧ (mv < 44000 ∨ s.mod.quiesced = false → exec (.quiesceEnd mv) s = .next (s.inputIs mv)))
  ∧ (∀ (s : State) (mv : Nat) (u : State), s.mod.railsUp = true →
    u = ((s.inputIs mv).hold mv).raise { code := 0x33, w6 := mv % 65536 } →
    (57000 < mv → s.mod.overVolt = false →
      exec (.overvoltage mv) s = .next (u.setMod { u.mod with overVolt := true }).settle)
    ∧ (mv ≤ 57000 ∨ s.mod.overVolt = true → exec (.overvoltage mv) s = .next (s.inputIs mv)))
  ∧ (∀ (s : State) (mv : Nat),
    (mv ≤ 56000 → s.mod.overVolt = true →
      exec (.overvoltageEnd mv) s = .next ((((s.inputIs mv).setMod { (s.inputIs mv).mod with overVolt := false }).resume mv).settle))
    ∧ (56000 < mv ∨ s.mod.overVolt = false → exec (.overvoltageEnd mv) s = .next (s.inputIs mv)))
  ∧ (∀ (s : State) (rail cause mv : Nat) (back : Bool), s.mod.railsUp = true →
    (rail < 32 → exec (.railFault rail cause mv back) s = .next (s.regionRail rail cause mv back).settle)
    ∧ (32 ≤ rail → exec (.railFault rail cause mv back) s = .next ((s.railsOff 0xF true).setMod
      { (s.railsOff 0xF true).mod with railFault := true, railLatch := some (railWords rail cause 3 mv) }).settle))

/-- O30. The commands of temperature act on caps, alerts, refresh and the trip as their tables give. With the rails
up THERMAL_CAP completes on every interval: a region whose highest temperature it names has that temperature and
the cap of R442 (at 105.0 degrees 0.8 G beats/s; at 103.0 50 MHz less, at 100.0 25 MHz less, not below 0.8; at 97.0
as before; below, 25 MHz more, not above 1.8), every other region is as before. THERMAL_ALERT completes on every
temperature: at the alert threshold of a point that is not alerted its alert holds afterwards, its event is raised,
and a region's cap is 0.8 G beats/s; else the temperature alone is noted. 2 degrees below the threshold (of the
coolant inlet 45.0) the alert clears, else the temperature is noted. COOLANT completes on every pair of
temperatures, which are noted; an inlet above 45.0 degrees without an alert raises its alert and event 0x38. At the
trip threshold the rails are off, nothing is left of jobs and runs, THERMTRIP_N is asserted and point, unit,
temperature and START_COUNT are latched; below it the temperature is noted. A stack at 85.0 degrees doubles its
refresh, below 82.0 it no longer does. Temperatures are in eighths of a degree above 0. Readings that the rules
leave open are the model's: log 5. (From R269, R441, R442, R443.) -/
def Obligations.TemperatureCommandsAct : Prop :=
  (∀ (s : State) (temps : List (BitVec 16)), s.mod.railsUp = true →
    ∃ t, exec (.thermalCap temps) s = .next t
      ∧ (∀ (r : Nat) (x : BitVec 16), r < 32 → temps[r]? = some x → t.region r = { s.region r with
          temp := x
          thermalCap := if 840 ≤ x.toInt then 800 else if 824 ≤ x.toInt then max 800 ((s.region r).thermalCap - 50)
            else if 800 ≤ x.toInt then max 800 ((s.region r).thermalCap - 25)
            else if 776 ≤ x.toInt then (s.region r).thermalCap else min 1800 ((s.region r).thermalCap + 25) })
      ∧ ∀ r, 32 ≤ r ∨ temps[r]? = none → t.region r = s.region r)
  ∧ (∀ (s u : State) (point unit : Nat) (x : BitVec 16), s.mod.railsUp = true → u = s.senseAt point unit x →
    (alertAt point ≤ x.toInt → u.alerted point unit = false →
      ∃ t, exec (.thermalAlert point unit x) s = .next t ∧ t.alerted point unit = true
        ∧ (point ≠ 0 → t = ((u.setAlert point unit true).alertEvent point unit x).settle)
        ∧ (point = 0 → (t.region unit).thermalCap = 800 ∧ (t.region unit).temp = x
          ∧ t = (((u.setRegion unit { u.region unit with thermalCap := 800 }).setAlert 0 unit true).alertEvent 0 unit x).settle))
    ∧ (x.toInt < alertAt point ∨ u.alerted point unit = true → exec (.thermalAlert point unit x) s = .next u))
  ∧ (∀ (s : State) (point unit : Nat) (x : BitVec 16),
    (x.toInt ≤ (if point = 3 then 360 else alertAt point) - 16 →
      exec (.thermalAlertClear point unit x) s = .next (((s.senseAt point unit x).setAlert point unit false).settle))
    ∧ ((if point = 3 then 360 else alertAt point) - 16 < x.toInt →
      exec (.thermalAlertClear point unit x) s = .next (s.senseAt point unit x)))
  ∧ (∀ (s : State) (i o : BitVec 16), s.mod.railsUp = true →
    ∃ t, exec (.coolant i o) s = .next t ∧ t.mod.coolIn = i ∧ t.mod.coolOut = o
      ∧ (i.toInt ≤ 360 ∨ s.mod.coolAlert = true → t = { s with mod := { s.mod with coolIn := i, coolOut := o } })
      ∧ (360 < i.toInt → s.mod.coolAlert = false → t.mod.coolAlert = true
        ∧ t = (({ s with mod := { s.mod with coolIn := i, coolOut := o, coolAlert := true } } : State).raise
          { code := 0x38, info := true, w6 := i.toNat * 2 ^ 16 + o.toNat }).settle))
  ∧ (∀ (s v : State) (point unit : Nat) (x : BitVec 16), s.mod.railsUp = true → v = (s.senseAt point unit x).railsOff 0 false →
    (tripAt point ≤ x.toInt → ∃ t, exec (.thermtrip point unit x) s = .next t
      ∧ t = (v.setMod { v.mod with thermTrip := true, tripLatch := some ⟨point, unit, x, (s.senseAt point unit x).startNo⟩ }).settle
      ∧ v.su.phase = 0 ∧ t.mod.railsUp = false
      ∧ t.mod.thermTrip = true ∧ t.mod.tripLatch = some ⟨point, unit, x, s.startNo⟩ ∧ t.jobs = [] ∧ t.runs = [])
    ∧ (x.toInt < tripAt point → exec (.thermtrip point unit x) s = .next (s.senseAt point unit x)))
  ∧ (∀ (s : State) (stack : Nat) (x : BitVec 16) (u : State),
    u = { s with mod := { s.mod with hbmTemp := put stack x s.mod.hbmTemp } } →
    (680 ≤ x.toInt → exec (.refreshDoubled stack x) s = .next { u with
      mod := { u.mod with doubled := insertNat stack s.mod.doubled } })
    ∧ (x.toInt < 680 → exec (.refreshDoubled stack x) s = .next u)
    ∧ (x.toInt < 656 → exec (.refreshNormal stack x) s = .next { u with
      mod := { u.mod with doubled := eraseNat stack s.mod.doubled } })
    ∧ (656 ≤ x.toInt → exec (.refreshNormal stack x) s = .next u))

/-- O31. SIDEBAND_READ, SIDEBAND_WRITE and SIDEBAND_ALERT answer their status and data. While the management rails
are up: a good command for an offset of the device-control or power page that is aligned reads or writes the
register as the sideband sees it and answers status 0; an offset outside answers status 1, a bad command or length
status 2; the alert command at offset 0 answers the alert cause, another offset or a bad command status 2. While
those rails are down nothing is answered and nothing changes. (From R10, R444, R445, R446.) -/
def Obligations.SidebandCommandsAct : Prop :=
  (∀ (s : State) (off : W32), s.mod.mgmtUp = true →
    (sbReach off = true → regAligned off = true →
      exec (.sidebandRead off true) s = .next ((s.readReg true off).2.sbAnswer 0 (s.readReg true off).1)
      ∧ ∀ (v : W32) (env : StartEnv),
        exec (.sidebandWrite off v true env) s = .next ((s.writeReg true off v env).sbAnswer 0 0))
    ∧ (sbReach off = false → exec (.sidebandRead off true) s = .next (s.sbAnswer 1 0)
      ∧ ∀ (v : W32) (env : StartEnv), exec (.sidebandWrite off v true env) s = .next (s.sbAnswer 1 0))
    ∧ exec (.sidebandRead off false) s = .next (s.sbAnswer 2 0)
    ∧ (∀ (v : W32) (env : StartEnv), exec (.sidebandWrite off v false env) s = .next (s.sbAnswer 2 0))
    ∧ exec (.sidebandAlert 0 true) s = .next (s.sbAnswer 0 s.alertCause)
    ∧ (off ≠ 0 → exec (.sidebandAlert off true) s = .next (s.sbAnswer 2 0))
    ∧ exec (.sidebandAlert off false) s = .next (s.sbAnswer 2 0))
  ∧ (∀ (s : State) (off v : W32) (ok : Bool) (env : StartEnv), s.mod.mgmtUp = false →
    exec (.sidebandRead off ok) s = .next s ∧ exec (.sidebandWrite off v ok env) s = .next s
    ∧ exec (.sidebandAlert off ok) s = .next s)
  ∧ ∀ (s : State) (st : Byte) (v : W32), s.sbAnswer st v = { s with out := { s.out with sbStatus := st, lastRead := v } }

/-- O32. The I3C CCCs assign and drop the address, switch in-band interrupts and answer the target's identity.
While the management rails are up: ENTDAA gives a target without a dynamic address the assigned one, SETDASA the
target of the static address 0x60 + FOLIO_POS, RSTDAA drops it, ENEC and DISEC switch in-band interrupts, GETPID
answers the six bytes of the provisional identifier, most significant first, GETBCR and GETDCR the constants of the
target, GETSTATUS two bytes that the spec does not give (free value, log 6). A target that has a dynamic address
keeps it, a SETDASA to another static address is not for this target, and nothing else changes. A target that is
down takes no part in any of the nine (the number of GETSTATUS's free value moves on). (From R444.) -/
def Obligations.I3cCommandsAct : Prop :=
  (∀ (s : State) (a : BitVec 7), s.mod.mgmtUp = true →
    (s.i3c.dynAddr = none → exec (.entdaa a) s = .next { s with i3c := { s.i3c with dynAddr := some a } }
      ∧ exec (.setdasa (0x60 + s.mod.folioPos.setWidth 7) a) s = .next { s with i3c := { s.i3c with dynAddr := some a } })
    ∧ (s.i3c.dynAddr ≠ none → exec (.entdaa a) s = .next s
      ∧ exec (.setdasa (0x60 + s.mod.folioPos.setWidth 7) a) s = .next s)
    ∧ (∀ b, b ≠ 0x60 + s.mod.folioPos.setWidth 7 → exec (.setdasa b a) s = .next s)
    ∧ exec .rstdaa s = .next { s with i3c := { s.i3c with dynAddr := none } }
    ∧ exec .enec s = .next { s with i3c := { s.i3c with ibiEn := true } }
    ∧ exec .disec s = .next { s with i3c := { s.i3c with ibiEn := false } }
    ∧ exec .getpid s = .next { s with out := { s.out with cccData := (leBytes 6 s.provisionalId).reverse } }
    ∧ exec .getbcr s = .next { s with out := { s.out with cccData := [Config.bcr] } }
    ∧ exec .getdcr s = .next { s with out := { s.out with cccData := [Config.dcr] } }
    ∧ ∃ bs, bs.length = 2 ∧ exec .getstatus s = .next { s with
      freeCtr := s.freeCtr + 1, out := { s.out with cccData := bs } })
  ∧ (∀ (s : State) (a b : BitVec 7), s.mod.mgmtUp = false → exec (.entdaa a) s = .next s ∧ exec (.setdasa b a) s = .next s
    ∧ exec .rstdaa s = .next s ∧ exec .enec s = .next s ∧ exec .disec s = .next s ∧ exec .getpid s = .next s
    ∧ exec .getbcr s = .next s ∧ exec .getdcr s = .next s ∧ ∃ n, exec .getstatus s = .next { s with freeCtr := n })

/-- O33. RELAY_READ, RELAY_WRITE and RELAY_TIMEOUT reach the teller itself or a claimed member. At a teller whose
rails and PCIe link are up and that is not in D3hot, for an aligned offset: position 0 is the teller's own
register; a position of a claimed member is requested of it on the port of its path as an RD or WR of space 4 of
the 64-byte block that holds its register, which POISON names (DESIGN CHOICE, log 17), with its data, and joins the
accesses that are outstanding; without a usable port a read completes with Completer Abort and a write is dropped;
a position without a member reads 0 and takes no write. While the host does not reach the teller neither command
changes anything. A timeout counts in TEL_RELAY_TO and takes its access, and no other that is still open, from the
list; the only read outstanding completes with Completer Abort, a write does not; of a tag that is no relayed
access it changes nothing. Readings that the rules leave open are the model's: log 17. (From R10, R303, R326,
R328.) -/
def Obligations.RelayCommandsAct : Prop :=
  (∀ (s : State) (off v : W32) (env : StartEnv), regAligned off = true → s.hostLink = true →
    exec (.relayRead 0 off) s = .next (s.hostRead off)
    ∧ exec (.relayWrite 0 off v env) s = .next (s.writeReg false off v env)
    ∧ (∀ pos, pos ≠ 0 → s.memberAt pos = none →
      exec (.relayRead pos off) s = .next { s with out := { s.out with lastRead := 0 } }
      ∧ exec (.relayWrite pos off v env) s = .next s)
    ∧ (∀ pos dev p, pos ≠ 0 → s.memberAt pos = some dev → s.ownEgress dev false = some p →
      (∃ t, exec (.relayRead pos off) s = .next t
        ∧ t.ports = put p ((s.port p).request s.time { s.txn 1 dev 0 with space := 4, addr := off.toNat / 64 * 64, len := 4, poison := 2 ^ (48 + off.toNat / 4 % 16), data := [] }
          (.relay s.tel.nextRelay)) s.ports
        ∧ t.tel = { s.tel with relays := s.tel.relays ++ [⟨s.tel.nextRelay, pos, true, off.toNat, none⟩], nextRelay := s.tel.nextRelay + 1 })
      ∧ ∃ t, exec (.relayWrite pos off v env) s = .next t
        ∧ t.ports = put p ((s.port p).request s.time
          { s.txn 2 dev 0 with space := 4, addr := off.toNat / 64 * 64, len := 4, poison := 2 ^ (48 + off.toNat / 4 % 16), data := leBytes 64 (v.toNat * 2 ^ (8 * (off.toNat % 64))) }
          (.relay s.tel.nextRelay)) s.ports
        ∧ t.tel = { s.tel with relays := s.tel.relays ++ [⟨s.tel.nextRelay, pos, false, off.toNat, none⟩], nextRelay := s.tel.nextRelay + 1 })
    ∧ ∀ pos dev, pos ≠ 0 → s.memberAt pos = some dev → s.ownEgress dev false = none →
      exec (.relayRead pos off) s = .next { s with out := { s.out with pcieAbort := s.out.pcieAbort + 1 } }
      ∧ exec (.relayWrite pos off v env) s = .next s)
  ∧ (∀ (s : State) (off v : W32) (env : StartEnv) (pos : Nat), regAligned off = true → s.hostLink = false →
    exec (.relayRead pos off) s = .next s ∧ exec (.relayWrite pos off v env) s = .next s)
  ∧ (∀ (s : State) (p g id : Nat), (s.port p).tagUse g = some (.relay id) → ∃ t, exec (.relayTimeout p g) s = .next t
    ∧ t.tel.relayTo = BitVec.ofNat 32 (satAdd s.tel.relayTo.toNat 1 (2 ^ 32 - 1))
    ∧ (∀ x ∈ t.tel.relays, x.id ≠ id ∧ x ∈ s.tel.relays)
    ∧ (∀ x ∈ s.tel.relays, x.id ≠ id → x.answer = none → x ∈ t.tel.relays)
    ∧ ∀ pos read o, s.tel.relays = [⟨id, pos, read, o, none⟩] → t.tel.relays = []
      ∧ t.out.pcieAbort = s.out.pcieAbort + (if read then 1 else 0))
  ∧ ∀ (s : State) (p g : Nat), (∀ id, (s.port p).tagUse g ≠ some (.relay id)) → exec (.relayTimeout p g) s = .next s

/-- O34. A register access that is not aligned, or outside the window, stops with the fault misaligned and nothing
else does. R10 requires naturally aligned accesses inside the 64 MiB window and gives no outcome for another one.
The model stops there (for the sideband: with the management rails up, for a good command within its reach), and
the fault names the offset (DESIGN CHOICE, log 46). Conversely a fault is always that one, of a register command
whose offset breaks R10: no other command faults, and none is ever refused. (From R10.) -/
def Obligations.MisalignedAccessFaults : Prop :=
  (∀ (s : State) (off v : W32) (env : StartEnv), regAligned off = false →
    exec (.counterLoRead off) s = .fault (.misaligned off) ∧ exec (.counterLoWrite off v) s = .fault (.misaligned off)
    ∧ exec (.counterHiWrite off v) s = .fault (.misaligned off)
    ∧ exec (.registerWrite off v env) s = .fault (.misaligned off)
    ∧ (∀ pos, exec (.relayRead pos off) s = .fault (.misaligned off)
      ∧ exec (.relayWrite pos off v env) s = .fault (.misaligned off))
    ∧ (s.mod.mgmtUp = true → sbReach off = true → exec (.sidebandRead off true) s = .fault (.misaligned off)
      ∧ exec (.sidebandWrite off v true env) s = .fault (.misaligned off)))
  ∧ (∀ (c : Instr) (s : State) (e : Fault), exec c s = .fault e → ∃ off : W32, e = .misaligned off ∧ regAligned off = false
    ∧ ((∃ v, c = .counterLoWrite off v) ∨ c = .counterLoRead off ∨ (∃ v, c = .counterHiWrite off v)
      ∨ (∃ v env, c = .registerWrite off v env) ∨ (∃ pos, c = .relayRead pos off)
      ∨ (∃ pos v env, c = .relayWrite pos off v env) ∨ c = .sidebandRead off true
      ∨ ∃ v env, c = .sidebandWrite off v true env))
  ∧ ∀ (c : Instr) (s : State) (r : Refusal), exec c s ≠ .refused r

/-- O35. LANE_DROP, TRAINING, FLIT_RECEIVE, REPLAY_REQUEST and the three port timers act on the port, TAG_ABORT
ends a request. LANE_DROP of a lane in use on a port that takes flits takes it out and narrows the link, which
breaks every timing lock and replays, or takes the port down without lanes. A trainable port enters AUTH on the
lanes both ends have, or is down on none. A received flit counts its corrected symbols: one with a good CRC is
taken by its header (a management flit that is due moves the expected SEQ on), another asks once for a replay and
the port discards. A replay request drops what its ACK covers and sends the rest again; the acknowledge timer
replays what is unacknowledged; silence takes an admitted port down; a partner slow to return the credits of a
waiting channel is an event and breaks every timing lock. TAG_ABORT of a tag in use completes its request with
ABORT and its event; of a waiting transaction of another device it drops it, parked or queued to be forwarded. Each
of the others changes nothing where its condition does not hold. Readings that the rules leave open are the
model's: log 16, 17. (From R295, R296, R298, R299, R300, R303, R304, R309, R313, R314, R370.) -/
def Obligations.LinkCommandsAct : Prop :=
  (∀ (s : State) (p lane : Nat) (q : Port) (l : BitVec 8), q = s.port p → l = q.lanes &&& ~~~(BitVec.ofNat 8 (2 ^ lane)) →
    (q.takes = true → l ≠ q.lanes →
      (widthOf l = 0 → ∃ t, exec (.laneDrop p lane) s = .next t
        ∧ t = ((s.setPort p { q with lanes := l }).lockBreak).portDown p
        ∧ (t.port p).state = .down ∧ (t.port p).lanes = l ∧ (t.port p).width = 0)
      ∧ (widthOf l ≠ 0 → ∃ t, exec (.laneDrop p lane) s = .next t
        ∧ t = (((s.setPort p { q with lanes := l }).lockBreak).setPort p
          { ((s.setPort p { q with lanes := l }).lockBreak).port p with width := min q.width (widthOf l) }.replay).classEdge
        ∧ (t.port p).state = q.state ∧ (t.port p).lanes = l ∧ (t.port p).width = min q.width (widthOf l)))
    ∧ (q.takes = false ∨ l = q.lanes → exec (.laneDrop p lane) s = .next s))
  ∧ (∀ (s : State) (p : Nat) (a b : BitVec 8),
    (s.trainable p = true →
      (widthOf (a &&& b) = 0 → exec (.training p a b) s = .next (s.setPort p { (s.port p).goDown with lanes := a &&& b }).classEdge)
      ∧ (widthOf (a &&& b) ≠ 0 → ∃ t, exec (.training p a b) s = .next t ∧ t = (s.enterAuth p (a &&& b)).classEdge
        ∧ (t.port p).state = .auth ∧ (t.port p).lanes = a &&& b ∧ (t.port p).width = widthOf (a &&& b)
        ∧ (t.port p).hello = none))
    ∧ (s.trainable p = false → exec (.training p a b) s = .next s))
  ∧ (∀ (s u : State) (p n : Nat) (f : List Byte) (h : LinkHead), h = linkHead (natAt f 0 12) →
    u = s.setPort p { s.port p with fec := (s.port p).fec + BitVec.ofNat 64 n } →
    ((s.port p).takes = true → p < 12 →
      (crc32 (bytesAt f 0 252) = natAt f 252 4 → exec (.flitReceive p f n) s = .next ((u.goodFlit p h f).idle p)
        ∧ (h.ftype = 3 → h.bad = false → h.enc = false → (s.port p).enc = false → h.seq = (s.port p).rxSeq →
          ∃ t, exec (.flitReceive p f n) s = .next t ∧ (t.port p).rxSeq = h.seq + 1 ∧ (t.port p).discarding = false
            ∧ (t.port p).fec = (s.port p).fec + BitVec.ofNat 64 n ∧ (t.port p).rxq = (s.port p).rxq))
      ∧ (crc32 (bytesAt f 0 252) ≠ natAt f 252 4 → exec (.flitReceive p f n) s = .next (u.askReplay p)
        ∧ ((s.port p).discarding = true → exec (.flitReceive p f n) s = .next u)
        ∧ (nthD 0 (s.port p).qlim 2 = 0 → ∃ t, exec (.flitReceive p f n) s = .next t ∧ (t.port p).discarding = true
          ∧ (t.port p).rxSeq = (s.port p).rxSeq ∧ (t.port p).fec = (s.port p).fec + BitVec.ofNat 64 n)))
    ∧ ((s.port p).takes = false ∨ 12 ≤ p → exec (.flitReceive p f n) s = .next s))
  ∧ (∀ (s : State) (p : Nat),
    (∀ a, (s.port p).replayAck = some a → exec (.replayRequest p) s = .next (s.setPort p
      ({ s.port p with replayAck := none, unacked := dropAcked a (s.port p).unacked }.replay.pump)))
    ∧ ((s.port p).replayAck = none → exec (.replayRequest p) s = .next s))
  ∧ (∀ (s : State) (p : Nat),
    ((s.port p).takes = true → (s.port p).unacked ≠ [] →
      exec (.ackTimer p) s = .next ((s.setPort p (s.port p).replay).lockBreakPort p))
    ∧ ((s.port p).takes = false ∨ (s.port p).unacked = [] → exec (.ackTimer p) s = .next s)
    ∧ (s.port p).replay.wire = (s.port p).unacked.reverse ++ (s.port p).wire)
  ∧ (∀ (s : State) (p : Nat),
    ((s.port p).state = .admitted → ∃ t, exec (.silenceTimer p) s = .next t ∧ t = s.portDown p ∧ (t.port p).state = .down
      ∧ (t.port p).lanes = (s.port p).lanes)
    ∧ ((s.port p).state ≠ .admitted → exec (.silenceTimer p) s = .next s))
  ∧ (∀ (s : State) (p vc : Nat),
    ((s.port p).state = .admitted → (∃ f ∈ (s.port p).waiting, f.vc = vc) → ∃ t, exec (.slowPartner p vc) s = .next t
      ∧ t = (s.fabricEvent 0x18 p vc 0).lockBreak ∧ (t.port p).state = .admitted)
    ∧ ((s.port p).state ≠ .admitted ∨ (∀ f ∈ (s.port p).waiting, f.vc ≠ vc) → exec (.slowPartner p vc) s = .next s))
  ∧ (∀ (s : State) (p g : Nat),
    (∀ u, (s.port p).tagUse g = some u →
      exec (.tagAbort p g) s = .next (((s.freeTag p g).fabricEvent 0x17 p 0 (s.tagContrib u)).completeUse u 6 []))
    ∧ ((s.port p).tagUse g = none → ∃ t, exec (.tagAbort p g) s = .next t
      ∧ t = s.setPort p { s.port p with
          parked := (s.port p).parked.filter (fun x => x.tag != g || s.ownRequest x)
          fwdq := (s.port p).fwdq.map (fun e => (e.1, e.2.filter (fun x => x.tag != g || s.ownRequest x))) }))

/-- O36. HELLO, RESPONSE, AUTH_FAIL, BINDING_FORWARD and FOLIO_CLAIM act on a port's admission and claims. In AUTH,
at a device with IDENTITY_OK: the first hello that breaks no order of admission is kept and answered, one that
breaks an order fails authentication with that order and event; a response whose signatures verify admits the port
to its partner, limited where that has no identifier record, and another fails it at order 6; an authentication
failure names the order and the partner known. Elsewhere the three change nothing (R409, DEDUCED; log 12). On an
admitted port a forwarded binding that conflicts with none is entered, or is the binding-conflict event; a claim's
answer is noted by a teller in its folio table, and a claim is taken by a member whose position it names and that
no other teller holds, released first where the command says that a reset of its teller has released it (DESIGN
CHOICE; log 16). (From R307, R308, R309, R310, R311, R313, R314, R315, R326, R409.) -/
def Obligations.AdmissionCommandsAct : Prop :=
  (∀ (s : State) (p : Nat) (h : Hello),
    (s.su.identityOk = true → (s.port p).state = .auth → (s.port p).hello = none →
      (s.helloOrder p h = 0 → ∃ t, exec (.hello p h) s = .next t ∧ t = s.setPort p (s.respond p h)
        ∧ (t.port p).state = .auth ∧ (t.port p).hello = some h)
      ∧ (s.helloOrder p h ≠ 0 → ∃ t, exec (.hello p h) s = .next t
        ∧ t = (s.failAuth p (if s.helloOrder p h = 4 ∧ h.record = true then 0x1B else 0x1A) (s.helloOrder p h) h.id.toNat).classEdge
        ∧ (t.port p).state = .authFail ∧ (t.port p).hello = none))
    ∧ (s.su.identityOk = false ∨ (s.port p).state ≠ .auth ∨ (s.port p).hello ≠ none → exec (.hello p h) s = .next s))
  ∧ (∀ (s : State) (p : Nat) (g : Sigs),
    (∀ h : Hello, s.su.identityOk = true → (s.port p).state = .auth → (s.port p).hello = some h →
      (s.responseOk p h g = true → ∃ t, exec (.response p g) s = .next t ∧ t = s.admitPort p h g.cipher
        ∧ (t.port p).state = .admitted ∧ (t.port p).partner = h.id ∧ (t.port p).enc = ((s.port p).sentEnc || h.enc)
        ∧ (t.port p).limited = !h.record)
      ∧ (s.responseOk p h g = false → ∃ t, exec (.response p g) s = .next t
        ∧ t = (s.failAuth p 0x1A 6 h.id.toNat).classEdge ∧ (t.port p).state = .authFail ∧ (t.port p).hello = none))
    ∧ (s.su.identityOk = false ∨ (s.port p).state ≠ .auth ∨ (s.port p).hello = none → exec (.response p g) s = .next s))
  ∧ (∀ (s : State) (p o : Nat),
    (s.su.identityOk = true → (s.port p).state = .auth → ∃ t, exec (.authFail p o) s = .next t
      ∧ (∀ h, (s.port p).hello = some h → t = (s.failAuth p 0x1A o h.id.toNat).classEdge)
      ∧ ((s.port p).hello = none → t = (s.failAuth p 0x1A o 0).classEdge)
      ∧ (t.port p).state = .authFail ∧ (t.port p).hello = none)
    ∧ (s.su.identityOk = false ∨ (s.port p).state ≠ .auth → exec (.authFail p o) s = .next s))
  ∧ (∀ (s : State) (p : Nat) (id : BitVec 16) (d : W64),
    (s.admitted p = true →
      (s.bindConflict id.toNat d = false → ∃ t, exec (.bindingForward p id d) s = .next t ∧ t = s.bind p id.toNat d
        ∧ look id.toNat t.fab.binding = some d)
      ∧ (s.bindConflict id.toNat d = true → ∃ t, exec (.bindingForward p id d) s = .next t
        ∧ t = s.raise (fabricEvt 0x1B p id.toNat 0 0 0) ∧ t.fab = s.fab))
    ∧ (s.admitted p = false → exec (.bindingForward p id d) s = .next s))
  ∧ (∀ (s : State) (p pos : Nat) (t : BitVec 16) (rel : Bool),
    (s.admitted p = true →
      (s.su.teller = true → ∃ u, exec (.folioClaim p pos ⟨t, rel⟩) s = .next u ∧ u = s.claimAnswer pos t
        ∧ ((lookD FolioEnt.reset pos s.tel.folio).valid = true →
          lookD FolioEnt.reset pos u.tel.folio = { lookD FolioEnt.reset pos s.tel.folio with
            claimed := decide (t.toNat = s.deviceId), refused := !decide (t.toNat = s.deviceId) }))
      ∧ (s.su.teller = false → ∃ u, exec (.folioClaim p pos ⟨t, rel⟩) s = .next u
        ∧ u = (if rel then s.endClaim else s).takeClaim p pos t
        ∧ u.fab.claim = if (if rel then s.endClaim else s).claimOk pos t then some t else if rel then none else s.fab.claim))
    ∧ (s.admitted p = false → exec (.folioClaim p pos ⟨t, rel⟩) s = .next s))

/-- O37. RD, WR, AT256, AFP32, CPL, DB, MSG, CSGN, VOID and INT take and serve the oldest transaction of their
channel. When the oldest received transaction of its virtual channel is of the command's type on an admitted port,
each takes it from the queue, and otherwise changes nothing. RD and WR: registers for the device's teller, host
memory of a member of the folio inside a window, else a job's memory, which RD answers, to a device that hosts a
shard of the job, with posted content and its poison marks inside a destination region of a contribution that the
current step declares (Table 10-7). CPL frees its tag and completes the request, or is counted. DB sets TAIL of a
message stream, and beyond its size answers RETRY and raises an event; MSG produces the entry in its order, else
answers RETRY. INT raises the vector for a member of the folio. AT256, AFP32, CSGN and VOID are of a job's
contribution. A request that its window does not hold is answered ACCESS and counted. Readings that the rules leave
open are the model's: log 16, 17, 43. (From R245, R246, R303, R304, R305, R317, R329, R330.) -/
def Obligations.ReceivedRequestsAct : Prop :=
  (∀ (s u : State) (p n : Nat) (t : Txn), s.takeTxn p n = some (t, u) → t.ttype = n ∧ (s.port p).state = .admitted
    ∧ (u.port p).rxq = delFirst (fun x => txnVc x.ttype == txnVc n) (s.port p).rxq)
  ∧ (∀ (s : State) (p : Nat) (chk : Chk) (env : StartEnv),
    (s.takeTxn p 1 = none → exec (.rd p) s = .next s) ∧ (s.takeTxn p 2 = none → exec (.wr p chk env) s = .next s)
    ∧ (s.takeTxn p 3 = none → exec (.at256 p chk) s = .next s) ∧ (s.takeTxn p 4 = none → exec (.afp32 p chk) s = .next s)
    ∧ (s.takeTxn p 5 = none → exec (.cpl p) s = .next s) ∧ (s.takeTxn p 6 = none → exec (.db p) s = .next s)
    ∧ (s.takeTxn p 7 = none → exec (.msg p) s = .next s) ∧ (s.takeTxn p 8 = none → exec (.csgn p) s = .next s)
    ∧ (s.takeTxn p 9 = none → exec (.void p) s = .next s) ∧ (s.takeTxn p 0xA = none → exec (.intr p) s = .next s))
  ∧ (∀ (s u : State) (p : Nat) (t : Txn), s.takeTxn p 1 = some (t, u) →
    (t.space = 4 → exec (.rd p) s = .next (if u.fromTeller t
      then (u.readRegs t.addr t.names (4 * t.len)).2.complete p t 0 0
        (bytesAt (u.readRegs t.addr t.names (4 * t.len)).1 0 (16 * t.len)) else u.denied p t))
    ∧ (t.space = 3 → u.isMember t.src = true → u.hostWindow false t.addr (16 * t.len) = true →
      ∃ bs, bs.length = 16 * t.len ∧ exec (.rd p) s = .next ({ u with freeCtr := u.freeCtr + 1 }.complete p t 0 0 bs))
    ∧ (t.space = 3 → u.isMember t.src = false ∨ u.hostWindow false t.addr (16 * t.len) = false →
      exec (.rd p) s = .next (u.denied p t))
    ∧ (t.space < 3 → (∀ j r, u.job t.job = some j → u.stepAt j t.stepLo = .now r → j.ofJob t.src = true →
        (∃ x ∈ j.incoming r.template (fun _ => true), x.reach j t (t.len / 4) = true) →
        exec (.rd p) s = .next (u.complete p t 0 (poisonMask (j.posted t.slot t.space) (t.offset / 64) (t.len / 4))
          ((j.posted t.slot t.space).read t.offset (16 * t.len))))
      ∧ (∀ j r, u.job t.job = some j → u.stepAt j t.stepLo = .now r →
        j.ofJob t.src = false ∨ (∀ x ∈ j.incoming r.template (fun _ => true), x.reach j t (t.len / 4) = false) →
        exec (.rd p) s = .next (u.denied p t))
      ∧ (∀ j, u.job t.job = some j → (∀ r, u.stepAt j t.stepLo ≠ .now r) → exec (.rd p) s = .next (u.denied p t))
      ∧ (u.job t.job = none → exec (.rd p) s = .next (u.denied p t))))
  ∧ (∀ (s u : State) (p : Nat) (t : Txn) (chk : Chk) (env : StartEnv), s.takeTxn p 2 = some (t, u) →
    (t.space = 4 → exec (.wr p chk env) s = .next (if u.fromTeller t
      then (u.writeRegs t.addr t.names t.data env (4 * t.len)).answer p t 0 else u.denied p t))
    ∧ (t.space = 3 → exec (.wr p chk env) s = .next (if u.isMember t.src && u.hostWindow true t.addr (16 * t.len)
      then (u.hostWrite t.addr t.data).answer p t 0 else u.denied p t))
    ∧ (t.space < 3 → exec (.wr p chk env) s = .next (u.contribution p t 0 chk)))
  ∧ (∀ (s u : State) (p : Nat) (t : Txn) (chk : Chk),
    (s.takeTxn p 3 = some (t, u) → exec (.at256 p chk) s =
      .next (if t.space < 3 then u.contribution p t 1 chk else u.denied p t))
    ∧ (s.takeTxn p 4 = some (t, u) → exec (.afp32 p chk) s =
      .next (if t.space < 3 then u.contribution p t 2 chk else u.denied p t))
    ∧ (s.takeTxn p 8 = some (t, u) → exec (.csgn p) s = .next (u.aboutContrib p t (fun s j x => s.recvCsgn p j x t)))
    ∧ (s.takeTxn p 9 = some (t, u) → exec (.void p) s = .next (u.aboutContrib p t (fun s j x => s.recvVoid p j x t)))
    ∧ (s.takeTxn p 0xA = some (t, u) → exec (.intr p) s = .next (if u.isMember t.src
      then (u.interrupt (BitVec.ofNat 11 t.addr)).answer p t 0 else u.denied p t)))
  ∧ (∀ (s u : State) (p : Nat) (t : Txn), s.takeTxn p 5 = some (t, u) →
    (∀ x, (u.port p).tagUse t.tag = some x → exec (.cpl p) s = .next ((u.freeTag p t.tag).completeUse x t.status t.data))
    ∧ ((u.port p).tagUse t.tag = none → exec (.cpl p) s = .next (u.countQ p 3)))
  ∧ (∀ (s u : State) (p : Nat) (t : Txn), s.takeTxn p 6 = some (t, u) →
    (∀ r v, u.ring (t.addr % 2 ^ 20) = some r → r.kind = 2 → r.host = false → r.peerDev.toNat = t.src → r.job = t.job →
      v = BitVec.ofNat 32 (natAt t.data 0 4) →
      (r.size < (v - r.head).toNat → exec (.db p) s = .next ((u.raise { code := 0x11, job := r.job }).answer p t 5))
      ∧ ((v - r.head).toNat ≤ r.size → exec (.db p) s = .next (((u.setRing (t.addr % 2 ^ 20) { r with tail := v, stopped := false }).ringIrq
        (t.addr % 2 ^ 20) { r with tail := v, stopped := false }).answer p t 0)))
    ∧ (∀ r, u.ring (t.addr % 2 ^ 20) = some r → r.kind ≠ 2 ∨ r.host = true ∨ r.peerDev.toNat ≠ t.src ∨ r.job ≠ t.job →
      exec (.db p) s = .next (u.denied p t))
    ∧ (u.ring (t.addr % 2 ^ 20) = none → exec (.db p) s = .next (u.denied p t)))
  ∧ (∀ (s u : State) (p : Nat) (t : Txn), s.takeTxn p 7 = some (t, u) →
    (∀ r, u.ring (t.addr % 2 ^ 20) = some r → r.kind = 2 → r.peerDev.toNat = t.src → r.job = t.job → r.job = natAt t.data 4 2 →
      (natAt t.data 0 4 = (r.tail + BitVec.ofNat 32 r.ahead.length).toNat → u.cplOpen r = true → exec (.msg p) s =
        .next (((u.produceIrq (t.addr % 2 ^ 20) r ((wordsOf t.data).map (BitVec.ofNat 64))).poisonEntry r t).answer p t 0))
      ∧ (natAt t.data 0 4 ≠ (r.tail + BitVec.ofNat 32 r.ahead.length).toNat ∨ u.cplOpen r = false →
        exec (.msg p) s = .next (u.answer p t 5)))
    ∧ (∀ r, u.ring (t.addr % 2 ^ 20) = some r → r.kind ≠ 2 ∨ r.peerDev.toNat ≠ t.src ∨ r.job ≠ t.job ∨ r.job ≠ natAt t.data 4 2 →
      exec (.msg p) s = .next (u.denied p t))
    ∧ (u.ring (t.addr % 2 ^ 20) = none → exec (.msg p) s = .next (u.denied p t)))
  ∧ (∀ (s : State) (p : Nat) (t : Txn), s.denied p t = (s.answer p t 1).countQ p 4)
  ∧ ∀ (m : Mem) (block n : Nat), poisonMask m block n < 2 ^ n
    ∧ ∀ i, i < n → (poisonMask m block n).testBit i = m.isPoisoned (block + i)

/-- O38. MSG_RESEND, CONTRIB_RESEND and COLL_WAIT act on what is undelivered, unsent or overdue. In a ready device
MSG_RESEND sends the undelivered entries of a message stream that is consumed again from the first, and nothing
where all are delivered or under way. CONTRIB_RESEND streams the transactions of a contribution that wait to be
sent again, under the timing-lock break of their job, sends the countersign of a landed one whose step is decided,
or the VOID of a withdrawn one that waits; otherwise nothing. COLL_WAIT of a run that waits for a declared
contribution raises the event of its timeout, REROUTE or TIMEOUT: outside proof mode the contributions that may
take alternate ports are rerouted, otherwise the error interrupt is sent; without such a wait nothing happens.
Readings that the rules leave open are the model's: log 16. (From R317, R319, R321, R323.) -/
def Obligations.ResendsAndWaitsAct : Prop :=
  (∀ (s : State) (n : Nat),
    (∀ r, s.ring n = some r → r.kind = 2 → r.stopped = false → s.ready = true →
      (∀ k, s.undelivered n r = some k → exec (.msgResend n) s = .next (s.sendEntries n r k (r.tail - k).toNat))
      ∧ (s.undelivered n r = none → exec (.msgResend n) s = .next s))
    ∧ (∀ r, s.ring n = some r → r.kind ≠ 2 ∨ r.stopped = true ∨ s.ready = false → exec (.msgResend n) s = .next s)
    ∧ (s.ring n = none → exec (.msgResend n) s = .next s))
  ∧ (∀ (s : State) (n : Nat),
    (∀ x, s.send n = some x → x.void = none →
      (x.retry ≠ [] → exec (.contribResend n) s =
        .next (((s.setSend { x with retry := [] }).stream n x.retry).lockBreakJob x.job))
      ∧ (x.retry = [] → x.state = .landed → s.sendDecided x = true → exec (.contribResend n) s = .next (s.sendCsgn x))
      ∧ (x.retry = [] → x.state ≠ .landed ∨ s.sendDecided x = false → exec (.contribResend n) s = .next s))
    ∧ (∀ x v, s.send n = some x → x.void = some v →
      (x.retry ≠ [] → exec (.contribResend n) s = .next (s.sendVoid x v))
      ∧ (x.retry = [] → exec (.contribResend n) s = .next s))
    ∧ (s.send n = none → exec (.contribResend n) s = .next s))
  ∧ (∀ (s : State) (n : BitVec 16) (i : Nat),
    (∀ j r, s.job n.toNat = some j → s.run n.toNat = some r → r.waiting = false → r.broken = false → s.ready = true →
      (∀ x, ((j.incoming r.template (fun _ => true)).filter (s.waitsFor j r))[i]? = some x →
        ∃ p e, exec (.collWait ⟨n, i⟩) s = .next (if !r.proofEn && bit (x.plan j) 121
          then (s.stepEvent j.num { fabricEvt 0x16 p e (x.kind j) x.ordinal 0 with job := j.num, step := r.step.toNat }).reroute j
          else (s.stepEvent j.num { fabricEvt 0x15 p e (x.kind j) x.ordinal 0 with job := j.num, step := r.step.toNat }).errInterrupt)
          ∧ e = (if j.hostsShard x.shard then s.deviceId else Config.shardDevice j.num x.shard) ∧ p = s.waitPort r x e)
      ∧ (((j.incoming r.template (fun _ => true)).filter (s.waitsFor j r))[i]? = none → exec (.collWait ⟨n, i⟩) s = .next s))
    ∧ (∀ r, s.run n.toNat = some r → r.waiting = true ∨ r.broken = true ∨ s.ready = false → exec (.collWait ⟨n, i⟩) s = .next s)
    ∧ (s.job n.toNat = none ∨ s.run n.toNat = none → exec (.collWait ⟨n, i⟩) s = .next s))

/-- O39. PORT_ENABLE, FENCE_REQ, UNFENCE_REQ, STAGE_COMMIT, DEV_CTL, EVT_FORCE and RELEASE act where their page
takes the write. Where the page takes the write: ENABLE 0 of a Jexlet port that is not quarantined takes it down,
ENABLE 1 lets it train; FENCE_REQ fences a core or region that is not fenced while another is healthy, retires a
pseudo-channel, takes a port down; UNFENCE_REQ queues the DEMAND sets on a fenced core that no assay awaits and
restores a fenced region; on every other page they do nothing. STAGE_COMMIT of the device group puts the staged
modes into effect, or discards them where the resident jobs refuse; on another page it does nothing. DEV_CTL stages
PROOF_EN and TIMING_LOCK; EVT_FORCE arms the bits that the page type offers; RELEASE starts a quarantined port
again. A page that takes no write (not open, or of a fenced unit) is left as it was. Readings that the rules leave
open are the model's: log 37. (From R14, R298, R316, R362, R449, R450, R451, R455, R456, R457.) -/
def Obligations.PageControlCommandsAct : Prop :=
  (∀ (s : State) (p : Nat) (on : Bool),
    (s.takesWrite false (0x10 + p) 0x0C = true →
      (s.jexlet p = false → exec (.portEnable p on) s = .next s)
      ∧ (s.jexlet p = true → on = true ∨ (s.port p).state = .quarantined →
        exec (.portEnable p on) s = .next (s.setPage (0x10 + p) { s.page (0x10 + p) with enable := on }))
      ∧ (s.jexlet p = true → on = false → (s.port p).state ≠ .quarantined → ∃ t, exec (.portEnable p on) s = .next t
        ∧ t = (s.setPage (0x10 + p) { s.page (0x10 + p) with enable := on }).portDown p ∧ (t.port p).state = .down))
    ∧ (s.takesWrite false (0x10 + p) 0x0C = false → exec (.portEnable p on) s = .next s))
  ∧ (∀ (s : State) (n i : Nat), i = pageInstance n →
    (s.takesWrite false n 0x0C = true →
      (s.pageType n = 0xB → exec (.fenceReq n) s = .next (if s.isFenced 1 i || !s.otherCore i then s else s.fenceNow 1 i 0))
      ∧ (s.pageType n = 0xA → exec (.fenceReq n) s = .next (if s.isFenced 2 i || !s.otherRegion i then s else s.fenceNow 2 i 0))
      ∧ (s.pageType n = 0xC → exec (.fenceReq n) s = .next (if s.isFenced 5 i then s
        else (s.setChan i { s.chan i with candidate := true, cause := 0 }).markDegraded 5 i))
      ∧ (s.pageType n = 8 → s.jexlet i = true → (s.port i).state ≠ .quarantined → ∃ t, exec (.fenceReq n) s = .next t
        ∧ t = s.portDown i ∧ (t.port i).state = .down)
      ∧ (s.pageType n = 8 → s.jexlet i = false ∨ (s.port i).state = .quarantined → exec (.fenceReq n) s = .next s)
      ∧ (s.pageType n ∉ [8, 0xA, 0xB, 0xC] → exec (.fenceReq n) s = .next s))
    ∧ (s.takesWrite false n 0x0C = false → exec (.fenceReq n) s = .next s))
  ∧ (∀ (s : State) (n i : Nat), i = pageInstance n →
    (s.takesWrite false n 0x0C = true →
      (s.pageType n = 0xB → s.isFenced 1 i = true → s.flash.setIds (·.demand) ≠ [] → (∀ a ∈ s.asy.jobs, a.core ≠ i) →
        exec (.unfenceReq n) s = .next (s.queueAssays [i] (s.flash.setIds (·.demand)) .unfence false).assaySettle)
      ∧ (s.pageType n = 0xB → s.isFenced 1 i = false ∨ s.flash.setIds (·.demand) = [] ∨ (∃ a ∈ s.asy.jobs, a.core = i) →
        exec (.unfenceReq n) s = .next s)
      ∧ (s.pageType n = 0xA → exec (.unfenceReq n) s = .next (if s.isFenced 2 i then s.unfenceRegion i else s))
      ∧ (s.pageType n ≠ 0xA → s.pageType n ≠ 0xB → exec (.unfenceReq n) s = .next s))
    ∧ (s.takesWrite false n 0x0C = false → exec (.unfenceReq n) s = .next s))
  ∧ (∀ (s : State) (n : Nat),
    (∀ p l, s.takesWrite false n 0x0C = true → n ≤ 6 → s.dev.stage = some (p, l) → ∃ t, exec (.stageCommit n) s = .next t
      ∧ t = s.applyStage ∧ t.dev.stage = none
      ∧ (s.stageRefused p = false → t.dev.proofEn = p ∧ t.dev.timingLock = l)
      ∧ (s.stageRefused p = true → t.dev.proofEn = s.dev.proofEn ∧ t.dev.timingLock = s.dev.timingLock
        ∧ t.dev.proofRefused = true))
    ∧ (s.takesWrite false n 0x0C = false ∨ 6 < n ∨ s.dev.stage = none → exec (.stageCommit n) s = .next s))
  ∧ (∀ (s : State) (v : W32), exec (.devCtl v) s = .next (if s.takesWrite false 0 0x110
    then { s with dev := { s.dev with stage := some (v.getLsbD 0, v.getLsbD 1) } } else s))
  ∧ (∀ (s : State) (n : Nat) (v : W32), exec (.evtForce n v) s = .next (if s.takesWrite false n 0x18
    then s.setPage n { s.page n with evtForce := (s.page n).evtForce ||| (v &&& forceMask (s.pageType n)) } else s))
  ∧ (∀ (s : State) (p : Nat), exec (.release p) s = .next
    (if s.takesWrite false (0x10 + p) 0x104 = true ∧ (s.port p).state = .quarantined
      then s.setPort p { s.port p with state := if (s.page (0x10 + p)).enable then .training else .down } else s))

/-- O40. The doorbell, the error window and the administrative rings act as Table 16-9 gives. Where the ledger page
takes the write, LDG_DB_VALUE on the ring n of LDG_DB_RING: a ring from 3 up whose HEAD bit is 0 gets its TAIL (a
value more than the ring's size beyond HEAD is discarded and reported as RING_OVERRUN), with HEAD 1 its HEAD (a
value beyond TAIL is discarded); a ring that is not allocated is discarded; ERR_POP and ADM_CPL_POP move HEAD by
the least of n and the unread entries, ERR_IRQ keeps EN and VECTOR and gives them to ring 2, ADM_CMD_PUSH with bit
0 writes the staged entry to ring 0 at TAIL where it has room and is counted and reported where it has none.
LDG_DB_DISCARD read answers the count and clears it. Where the page takes no write the commands change nothing.
Rings 0 to 2 take no doorbell (R247); HEAD beyond TAIL is judged by circular order (log 39). (From R245, R246,
R247, R351, R460.) -/
def Obligations.LedgerCommandsAct : Prop :=
  (∀ (s : State) (v : W32) (n : Nat) (r : Ring), s.takesWrite false 3 0x104 = true → n = bits s.ldg.dbRing.toNat 19 0 →
    2 < n → s.ring n = some r →
    (s.ldg.dbRing.getLsbD 31 = true → (v - r.head).toNat ≤ r.used →
      exec (.ldgDbValue v) s = .next (s.setRing n { r with head := v, stopped := false }).drainCpl)
    ∧ (s.ldg.dbRing.getLsbD 31 = true → r.used < (v - r.head).toNat → exec (.ldgDbValue v) s = .next s.discardDoorbell)
    ∧ (s.ldg.dbRing.getLsbD 31 = false → r.kind ≠ 2 → (v - r.head).toNat ≤ r.size →
      exec (.ldgDbValue v) s = .next (s.setRing n { r with tail := v, stopped := false }))
    ∧ (s.ldg.dbRing.getLsbD 31 = false → r.kind = 2 → (v - r.head).toNat ≤ r.size → exec (.ldgDbValue v) s =
      .next ((s.setRing n { r with tail := v, stopped := false }).sendEntries n { r with tail := v, stopped := false } r.tail
        (v - r.tail).toNat))
    ∧ (s.ldg.dbRing.getLsbD 31 = false → r.size < (v - r.head).toNat →
      exec (.ldgDbValue v) s = .next (s.discardDoorbell.raise { code := 0x11, job := r.job })))
  ∧ (∀ (s : State) (v : W32), s.takesWrite false 3 0x104 = true →
    (bits s.ldg.dbRing.toNat 19 0 ≤ 2 ∨ s.ring (bits s.ldg.dbRing.toNat 19 0) = none) →
    exec (.ldgDbValue v) s = .next s.discardDoorbell)
  ∧ (∀ (s : State) (v : W32) (r : Ring), s.takesWrite false 3 0x120 = true → s.ring 2 = some r →
    exec (.errPop v) s = .next (s.setRing 2 { r with head := r.head + BitVec.ofNat 32 (min (bits v.toNat 16 0) r.used) }))
  ∧ (∀ (s : State) (v : W32) (r : Ring), s.takesWrite false 3 0x258 = true → s.ring 1 = some r →
    exec (.admCplPop v) s =
      .next (s.setRing 1 { r with head := r.head + BitVec.ofNat 32 (min (bits v.toNat 16 0) r.used) }).drainCpl)
  ∧ (∀ (s : State) (v : W32), s.takesWrite false 3 0x124 = true → ∃ t, exec (.errIrq v) s = .next t
    ∧ t.ldg = { s.ldg with errIrq := v &&& 0x800007FF }
    ∧ (∀ r, s.ring 2 = some r → t = { s with ldg := { s.ldg with errIrq := v &&& 0x800007FF } }.setRing 2
      { r with irqEn := v.getLsbD 31, msix := v.setWidth 11 })
    ∧ (s.ring 2 = none → t = { s with ldg := { s.ldg with errIrq := v &&& 0x800007FF } }))
  ∧ (∀ (s : State) (v : W32) (r : Ring), s.takesWrite false 3 0x240 = true → s.ring 0 = some r → v.getLsbD 0 = true →
    (r.full = false → exec (.admCmdPush v) s = .next (s.produce 0 { r with stopped := false } (stagedWords s.ldg.cmd)))
    ∧ (r.full = true → exec (.admCmdPush v) s = .next ({ s with ldg := { s.ldg with
      discard := BitVec.ofNat 32 (satAdd s.ldg.discard.toNat 1 (2 ^ 32 - 1)) } }.raise { code := 0x11 })))
  ∧ (∀ s : State, s.pageOpen false 3 = true → exec .ldgDbDiscard s = .next { s with
    ldg := { s.ldg with discard := 0 }, out := { s.out with lastRead := s.ldg.discard } })
  ∧ (∀ (s : State) (v : W32),
    (s.takesWrite false 3 0x104 = false → exec (.ldgDbValue v) s = .next s)
    ∧ (s.takesWrite false 3 0x120 = false ∨ s.ring 2 = none → exec (.errPop v) s = .next s)
    ∧ (s.takesWrite false 3 0x258 = false ∨ s.ring 1 = none → exec (.admCplPop v) s = .next s)
    ∧ (s.takesWrite false 3 0x124 = false → exec (.errIrq v) s = .next s)
    ∧ (s.takesWrite false 3 0x240 = false ∨ s.ring 0 = none ∨ v.getLsbD 0 = false → exec (.admCmdPush v) s = .next s)
    ∧ (s.pageOpen false 3 = false → exec .ldgDbDiscard s = .next { s with out := { s.out with lastRead := 0 } }))

/-- O41. REC_DATA, PIECE_DONE, ABORT and FWD_DATA act on the recovery window and the forwarding table. In recovery
mode (phase 0xE) a word goes to REC_PTR of the piece and the pointer advances, PIECE_DONE makes the piece part of
the image, ABORT discards every piece; in any other phase the three do nothing. A write of FWD_DATA puts four
entries from FWD_INDEX, sends what waits by the table it leaves, and advances the index, a read answers the four
entries and advances it; on a closed page the write does nothing and the read answers 0. Readings that the rules
leave open are the model's: log 8, 33. (From R307, R421, R457, R458.) -/
def Obligations.RecoveryAndForwardingAct : Prop :=
  (∀ (s : State) (v : W32), s.su.phase = 0xE →
    exec (.recData v) s = .next (s.setRcv { s.su.rcv with
      words := put s.su.rcv.ptr.toNat v s.su.rcv.words, ptr := s.su.rcv.ptr + 1, status := 1 })
    ∧ exec .pieceDone s = .next (s.setRcv { s.su.rcv with
      pieces := put s.su.rcv.piece.toNat s.su.rcv.words s.su.rcv.pieces, words := [], status := 1, waiting := none })
    ∧ exec .abort s = .next (s.setRcv { s.su.rcv with pieces := [], words := [], status := 0, waiting := none }))
  ∧ (∀ (s : State) (v : W32), s.su.phase ≠ 0xE → exec (.recData v) s = .next s ∧ exec .pieceDone s = .next s
    ∧ exec .abort s = .next s)
  ∧ (∀ (s : State) (v : W32), s.takesWrite false 0 0x154 = true → exec (.fwdData true v) s = .next
    { s with dev := { s.dev with fwd := putEntries (4 * s.dev.fwdIndex.toNat) v.toNat 4 s.dev.fwd } }.rerouteAll.fwdNext)
  ∧ (∀ (s : State) (v : W32), s.takesWrite false 0 0x154 = false → exec (.fwdData true v) s = .next s)
  ∧ (∀ (s : State) (v : W32), s.pageOpen false 0 = true → exec (.fwdData false v) s = .next
    { s with dev := { s.dev with fwdIndex := s.dev.fwdIndex + 1 }, out := { s.out with lastRead := BitVec.ofNat 32 s.fwdWord } })
  ∧ (∀ (s : State) (v : W32), s.pageOpen false 0 = false → exec (.fwdData false v) s =
    .next { s with out := { s.out with lastRead := 0 } })
  ∧ (∀ s : State, s.fwdWord = leNat ((List.range 4).map (fun i => lookD 0 (4 * s.dev.fwdIndex.toNat + i) s.dev.fwd)))

/-- O42. The counter pairs, event counts and monitor windows act on reads, writes, samples, SNAP and CLEAR_ALL.
COUNTER_LO_READ of an open page answers LO and latches HI for the next read of HI. A write of LO of a host window
pair is held and HI then loads both halves, with no held LO the low half is 0; a locked window takes neither.
EVT_COUNT answers the count and clears it. MON_SEL of an offered quantity selects it and its BASE and clears the
capture, MON_CTL_CLEAR clears it, a read of MON_COUNT_LO takes a snapshot or keeps SNAP's, SNAP takes a snapshot of
every assigned page's window and is counted, CLEAR_ALL clears every window; a sample of the quantity that a running
window selects is captured by it, limited to 32 bits, and no other sample is. A closed page answers 0, a page that
takes no write is left as it was, and a pair that is no host window takes no write (log 38). (From R11, R397, R398,
R399, R451, R463.) -/
def Obligations.CountersAndMonitorsAct : Prop :=
  (∀ (s : State) (off : W32) (lo : Nat), regAligned off = true → s.pageOpen false (off.toNat / 4096) = true →
    off.toNat % 4096 ≠ 0x1C → off.toNat % 4096 ≠ 0x30 →
    pairOf (s.pageType (off.toNat / 4096)) (off.toNat % 4096) = some (lo, true) →
    exec (.counterLoRead off) s = .next
      (let t := s.latch false (4096 * (off.toNat / 4096) + off.toNat % 4096)
          (BitVec.ofNat 32 (s.regValue (off.toNat / 4096) (off.toNat % 4096 + 4)))
       { t with out := { t.out with
          lastRead := BitVec.ofNat 32 (s.regValue (off.toNat / 4096) (off.toNat % 4096)) } }))
  ∧ (∀ (s : State) (off v : W32) (lo : Nat), regAligned off = true → s.pageType (off.toNat / 4096) = 7 →
    s.takesWrite false (off.toNat / 4096) (off.toNat % 4096) = true →
    let o := off.toNat % 4096
    let x := lookD HostWin.reset ((o - 0x400) / 32) s.tel.wins
    (winPair o = some (lo, true) → exec (.counterLoWrite off v) s = .next (if x.locked then s
      else { s with dev := { s.dev with held := { s.dev.held with writes := put (0x6000 + o) v s.dev.held.writes } } }))
    ∧ (winPair o = some (lo, false) → exec (.counterHiWrite off v) s = .next (if x.locked then s else { s with
      tel := { s.tel with
        wins := put ((o - 0x400) / 32)
          (x.load (decide (8 ≤ o % 32)) v (lookD 0 (0x6000 + (o - 4)) s.dev.held.writes)) s.tel.wins }
      dev := { s.dev with held := { s.dev.held with writes := del (0x6000 + (o - 4)) s.dev.held.writes } } })))
  ∧ (∀ (s : State) (off v : W32), regAligned off = true →
    (s.pageType (off.toNat / 4096) ≠ 7 ∨ (∀ lo, winPair (off.toNat % 4096) ≠ some (lo, true))
      ∨ s.takesWrite false (off.toNat / 4096) (off.toNat % 4096) = false → exec (.counterLoWrite off v) s = .next s)
    ∧ (s.pageType (off.toNat / 4096) ≠ 7 ∨ (∀ lo, winPair (off.toNat % 4096) ≠ some (lo, false))
      ∨ s.takesWrite false (off.toNat / 4096) (off.toNat % 4096) = false → exec (.counterHiWrite off v) s = .next s)
    ∧ (s.pageOpen false (off.toNat / 4096) = false → exec (.counterLoRead off) s =
      .next { s with out := { s.out with lastRead := 0 } }))
  ∧ (∀ (s : State) (n : Nat), n < 0xA40 → s.pageOpen false n = true →
    exec (.evtCount n) s = .next (let t := s.setPage n { s.page n with evtCount := 0 }
      { t with out := { t.out with lastRead := (s.page n).evtCount } })
    ∧ exec (.monCountLo n) s = .next (let t := s.setPage n { s.page n with mon := (s.page n).mon.take }
      { t with out := { t.out with lastRead := BitVec.ofNat 32 (t.regValue n 0x30) } }))
  ∧ (∀ (s : State) (n : Nat), n < 0xA40 → s.pageOpen false n = false →
    exec (.evtCount n) s = .next { s with out := { s.out with lastRead := 0 } }
    ∧ exec (.monCountLo n) s = .next { s with out := { s.out with lastRead := 0 } })
  ∧ (∀ (s : State) (n : Nat) (v : W32), s.takesWrite false n 0x20 = true → exec (.monSel n v) s = .next (s.setPage n
    { s.page n with mon := { (s.page n).mon with
      base := BitVec.ofNat 8 (bits v.toNat 23 16), cap := MonCap.zero, snap := none, kept := none,
      quantity := if bits v.toNat 7 0 < monQuantities (s.pageType n) then BitVec.ofNat 8 (bits v.toNat 7 0)
        else (s.page n).mon.quantity } }))
  ∧ (∀ (s : State) (n : Nat), s.takesWrite false n 0x24 = true → exec (.monCtlClear n) s = .next (s.setPage n
    { s.page n with mon := { (s.page n).mon with cap := MonCap.zero, snap := none, kept := none } }))
  ∧ (∀ s : State, s.takesWrite false 5 0x100 = true →
    (∃ t, exec .snap s = .next t ∧ t = { s with pages := t.pages, asy := t.asy }
      ∧ t.asy = { s.asy with snaps := BitVec.ofNat 16 (min (s.asy.snaps.toNat + 1) 65535) }
      ∧ ∀ n, n < 0xA40 → s.pageType n ≠ 0 →
        t.page n = { s.page n with mon := { (s.page n).mon with kept := some (s.page n).mon.cap } })
    ∧ ∃ t, exec .clearAll s = .next t ∧ t = { s with pages := t.pages }
      ∧ ∀ n, t.page n = { s.page n with mon := { (s.page n).mon with cap := MonCap.zero, snap := none, kept := none } })
  ∧ (∀ (s : State) (n : Nat) (v : W32), (s.takesWrite false n 0x20 = false → exec (.monSel n v) s = .next s)
    ∧ (s.takesWrite false n 0x24 = false → exec (.monCtlClear n) s = .next s)
    ∧ (s.takesWrite false 5 0x100 = false → exec .snap s = .next s ∧ exec .clearAll s = .next s))
  ∧ (∀ (s : State) (n q : Nat) (v : Int),
    (s.mod.railsUp = true → q < monQuantities (s.pageType n) →
      exec (.monitorSample n q v) s = .next (s.setPage n { s.page n with mon := (s.page n).mon.sample q v }))
    ∧ (s.mod.railsUp = false ∨ monQuantities (s.pageType n) ≤ q → exec (.monitorSample n q v) s = .next s))
  ∧ (∀ (m : Mon) (q : Nat) (v : Int), (m.run = false ∨ m.quantity.toNat ≠ q → m.sample q v = m)
    ∧ (m.run = true → m.quantity.toNat = q → (m.sample q v).cap.count = (m.cap.count + 1) % 2 ^ 64
      ∧ (m.cap.count = 0 → (m.sample q v).cap.min = max (-(2 ^ 31 : Int)) (min v (2 ^ 31 - 1))
        ∧ (m.sample q v).cap.max = max (-(2 ^ 31 : Int)) (min v (2 ^ 31 - 1)))))

/-- O43. BUR_WIN_SEL, CORE_WIN_SEL, FOLIO_ENT, TEL_RELAY_TO, REGISTER_WRITE and MSIX_UNMASK act on windows, folio
and vectors. Where the page takes the write: a bursar or core selector copies the item that it names at one
instant, a reserved bursar KIND leaves the field as it was, a reserved core selector is discarded; entry 0 of the
folio table is read-only and DEVICE_ID keeps while VALID is 1, another write sets VALID and DEVICE_ID, unclaimed
and with no claim error, and sends the claim; TEL_RELAY_TO answers the count and clears it; any other register
takes the effect of its table. A page that takes no write is left as it was, and a closed one answers 0. At a
teller the host's write of the MSI-X entry of a vector below 2,048 keeps its address, data and mask bit; with the
mask clear a pending vector is sent with them, once, unless the function is in D3hot; what the host has written
into the configuration space is in force before (log 4); elsewhere it does nothing. (From R326, R328, R330, R461,
R464, R470.) -/
def Obligations.WindowsAndTellerRegistersAct : Prop :=
  (∀ (s : State) (v : W32), s.takesWrite false 2 0x110 = true → exec (.burWinSel v) s = .next
    { s with su := { s.su with win := ⟨BitVec.ofNat 32 ((if 3 < bits v.toNat 31 28 then bits s.su.win.sel.toNat 31 28
      else bits v.toNat 31 28) * 2 ^ 28 + bits v.toNat 27 0), winWords 16 (s.bursarItem v.toNat), false⟩ } })
  ∧ (∀ (s : State) (p : Nat) (v : W32), s.takesWrite false (0x800 + p) 0x120 = true →
    (∀ ws tag, coreItem (s.shownSlot p) v.toNat = some (ws, tag) → exec (.coreWinSel p v) s = .next
      (s.setCore p { s.core p with win := ⟨v &&& 0xF0FF3F07, winWords 8 ws, tag⟩ }))
    ∧ (coreItem (s.shownSlot p) v.toNat = none → exec (.coreWinSel p v) s = .next s))
  ∧ (∀ (s t : State) (pos : Nat) (v : W32) (e : FolioEnt), s.takesWrite false 6 (0x100 + 4 * pos) = true →
    e = lookD FolioEnt.reset pos s.tel.folio →
    t = { s with tel := { s.tel with folio := put pos ⟨v.getLsbD 31, false, false, v.setWidth 16⟩ s.tel.folio } } →
    (pos = 0 ∨ (e.valid = true ∧ v.setWidth 16 ≠ e.id) → exec (.folioEnt pos v) s = .next s)
    ∧ (pos ≠ 0 → (e.valid = true → v.setWidth 16 = e.id) →
      exec (.folioEnt pos v) s = .next (if v.getLsbD 31 then t.sendClaim pos (v.setWidth 16) else t)))
  ∧ (∀ s : State, s.pageOpen false 6 = true → s.su.teller = true → exec .telRelayTo s = .next { s with
    tel := { s.tel with relayTo := 0 }, out := { s.out with lastRead := s.tel.relayTo } })
  ∧ (∀ (s : State) (off v : W32) (env : StartEnv), regAligned off = true →
    (s.takesWrite false (off.toNat / 4096) (off.toNat % 4096) = true →
      exec (.registerWrite off v env) s = .next (s.regEffect (off.toNat / 4096) (off.toNat % 4096) v env))
    ∧ (s.takesWrite false (off.toNat / 4096) (off.toNat % 4096) = false →
      exec (.registerWrite off v env) s = .next s))
  ∧ (∀ (s : State) (v : W32) (p pos : Nat), (s.takesWrite false 2 0x110 = false → exec (.burWinSel v) s = .next s)
    ∧ (s.takesWrite false (0x800 + p) 0x120 = false → exec (.coreWinSel p v) s = .next s)
    ∧ (s.takesWrite false 6 (0x100 + 4 * pos) = false → exec (.folioEnt pos v) s = .next s)
    ∧ (s.pageOpen false 6 = false → exec .telRelayTo s = .next { s with out := { s.out with lastRead := 0 } }))
  ∧ (∀ (s u : State) (n : Nat) (a : W64) (d c : W32) (g : Option PcieCfg),
    (u = match g with | some y => s.configure y | none => s) →
    (s.su.teller = true → n < 2048 →
      (c.getLsbD 0 = false → u.tel.pend.contains n = true → u.tel.pcie.d3hot = false →
        exec (.msixUnmask ⟨n, a, d, c, g⟩) s = .next { u with
          tel := { u.tel with msix := put n ⟨a, d, c &&& 1⟩ u.tel.msix, pend := eraseNat n u.tel.pend }
          out := { u.out with msix := ⟨BitVec.ofNat 11 n, a, d⟩ :: u.out.msix } })
      ∧ (c.getLsbD 0 = true ∨ u.tel.pend.contains n = false → exec (.msixUnmask ⟨n, a, d, c, g⟩) s = .next { u with
        tel := { u.tel with msix := put n ⟨a, d, c &&& 1⟩ u.tel.msix } }))
    ∧ (s.su.teller = false ∨ 2048 ≤ n → exec (.msixUnmask ⟨n, a, d, c, g⟩) s = .next s))

/-- O44. Only the commands of supply, temperature, boundaries and management move the placement or change the
supply. Every command outside a named list (Instr.movesPlacement: the commands of supply, temperature, reset,
module management, assay and ageing outcomes, step boundaries and posting, page fences, and job loading) that
answers a next state leaves device time, the module's supply and temperature registers, the I3C target, the timing
regions, the fabrics' clocks, the dies' boot records, and the placement of logical cores and of HBM frames exactly
as they were. (From R237, R292, R391, R426, R428, R431, R440, R442, R450.) -/
def Obligations.PlacementAndSupplyFrame : Prop :=
  ∀ (i : Instr) (s t : State), i.movesPlacement = false → exec i s = .next t → t.placed = s.placed

/-- O45. Only the commands that act on jobs change the resident jobs, their posted memories or their requests.
Every command outside a named list (Instr.touchesWork) that answers a next state leaves every resident job with its
posted memories, the completions that wait for room, the sequence table, the batches, the order of requests and the
write-backs exactly as they were. Among the commands outside the list are the control records, the landing of a
move, the link commands LANE_DROP, TRAINING and FLIT_RECEIVE with the port timers, HELLO, AUTH_FAIL and
BINDING_FORWARD, the received AT256, AFP32, CPL, CSGN and VOID, and every read of a register. FLASH_GATE_OPEN is in
the list for the one case that a FINISH of recovery mode waits for the gate (log 33); where none waits it too
leaves them as they were. (From R237, R239, R248, R254, R275, R284.) -/
def Obligations.JobsAndRequestsFrame : Prop :=
  (∀ (i : Instr) (s t : State), i.touchesWork = false → exec i s = .next t → t.work = s.work)
  ∧ (∀ (mv : Nat) (s t : State), s.su.rcv.waiting = none → exec (.flashGateOpen mv) s = .next t → t.work = s.work)

/-- O46. A record of a step writes its escrow shadow: the posted memories stay as they were, or a job ends. With no
event armed on an HBM page, every record command whose checks report no uncorrectable block leaves the posted
memories of every job, and all that concerns where they are placed, exactly as they were, whatever the record
writes; the one other outcome is that the record ends a resident job (a program fault, or poison consumed in a
region that is not regenerable). The completion of a record and the landing of a move leave the posted memories as
they were in every case. (From R239, R275, R283, R288, R258.) -/
def Obligations.EscrowProtectsPostedMemory : Prop :=
  (∀ (i : Instr) (s t : State) (d : Nat) (chk : Chk), i.issues = some (d, chk) → s.armedHbm = false →
    (∀ sp b x y, chk ≠ .uncorrectable sp b x y) → exec i s = .next t →
    t.posted = s.posted ∨ ∃ j ∈ s.jobs, t.job j.num = none)
  ∧ (∀ (s t : State) (d idx : Nat) (chk : Chk),
    (exec (.recordComplete d idx) s = .next t → t.posted = s.posted)
    ∧ (exec (.moveLands d idx chk) s = .next t → t.posted = s.posted))

/-- O47. While the module is held for its supply, or is not ready, no record issues and no step is selected. While
the module is quiesced or held for its supply, or before it is ready, every record command, STEP_BEGIN, STEP_END
and STEP_SELECT leave the whole state as it is; records already issued may still complete. (From R238, R428, R431.)
-/
def Obligations.HeldIssuesNothing : Prop :=
  (∀ (i : Instr) (s : State) (d : Nat) (chk : Chk), i.issues = some (d, chk) → (s.held = true ∨ s.ready = false) →
    exec i s = .next s)
  ∧ (∀ (s : State) (d : Nat) (chk : Chk), (s.held = true ∨ s.ready = false) →
    exec (.stepBegin ⟨d, chk⟩) s = .next s ∧ exec (.stepEnd ⟨d, chk⟩) s = .next s ∧ exec .stepSelect s = .next s)

/-- O48. Raising an event, writing the host's memory and completing a command change only what reports are written
to. Writing an error record with its page status, an information event, an interrupt, a write of host memory and a
completion leave the queue of waiting commands, device time, supply, regions, dies, flash, cores, channels, the
placement, sequences, batches, the runs, the assays and the fabric buffers as they were: only pages, the ledger,
rings, ports and what the block has put out may change. (From R247, R251, R330, R351, R453.) -/
def Obligations.ReportsTouchOnlyReports : Prop :=
  ∀ (s : State) (e : Evt) (c : Cmd) (status r0 r1 : Nat) (x : Completion) (v : BitVec 11) (addr : Nat) (bs : List Byte),
    (s.raise e).rest = s.rest ∧ (s.interrupt v).rest = s.rest ∧ (s.hostWrite addr bs).rest = s.rest
    ∧ (s.pushCpl x).rest = s.rest ∧ (s.finish c status).rest = s.rest ∧ (s.finishWith c r0 r1).rest = s.rest
    ∧ s.drainCpl.rest = s.rest ∧ (∀ job step cls, (s.infoEvent job step cls).rest = s.rest)

/-- O49. round_int is the rounding of R60 on every non-negative rational. For every numerator, positive denominator
and mode, the model's integer rounding of the fraction equals R60's function on the rational number: the floor, one
more in rne where the rest is above one half or is one half with an odd floor, and the floor with its last bit set
in rto where anything is left over. (States R60.) -/
def Obligations.RoundIntRounds : Prop :=
  ∀ (num den : Nat) (mode : Rnd), 0 < den → roundInt num den mode = roundRat ((num : Rat) / (den : Rat)) mode

/-- O50. A block element's value is its element value times 2^E; exponent bytes 0x20 to 0xDF are reserved. For
every block format (BP8, BP6, BP4), element code and exponent byte: the byte is reserved exactly from 0x20 to 0xDF;
from 0x00 to 0x1F the decoded value is the element's value times 2 to the power of the byte; from 0xE0 to 0xFF it
is the element's value times 2 to the power of the byte minus 256. (States R49.) -/
def Obligations.BlockElementValue : Prop :=
  ∀ (f : Fmt) (c aux : Nat), isBlock f = true → aux < 256 →
    (badExp aux = true ↔ 0x20 ≤ aux ∧ aux ≤ 0xDF)
    ∧ (aux ≤ 0x1F → (decodeElem f c aux).toFrac.rat = (decodeCode f c).toFrac.rat * (2 : Rat) ^ (aux : Int))
    ∧ (0xE0 ≤ aux → (decodeElem f c aux).toFrac.rat = (decodeCode f c).toFrac.rat * (2 : Rat) ^ ((aux : Int) - 256))

/-- O51. A finite value converts into I8 by its magnitude over the row scale, rounded to even, clamped and signed.
For a finite or zero value x and a row scale code: with a scale of 0 or NaR the code is 0 and the element counts as
invalid; a zero gives code 0; otherwise, with y = x divided by the scale's value, the code is round_int(|y|, rne)
with the sign of y, 127 above 127 and −128 below −128, as an eight-bit two's complement number. (States R64.) -/
def Obligations.ConvertToI8 : Prop :=
  ∀ (a : Nat) (x : Val), x.exact →
    ((decodePosit a 8 2).cls = .zero ∨ (decodePosit a 8 2).cls = .invalid →
      (encodeI8 a x).code = 0 ∧ (encodeI8 a x).inv = true)
    ∧ ((decodePosit a 8 2).cls = .finite → x.cls = .zero → (encodeI8 a x).code = 0)
    ∧ (∀ y : Rat, (decodePosit a 8 2).cls = .finite → x.cls = .finite →
      y = x.toFrac.rat / (decodePosit a 8 2).toFrac.rat →
      (0 ≤ y → signed (encodeI8 a x).code 8 = min (roundRat y .rne : Int) 127)
      ∧ (y < 0 → signed (encodeI8 a x).code 8 = max (-(roundRat (-y) .rne : Int)) (-128)))

/-- O52. Before its one rounding an element-wise instruction holds the exact result of finite operands. For finite
or zero operands a, b and c the value that the element-wise instruction encodes is exactly: ADD a + b, SUB a − b,
MUL a × b, MAD a × b + c, MIN and MAX the smaller and the larger, ABS the magnitude, NEG the opposite, CVT a, SEL a
where c is above zero and else b, CMPGE 1 where a is at least b and else 0; and no such element counts as invalid.
(From R138, R67.) -/
def Obligations.ElementwiseResultsAreExact : Prop :=
  ∀ a b c : Val, a.exact → b.exact → c.exact →
    (elemForm .add a b c).val.toFrac.rat = a.toFrac.rat + b.toFrac.rat
    ∧ (elemForm .sub a b c).val.toFrac.rat = a.toFrac.rat - b.toFrac.rat
    ∧ (elemForm .mul a b c).val.toFrac.rat = a.toFrac.rat * b.toFrac.rat
    ∧ (elemForm .mad a b c).val.toFrac.rat = a.toFrac.rat * b.toFrac.rat + c.toFrac.rat
    ∧ (elemForm .min a b c).val.toFrac.rat = (if a.toFrac.rat ≤ b.toFrac.rat then a.toFrac.rat else b.toFrac.rat)
    ∧ (elemForm .max a b c).val.toFrac.rat = (if a.toFrac.rat ≤ b.toFrac.rat then b.toFrac.rat else a.toFrac.rat)
    ∧ (elemForm .abs a b c).val.toFrac.rat = (if 0 ≤ a.toFrac.rat then a.toFrac.rat else -a.toFrac.rat)
    ∧ (elemForm .neg a b c).val.toFrac.rat = -a.toFrac.rat
    ∧ (elemForm .cvt a b c).val.toFrac.rat = a.toFrac.rat
    ∧ (elemForm .sel a b c).val.toFrac.rat = (if 0 < c.toFrac.rat then a.toFrac.rat else b.toFrac.rat)
    ∧ (elemForm .cmpge a b c).val.toFrac.rat = (if b.toFrac.rat ≤ a.toFrac.rat then 1 else 0)
    ∧ ∀ op, (elemForm op a b c).inv = false

/-- O53. A lane of the exact path is the exact sum of its products, whatever the group size and the order of the
terms. An exact pass adds to the lane, in units of 2^−112, the sum of what its products add, for every positive
group size; two passes over the same products in any order and any two group sizes leave the same lane value. (From
R73, R74.) -/
def Obligations.LaneSumIsExact : Prop :=
  (∀ (col gk : Nat) (ps : List (Nat × Nat)) (l : LaneVal), 0 < gk →
    (passExact col gk ps l).v = l.v + (ps.map (fun x => (planchetProduct x.1 x.2).units)).sum)
  ∧ (∀ (col gk col' gk' : Nat) (ps qs : List (Nat × Nat)) (l : LaneVal), 0 < gk → 0 < gk' → ps.Perm qs →
    (passExact col gk ps l).v = (passExact col' gk' qs l).v)

/-- O54. A posted memory in its canonical form reads back what is written, elsewhere as before, and keeps its form.
Writing a list of bytes at an address of a canonical posted memory: those addresses then read the bytes, every
other address reads as before, no poison mark changes, and the memory is still in its canonical form. (From R223,
R253, R275.) -/
def Obligations.PostedMemoryReadsBack : Prop :=
  ∀ (m : Mem) (a : Nat) (bs : List Byte), m.wf = true →
    (m.write a bs).read a bs.length = bs
    ∧ (∀ x, x < a ∨ a + bs.length ≤ x → (m.write a bs).read x 1 = m.read x 1)
    ∧ (m.write a bs).poison = m.poison ∧ (m.write a bs).wf = true

/-- O55. A step reads its own shadow over the posted copy, and posting makes exactly that the posted copy. With a
posted memory in canonical form and a shadow whose addresses rise: a byte that the step wrote reads as written, a
byte that it did not write reads as the posted copy, and a further write changes the byte written alone; after
posting, every byte of the posted copy reads what the step itself read, and the posted copy keeps its canonical
form of cells. (From R237, R239, R275.) -/
def Obligations.PostingPublishesTheShadow : Prop :=
  ∀ (m : Mem) (sh : Shadow), m.wf = true → sh.cells.Pairwise (fun x y => x.1 < y.1) →
    (∀ (a x : Nat) (b : Byte), shGet (sh.putByte a b) m x = if x = a then b else shGet sh m x)
    ∧ (∀ x, (∀ e ∈ sh.cells, e.1 ≠ x) → shGet sh m x = cellGet x m.cells)
    ∧ (∀ x b, (x, b) ∈ sh.cells → shGet sh m x = b)
    ∧ (∀ x, cellGet x (m.post sh).cells = shGet sh m x)
    ∧ cellsWf 0 (m.post sh).cells = true

/-- O56. DEV_EVT_SUMMARY bit t reads 1 exactly while a page of type t has an enabled status bit. For every page
type t from 1 to 31, bit t of the summary that DEV_EVT_SUMMARY reads is 1 exactly when some page of type t has a
bit set in both EVT_STATUS and EVT_ENABLE; and with the last evaluated summary zero, the current one nonzero and
DEV_EVT_IRQ.EN set, evaluating it sends the vector that DEV_EVT_IRQ names. (From R454, R15.) -/
def Obligations.EventSummaryRegister : Prop :=
  (∀ (s : State) (t : Nat), 1 ≤ t → t < 32 → (s.evtSummary.getLsbD t = true ↔
    ∃ e ∈ s.pages, s.pageType e.1 = t ∧ e.2.evtStatus &&& e.2.evtEnable ≠ 0))
  ∧ (∀ s : State, s.dev.summaryPrev = 0 → s.evtSummary ≠ 0 → s.dev.evtIrq.getLsbD 31 = true →
    s.evtEdge = { s with dev := { s.dev with summaryPrev := s.evtSummary } }.interrupt (s.dev.evtIrq.setWidth 11))

/-- O57. An event enters the error ledger at TAIL; with 65,536 unread records it overwrites the oldest. Once ring 2
exists, raising an event writes its record at TAIL with the record's own SEQ and advances TAIL by one. With room
HEAD stays; with 65,536 unread records HEAD advances too, FLAGS.OVERWROTE is set in the new record and ERR_LOST
counts one. The page of the event's unit counts it and sets its class bit. Readings that the rules leave open are
the model's: log 21. (From R351, R352, R453.) -/
def Obligations.EventIsRecorded : Prop :=
  ∀ (s : State) (e : Evt) (r : Ring), s.ring 2 = some r →
    ((r.tail - r.head).toNat ≠ 65536 →
      (s.raise e).ring 2 = some { r with
        entries := put (r.tail.toNat % 65536) (withSeq (s.record e) r.tail) r.entries
        tail := r.tail + 1 } ∧ (s.raise e).ldg = s.ldg)
    ∧ ((r.tail - r.head).toNat = 65536 →
      (s.raise e).ring 2 = some { r with
        entries := put (r.tail.toNat % 65536)
          (match withSeq (s.record e) r.tail with
           | w :: t => (w ||| BitVec.ofNat 64 (2 ^ 55)) :: t
           | [] => []) r.entries
        tail := r.tail + 1
        head := r.head + 1 } ∧ (s.raise e).ldg.errLost = s.ldg.errLost + 1)
    ∧ ((s.raise e).page (unitPage e.utype e.punit)).evtStatus
      = ((s.page (unitPage e.utype e.punit)).evtStatus ||| BitVec.ofNat 32 (2 ^ evtClass e.code))
    ∧ ((s.raise e).page (unitPage e.utype e.punit)).evtCount.toNat
      = min ((s.page (unitPage e.utype e.punit)).evtCount.toNat + 1) (2 ^ 32 - 1)

/-- O58. While a step is between orders 2 and 5, or in the recount sequence, no other step is selected. If some
step in progress is before order 6, waits for a recount run, or has had more than one run, the selection of a step
leaves the whole state as it is. (From R237, R346.) -/
def Obligations.RecountHoldsOtherSteps : Prop :=
  ∀ s : State, (∃ r ∈ s.runs, r.order < 6 ∨ r.waiting = true ∨ 2 ≤ r.history.length) → exec .stepSelect s = .next s

/-- O59. The values that the specification gives at power-on. Right after reset no command waits, no job, ring,
sequence, batch, step or assay exists, device time is 0, the module has no supply, no mode bit of DEV_CTL is set,
the undercut count of the power page and the ledger page's two counters, ERR_LOST and LDG_DB_DISCARD, are 0 (Tables
16-8 and 16-9) and its completion interrupt is enabled with vector 0, every page's status, enable and count read 0,
the sparing reserve holds two channels' contents, no alert condition holds and the I3C target has no dynamic
address. No core is fenced: that is the shipped record of log 7, a DESIGN CHOICE. (From R15, R36, R247, R264, R292,
16_register_pages.md.) -/
def Obligations.ResetValues : Prop :=
  State.reset.pending = [] ∧ State.reset.jobs = [] ∧ State.reset.rings = [] ∧ State.reset.seqTab = []
  ∧ State.reset.runs = [] ∧ State.reset.batches = [] ∧ State.reset.asy.jobs = [] ∧ State.reset.time = 0
  ∧ State.reset.mod.railsUp = false ∧ State.reset.dev.proofEn = false ∧ State.reset.dev.timingLock = false
  ∧ State.reset.dev.lockBroken = 0 ∧ State.reset.mod.undercut = 0 ∧ State.reset.ldg.errLost = 0 ∧ State.reset.ldg.discard = 0
  ∧ State.reset.ldg.cplIrq = 0x80000000 ∧ (∀ n, (State.reset.page n).evtStatus = 0
    ∧ (State.reset.page n).evtEnable = 0 ∧ (State.reset.page n).evtCount = 0)
  ∧ (∀ c, State.reset.isFenced 1 c = false) ∧ State.reset.spareGb = 2 ∧ State.reset.alertCause = 0
  ∧ State.reset.mod.flashGate = false ∧ State.reset.mod.quiesced = false ∧ State.reset.i3c.dynAddr = none

/-- O60. WR, AT256, AFP32, CSGN and VOID of a contribution: by its step and declaration, data lands, a countersign
verifies, a void withdraws. For the request at the front of its channel about a job that this device runs and whose
sender hosts a shard of it: of a later step it is answered RETRY_STEP, of an earlier one STALE; of the current step
it belongs to the declared contribution that its CONTRIB and place name, or is denied. Data of the mode that the
plan gives is received: the first that passes parity lands whole, its entry of the received set holding the bytes
that its destination takes, and is answered OK: the completion of status 0 with the request's tag goes to its
sender. A countersign before its data is held; one whose digest and byte count match complete data verifies it and
is answered OK; another is answered MISMATCH, the data is discarded and the event is counted. A void of what is not
yet received withdraws it with its event and is answered OK; one of an older ATTEMPT is STALE. Readings that the
rules leave open are the model's: log 15, 16, 17. (From R303, R305, R318, R320, R321, R322.) -/
def Obligations.ContributionsLandAndAreVerified : Prop :=
  (∀ (s u : State) (p m : Nat) (t : Txn) (chk : Chk) (env : StartEnv) (c : Instr),
    (m = 0 ∧ c = .wr p chk env ∧ s.takeTxn p 2 = some (t, u)) ∨ (m = 1 ∧ c = .at256 p chk ∧ s.takeTxn p 3 = some (t, u))
      ∨ (m = 2 ∧ c = .afp32 p chk ∧ s.takeTxn p 4 = some (t, u)) → t.space < 3 →
    (u.job t.job = none → exec c s = .next (u.denied p t))
    ∧ ∀ j, u.job t.job = some j →
      (j.ofJob t.src = false → exec c s = .next (u.denied p t))
      ∧ (j.ofJob t.src = true →
        (u.stepAt j t.stepLo = .ahead → exec c s = .next (u.answer p t 2))
        ∧ (u.stepAt j t.stepLo = .behind → exec c s = .next (u.answer p t 3))
        ∧ ∀ r, u.stepAt j t.stepLo = .now r →
          (j.named r.template t (t.len / 4) = none → exec c s = .next (u.denied p t))
          ∧ ∀ x, j.named r.template t (t.len / 4) = some x →
            (x.mode j ≠ m → exec c s = .next (u.denied p t))
            ∧ (x.mode j = m → exec c s = .next (u.recvData p j r x t chk)
              ∧ (chk = .ok → u.wayArmed p x.slot r t = none → u.recvOf x t = none →
                ∃ v w, exec c s = .next v ∧ v = (u.landIn p j x (x.fresh j t p) t).answer p t 0 ∧ v.recvOf x t = some w ∧ w.landed = x.bytes j t [] ∧ w.attempt = t.attempt
                  ∧ w.marks = t.marks ∧ w.complete = decide ((x.bytes j t []).length = x.count j) ∧ w.verified = false))))
  ∧ (∀ (s : State) (p k : Nat) (t : Txn), ∃ q, s.answer p t k = s.setPort q ((s.port q).send { s.txn 5 t.src t.job with
      tag := t.tag, status := k, len := 0, poison := 0, data := [], contrib := t.contrib, stepLo := t.stepLo
      attempt := t.attempt }))
  ∧ (∀ (s u : State) (p n : Nat) (t : Txn) (c : Instr), (n = 8 ∧ c = .csgn p) ∨ (n = 9 ∧ c = .void p) →
    s.takeTxn p n = some (t, u) →
    (u.job t.job = none → exec c s = .next (u.denied p t))
    ∧ ∀ j, u.job t.job = some j → (u.stepAt j t.stepLo = .ahead → exec c s = .next (u.answer p t 2))
      ∧ (u.stepAt j t.stepLo = .behind → exec c s = .next (u.answer p t 3))
      ∧ ∀ r, u.stepAt j t.stepLo = .now r → j.named r.template t 1 = none → exec c s = .next (u.denied p t))
  ∧ (∀ (s u : State) (p : Nat) (t : Txn) (j : Job) (r : Run) (x : Incoming), s.takeTxn p 8 = some (t, u) →
    u.job t.job = some j → u.stepAt j t.stepLo = .now r → j.named r.template t 1 = some x →
    exec (.csgn p) s = .next (u.recvCsgn p j x t)
    ∧ (u.recvOf x t = none → ∃ v w, exec (.csgn p) s = .next v ∧ v.recvOf x t = some w ∧ w.landed = []
      ∧ w.held = some ⟨BitVec.ofNat 128 (natAt t.data 0 16), natAt t.data 16 8, p, t⟩)
    ∧ ∀ v, u.recvOf x t = some v → (t.attempt + 4 - v.attempt) % 4 = 0 → v.voided = false → v.complete = true →
      (BitVec.ofNat 128 (natAt t.data 0 16) = x.csgn j v.landed → natAt t.data 16 8 = x.count j →
        exec (.csgn p) s = .next ((u.setRecv { v with held := none, verified := true }).answer p t 0))
      ∧ (BitVec.ofNat 128 (natAt t.data 0 16) ≠ x.csgn j v.landed ∨ natAt t.data 16 8 ≠ x.count j →
        ∃ q w7, exec (.csgn p) s = .next (((((u.collEvent 0x13 q j x { v with held := none } w7).discard { v with held := none } x.token
          (v.attempt + 3)).answer p t 4).countQ q 6)) ∧ q = v.port.getD p))
  ∧ (∀ (s u : State) (p : Nat) (t : Txn) (j : Job) (r : Run) (x : Incoming), s.takeTxn p 9 = some (t, u) →
    u.job t.job = some j → u.stepAt j t.stepLo = .now r → j.named r.template t 1 = some x →
    exec (.void p) s = .next (u.recvVoid p j x t)
    ∧ (u.recvOf x t = none → t.status ≠ 1 → exec (.void p) s =
      .next (((u.collEvent 0x14 p j x (x.fresh j t p) 0).discard (x.fresh j t p) x.token t.attempt).answer p t 0))
    ∧ ∀ v, u.recvOf x t = some v → (t.attempt + 4 - v.attempt) % 4 = 3 → exec (.void p) s = .next (u.answer p t 3))
end

