-- ==== Sys2Proof/Laws/Alert.lean ====
section
/-! SUPPORT. The bits of the alert cause word, and ALERT_N. -/

namespace Sys2Proof.Machine

theorem b2n_bit_zero (b : Bool) (n : Nat) : (b2n b + 2 * n).testBit 0 = b := by
  rw [Nat.testBit_zero]; cases b <;> simp [b2n] <;> omega

theorem b2n_bit_succ (b : Bool) (n k : Nat) : (b2n b + 2 * n).testBit (k + 1) = n.testBit k := by
  rw [Nat.testBit_succ]; congr 1; cases b <;> simp [b2n] <;> omega

theorem alert_word_bits (a0 a1 a2 a3 a4 a5 a6 a7 a8 a9 a10 : Bool) (w : W32) (hw : w = BitVec.ofNat 32 (b2n a0 + 2 * b2n a1 + 4 * b2n a2
    + 8 * b2n a3 + 16 * b2n a4 + 32 * b2n a5 + 64 * b2n a6 + 128 * b2n a7 + 256 * b2n a8 + 512 * b2n a9 + 1024 * b2n a10)) :
    w.getLsbD 0 = a0 ∧ w.getLsbD 1 = a1 ∧ w.getLsbD 2 = a2 ∧ w.getLsbD 3 = a3 ∧ w.getLsbD 4 = a4 ∧ w.getLsbD 5 = a5
    ∧ w.getLsbD 6 = a6 ∧ w.getLsbD 7 = a7 ∧ w.getLsbD 8 = a8 ∧ w.getLsbD 9 = a9 ∧ w.getLsbD 10 = a10
    ∧ ∀ k, 11 ≤ k → w.getLsbD k = false := by
  have e : b2n a0 + 2 * b2n a1 + 4 * b2n a2
    + 8 * b2n a3 + 16 * b2n a4 + 32 * b2n a5 + 64 * b2n a6 + 128 * b2n a7 + 256 * b2n a8 + 512 * b2n a9 + 1024 * b2n a10
    = b2n a0 + 2 * (b2n a1 + 2 * (b2n a2 + 2 * (b2n a3 + 2 * (b2n a4 + 2 * (b2n a5 + 2 * (b2n a6 + 2 * (b2n a7 + 2 * (b2n a8
      + 2 * (b2n a9 + 2 * (b2n a10 + 2 * 0)))))))))) := by omega
  rw [hw, e]
  simp only [BitVec.getLsbD_ofNat]
  refine ⟨?_, ?_, ?_, ?_, ?_, ?_, ?_, ?_, ?_, ?_, ?_, ?_⟩
  · simp only [b2n_bit_zero]; rfl
  all_goals first | (simp only [b2n_bit_succ _ _ 0, b2n_bit_succ _ _ 1, b2n_bit_succ _ _ 2, b2n_bit_succ _ _ 3, b2n_bit_succ _ _ 4, b2n_bit_succ _ _ 5, b2n_bit_succ _ _ 6, b2n_bit_succ _ _ 7, b2n_bit_succ _ _ 8, b2n_bit_succ _ _ 9, b2n_bit_zero]; simp; done) | skip
  intro k hk
  obtain ⟨m, rfl⟩ : ∃ m, k = m + 10 + 1 := ⟨k - 11, by omega⟩
  simp only [b2n_bit_succ _ _ _]
  simp [b2n_bit_succ]

theorem alert_mask_bits : ∀ k : Fin 32, (0x7F9 : BitVec 32).getLsbD k = (decide (k.val = 0) || (decide (3 ≤ k.val) && decide (k.val ≤ 10))) := by decide

theorem alert_iff (s : State) : s.alert = true ↔ s.alertCause.getLsbD 0 = true ∨ ∃ k, 3 ≤ k ∧ k ≤ 10 ∧ s.alertCause.getLsbD k = true := by
  unfold State.alert
  generalize s.alertCause = w
  simp only [decide_eq_true_eq]
  constructor
  · intro h
    by_contra hc
    apply h
    apply BitVec.eq_of_getLsbD_eq
    intro i hi
    rw [BitVec.getLsbD_and, alert_mask_bits ⟨i, hi⟩]
    simp only [not_or, not_exists, not_and, Bool.not_eq_true] at hc
    by_cases h0 : i = 0
    · subst h0; rw [hc.1]; rfl
    · by_cases h1 : 3 ≤ i ∧ i ≤ 10
      · simp [hc.2 i h1.1 h1.2]
      · simp [h0]
        omega
  · intro h hz
    have hb : ∀ i, w.getLsbD i = true → (0x7F9 : BitVec 32).getLsbD i = true → False := by
      intro i h1 h2
      have := congrArg (fun x => BitVec.getLsbD x i) hz
      simp only [BitVec.getLsbD_and, h1, h2] at this
      simp at this
    rcases h with h | ⟨k, h1, h2, h3⟩
    · exact hb 0 h (by decide)
    · refine hb k h3 ?_
      rw [alert_mask_bits ⟨k, by omega⟩]
      simp [h1, h2]

end Sys2Proof.Machine
end

