-- ==== Sys2Proof/Laws/Lists.lean ====
section
/-! SUPPORT. What a list keyed by numbers answers after a change. -/

namespace Sys2Proof.Machine

variable {α : Type}

@[simp] theorem look_nil (k : Nat) : look k ([] : List (Nat × α)) = none := rfl

@[simp] theorem look_put_same (k : Nat) (v : α) (l : List (Nat × α)) : look k (put k v l) = some v := by
  induction l with
  | nil => simp [put, look]
  | cons x t ih =>
    obtain ⟨i, w⟩ := x
    simp only [put]
    split
    · simp [look]
    · split
      · simp [look]
      · have : ¬ i = k := by omega
        simp [look, this, ih]

theorem look_put_ne {j k : Nat} (h : j ≠ k) (v : α) (l : List (Nat × α)) : look j (put k v l) = look j l := by
  induction l with
  | nil => simp [put, look, Ne.symm h]
  | cons x t ih =>
    obtain ⟨i, w⟩ := x
    simp only [put]
    split
    · simp [look, Ne.symm h]
    · split
      · next hk => subst hk; simp [look, Ne.symm h]
      · simp only [look]; split
        · rfl
        · exact ih

theorem look_put (j k : Nat) (v : α) (l : List (Nat × α)) :
    look j (put k v l) = if j = k then some v else look j l := by
  split
  · next h => subst h; simp
  · next h => exact look_put_ne h v l

@[simp] theorem lookD_put_same (d : α) (k : Nat) (v : α) (l : List (Nat × α)) : lookD d k (put k v l) = v := by
  simp [lookD]

theorem lookD_put_ne {j k : Nat} (h : j ≠ k) (d v : α) (l : List (Nat × α)) :
    lookD d j (put k v l) = lookD d j l := by
  simp [lookD, look_put_ne h]

theorem look_del_ne {j k : Nat} (h : j ≠ k) (l : List (Nat × α)) : look j (del k l) = look j l := by
  induction l with
  | nil => rfl
  | cons x t ih =>
    obtain ⟨i, w⟩ := x
    simp only [del]
    split
    · next hk => subst hk; simp [look, Ne.symm h]
    · simp only [look]; split
      · rfl
      · exact ih

/-- A change kept by every member of a fold is kept by the fold. -/
theorem foldl_keeps {σ τ : Type} {f : σ → τ → σ} {p : σ → Prop} (h : ∀ s x, p s → p (f s x)) :
    ∀ (l : List τ) (s : σ), p s → p (l.foldl f s)
  | [], _, hs => hs
  | x :: t, s, hs => foldl_keeps h t (f s x) (h s x hs)

theorem look_map_val (k : Nat) (f : α → α) (l : List (Nat × α)) :
    look k (l.map (fun p => (p.1, f p.2))) = (look k l).map f := by
  induction l with
  | nil => rfl
  | cons x t ih =>
    obtain ⟨i, w⟩ := x
    simp only [List.map_cons, look]
    split
    · rfl
    · exact ih

theorem look_map_key (k : Nat) (f : Nat → α) (ks : List Nat) (h : k ∈ ks) :
    look k (ks.map (fun n => (n, f n))) = some (f k) := by
  induction ks with
  | nil => cases h
  | cons i t ih =>
    simp only [List.map_cons, look]
    split
    · next hk => rw [hk]
    · next hk =>
      rcases List.mem_cons.mp h with h | h
      · exact absurd h.symm hk
      · exact ih h

theorem satAdd_eq_min (a b m : Nat) : satAdd a b m = min (a + b) m := by
  unfold satAdd
  split <;> omega

end Sys2Proof.Machine
end

