-- ==== Sys2Proof/Laws/State.lean ====
section
/-! SUPPORT. What the plain updates of State leave alone and what they set: one lemma per field and update. -/

namespace Sys2Proof.Machine

variable (s : State)

/-! ### `setPort` -/

@[simp] theorem State.setPort_pending (p : Nat) (q : Port) : (s.setPort p q).pending = s.pending := rfl
@[simp] theorem State.setPort_freeCtr (p : Nat) (q : Port) : (s.setPort p q).freeCtr = s.freeCtr := rfl
@[simp] theorem State.setPort_time (p : Nat) (q : Port) : (s.setPort p q).time = s.time := rfl
@[simp] theorem State.setPort_out (p : Nat) (q : Port) : (s.setPort p q).out = s.out := rfl
@[simp] theorem State.setPort_mod (p : Nat) (q : Port) : (s.setPort p q).mod = s.mod := rfl
@[simp] theorem State.setPort_i3c (p : Nat) (q : Port) : (s.setPort p q).i3c = s.i3c := rfl
@[simp] theorem State.setPort_regions (p : Nat) (q : Port) : (s.setPort p q).regions = s.regions := rfl
@[simp] theorem State.setPort_fabrics (p : Nat) (q : Port) : (s.setPort p q).fabrics = s.fabrics := rfl
@[simp] theorem State.setPort_pages (p : Nat) (q : Port) : (s.setPort p q).pages = s.pages := rfl
@[simp] theorem State.setPort_dev (p : Nat) (q : Port) : (s.setPort p q).dev = s.dev := rfl
@[simp] theorem State.setPort_ldg (p : Nat) (q : Port) : (s.setPort p q).ldg = s.ldg := rfl
@[simp] theorem State.setPort_su (p : Nat) (q : Port) : (s.setPort p q).su = s.su := rfl
@[simp] theorem State.setPort_flash (p : Nat) (q : Port) : (s.setPort p q).flash = s.flash := rfl
@[simp] theorem State.setPort_units (p : Nat) (q : Port) : (s.setPort p q).units = s.units := rfl
@[simp] theorem State.setPort_cores (p : Nat) (q : Port) : (s.setPort p q).cores = s.cores := rfl
@[simp] theorem State.setPort_chans (p : Nat) (q : Port) : (s.setPort p q).chans = s.chans := rfl
@[simp] theorem State.setPort_dies (p : Nat) (q : Port) : (s.setPort p q).dies = s.dies := rfl
@[simp] theorem State.setPort_dieRecs (p : Nat) (q : Port) : (s.setPort p q).dieRecs = s.dieRecs := rfl
@[simp] theorem State.setPort_lmap (p : Nat) (q : Port) : (s.setPort p q).lmap = s.lmap := rfl
@[simp] theorem State.setPort_hbmMap (p : Nat) (q : Port) : (s.setPort p q).hbmMap = s.hbmMap := rfl
@[simp] theorem State.setPort_spared (p : Nat) (q : Port) : (s.setPort p q).spared = s.spared := rfl
@[simp] theorem State.setPort_hbmBytes (p : Nat) (q : Port) : (s.setPort p q).hbmBytes = s.hbmBytes := rfl
@[simp] theorem State.setPort_spareGb (p : Nat) (q : Port) : (s.setPort p q).spareGb = s.spareGb := rfl
@[simp] theorem State.setPort_pageMap (p : Nat) (q : Port) : (s.setPort p q).pageMap = s.pageMap := rfl
@[simp] theorem State.setPort_rings (p : Nat) (q : Port) : (s.setPort p q).rings = s.rings := rfl
@[simp] theorem State.setPort_queued0 (p : Nat) (q : Port) : (s.setPort p q).queued0 = s.queued0 := rfl
@[simp] theorem State.setPort_jobs (p : Nat) (q : Port) : (s.setPort p q).jobs = s.jobs := rfl
@[simp] theorem State.setPort_seqTab (p : Nat) (q : Port) : (s.setPort p q).seqTab = s.seqTab := rfl
@[simp] theorem State.setPort_batches (p : Nat) (q : Port) : (s.setPort p q).batches = s.batches := rfl
@[simp] theorem State.setPort_stamp (p : Nat) (q : Port) : (s.setPort p q).stamp = s.stamp := rfl
@[simp] theorem State.setPort_wback (p : Nat) (q : Port) : (s.setPort p q).wback = s.wback := rfl
@[simp] theorem State.setPort_runs (p : Nat) (q : Port) : (s.setPort p q).runs = s.runs := rfl
@[simp] theorem State.setPort_lastSlots (p : Nat) (q : Port) : (s.setPort p q).lastSlots = s.lastSlots := rfl
@[simp] theorem State.setPort_asy (p : Nat) (q : Port) : (s.setPort p q).asy = s.asy := rfl
@[simp] theorem State.setPort_fab (p : Nat) (q : Port) : (s.setPort p q).fab = s.fab := rfl
@[simp] theorem State.setPort_tel (p : Nat) (q : Port) : (s.setPort p q).tel = s.tel := rfl

/-! ### `setPage` -/

@[simp] theorem State.setPage_pending (p : Nat) (q : Page) : (s.setPage p q).pending = s.pending := rfl
@[simp] theorem State.setPage_freeCtr (p : Nat) (q : Page) : (s.setPage p q).freeCtr = s.freeCtr := rfl
@[simp] theorem State.setPage_time (p : Nat) (q : Page) : (s.setPage p q).time = s.time := rfl
@[simp] theorem State.setPage_out (p : Nat) (q : Page) : (s.setPage p q).out = s.out := rfl
@[simp] theorem State.setPage_mod (p : Nat) (q : Page) : (s.setPage p q).mod = s.mod := rfl
@[simp] theorem State.setPage_i3c (p : Nat) (q : Page) : (s.setPage p q).i3c = s.i3c := rfl
@[simp] theorem State.setPage_regions (p : Nat) (q : Page) : (s.setPage p q).regions = s.regions := rfl
@[simp] theorem State.setPage_fabrics (p : Nat) (q : Page) : (s.setPage p q).fabrics = s.fabrics := rfl
@[simp] theorem State.setPage_dev (p : Nat) (q : Page) : (s.setPage p q).dev = s.dev := rfl
@[simp] theorem State.setPage_ldg (p : Nat) (q : Page) : (s.setPage p q).ldg = s.ldg := rfl
@[simp] theorem State.setPage_su (p : Nat) (q : Page) : (s.setPage p q).su = s.su := rfl
@[simp] theorem State.setPage_flash (p : Nat) (q : Page) : (s.setPage p q).flash = s.flash := rfl
@[simp] theorem State.setPage_units (p : Nat) (q : Page) : (s.setPage p q).units = s.units := rfl
@[simp] theorem State.setPage_cores (p : Nat) (q : Page) : (s.setPage p q).cores = s.cores := rfl
@[simp] theorem State.setPage_chans (p : Nat) (q : Page) : (s.setPage p q).chans = s.chans := rfl
@[simp] theorem State.setPage_dies (p : Nat) (q : Page) : (s.setPage p q).dies = s.dies := rfl
@[simp] theorem State.setPage_dieRecs (p : Nat) (q : Page) : (s.setPage p q).dieRecs = s.dieRecs := rfl
@[simp] theorem State.setPage_lmap (p : Nat) (q : Page) : (s.setPage p q).lmap = s.lmap := rfl
@[simp] theorem State.setPage_hbmMap (p : Nat) (q : Page) : (s.setPage p q).hbmMap = s.hbmMap := rfl
@[simp] theorem State.setPage_spared (p : Nat) (q : Page) : (s.setPage p q).spared = s.spared := rfl
@[simp] theorem State.setPage_hbmBytes (p : Nat) (q : Page) : (s.setPage p q).hbmBytes = s.hbmBytes := rfl
@[simp] theorem State.setPage_spareGb (p : Nat) (q : Page) : (s.setPage p q).spareGb = s.spareGb := rfl
@[simp] theorem State.setPage_pageMap (p : Nat) (q : Page) : (s.setPage p q).pageMap = s.pageMap := rfl
@[simp] theorem State.setPage_rings (p : Nat) (q : Page) : (s.setPage p q).rings = s.rings := rfl
@[simp] theorem State.setPage_queued0 (p : Nat) (q : Page) : (s.setPage p q).queued0 = s.queued0 := rfl
@[simp] theorem State.setPage_jobs (p : Nat) (q : Page) : (s.setPage p q).jobs = s.jobs := rfl
@[simp] theorem State.setPage_seqTab (p : Nat) (q : Page) : (s.setPage p q).seqTab = s.seqTab := rfl
@[simp] theorem State.setPage_batches (p : Nat) (q : Page) : (s.setPage p q).batches = s.batches := rfl
@[simp] theorem State.setPage_stamp (p : Nat) (q : Page) : (s.setPage p q).stamp = s.stamp := rfl
@[simp] theorem State.setPage_wback (p : Nat) (q : Page) : (s.setPage p q).wback = s.wback := rfl
@[simp] theorem State.setPage_runs (p : Nat) (q : Page) : (s.setPage p q).runs = s.runs := rfl
@[simp] theorem State.setPage_lastSlots (p : Nat) (q : Page) : (s.setPage p q).lastSlots = s.lastSlots := rfl
@[simp] theorem State.setPage_asy (p : Nat) (q : Page) : (s.setPage p q).asy = s.asy := rfl
@[simp] theorem State.setPage_ports (p : Nat) (q : Page) : (s.setPage p q).ports = s.ports := rfl
@[simp] theorem State.setPage_fab (p : Nat) (q : Page) : (s.setPage p q).fab = s.fab := rfl
@[simp] theorem State.setPage_tel (p : Nat) (q : Page) : (s.setPage p q).tel = s.tel := rfl

/-! ### `setRegion` -/

@[simp] theorem State.setRegion_pending (p : Nat) (q : Region) : (s.setRegion p q).pending = s.pending := rfl
@[simp] theorem State.setRegion_freeCtr (p : Nat) (q : Region) : (s.setRegion p q).freeCtr = s.freeCtr := rfl
@[simp] theorem State.setRegion_time (p : Nat) (q : Region) : (s.setRegion p q).time = s.time := rfl
@[simp] theorem State.setRegion_out (p : Nat) (q : Region) : (s.setRegion p q).out = s.out := rfl
@[simp] theorem State.setRegion_mod (p : Nat) (q : Region) : (s.setRegion p q).mod = s.mod := rfl
@[simp] theorem State.setRegion_i3c (p : Nat) (q : Region) : (s.setRegion p q).i3c = s.i3c := rfl
@[simp] theorem State.setRegion_fabrics (p : Nat) (q : Region) : (s.setRegion p q).fabrics = s.fabrics := rfl
@[simp] theorem State.setRegion_pages (p : Nat) (q : Region) : (s.setRegion p q).pages = s.pages := rfl
@[simp] theorem State.setRegion_dev (p : Nat) (q : Region) : (s.setRegion p q).dev = s.dev := rfl
@[simp] theorem State.setRegion_ldg (p : Nat) (q : Region) : (s.setRegion p q).ldg = s.ldg := rfl
@[simp] theorem State.setRegion_su (p : Nat) (q : Region) : (s.setRegion p q).su = s.su := rfl
@[simp] theorem State.setRegion_flash (p : Nat) (q : Region) : (s.setRegion p q).flash = s.flash := rfl
@[simp] theorem State.setRegion_units (p : Nat) (q : Region) : (s.setRegion p q).units = s.units := rfl
@[simp] theorem State.setRegion_cores (p : Nat) (q : Region) : (s.setRegion p q).cores = s.cores := rfl
@[simp] theorem State.setRegion_chans (p : Nat) (q : Region) : (s.setRegion p q).chans = s.chans := rfl
@[simp] theorem State.setRegion_dies (p : Nat) (q : Region) : (s.setRegion p q).dies = s.dies := rfl
@[simp] theorem State.setRegion_dieRecs (p : Nat) (q : Region) : (s.setRegion p q).dieRecs = s.dieRecs := rfl
@[simp] theorem State.setRegion_lmap (p : Nat) (q : Region) : (s.setRegion p q).lmap = s.lmap := rfl
@[simp] theorem State.setRegion_hbmMap (p : Nat) (q : Region) : (s.setRegion p q).hbmMap = s.hbmMap := rfl
@[simp] theorem State.setRegion_spared (p : Nat) (q : Region) : (s.setRegion p q).spared = s.spared := rfl
@[simp] theorem State.setRegion_hbmBytes (p : Nat) (q : Region) : (s.setRegion p q).hbmBytes = s.hbmBytes := rfl
@[simp] theorem State.setRegion_spareGb (p : Nat) (q : Region) : (s.setRegion p q).spareGb = s.spareGb := rfl
@[simp] theorem State.setRegion_pageMap (p : Nat) (q : Region) : (s.setRegion p q).pageMap = s.pageMap := rfl
@[simp] theorem State.setRegion_rings (p : Nat) (q : Region) : (s.setRegion p q).rings = s.rings := rfl
@[simp] theorem State.setRegion_queued0 (p : Nat) (q : Region) : (s.setRegion p q).queued0 = s.queued0 := rfl
@[simp] theorem State.setRegion_jobs (p : Nat) (q : Region) : (s.setRegion p q).jobs = s.jobs := rfl
@[simp] theorem State.setRegion_seqTab (p : Nat) (q : Region) : (s.setRegion p q).seqTab = s.seqTab := rfl
@[simp] theorem State.setRegion_batches (p : Nat) (q : Region) : (s.setRegion p q).batches = s.batches := rfl
@[simp] theorem State.setRegion_stamp (p : Nat) (q : Region) : (s.setRegion p q).stamp = s.stamp := rfl
@[simp] theorem State.setRegion_wback (p : Nat) (q : Region) : (s.setRegion p q).wback = s.wback := rfl
@[simp] theorem State.setRegion_runs (p : Nat) (q : Region) : (s.setRegion p q).runs = s.runs := rfl
@[simp] theorem State.setRegion_lastSlots (p : Nat) (q : Region) : (s.setRegion p q).lastSlots = s.lastSlots := rfl
@[simp] theorem State.setRegion_asy (p : Nat) (q : Region) : (s.setRegion p q).asy = s.asy := rfl
@[simp] theorem State.setRegion_ports (p : Nat) (q : Region) : (s.setRegion p q).ports = s.ports := rfl
@[simp] theorem State.setRegion_fab (p : Nat) (q : Region) : (s.setRegion p q).fab = s.fab := rfl
@[simp] theorem State.setRegion_tel (p : Nat) (q : Region) : (s.setRegion p q).tel = s.tel := rfl

/-! ### `setCore` -/

@[simp] theorem State.setCore_pending (p : Nat) (q : CoreHw) : (s.setCore p q).pending = s.pending := rfl
@[simp] theorem State.setCore_freeCtr (p : Nat) (q : CoreHw) : (s.setCore p q).freeCtr = s.freeCtr := rfl
@[simp] theorem State.setCore_time (p : Nat) (q : CoreHw) : (s.setCore p q).time = s.time := rfl
@[simp] theorem State.setCore_out (p : Nat) (q : CoreHw) : (s.setCore p q).out = s.out := rfl
@[simp] theorem State.setCore_mod (p : Nat) (q : CoreHw) : (s.setCore p q).mod = s.mod := rfl
@[simp] theorem State.setCore_i3c (p : Nat) (q : CoreHw) : (s.setCore p q).i3c = s.i3c := rfl
@[simp] theorem State.setCore_regions (p : Nat) (q : CoreHw) : (s.setCore p q).regions = s.regions := rfl
@[simp] theorem State.setCore_fabrics (p : Nat) (q : CoreHw) : (s.setCore p q).fabrics = s.fabrics := rfl
@[simp] theorem State.setCore_pages (p : Nat) (q : CoreHw) : (s.setCore p q).pages = s.pages := rfl
@[simp] theorem State.setCore_dev (p : Nat) (q : CoreHw) : (s.setCore p q).dev = s.dev := rfl
@[simp] theorem State.setCore_ldg (p : Nat) (q : CoreHw) : (s.setCore p q).ldg = s.ldg := rfl
@[simp] theorem State.setCore_su (p : Nat) (q : CoreHw) : (s.setCore p q).su = s.su := rfl
@[simp] theorem State.setCore_flash (p : Nat) (q : CoreHw) : (s.setCore p q).flash = s.flash := rfl
@[simp] theorem State.setCore_units (p : Nat) (q : CoreHw) : (s.setCore p q).units = s.units := rfl
@[simp] theorem State.setCore_chans (p : Nat) (q : CoreHw) : (s.setCore p q).chans = s.chans := rfl
@[simp] theorem State.setCore_dies (p : Nat) (q : CoreHw) : (s.setCore p q).dies = s.dies := rfl
@[simp] theorem State.setCore_dieRecs (p : Nat) (q : CoreHw) : (s.setCore p q).dieRecs = s.dieRecs := rfl
@[simp] theorem State.setCore_lmap (p : Nat) (q : CoreHw) : (s.setCore p q).lmap = s.lmap := rfl
@[simp] theorem State.setCore_hbmMap (p : Nat) (q : CoreHw) : (s.setCore p q).hbmMap = s.hbmMap := rfl
@[simp] theorem State.setCore_spared (p : Nat) (q : CoreHw) : (s.setCore p q).spared = s.spared := rfl
@[simp] theorem State.setCore_hbmBytes (p : Nat) (q : CoreHw) : (s.setCore p q).hbmBytes = s.hbmBytes := rfl
@[simp] theorem State.setCore_spareGb (p : Nat) (q : CoreHw) : (s.setCore p q).spareGb = s.spareGb := rfl
@[simp] theorem State.setCore_pageMap (p : Nat) (q : CoreHw) : (s.setCore p q).pageMap = s.pageMap := rfl
@[simp] theorem State.setCore_rings (p : Nat) (q : CoreHw) : (s.setCore p q).rings = s.rings := rfl
@[simp] theorem State.setCore_queued0 (p : Nat) (q : CoreHw) : (s.setCore p q).queued0 = s.queued0 := rfl
@[simp] theorem State.setCore_jobs (p : Nat) (q : CoreHw) : (s.setCore p q).jobs = s.jobs := rfl
@[simp] theorem State.setCore_seqTab (p : Nat) (q : CoreHw) : (s.setCore p q).seqTab = s.seqTab := rfl
@[simp] theorem State.setCore_batches (p : Nat) (q : CoreHw) : (s.setCore p q).batches = s.batches := rfl
@[simp] theorem State.setCore_stamp (p : Nat) (q : CoreHw) : (s.setCore p q).stamp = s.stamp := rfl
@[simp] theorem State.setCore_wback (p : Nat) (q : CoreHw) : (s.setCore p q).wback = s.wback := rfl
@[simp] theorem State.setCore_runs (p : Nat) (q : CoreHw) : (s.setCore p q).runs = s.runs := rfl
@[simp] theorem State.setCore_lastSlots (p : Nat) (q : CoreHw) : (s.setCore p q).lastSlots = s.lastSlots := rfl
@[simp] theorem State.setCore_asy (p : Nat) (q : CoreHw) : (s.setCore p q).asy = s.asy := rfl
@[simp] theorem State.setCore_ports (p : Nat) (q : CoreHw) : (s.setCore p q).ports = s.ports := rfl
@[simp] theorem State.setCore_fab (p : Nat) (q : CoreHw) : (s.setCore p q).fab = s.fab := rfl
@[simp] theorem State.setCore_tel (p : Nat) (q : CoreHw) : (s.setCore p q).tel = s.tel := rfl

/-! ### `setChan` -/

@[simp] theorem State.setChan_pending (p : Nat) (q : Chan) : (s.setChan p q).pending = s.pending := rfl
@[simp] theorem State.setChan_freeCtr (p : Nat) (q : Chan) : (s.setChan p q).freeCtr = s.freeCtr := rfl
@[simp] theorem State.setChan_time (p : Nat) (q : Chan) : (s.setChan p q).time = s.time := rfl
@[simp] theorem State.setChan_out (p : Nat) (q : Chan) : (s.setChan p q).out = s.out := rfl
@[simp] theorem State.setChan_mod (p : Nat) (q : Chan) : (s.setChan p q).mod = s.mod := rfl
@[simp] theorem State.setChan_i3c (p : Nat) (q : Chan) : (s.setChan p q).i3c = s.i3c := rfl
@[simp] theorem State.setChan_regions (p : Nat) (q : Chan) : (s.setChan p q).regions = s.regions := rfl
@[simp] theorem State.setChan_fabrics (p : Nat) (q : Chan) : (s.setChan p q).fabrics = s.fabrics := rfl
@[simp] theorem State.setChan_pages (p : Nat) (q : Chan) : (s.setChan p q).pages = s.pages := rfl
@[simp] theorem State.setChan_dev (p : Nat) (q : Chan) : (s.setChan p q).dev = s.dev := rfl
@[simp] theorem State.setChan_ldg (p : Nat) (q : Chan) : (s.setChan p q).ldg = s.ldg := rfl
@[simp] theorem State.setChan_su (p : Nat) (q : Chan) : (s.setChan p q).su = s.su := rfl
@[simp] theorem State.setChan_flash (p : Nat) (q : Chan) : (s.setChan p q).flash = s.flash := rfl
@[simp] theorem State.setChan_units (p : Nat) (q : Chan) : (s.setChan p q).units = s.units := rfl
@[simp] theorem State.setChan_cores (p : Nat) (q : Chan) : (s.setChan p q).cores = s.cores := rfl
@[simp] theorem State.setChan_dies (p : Nat) (q : Chan) : (s.setChan p q).dies = s.dies := rfl
@[simp] theorem State.setChan_dieRecs (p : Nat) (q : Chan) : (s.setChan p q).dieRecs = s.dieRecs := rfl
@[simp] theorem State.setChan_lmap (p : Nat) (q : Chan) : (s.setChan p q).lmap = s.lmap := rfl
@[simp] theorem State.setChan_hbmMap (p : Nat) (q : Chan) : (s.setChan p q).hbmMap = s.hbmMap := rfl
@[simp] theorem State.setChan_spared (p : Nat) (q : Chan) : (s.setChan p q).spared = s.spared := rfl
@[simp] theorem State.setChan_hbmBytes (p : Nat) (q : Chan) : (s.setChan p q).hbmBytes = s.hbmBytes := rfl
@[simp] theorem State.setChan_spareGb (p : Nat) (q : Chan) : (s.setChan p q).spareGb = s.spareGb := rfl
@[simp] theorem State.setChan_pageMap (p : Nat) (q : Chan) : (s.setChan p q).pageMap = s.pageMap := rfl
@[simp] theorem State.setChan_rings (p : Nat) (q : Chan) : (s.setChan p q).rings = s.rings := rfl
@[simp] theorem State.setChan_queued0 (p : Nat) (q : Chan) : (s.setChan p q).queued0 = s.queued0 := rfl
@[simp] theorem State.setChan_jobs (p : Nat) (q : Chan) : (s.setChan p q).jobs = s.jobs := rfl
@[simp] theorem State.setChan_seqTab (p : Nat) (q : Chan) : (s.setChan p q).seqTab = s.seqTab := rfl
@[simp] theorem State.setChan_batches (p : Nat) (q : Chan) : (s.setChan p q).batches = s.batches := rfl
@[simp] theorem State.setChan_stamp (p : Nat) (q : Chan) : (s.setChan p q).stamp = s.stamp := rfl
@[simp] theorem State.setChan_wback (p : Nat) (q : Chan) : (s.setChan p q).wback = s.wback := rfl
@[simp] theorem State.setChan_runs (p : Nat) (q : Chan) : (s.setChan p q).runs = s.runs := rfl
@[simp] theorem State.setChan_lastSlots (p : Nat) (q : Chan) : (s.setChan p q).lastSlots = s.lastSlots := rfl
@[simp] theorem State.setChan_asy (p : Nat) (q : Chan) : (s.setChan p q).asy = s.asy := rfl
@[simp] theorem State.setChan_ports (p : Nat) (q : Chan) : (s.setChan p q).ports = s.ports := rfl
@[simp] theorem State.setChan_fab (p : Nat) (q : Chan) : (s.setChan p q).fab = s.fab := rfl
@[simp] theorem State.setChan_tel (p : Nat) (q : Chan) : (s.setChan p q).tel = s.tel := rfl

/-! ### `setDie` -/

@[simp] theorem State.setDie_pending (p : Nat) (q : BaseDie) : (s.setDie p q).pending = s.pending := rfl
@[simp] theorem State.setDie_freeCtr (p : Nat) (q : BaseDie) : (s.setDie p q).freeCtr = s.freeCtr := rfl
@[simp] theorem State.setDie_time (p : Nat) (q : BaseDie) : (s.setDie p q).time = s.time := rfl
@[simp] theorem State.setDie_out (p : Nat) (q : BaseDie) : (s.setDie p q).out = s.out := rfl
@[simp] theorem State.setDie_mod (p : Nat) (q : BaseDie) : (s.setDie p q).mod = s.mod := rfl
@[simp] theorem State.setDie_i3c (p : Nat) (q : BaseDie) : (s.setDie p q).i3c = s.i3c := rfl
@[simp] theorem State.setDie_regions (p : Nat) (q : BaseDie) : (s.setDie p q).regions = s.regions := rfl
@[simp] theorem State.setDie_fabrics (p : Nat) (q : BaseDie) : (s.setDie p q).fabrics = s.fabrics := rfl
@[simp] theorem State.setDie_pages (p : Nat) (q : BaseDie) : (s.setDie p q).pages = s.pages := rfl
@[simp] theorem State.setDie_dev (p : Nat) (q : BaseDie) : (s.setDie p q).dev = s.dev := rfl
@[simp] theorem State.setDie_ldg (p : Nat) (q : BaseDie) : (s.setDie p q).ldg = s.ldg := rfl
@[simp] theorem State.setDie_su (p : Nat) (q : BaseDie) : (s.setDie p q).su = s.su := rfl
@[simp] theorem State.setDie_flash (p : Nat) (q : BaseDie) : (s.setDie p q).flash = s.flash := rfl
@[simp] theorem State.setDie_units (p : Nat) (q : BaseDie) : (s.setDie p q).units = s.units := rfl
@[simp] theorem State.setDie_cores (p : Nat) (q : BaseDie) : (s.setDie p q).cores = s.cores := rfl
@[simp] theorem State.setDie_chans (p : Nat) (q : BaseDie) : (s.setDie p q).chans = s.chans := rfl
@[simp] theorem State.setDie_dieRecs (p : Nat) (q : BaseDie) : (s.setDie p q).dieRecs = s.dieRecs := rfl
@[simp] theorem State.setDie_lmap (p : Nat) (q : BaseDie) : (s.setDie p q).lmap = s.lmap := rfl
@[simp] theorem State.setDie_hbmMap (p : Nat) (q : BaseDie) : (s.setDie p q).hbmMap = s.hbmMap := rfl
@[simp] theorem State.setDie_spared (p : Nat) (q : BaseDie) : (s.setDie p q).spared = s.spared := rfl
@[simp] theorem State.setDie_hbmBytes (p : Nat) (q : BaseDie) : (s.setDie p q).hbmBytes = s.hbmBytes := rfl
@[simp] theorem State.setDie_spareGb (p : Nat) (q : BaseDie) : (s.setDie p q).spareGb = s.spareGb := rfl
@[simp] theorem State.setDie_pageMap (p : Nat) (q : BaseDie) : (s.setDie p q).pageMap = s.pageMap := rfl
@[simp] theorem State.setDie_rings (p : Nat) (q : BaseDie) : (s.setDie p q).rings = s.rings := rfl
@[simp] theorem State.setDie_queued0 (p : Nat) (q : BaseDie) : (s.setDie p q).queued0 = s.queued0 := rfl
@[simp] theorem State.setDie_jobs (p : Nat) (q : BaseDie) : (s.setDie p q).jobs = s.jobs := rfl
@[simp] theorem State.setDie_seqTab (p : Nat) (q : BaseDie) : (s.setDie p q).seqTab = s.seqTab := rfl
@[simp] theorem State.setDie_batches (p : Nat) (q : BaseDie) : (s.setDie p q).batches = s.batches := rfl
@[simp] theorem State.setDie_stamp (p : Nat) (q : BaseDie) : (s.setDie p q).stamp = s.stamp := rfl
@[simp] theorem State.setDie_wback (p : Nat) (q : BaseDie) : (s.setDie p q).wback = s.wback := rfl
@[simp] theorem State.setDie_runs (p : Nat) (q : BaseDie) : (s.setDie p q).runs = s.runs := rfl
@[simp] theorem State.setDie_lastSlots (p : Nat) (q : BaseDie) : (s.setDie p q).lastSlots = s.lastSlots := rfl
@[simp] theorem State.setDie_asy (p : Nat) (q : BaseDie) : (s.setDie p q).asy = s.asy := rfl
@[simp] theorem State.setDie_ports (p : Nat) (q : BaseDie) : (s.setDie p q).ports = s.ports := rfl
@[simp] theorem State.setDie_fab (p : Nat) (q : BaseDie) : (s.setDie p q).fab = s.fab := rfl
@[simp] theorem State.setDie_tel (p : Nat) (q : BaseDie) : (s.setDie p q).tel = s.tel := rfl

/-! ### `setRing` -/

@[simp] theorem State.setRing_pending (p : Nat) (q : Ring) : (s.setRing p q).pending = s.pending := rfl
@[simp] theorem State.setRing_freeCtr (p : Nat) (q : Ring) : (s.setRing p q).freeCtr = s.freeCtr := rfl
@[simp] theorem State.setRing_time (p : Nat) (q : Ring) : (s.setRing p q).time = s.time := rfl
@[simp] theorem State.setRing_out (p : Nat) (q : Ring) : (s.setRing p q).out = s.out := rfl
@[simp] theorem State.setRing_mod (p : Nat) (q : Ring) : (s.setRing p q).mod = s.mod := rfl
@[simp] theorem State.setRing_i3c (p : Nat) (q : Ring) : (s.setRing p q).i3c = s.i3c := rfl
@[simp] theorem State.setRing_regions (p : Nat) (q : Ring) : (s.setRing p q).regions = s.regions := rfl
@[simp] theorem State.setRing_fabrics (p : Nat) (q : Ring) : (s.setRing p q).fabrics = s.fabrics := rfl
@[simp] theorem State.setRing_pages (p : Nat) (q : Ring) : (s.setRing p q).pages = s.pages := rfl
@[simp] theorem State.setRing_dev (p : Nat) (q : Ring) : (s.setRing p q).dev = s.dev := rfl
@[simp] theorem State.setRing_ldg (p : Nat) (q : Ring) : (s.setRing p q).ldg = s.ldg := rfl
@[simp] theorem State.setRing_su (p : Nat) (q : Ring) : (s.setRing p q).su = s.su := rfl
@[simp] theorem State.setRing_flash (p : Nat) (q : Ring) : (s.setRing p q).flash = s.flash := rfl
@[simp] theorem State.setRing_units (p : Nat) (q : Ring) : (s.setRing p q).units = s.units := rfl
@[simp] theorem State.setRing_cores (p : Nat) (q : Ring) : (s.setRing p q).cores = s.cores := rfl
@[simp] theorem State.setRing_chans (p : Nat) (q : Ring) : (s.setRing p q).chans = s.chans := rfl
@[simp] theorem State.setRing_dies (p : Nat) (q : Ring) : (s.setRing p q).dies = s.dies := rfl
@[simp] theorem State.setRing_dieRecs (p : Nat) (q : Ring) : (s.setRing p q).dieRecs = s.dieRecs := rfl
@[simp] theorem State.setRing_lmap (p : Nat) (q : Ring) : (s.setRing p q).lmap = s.lmap := rfl
@[simp] theorem State.setRing_hbmMap (p : Nat) (q : Ring) : (s.setRing p q).hbmMap = s.hbmMap := rfl
@[simp] theorem State.setRing_spared (p : Nat) (q : Ring) : (s.setRing p q).spared = s.spared := rfl
@[simp] theorem State.setRing_hbmBytes (p : Nat) (q : Ring) : (s.setRing p q).hbmBytes = s.hbmBytes := rfl
@[simp] theorem State.setRing_spareGb (p : Nat) (q : Ring) : (s.setRing p q).spareGb = s.spareGb := rfl
@[simp] theorem State.setRing_pageMap (p : Nat) (q : Ring) : (s.setRing p q).pageMap = s.pageMap := rfl
@[simp] theorem State.setRing_queued0 (p : Nat) (q : Ring) : (s.setRing p q).queued0 = s.queued0 := rfl
@[simp] theorem State.setRing_jobs (p : Nat) (q : Ring) : (s.setRing p q).jobs = s.jobs := rfl
@[simp] theorem State.setRing_seqTab (p : Nat) (q : Ring) : (s.setRing p q).seqTab = s.seqTab := rfl
@[simp] theorem State.setRing_batches (p : Nat) (q : Ring) : (s.setRing p q).batches = s.batches := rfl
@[simp] theorem State.setRing_stamp (p : Nat) (q : Ring) : (s.setRing p q).stamp = s.stamp := rfl
@[simp] theorem State.setRing_wback (p : Nat) (q : Ring) : (s.setRing p q).wback = s.wback := rfl
@[simp] theorem State.setRing_runs (p : Nat) (q : Ring) : (s.setRing p q).runs = s.runs := rfl
@[simp] theorem State.setRing_lastSlots (p : Nat) (q : Ring) : (s.setRing p q).lastSlots = s.lastSlots := rfl
@[simp] theorem State.setRing_asy (p : Nat) (q : Ring) : (s.setRing p q).asy = s.asy := rfl
@[simp] theorem State.setRing_ports (p : Nat) (q : Ring) : (s.setRing p q).ports = s.ports := rfl
@[simp] theorem State.setRing_fab (p : Nat) (q : Ring) : (s.setRing p q).fab = s.fab := rfl
@[simp] theorem State.setRing_tel (p : Nat) (q : Ring) : (s.setRing p q).tel = s.tel := rfl

/-! ### `setSummary` -/

@[simp] theorem State.setSummary_pending (p : Nat) (q : Summary) : (s.setSummary p q).pending = s.pending := rfl
@[simp] theorem State.setSummary_freeCtr (p : Nat) (q : Summary) : (s.setSummary p q).freeCtr = s.freeCtr := rfl
@[simp] theorem State.setSummary_time (p : Nat) (q : Summary) : (s.setSummary p q).time = s.time := rfl
@[simp] theorem State.setSummary_out (p : Nat) (q : Summary) : (s.setSummary p q).out = s.out := rfl
@[simp] theorem State.setSummary_mod (p : Nat) (q : Summary) : (s.setSummary p q).mod = s.mod := rfl
@[simp] theorem State.setSummary_i3c (p : Nat) (q : Summary) : (s.setSummary p q).i3c = s.i3c := rfl
@[simp] theorem State.setSummary_regions (p : Nat) (q : Summary) : (s.setSummary p q).regions = s.regions := rfl
@[simp] theorem State.setSummary_fabrics (p : Nat) (q : Summary) : (s.setSummary p q).fabrics = s.fabrics := rfl
@[simp] theorem State.setSummary_pages (p : Nat) (q : Summary) : (s.setSummary p q).pages = s.pages := rfl
@[simp] theorem State.setSummary_dev (p : Nat) (q : Summary) : (s.setSummary p q).dev = s.dev := rfl
@[simp] theorem State.setSummary_ldg (p : Nat) (q : Summary) : (s.setSummary p q).ldg = s.ldg := rfl
@[simp] theorem State.setSummary_su (p : Nat) (q : Summary) : (s.setSummary p q).su = s.su := rfl
@[simp] theorem State.setSummary_flash (p : Nat) (q : Summary) : (s.setSummary p q).flash = s.flash := rfl
@[simp] theorem State.setSummary_cores (p : Nat) (q : Summary) : (s.setSummary p q).cores = s.cores := rfl
@[simp] theorem State.setSummary_chans (p : Nat) (q : Summary) : (s.setSummary p q).chans = s.chans := rfl
@[simp] theorem State.setSummary_dies (p : Nat) (q : Summary) : (s.setSummary p q).dies = s.dies := rfl
@[simp] theorem State.setSummary_dieRecs (p : Nat) (q : Summary) : (s.setSummary p q).dieRecs = s.dieRecs := rfl
@[simp] theorem State.setSummary_lmap (p : Nat) (q : Summary) : (s.setSummary p q).lmap = s.lmap := rfl
@[simp] theorem State.setSummary_hbmMap (p : Nat) (q : Summary) : (s.setSummary p q).hbmMap = s.hbmMap := rfl
@[simp] theorem State.setSummary_spared (p : Nat) (q : Summary) : (s.setSummary p q).spared = s.spared := rfl
@[simp] theorem State.setSummary_hbmBytes (p : Nat) (q : Summary) : (s.setSummary p q).hbmBytes = s.hbmBytes := rfl
@[simp] theorem State.setSummary_spareGb (p : Nat) (q : Summary) : (s.setSummary p q).spareGb = s.spareGb := rfl
@[simp] theorem State.setSummary_pageMap (p : Nat) (q : Summary) : (s.setSummary p q).pageMap = s.pageMap := rfl
@[simp] theorem State.setSummary_rings (p : Nat) (q : Summary) : (s.setSummary p q).rings = s.rings := rfl
@[simp] theorem State.setSummary_queued0 (p : Nat) (q : Summary) : (s.setSummary p q).queued0 = s.queued0 := rfl
@[simp] theorem State.setSummary_jobs (p : Nat) (q : Summary) : (s.setSummary p q).jobs = s.jobs := rfl
@[simp] theorem State.setSummary_seqTab (p : Nat) (q : Summary) : (s.setSummary p q).seqTab = s.seqTab := rfl
@[simp] theorem State.setSummary_batches (p : Nat) (q : Summary) : (s.setSummary p q).batches = s.batches := rfl
@[simp] theorem State.setSummary_stamp (p : Nat) (q : Summary) : (s.setSummary p q).stamp = s.stamp := rfl
@[simp] theorem State.setSummary_wback (p : Nat) (q : Summary) : (s.setSummary p q).wback = s.wback := rfl
@[simp] theorem State.setSummary_runs (p : Nat) (q : Summary) : (s.setSummary p q).runs = s.runs := rfl
@[simp] theorem State.setSummary_lastSlots (p : Nat) (q : Summary) : (s.setSummary p q).lastSlots = s.lastSlots := rfl
@[simp] theorem State.setSummary_asy (p : Nat) (q : Summary) : (s.setSummary p q).asy = s.asy := rfl
@[simp] theorem State.setSummary_ports (p : Nat) (q : Summary) : (s.setSummary p q).ports = s.ports := rfl
@[simp] theorem State.setSummary_fab (p : Nat) (q : Summary) : (s.setSummary p q).fab = s.fab := rfl
@[simp] theorem State.setSummary_tel (p : Nat) (q : Summary) : (s.setSummary p q).tel = s.tel := rfl

/-! ### `setJob` -/

@[simp] theorem State.setJob_pending (j : Job) : (s.setJob j).pending = s.pending := rfl
@[simp] theorem State.setJob_freeCtr (j : Job) : (s.setJob j).freeCtr = s.freeCtr := rfl
@[simp] theorem State.setJob_time (j : Job) : (s.setJob j).time = s.time := rfl
@[simp] theorem State.setJob_out (j : Job) : (s.setJob j).out = s.out := rfl
@[simp] theorem State.setJob_mod (j : Job) : (s.setJob j).mod = s.mod := rfl
@[simp] theorem State.setJob_i3c (j : Job) : (s.setJob j).i3c = s.i3c := rfl
@[simp] theorem State.setJob_regions (j : Job) : (s.setJob j).regions = s.regions := rfl
@[simp] theorem State.setJob_fabrics (j : Job) : (s.setJob j).fabrics = s.fabrics := rfl
@[simp] theorem State.setJob_pages (j : Job) : (s.setJob j).pages = s.pages := rfl
@[simp] theorem State.setJob_dev (j : Job) : (s.setJob j).dev = s.dev := rfl
@[simp] theorem State.setJob_ldg (j : Job) : (s.setJob j).ldg = s.ldg := rfl
@[simp] theorem State.setJob_su (j : Job) : (s.setJob j).su = s.su := rfl
@[simp] theorem State.setJob_flash (j : Job) : (s.setJob j).flash = s.flash := rfl
@[simp] theorem State.setJob_units (j : Job) : (s.setJob j).units = s.units := rfl
@[simp] theorem State.setJob_cores (j : Job) : (s.setJob j).cores = s.cores := rfl
@[simp] theorem State.setJob_chans (j : Job) : (s.setJob j).chans = s.chans := rfl
@[simp] theorem State.setJob_dies (j : Job) : (s.setJob j).dies = s.dies := rfl
@[simp] theorem State.setJob_dieRecs (j : Job) : (s.setJob j).dieRecs = s.dieRecs := rfl
@[simp] theorem State.setJob_lmap (j : Job) : (s.setJob j).lmap = s.lmap := rfl
@[simp] theorem State.setJob_hbmMap (j : Job) : (s.setJob j).hbmMap = s.hbmMap := rfl
@[simp] theorem State.setJob_spared (j : Job) : (s.setJob j).spared = s.spared := rfl
@[simp] theorem State.setJob_hbmBytes (j : Job) : (s.setJob j).hbmBytes = s.hbmBytes := rfl
@[simp] theorem State.setJob_spareGb (j : Job) : (s.setJob j).spareGb = s.spareGb := rfl
@[simp] theorem State.setJob_pageMap (j : Job) : (s.setJob j).pageMap = s.pageMap := rfl
@[simp] theorem State.setJob_rings (j : Job) : (s.setJob j).rings = s.rings := rfl
@[simp] theorem State.setJob_queued0 (j : Job) : (s.setJob j).queued0 = s.queued0 := rfl
@[simp] theorem State.setJob_seqTab (j : Job) : (s.setJob j).seqTab = s.seqTab := rfl
@[simp] theorem State.setJob_batches (j : Job) : (s.setJob j).batches = s.batches := rfl
@[simp] theorem State.setJob_stamp (j : Job) : (s.setJob j).stamp = s.stamp := rfl
@[simp] theorem State.setJob_wback (j : Job) : (s.setJob j).wback = s.wback := rfl
@[simp] theorem State.setJob_runs (j : Job) : (s.setJob j).runs = s.runs := rfl
@[simp] theorem State.setJob_lastSlots (j : Job) : (s.setJob j).lastSlots = s.lastSlots := rfl
@[simp] theorem State.setJob_asy (j : Job) : (s.setJob j).asy = s.asy := rfl
@[simp] theorem State.setJob_ports (j : Job) : (s.setJob j).ports = s.ports := rfl
@[simp] theorem State.setJob_fab (j : Job) : (s.setJob j).fab = s.fab := rfl
@[simp] theorem State.setJob_tel (j : Job) : (s.setJob j).tel = s.tel := rfl

/-! ### `setRun` -/

@[simp] theorem State.setRun_pending (r : Run) : (s.setRun r).pending = s.pending := rfl
@[simp] theorem State.setRun_freeCtr (r : Run) : (s.setRun r).freeCtr = s.freeCtr := rfl
@[simp] theorem State.setRun_time (r : Run) : (s.setRun r).time = s.time := rfl
@[simp] theorem State.setRun_out (r : Run) : (s.setRun r).out = s.out := rfl
@[simp] theorem State.setRun_mod (r : Run) : (s.setRun r).mod = s.mod := rfl
@[simp] theorem State.setRun_i3c (r : Run) : (s.setRun r).i3c = s.i3c := rfl
@[simp] theorem State.setRun_regions (r : Run) : (s.setRun r).regions = s.regions := rfl
@[simp] theorem State.setRun_fabrics (r : Run) : (s.setRun r).fabrics = s.fabrics := rfl
@[simp] theorem State.setRun_pages (r : Run) : (s.setRun r).pages = s.pages := rfl
@[simp] theorem State.setRun_dev (r : Run) : (s.setRun r).dev = s.dev := rfl
@[simp] theorem State.setRun_ldg (r : Run) : (s.setRun r).ldg = s.ldg := rfl
@[simp] theorem State.setRun_su (r : Run) : (s.setRun r).su = s.su := rfl
@[simp] theorem State.setRun_flash (r : Run) : (s.setRun r).flash = s.flash := rfl
@[simp] theorem State.setRun_units (r : Run) : (s.setRun r).units = s.units := rfl
@[simp] theorem State.setRun_cores (r : Run) : (s.setRun r).cores = s.cores := rfl
@[simp] theorem State.setRun_chans (r : Run) : (s.setRun r).chans = s.chans := rfl
@[simp] theorem State.setRun_dies (r : Run) : (s.setRun r).dies = s.dies := rfl
@[simp] theorem State.setRun_dieRecs (r : Run) : (s.setRun r).dieRecs = s.dieRecs := rfl
@[simp] theorem State.setRun_lmap (r : Run) : (s.setRun r).lmap = s.lmap := rfl
@[simp] theorem State.setRun_hbmMap (r : Run) : (s.setRun r).hbmMap = s.hbmMap := rfl
@[simp] theorem State.setRun_spared (r : Run) : (s.setRun r).spared = s.spared := rfl
@[simp] theorem State.setRun_hbmBytes (r : Run) : (s.setRun r).hbmBytes = s.hbmBytes := rfl
@[simp] theorem State.setRun_spareGb (r : Run) : (s.setRun r).spareGb = s.spareGb := rfl
@[simp] theorem State.setRun_pageMap (r : Run) : (s.setRun r).pageMap = s.pageMap := rfl
@[simp] theorem State.setRun_rings (r : Run) : (s.setRun r).rings = s.rings := rfl
@[simp] theorem State.setRun_queued0 (r : Run) : (s.setRun r).queued0 = s.queued0 := rfl
@[simp] theorem State.setRun_jobs (r : Run) : (s.setRun r).jobs = s.jobs := rfl
@[simp] theorem State.setRun_seqTab (r : Run) : (s.setRun r).seqTab = s.seqTab := rfl
@[simp] theorem State.setRun_batches (r : Run) : (s.setRun r).batches = s.batches := rfl
@[simp] theorem State.setRun_stamp (r : Run) : (s.setRun r).stamp = s.stamp := rfl
@[simp] theorem State.setRun_wback (r : Run) : (s.setRun r).wback = s.wback := rfl
@[simp] theorem State.setRun_lastSlots (r : Run) : (s.setRun r).lastSlots = s.lastSlots := rfl
@[simp] theorem State.setRun_asy (r : Run) : (s.setRun r).asy = s.asy := rfl
@[simp] theorem State.setRun_ports (r : Run) : (s.setRun r).ports = s.ports := rfl
@[simp] theorem State.setRun_fab (r : Run) : (s.setRun r).fab = s.fab := rfl
@[simp] theorem State.setRun_tel (r : Run) : (s.setRun r).tel = s.tel := rfl

/-! ### `dropRun` -/

@[simp] theorem State.dropRun_pending (n : Nat) : (s.dropRun n).pending = s.pending := rfl
@[simp] theorem State.dropRun_freeCtr (n : Nat) : (s.dropRun n).freeCtr = s.freeCtr := rfl
@[simp] theorem State.dropRun_time (n : Nat) : (s.dropRun n).time = s.time := rfl
@[simp] theorem State.dropRun_out (n : Nat) : (s.dropRun n).out = s.out := rfl
@[simp] theorem State.dropRun_mod (n : Nat) : (s.dropRun n).mod = s.mod := rfl
@[simp] theorem State.dropRun_i3c (n : Nat) : (s.dropRun n).i3c = s.i3c := rfl
@[simp] theorem State.dropRun_regions (n : Nat) : (s.dropRun n).regions = s.regions := rfl
@[simp] theorem State.dropRun_fabrics (n : Nat) : (s.dropRun n).fabrics = s.fabrics := rfl
@[simp] theorem State.dropRun_pages (n : Nat) : (s.dropRun n).pages = s.pages := rfl
@[simp] theorem State.dropRun_dev (n : Nat) : (s.dropRun n).dev = s.dev := rfl
@[simp] theorem State.dropRun_ldg (n : Nat) : (s.dropRun n).ldg = s.ldg := rfl
@[simp] theorem State.dropRun_su (n : Nat) : (s.dropRun n).su = s.su := rfl
@[simp] theorem State.dropRun_flash (n : Nat) : (s.dropRun n).flash = s.flash := rfl
@[simp] theorem State.dropRun_units (n : Nat) : (s.dropRun n).units = s.units := rfl
@[simp] theorem State.dropRun_cores (n : Nat) : (s.dropRun n).cores = s.cores := rfl
@[simp] theorem State.dropRun_chans (n : Nat) : (s.dropRun n).chans = s.chans := rfl
@[simp] theorem State.dropRun_dies (n : Nat) : (s.dropRun n).dies = s.dies := rfl
@[simp] theorem State.dropRun_dieRecs (n : Nat) : (s.dropRun n).dieRecs = s.dieRecs := rfl
@[simp] theorem State.dropRun_lmap (n : Nat) : (s.dropRun n).lmap = s.lmap := rfl
@[simp] theorem State.dropRun_hbmMap (n : Nat) : (s.dropRun n).hbmMap = s.hbmMap := rfl
@[simp] theorem State.dropRun_spared (n : Nat) : (s.dropRun n).spared = s.spared := rfl
@[simp] theorem State.dropRun_hbmBytes (n : Nat) : (s.dropRun n).hbmBytes = s.hbmBytes := rfl
@[simp] theorem State.dropRun_spareGb (n : Nat) : (s.dropRun n).spareGb = s.spareGb := rfl
@[simp] theorem State.dropRun_pageMap (n : Nat) : (s.dropRun n).pageMap = s.pageMap := rfl
@[simp] theorem State.dropRun_rings (n : Nat) : (s.dropRun n).rings = s.rings := rfl
@[simp] theorem State.dropRun_queued0 (n : Nat) : (s.dropRun n).queued0 = s.queued0 := rfl
@[simp] theorem State.dropRun_jobs (n : Nat) : (s.dropRun n).jobs = s.jobs := rfl
@[simp] theorem State.dropRun_seqTab (n : Nat) : (s.dropRun n).seqTab = s.seqTab := rfl
@[simp] theorem State.dropRun_batches (n : Nat) : (s.dropRun n).batches = s.batches := rfl
@[simp] theorem State.dropRun_stamp (n : Nat) : (s.dropRun n).stamp = s.stamp := rfl
@[simp] theorem State.dropRun_wback (n : Nat) : (s.dropRun n).wback = s.wback := rfl
@[simp] theorem State.dropRun_lastSlots (n : Nat) : (s.dropRun n).lastSlots = s.lastSlots := rfl
@[simp] theorem State.dropRun_asy (n : Nat) : (s.dropRun n).asy = s.asy := rfl
@[simp] theorem State.dropRun_ports (n : Nat) : (s.dropRun n).ports = s.ports := rfl
@[simp] theorem State.dropRun_fab (n : Nat) : (s.dropRun n).fab = s.fab := rfl
@[simp] theorem State.dropRun_tel (n : Nat) : (s.dropRun n).tel = s.tel := rfl

/-! ### `setSend` -/

@[simp] theorem State.setSend_pending (x : Send) : (s.setSend x).pending = s.pending := rfl
@[simp] theorem State.setSend_freeCtr (x : Send) : (s.setSend x).freeCtr = s.freeCtr := rfl
@[simp] theorem State.setSend_time (x : Send) : (s.setSend x).time = s.time := rfl
@[simp] theorem State.setSend_out (x : Send) : (s.setSend x).out = s.out := rfl
@[simp] theorem State.setSend_mod (x : Send) : (s.setSend x).mod = s.mod := rfl
@[simp] theorem State.setSend_i3c (x : Send) : (s.setSend x).i3c = s.i3c := rfl
@[simp] theorem State.setSend_regions (x : Send) : (s.setSend x).regions = s.regions := rfl
@[simp] theorem State.setSend_fabrics (x : Send) : (s.setSend x).fabrics = s.fabrics := rfl
@[simp] theorem State.setSend_pages (x : Send) : (s.setSend x).pages = s.pages := rfl
@[simp] theorem State.setSend_dev (x : Send) : (s.setSend x).dev = s.dev := rfl
@[simp] theorem State.setSend_ldg (x : Send) : (s.setSend x).ldg = s.ldg := rfl
@[simp] theorem State.setSend_su (x : Send) : (s.setSend x).su = s.su := rfl
@[simp] theorem State.setSend_flash (x : Send) : (s.setSend x).flash = s.flash := rfl
@[simp] theorem State.setSend_units (x : Send) : (s.setSend x).units = s.units := rfl
@[simp] theorem State.setSend_cores (x : Send) : (s.setSend x).cores = s.cores := rfl
@[simp] theorem State.setSend_chans (x : Send) : (s.setSend x).chans = s.chans := rfl
@[simp] theorem State.setSend_dies (x : Send) : (s.setSend x).dies = s.dies := rfl
@[simp] theorem State.setSend_dieRecs (x : Send) : (s.setSend x).dieRecs = s.dieRecs := rfl
@[simp] theorem State.setSend_lmap (x : Send) : (s.setSend x).lmap = s.lmap := rfl
@[simp] theorem State.setSend_hbmMap (x : Send) : (s.setSend x).hbmMap = s.hbmMap := rfl
@[simp] theorem State.setSend_spared (x : Send) : (s.setSend x).spared = s.spared := rfl
@[simp] theorem State.setSend_hbmBytes (x : Send) : (s.setSend x).hbmBytes = s.hbmBytes := rfl
@[simp] theorem State.setSend_spareGb (x : Send) : (s.setSend x).spareGb = s.spareGb := rfl
@[simp] theorem State.setSend_pageMap (x : Send) : (s.setSend x).pageMap = s.pageMap := rfl
@[simp] theorem State.setSend_rings (x : Send) : (s.setSend x).rings = s.rings := rfl
@[simp] theorem State.setSend_queued0 (x : Send) : (s.setSend x).queued0 = s.queued0 := rfl
@[simp] theorem State.setSend_jobs (x : Send) : (s.setSend x).jobs = s.jobs := rfl
@[simp] theorem State.setSend_seqTab (x : Send) : (s.setSend x).seqTab = s.seqTab := rfl
@[simp] theorem State.setSend_batches (x : Send) : (s.setSend x).batches = s.batches := rfl
@[simp] theorem State.setSend_stamp (x : Send) : (s.setSend x).stamp = s.stamp := rfl
@[simp] theorem State.setSend_wback (x : Send) : (s.setSend x).wback = s.wback := rfl
@[simp] theorem State.setSend_runs (x : Send) : (s.setSend x).runs = s.runs := rfl
@[simp] theorem State.setSend_lastSlots (x : Send) : (s.setSend x).lastSlots = s.lastSlots := rfl
@[simp] theorem State.setSend_asy (x : Send) : (s.setSend x).asy = s.asy := rfl
@[simp] theorem State.setSend_ports (x : Send) : (s.setSend x).ports = s.ports := rfl
@[simp] theorem State.setSend_tel (x : Send) : (s.setSend x).tel = s.tel := rfl

/-! ### `dropSend` -/

@[simp] theorem State.dropSend_pending (n : Nat) : (s.dropSend n).pending = s.pending := rfl
@[simp] theorem State.dropSend_freeCtr (n : Nat) : (s.dropSend n).freeCtr = s.freeCtr := rfl
@[simp] theorem State.dropSend_time (n : Nat) : (s.dropSend n).time = s.time := rfl
@[simp] theorem State.dropSend_out (n : Nat) : (s.dropSend n).out = s.out := rfl
@[simp] theorem State.dropSend_mod (n : Nat) : (s.dropSend n).mod = s.mod := rfl
@[simp] theorem State.dropSend_i3c (n : Nat) : (s.dropSend n).i3c = s.i3c := rfl
@[simp] theorem State.dropSend_regions (n : Nat) : (s.dropSend n).regions = s.regions := rfl
@[simp] theorem State.dropSend_fabrics (n : Nat) : (s.dropSend n).fabrics = s.fabrics := rfl
@[simp] theorem State.dropSend_pages (n : Nat) : (s.dropSend n).pages = s.pages := rfl
@[simp] theorem State.dropSend_dev (n : Nat) : (s.dropSend n).dev = s.dev := rfl
@[simp] theorem State.dropSend_ldg (n : Nat) : (s.dropSend n).ldg = s.ldg := rfl
@[simp] theorem State.dropSend_su (n : Nat) : (s.dropSend n).su = s.su := rfl
@[simp] theorem State.dropSend_flash (n : Nat) : (s.dropSend n).flash = s.flash := rfl
@[simp] theorem State.dropSend_units (n : Nat) : (s.dropSend n).units = s.units := rfl
@[simp] theorem State.dropSend_cores (n : Nat) : (s.dropSend n).cores = s.cores := rfl
@[simp] theorem State.dropSend_chans (n : Nat) : (s.dropSend n).chans = s.chans := rfl
@[simp] theorem State.dropSend_dies (n : Nat) : (s.dropSend n).dies = s.dies := rfl
@[simp] theorem State.dropSend_dieRecs (n : Nat) : (s.dropSend n).dieRecs = s.dieRecs := rfl
@[simp] theorem State.dropSend_lmap (n : Nat) : (s.dropSend n).lmap = s.lmap := rfl
@[simp] theorem State.dropSend_hbmMap (n : Nat) : (s.dropSend n).hbmMap = s.hbmMap := rfl
@[simp] theorem State.dropSend_spared (n : Nat) : (s.dropSend n).spared = s.spared := rfl
@[simp] theorem State.dropSend_hbmBytes (n : Nat) : (s.dropSend n).hbmBytes = s.hbmBytes := rfl
@[simp] theorem State.dropSend_spareGb (n : Nat) : (s.dropSend n).spareGb = s.spareGb := rfl
@[simp] theorem State.dropSend_pageMap (n : Nat) : (s.dropSend n).pageMap = s.pageMap := rfl
@[simp] theorem State.dropSend_rings (n : Nat) : (s.dropSend n).rings = s.rings := rfl
@[simp] theorem State.dropSend_queued0 (n : Nat) : (s.dropSend n).queued0 = s.queued0 := rfl
@[simp] theorem State.dropSend_jobs (n : Nat) : (s.dropSend n).jobs = s.jobs := rfl
@[simp] theorem State.dropSend_seqTab (n : Nat) : (s.dropSend n).seqTab = s.seqTab := rfl
@[simp] theorem State.dropSend_batches (n : Nat) : (s.dropSend n).batches = s.batches := rfl
@[simp] theorem State.dropSend_stamp (n : Nat) : (s.dropSend n).stamp = s.stamp := rfl
@[simp] theorem State.dropSend_wback (n : Nat) : (s.dropSend n).wback = s.wback := rfl
@[simp] theorem State.dropSend_runs (n : Nat) : (s.dropSend n).runs = s.runs := rfl
@[simp] theorem State.dropSend_lastSlots (n : Nat) : (s.dropSend n).lastSlots = s.lastSlots := rfl
@[simp] theorem State.dropSend_asy (n : Nat) : (s.dropSend n).asy = s.asy := rfl
@[simp] theorem State.dropSend_ports (n : Nat) : (s.dropSend n).ports = s.ports := rfl
@[simp] theorem State.dropSend_tel (n : Nat) : (s.dropSend n).tel = s.tel := rfl

/-! ### `mapRecvs` -/

@[simp] theorem State.mapRecvs_pending (g : Recv → Recv) : (s.mapRecvs g).pending = s.pending := rfl
@[simp] theorem State.mapRecvs_freeCtr (g : Recv → Recv) : (s.mapRecvs g).freeCtr = s.freeCtr := rfl
@[simp] theorem State.mapRecvs_time (g : Recv → Recv) : (s.mapRecvs g).time = s.time := rfl
@[simp] theorem State.mapRecvs_out (g : Recv → Recv) : (s.mapRecvs g).out = s.out := rfl
@[simp] theorem State.mapRecvs_mod (g : Recv → Recv) : (s.mapRecvs g).mod = s.mod := rfl
@[simp] theorem State.mapRecvs_i3c (g : Recv → Recv) : (s.mapRecvs g).i3c = s.i3c := rfl
@[simp] theorem State.mapRecvs_regions (g : Recv → Recv) : (s.mapRecvs g).regions = s.regions := rfl
@[simp] theorem State.mapRecvs_fabrics (g : Recv → Recv) : (s.mapRecvs g).fabrics = s.fabrics := rfl
@[simp] theorem State.mapRecvs_pages (g : Recv → Recv) : (s.mapRecvs g).pages = s.pages := rfl
@[simp] theorem State.mapRecvs_dev (g : Recv → Recv) : (s.mapRecvs g).dev = s.dev := rfl
@[simp] theorem State.mapRecvs_ldg (g : Recv → Recv) : (s.mapRecvs g).ldg = s.ldg := rfl
@[simp] theorem State.mapRecvs_su (g : Recv → Recv) : (s.mapRecvs g).su = s.su := rfl
@[simp] theorem State.mapRecvs_flash (g : Recv → Recv) : (s.mapRecvs g).flash = s.flash := rfl
@[simp] theorem State.mapRecvs_units (g : Recv → Recv) : (s.mapRecvs g).units = s.units := rfl
@[simp] theorem State.mapRecvs_cores (g : Recv → Recv) : (s.mapRecvs g).cores = s.cores := rfl
@[simp] theorem State.mapRecvs_chans (g : Recv → Recv) : (s.mapRecvs g).chans = s.chans := rfl
@[simp] theorem State.mapRecvs_dies (g : Recv → Recv) : (s.mapRecvs g).dies = s.dies := rfl
@[simp] theorem State.mapRecvs_dieRecs (g : Recv → Recv) : (s.mapRecvs g).dieRecs = s.dieRecs := rfl
@[simp] theorem State.mapRecvs_lmap (g : Recv → Recv) : (s.mapRecvs g).lmap = s.lmap := rfl
@[simp] theorem State.mapRecvs_hbmMap (g : Recv → Recv) : (s.mapRecvs g).hbmMap = s.hbmMap := rfl
@[simp] theorem State.mapRecvs_spared (g : Recv → Recv) : (s.mapRecvs g).spared = s.spared := rfl
@[simp] theorem State.mapRecvs_hbmBytes (g : Recv → Recv) : (s.mapRecvs g).hbmBytes = s.hbmBytes := rfl
@[simp] theorem State.mapRecvs_spareGb (g : Recv → Recv) : (s.mapRecvs g).spareGb = s.spareGb := rfl
@[simp] theorem State.mapRecvs_pageMap (g : Recv → Recv) : (s.mapRecvs g).pageMap = s.pageMap := rfl
@[simp] theorem State.mapRecvs_rings (g : Recv → Recv) : (s.mapRecvs g).rings = s.rings := rfl
@[simp] theorem State.mapRecvs_queued0 (g : Recv → Recv) : (s.mapRecvs g).queued0 = s.queued0 := rfl
@[simp] theorem State.mapRecvs_jobs (g : Recv → Recv) : (s.mapRecvs g).jobs = s.jobs := rfl
@[simp] theorem State.mapRecvs_seqTab (g : Recv → Recv) : (s.mapRecvs g).seqTab = s.seqTab := rfl
@[simp] theorem State.mapRecvs_batches (g : Recv → Recv) : (s.mapRecvs g).batches = s.batches := rfl
@[simp] theorem State.mapRecvs_stamp (g : Recv → Recv) : (s.mapRecvs g).stamp = s.stamp := rfl
@[simp] theorem State.mapRecvs_wback (g : Recv → Recv) : (s.mapRecvs g).wback = s.wback := rfl
@[simp] theorem State.mapRecvs_runs (g : Recv → Recv) : (s.mapRecvs g).runs = s.runs := rfl
@[simp] theorem State.mapRecvs_lastSlots (g : Recv → Recv) : (s.mapRecvs g).lastSlots = s.lastSlots := rfl
@[simp] theorem State.mapRecvs_asy (g : Recv → Recv) : (s.mapRecvs g).asy = s.asy := rfl
@[simp] theorem State.mapRecvs_ports (g : Recv → Recv) : (s.mapRecvs g).ports = s.ports := rfl
@[simp] theorem State.mapRecvs_tel (g : Recv → Recv) : (s.mapRecvs g).tel = s.tel := rfl

/-! ### `setAsy` -/

@[simp] theorem State.setAsy_pending (x : AssayState) : (s.setAsy x).pending = s.pending := rfl
@[simp] theorem State.setAsy_freeCtr (x : AssayState) : (s.setAsy x).freeCtr = s.freeCtr := rfl
@[simp] theorem State.setAsy_time (x : AssayState) : (s.setAsy x).time = s.time := rfl
@[simp] theorem State.setAsy_out (x : AssayState) : (s.setAsy x).out = s.out := rfl
@[simp] theorem State.setAsy_mod (x : AssayState) : (s.setAsy x).mod = s.mod := rfl
@[simp] theorem State.setAsy_i3c (x : AssayState) : (s.setAsy x).i3c = s.i3c := rfl
@[simp] theorem State.setAsy_regions (x : AssayState) : (s.setAsy x).regions = s.regions := rfl
@[simp] theorem State.setAsy_fabrics (x : AssayState) : (s.setAsy x).fabrics = s.fabrics := rfl
@[simp] theorem State.setAsy_pages (x : AssayState) : (s.setAsy x).pages = s.pages := rfl
@[simp] theorem State.setAsy_dev (x : AssayState) : (s.setAsy x).dev = s.dev := rfl
@[simp] theorem State.setAsy_ldg (x : AssayState) : (s.setAsy x).ldg = s.ldg := rfl
@[simp] theorem State.setAsy_su (x : AssayState) : (s.setAsy x).su = s.su := rfl
@[simp] theorem State.setAsy_flash (x : AssayState) : (s.setAsy x).flash = s.flash := rfl
@[simp] theorem State.setAsy_units (x : AssayState) : (s.setAsy x).units = s.units := rfl
@[simp] theorem State.setAsy_cores (x : AssayState) : (s.setAsy x).cores = s.cores := rfl
@[simp] theorem State.setAsy_chans (x : AssayState) : (s.setAsy x).chans = s.chans := rfl
@[simp] theorem State.setAsy_dies (x : AssayState) : (s.setAsy x).dies = s.dies := rfl
@[simp] theorem State.setAsy_dieRecs (x : AssayState) : (s.setAsy x).dieRecs = s.dieRecs := rfl
@[simp] theorem State.setAsy_lmap (x : AssayState) : (s.setAsy x).lmap = s.lmap := rfl
@[simp] theorem State.setAsy_hbmMap (x : AssayState) : (s.setAsy x).hbmMap = s.hbmMap := rfl
@[simp] theorem State.setAsy_spared (x : AssayState) : (s.setAsy x).spared = s.spared := rfl
@[simp] theorem State.setAsy_hbmBytes (x : AssayState) : (s.setAsy x).hbmBytes = s.hbmBytes := rfl
@[simp] theorem State.setAsy_spareGb (x : AssayState) : (s.setAsy x).spareGb = s.spareGb := rfl
@[simp] theorem State.setAsy_pageMap (x : AssayState) : (s.setAsy x).pageMap = s.pageMap := rfl
@[simp] theorem State.setAsy_rings (x : AssayState) : (s.setAsy x).rings = s.rings := rfl
@[simp] theorem State.setAsy_queued0 (x : AssayState) : (s.setAsy x).queued0 = s.queued0 := rfl
@[simp] theorem State.setAsy_jobs (x : AssayState) : (s.setAsy x).jobs = s.jobs := rfl
@[simp] theorem State.setAsy_seqTab (x : AssayState) : (s.setAsy x).seqTab = s.seqTab := rfl
@[simp] theorem State.setAsy_batches (x : AssayState) : (s.setAsy x).batches = s.batches := rfl
@[simp] theorem State.setAsy_stamp (x : AssayState) : (s.setAsy x).stamp = s.stamp := rfl
@[simp] theorem State.setAsy_wback (x : AssayState) : (s.setAsy x).wback = s.wback := rfl
@[simp] theorem State.setAsy_runs (x : AssayState) : (s.setAsy x).runs = s.runs := rfl
@[simp] theorem State.setAsy_lastSlots (x : AssayState) : (s.setAsy x).lastSlots = s.lastSlots := rfl
@[simp] theorem State.setAsy_ports (x : AssayState) : (s.setAsy x).ports = s.ports := rfl
@[simp] theorem State.setAsy_fab (x : AssayState) : (s.setAsy x).fab = s.fab := rfl
@[simp] theorem State.setAsy_tel (x : AssayState) : (s.setAsy x).tel = s.tel := rfl

/-! ### `setRcv` -/

@[simp] theorem State.setRcv_pending (x : Recovery) : (s.setRcv x).pending = s.pending := rfl
@[simp] theorem State.setRcv_freeCtr (x : Recovery) : (s.setRcv x).freeCtr = s.freeCtr := rfl
@[simp] theorem State.setRcv_time (x : Recovery) : (s.setRcv x).time = s.time := rfl
@[simp] theorem State.setRcv_out (x : Recovery) : (s.setRcv x).out = s.out := rfl
@[simp] theorem State.setRcv_mod (x : Recovery) : (s.setRcv x).mod = s.mod := rfl
@[simp] theorem State.setRcv_i3c (x : Recovery) : (s.setRcv x).i3c = s.i3c := rfl
@[simp] theorem State.setRcv_regions (x : Recovery) : (s.setRcv x).regions = s.regions := rfl
@[simp] theorem State.setRcv_fabrics (x : Recovery) : (s.setRcv x).fabrics = s.fabrics := rfl
@[simp] theorem State.setRcv_pages (x : Recovery) : (s.setRcv x).pages = s.pages := rfl
@[simp] theorem State.setRcv_dev (x : Recovery) : (s.setRcv x).dev = s.dev := rfl
@[simp] theorem State.setRcv_ldg (x : Recovery) : (s.setRcv x).ldg = s.ldg := rfl
@[simp] theorem State.setRcv_flash (x : Recovery) : (s.setRcv x).flash = s.flash := rfl
@[simp] theorem State.setRcv_units (x : Recovery) : (s.setRcv x).units = s.units := rfl
@[simp] theorem State.setRcv_cores (x : Recovery) : (s.setRcv x).cores = s.cores := rfl
@[simp] theorem State.setRcv_chans (x : Recovery) : (s.setRcv x).chans = s.chans := rfl
@[simp] theorem State.setRcv_dies (x : Recovery) : (s.setRcv x).dies = s.dies := rfl
@[simp] theorem State.setRcv_dieRecs (x : Recovery) : (s.setRcv x).dieRecs = s.dieRecs := rfl
@[simp] theorem State.setRcv_lmap (x : Recovery) : (s.setRcv x).lmap = s.lmap := rfl
@[simp] theorem State.setRcv_hbmMap (x : Recovery) : (s.setRcv x).hbmMap = s.hbmMap := rfl
@[simp] theorem State.setRcv_spared (x : Recovery) : (s.setRcv x).spared = s.spared := rfl
@[simp] theorem State.setRcv_hbmBytes (x : Recovery) : (s.setRcv x).hbmBytes = s.hbmBytes := rfl
@[simp] theorem State.setRcv_spareGb (x : Recovery) : (s.setRcv x).spareGb = s.spareGb := rfl
@[simp] theorem State.setRcv_pageMap (x : Recovery) : (s.setRcv x).pageMap = s.pageMap := rfl
@[simp] theorem State.setRcv_rings (x : Recovery) : (s.setRcv x).rings = s.rings := rfl
@[simp] theorem State.setRcv_queued0 (x : Recovery) : (s.setRcv x).queued0 = s.queued0 := rfl
@[simp] theorem State.setRcv_jobs (x : Recovery) : (s.setRcv x).jobs = s.jobs := rfl
@[simp] theorem State.setRcv_seqTab (x : Recovery) : (s.setRcv x).seqTab = s.seqTab := rfl
@[simp] theorem State.setRcv_batches (x : Recovery) : (s.setRcv x).batches = s.batches := rfl
@[simp] theorem State.setRcv_stamp (x : Recovery) : (s.setRcv x).stamp = s.stamp := rfl
@[simp] theorem State.setRcv_wback (x : Recovery) : (s.setRcv x).wback = s.wback := rfl
@[simp] theorem State.setRcv_runs (x : Recovery) : (s.setRcv x).runs = s.runs := rfl
@[simp] theorem State.setRcv_lastSlots (x : Recovery) : (s.setRcv x).lastSlots = s.lastSlots := rfl
@[simp] theorem State.setRcv_asy (x : Recovery) : (s.setRcv x).asy = s.asy := rfl
@[simp] theorem State.setRcv_ports (x : Recovery) : (s.setRcv x).ports = s.ports := rfl
@[simp] theorem State.setRcv_fab (x : Recovery) : (s.setRcv x).fab = s.fab := rfl
@[simp] theorem State.setRcv_tel (x : Recovery) : (s.setRcv x).tel = s.tel := rfl

/-! ### `setMod` -/

@[simp] theorem State.setMod_pending (x : Module) : (s.setMod x).pending = s.pending := rfl
@[simp] theorem State.setMod_freeCtr (x : Module) : (s.setMod x).freeCtr = s.freeCtr := rfl
@[simp] theorem State.setMod_time (x : Module) : (s.setMod x).time = s.time := rfl
@[simp] theorem State.setMod_out (x : Module) : (s.setMod x).out = s.out := rfl
@[simp] theorem State.setMod_i3c (x : Module) : (s.setMod x).i3c = s.i3c := rfl
@[simp] theorem State.setMod_regions (x : Module) : (s.setMod x).regions = s.regions := rfl
@[simp] theorem State.setMod_fabrics (x : Module) : (s.setMod x).fabrics = s.fabrics := rfl
@[simp] theorem State.setMod_pages (x : Module) : (s.setMod x).pages = s.pages := rfl
@[simp] theorem State.setMod_dev (x : Module) : (s.setMod x).dev = s.dev := rfl
@[simp] theorem State.setMod_ldg (x : Module) : (s.setMod x).ldg = s.ldg := rfl
@[simp] theorem State.setMod_su (x : Module) : (s.setMod x).su = s.su := rfl
@[simp] theorem State.setMod_flash (x : Module) : (s.setMod x).flash = s.flash := rfl
@[simp] theorem State.setMod_units (x : Module) : (s.setMod x).units = s.units := rfl
@[simp] theorem State.setMod_cores (x : Module) : (s.setMod x).cores = s.cores := rfl
@[simp] theorem State.setMod_chans (x : Module) : (s.setMod x).chans = s.chans := rfl
@[simp] theorem State.setMod_dies (x : Module) : (s.setMod x).dies = s.dies := rfl
@[simp] theorem State.setMod_dieRecs (x : Module) : (s.setMod x).dieRecs = s.dieRecs := rfl
@[simp] theorem State.setMod_lmap (x : Module) : (s.setMod x).lmap = s.lmap := rfl
@[simp] theorem State.setMod_hbmMap (x : Module) : (s.setMod x).hbmMap = s.hbmMap := rfl
@[simp] theorem State.setMod_spared (x : Module) : (s.setMod x).spared = s.spared := rfl
@[simp] theorem State.setMod_hbmBytes (x : Module) : (s.setMod x).hbmBytes = s.hbmBytes := rfl
@[simp] theorem State.setMod_spareGb (x : Module) : (s.setMod x).spareGb = s.spareGb := rfl
@[simp] theorem State.setMod_pageMap (x : Module) : (s.setMod x).pageMap = s.pageMap := rfl
@[simp] theorem State.setMod_rings (x : Module) : (s.setMod x).rings = s.rings := rfl
@[simp] theorem State.setMod_queued0 (x : Module) : (s.setMod x).queued0 = s.queued0 := rfl
@[simp] theorem State.setMod_jobs (x : Module) : (s.setMod x).jobs = s.jobs := rfl
@[simp] theorem State.setMod_seqTab (x : Module) : (s.setMod x).seqTab = s.seqTab := rfl
@[simp] theorem State.setMod_batches (x : Module) : (s.setMod x).batches = s.batches := rfl
@[simp] theorem State.setMod_stamp (x : Module) : (s.setMod x).stamp = s.stamp := rfl
@[simp] theorem State.setMod_wback (x : Module) : (s.setMod x).wback = s.wback := rfl
@[simp] theorem State.setMod_runs (x : Module) : (s.setMod x).runs = s.runs := rfl
@[simp] theorem State.setMod_lastSlots (x : Module) : (s.setMod x).lastSlots = s.lastSlots := rfl
@[simp] theorem State.setMod_asy (x : Module) : (s.setMod x).asy = s.asy := rfl
@[simp] theorem State.setMod_ports (x : Module) : (s.setMod x).ports = s.ports := rfl
@[simp] theorem State.setMod_fab (x : Module) : (s.setMod x).fab = s.fab := rfl
@[simp] theorem State.setMod_tel (x : Module) : (s.setMod x).tel = s.tel := rfl

/-! ### Reads after writes -/

@[simp] theorem State.setPort_port (p : Nat) (q : Port) : (s.setPort p q).port p = q := by simp [State.setPort, State.port]
theorem State.setPort_port_ne {p r : Nat} (h : r ≠ p) (q : Port) : (s.setPort p q).port r = s.port r := by
  simp [State.setPort, State.port, lookD_put_ne h]
@[simp] theorem State.setPage_page (p : Nat) (q : Page) : (s.setPage p q).page p = q := by simp [State.setPage, State.page]
theorem State.setPage_page_ne {p r : Nat} (h : r ≠ p) (q : Page) : (s.setPage p q).page r = s.page r := by
  simp [State.setPage, State.page, lookD_put_ne h]
@[simp] theorem State.setRegion_region (p : Nat) (q : Region) : (s.setRegion p q).region p = q := by
  simp [State.setRegion, State.region]
@[simp] theorem State.setCore_core (p : Nat) (q : CoreHw) : (s.setCore p q).core p = q := by simp [State.setCore, State.core]
@[simp] theorem State.setChan_chan (p : Nat) (q : Chan) : (s.setChan p q).chan p = q := by simp [State.setChan, State.chan]
@[simp] theorem State.setDie_die (p : Nat) (q : BaseDie) : (s.setDie p q).die p = q := by simp [State.setDie, State.die]
@[simp] theorem State.setRing_ring (p : Nat) (q : Ring) : (s.setRing p q).ring p = some q := by simp [State.setRing, State.ring]
theorem State.setRing_ring_ne {p r : Nat} (h : r ≠ p) (q : Ring) : (s.setRing p q).ring r = s.ring r := by
  simp [State.setRing, State.ring, look_put_ne h]

end Sys2Proof.Machine
end

