-- ==== Sys2Proof/Laws/Command.lean ====
section
/-! SUPPORT. What a host command does once its entry is taken. -/

namespace Sys2Proof.Machine

theorem State.cmdCheck_congr {s t : State} (h : t.jobs = s.jobs) (c : Cmd) : t.cmdCheck c = s.cmdCheck c := by
  have hj : ∀ n, t.job n = s.job n := fun n => by simp only [State.job, h]
  unfold State.cmdCheck State.locOk
  rw [hj]

/-- A request changes the ports alone. -/
theorem State.sendReq_ports (s : State) (t : Txn) (u : TagUse) : ∃ ps, s.sendReq t u = { s with ports := ps } := by
  unfold State.sendReq State.trySend
  split
  · exact ⟨_, rfl⟩
  · exact ⟨_, rfl⟩

theorem State.sendReqs_ports (u : TagUse) (g : Txn → Txn) : ∀ (l : List Txn) (s : State),
    ∃ ps, l.foldl (fun s x => s.sendReq (g x) u) s = { s with ports := ps }
  | [], _ => ⟨_, rfl⟩
  | x :: l, s => by
    obtain ⟨ps, h⟩ := State.sendReq_ports s (g x) u
    obtain ⟨qs, h2⟩ := State.sendReqs_ports u g l { s with ports := ps }
    exact ⟨qs, by rw [List.foldl_cons, h, h2]⟩

theorem State.hostFetch_ports (s : State) (a n : Nat) : ∃ ps, s.hostFetch a n = { s with ports := ps } := by
  unfold State.hostFetch
  split
  · exact ⟨_, rfl⟩
  · split
    · exact ⟨_, rfl⟩
    · exact State.sendReqs_ports .host (fun x => { x with data := [] }) _ _

/-- A member's reads of host memory change its ports alone. -/
theorem State.fetched_ports (s : State) (f : Fetch) (r : Ring) : ∃ ps, s.fetched f r = { s with ports := ps } := by
  have h1 : ∀ (c : Prop) [Decidable c] (t : State) (a n : Nat), (∃ ps, t = { s with ports := ps }) →
      ∃ ps, (if c then t.hostFetch a n else t) = { s with ports := ps } := by
    intro c _ t a n ⟨ps, h⟩
    split
    · obtain ⟨qs, h2⟩ := State.hostFetch_ports t a n
      exact ⟨qs, by rw [h2, h]⟩
    · exact ⟨ps, h⟩
  unfold State.fetched
  dsimp only
  exact h1 _ _ _ _ (h1 _ _ _ _ (h1 _ _ _ _ ⟨_, rfl⟩))

/-- What the taking of an entry leaves: HEAD past it, and a member's reads of host memory on its ports. -/
theorem State.consumed_eq (s : State) (f : Fetch) (r : Ring) :
    ∃ ps rs, s.consumed f r = { s with ports := ps, rings := rs } := by
  obtain ⟨ps, h⟩ := State.fetched_ports s f r
  exact ⟨ps, _, by rw [State.consumed, h, State.setRing]⟩

/-- An entry that is taken and that `want` names is consumed, and its meaning runs. -/
theorem State.consumeEntry_takes {s : State} {f : Fetch} {kind : Nat} {r : Ring} {c : Cmd} (h : s.takes f kind r c)
    {want : Cmd → Bool} (hw : want c = true) (k : State → Cmd → State) :
    s.consumeEntry f kind want k = k (s.consumed f r) c := by
  obtain ⟨h1, h2, rfl, h4⟩ := h
  simp only [State.consumeEntry, h1, h2, h4, hw, State.consumed]
  simp

/-- A host command that is accepted has its own meaning, HEAD past its entry. -/
theorem State.command_accepts {s : State} {f : Fetch} {op : Nat} {r : Ring} {c : Cmd} (h : s.accepts f op r c)
    (k : State → Cmd → State) : s.command f op k = k (s.consumed f r) c := by
  obtain ⟨h1, h2, h3⟩ := h
  unfold State.command
  rw [State.consumeEntry_takes h1 (by simp [h2])]
  have hc : (s.consumed f r).cmdCheck c = 0 := (State.cmdCheck_congr (by obtain ⟨ps, rs, h⟩ := State.consumed_eq s f r; rw [h]) c).trans h3
  rw [hc]
  rfl

theorem State.takes_ring {s : State} {f : Fetch} {kind : Nat} {r : Ring} {c : Cmd} (h : s.takes f kind r c) :
    c.ring = f.ring ∧ c.seq = r.head.toNat := by
  obtain ⟨_, _, rfl, _⟩ := h
  exact ⟨rfl, rfl⟩

@[simp] theorem State.consumed_job (s : State) (f : Fetch) (r : Ring) (k : Nat) : (s.consumed f r).job k = s.job k := by
  obtain ⟨ps, rs, h⟩ := State.consumed_eq s f r; rw [h]; rfl
@[simp] theorem State.consumed_run (s : State) (f : Fetch) (r : Ring) (k : Nat) : (s.consumed f r).run k = s.run k := by
  obtain ⟨ps, rs, h⟩ := State.consumed_eq s f r; rw [h]; rfl
@[simp] theorem State.consumed_pending (s : State) (f : Fetch) (r : Ring) : (s.consumed f r).pending = s.pending := by
  obtain ⟨ps, rs, h⟩ := State.consumed_eq s f r; rw [h]
@[simp] theorem State.consumed_freeCtr (s : State) (f : Fetch) (r : Ring) : (s.consumed f r).freeCtr = s.freeCtr := by
  obtain ⟨ps, rs, h⟩ := State.consumed_eq s f r; rw [h]
@[simp] theorem State.consumed_time (s : State) (f : Fetch) (r : Ring) : (s.consumed f r).time = s.time := by
  obtain ⟨ps, rs, h⟩ := State.consumed_eq s f r; rw [h]
@[simp] theorem State.consumed_out (s : State) (f : Fetch) (r : Ring) : (s.consumed f r).out = s.out := by
  obtain ⟨ps, rs, h⟩ := State.consumed_eq s f r; rw [h]
@[simp] theorem State.consumed_mod (s : State) (f : Fetch) (r : Ring) : (s.consumed f r).mod = s.mod := by
  obtain ⟨ps, rs, h⟩ := State.consumed_eq s f r; rw [h]
@[simp] theorem State.consumed_i3c (s : State) (f : Fetch) (r : Ring) : (s.consumed f r).i3c = s.i3c := by
  obtain ⟨ps, rs, h⟩ := State.consumed_eq s f r; rw [h]
@[simp] theorem State.consumed_regions (s : State) (f : Fetch) (r : Ring) : (s.consumed f r).regions = s.regions := by
  obtain ⟨ps, rs, h⟩ := State.consumed_eq s f r; rw [h]
@[simp] theorem State.consumed_fabrics (s : State) (f : Fetch) (r : Ring) : (s.consumed f r).fabrics = s.fabrics := by
  obtain ⟨ps, rs, h⟩ := State.consumed_eq s f r; rw [h]
@[simp] theorem State.consumed_pages (s : State) (f : Fetch) (r : Ring) : (s.consumed f r).pages = s.pages := by
  obtain ⟨ps, rs, h⟩ := State.consumed_eq s f r; rw [h]
@[simp] theorem State.consumed_dev (s : State) (f : Fetch) (r : Ring) : (s.consumed f r).dev = s.dev := by
  obtain ⟨ps, rs, h⟩ := State.consumed_eq s f r; rw [h]
@[simp] theorem State.consumed_ldg (s : State) (f : Fetch) (r : Ring) : (s.consumed f r).ldg = s.ldg := by
  obtain ⟨ps, rs, h⟩ := State.consumed_eq s f r; rw [h]
@[simp] theorem State.consumed_su (s : State) (f : Fetch) (r : Ring) : (s.consumed f r).su = s.su := by
  obtain ⟨ps, rs, h⟩ := State.consumed_eq s f r; rw [h]
@[simp] theorem State.consumed_flash (s : State) (f : Fetch) (r : Ring) : (s.consumed f r).flash = s.flash := by
  obtain ⟨ps, rs, h⟩ := State.consumed_eq s f r; rw [h]
@[simp] theorem State.consumed_units (s : State) (f : Fetch) (r : Ring) : (s.consumed f r).units = s.units := by
  obtain ⟨ps, rs, h⟩ := State.consumed_eq s f r; rw [h]
@[simp] theorem State.consumed_cores (s : State) (f : Fetch) (r : Ring) : (s.consumed f r).cores = s.cores := by
  obtain ⟨ps, rs, h⟩ := State.consumed_eq s f r; rw [h]
@[simp] theorem State.consumed_chans (s : State) (f : Fetch) (r : Ring) : (s.consumed f r).chans = s.chans := by
  obtain ⟨ps, rs, h⟩ := State.consumed_eq s f r; rw [h]
@[simp] theorem State.consumed_dies (s : State) (f : Fetch) (r : Ring) : (s.consumed f r).dies = s.dies := by
  obtain ⟨ps, rs, h⟩ := State.consumed_eq s f r; rw [h]
@[simp] theorem State.consumed_dieRecs (s : State) (f : Fetch) (r : Ring) : (s.consumed f r).dieRecs = s.dieRecs := by
  obtain ⟨ps, rs, h⟩ := State.consumed_eq s f r; rw [h]
@[simp] theorem State.consumed_lmap (s : State) (f : Fetch) (r : Ring) : (s.consumed f r).lmap = s.lmap := by
  obtain ⟨ps, rs, h⟩ := State.consumed_eq s f r; rw [h]
@[simp] theorem State.consumed_hbmMap (s : State) (f : Fetch) (r : Ring) : (s.consumed f r).hbmMap = s.hbmMap := by
  obtain ⟨ps, rs, h⟩ := State.consumed_eq s f r; rw [h]
@[simp] theorem State.consumed_spared (s : State) (f : Fetch) (r : Ring) : (s.consumed f r).spared = s.spared := by
  obtain ⟨ps, rs, h⟩ := State.consumed_eq s f r; rw [h]
@[simp] theorem State.consumed_hbmBytes (s : State) (f : Fetch) (r : Ring) : (s.consumed f r).hbmBytes = s.hbmBytes := by
  obtain ⟨ps, rs, h⟩ := State.consumed_eq s f r; rw [h]
@[simp] theorem State.consumed_spareGb (s : State) (f : Fetch) (r : Ring) : (s.consumed f r).spareGb = s.spareGb := by
  obtain ⟨ps, rs, h⟩ := State.consumed_eq s f r; rw [h]
@[simp] theorem State.consumed_pageMap (s : State) (f : Fetch) (r : Ring) : (s.consumed f r).pageMap = s.pageMap := by
  obtain ⟨ps, rs, h⟩ := State.consumed_eq s f r; rw [h]
@[simp] theorem State.consumed_queued0 (s : State) (f : Fetch) (r : Ring) : (s.consumed f r).queued0 = s.queued0 := by
  obtain ⟨ps, rs, h⟩ := State.consumed_eq s f r; rw [h]
@[simp] theorem State.consumed_jobs (s : State) (f : Fetch) (r : Ring) : (s.consumed f r).jobs = s.jobs := by
  obtain ⟨ps, rs, h⟩ := State.consumed_eq s f r; rw [h]
@[simp] theorem State.consumed_seqTab (s : State) (f : Fetch) (r : Ring) : (s.consumed f r).seqTab = s.seqTab := by
  obtain ⟨ps, rs, h⟩ := State.consumed_eq s f r; rw [h]
@[simp] theorem State.consumed_batches (s : State) (f : Fetch) (r : Ring) : (s.consumed f r).batches = s.batches := by
  obtain ⟨ps, rs, h⟩ := State.consumed_eq s f r; rw [h]
@[simp] theorem State.consumed_stamp (s : State) (f : Fetch) (r : Ring) : (s.consumed f r).stamp = s.stamp := by
  obtain ⟨ps, rs, h⟩ := State.consumed_eq s f r; rw [h]
@[simp] theorem State.consumed_wback (s : State) (f : Fetch) (r : Ring) : (s.consumed f r).wback = s.wback := by
  obtain ⟨ps, rs, h⟩ := State.consumed_eq s f r; rw [h]
@[simp] theorem State.consumed_runs (s : State) (f : Fetch) (r : Ring) : (s.consumed f r).runs = s.runs := by
  obtain ⟨ps, rs, h⟩ := State.consumed_eq s f r; rw [h]
@[simp] theorem State.consumed_lastSlots (s : State) (f : Fetch) (r : Ring) : (s.consumed f r).lastSlots = s.lastSlots := by
  obtain ⟨ps, rs, h⟩ := State.consumed_eq s f r; rw [h]
@[simp] theorem State.consumed_asy (s : State) (f : Fetch) (r : Ring) : (s.consumed f r).asy = s.asy := by
  obtain ⟨ps, rs, h⟩ := State.consumed_eq s f r; rw [h]
@[simp] theorem State.consumed_fab (s : State) (f : Fetch) (r : Ring) : (s.consumed f r).fab = s.fab := by
  obtain ⟨ps, rs, h⟩ := State.consumed_eq s f r; rw [h]
@[simp] theorem State.consumed_tel (s : State) (f : Fetch) (r : Ring) : (s.consumed f r).tel = s.tel := by
  obtain ⟨ps, rs, h⟩ := State.consumed_eq s f r; rw [h]

theorem State.consumed_seqOf (s : State) (f : Fetch) (r : Ring) (j i : Nat) :
    (s.consumed f r).seqOf j i = s.seqOf j i := by
  obtain ⟨ps, rs, h⟩ := State.consumed_eq s f r; rw [h]; rfl
theorem State.consumed_batchRule (s : State) (f : Fetch) (r : Ring) (j i : Nat) :
    (s.consumed f r).batchRule j i = s.batchRule j i := by
  obtain ⟨ps, rs, h⟩ := State.consumed_eq s f r; rw [h]; rfl
theorem State.consumed_locBytes (s : State) (f : Fetch) (r : Ring) (c : Cmd) (a w : Nat) (d : List Byte) :
    (s.consumed f r).locBytes c a w d = s.locBytes c a w d := by
  obtain ⟨ps, rs, h⟩ := State.consumed_eq s f r; rw [h]; rfl
theorem State.consumed_locPoison (s : State) (f : Fetch) (r : Ring) (c : Cmd) (n : Nat) :
    (s.consumed f r).locPoison c n = s.locPoison c n := by
  obtain ⟨ps, rs, h⟩ := State.consumed_eq s f r; rw [h]; rfl

/-! ### The configuration space -/

theorem State.sendPending_su (s : State) (v : Nat) : (s.sendPending v).su = s.su := by
  unfold State.sendPending State.interrupt State.sendReq State.trySend
  dsimp only
  (repeat' split) <;> rfl

/-- What the host writes of the configuration space leaves the start-up state as it is. -/
theorem State.configure_su (s : State) (c : PcieCfg) : (s.configure c).su = s.su := by
  have hl : ∀ (l : List Nat) (s : State), (l.foldl (fun t v => t.sendPending v) s).su = s.su := by
    intro l
    induction l with
    | nil => intro s; rfl
    | cons v l ih => intro s; rw [List.foldl_cons, ih, State.sendPending_su]
  unfold State.configure
  dsimp only
  split
  · rw [hl]
  · rfl

end Sys2Proof.Machine
end

