-- ==== Sys2Proof/Laws/Mem.lean ====
section
/-! SUPPORT. Memories: a read after a write, and the canonical form under every memory operation. -/

namespace Sys2Proof.Machine

theorem cellsWf_mono {lo lo' : Nat} (h : lo' ≤ lo) : ∀ {m : List Host.Cell}, cellsWf lo m = true → cellsWf lo' m = true
  | [], _ => rfl
  | (i, b) :: t, hm => by
    simp only [cellsWf, Bool.and_eq_true, decide_eq_true_eq] at hm ⊢
    exact ⟨⟨by omega, hm.1.2⟩, hm.2⟩

theorem cellGet_below {a lo : Nat} (h : a < lo) : ∀ {m : List Host.Cell}, cellsWf lo m = true → cellGet a m = 0
  | [], _ => rfl
  | (i, b) :: t, hm => by
    simp only [cellsWf, Bool.and_eq_true, decide_eq_true_eq] at hm
    have h1 : ¬ i = a := by omega
    have h2 : a < i := by omega
    simp [cellGet, h1, h2]

theorem cellPut_wf {a : Nat} (b : Byte) :
    ∀ {lo : Nat} {m : List Host.Cell}, cellsWf lo m = true → lo ≤ a → cellsWf lo (cellPut a b m) = true
  | lo, [], _, h => by
    simp only [cellPut]; split
    · rfl
    · next hb => simpa [cellsWf, h] using hb
  | lo, (i, c) :: t, hm, h => by
    have hm' := hm
    simp only [cellsWf, Bool.and_eq_true, decide_eq_true_eq] at hm
    simp only [cellPut]
    split
    · next hlt =>
      split
      · exact hm'
      · next hb =>
        simp only [cellsWf, Bool.and_eq_true, decide_eq_true_eq]
        exact ⟨⟨h, hb⟩, ⟨by omega, hm.1.2⟩, hm.2⟩
    · split
      · next hai =>
        subst hai
        split
        · exact cellsWf_mono (by omega) hm.2
        · next hb =>
          simp only [cellsWf, Bool.and_eq_true, decide_eq_true_eq]
          exact ⟨⟨h, hb⟩, hm.2⟩
      · simp only [cellsWf, Bool.and_eq_true, decide_eq_true_eq]
        exact ⟨hm.1, cellPut_wf b hm.2 (by omega)⟩

theorem cellPutList_wf : ∀ (bs : List Byte) (a : Nat) {m : List Host.Cell}, cellsWf 0 m = true →
    cellsWf 0 (cellPutList a bs m) = true
  | [], _, _, h => h
  | b :: t, a, _, h => cellPutList_wf t (a + 1) (cellPut_wf b h (Nat.zero_le _))

theorem cellGet_cellPut_same {a : Nat} (b : Byte) :
    ∀ {lo : Nat} {m : List Host.Cell}, cellsWf lo m = true → cellGet a (cellPut a b m) = b
  | _, [], _ => by
    simp only [cellPut]; split
    · next hb => simp [cellGet, hb]
    · simp [cellGet]
  | lo, (i, c) :: t, hm => by
    simp only [cellsWf, Bool.and_eq_true, decide_eq_true_eq] at hm
    simp only [cellPut]
    split
    · next hlt =>
      have hi : ¬ i = a := by omega
      split
      · next hb => simp [cellGet, hi, hlt, hb]
      · simp [cellGet]
    · split
      · next hai =>
        subst hai
        split
        · next hb => rw [hb]; exact cellGet_below (Nat.lt_succ_self _) hm.2
        · simp [cellGet]
      · next h1 h2 =>
        have hi : ¬ i = a := by omega
        simp [cellGet, hi, h1, cellGet_cellPut_same b hm.2]

theorem cellGet_cellPut_ne {a x : Nat} (hx : x ≠ a) (b : Byte) :
    ∀ {lo : Nat} {m : List Host.Cell}, cellsWf lo m = true → cellGet x (cellPut a b m) = cellGet x m
  | _, [], _ => by
    simp only [cellPut]; split
    · rfl
    · simp [cellGet, Ne.symm hx]
  | lo, (i, c) :: t, hm => by
    have hm' := hm
    simp only [cellsWf, Bool.and_eq_true, decide_eq_true_eq] at hm
    simp only [cellPut]
    split
    · next hlt =>
      split
      · rfl
      · simp only [cellGet, Ne.symm hx, if_false]
        split
        · next hxa =>
          have h1 : ¬ i = x := by omega
          have h2 : x < i := by omega
          simp [h1, h2]
        · rfl
    · split
      · next hai =>
        subst hai
        split
        · simp only [cellGet, Ne.symm hx, if_false]
          split
          · next hxa => exact cellGet_below (by omega) hm.2
          · rfl
        · simp [cellGet, Ne.symm hx]
      · simp only [cellGet]
        split
        · rfl
        · split
          · rfl
          · exact cellGet_cellPut_ne hx b hm.2

theorem cellGet_cellPutList_ne {x : Nat} : ∀ (bs : List Byte) (a : Nat) {m : List Host.Cell}, cellsWf 0 m = true →
    (x < a ∨ a + bs.length ≤ x) → cellGet x (cellPutList a bs m) = cellGet x m
  | [], _, _, _, _ => rfl
  | b :: t, a, m, hm, hx => by
    simp only [List.length_cons] at hx
    simp only [cellPutList]
    rw [cellGet_cellPutList_ne t (a + 1) (cellPut_wf b hm (Nat.zero_le _)) (by omega)]
    exact cellGet_cellPut_ne (by omega) b hm

theorem cellRead_cellPutList : ∀ (bs : List Byte) (a : Nat) {m : List Host.Cell}, cellsWf 0 m = true →
    cellRead (cellPutList a bs m) a bs.length = bs
  | [], _, _, _ => rfl
  | b :: t, a, m, hm => by
    have hw := cellPut_wf b hm (Nat.zero_le a)
    simp only [cellPutList, List.length_cons, cellRead]
    rw [cellGet_cellPutList_ne t (a + 1) hw (by omega), cellGet_cellPut_same b hm, cellRead_cellPutList t (a + 1) hw]

/-! ### Poison -/

theorem risingWf_mono {lo lo' : Nat} (h : lo' ≤ lo) : ∀ {l : List Nat}, risingWf lo l = true → risingWf lo' l = true
  | [], _ => rfl
  | i :: t, hl => by
    simp only [risingWf, Bool.and_eq_true, decide_eq_true_eq] at hl ⊢
    exact ⟨by omega, hl.2⟩

theorem insertNat_wf {k : Nat} : ∀ {lo : Nat} {l : List Nat}, risingWf lo l = true → lo ≤ k → risingWf lo (insertNat k l) = true
  | _, [], _, h => by simp [insertNat, risingWf, h]
  | lo, i :: t, hl, h => by
    simp only [risingWf, Bool.and_eq_true, decide_eq_true_eq] at hl
    simp only [insertNat]
    split
    · simp only [risingWf, Bool.and_eq_true, decide_eq_true_eq]; exact ⟨h, by omega, hl.2⟩
    · split
      · simp only [risingWf, Bool.and_eq_true, decide_eq_true_eq]; exact hl
      · simp only [risingWf, Bool.and_eq_true, decide_eq_true_eq]; exact ⟨hl.1, insertNat_wf hl.2 (by omega)⟩

theorem risingDel_wf {k : Nat} : ∀ {lo : Nat} {l : List Nat}, risingWf lo l = true → risingWf lo (risingDel k l) = true
  | _, [], _ => rfl
  | lo, i :: t, hl => by
    simp only [risingWf, Bool.and_eq_true, decide_eq_true_eq] at hl
    simp only [risingDel]
    split
    · exact risingWf_mono (by omega) hl.2
    · simp only [risingWf, Bool.and_eq_true, decide_eq_true_eq]; exact ⟨hl.1, risingDel_wf hl.2⟩

theorem mem_insertNat {k x : Nat} : ∀ {l : List Nat}, x ∈ insertNat k l ↔ x = k ∨ x ∈ l
  | [] => by simp [insertNat]
  | i :: t => by
    simp only [insertNat]
    split
    · simp
    · split
      · next h => subst h; simp
      · simp [mem_insertNat (l := t), or_left_comm]

/-! ### The operations keep the canonical form -/

@[simp] theorem Mem.empty_wf : Mem.empty.wf = true := rfl

theorem Mem.wf_iff (m : Mem) : m.wf = true ↔ cellsWf 0 m.cells = true ∧ risingWf 0 m.poison = true := by
  simp [Mem.wf]

theorem Mem.write_wf {m : Mem} (h : m.wf = true) (a : Nat) (bs : List Byte) : (m.write a bs).wf = true := by
  rw [Mem.wf_iff] at h ⊢
  exact ⟨cellPutList_wf bs a h.1, h.2⟩

theorem Mem.setPoison_wf {m : Mem} (h : m.wf = true) (blk : Nat) (p : Bool) : (m.setPoison blk p).wf = true := by
  rw [Mem.wf_iff] at h ⊢
  refine ⟨h.1, ?_⟩
  simp only [Mem.setPoison]
  split
  · exact insertNat_wf h.2 (Nat.zero_le _)
  · exact risingDel_wf h.2

theorem mergeCells_wf : ∀ (l : List Host.Cell) {m : List Host.Cell}, cellsWf 0 m = true → cellsWf 0 (mergeCells l m) = true
  | [], _, h => h
  | (_, b) :: t, _, h => mergeCells_wf t (cellPut_wf b h (Nat.zero_le _))

theorem mergePoison_wf : ∀ (l : List (Nat × Bool)) {m : List Nat}, risingWf 0 m = true → risingWf 0 (mergePoison l m) = true
  | [], _, h => h
  | (k, p) :: t, m, h => by
    simp only [mergePoison]
    split
    · exact mergePoison_wf t (insertNat_wf h (Nat.zero_le _))
    · exact mergePoison_wf t (risingDel_wf h)

theorem Mem.post_wf {m : Mem} (h : m.wf = true) (sh : Shadow) : (m.post sh).wf = true := by
  rw [Mem.wf_iff] at h ⊢
  exact ⟨mergeCells_wf sh.cells h.1, mergePoison_wf sh.poison h.2⟩

/-- What a read of the written bytes answers. -/
theorem Mem.read_write {m : Mem} (h : m.wf = true) (a : Nat) (bs : List Byte) :
    (m.write a bs).read a bs.length = bs := by
  rw [Mem.wf_iff] at h
  exact cellRead_cellPutList bs a h.1

/-- A write leaves every other byte alone. -/
theorem Mem.write_else {m : Mem} (h : m.wf = true) (a x : Nat) (bs : List Byte) (hx : x < a ∨ a + bs.length ≤ x) :
    cellGet x (m.write a bs).cells = cellGet x m.cells := by
  rw [Mem.wf_iff] at h
  exact cellGet_cellPutList_ne bs a h.1 hx

end Sys2Proof.Machine
end

