-- ==== Sys2Proof/Laws/Keep.lean ====
section
/-! SUPPORT. The functions that leave the queue, the resident jobs and the host memory alone: one lemma for each. -/

namespace Sys2Proof.Machine

/-- What the invariant speaks of: the queue, the resident jobs, and the host memory that the block wrote. -/
def State.keep (s : State) : List Instr × List Job × List Host.Cell := (s.pending, s.jobs, s.out.hostMem)

@[simp] theorem State.keep_mk (a1 a2 a3 a4 a5 a6 a7 a8 a9 a10 a11 a12 a13 a14 a15 a16 a17 a18 a19 a20 a21 a22 a23 a24 a25 a26 a27 a28 a29 a30 a31 a32 a33 a34 a35 a36 a37) :
    State.keep ⟨a1, a2, a3, a4, a5, a6, a7, a8, a9, a10, a11, a12, a13, a14, a15, a16, a17, a18, a19, a20, a21, a22, a23, a24, a25, a26, a27, a28, a29, a30, a31, a32, a33, a34, a35, a36, a37⟩ = (a1, a27, a4.hostMem) := rfl

@[simp] theorem State.keep_fold (s : State) : (s.pending, s.jobs, s.out.hostMem) = s.keep := rfl

@[simp] theorem keep_ite (c : Prop) [Decidable c] (s t : State) : (if c then s else t).keep = if c then s.keep else t.keep := by
  split <;> rfl

theorem foldl_keep {τ : Type} {f : State → τ → State} (h : ∀ s x, (f s x).keep = s.keep) :
    ∀ (l : List τ) (s : State), (l.foldl f s).keep = s.keep
  | [], _ => rfl
  | x :: t, s => (foldl_keep h t (f s x)).trans (h s x)

@[simp] theorem State.setPort_keep (s : State) (p : Nat) (q : Port) :
    (State.setPort s p q).keep = s.keep := by
  rfl

@[simp] theorem State.trySend_keep (s : State) (t : Txn) (u : TagUse) :
    (State.trySend s t u).1.keep = s.keep := by
  simp only [State.trySend]
  (repeat' split) <;> simp

@[simp] theorem State.sendReq_keep (s : State) (t : Txn) (u : TagUse) :
    (State.sendReq s t u).keep = s.keep := by
  simp [State.sendReq]

@[simp] theorem State.complete_keep (s : State) (inPort : Nat) (req : Txn) (status : Nat) (poison : Nat) (data : List Byte) :
    (State.complete s inPort req status poison data).keep = s.keep := by
  rfl

@[simp] theorem State.setPage_keep (s : State) (n : Nat) (p : Page) :
    (State.setPage s n p).keep = s.keep := by
  rfl

@[simp] theorem State.setRegion_keep (s : State) (r : Nat) (x : Region) :
    (State.setRegion s r x).keep = s.keep := by
  rfl

@[simp] theorem State.setCore_keep (s : State) (p : Nat) (c : CoreHw) :
    (State.setCore s p c).keep = s.keep := by
  rfl

@[simp] theorem State.setChan_keep (s : State) (c : Nat) (x : Chan) :
    (State.setChan s c x).keep = s.keep := by
  rfl

@[simp] theorem State.setDie_keep (s : State) (b : Nat) (x : BaseDie) :
    (State.setDie s b x).keep = s.keep := by
  rfl

@[simp] theorem State.setRing_keep (s : State) (n : Nat) (r : Ring) :
    (State.setRing s n r).keep = s.keep := by
  rfl

@[simp] theorem State.interrupt_keep (s : State) (v : BitVec 11) :
    (State.interrupt s v).keep = s.keep := by
  simp only [State.interrupt]
  (repeat' split) <;> simp

@[simp] theorem State.evtEdge_keep (s : State) :
    (State.evtEdge s).keep = s.keep := by
  simp [State.evtEdge]

@[simp] theorem State.markPage_keep (s : State) (n cls count : Nat) :
    (State.markPage s n cls count).keep = s.keep := by
  simp [State.markPage]

@[simp] theorem State.ledger_keep (s : State) (ws : List W64) :
    (State.ledger s ws).keep = s.keep := by
  simp only [State.ledger]
  (repeat' split) <;> simp

@[simp] theorem State.setSummary_keep (s : State) (k : Nat) (e : Summary) :
    (State.setSummary s k e).keep = s.keep := by
  rfl

@[simp] theorem State.noteUnit_keep (s : State) (e : Evt) :
    (State.noteUnit s e).keep = s.keep := by
  simp [State.noteUnit]

@[simp] theorem State.raise_keep (s : State) (e : Evt) :
    (State.raise s e).keep = s.keep := by
  simp [State.raise]

@[simp] theorem State.raiseQuiet_keep (s : State) (e : Evt) :
    (State.raiseQuiet s e).keep = s.keep := by
  simp [State.raiseQuiet]

@[simp] theorem State.errInterrupt_keep (s : State) :
    (State.errInterrupt s).keep = s.keep := by
  simp [State.errInterrupt]

@[simp] theorem State.countPage_keep (s : State) (n count : Nat) :
    (State.countPage s n count).keep = s.keep := by
  rfl

@[simp] theorem State.infoEvent_keep (s : State) (job step : Nat) (cls : Option Nat) :
    (State.infoEvent s job step cls).keep = s.keep := by
  unfold State.infoEvent
  dsimp only
  (repeat' split) <;> simp

@[simp] theorem State.lockBreakIf_keep (s : State) (p : Run → Bool) :
    (State.lockBreakIf s p).keep = s.keep := by
  unfold State.lockBreakIf
  dsimp only
  rw [foldl_keep]
  · simp
  · intro s x
    simp

@[simp] theorem State.lockBreak_keep (s : State) :
    (State.lockBreak s).keep = s.keep := by
  unfold State.lockBreak
  repeat' (first | (simp; done) | intro _ _ | rw [State.keep_mk, State.keep_fold] | rw [foldl_keep] | split | dsimp only)

@[simp] theorem State.lockBreakJob_keep (s : State) (job : Nat) :
    (State.lockBreakJob s job).keep = s.keep := by
  unfold State.lockBreakJob
  repeat' (first | (simp; done) | intro _ _ | rw [State.keep_mk, State.keep_fold] | rw [foldl_keep] | split | dsimp only)

@[simp] theorem State.governor_keep (s : State) :
    (State.governor s).keep = s.keep := by
  simp [State.governor]

@[simp] theorem State.alertEdge_keep (s : State) :
    (State.alertEdge s).keep = s.keep := by
  simp [State.alertEdge]

@[simp] theorem State.sample_keep (s : State) (page quantity : Nat) (v : Int) :
    (State.sample s page quantity v).keep = s.keep := by
  rfl

@[simp] theorem State.classEdge_keep (s : State) :
    (State.classEdge s).keep = s.keep := by
  simp [State.classEdge]

@[simp] theorem State.settle_keep (s : State) :
    (State.settle s).keep = s.keep := by
  simp [State.settle]

@[simp] theorem State.matchBanks_keep (s : State) (p : Nat) :
    (State.matchBanks s p).keep = s.keep := by
  simp only [State.matchBanks]
  (repeat' split) <;> simp

@[simp] theorem State.readyBanks_keep (s : State) (p : Nat) :
    (State.readyBanks s p).keep = s.keep := by
  simp only [State.readyBanks]
  (repeat' split) <;> simp

@[simp] theorem State.rehost_keep (s : State) (ls : List Nat) :
    (State.rehost s ls).keep = s.keep := by
  unfold State.rehost
  dsimp only
  rw [State.keep_mk, State.keep_fold, foldl_keep]
  intro s x
  simp

@[simp] theorem State.flashWrite_keep (s : State) (w : FlashWrite) :
    (State.flashWrite s w).1.keep = s.keep := by
  simp only [State.flashWrite]
  (repeat' split) <;> simp

@[simp] theorem State.drainFlash_keep (s : State) :
    (State.drainFlash s).keep = s.keep := by
  rfl

@[simp] theorem State.summaryNow_keep (s : State) (k : Nat) :
    (State.summaryNow s k).keep = s.keep := by
  simp [State.summaryNow]

@[simp] theorem State.pageReset_keep (s : State) (n : Nat) :
    (State.pageReset s n).keep = s.keep := by
  rfl

@[simp] theorem State.coreReset_keep (s : State) (p : Nat) :
    (State.coreReset s p).keep = s.keep := by
  rfl

@[simp] theorem State.markFenced_keep (s : State) (utype punit : Nat) :
    (State.markFenced s utype punit).keep = s.keep := by
  simp [State.markFenced]

@[simp] theorem State.fenceCore_keep (s : State) (p cause : Nat) :
    (State.fenceCore s p cause).keep = s.keep := by
  simp [State.fenceCore]

@[simp] theorem State.fenceRegion_keep (s : State) (r cause : Nat) :
    (State.fenceRegion s r cause).keep = s.keep := by
  unfold State.fenceRegion
  simp
  rw [foldl_keep]
  intro s x
  split <;> simp

@[simp] theorem State.markDegraded_keep (s : State) (utype punit : Nat) :
    (State.markDegraded s utype punit).keep = s.keep := by
  rfl

@[simp] theorem State.permanent_keep (s : State) (utype punit cause : Nat) :
    (State.permanent s utype punit cause).keep = s.keep := by
  simp only [State.permanent]
  (repeat' split) <;> simp

@[simp] theorem State.countTransient_keep (s : State) (utype punit cause : Nat) :
    (State.countTransient s utype punit cause).keep = s.keep := by
  simp [State.countTransient]

@[simp] theorem State.transientAssay_keep (s : State) (p : Nat) :
    (State.transientAssay s p).keep = s.keep := by
  simp [State.transientAssay]

@[simp] theorem State.setRun_keep (s : State) (r : Run) :
    (State.setRun s r).keep = s.keep := by
  rfl

@[simp] theorem State.dropRun_keep (s : State) (job : Nat) :
    (State.dropRun s job).keep = s.keep := by
  rfl

@[simp] theorem State.sendEntryWr_keep (s : State) (n : Nat) (k : W32) (t : Txn) :
    (State.sendEntryWr s n k t).keep = s.keep := by
  simp [State.sendEntryWr]

@[simp] theorem State.produceFar_keep (s : State) (n : Nat) (r : Ring) (ws : List W64) :
    (State.produceFar s n r ws).keep = s.keep := by
  unfold State.produceFar
  dsimp only
  split
  · rfl
  · rw [foldl_keep]
    · simp
    · intro s x
      simp

@[simp] theorem State.ringIrq_keep (s : State) (n : Nat) (r : Ring) :
    (State.ringIrq s n r).keep = s.keep := by
  simp [State.ringIrq]

@[simp] theorem State.passTail_keep (s : State) (n : Nat) (r : Ring) :
    (State.passTail s n r).keep = s.keep := by
  unfold State.passTail
  dsimp only
  rw [foldl_keep]
  · simp
  · intro s x
    simp

@[simp] theorem State.entryDone_keep (s : State) (n : Nat) (k : W32) (t : Txn) (status : Nat) :
    (State.entryDone s n k t status).keep = s.keep := by
  simp only [State.entryDone]
  (repeat' split) <;> simp

@[simp] theorem State.hostResend_keep (s : State) :
    (State.hostResend s).keep = s.keep := by
  unfold State.hostResend
  dsimp only
  rw [foldl_keep]
  · simp
  · intro s x
    simp

@[simp] theorem State.hostFetch_keep (s : State) (addr n : Nat) :
    (State.hostFetch s addr n).keep = s.keep := by
  unfold State.hostFetch
  split
  · rfl
  · split
    · rfl
    · rw [foldl_keep]
      intro s x
      simp

@[simp] theorem State.stale_keep (s : State) (n : Nat) (r : Ring) :
    (State.stale s n r).keep = s.keep := by
  simp [State.stale]

@[simp] theorem State.fetched_keep (s : State) (f : Fetch) (r : Ring) :
    (State.fetched s f r).keep = s.keep := by
  simp [State.fetched]

@[simp] theorem State.raiseRun_keep (s : State) (job : Nat) (d : Option Nat) (e : Evt) (detail : Nat) (recount injected : Bool) :
    (State.raiseRun s job d e detail recount injected).keep = s.keep := by
  simp only [State.raiseRun]
  (repeat' split) <;> simp

@[simp] theorem State.candidate_keep (s : State) (c cause : Nat) :
    (State.candidate s c cause).keep = s.keep := by
  simp [State.candidate]

@[simp] theorem State.triggers_keep (s : State) (c cause : Nat) :
    (State.triggers s c cause).keep = s.keep := by
  simp [State.triggers]

@[simp] theorem State.corrected_keep (s : State) (job : Nat) (utype punit block n : Nat) :
    (State.corrected s job utype punit block n).keep = s.keep := by
  simp [State.corrected]

@[simp] theorem State.setSend_keep (s : State) (x : Send) :
    (State.setSend s x).keep = s.keep := by
  rfl

@[simp] theorem State.dropSend_keep (s : State) (id : Nat) :
    (State.dropSend s id).keep = s.keep := by
  rfl

@[simp] theorem State.stream_keep (s : State) (id : Nat) (x0 : List Nat) :
    (State.stream s id x0).keep = s.keep := by
  induction x0 generalizing s with
  | nil => rfl
  | cons i rest ih =>
    unfold State.stream
    dsimp only
    (repeat' split) <;> simp [ih]

@[simp] theorem State.startSend_keep (s : State) (j : Job) (r : Run) (d : Nat) (ordinal : Nat) (c : Contrib) :
    (State.startSend s j r d ordinal c).keep = s.keep := by
  simp [State.startSend]

@[simp] theorem State.sendMsg_keep (s : State) (x : Send) (t : Txn) (u : TagUse) (done late : Send) :
    (State.sendMsg s x t u done late).keep = s.keep := by
  simp [State.sendMsg]

@[simp] theorem State.sendCsgn_keep (s : State) (x : Send) :
    (State.sendCsgn s x).keep = s.keep := by
  simp [State.sendCsgn]

@[simp] theorem State.sendVoid_keep (s : State) (x : Send) (status : Nat) :
    (State.sendVoid s x status).keep = s.keep := by
  simp [State.sendVoid]

@[simp] theorem State.voidRun_keep (s : State) (job stepLo : Nat) :
    (State.voidRun s job stepLo).keep = s.keep :=
  foldl_keep (f := fun (s : State) x => s.sendVoid x 0) (fun s x => by simp) _ s

@[simp] theorem State.sendFinal_keep (s : State) (x : Send) :
    (State.sendFinal s x).keep = s.keep := by
  unfold State.sendFinal
  split
  · rw [State.sendVoid_keep]
  · dsimp only
    rw [State.sendVoid_keep]
    rfl

@[simp] theorem State.voidJob_keep (s : State) (job : Nat) :
    (State.voidJob s job).keep = s.keep := by
  unfold State.voidJob
  dsimp only
  rw [foldl_keep]
  intro s x
  simp

@[simp] theorem State.signRun_keep (s : State) (job : Nat) :
    (State.signRun s job).keep = s.keep := by
  unfold State.signRun
  dsimp only
  rw [foldl_keep]
  intro s x
  simp

@[simp] theorem State.mapRecvs_keep (s : State) (f : Recv → Recv) :
    (State.mapRecvs s f).keep = s.keep := by
  rfl

@[simp] theorem State.answer_keep (s : State) (p : Nat) (t : Txn) (status : Nat) :
    (State.answer s p t status).keep = s.keep := by
  rfl

@[simp] theorem State.answerHeld_keep (s : State) (v : Recv) :
    (State.answerHeld s v).keep = s.keep := by
  simp only [State.answerHeld]
  (repeat' split) <;> simp

@[simp] theorem State.markRead_keep (s : State) (r : Run) (d : Nat) (reads : List (Nat × Nat × Nat)) :
    (State.markRead s r d reads).keep = s.keep := by
  simp [State.markRead]

@[simp] theorem State.withdrawVault_keep (s : State) :
    (State.withdrawVault s).keep = s.keep := by
  unfold State.withdrawVault
  rw [foldl_keep]
  intro s x
  dsimp only
  (repeat' split) <;> simp

@[simp] theorem State.keepSlots_keep (s : State) (r : Run) :
    (State.keepSlots s r).keep = s.keep := by
  rfl

@[simp] theorem State.applyStage_keep (s : State) :
    (State.applyStage s).keep = s.keep := by
  simp only [State.applyStage]
  (repeat' split) <;> simp

@[simp] theorem State.extendRun_keep (s : State) (kind : Nat) (item : BitVec 384) :
    (State.extendRun s kind item).keep = s.keep := by
  rfl

@[simp] theorem State.extendBoot_keep (s : State) (kind : Nat) (item : BitVec 384) :
    (State.extendBoot s kind item).keep = s.keep := by
  rfl

@[simp] theorem State.switchBank_keep (s : State) (p job step : Nat) :
    (State.switchBank s p job step).keep = s.keep := by
  simp [State.switchBank]

@[simp] theorem State.setAsy_keep (s : State) (a : AssayState) :
    (State.setAsy s a).keep = s.keep := by
  rfl

@[simp] theorem State.dropAssay_keep (s : State) (j : AssayJob) :
    (State.dropAssay s j).keep = s.keep := by
  rfl

@[simp] theorem State.putAssay_keep (s : State) (j k : AssayJob) :
    (State.putAssay s j k).keep = s.keep := by
  rfl

@[simp] theorem State.unfenceCore_keep (s : State) (p : Nat) :
    (State.unfenceCore s p).keep = s.keep := by
  simp [State.unfenceCore]

@[simp] theorem State.skipCore_keep (s : State) (p code : Nat) :
    (State.skipCore s p code).keep = s.keep := by
  simp [State.skipCore]

@[simp] theorem State.queueSecond_keep (s : State) (x : AssaySet) (vec core : Nat) (d : W128) :
    (State.queueSecond s x vec core d).keep = s.keep := by
  rfl

@[simp] theorem State.voidRef_keep (s : State) (x : AssaySet) (i : Nat) :
    (State.voidRef s x i).keep = s.keep := State.raise_keep s _

@[simp] theorem State.judgeVec_keep (s : State) (x : AssaySet) (core : Nat) (event rot : Bool) (i : Nat) (v : Vec) (d : W128) :
    (State.judgeVec s x core event rot i v d).1.keep = s.keep := by
  unfold State.judgeVec
  generalize x.setId * 4096 + i = k
  split
  · dsimp only
    split
    · rfl
    · dsimp only
      generalize meetRef _ _ _ _ = m
      generalize look k s.asy.refs = old
      obtain ⟨a, b, c⟩ := m
      dsimp only
      split <;> (try rw [State.voidRef_keep]) <;> rcases c with _ | ⟨c, e⟩ <;> dsimp only <;>
        (try rw [State.queueSecond_keep]) <;> cases a <;> simp only [State.setAsy_keep]
  · rfl

@[simp] theorem State.judge_keep (s : State) (x : AssaySet) (core : Nat) (event rot : Bool) (x0 : Nat) (x1 : List (Vec × W128)) :
    (State.judge s x core event rot x0 x1).1.keep = s.keep := by
  induction x1 generalizing s x0 with
  | nil => rfl
  | cons v t ih =>
    rw [State.judge]
    split
    · rw [State.judgeVec_keep]
    · rw [ih, State.judgeVec_keep]

@[simp] theorem State.assayRecord_keep (s : State) (x : AssaySet) (core verdict nrun vec : Nat) (d : W64) :
    (State.assayRecord s x core verdict nrun vec d).keep = s.keep := by
  simp [State.assayRecord]

@[simp] theorem State.newPass_keep (s : State) :
    (State.newPass s).keep = s.keep := by
  simp [State.newPass]

@[simp] theorem State.queueAssays_keep (s : State) (cores ids : List Nat) (why : AssayWhy) (force : Bool) :
    (State.queueAssays s cores ids why force).keep = s.keep := by
  rfl

@[simp] theorem State.corrAt_keep (s : State) (n d space block symbols : Nat) :
    (State.corrAt s n d space block symbols).keep = s.keep := by
  simp only [State.corrAt]
  (repeat' split) <;> simp

@[simp] theorem State.disarm_keep (s : State) (page bit_ : Nat) :
    (State.disarm s page bit_).keep = s.keep := by
  rfl

@[simp] theorem State.recRaise_keep (s : State) (i : Iss) (d code utype punit w6 w7 detail : Nat) (recount injected : Bool) :
    (State.recRaise s i d code utype punit w6 w7 detail recount injected).keep = s.keep := by
  simp [State.recRaise]

@[simp] theorem State.spoil_keep (s : State) (n d : Nat) (corrupt : Bool) :
    (State.spoil s n d corrupt).keep = s.keep := by
  simp only [State.spoil]
  (repeat' split) <;> simp

@[simp] theorem State.recEvent_keep (s : State) (i : Iss) (d : Nat) (x : Raise) :
    (State.recEvent s i d x).keep = s.keep := by
  simp only [State.recEvent]
  (repeat' split) <;> simp

@[simp] theorem State.strikeRaise_keep (s : State) (r : Run) (d : Option Nat) (core : Nat) (w6 w7 : W64) :
    (State.strikeRaise s r d core w6 w7).keep = s.keep := by
  unfold State.strikeRaise
  dsimp only
  split
  · rw [State.raiseRun_keep]
  · rfl

@[simp] theorem State.chkReport_keep (s : State) (i : Iss) (d : Nat) (chk : Chk) :
    (State.chkReport s i d chk).keep = s.keep := by
  unfold State.chkReport
  cases chk <;> dsimp only <;> (try split) <;>
    first
      | rw [State.spoil_keep, State.recRaise_keep]
      | rw [State.lockBreakJob_keep]
      | rw [State.strikeRaise_keep]
      | rfl

@[simp] theorem State.injectParity_keep (s : State) (i : Iss) (d page utype punit point : Nat) (w : Nat × Nat) :
    (State.injectParity s i d page utype punit point w).keep = s.keep := by
  simp [State.injectParity]

@[simp] theorem State.injectResidue_keep (s : State) (i : Iss) (d page utype punit expected : Nat) :
    (State.injectResidue s i d page utype punit expected).keep = s.keep := by
  simp [State.injectResidue]

@[simp] theorem State.injectCore_keep (s : State) (i : Iss) (d : Nat) :
    (State.injectCore s i d).keep = s.keep := by
  unfold State.injectCore
  dsimp only
  (repeat' split) <;> first | rfl | rw [State.injectParity_keep] | rw [State.injectResidue_keep]

theorem State.armDies_keep (s : State) (ts : List Haul) (f : State → Nat → Nat × Nat × Nat → State)
    (hf : ∀ s p u, (f s p u).keep = s.keep) : (State.armDies s ts f).keep = s.keep := by
  unfold State.armDies
  refine foldl_keep (fun s b => ?_) _ s
  split
  · exact hf _ _ _
  · rfl

@[simp] theorem State.armReport_keep (s : State) (i : Iss) (d : Nat) :
    (State.armReport s i d).keep = s.keep := by
  unfold State.armReport
  dsimp only
  split
  · rw [State.armDies_keep _ _ _ (fun s p u => State.injectParity_keep s i d p _ _ _ _)]
    rw [foldl_keep (fun s g => State.injectParity_keep s i d _ _ _ _ _), State.injectCore_keep]
  · rw [State.injectCore_keep]

@[simp] theorem State.markCheck_keep (s : State) (i : Iss) (d : Nat) :
    (State.markCheck s i d).keep = s.keep := by
  unfold State.markCheck
  dsimp only
  (repeat' split) <;> first | rfl | rw [State.recRaise_keep] <;> rfl

@[simp] theorem State.breakRun_keep (s : State) (n : Nat) :
    (State.breakRun s n).keep = s.keep := by
  simp only [State.breakRun]
  (repeat' split) <;> simp

@[simp] theorem State.advance_keep (s : State) (j : Job) (r : Run) :
    (State.advance s j r).keep = s.keep := by
  rfl

@[simp] theorem State.landMove_keep (s : State) (d idx : Nat) (chk : Chk) :
    (State.landMove s d idx chk).keep = s.keep := by
  unfold State.landMove
  split
  · rfl
  · split
    · cases chk <;> dsimp only <;>
        first
          | rw [State.spoil_keep, State.raiseRun_keep, State.advance_keep]
          | rw [State.lockBreakJob_keep, State.advance_keep]
          | rw [State.advance_keep]
    · rfl

@[simp] theorem State.setRecv_keep (s : State) (v : Recv) :
    (State.setRecv s v).keep = s.keep := by
  rfl

@[simp] theorem State.landOwn_keep (s : State) (j : Job) (r : Run) (d : Nat) (f : Flight) :
    (State.landOwn s j r d f).keep = s.keep := by
  unfold State.landOwn
  dsimp only
  split
  · rw [State.setRecv_keep, State.setRun_keep]
  · rw [State.setRun_keep]

@[simp] theorem State.completeRecord_keep (s : State) (d idx : Nat) :
    (State.completeRecord s d idx).keep = s.keep := by
  unfold State.completeRecord
  (repeat' split) <;> simp

@[simp] theorem State.controlCheck_keep (s : State) (j : Job) (r : Run) (d : Nat) (chk : Chk) :
    (State.controlCheck s j r d chk).keep = s.keep := by
  simp [State.controlCheck]

@[simp] theorem State.beginSegment_keep (s : State) (d : Nat) (chk : Chk) :
    (State.beginSegment s d chk).keep = s.keep := by
  simp only [State.beginSegment]
  (repeat' split) <;> simp

@[simp] theorem State.endSegment_keep (s : State) (d : Nat) (chk : Chk) :
    (State.endSegment s d chk).keep = s.keep := by
  simp only [State.endSegment]
  (repeat' split) <;> simp

@[simp] theorem State.markBatches_keep (s : State) (j : Job) :
    (State.markBatches s j).keep = s.keep := by
  rfl

@[simp] theorem State.readReceived_keep (s : State) (r : Run) :
    (State.readReceived s r).keep = s.keep := by
  rfl

@[simp] theorem State.nameSwitch_keep (s : State) (hosts : List Nat) :
    (State.nameSwitch s hosts).keep = s.keep := by
  unfold State.nameSwitch
  rw [foldl_keep]
  intro s x
  dsimp only
  (repeat' split) <;> simp

@[simp] theorem State.endDelay_keep (s : State) :
    (State.endDelay s).keep = s.keep := by
  rfl

@[simp] theorem State.beginRun_keep (s : State) (r : Run) :
    (State.beginRun s r).keep = s.keep := by
  rfl

@[simp] theorem State.act_keep (s : State) (utype punit cause : Nat) :
    (State.act s utype punit cause).keep = s.keep := by
  simp [State.act]

@[simp] theorem State.takeAccumulated_keep (s : State) (k cause : Nat) :
    (State.takeAccumulated s k cause).keep = s.keep := by
  unfold State.takeAccumulated
  rw [State.act_keep]
  rfl

@[simp] theorem State.doAccumulated_keep (s : State) :
    (State.doAccumulated s).keep = s.keep := by
  unfold State.doAccumulated
  rw [foldl_keep]
  intro s x
  simp

@[simp] theorem State.takeSlow_keep (s : State) (p share : Nat) :
    (State.takeSlow s p share).keep = s.keep := by
  unfold State.takeSlow
  dsimp only
  (repeat' split) <;> simp

@[simp] theorem State.takeCore_keep (s : State) (p : Nat) :
    (State.takeCore s p).keep = s.keep := by
  unfold State.takeCore
  dsimp only
  (repeat' split) <;> simp

@[simp] theorem State.doCores_keep (s : State) : (State.doCores s).keep = s.keep :=
  foldl_keep State.takeCore_keep _ s

@[simp] theorem State.noteItem_keep (s : State) (user age : Nat) :
    (State.noteItem s user age).keep = s.keep := by
  unfold State.noteItem
  split <;> rfl

@[simp] theorem State.served_keep (s : State) (us user : Nat) :
    (State.served s us user).keep = s.keep := by
  simp [State.served]

@[simp] theorem State.serveArrears_keep (s : State) (us : Nat) :
    (State.serveArrears s us).keep = s.keep := by
  unfold State.serveArrears
  dsimp only
  rw [State.setAsy_keep]
  rw [foldl_keep]
  · rfl
  · intro s x
    simp

@[simp] theorem State.endHosted_keep (s : State) (hosted : List Nat) :
    (State.endHosted s hosted).keep = s.keep := by
  rfl

@[simp] theorem State.forgetSwitch_keep (s : State) (p : Nat) :
    (State.forgetSwitch s p).keep = s.keep := by
  rfl

@[simp] theorem State.loadBank_keep (s : State) (tag : W32) (n p : Nat) :
    (State.loadBank s tag n p).keep = s.keep := by
  rfl

@[simp] theorem State.nameSwitches_keep (s : State) :
    (State.nameSwitches s).keep = s.keep := by
  unfold State.nameSwitches
  rw [foldl_keep]
  intro s j
  simp

@[simp] theorem State.reload_keep (s : State) (item : List Byte) :
    (State.reload s item).keep = s.keep := by
  unfold State.reload
  dsimp only
  rw [foldl_keep]
  · simp
    rw [foldl_keep]
    · simp
    · intro s p
      simp
  · intro s p
    simp

@[simp] theorem State.stageEvent_keep (s : State) (svn code : Nat) :
    (State.stageEvent s svn code).keep = s.keep := by
  simp [State.stageEvent]

@[simp] theorem State.identify_keep (s : State) :
    (State.identify s).keep = s.keep := by
  simp [State.identify]

@[simp] theorem State.latched_keep (s : State) :
    (State.latched s).keep = s.keep := by
  simp only [State.latched]
  (repeat' split) <;> simp

@[simp] theorem State.bootWrites_keep (s : State) :
    (State.bootWrites s).keep = s.keep := by
  unfold State.bootWrites
  dsimp only
  (repeat' split) <;> simp

@[simp] theorem State.order2_keep (s : State) (env : StartEnv) :
    (State.order2 s env).keep = s.keep := by
  unfold State.order2
  dsimp only
  (repeat' split) <;> simp

@[simp] theorem State.startFail_keep (s : State) (order cause utype punit : Nat) :
    (State.startFail s order cause utype punit).keep = s.keep := by
  simp [State.startFail]

@[simp] theorem State.retireEarly_keep (s : State) (c cause : Nat) :
    (State.retireEarly s c cause).keep = s.keep := by
  simp [State.retireEarly]

@[simp] theorem State.setRail_keep (s : State) (r v0 vmax t0 : Nat) :
    (State.setRail s r v0 vmax t0).keep = s.keep := by
  rfl

@[simp] theorem State.groupsFromFences_keep (s : State) :
    (State.groupsFromFences s).keep = s.keep := by
  unfold State.groupsFromFences
  rw [foldl_keep]
  intro s x
  dsimp only
  (repeat' split) <;> simp

@[simp] theorem State.loadBanks_keep (s : State) :
    (State.loadBanks s).keep = s.keep := by
  unfold State.loadBanks
  dsimp only
  rw [foldl_keep]
  · simp
  · intro s x
    simp

@[simp] theorem State.roundZero_keep (s : State) (x : AssaySet) (fs : List (Nat × Nat × W128)) (again : Nat → Bool) (p : Nat) :
    (State.roundZero s x fs again p).keep = s.keep := by
  unfold State.roundZero
  dsimp only
  (repeat' split) <;> simp

@[simp] theorem State.roundVector_keep (s : State) (env : StartEnv) (x : AssaySet) (i : Nat) (v : Vec) (live : List Nat) :
    (State.roundVector s env x i v live).1.keep = s.keep := by
  unfold State.roundVector
  dsimp only
  (repeat' split) <;> simp

@[simp] theorem State.runA_keep (s : State) (env : StartEnv) (x : AssaySet) (i : Nat) (vs : List Vec) (live : List Nat)
    (fs : List (Nat × Nat × W128)) : (State.runA s env x i vs live fs).1.keep = s.keep := by
  induction vs generalizing s i live fs with
  | nil => rfl
  | cons v t ih => rw [State.runA, ih, State.roundVector_keep]

@[simp] theorem State.roundSet_keep (s : State) (env : StartEnv) (x : AssaySet) :
    (State.roundSet s env x).keep = s.keep := by
  unfold State.roundSet
  dsimp only
  rw [foldl_keep (fun s p => State.roundZero_keep s x _ _ p), State.runA_keep]

@[simp] theorem State.setRcv_keep (s : State) (r : Recovery) :
    (State.setRcv s r).keep = s.keep := by
  rfl

@[simp] theorem State.setMod_keep (s : State) (m : Module) :
    (State.setMod s m).keep = s.keep := by
  rfl

@[simp] theorem State.heat_keep (s : State) (x0 : Nat) (x1 : List (BitVec 16)) :
    (State.heat s x0 x1).keep = s.keep := by
  induction x1 generalizing s x0 with
  | nil => rfl
  | cons t ts ih => simp [State.heat, ih]

@[simp] theorem State.senseAt_keep (s : State) (point unit : Nat) (temp : BitVec 16) :
    (State.senseAt s point unit temp).keep = s.keep := by
  simp only [State.senseAt]
  (repeat' split) <;> simp

@[simp] theorem State.setAlert_keep (s : State) (point unit : Nat) (on : Bool) :
    (State.setAlert s point unit on).keep = s.keep := by
  simp only [State.setAlert]
  (repeat' split) <;> simp

@[simp] theorem State.alertEvent_keep (s : State) (point unit : Nat) (temp : BitVec 16) :
    (State.alertEvent s point unit temp).keep = s.keep := by
  simp [State.alertEvent]

@[simp] theorem State.sagRecord_keep (s : State) (e : Sag) :
    (State.sagRecord s e).keep = s.keep := by
  unfold State.sagRecord
  (repeat' split) <;> rfl

@[simp] theorem State.sagFollow_keep (s : State) : (State.sagFollow s).keep = s.keep := by
  unfold State.sagFollow
  split
  · rw [State.sagRecord_keep]
  · rfl

@[simp] theorem State.sagAt_keep (s : State) (depth mv before : Nat) :
    (State.sagAt s depth mv before).keep = s.keep := by
  unfold State.sagAt
  split <;> simp

@[simp] theorem State.closeGate_keep (s : State) :
    (State.closeGate s).keep = s.keep := by
  rfl

@[simp] theorem State.inputIs_keep (s : State) (mv : Nat) :
    (State.inputIs s mv).keep = s.keep := by
  simp [State.inputIs]

@[simp] theorem State.sagBegin_keep (s : State) (depth mv : Nat) :
    (State.sagBegin s depth mv).keep = s.keep := by
  simp [State.sagBegin]

@[simp] theorem State.hold_keep (s : State) (mv : Nat) :
    (State.hold s mv).keep = s.keep := by
  simp [State.hold]

@[simp] theorem State.patrol_keep (s : State) (u : Nat × Nat) :
    (State.patrol s u).keep = s.keep := by
  simp [State.patrol]

@[simp] theorem State.moveFrames_keep (s : State) (c : Nat) (loose : List Nat) :
    (State.moveFrames s c loose).keep = s.keep := by
  rfl

@[simp] theorem State.lagged_keep (s : State) (r : Nat) (m : RegionMeas) :
    (State.lagged s r m).keep = s.keep := by
  unfold State.lagged
  rw [foldl_keep]
  intro s x
  dsimp only
  (repeat' split) <;> simp

@[simp] theorem State.replan_keep (s : State) (r : Nat) (m : RegionMeas) :
    (State.replan s r m).1.keep = s.keep := by
  unfold State.replan
  dsimp only
  split
  · rfl
  · have h : ∀ (l : List Nat) (t : State), (l.foldl (fun (s : State) (k : Nat) =>
        (ratesAt m k).foldl (fun (s : State) (f : Nat) => s.sample (0x80 + r) 3 (f : Int)) s) t).keep = t.keep :=
      foldl_keep (fun s k => foldl_keep (fun s f => State.sample_keep s _ _ _) _ s)
    (repeat' split) <;> simp [h]

@[simp] theorem State.strikeCheck_keep (s : State) (core : Nat) (chk : Chk) :
    (State.strikeCheck s core chk).keep = s.keep := by
  simp only [State.strikeCheck]
  (repeat' split) <;> simp

@[simp] theorem State.latch_keep (s : State) (side : Bool) (lo : Nat) (hi : W32) :
    (State.latch s side lo hi).keep = s.keep := by
  rfl

@[simp] theorem State.countRead_keep (s : State) (n : Nat) :
    (State.countRead s n).keep = s.keep := by
  rfl

@[simp] theorem State.monTake_keep (s : State) (n : Nat) :
    (State.monTake s n).keep = s.keep := by
  rfl

@[simp] theorem State.fwdNext_keep (s : State) :
    (State.fwdNext s).keep = s.keep := by
  rfl

@[simp] theorem State.afterRead_keep (s : State) (side : Bool) (n o : Nat) :
    (State.afterRead s side n o).keep = s.keep := by
  simp only [State.afterRead]
  (repeat' split) <;> simp

@[simp] theorem State.readReg_keep (s : State) (side : Bool) (off : W32) :
    (State.readReg s side off).2.keep = s.keep := by
  simp only [State.readReg]
  (repeat' split) <;> simp

@[simp] theorem State.hostRead_keep (s : State) (off : W32) :
    (State.hostRead s off).keep = s.keep := by
  simp [State.hostRead]

theorem State.setSu_keep (s : State) (u : StartUp) : State.keep { s with su := u } = s.keep := rfl

@[simp] theorem State.burSelect_keep (s : State) (data : W32) :
    (State.burSelect s data).keep = s.keep := State.setSu_keep _ _

@[simp] theorem State.coreSelect_keep (s : State) (p : Nat) (data : W32) :
    (State.coreSelect s p data).keep = s.keep := by
  simp only [State.coreSelect]
  (repeat' split) <;> simp

@[simp] theorem State.discardDoorbell_keep (s : State) :
    (State.discardDoorbell s).keep = s.keep := by
  simp [State.discardDoorbell]

@[simp] theorem State.errPop_keep (s : State) (v : W32) :
    (State.errPop s v).keep = s.keep := by
  simp only [State.errPop]
  (repeat' split) <;> simp

@[simp] theorem State.setErrIrq_keep (s : State) (v : W32) :
    (State.setErrIrq s v).keep = s.keep := by
  simp only [State.setErrIrq]
  (repeat' split) <;> simp

@[simp] theorem State.contribLanded_keep (s : State) (x : Send) (i : Nat) :
    (State.contribLanded s x i).keep = s.keep := by
  simp [State.contribLanded]

@[simp] theorem State.contribDone_keep (s : State) (id i status : Nat) :
    (State.contribDone s id i status).keep = s.keep := by
  simp only [State.contribDone]
  (repeat' split) <;> simp

@[simp] theorem State.restream_keep (s : State) (x : Send) :
    (State.restream s x).keep = s.keep := by
  simp [State.restream]

@[simp] theorem State.csgnDone_keep (s : State) (id status : Nat) :
    (State.csgnDone s id status).keep = s.keep := by
  simp only [State.csgnDone]
  (repeat' split) <;> simp

@[simp] theorem State.voidDone_keep (s : State) (id status : Nat) :
    (State.voidDone s id status).keep = s.keep := by
  simp only [State.voidDone]
  (repeat' split) <;> simp

@[simp] theorem State.msgDone_keep (s : State) (n : Nat) (k : W32) (status : Nat) :
    (State.msgDone s n k status).keep = s.keep := by
  simp only [State.msgDone]
  (repeat' split) <;> simp

@[simp] theorem State.relayAnswer_keep (s : State) (status : Nat) (v : W32) :
    (State.relayAnswer s status v).keep = s.keep := by
  simp [State.relayAnswer]

@[simp] theorem State.relayPump_keep (s : State) :
    (State.relayPump s).keep = s.keep := by
  unfold State.relayPump
  dsimp only
  rw [foldl_keep]
  · simp
  · intro s x
    simp

@[simp] theorem State.relayDone_keep (s : State) (id status : Nat) (data : List Byte) :
    (State.relayDone s id status data).keep = s.keep := by
  simp [State.relayDone]

@[simp] theorem State.relay_keep (s : State) (pos : Nat) (read : Bool) (off : Nat) (t : Txn) :
    (State.relay s pos read off t).keep = s.keep := by
  simp [State.relay]

@[simp] theorem State.relayExpired_keep (s : State) (id : Nat) :
    (State.relayExpired s id).keep = s.keep := by
  simp [State.relayExpired]

@[simp] theorem State.completeUse_keep (s : State) (u : TagUse) (status : Nat) (data : List Byte) :
    (State.completeUse s u status data).keep = s.keep := by
  simp only [State.completeUse]
  (repeat' split) <;> simp

@[simp] theorem State.freeTag_keep (s : State) (p g : Nat) :
    (State.freeTag s p g).keep = s.keep := by
  rfl

@[simp] theorem State.forward_keep (s : State) (inPort : Nat) (t : Txn) :
    (State.forward s inPort t).keep = s.keep := by
  simp only [State.forward]
  (repeat' split) <;> simp

@[simp] theorem State.redirect_keep (s : State) (p : Nat) (t : Txn) :
    (State.redirect s p t).keep = s.keep := by
  simp only [State.redirect]
  (repeat' split) <;> simp

@[simp] theorem State.reroutePort_keep (s : State) (p : Nat) :
    (State.reroutePort s p).keep = s.keep := by
  unfold State.reroutePort
  dsimp only
  rw [foldl_keep, foldl_keep]
  · simp
  · intro s t
    (repeat' split) <;> simp
  · intro s x
    simp

@[simp] theorem State.rerouteAll_keep (s : State) :
    (State.rerouteAll s).keep = s.keep := by
  unfold State.rerouteAll
  rw [foldl_keep]
  intro s p
  simp

@[simp] theorem State.portDown_keep (s : State) (p : Nat) :
    (State.portDown s p).keep = s.keep := by
  simp [State.portDown]

@[simp] theorem State.setEnable_keep (s : State) (p : Nat) (on : Bool) :
    (State.setEnable s p on).keep = s.keep := by
  simp [State.setEnable]

@[simp] theorem State.unfenceRegion_keep (s : State) (r : Nat) :
    (State.unfenceRegion s r).keep = s.keep := by
  simp [State.unfenceRegion]

@[simp] theorem State.stageCommit_keep (s : State) (n : Nat) :
    (State.stageCommit s n).keep = s.keep := by
  simp [State.stageCommit]

@[simp] theorem State.setForce_keep (s : State) (n : Nat) (data : W32) :
    (State.setForce s n data).keep = s.keep := by
  rfl

@[simp] theorem State.onMon_keep (s : State) (n : Nat) (f : Mon → Mon) :
    (State.onMon s n f).keep = s.keep := by
  rfl

@[simp] theorem State.monSelect_keep (s : State) (n : Nat) (data : W32) :
    (State.monSelect s n data).keep = s.keep := by
  rfl

@[simp] theorem State.stageCtl_keep (s : State) (data : W32) :
    (State.stageCtl s data).keep = s.keep := by
  rfl

@[simp] theorem State.fwdWrite_keep (s : State) (data : W32) :
    (State.fwdWrite s data).keep = s.keep := by
  simp [State.fwdWrite]

@[simp] theorem State.onRcv_keep (s : State) (f : Recovery → Recovery) :
    (State.onRcv s f).keep = s.keep := by
  simp [State.onRcv]

@[simp] theorem State.clearRepro_keep (s : State) (data : W32) :
    (State.clearRepro s data).keep = s.keep := by
  rfl

@[simp] theorem State.writeAssay_keep (s : State) (o : Nat) (data : W32) :
    (State.writeAssay s o data).keep = s.keep := by
  simp [State.writeAssay]

@[simp] theorem State.monSnap_keep (s : State) :
    (State.monSnap s).keep = s.keep := by
  simp [State.monSnap]

@[simp] theorem State.monClear_keep (s : State) :
    (State.monClear s).keep = s.keep := by
  rfl

@[simp] theorem State.writeMonitor_keep (s : State) (o : Nat) (data : W32) :
    (State.writeMonitor s o data).keep = s.keep := by
  simp [State.writeMonitor]

@[simp] theorem State.sendClaim_keep (s : State) (pos : Nat) (id : BitVec 16) :
    (State.sendClaim s pos id).keep = s.keep := by
  simp only [State.sendClaim]
  (repeat' split) <;> simp

@[simp] theorem State.folioWrite_keep (s : State) (pos : Nat) (data : W32) :
    (State.folioWrite s pos data).keep = s.keep := by
  simp [State.folioWrite]

@[simp] theorem State.holdLo_keep (s : State) (o : Nat) (data : W32) :
    (State.holdLo s o data).keep = s.keep := by
  simp [State.holdLo]

@[simp] theorem State.loadHi_keep (s : State) (o : Nat) (data : W32) :
    (State.loadHi s o data).keep = s.keep := by
  simp [State.loadHi]

@[simp] theorem State.writeTeller_keep (s : State) (o : Nat) (data : W32) :
    (State.writeTeller s o data).keep = s.keep := by
  simp only [State.writeTeller]
  (repeat' split) <;> simp

@[simp] theorem State.portRelease_keep (s : State) (p : Nat) :
    (State.portRelease s p).keep = s.keep := by
  simp [State.portRelease]

@[simp] theorem State.writePort_keep (s : State) (p o : Nat) (data : W32) :
    (State.writePort s p o data).keep = s.keep := by
  simp [State.writePort]

@[simp] theorem State.writeRegion_keep (s : State) (r o : Nat) (data : W32) :
    (State.writeRegion s r o data).keep = s.keep := by
  simp [State.writeRegion]

@[simp] theorem State.fabricEvent_keep (s : State) (code p order contrib : Nat) :
    (State.fabricEvent s code p order contrib).keep = s.keep := by
  simp [State.fabricEvent]

@[simp] theorem State.lockBreakPort_keep (s : State) (p : Nat) :
    (State.lockBreakPort s p).keep = s.keep := by
  unfold State.lockBreakPort
  repeat' (first | (simp; done) | intro _ _ | rw [State.keep_mk, State.keep_fold] | rw [foldl_keep] | split | dsimp only)

@[simp] theorem State.abortAll_keep (s : State) (p : Nat) :
    (State.abortAll s p).keep = s.keep := by
  unfold State.abortAll
  dsimp only
  rw [foldl_keep]
  · simp
  · intro s x
    simp

@[simp] theorem State.quarantine_keep (s : State) (p k : Nat) :
    (State.quarantine s p k).keep = s.keep := by
  simp [State.quarantine]

@[simp] theorem State.countQ_keep (s : State) (p k : Nat) :
    (State.countQ s p k).keep = s.keep := by
  simp only [State.countQ]
  (repeat' split) <;> simp

@[simp] theorem State.denied_keep (s : State) (p : Nat) (t : Txn) :
    (State.denied s p t).keep = s.keep := by
  simp [State.denied]

@[simp] theorem State.recvCpl_keep (s : State) (p : Nat) (t : Txn) :
    (State.recvCpl s p t).keep = s.keep := by
  simp only [State.recvCpl]
  (repeat' split) <;> simp

@[simp] theorem State.countRelay_keep (s : State) (p : Nat) :
    (State.countRelay s p).keep = s.keep := by
  simp [State.countRelay]

@[simp] theorem State.deliver_keep (s : State) (p : Nat) (t : Txn) :
    (State.deliver s p t).keep = s.keep := by
  simp [State.deliver]

@[simp] theorem State.takePayload_keep (s : State) (p : Nat) (h : LinkHead) (pl : List Byte) :
    (State.takePayload s p h pl).keep = s.keep := by
  unfold State.takePayload
  dsimp only
  split
  · simp
  · split
    · simp
      rw [foldl_keep]
      · simp
      · intro s t
        simp
    · rw [foldl_keep]
      · simp
      · intro s t
        simp

@[simp] theorem State.takeData_keep (s : State) (p : Nat) (h : LinkHead) (pl : List Byte) :
    (State.takeData s p h pl).keep = s.keep := by
  simp [State.takeData]

@[simp] theorem State.askReplay_keep (s : State) (p : Nat) :
    (State.askReplay s p).keep = s.keep := by
  simp [State.askReplay]

@[simp] theorem State.inOrder_keep (s : State) (p : Nat) (h : LinkHead) (pl : List Byte) :
    (State.inOrder s p h pl).keep = s.keep := by
  simp [State.inOrder]

@[simp] theorem State.dueFlit_keep (s : State) (p : Nat) (h : LinkHead) (flit : List Byte) :
    (State.dueFlit s p h flit).keep = s.keep := by
  simp only [State.dueFlit]
  (repeat' split) <;> simp

@[simp] theorem State.goodFlit_keep (s : State) (p : Nat) (h : LinkHead) (flit : List Byte) :
    (State.goodFlit s p h flit).keep = s.keep := by
  simp [State.goodFlit]

@[simp] theorem State.idle_keep (s : State) (p : Nat) :
    (State.idle s p).keep = s.keep := by
  rfl

@[simp] theorem State.enterAuth_keep (s : State) (p : Nat) (lanes : Byte) :
    (State.enterAuth s p lanes).keep = s.keep := by
  rfl

@[simp] theorem State.failAuth_keep (s : State) (p code order id : Nat) :
    (State.failAuth s p code order id).keep = s.keep := by
  simp [State.failAuth]

@[simp] theorem State.train_keep (s : State) (p : Nat) (x y : BitVec 8) : (s.train p x y).keep = s.keep := by
  unfold State.train
  dsimp only
  split
  · split
    · rw [State.classEdge_keep, State.setPort_keep]
    · rw [State.classEdge_keep, State.enterAuth_keep]
  · rfl

@[simp] theorem State.greet_keep (s : State) (p : Nat) (x : Hello) : (s.greet p x).keep = s.keep := by
  unfold State.greet
  dsimp only
  split
  · split
    · rw [State.setPort_keep]
    · rw [State.classEdge_keep, State.failAuth_keep]
  · rfl

@[simp] theorem State.giveUp_keep (s : State) (p o : Nat) : (s.giveUp p o).keep = s.keep := by
  unfold State.giveUp
  dsimp only
  split
  · rw [State.classEdge_keep, State.failAuth_keep]
  · rfl

@[simp] theorem State.reachThird_keep (s : State) (p : Nat) (ids : List Nat) :
    (State.reachThird s p ids).keep = s.keep := by
  rfl

@[simp] theorem State.tellOthers_keep (s : State) (p : Nat) (m : Mgmt) :
    (State.tellOthers s p m).keep = s.keep := by
  unfold State.tellOthers
  rw [foldl_keep]
  intro s x
  simp

@[simp] theorem State.bind_keep (s : State) (p id : Nat) (digest : W64) :
    (State.bind s p id digest).keep = s.keep := by
  simp [State.bind]

@[simp] theorem State.claimAll_keep (s : State) (id : BitVec 16) :
    (State.claimAll s id).keep = s.keep := by
  unfold State.claimAll
  rw [foldl_keep]
  intro s x
  simp

@[simp] theorem State.endClaim_keep (s : State) :
    (State.endClaim s).keep = s.keep := by
  rfl

@[simp] theorem State.replyClaim_keep (s : State) (p : Nat) (ok : Bool) :
    (State.replyClaim s p ok).keep = s.keep := by
  rfl

@[simp] theorem State.claimAnswer_keep (s : State) (pos : Nat) (holder : BitVec 16) :
    (State.claimAnswer s pos holder).keep = s.keep := by
  simp [State.claimAnswer]

@[simp] theorem State.verdictRecord_keep (s : State) (r : Run) (u : Suspect) :
    (State.verdictRecord s r u).keep = s.keep := by
  simp [State.verdictRecord]

@[simp] theorem State.transient_keep (s : State) (r : Run) (u : Suspect) (cause : Nat) :
    (State.transient s r u cause).keep = s.keep := by
  simp [State.transient]

@[simp] theorem State.verdict_keep (s : State) (r : Run) (u : Suspect) :
    (State.verdict s r u).keep = s.keep := by
  simp [State.verdict]

@[simp] theorem State.nameHost_keep (s : State) (j : Job) (r : Run) (d i a b : Nat) :
    (State.nameHost s j r d i a b).1.keep = s.keep := by
  simp only [State.nameHost]
  (repeat' split) <;> simp

@[simp] theorem State.nameHosts_keep (s : State) (j : Job) (r : Run) (k : Nat) (x0 : List (Nat × Nat)) :
    (State.nameHosts s j r k x0).1.keep = s.keep := by
  induction x0 generalizing s r with
  | nil => rfl
  | cons x t ih => simp [State.nameHosts, ih]

@[simp] theorem State.awaitRun_keep (s : State) (r : Run) (counted : Nat) :
    (State.awaitRun s r counted).keep = s.keep := by
  simp [State.awaitRun]

@[simp] theorem State.readyAll_keep (s : State) (m moved : List Nat) :
    (State.readyAll s m moved).keep = s.keep := by
  unfold State.readyAll
  rw [foldl_keep]
  intro s l
  simp

@[simp] theorem State.nextRun_keep (s : State) (r : Run) :
    (State.nextRun s r).keep = s.keep := by
  rfl

@[simp] theorem State.mapPages_keep (s : State) (j : Job) :
    (State.mapPages s j).keep = s.keep := by
  rfl

@[simp] theorem State.exchange_keep (s : State) (r : Run) :
    (State.exchange s r).keep = s.keep := by
  rfl

@[simp] theorem State.dropServed_keep (s : State) (n : Nat) (step : W64) :
    (State.dropServed s n step).keep = s.keep := by
  rfl

@[simp] theorem State.regenEvent_keep (s : State) (j : Job) (r : Option Run) (space addr desc : Nat) :
    (State.regenEvent s j r space addr desc).keep = s.keep := by
  simp [State.regenEvent]

@[simp] theorem State.readBack_keep (s : State) (j : Job) (desc : Nat) :
    (State.readBack s j desc).keep = s.keep := by
  unfold State.readBack
  dsimp only
  split
  · rw [foldl_keep]
    intro s x
    simp
  · rfl

@[simp] theorem State.remap_keep (s : State) :
    (State.remap s).keep = s.keep := by
  unfold State.remap
  dsimp only
  rw [State.keep_mk, State.keep_fold, foldl_keep]
  intro s x
  simp

@[simp] theorem State.setEvent_keep (s : State) (id ver act code : Nat) :
    (State.setEvent s id ver act code).keep = s.keep := by
  simp [State.setEvent]

@[simp] theorem State.storeSet_keep (s : State) (x : AssaySet) (k : Nat) :
    (State.storeSet s x k).keep = s.keep := by
  rfl

@[simp] theorem State.eraseSet_keep (s : State) (k : Nat) :
    (State.eraseSet s k).keep = s.keep := by
  rfl

@[simp] theorem State.beatAll_keep (s : State) :
    (State.beatAll s).keep = s.keep := by
  simp [State.beatAll]

@[simp] theorem State.setMsix_keep (s : State) (vector : Nat) (e : MsixEnt) :
    (State.setMsix s vector e).keep = s.keep := by
  rfl

@[simp] theorem State.sendPending_keep (s : State) (vector : Nat) :
    (State.sendPending s vector).keep = s.keep := by
  simp [State.sendPending]

@[simp] theorem State.configure_keep (s : State) (c : PcieCfg) : (State.configure s c).keep = s.keep := by
  unfold State.configure
  dsimp only
  split
  · rw [foldl_keep (fun s v => State.sendPending_keep s v)]
    rfl
  · rfl

@[simp] theorem State.stepEvent_keep (s : State) (job : Nat) (e : Evt) :
    (State.stepEvent s job e).keep = s.keep := by
  simp only [State.stepEvent]
  (repeat' split) <;> simp

@[simp] theorem State.collEvent_keep (s : State) (code p : Nat) (j : Job) (x : Incoming) (v : Recv) (w7 : Nat) :
    (State.collEvent s code p j x v w7).keep = s.keep := by
  simp [State.collEvent]

@[simp] theorem State.discard_keep (s : State) (v : Recv) (token attempt : Nat) :
    (State.discard s v token attempt).keep = s.keep := by
  simp only [State.discard]
  (repeat' split) <;> simp

@[simp] theorem State.compare_keep (s : State) (j : Job) (x : Incoming) (v : Recv) (h : HeldCsgn) :
    (State.compare s j x v h).keep = s.keep := by
  simp [State.compare]

@[simp] theorem State.landIn_keep (s : State) (p : Nat) (j : Job) (x : Incoming) (v : Recv) (t : Txn) :
    (State.landIn s p j x v t).keep = s.keep := by
  simp only [State.landIn]
  (repeat' split) <;> simp

@[simp] theorem State.ingressEvent_keep (s : State) (d : Nat) (j : Job) (r : Run) (ut pu w6 w7 : Nat) (injected : Bool) :
    (State.ingressEvent s d j r ut pu w6 w7 injected).keep = s.keep := by
  simp [State.ingressEvent]

@[simp] theorem State.ingress_keep (s : State) (p d : Nat) (j : Job) (r : Run) (t : Txn) (chk : Chk) :
    (State.ingress s p d j r t chk).1.keep = s.keep := by
  simp only [State.ingress]
  (repeat' split) <;> simp

@[simp] theorem State.compareHeld_keep (s : State) (j : Job) (x : Incoming) (t : Txn) :
    (State.compareHeld s j x t).keep = s.keep := by
  simp only [State.compareHeld]
  (repeat' split) <;> simp

@[simp] theorem State.recvData_keep (s : State) (p : Nat) (j : Job) (r : Run) (x : Incoming) (t : Txn) (chk : Chk) :
    (State.recvData s p j r x t chk).keep = s.keep := by
  simp only [State.recvData]
  (repeat' split) <;> simp

@[simp] theorem State.contribution_keep (s : State) (p : Nat) (t : Txn) (mode : Nat) (chk : Chk) :
    (State.contribution s p t mode chk).keep = s.keep := by
  simp only [State.contribution]
  (repeat' split) <;> simp

@[simp] theorem State.readRegs_keep (s : State) (addr : Nat) (named : Nat → Bool) (x0 : Nat) :
    (State.readRegs s addr named x0).2.keep = s.keep := by
  induction x0 generalizing s addr with
  | zero => rfl
  | succ n ih =>
    rw [State.readRegs]
    dsimp only
    rw [ih]
    split <;> simp

@[simp] theorem State.readWindow_keep (s : State) (p : Nat) (t : Txn) :
    (State.readWindow s p t).keep = s.keep := by
  simp only [State.readWindow]
  (repeat' split) <;> simp

@[simp] theorem State.recvRd_keep (s : State) (p : Nat) (t : Txn) :
    (State.recvRd s p t).keep = s.keep := by
  unfold State.recvRd
  dsimp only
  (repeat' split) <;> simp

@[simp] theorem State.recvCsgn_keep (s : State) (p : Nat) (j : Job) (x : Incoming) (t : Txn) :
    (State.recvCsgn s p j x t).keep = s.keep := by
  simp only [State.recvCsgn]
  (repeat' split) <;> simp

@[simp] theorem State.recvVoid_keep (s : State) (p : Nat) (j : Job) (x : Incoming) (t : Txn) :
    (State.recvVoid s p j x t).keep = s.keep := by
  simp [State.recvVoid]

@[simp] theorem State.recvDb_keep (s : State) (p : Nat) (t : Txn) :
    (State.recvDb s p t).keep = s.keep := by
  simp only [State.recvDb]
  (repeat' split) <;> simp

@[simp] theorem State.reroute_keep (s : State) (j : Job) :
    (State.reroute s j).keep = s.keep := by
  simp [State.reroute]

@[simp] theorem State.waitTimeout_keep (s : State) (j : Job) (r : Run) (x : Incoming) :
    (State.waitTimeout s j r x).keep = s.keep := by
  simp [State.waitTimeout]

@[simp] theorem State.sbAnswer_keep (s : State) (status : Byte) (data : W32) :
    (State.sbAnswer s status data).keep = s.keep := by
  rfl

@[simp] theorem State.onI3c_keep (s : State) (k : I3c → I3c) :
    (State.onI3c s k).keep = s.keep := by
  simp [State.onI3c]

@[simp] theorem State.cccAnswer_keep (s : State) (bs : List Byte) :
    (State.cccAnswer s bs).keep = s.keep := by
  simp [State.cccAnswer]

@[simp] theorem State.watchdogEvents_keep (s : State) (j : Job) (r : Run) (limit elapsed die : Nat) :
    (State.watchdogEvents s j r limit elapsed die).keep = s.keep := by
  unfold State.watchdogEvents
  dsimp only
  split
  · simp
  · rw [foldl_keep]
    intro s h
    simp

end Sys2Proof.Machine
end

