-- ==== Sys2Proof/Laws/Posted.lean ====
section
/-! SUPPORT. The functions that leave the jobs, their requests and the placement alone: one lemma for each. -/

namespace Sys2Proof.Machine

@[simp] theorem State.posted_mk (a1 a2 a3 a4 a5 a6 a7 a8 a9 a10 a11 a12 a13 a14 a15 a16 a17 a18 a19 a20 a21 a22 a23 a24 a25 a26 a27 a28 a29 a30 a31 a32 a33 a34 a35 a36 a37) :
    State.posted ⟨a1, a2, a3, a4, a5, a6, a7, a8, a9, a10, a11, a12, a13, a14, a15, a16, a17, a18, a19, a20, a21, a22, a23, a24, a25, a26, a27, a28, a29, a30, a31, a32, a33, a34, a35, a36, a37⟩ = (a27, a24, a26, a28, a29, a30, a31, a17, a18, a19, a20, a21, a22, a23, a33) := rfl

@[simp] theorem State.posted_fold (s : State) :
    (s.jobs, s.pageMap, s.queued0, s.seqTab, s.batches, s.stamp, s.wback, s.dies, s.dieRecs, s.lmap, s.hbmMap, s.spared, s.hbmBytes, s.spareGb, s.lastSlots) = s.posted := rfl

@[simp] theorem posted_ite (c : Prop) [Decidable c] (s t : State) : (if c then s else t).posted = if c then s.posted else t.posted := by
  split <;> rfl

theorem foldl_posted {τ : Type} {f : State → τ → State} (h : ∀ s x, (f s x).posted = s.posted) :
    ∀ (l : List τ) (s : State), (l.foldl f s).posted = s.posted
  | [], _ => rfl
  | x :: t, s => (foldl_posted h t (f s x)).trans (h s x)

@[simp] theorem State.setPort_posted (s : State) (p : Nat) (q : Port) :
    (State.setPort s p q).posted = s.posted := by
  rfl

@[simp] theorem State.trySend_posted (s : State) (t : Txn) (u : TagUse) :
    (State.trySend s t u).1.posted = s.posted := by
  simp only [State.trySend]
  (repeat' split) <;> simp

@[simp] theorem State.sendReq_posted (s : State) (t : Txn) (u : TagUse) :
    (State.sendReq s t u).posted = s.posted := by
  simp [State.sendReq]

@[simp] theorem State.complete_posted (s : State) (inPort : Nat) (req : Txn) (status : Nat) (poison : Nat) (data : List Byte) :
    (State.complete s inPort req status poison data).posted = s.posted := by
  rfl

@[simp] theorem State.setPage_posted (s : State) (n : Nat) (p : Page) :
    (State.setPage s n p).posted = s.posted := by
  rfl

@[simp] theorem State.setRegion_posted (s : State) (r : Nat) (x : Region) :
    (State.setRegion s r x).posted = s.posted := by
  rfl

@[simp] theorem State.setCore_posted (s : State) (p : Nat) (c : CoreHw) :
    (State.setCore s p c).posted = s.posted := by
  rfl

@[simp] theorem State.setChan_posted (s : State) (c : Nat) (x : Chan) :
    (State.setChan s c x).posted = s.posted := by
  rfl

@[simp] theorem State.setRing_posted (s : State) (n : Nat) (r : Ring) :
    (State.setRing s n r).posted = s.posted := by
  rfl

@[simp] theorem State.interrupt_posted (s : State) (v : BitVec 11) :
    (State.interrupt s v).posted = s.posted := by
  simp only [State.interrupt]
  (repeat' split) <;> simp

@[simp] theorem State.evtEdge_posted (s : State) :
    (State.evtEdge s).posted = s.posted := by
  simp [State.evtEdge]

@[simp] theorem State.markPage_posted (s : State) (n cls count : Nat) :
    (State.markPage s n cls count).posted = s.posted := by
  simp [State.markPage]

@[simp] theorem State.ledger_posted (s : State) (ws : List W64) :
    (State.ledger s ws).posted = s.posted := by
  simp only [State.ledger]
  (repeat' split) <;> simp

@[simp] theorem State.setSummary_posted (s : State) (k : Nat) (e : Summary) :
    (State.setSummary s k e).posted = s.posted := by
  rfl

@[simp] theorem State.noteUnit_posted (s : State) (e : Evt) :
    (State.noteUnit s e).posted = s.posted := by
  simp [State.noteUnit]

@[simp] theorem State.raise_posted (s : State) (e : Evt) :
    (State.raise s e).posted = s.posted := by
  simp [State.raise]

@[simp] theorem State.raiseQuiet_posted (s : State) (e : Evt) :
    (State.raiseQuiet s e).posted = s.posted := by
  simp [State.raiseQuiet]

@[simp] theorem State.errInterrupt_posted (s : State) :
    (State.errInterrupt s).posted = s.posted := by
  simp [State.errInterrupt]

@[simp] theorem State.countPage_posted (s : State) (n count : Nat) :
    (State.countPage s n count).posted = s.posted := by
  rfl

@[simp] theorem State.infoEvent_posted (s : State) (job step : Nat) (cls : Option Nat) :
    (State.infoEvent s job step cls).posted = s.posted := by
  unfold State.infoEvent
  dsimp only
  (repeat' split) <;> simp

@[simp] theorem State.lockBreakIf_posted (s : State) (p : Run → Bool) :
    (State.lockBreakIf s p).posted = s.posted := by
  unfold State.lockBreakIf
  dsimp only
  rw [foldl_posted]
  · simp
  · intro s x
    simp

@[simp] theorem State.lockBreak_posted (s : State) :
    (State.lockBreak s).posted = s.posted := by
  simp [State.lockBreak]

@[simp] theorem State.lockBreakJob_posted (s : State) (job : Nat) :
    (State.lockBreakJob s job).posted = s.posted := by
  simp [State.lockBreakJob]

@[simp] theorem State.governor_posted (s : State) :
    (State.governor s).posted = s.posted := by
  simp [State.governor]

@[simp] theorem State.alertEdge_posted (s : State) :
    (State.alertEdge s).posted = s.posted := by
  simp [State.alertEdge]

@[simp] theorem State.sample_posted (s : State) (page quantity : Nat) (v : Int) :
    (State.sample s page quantity v).posted = s.posted := by
  rfl

@[simp] theorem State.classEdge_posted (s : State) :
    (State.classEdge s).posted = s.posted := by
  simp [State.classEdge]

@[simp] theorem State.settle_posted (s : State) :
    (State.settle s).posted = s.posted := by
  simp [State.settle]

@[simp] theorem State.matchBanks_posted (s : State) (p : Nat) :
    (State.matchBanks s p).posted = s.posted := by
  simp only [State.matchBanks]
  (repeat' split) <;> simp

@[simp] theorem State.readyBanks_posted (s : State) (p : Nat) :
    (State.readyBanks s p).posted = s.posted := by
  simp only [State.readyBanks]
  (repeat' split) <;> simp

@[simp] theorem State.flashWrite_posted (s : State) (w : FlashWrite) :
    (State.flashWrite s w).1.posted = s.posted := by
  simp only [State.flashWrite]
  (repeat' split) <;> simp

@[simp] theorem State.drainFlash_posted (s : State) :
    (State.drainFlash s).posted = s.posted := by
  rfl

@[simp] theorem State.summaryNow_posted (s : State) (k : Nat) :
    (State.summaryNow s k).posted = s.posted := by
  simp [State.summaryNow]

@[simp] theorem State.pageReset_posted (s : State) (n : Nat) :
    (State.pageReset s n).posted = s.posted := by
  rfl

@[simp] theorem State.markFenced_posted (s : State) (utype punit : Nat) :
    (State.markFenced s utype punit).posted = s.posted := by
  simp [State.markFenced]

@[simp] theorem State.markDegraded_posted (s : State) (utype punit : Nat) :
    (State.markDegraded s utype punit).posted = s.posted := by
  rfl

@[simp] theorem State.countTransient_posted (s : State) (utype punit cause : Nat) :
    (State.countTransient s utype punit cause).posted = s.posted := by
  simp [State.countTransient]

@[simp] theorem State.setRun_posted (s : State) (r : Run) :
    (State.setRun s r).posted = s.posted := by
  rfl

@[simp] theorem State.dropRun_posted (s : State) (job : Nat) :
    (State.dropRun s job).posted = s.posted := by
  rfl

@[simp] theorem State.hostWrite_posted (s : State) (addr : Nat) (bs : List Byte) :
    (State.hostWrite s addr bs).posted = s.posted := by
  unfold State.hostWrite
  split
  · rfl
  · split
    · rfl
    · rw [foldl_posted]
      · rfl
      · intro s x
        simp

@[simp] theorem State.sendEntryWr_posted (s : State) (n : Nat) (k : W32) (t : Txn) :
    (State.sendEntryWr s n k t).posted = s.posted := by
  simp [State.sendEntryWr]

@[simp] theorem State.produceFar_posted (s : State) (n : Nat) (r : Ring) (ws : List W64) :
    (State.produceFar s n r ws).posted = s.posted := by
  unfold State.produceFar
  dsimp only
  split
  · rfl
  · rw [foldl_posted]
    · simp
    · intro s x
      simp

@[simp] theorem State.ringIrq_posted (s : State) (n : Nat) (r : Ring) :
    (State.ringIrq s n r).posted = s.posted := by
  simp [State.ringIrq]

@[simp] theorem State.passTail_posted (s : State) (n : Nat) (r : Ring) :
    (State.passTail s n r).posted = s.posted := by
  unfold State.passTail
  dsimp only
  rw [foldl_posted]
  · simp
  · intro s x
    simp

@[simp] theorem State.entryDone_posted (s : State) (n : Nat) (k : W32) (t : Txn) (status : Nat) :
    (State.entryDone s n k t status).posted = s.posted := by
  simp only [State.entryDone]
  (repeat' split) <;> simp

@[simp] theorem State.hostResend_posted (s : State) :
    (State.hostResend s).posted = s.posted := by
  unfold State.hostResend
  dsimp only
  rw [foldl_posted]
  · simp
  · intro s x
    simp

@[simp] theorem State.hostFetch_posted (s : State) (addr n : Nat) :
    (State.hostFetch s addr n).posted = s.posted := by
  unfold State.hostFetch
  split
  · rfl
  · split
    · rfl
    · rw [foldl_posted]
      intro s x
      simp

@[simp] theorem State.stale_posted (s : State) (n : Nat) (r : Ring) :
    (State.stale s n r).posted = s.posted := by
  simp [State.stale]

@[simp] theorem State.fetched_posted (s : State) (f : Fetch) (r : Ring) :
    (State.fetched s f r).posted = s.posted := by
  simp [State.fetched]

@[simp] theorem State.raiseRun_posted (s : State) (job : Nat) (d : Option Nat) (e : Evt) (detail : Nat) (recount injected : Bool) :
    (State.raiseRun s job d e detail recount injected).posted = s.posted := by
  simp only [State.raiseRun]
  (repeat' split) <;> simp

@[simp] theorem State.candidate_posted (s : State) (c cause : Nat) :
    (State.candidate s c cause).posted = s.posted := by
  simp [State.candidate]

@[simp] theorem State.triggers_posted (s : State) (c cause : Nat) :
    (State.triggers s c cause).posted = s.posted := by
  simp [State.triggers]

@[simp] theorem State.corrected_posted (s : State) (job : Nat) (utype punit block n : Nat) :
    (State.corrected s job utype punit block n).posted = s.posted := by
  simp [State.corrected]

@[simp] theorem State.setSend_posted (s : State) (x : Send) :
    (State.setSend s x).posted = s.posted := by
  rfl

@[simp] theorem State.dropSend_posted (s : State) (id : Nat) :
    (State.dropSend s id).posted = s.posted := by
  rfl

@[simp] theorem State.stream_posted (s : State) (id : Nat) (x0 : List Nat) :
    (State.stream s id x0).posted = s.posted := by
  induction x0 generalizing s with
  | nil => rfl
  | cons i rest ih =>
    unfold State.stream
    dsimp only
    (repeat' split) <;> simp [ih]

@[simp] theorem State.startSend_posted (s : State) (j : Job) (r : Run) (d : Nat) (ordinal : Nat) (c : Contrib) :
    (State.startSend s j r d ordinal c).posted = s.posted := by
  simp [State.startSend]

@[simp] theorem State.sendMsg_posted (s : State) (x : Send) (t : Txn) (u : TagUse) (done late : Send) :
    (State.sendMsg s x t u done late).posted = s.posted := by
  simp [State.sendMsg]

@[simp] theorem State.sendCsgn_posted (s : State) (x : Send) :
    (State.sendCsgn s x).posted = s.posted := by
  simp [State.sendCsgn]

@[simp] theorem State.sendVoid_posted (s : State) (x : Send) (status : Nat) :
    (State.sendVoid s x status).posted = s.posted := by
  simp [State.sendVoid]

@[simp] theorem State.voidRun_posted (s : State) (job stepLo : Nat) :
    (State.voidRun s job stepLo).posted = s.posted :=
  foldl_posted (f := fun (s : State) x => s.sendVoid x 0) (fun s x => by simp) _ s

@[simp] theorem State.sendFinal_posted (s : State) (x : Send) :
    (State.sendFinal s x).posted = s.posted := by
  unfold State.sendFinal
  split
  · rw [State.sendVoid_posted]
  · dsimp only
    rw [State.sendVoid_posted]
    rfl

@[simp] theorem State.voidJob_posted (s : State) (job : Nat) :
    (State.voidJob s job).posted = s.posted := by
  unfold State.voidJob
  dsimp only
  rw [foldl_posted]
  intro s x
  simp

@[simp] theorem State.signRun_posted (s : State) (job : Nat) :
    (State.signRun s job).posted = s.posted := by
  unfold State.signRun
  dsimp only
  rw [foldl_posted]
  intro s x
  simp

@[simp] theorem State.mapRecvs_posted (s : State) (f : Recv → Recv) :
    (State.mapRecvs s f).posted = s.posted := by
  rfl

@[simp] theorem State.answer_posted (s : State) (p : Nat) (t : Txn) (status : Nat) :
    (State.answer s p t status).posted = s.posted := by
  rfl

@[simp] theorem State.answerHeld_posted (s : State) (v : Recv) :
    (State.answerHeld s v).posted = s.posted := by
  simp only [State.answerHeld]
  (repeat' split) <;> simp

@[simp] theorem State.markRead_posted (s : State) (r : Run) (d : Nat) (reads : List (Nat × Nat × Nat)) :
    (State.markRead s r d reads).posted = s.posted := by
  simp [State.markRead]

@[simp] theorem State.applyStage_posted (s : State) :
    (State.applyStage s).posted = s.posted := by
  simp only [State.applyStage]
  (repeat' split) <;> simp

@[simp] theorem State.extendRun_posted (s : State) (kind : Nat) (item : BitVec 384) :
    (State.extendRun s kind item).posted = s.posted := by
  rfl

@[simp] theorem State.extendBoot_posted (s : State) (kind : Nat) (item : BitVec 384) :
    (State.extendBoot s kind item).posted = s.posted := by
  rfl

@[simp] theorem State.switchBank_posted (s : State) (p job step : Nat) :
    (State.switchBank s p job step).posted = s.posted := by
  simp [State.switchBank]

@[simp] theorem State.setAsy_posted (s : State) (a : AssayState) :
    (State.setAsy s a).posted = s.posted := by
  rfl

@[simp] theorem State.skipCore_posted (s : State) (p code : Nat) :
    (State.skipCore s p code).posted = s.posted := by
  simp [State.skipCore]

@[simp] theorem State.newPass_posted (s : State) :
    (State.newPass s).posted = s.posted := by
  simp [State.newPass]

@[simp] theorem State.corrAt_posted (s : State) (n d space block symbols : Nat) :
    (State.corrAt s n d space block symbols).posted = s.posted := by
  simp only [State.corrAt]
  (repeat' split) <;> simp

@[simp] theorem State.disarm_posted (s : State) (page bit_ : Nat) :
    (State.disarm s page bit_).posted = s.posted := by
  rfl

@[simp] theorem State.recRaise_posted (s : State) (i : Iss) (d code utype punit w6 w7 detail : Nat) (recount injected : Bool) :
    (State.recRaise s i d code utype punit w6 w7 detail recount injected).posted = s.posted := by
  simp [State.recRaise]

@[simp] theorem State.spoil_posted (s : State) (n d : Nat) (corrupt : Bool) :
    (State.spoil s n d corrupt).posted = s.posted := by
  simp only [State.spoil]
  (repeat' split) <;> simp

@[simp] theorem State.recEvent_posted (s : State) (i : Iss) (d : Nat) (x : Raise) :
    (State.recEvent s i d x).posted = s.posted := by
  simp only [State.recEvent]
  (repeat' split) <;> simp

@[simp] theorem State.strikeRaise_posted (s : State) (r : Run) (d : Option Nat) (core : Nat) (w6 w7 : W64) :
    (State.strikeRaise s r d core w6 w7).posted = s.posted := by
  unfold State.strikeRaise
  dsimp only
  split
  · rw [State.raiseRun_posted]
  · rfl

@[simp] theorem State.chkReport_posted (s : State) (i : Iss) (d : Nat) (chk : Chk) :
    (State.chkReport s i d chk).posted = s.posted := by
  unfold State.chkReport
  cases chk <;> dsimp only <;> (try split) <;>
    first
      | rw [State.spoil_posted, State.recRaise_posted]
      | rw [State.lockBreakJob_posted]
      | rw [State.strikeRaise_posted]
      | rfl

@[simp] theorem State.injectParity_posted (s : State) (i : Iss) (d page utype punit point : Nat) (w : Nat × Nat) :
    (State.injectParity s i d page utype punit point w).posted = s.posted := by
  simp [State.injectParity]

@[simp] theorem State.injectResidue_posted (s : State) (i : Iss) (d page utype punit expected : Nat) :
    (State.injectResidue s i d page utype punit expected).posted = s.posted := by
  simp [State.injectResidue]

@[simp] theorem State.injectCore_posted (s : State) (i : Iss) (d : Nat) :
    (State.injectCore s i d).posted = s.posted := by
  unfold State.injectCore
  dsimp only
  (repeat' split) <;> first | rfl | rw [State.injectParity_posted] | rw [State.injectResidue_posted]

theorem State.armDies_posted (s : State) (ts : List Haul) (f : State → Nat → Nat × Nat × Nat → State)
    (hf : ∀ s p u, (f s p u).posted = s.posted) : (State.armDies s ts f).posted = s.posted := by
  unfold State.armDies
  refine foldl_posted (fun s b => ?_) _ s
  split
  · exact hf _ _ _
  · rfl

@[simp] theorem State.armReport_posted (s : State) (i : Iss) (d : Nat) :
    (State.armReport s i d).posted = s.posted := by
  unfold State.armReport
  dsimp only
  split
  · rw [State.armDies_posted _ _ _ (fun s p u => State.injectParity_posted s i d p _ _ _ _)]
    rw [foldl_posted (fun s g => State.injectParity_posted s i d _ _ _ _ _), State.injectCore_posted]
  · rw [State.injectCore_posted]

@[simp] theorem State.markCheck_posted (s : State) (i : Iss) (d : Nat) :
    (State.markCheck s i d).posted = s.posted := by
  unfold State.markCheck
  dsimp only
  (repeat' split) <;> first | rfl | rw [State.recRaise_posted] <;> rfl

@[simp] theorem State.breakRun_posted (s : State) (n : Nat) :
    (State.breakRun s n).posted = s.posted := by
  simp only [State.breakRun]
  (repeat' split) <;> simp

@[simp] theorem State.advance_posted (s : State) (j : Job) (r : Run) :
    (State.advance s j r).posted = s.posted := by
  rfl

@[simp] theorem State.landMove_posted (s : State) (d idx : Nat) (chk : Chk) :
    (State.landMove s d idx chk).posted = s.posted := by
  unfold State.landMove
  split
  · rfl
  · split
    · cases chk <;> dsimp only <;>
        first
          | rw [State.spoil_posted, State.raiseRun_posted, State.advance_posted]
          | rw [State.lockBreakJob_posted, State.advance_posted]
          | rw [State.advance_posted]
    · rfl

@[simp] theorem State.setRecv_posted (s : State) (v : Recv) :
    (State.setRecv s v).posted = s.posted := by
  rfl

@[simp] theorem State.landOwn_posted (s : State) (j : Job) (r : Run) (d : Nat) (f : Flight) :
    (State.landOwn s j r d f).posted = s.posted := by
  unfold State.landOwn
  dsimp only
  split
  · rw [State.setRecv_posted, State.setRun_posted]
  · rw [State.setRun_posted]

@[simp] theorem State.completeRecord_posted (s : State) (d idx : Nat) :
    (State.completeRecord s d idx).posted = s.posted := by
  unfold State.completeRecord
  (repeat' split) <;> simp

@[simp] theorem State.controlCheck_posted (s : State) (j : Job) (r : Run) (d : Nat) (chk : Chk) :
    (State.controlCheck s j r d chk).posted = s.posted := by
  simp [State.controlCheck]

@[simp] theorem State.beginSegment_posted (s : State) (d : Nat) (chk : Chk) :
    (State.beginSegment s d chk).posted = s.posted := by
  simp only [State.beginSegment]
  (repeat' split) <;> simp

@[simp] theorem State.endSegment_posted (s : State) (d : Nat) (chk : Chk) :
    (State.endSegment s d chk).posted = s.posted := by
  simp only [State.endSegment]
  (repeat' split) <;> simp

@[simp] theorem State.readReceived_posted (s : State) (r : Run) :
    (State.readReceived s r).posted = s.posted := by
  rfl

@[simp] theorem State.nameSwitch_posted (s : State) (hosts : List Nat) :
    (State.nameSwitch s hosts).posted = s.posted := by
  unfold State.nameSwitch
  rw [foldl_posted]
  intro s x
  dsimp only
  (repeat' split) <;> simp

@[simp] theorem State.endDelay_posted (s : State) :
    (State.endDelay s).posted = s.posted := by
  rfl

@[simp] theorem State.beginRun_posted (s : State) (r : Run) :
    (State.beginRun s r).posted = s.posted := by
  rfl

@[simp] theorem State.noteItem_posted (s : State) (user age : Nat) :
    (State.noteItem s user age).posted = s.posted := by
  unfold State.noteItem
  split <;> rfl

@[simp] theorem State.served_posted (s : State) (us user : Nat) :
    (State.served s us user).posted = s.posted := by
  simp [State.served]

@[simp] theorem State.serveArrears_posted (s : State) (us : Nat) :
    (State.serveArrears s us).posted = s.posted := by
  unfold State.serveArrears
  dsimp only
  rw [State.setAsy_posted]
  rw [foldl_posted]
  · rfl
  · intro s x
    simp

@[simp] theorem State.endHosted_posted (s : State) (hosted : List Nat) :
    (State.endHosted s hosted).posted = s.posted := by
  rfl

@[simp] theorem State.forgetSwitch_posted (s : State) (p : Nat) :
    (State.forgetSwitch s p).posted = s.posted := by
  rfl

@[simp] theorem State.loadBank_posted (s : State) (tag : W32) (n p : Nat) :
    (State.loadBank s tag n p).posted = s.posted := by
  rfl

@[simp] theorem State.nameSwitches_posted (s : State) :
    (State.nameSwitches s).posted = s.posted := by
  unfold State.nameSwitches
  rw [foldl_posted]
  intro s j
  simp

@[simp] theorem State.stageEvent_posted (s : State) (svn code : Nat) :
    (State.stageEvent s svn code).posted = s.posted := by
  simp [State.stageEvent]

@[simp] theorem State.identify_posted (s : State) :
    (State.identify s).posted = s.posted := by
  simp [State.identify]

@[simp] theorem State.bootWrites_posted (s : State) :
    (State.bootWrites s).posted = s.posted := by
  unfold State.bootWrites
  dsimp only
  (repeat' split) <;> simp

@[simp] theorem State.order2_posted (s : State) (env : StartEnv) :
    (State.order2 s env).posted = s.posted := by
  unfold State.order2
  dsimp only
  (repeat' split) <;> simp

@[simp] theorem State.startFail_posted (s : State) (order cause utype punit : Nat) :
    (State.startFail s order cause utype punit).posted = s.posted := by
  simp [State.startFail]

@[simp] theorem State.retireEarly_posted (s : State) (c cause : Nat) :
    (State.retireEarly s c cause).posted = s.posted := by
  simp [State.retireEarly]

@[simp] theorem State.setRail_posted (s : State) (r v0 vmax t0 : Nat) :
    (State.setRail s r v0 vmax t0).posted = s.posted := by
  rfl

@[simp] theorem State.setRcv_posted (s : State) (r : Recovery) :
    (State.setRcv s r).posted = s.posted := by
  rfl

@[simp] theorem State.setMod_posted (s : State) (m : Module) :
    (State.setMod s m).posted = s.posted := by
  rfl

@[simp] theorem State.heat_posted (s : State) (x0 : Nat) (x1 : List (BitVec 16)) :
    (State.heat s x0 x1).posted = s.posted := by
  induction x1 generalizing s x0 with
  | nil => rfl
  | cons t ts ih => simp [State.heat, ih]

@[simp] theorem State.senseAt_posted (s : State) (point unit : Nat) (temp : BitVec 16) :
    (State.senseAt s point unit temp).posted = s.posted := by
  simp only [State.senseAt]
  (repeat' split) <;> simp

@[simp] theorem State.setAlert_posted (s : State) (point unit : Nat) (on : Bool) :
    (State.setAlert s point unit on).posted = s.posted := by
  simp only [State.setAlert]
  (repeat' split) <;> simp

@[simp] theorem State.alertEvent_posted (s : State) (point unit : Nat) (temp : BitVec 16) :
    (State.alertEvent s point unit temp).posted = s.posted := by
  simp [State.alertEvent]

@[simp] theorem State.sagRecord_posted (s : State) (e : Sag) :
    (State.sagRecord s e).posted = s.posted := by
  unfold State.sagRecord
  (repeat' split) <;> rfl

@[simp] theorem State.sagFollow_posted (s : State) : (State.sagFollow s).posted = s.posted := by
  unfold State.sagFollow
  split
  · rw [State.sagRecord_posted]
  · rfl

@[simp] theorem State.sagAt_posted (s : State) (depth mv before : Nat) :
    (State.sagAt s depth mv before).posted = s.posted := by
  unfold State.sagAt
  split <;> simp

@[simp] theorem State.closeGate_posted (s : State) :
    (State.closeGate s).posted = s.posted := by
  rfl

@[simp] theorem State.inputIs_posted (s : State) (mv : Nat) :
    (State.inputIs s mv).posted = s.posted := by
  simp [State.inputIs]

@[simp] theorem State.sagBegin_posted (s : State) (depth mv : Nat) :
    (State.sagBegin s depth mv).posted = s.posted := by
  simp [State.sagBegin]

@[simp] theorem State.hold_posted (s : State) (mv : Nat) :
    (State.hold s mv).posted = s.posted := by
  simp [State.hold]

@[simp] theorem State.patrol_posted (s : State) (u : Nat × Nat) :
    (State.patrol s u).posted = s.posted := by
  simp [State.patrol]

@[simp] theorem State.lagged_posted (s : State) (r : Nat) (m : RegionMeas) :
    (State.lagged s r m).posted = s.posted := by
  unfold State.lagged
  rw [foldl_posted]
  intro s x
  dsimp only
  (repeat' split) <;> simp

@[simp] theorem State.replan_posted (s : State) (r : Nat) (m : RegionMeas) :
    (State.replan s r m).1.posted = s.posted := by
  unfold State.replan
  dsimp only
  split
  · rfl
  · have h : ∀ (l : List Nat) (t : State), (l.foldl (fun (s : State) (k : Nat) =>
        (ratesAt m k).foldl (fun (s : State) (f : Nat) => s.sample (0x80 + r) 3 (f : Int)) s) t).posted = t.posted :=
      foldl_posted (fun s k => foldl_posted (fun s f => State.sample_posted s _ _ _) _ s)
    (repeat' split) <;> simp [h]

@[simp] theorem State.strikeCheck_posted (s : State) (core : Nat) (chk : Chk) :
    (State.strikeCheck s core chk).posted = s.posted := by
  simp only [State.strikeCheck]
  (repeat' split) <;> simp

@[simp] theorem State.latch_posted (s : State) (side : Bool) (lo : Nat) (hi : W32) :
    (State.latch s side lo hi).posted = s.posted := by
  rfl

@[simp] theorem State.countRead_posted (s : State) (n : Nat) :
    (State.countRead s n).posted = s.posted := by
  rfl

@[simp] theorem State.monTake_posted (s : State) (n : Nat) :
    (State.monTake s n).posted = s.posted := by
  rfl

@[simp] theorem State.fwdNext_posted (s : State) :
    (State.fwdNext s).posted = s.posted := by
  rfl

@[simp] theorem State.afterRead_posted (s : State) (side : Bool) (n o : Nat) :
    (State.afterRead s side n o).posted = s.posted := by
  simp only [State.afterRead]
  (repeat' split) <;> simp

@[simp] theorem State.readReg_posted (s : State) (side : Bool) (off : W32) :
    (State.readReg s side off).2.posted = s.posted := by
  simp only [State.readReg]
  (repeat' split) <;> simp

@[simp] theorem State.hostRead_posted (s : State) (off : W32) :
    (State.hostRead s off).posted = s.posted := by
  simp [State.hostRead]

theorem State.setSu_posted (s : State) (u : StartUp) : State.posted { s with su := u } = s.posted := rfl

@[simp] theorem State.burSelect_posted (s : State) (data : W32) :
    (State.burSelect s data).posted = s.posted := State.setSu_posted _ _

@[simp] theorem State.coreSelect_posted (s : State) (p : Nat) (data : W32) :
    (State.coreSelect s p data).posted = s.posted := by
  simp only [State.coreSelect]
  (repeat' split) <;> simp

@[simp] theorem State.discardDoorbell_posted (s : State) :
    (State.discardDoorbell s).posted = s.posted := by
  simp [State.discardDoorbell]

@[simp] theorem State.errPop_posted (s : State) (v : W32) :
    (State.errPop s v).posted = s.posted := by
  simp only [State.errPop]
  (repeat' split) <;> simp

@[simp] theorem State.setErrIrq_posted (s : State) (v : W32) :
    (State.setErrIrq s v).posted = s.posted := by
  simp only [State.setErrIrq]
  (repeat' split) <;> simp

@[simp] theorem State.contribLanded_posted (s : State) (x : Send) (i : Nat) :
    (State.contribLanded s x i).posted = s.posted := by
  simp [State.contribLanded]

@[simp] theorem State.contribDone_posted (s : State) (id i status : Nat) :
    (State.contribDone s id i status).posted = s.posted := by
  simp only [State.contribDone]
  (repeat' split) <;> simp

@[simp] theorem State.restream_posted (s : State) (x : Send) :
    (State.restream s x).posted = s.posted := by
  simp [State.restream]

@[simp] theorem State.csgnDone_posted (s : State) (id status : Nat) :
    (State.csgnDone s id status).posted = s.posted := by
  simp only [State.csgnDone]
  (repeat' split) <;> simp

@[simp] theorem State.voidDone_posted (s : State) (id status : Nat) :
    (State.voidDone s id status).posted = s.posted := by
  simp only [State.voidDone]
  (repeat' split) <;> simp

@[simp] theorem State.msgDone_posted (s : State) (n : Nat) (k : W32) (status : Nat) :
    (State.msgDone s n k status).posted = s.posted := by
  simp only [State.msgDone]
  (repeat' split) <;> simp

@[simp] theorem State.relayAnswer_posted (s : State) (status : Nat) (v : W32) :
    (State.relayAnswer s status v).posted = s.posted := by
  simp [State.relayAnswer]

@[simp] theorem State.relayPump_posted (s : State) :
    (State.relayPump s).posted = s.posted := by
  unfold State.relayPump
  dsimp only
  rw [foldl_posted]
  · simp
  · intro s x
    simp

@[simp] theorem State.relayDone_posted (s : State) (id status : Nat) (data : List Byte) :
    (State.relayDone s id status data).posted = s.posted := by
  simp [State.relayDone]

@[simp] theorem State.relay_posted (s : State) (pos : Nat) (read : Bool) (off : Nat) (t : Txn) :
    (State.relay s pos read off t).posted = s.posted := by
  simp [State.relay]

@[simp] theorem State.relayExpired_posted (s : State) (id : Nat) :
    (State.relayExpired s id).posted = s.posted := by
  simp [State.relayExpired]

@[simp] theorem State.completeUse_posted (s : State) (u : TagUse) (status : Nat) (data : List Byte) :
    (State.completeUse s u status data).posted = s.posted := by
  simp only [State.completeUse]
  (repeat' split) <;> simp

@[simp] theorem State.freeTag_posted (s : State) (p g : Nat) :
    (State.freeTag s p g).posted = s.posted := by
  rfl

@[simp] theorem State.forward_posted (s : State) (inPort : Nat) (t : Txn) :
    (State.forward s inPort t).posted = s.posted := by
  simp only [State.forward]
  (repeat' split) <;> simp

@[simp] theorem State.redirect_posted (s : State) (p : Nat) (t : Txn) :
    (State.redirect s p t).posted = s.posted := by
  simp only [State.redirect]
  (repeat' split) <;> simp

@[simp] theorem State.reroutePort_posted (s : State) (p : Nat) :
    (State.reroutePort s p).posted = s.posted := by
  unfold State.reroutePort
  dsimp only
  rw [foldl_posted, foldl_posted]
  · simp
  · intro s t
    (repeat' split) <;> simp
  · intro s x
    simp

@[simp] theorem State.rerouteAll_posted (s : State) :
    (State.rerouteAll s).posted = s.posted := by
  unfold State.rerouteAll
  rw [foldl_posted]
  intro s p
  simp

@[simp] theorem State.portDown_posted (s : State) (p : Nat) :
    (State.portDown s p).posted = s.posted := by
  simp [State.portDown]

@[simp] theorem State.setEnable_posted (s : State) (p : Nat) (on : Bool) :
    (State.setEnable s p on).posted = s.posted := by
  simp [State.setEnable]

@[simp] theorem State.unfenceRegion_posted (s : State) (r : Nat) :
    (State.unfenceRegion s r).posted = s.posted := by
  simp [State.unfenceRegion]

@[simp] theorem State.stageCommit_posted (s : State) (n : Nat) :
    (State.stageCommit s n).posted = s.posted := by
  simp [State.stageCommit]

@[simp] theorem State.setForce_posted (s : State) (n : Nat) (data : W32) :
    (State.setForce s n data).posted = s.posted := by
  rfl

@[simp] theorem State.onMon_posted (s : State) (n : Nat) (f : Mon → Mon) :
    (State.onMon s n f).posted = s.posted := by
  rfl

@[simp] theorem State.monSelect_posted (s : State) (n : Nat) (data : W32) :
    (State.monSelect s n data).posted = s.posted := by
  rfl

@[simp] theorem State.stageCtl_posted (s : State) (data : W32) :
    (State.stageCtl s data).posted = s.posted := by
  rfl

@[simp] theorem State.fwdWrite_posted (s : State) (data : W32) :
    (State.fwdWrite s data).posted = s.posted := by
  simp [State.fwdWrite]

@[simp] theorem State.onRcv_posted (s : State) (f : Recovery → Recovery) :
    (State.onRcv s f).posted = s.posted := by
  simp [State.onRcv]

@[simp] theorem State.clearRepro_posted (s : State) (data : W32) :
    (State.clearRepro s data).posted = s.posted := by
  rfl

@[simp] theorem State.writeAssay_posted (s : State) (o : Nat) (data : W32) :
    (State.writeAssay s o data).posted = s.posted := by
  simp [State.writeAssay]

@[simp] theorem State.monSnap_posted (s : State) :
    (State.monSnap s).posted = s.posted := by
  simp [State.monSnap]

@[simp] theorem State.monClear_posted (s : State) :
    (State.monClear s).posted = s.posted := by
  rfl

@[simp] theorem State.writeMonitor_posted (s : State) (o : Nat) (data : W32) :
    (State.writeMonitor s o data).posted = s.posted := by
  simp [State.writeMonitor]

@[simp] theorem State.sendClaim_posted (s : State) (pos : Nat) (id : BitVec 16) :
    (State.sendClaim s pos id).posted = s.posted := by
  simp only [State.sendClaim]
  (repeat' split) <;> simp

@[simp] theorem State.folioWrite_posted (s : State) (pos : Nat) (data : W32) :
    (State.folioWrite s pos data).posted = s.posted := by
  simp [State.folioWrite]

@[simp] theorem State.holdLo_posted (s : State) (o : Nat) (data : W32) :
    (State.holdLo s o data).posted = s.posted := by
  simp [State.holdLo]

@[simp] theorem State.loadHi_posted (s : State) (o : Nat) (data : W32) :
    (State.loadHi s o data).posted = s.posted := by
  simp [State.loadHi]

@[simp] theorem State.writeTeller_posted (s : State) (o : Nat) (data : W32) :
    (State.writeTeller s o data).posted = s.posted := by
  simp only [State.writeTeller]
  (repeat' split) <;> simp

@[simp] theorem State.portRelease_posted (s : State) (p : Nat) :
    (State.portRelease s p).posted = s.posted := by
  simp [State.portRelease]

@[simp] theorem State.writePort_posted (s : State) (p o : Nat) (data : W32) :
    (State.writePort s p o data).posted = s.posted := by
  simp [State.writePort]

@[simp] theorem State.writeRegion_posted (s : State) (r o : Nat) (data : W32) :
    (State.writeRegion s r o data).posted = s.posted := by
  simp [State.writeRegion]

@[simp] theorem State.fabricEvent_posted (s : State) (code p order contrib : Nat) :
    (State.fabricEvent s code p order contrib).posted = s.posted := by
  simp [State.fabricEvent]

@[simp] theorem State.lockBreakPort_posted (s : State) (p : Nat) :
    (State.lockBreakPort s p).posted = s.posted := by
  simp [State.lockBreakPort]

@[simp] theorem State.abortAll_posted (s : State) (p : Nat) :
    (State.abortAll s p).posted = s.posted := by
  unfold State.abortAll
  dsimp only
  rw [foldl_posted]
  · simp
  · intro s x
    simp

@[simp] theorem State.quarantine_posted (s : State) (p k : Nat) :
    (State.quarantine s p k).posted = s.posted := by
  simp [State.quarantine]

@[simp] theorem State.countQ_posted (s : State) (p k : Nat) :
    (State.countQ s p k).posted = s.posted := by
  simp only [State.countQ]
  (repeat' split) <;> simp

@[simp] theorem State.denied_posted (s : State) (p : Nat) (t : Txn) :
    (State.denied s p t).posted = s.posted := by
  simp [State.denied]

@[simp] theorem State.recvCpl_posted (s : State) (p : Nat) (t : Txn) :
    (State.recvCpl s p t).posted = s.posted := by
  simp only [State.recvCpl]
  (repeat' split) <;> simp

@[simp] theorem State.countRelay_posted (s : State) (p : Nat) :
    (State.countRelay s p).posted = s.posted := by
  simp [State.countRelay]

@[simp] theorem State.deliver_posted (s : State) (p : Nat) (t : Txn) :
    (State.deliver s p t).posted = s.posted := by
  simp [State.deliver]

@[simp] theorem State.takePayload_posted (s : State) (p : Nat) (h : LinkHead) (pl : List Byte) :
    (State.takePayload s p h pl).posted = s.posted := by
  unfold State.takePayload
  dsimp only
  split
  · simp
  · split
    · simp
      rw [foldl_posted]
      · simp
      · intro s t
        simp
    · rw [foldl_posted]
      · simp
      · intro s t
        simp

@[simp] theorem State.takeData_posted (s : State) (p : Nat) (h : LinkHead) (pl : List Byte) :
    (State.takeData s p h pl).posted = s.posted := by
  simp [State.takeData]

@[simp] theorem State.askReplay_posted (s : State) (p : Nat) :
    (State.askReplay s p).posted = s.posted := by
  simp [State.askReplay]

@[simp] theorem State.inOrder_posted (s : State) (p : Nat) (h : LinkHead) (pl : List Byte) :
    (State.inOrder s p h pl).posted = s.posted := by
  simp [State.inOrder]

@[simp] theorem State.dueFlit_posted (s : State) (p : Nat) (h : LinkHead) (flit : List Byte) :
    (State.dueFlit s p h flit).posted = s.posted := by
  simp only [State.dueFlit]
  (repeat' split) <;> simp

@[simp] theorem State.goodFlit_posted (s : State) (p : Nat) (h : LinkHead) (flit : List Byte) :
    (State.goodFlit s p h flit).posted = s.posted := by
  simp [State.goodFlit]

@[simp] theorem State.idle_posted (s : State) (p : Nat) :
    (State.idle s p).posted = s.posted := by
  rfl

@[simp] theorem State.enterAuth_posted (s : State) (p : Nat) (lanes : Byte) :
    (State.enterAuth s p lanes).posted = s.posted := by
  rfl

@[simp] theorem State.failAuth_posted (s : State) (p code order id : Nat) :
    (State.failAuth s p code order id).posted = s.posted := by
  simp [State.failAuth]

@[simp] theorem State.tellOthers_posted (s : State) (p : Nat) (m : Mgmt) :
    (State.tellOthers s p m).posted = s.posted := by
  unfold State.tellOthers
  rw [foldl_posted]
  intro s x
  simp

@[simp] theorem State.bind_posted (s : State) (p id : Nat) (digest : W64) :
    (State.bind s p id digest).posted = s.posted := by
  simp [State.bind]

@[simp] theorem State.claimAll_posted (s : State) (id : BitVec 16) :
    (State.claimAll s id).posted = s.posted := by
  unfold State.claimAll
  rw [foldl_posted]
  intro s x
  simp

@[simp] theorem State.endClaim_posted (s : State) :
    (State.endClaim s).posted = s.posted := by
  rfl

@[simp] theorem State.replyClaim_posted (s : State) (p : Nat) (ok : Bool) :
    (State.replyClaim s p ok).posted = s.posted := by
  rfl

@[simp] theorem State.claimAnswer_posted (s : State) (pos : Nat) (holder : BitVec 16) :
    (State.claimAnswer s pos holder).posted = s.posted := by
  simp [State.claimAnswer]

@[simp] theorem State.awaitRun_posted (s : State) (r : Run) (counted : Nat) :
    (State.awaitRun s r counted).posted = s.posted := by
  simp [State.awaitRun]

@[simp] theorem State.readyAll_posted (s : State) (m moved : List Nat) :
    (State.readyAll s m moved).posted = s.posted := by
  exact foldl_posted (fun _ _ => State.readyBanks_posted _ _) _ _

@[simp] theorem State.nextRun_posted (s : State) (r : Run) :
    (State.nextRun s r).posted = s.posted := by
  rfl

@[simp] theorem State.regenEvent_posted (s : State) (j : Job) (r : Option Run) (space addr desc : Nat) :
    (State.regenEvent s j r space addr desc).posted = s.posted := by
  simp [State.regenEvent]

@[simp] theorem State.readBack_posted (s : State) (j : Job) (desc : Nat) :
    (State.readBack s j desc).posted = s.posted := by
  unfold State.readBack
  dsimp only
  split
  · rw [foldl_posted]
    intro s x
    simp
  · rfl

@[simp] theorem State.wakeMill_posted (s t : State) (d : Nat) :
    (State.wakeMill s t d).posted = t.posted := by
  unfold State.wakeMill
  (repeat' split) <;> simp

@[simp] theorem State.setEvent_posted (s : State) (id ver act code : Nat) :
    (State.setEvent s id ver act code).posted = s.posted := by
  simp [State.setEvent]

@[simp] theorem State.storeSet_posted (s : State) (x : AssaySet) (k : Nat) :
    (State.storeSet s x k).posted = s.posted := by
  rfl

@[simp] theorem State.eraseSet_posted (s : State) (k : Nat) :
    (State.eraseSet s k).posted = s.posted := by
  rfl

@[simp] theorem State.beatAll_posted (s : State) :
    (State.beatAll s).posted = s.posted := by
  simp [State.beatAll]

@[simp] theorem State.setMsix_posted (s : State) (vector : Nat) (e : MsixEnt) :
    (State.setMsix s vector e).posted = s.posted := by
  rfl

@[simp] theorem State.sendPending_posted (s : State) (vector : Nat) :
    (State.sendPending s vector).posted = s.posted := by
  simp [State.sendPending]

@[simp] theorem State.stepEvent_posted (s : State) (job : Nat) (e : Evt) :
    (State.stepEvent s job e).posted = s.posted := by
  simp only [State.stepEvent]
  (repeat' split) <;> simp

@[simp] theorem State.collEvent_posted (s : State) (code p : Nat) (j : Job) (x : Incoming) (v : Recv) (w7 : Nat) :
    (State.collEvent s code p j x v w7).posted = s.posted := by
  simp [State.collEvent]

@[simp] theorem State.discard_posted (s : State) (v : Recv) (token attempt : Nat) :
    (State.discard s v token attempt).posted = s.posted := by
  simp only [State.discard]
  (repeat' split) <;> simp

@[simp] theorem State.compare_posted (s : State) (j : Job) (x : Incoming) (v : Recv) (h : HeldCsgn) :
    (State.compare s j x v h).posted = s.posted := by
  simp [State.compare]

@[simp] theorem State.landIn_posted (s : State) (p : Nat) (j : Job) (x : Incoming) (v : Recv) (t : Txn) :
    (State.landIn s p j x v t).posted = s.posted := by
  simp only [State.landIn]
  (repeat' split) <;> simp

@[simp] theorem State.ingressEvent_posted (s : State) (d : Nat) (j : Job) (r : Run) (ut pu w6 w7 : Nat) (injected : Bool) :
    (State.ingressEvent s d j r ut pu w6 w7 injected).posted = s.posted := by
  simp [State.ingressEvent]

@[simp] theorem State.ingress_posted (s : State) (p d : Nat) (j : Job) (r : Run) (t : Txn) (chk : Chk) :
    (State.ingress s p d j r t chk).1.posted = s.posted := by
  simp only [State.ingress]
  (repeat' split) <;> simp

@[simp] theorem State.compareHeld_posted (s : State) (j : Job) (x : Incoming) (t : Txn) :
    (State.compareHeld s j x t).posted = s.posted := by
  simp only [State.compareHeld]
  (repeat' split) <;> simp

@[simp] theorem State.recvData_posted (s : State) (p : Nat) (j : Job) (r : Run) (x : Incoming) (t : Txn) (chk : Chk) :
    (State.recvData s p j r x t chk).posted = s.posted := by
  simp only [State.recvData]
  (repeat' split) <;> simp

@[simp] theorem State.contribution_posted (s : State) (p : Nat) (t : Txn) (mode : Nat) (chk : Chk) :
    (State.contribution s p t mode chk).posted = s.posted := by
  simp only [State.contribution]
  (repeat' split) <;> simp

@[simp] theorem State.readRegs_posted (s : State) (addr : Nat) (named : Nat → Bool) (x0 : Nat) :
    (State.readRegs s addr named x0).2.posted = s.posted := by
  induction x0 generalizing s addr with
  | zero => rfl
  | succ n ih =>
    rw [State.readRegs]
    dsimp only
    rw [ih]
    split <;> simp

@[simp] theorem State.readWindow_posted (s : State) (p : Nat) (t : Txn) :
    (State.readWindow s p t).posted = s.posted := by
  simp only [State.readWindow]
  (repeat' split) <;> simp

@[simp] theorem State.recvRd_posted (s : State) (p : Nat) (t : Txn) :
    (State.recvRd s p t).posted = s.posted := by
  simp only [State.recvRd]
  (repeat' split) <;> simp

@[simp] theorem State.recvCsgn_posted (s : State) (p : Nat) (j : Job) (x : Incoming) (t : Txn) :
    (State.recvCsgn s p j x t).posted = s.posted := by
  simp only [State.recvCsgn]
  (repeat' split) <;> simp

@[simp] theorem State.recvVoid_posted (s : State) (p : Nat) (j : Job) (x : Incoming) (t : Txn) :
    (State.recvVoid s p j x t).posted = s.posted := by
  simp [State.recvVoid]

@[simp] theorem State.recvDb_posted (s : State) (p : Nat) (t : Txn) :
    (State.recvDb s p t).posted = s.posted := by
  simp only [State.recvDb]
  (repeat' split) <;> simp

@[simp] theorem State.reroute_posted (s : State) (j : Job) :
    (State.reroute s j).posted = s.posted := by
  simp [State.reroute]

@[simp] theorem State.waitTimeout_posted (s : State) (j : Job) (r : Run) (x : Incoming) :
    (State.waitTimeout s j r x).posted = s.posted := by
  simp [State.waitTimeout]

@[simp] theorem State.sbAnswer_posted (s : State) (status : Byte) (data : W32) :
    (State.sbAnswer s status data).posted = s.posted := by
  rfl

@[simp] theorem State.onI3c_posted (s : State) (k : I3c → I3c) :
    (State.onI3c s k).posted = s.posted := by
  simp [State.onI3c]

@[simp] theorem State.cccAnswer_posted (s : State) (bs : List Byte) :
    (State.cccAnswer s bs).posted = s.posted := by
  simp [State.cccAnswer]

@[simp] theorem State.watchdogEvents_posted (s : State) (j : Job) (r : Run) (limit elapsed die : Nat) :
    (State.watchdogEvents s j r limit elapsed die).posted = s.posted := by
  unfold State.watchdogEvents
  dsimp only
  split
  · simp
  · rw [foldl_posted]
    intro s h
    simp

end Sys2Proof.Machine
end

