-- ==== Sys2Proof/Laws/Rest.lean ====
section
/-! SUPPORT. The functions that leave alone all that reports do not touch: one lemma for each. -/

namespace Sys2Proof.Machine

@[simp] theorem State.rest_mk (a1 a2 a3 a4 a5 a6 a7 a8 a9 a10 a11 a12 a13 a14 a15 a16 a17 a18 a19 a20 a21 a22 a23 a24 a25 a26 a27 a28 a29 a30 a31 a32 a33 a34 a35 a36 a37) :
    State.rest ⟨a1, a2, a3, a4, a5, a6, a7, a8, a9, a10, a11, a12, a13, a14, a15, a16, a17, a18, a19, a20, a21, a22, a23, a24, a25, a26, a27, a28, a29, a30, a31, a32, a33, a34, a35, a36, a37⟩ = (a1, a3, a5, a6, a7, a8, a13, a15, a16, a17, a18, a19, a20, a21, a22, a23, a24, a28, a29, a30, a31, a32, a33, a34, a36) := rfl

@[simp] theorem State.rest_fold (s : State) :
    (s.pending, s.time, s.mod, s.i3c, s.regions, s.fabrics, s.flash, s.cores, s.chans, s.dies, s.dieRecs, s.lmap, s.hbmMap, s.spared, s.hbmBytes, s.spareGb, s.pageMap, s.seqTab, s.batches, s.stamp, s.wback, s.runs, s.lastSlots, s.asy, s.fab) = s.rest := rfl

@[simp] theorem rest_ite (c : Prop) [Decidable c] (s t : State) : (if c then s else t).rest = if c then s.rest else t.rest := by
  split <;> rfl

theorem foldl_rest {τ : Type} {f : State → τ → State} (h : ∀ s x, (f s x).rest = s.rest) :
    ∀ (l : List τ) (s : State), (l.foldl f s).rest = s.rest
  | [], _ => rfl
  | x :: t, s => (foldl_rest h t (f s x)).trans (h s x)

@[simp] theorem State.setPort_rest (s : State) (p : Nat) (q : Port) :
    (State.setPort s p q).rest = s.rest := by
  rfl

@[simp] theorem State.trySend_rest (s : State) (t : Txn) (u : TagUse) :
    (State.trySend s t u).1.rest = s.rest := by
  simp only [State.trySend]
  (repeat' split) <;> simp

@[simp] theorem State.sendReq_rest (s : State) (t : Txn) (u : TagUse) :
    (State.sendReq s t u).rest = s.rest := by
  simp [State.sendReq]

@[simp] theorem State.complete_rest (s : State) (inPort : Nat) (req : Txn) (status : Nat) (poison : Nat) (data : List Byte) :
    (State.complete s inPort req status poison data).rest = s.rest := by
  rfl

@[simp] theorem State.setPage_rest (s : State) (n : Nat) (p : Page) :
    (State.setPage s n p).rest = s.rest := by
  rfl

@[simp] theorem State.setRing_rest (s : State) (n : Nat) (r : Ring) :
    (State.setRing s n r).rest = s.rest := by
  rfl

@[simp] theorem State.interrupt_rest (s : State) (v : BitVec 11) :
    (State.interrupt s v).rest = s.rest := by
  simp only [State.interrupt]
  (repeat' split) <;> simp

@[simp] theorem State.evtEdge_rest (s : State) :
    (State.evtEdge s).rest = s.rest := by
  simp [State.evtEdge]

@[simp] theorem State.markPage_rest (s : State) (n cls count : Nat) :
    (State.markPage s n cls count).rest = s.rest := by
  simp [State.markPage]

@[simp] theorem State.ledger_rest (s : State) (ws : List W64) :
    (State.ledger s ws).rest = s.rest := by
  simp only [State.ledger]
  (repeat' split) <;> simp

@[simp] theorem State.setSummary_rest (s : State) (k : Nat) (e : Summary) :
    (State.setSummary s k e).rest = s.rest := by
  rfl

@[simp] theorem State.noteUnit_rest (s : State) (e : Evt) :
    (State.noteUnit s e).rest = s.rest := by
  simp [State.noteUnit]

@[simp] theorem State.raise_rest (s : State) (e : Evt) :
    (State.raise s e).rest = s.rest := by
  simp [State.raise]

@[simp] theorem State.raiseQuiet_rest (s : State) (e : Evt) :
    (State.raiseQuiet s e).rest = s.rest := by
  simp [State.raiseQuiet]

@[simp] theorem State.errInterrupt_rest (s : State) :
    (State.errInterrupt s).rest = s.rest := by
  simp [State.errInterrupt]

@[simp] theorem State.countPage_rest (s : State) (n count : Nat) :
    (State.countPage s n count).rest = s.rest := by
  rfl

@[simp] theorem State.infoEvent_rest (s : State) (job step : Nat) (cls : Option Nat) :
    (State.infoEvent s job step cls).rest = s.rest := by
  unfold State.infoEvent
  dsimp only
  (repeat' split) <;> simp

@[simp] theorem State.sample_rest (s : State) (page quantity : Nat) (v : Int) :
    (State.sample s page quantity v).rest = s.rest := by
  rfl

@[simp] theorem State.classEdge_rest (s : State) :
    (State.classEdge s).rest = s.rest := by
  simp [State.classEdge]

@[simp] theorem State.pageReset_rest (s : State) (n : Nat) :
    (State.pageReset s n).rest = s.rest := by
  rfl

@[simp] theorem State.markDegraded_rest (s : State) (utype punit : Nat) :
    (State.markDegraded s utype punit).rest = s.rest := by
  rfl

@[simp] theorem State.countTransient_rest (s : State) (utype punit cause : Nat) :
    (State.countTransient s utype punit cause).rest = s.rest := by
  simp [State.countTransient]

@[simp] theorem State.setJob_rest (s : State) (j : Job) :
    (State.setJob s j).rest = s.rest := by
  rfl

@[simp] theorem State.hostWrite_rest (s : State) (addr : Nat) (bs : List Byte) :
    (State.hostWrite s addr bs).rest = s.rest := by
  unfold State.hostWrite
  split
  · rfl
  · split
    · rfl
    · rw [foldl_rest]
      · rfl
      · intro s x
        simp

@[simp] theorem State.sendEntryWr_rest (s : State) (n : Nat) (k : W32) (t : Txn) :
    (State.sendEntryWr s n k t).rest = s.rest := by
  simp [State.sendEntryWr]

@[simp] theorem State.produceFar_rest (s : State) (n : Nat) (r : Ring) (ws : List W64) :
    (State.produceFar s n r ws).rest = s.rest := by
  unfold State.produceFar
  dsimp only
  split
  · rfl
  · rw [foldl_rest]
    · simp
    · intro s x
      simp

@[simp] theorem State.produce_rest (s : State) (n : Nat) (r : Ring) (ws : List W64) :
    (State.produce s n r ws).rest = s.rest := by
  unfold State.produce
  dsimp only
  (repeat' split) <;> first | (simp; done) | (rw [foldl_rest]; · simp; · intro s x; dsimp only; (repeat' split) <;> simp)

@[simp] theorem State.ringIrq_rest (s : State) (n : Nat) (r : Ring) :
    (State.ringIrq s n r).rest = s.rest := by
  simp [State.ringIrq]

@[simp] theorem State.produceIrq_rest (s : State) (n : Nat) (r : Ring) (ws : List W64) :
    (State.produceIrq s n r ws).rest = s.rest := by
  simp [State.produceIrq]

@[simp] theorem State.putCpl_rest (s : State) (n : Nat) (r : Ring) (c : Completion) :
    (State.putCpl s n r c).rest = s.rest := by
  simp [State.putCpl]

@[simp] theorem State.passTail_rest (s : State) (n : Nat) (r : Ring) :
    (State.passTail s n r).rest = s.rest := by
  unfold State.passTail
  dsimp only
  rw [foldl_rest]
  · simp
  · intro s x
    simp

@[simp] theorem State.entryDone_rest (s : State) (n : Nat) (k : W32) (t : Txn) (status : Nat) :
    (State.entryDone s n k t status).rest = s.rest := by
  simp only [State.entryDone]
  (repeat' split) <;> simp

@[simp] theorem State.hostResend_rest (s : State) :
    (State.hostResend s).rest = s.rest := by
  unfold State.hostResend
  dsimp only
  rw [foldl_rest]
  · simp
  · intro s x
    simp

@[simp] theorem State.hostFetch_rest (s : State) (addr n : Nat) :
    (State.hostFetch s addr n).rest = s.rest := by
  unfold State.hostFetch
  split
  · rfl
  · split
    · rfl
    · rw [foldl_rest]
      intro s x
      simp

@[simp] theorem State.pushCpl_rest (s : State) (c : Completion) :
    (State.pushCpl s c).rest = s.rest := by
  simp only [State.pushCpl]
  (repeat' split) <;> simp

@[simp] theorem State.drainList_rest (s : State) (x0 : List Completion) :
    (State.drainList s x0).1.rest = s.rest := by
  induction x0 generalizing s with
  | nil => rfl
  | cons c t ih =>
    unfold State.drainList
    split
    · exact ih s
    · split
      · rw [ih]; simp
      · rfl

@[simp] theorem State.drainCpl_rest (s : State) :
    (State.drainCpl s).rest = s.rest := by
  have hj (s : State) (j : Job) : (match s.job j.num with
      | some j =>
        let r := s.drainList j.queued
        (match r.1.job j.num with
         | some k => r.1.setJob { k with queued := r.2 }
         | none => r.1)
      | none => s).rest = s.rest := by
    split
    · dsimp only
      split <;> simp
    · rfl
  unfold State.drainCpl
  exact (foldl_rest (fun s j => hj s j) _ _).trans (State.drainList_rest s s.queued0)

@[simp] theorem State.finish_rest (s : State) (c : Cmd) (status : Nat) :
    (State.finish s c status).rest = s.rest := by
  simp [State.finish]

@[simp] theorem State.finishWith_rest (s : State) (c : Cmd) (r0 r1 : Nat) :
    (State.finishWith s c r0 r1).rest = s.rest := by
  simp [State.finishWith]

@[simp] theorem State.finishLate_rest (s : State) (w : Waiting) (opcode job status flags r0 r1 : Nat) :
    (State.finishLate s w opcode job status flags r0 r1).rest = s.rest := by
  simp [State.finishLate]

@[simp] theorem State.stale_rest (s : State) (n : Nat) (r : Ring) :
    (State.stale s n r).rest = s.rest := by
  simp [State.stale]

@[simp] theorem State.fetched_rest (s : State) (f : Fetch) (r : Ring) :
    (State.fetched s f r).rest = s.rest := by
  simp [State.fetched]

@[simp] theorem State.answer_rest (s : State) (p : Nat) (t : Txn) (status : Nat) :
    (State.answer s p t status).rest = s.rest := by
  rfl

@[simp] theorem State.answerHeld_rest (s : State) (v : Recv) :
    (State.answerHeld s v).rest = s.rest := by
  simp only [State.answerHeld]
  (repeat' split) <;> simp

@[simp] theorem State.extendRun_rest (s : State) (kind : Nat) (item : BitVec 384) :
    (State.extendRun s kind item).rest = s.rest := by
  rfl

@[simp] theorem State.extendBoot_rest (s : State) (kind : Nat) (item : BitVec 384) :
    (State.extendBoot s kind item).rest = s.rest := by
  rfl

@[simp] theorem State.disarm_rest (s : State) (page bit_ : Nat) :
    (State.disarm s page bit_).rest = s.rest := by
  rfl

@[simp] theorem State.writeDesc_rest (s : State) (c : Cmd) (w3 n : Nat) :
    (State.writeDesc s c w3 n).rest = s.rest := by
  unfold State.writeDesc
  dsimp only
  (repeat' split) <;> first | (simp; done) | (rw [foldl_rest]; · simp; · intro s x; dsimp only; (repeat' split) <;> simp)

@[simp] theorem State.stageEvent_rest (s : State) (svn code : Nat) :
    (State.stageEvent s svn code).rest = s.rest := by
  simp [State.stageEvent]

@[simp] theorem State.identify_rest (s : State) :
    (State.identify s).rest = s.rest := by
  simp [State.identify]

@[simp] theorem State.startFail_rest (s : State) (order cause utype punit : Nat) :
    (State.startFail s order cause utype punit).rest = s.rest := by
  simp [State.startFail]

@[simp] theorem State.setRcv_rest (s : State) (r : Recovery) :
    (State.setRcv s r).rest = s.rest := by
  rfl

@[simp] theorem State.alertEvent_rest (s : State) (point unit : Nat) (temp : BitVec 16) :
    (State.alertEvent s point unit temp).rest = s.rest := by
  simp [State.alertEvent]

@[simp] theorem State.dueRegen_rest (s : State) (n space addr : Nat) :
    (State.dueRegen s n space addr).rest = s.rest := by
  simp only [State.dueRegen]
  (repeat' split) <;> simp

@[simp] theorem State.latch_rest (s : State) (side : Bool) (lo : Nat) (hi : W32) :
    (State.latch s side lo hi).rest = s.rest := by
  rfl

@[simp] theorem State.countRead_rest (s : State) (n : Nat) :
    (State.countRead s n).rest = s.rest := by
  rfl

@[simp] theorem State.monTake_rest (s : State) (n : Nat) :
    (State.monTake s n).rest = s.rest := by
  rfl

@[simp] theorem State.fwdNext_rest (s : State) :
    (State.fwdNext s).rest = s.rest := by
  rfl

theorem State.setSu_rest (s : State) (u : StartUp) : State.rest { s with su := u } = s.rest := rfl

@[simp] theorem State.burSelect_rest (s : State) (data : W32) :
    (State.burSelect s data).rest = s.rest := State.setSu_rest _ _

@[simp] theorem State.errPop_rest (s : State) (v : W32) :
    (State.errPop s v).rest = s.rest := by
  simp only [State.errPop]
  (repeat' split) <;> simp

@[simp] theorem State.cplPop_rest (s : State) (v : W32) :
    (State.cplPop s v).rest = s.rest := by
  simp only [State.cplPop]
  (repeat' split) <;> simp

@[simp] theorem State.setErrIrq_rest (s : State) (v : W32) :
    (State.setErrIrq s v).rest = s.rest := by
  simp only [State.setErrIrq]
  (repeat' split) <;> simp

@[simp] theorem State.msgDone_rest (s : State) (n : Nat) (k : W32) (status : Nat) :
    (State.msgDone s n k status).rest = s.rest := by
  simp only [State.msgDone]
  (repeat' split) <;> simp

@[simp] theorem State.relayAnswer_rest (s : State) (status : Nat) (v : W32) :
    (State.relayAnswer s status v).rest = s.rest := by
  simp [State.relayAnswer]

@[simp] theorem State.relayPump_rest (s : State) :
    (State.relayPump s).rest = s.rest := by
  unfold State.relayPump
  dsimp only
  rw [foldl_rest]
  · simp
  · intro s x
    simp

@[simp] theorem State.relayDone_rest (s : State) (id status : Nat) (data : List Byte) :
    (State.relayDone s id status data).rest = s.rest := by
  simp [State.relayDone]

@[simp] theorem State.relay_rest (s : State) (pos : Nat) (read : Bool) (off : Nat) (t : Txn) :
    (State.relay s pos read off t).rest = s.rest := by
  simp [State.relay]

@[simp] theorem State.relayExpired_rest (s : State) (id : Nat) :
    (State.relayExpired s id).rest = s.rest := by
  simp [State.relayExpired]

@[simp] theorem State.freeTag_rest (s : State) (p g : Nat) :
    (State.freeTag s p g).rest = s.rest := by
  rfl

@[simp] theorem State.setForce_rest (s : State) (n : Nat) (data : W32) :
    (State.setForce s n data).rest = s.rest := by
  rfl

@[simp] theorem State.onMon_rest (s : State) (n : Nat) (f : Mon → Mon) :
    (State.onMon s n f).rest = s.rest := by
  rfl

@[simp] theorem State.monSelect_rest (s : State) (n : Nat) (data : W32) :
    (State.monSelect s n data).rest = s.rest := by
  rfl

@[simp] theorem State.stageCtl_rest (s : State) (data : W32) :
    (State.stageCtl s data).rest = s.rest := by
  rfl

@[simp] theorem State.onRcv_rest (s : State) (f : Recovery → Recovery) :
    (State.onRcv s f).rest = s.rest := by
  simp [State.onRcv]

@[simp] theorem State.clearRepro_rest (s : State) (data : W32) :
    (State.clearRepro s data).rest = s.rest := by
  rfl

@[simp] theorem State.monClear_rest (s : State) :
    (State.monClear s).rest = s.rest := by
  rfl

@[simp] theorem State.sendClaim_rest (s : State) (pos : Nat) (id : BitVec 16) :
    (State.sendClaim s pos id).rest = s.rest := by
  simp only [State.sendClaim]
  (repeat' split) <;> simp

@[simp] theorem State.folioWrite_rest (s : State) (pos : Nat) (data : W32) :
    (State.folioWrite s pos data).rest = s.rest := by
  simp [State.folioWrite]

@[simp] theorem State.holdLo_rest (s : State) (o : Nat) (data : W32) :
    (State.holdLo s o data).rest = s.rest := by
  simp [State.holdLo]

@[simp] theorem State.loadHi_rest (s : State) (o : Nat) (data : W32) :
    (State.loadHi s o data).rest = s.rest := by
  simp [State.loadHi]

@[simp] theorem State.writeTeller_rest (s : State) (o : Nat) (data : W32) :
    (State.writeTeller s o data).rest = s.rest := by
  simp only [State.writeTeller]
  (repeat' split) <;> simp

@[simp] theorem State.portRelease_rest (s : State) (p : Nat) :
    (State.portRelease s p).rest = s.rest := by
  simp [State.portRelease]

@[simp] theorem State.writePort_rest (s : State) (p o : Nat) (data : W32) :
    (State.writePort s p o data).rest = s.rest := by
  simp [State.writePort]

@[simp] theorem State.fabricEvent_rest (s : State) (code p order contrib : Nat) :
    (State.fabricEvent s code p order contrib).rest = s.rest := by
  simp [State.fabricEvent]

@[simp] theorem State.countRelay_rest (s : State) (p : Nat) :
    (State.countRelay s p).rest = s.rest := by
  simp [State.countRelay]

@[simp] theorem State.idle_rest (s : State) (p : Nat) :
    (State.idle s p).rest = s.rest := by
  rfl

@[simp] theorem State.enterAuth_rest (s : State) (p : Nat) (lanes : Byte) :
    (State.enterAuth s p lanes).rest = s.rest := by
  rfl

@[simp] theorem State.failAuth_rest (s : State) (p code order id : Nat) :
    (State.failAuth s p code order id).rest = s.rest := by
  simp [State.failAuth]

@[simp] theorem State.tellOthers_rest (s : State) (p : Nat) (m : Mgmt) :
    (State.tellOthers s p m).rest = s.rest := by
  unfold State.tellOthers
  rw [foldl_rest]
  intro s x
  simp

@[simp] theorem State.claimAll_rest (s : State) (id : BitVec 16) :
    (State.claimAll s id).rest = s.rest := by
  unfold State.claimAll
  rw [foldl_rest]
  intro s x
  simp

@[simp] theorem State.hostAgain_rest (s : State) :
    (State.hostAgain s).rest = s.rest := by
  simp [State.hostAgain]

@[simp] theorem State.replyClaim_rest (s : State) (p : Nat) (ok : Bool) :
    (State.replyClaim s p ok).rest = s.rest := by
  rfl

@[simp] theorem State.claimAnswer_rest (s : State) (pos : Nat) (holder : BitVec 16) :
    (State.claimAnswer s pos holder).rest = s.rest := by
  simp [State.claimAnswer]

@[simp] theorem State.regenEvent_rest (s : State) (j : Job) (r : Option Run) (space addr desc : Nat) :
    (State.regenEvent s j r space addr desc).rest = s.rest := by
  simp [State.regenEvent]

@[simp] theorem State.finishLoad_rest (s : State) (c : Cmd) (r : Reject) :
    (State.finishLoad s c r).rest = s.rest := by
  simp [State.finishLoad]

@[simp] theorem State.setEvent_rest (s : State) (id ver act code : Nat) :
    (State.setEvent s id ver act code).rest = s.rest := by
  simp [State.setEvent]

@[simp] theorem State.setMsix_rest (s : State) (vector : Nat) (e : MsixEnt) :
    (State.setMsix s vector e).rest = s.rest := by
  rfl

@[simp] theorem State.sendPending_rest (s : State) (vector : Nat) :
    (State.sendPending s vector).rest = s.rest := by
  simp [State.sendPending]

@[simp] theorem State.poisonEntry_rest (s : State) (r : Ring) (t : Txn) :
    (State.poisonEntry s r t).rest = s.rest := by
  simp only [State.poisonEntry]
  (repeat' split) <;> simp

@[simp] theorem State.sbAnswer_rest (s : State) (status : Byte) (data : W32) :
    (State.sbAnswer s status data).rest = s.rest := by
  rfl

@[simp] theorem State.cccAnswer_rest (s : State) (bs : List Byte) :
    (State.cccAnswer s bs).rest = s.rest := by
  simp [State.cccAnswer]

end Sys2Proof.Machine
end

