-- ==== Sys2Proof/Laws/Nums.lean ====
section
/-! SUPPORT. Which jobs are resident after completions are written, and after a job has ended. -/

namespace Sys2Proof.Machine

/-- A job that is found has the number it is looked up by. -/
theorem State.job_num {s : State} {n : Nat} {j : Job} (h : s.job n = some j) : j.num = n := by
  have := List.find?_some h
  simpa using this

/-- Numbers of the resident jobs. -/
def State.nums (s : State) : List Nat := s.jobs.map (fun j => j.num)

theorem State.nums_of_posted {s t : State} (h : t.posted = s.posted) : t.nums = s.nums :=
  congrArg (List.map (fun j : Job => j.num)) (congrArg Prod.fst h)

@[simp] theorem State.setJob_nums (s : State) (j : Job) : (s.setJob j).nums = s.nums := by
  simp only [State.nums, State.setJob, List.map_map]
  refine List.map_congr_left (fun k _ => ?_)
  simp only [Function.comp]
  split
  · next h => exact (beq_iff_eq.mp h).symm
  · rfl

@[simp] theorem State.hostWrite_nums (s : State) (addr : Nat) (bs : List Byte) : (s.hostWrite addr bs).nums = s.nums :=
  State.nums_of_posted (State.hostWrite_posted _ _ _)

@[simp] theorem State.setRing_nums (s : State) (n : Nat) (r : Ring) : (s.setRing n r).nums = s.nums := rfl

@[simp] theorem State.ringIrq_nums (s : State) (n : Nat) (r : Ring) : (s.ringIrq n r).nums = s.nums :=
  State.nums_of_posted (State.ringIrq_posted _ _ _)

@[simp] theorem State.produceFar_nums (s : State) (n : Nat) (r : Ring) (ws : List W64) :
    (s.produceFar n r ws).nums = s.nums :=
  State.nums_of_posted (State.produceFar_posted _ _ _ _)

@[simp] theorem State.produce_nums (s : State) (n : Nat) (r : Ring) (ws : List W64) : (s.produce n r ws).nums = s.nums := by
  unfold State.produce
  dsimp only
  (repeat' split) <;> simp

@[simp] theorem State.produceIrq_nums (s : State) (n : Nat) (r : Ring) (ws : List W64) :
    (s.produceIrq n r ws).nums = s.nums := by
  unfold State.produceIrq
  split <;> simp

@[simp] theorem State.putCpl_nums (s : State) (n : Nat) (r : Ring) (c : Completion) : (s.putCpl n r c).nums = s.nums := by
  simp [State.putCpl]

@[simp] theorem State.pushCpl_nums (s : State) (c : Completion) : (s.pushCpl c).nums = s.nums := by
  unfold State.pushCpl
  (repeat' split) <;> first | rfl | simp

@[simp] theorem State.finish_nums (s : State) (c : Cmd) (n : Nat) : (s.finish c n).nums = s.nums := by simp [State.finish]

@[simp] theorem State.drainList_nums (s : State) (l : List Completion) : (s.drainList l).1.nums = s.nums := by
  induction l generalizing s with
  | nil => rfl
  | cons c t ih =>
    unfold State.drainList
    split
    · exact ih s
    · split
      · rw [ih]; simp
      · rfl

theorem foldl_nums {τ : Type} {f : State → τ → State} (h : ∀ s x, (f s x).nums = s.nums) :
    ∀ (l : List τ) (s : State), (l.foldl f s).nums = s.nums
  | [], _ => rfl
  | x :: t, s => (foldl_nums h t (f s x)).trans (h s x)

@[simp] theorem State.drainCpl_nums (s : State) : s.drainCpl.nums = s.nums := by
  have hj (s : State) (j : Job) : (match s.job j.num with
      | some j =>
        let r := s.drainList j.queued
        (match r.1.job j.num with
         | some k => r.1.setJob { k with queued := r.2 }
         | none => r.1)
      | none => s).nums = s.nums := by
    split
    · dsimp only
      split <;> simp
    · rfl
  unfold State.drainCpl
  exact (foldl_nums (fun s j => hj s j) _ _).trans (State.drainList_nums s s.queued0)

theorem State.job_eq_none {s : State} {n : Nat} : s.job n = none ↔ n ∉ s.nums := by
  simp only [State.job, State.nums, List.find?_eq_none, List.mem_map, not_exists, not_and, beq_iff_eq]

theorem State.job_of_nums {s t : State} (h : t.nums = s.nums) (n : Nat) : t.job n = none ↔ s.job n = none := by
  rw [State.job_eq_none, State.job_eq_none, h]

theorem State.run_of_rest {s t : State} (h : t.rest = s.rest) (n : Nat) : t.run n = s.run n := by
  have : t.runs = s.runs := congrArg (·.2.2.2.2.2.2.2.2.2.2.2.2.2.2.2.2.2.2.2.2.2.1) h
  simp only [State.run, this]

theorem State.jobs_of_keep {s t : State} (h : t.keep = s.keep) : t.jobs = s.jobs := congrArg (·.2.1) h

@[simp] theorem State.withdrawVault_jobs (s : State) : s.withdrawVault.jobs = s.jobs :=
  State.jobs_of_keep (State.withdrawVault_keep s)

@[simp] theorem State.classEdge_jobs (s : State) : s.classEdge.jobs = s.jobs :=
  State.jobs_of_keep (State.classEdge_keep s)

@[simp] theorem State.flashWrite_runs (s : State) (w : FlashWrite) : (s.flashWrite w).1.runs = s.runs := by
  unfold State.flashWrite
  (repeat' split) <;> rfl

@[simp] theorem State.summaryNow_runs (s : State) (k : Nat) : (s.summaryNow k).runs = s.runs := by
  unfold State.summaryNow
  split
  · simp
  · rfl

@[simp] theorem State.markFenced_runs (s : State) (u p : Nat) : (s.markFenced u p).runs = s.runs := by
  simp [State.markFenced]

@[simp] theorem State.classEdge_runs (s : State) : s.classEdge.runs = s.runs := by
  simp only [State.classEdge, apply_ite State.runs, ite_self]

theorem foldl_runs {τ : Type} {f : State → τ → State} (h : ∀ s x, (f s x).runs = s.runs) :
    ∀ (l : List τ) (s : State), (l.foldl f s).runs = s.runs
  | [], _ => rfl
  | x :: t, s => (foldl_runs h t (f s x)).trans (h s x)

@[simp] theorem State.withdrawVault_runs (s : State) : s.withdrawVault.runs = s.runs := by
  unfold State.withdrawVault
  rw [foldl_runs]
  intro s k
  dsimp only
  (repeat' split) <;> simp

/-- A job that has ended is not resident. -/
theorem State.dropJob_job (s : State) (n : Nat) : (s.dropJob n).job n = none := by
  unfold State.dropJob
  split
  · assumption
  · refine (State.job_of_nums (State.drainCpl_nums _) n).mpr ?_
    rw [State.job_eq_none]
    simp [State.nums]

/-- Its run is gone. -/
theorem State.dropJob_run (s : State) (n : Nat) {j : Job} (h : s.job n = some j) : (s.dropJob n).run n = none := by
  unfold State.dropJob
  rw [h]
  dsimp only
  rw [State.run_of_rest (State.drainCpl_rest _)]
  simp [State.run]

@[simp] theorem State.finishLate_nums (s : State) (w : Waiting) (a b c d e f : Nat) :
    (s.finishLate w a b c d e f).nums = s.nums := by simp [State.finishLate]

theorem State.nums_of_keep {s t : State} (h : t.keep = s.keep) : t.nums = s.nums :=
  congrArg (List.map (fun j : Job => j.num)) (congrArg (·.2.1) h)

@[simp] theorem State.closeJob_nums (s : State) (n status : Nat) : (s.closeJob n status).nums = s.nums := by
  unfold State.closeJob
  split
  · rfl
  · next j hj =>
    dsimp only
    have h1 : ∀ (l : List StepReq) (last : Nat), (l.foldl
        (fun (s : State) q => s.pushCpl (q.cpl n status (s.peerOf q.ring) last)) (s.voidJob n)).nums = s.nums :=
      fun l last => (foldl_nums (fun s x => by simp) _ _).trans (State.nums_of_keep (State.voidJob_keep s n))
    have h2 : ∀ (l : List SnapReq) (t : State), (l.foldl
        (fun (s : State) q => s.finishLate ⟨q.ring, BitVec.ofNat 32 q.seq⟩ 0x03 n 0x0402 0 0 0) t).nums = t.nums :=
      fun l t => foldl_nums (fun s x => by simp) _ _
    split
    · rw [State.finishLate_nums, h2, h1]
    · rw [h2, h1]

/-- A job that is resident has a number in the list, and the other way round. -/
theorem State.job_some_of_nums {s t : State} (h : t.nums = s.nums) {n : Nat} {j : Job} (hj : s.job n = some j) :
    ∃ k, t.job n = some k := by
  cases hk : t.job n with
  | none => rw [(State.job_of_nums h n).mp hk] at hj; cases hj
  | some k => exact ⟨k, rfl⟩

end Sys2Proof.Machine
end

