-- ==== Sys2Proof/Laws/Escrow.lean ====
section
/-! SUPPORT. A record leaves the posted memories alone, or it ends its job. -/

namespace Sys2Proof.Machine

theorem State.job_mem {s : State} {n : Nat} {j : Job} (h : s.job n = some j) : j ∈ s.jobs := List.mem_of_find?_eq_some h

theorem State.issueAt_mem {s : State} {d op : Nat} {i : Iss} (h : s.issueAt d op = some i) : i.job ∈ s.jobs := by
  unfold State.issueAt at h
  (repeat' split at h) <;> first | (cases h; done) | skip
  cases h
  rename_i hj _
  exact State.job_mem hj

theorem State.endJob_job (s : State) (n code : Nat) : (s.endJob n code).job n = none := by
  unfold State.endJob
  exact State.dropJob_job _ _

theorem State.programFault_job (s : State) (n code operand : Nat) (e : Evt) : (s.programFault n code operand e).job n = none := by
  unfold State.programFault
  exact State.endJob_job _ _ _

theorem State.consume_posted (s : State) (i : Iss) (d sp a : Nat) :
    (s.consume i d sp a).posted = s.posted ∨ (s.consume i d sp a).job i.job.num = none := by
  unfold State.consume
  dsimp only
  split
  · exact .inl (by simp)
  · split
    · refine .inl ?_
      split <;> simp
    · exact .inr (State.programFault_job _ _ _ _ _)

theorem State.perform_posted (s : State) (i : Iss) (d : Nat) (chk : Chk) (o : RecOut) :
    (s.perform i d chk o).posted = s.posted ∨ (s.perform i d chk o).job i.job.num = none := by
  unfold State.perform
  split
  · exact .inr (State.programFault_job _ _ _ _ _)
  · split
    · exact State.consume_posted _ _ _ _ _
    · refine .inl ?_
      simp only [State.armReport_posted, State.chkReport_posted, State.markCheck_posted]
      rw [foldl_posted]
      · simp
      · intro s x
        simp

/-- A record's reads leave the posted memories alone where nothing is armed and no block is uncorrectable. -/
theorem State.readChecks_posted {s : State} {i : Iss} {d : Nat} {chk : Chk} (ha : s.armedHbm = false)
    (hc : ∀ sp b x y, chk ≠ .uncorrectable sp b x y) : (s.readChecks i d chk).posted = s.posted := by
  unfold State.readChecks
  dsimp only
  rw [ha]
  simp only [Bool.false_eq_true, if_false]
  split
  · exact absurd rfl (hc _ _ _ _)
  · split <;> simp
  · rfl

theorem jobs_of_posted {s t : State} (h : t.posted = s.posted) : t.jobs = s.jobs := congrArg (·.1) h

theorem State.doRecord_posted {s : State} {d op : Nat} {chk : Chk} {f : Ctx → Nat → RecOut} (ha : s.armedHbm = false)
    (hc : ∀ sp b x y, chk ≠ .uncorrectable sp b x y) :
    (s.doRecord d op chk f).posted = s.posted ∨ ∃ j ∈ s.jobs, (s.doRecord d op chk f).job j.num = none := by
  unfold State.doRecord
  split
  · exact .inl rfl
  · rename_i i hi
    have hp := State.readChecks_posted (i := i) (d := d) ha hc
    dsimp only
    split
    · exact .inl hp
    · rename_i k hk
      rcases State.perform_posted (s.readChecks i d chk) k d chk (f ((s.readChecks i d chk).ctx k.job k.run d) k.rec_) with h | h
      · exact .inl (h.trans hp)
      · exact .inr ⟨k.job, jobs_of_posted hp ▸ State.issueAt_mem hk, h⟩

theorem State.doMove_posted {s : State} {d op : Nat} {chk : Chk} (ha : s.armedHbm = false)
    (hc : ∀ sp b x y, chk ≠ .uncorrectable sp b x y) : (s.doMove d op chk).posted = s.posted := by
  unfold State.doMove
  split
  · rfl
  · rename_i i hi
    have hp := State.readChecks_posted (i := i) (d := d) ha hc
    dsimp only
    split
    · exact hp
    · simp [hp]

theorem State.doSend_posted {s : State} {d : Nat} {chk : Chk} (ha : s.armedHbm = false)
    (hc : ∀ sp b x y, chk ≠ .uncorrectable sp b x y) :
    (s.doSend d chk).posted = s.posted ∨ ∃ j ∈ s.jobs, (s.doSend d chk).job j.num = none := by
  unfold State.doSend
  split
  · exact .inl rfl
  · rename_i i hi
    have hp := State.readChecks_posted (i := i) (d := d) ha hc
    dsimp only
    split
    · exact .inl hp
    · rename_i k hk
      split
      · rename_i sp a _ _
        rcases State.consume_posted (s.readChecks i d chk) k d sp a with h | h
        · exact .inl (h.trans hp)
        · exact .inr ⟨k.job, jobs_of_posted hp ▸ State.issueAt_mem hk, h⟩
      · refine .inl ?_
        split <;> simp [hp]

theorem execNop_posted (d : Nat) (chk : Chk) (s t : State) (h : execNop d chk s = .next t) : t.posted = s.posted := by
  simp only [execNop] at h
  split at h
  · cases h
    rfl
  · cases h
    simp

end Sys2Proof.Machine
end

