-- ==== Sys2Proof/Laws/Jobs.lean ====
section
/-! SUPPORT. What changes a job keeps its memories in their canonical form. -/

namespace Sys2Proof.Machine

@[simp] theorem Job.memWf_mk (a b c d e f g h : _) (t : List Mem) (v m : Mem) (i k l n o p q r s) :
    Job.memWf ⟨a, b, c, d, e, f, g, h, t, v, m, i, k, l, n, o, p, q, r, s⟩ = (t.all Mem.wf && v.wf && m.wf) := rfl

@[simp] theorem Job.memWf_fold (j : Job) : (j.tills.all Mem.wf && j.vault.wf && j.hbm.wf) = j.memWf := rfl

theorem Job.memWf_iff (j : Job) :
    j.memWf = true ↔ j.tills.all Mem.wf = true ∧ j.vault.wf = true ∧ j.hbm.wf = true := by
  unfold Job.memWf
  rw [Bool.and_eq_true, Bool.and_eq_true, and_assoc]

theorem nthD_wf {l : List Mem} (h : l.all Mem.wf = true) (k : Nat) : (nthD Mem.empty l k).wf = true := by
  simp only [nthD, List.getD_eq_getElem?_getD]
  cases hk : l[k]? with
  | none => rfl
  | some m => exact List.all_eq_true.mp h m (List.mem_of_getElem? hk)

theorem setNth_wf {l : List Mem} (h : l.all Mem.wf = true) {m : Mem} (hm : m.wf = true) (k : Nat) :
    (setNth l k m).all Mem.wf = true := by
  rw [List.all_eq_true] at h ⊢
  intro x hx
  rcases List.mem_or_eq_of_mem_set hx with hx | rfl
  · exact h x hx
  · exact hm

theorem mapRange_wf {f : Nat → Mem} (h : ∀ k, (f k).wf = true) (n : Nat) :
    ((List.range n).map f).all Mem.wf = true := by
  simp [List.all_eq_true, h]

theorem risingWf_head {k i : Nat} {t : List Nat} (h : risingWf k (i :: t) = true) : ∀ x ∈ t, i < x := by
  induction t generalizing i k with
  | nil => simp
  | cons a u ih =>
    simp only [risingWf, Bool.and_eq_true, decide_eq_true_eq] at h
    intro x hx
    rcases List.mem_cons.mp hx with rfl | hx
    · omega
    · have := ih (k := a) (i := a) (by simp [risingWf, h.2.2]) x hx
      omega

theorem filter_risingWf {p : Nat → Bool} : ∀ {lo : Nat} {l : List Nat}, risingWf lo l = true → risingWf lo (l.filter p) = true
  | _, [], _ => rfl
  | lo, i :: t, h => by
    simp only [risingWf, Bool.and_eq_true, decide_eq_true_eq] at h
    simp only [List.filter_cons]
    split
    · simp only [risingWf, Bool.and_eq_true, decide_eq_true_eq]
      exact ⟨h.1, filter_risingWf h.2⟩
    · exact risingWf_mono (by omega) (filter_risingWf h.2)

theorem Mem.remark_wf {m : Mem} (h : m.wf = true) (sh : Shadow) (lo hi : Nat) : (m.remark sh lo hi).wf = true := by
  rw [Mem.wf_iff] at h ⊢
  exact ⟨h.1, filter_risingWf h.2⟩

theorem Job.poisonBlock_wf {j : Job} (h : j.memWf = true) (space slot block : Nat) :
    (j.poisonBlock space slot block).memWf = true := by
  rw [Job.memWf_iff] at h ⊢
  unfold Job.poisonBlock
  split
  · exact ⟨setNth_wf h.1 (Mem.setPoison_wf (nthD_wf h.1 _) _ _) _, h.2⟩
  · exact ⟨h.1, Mem.setPoison_wf h.2.1 _ _, h.2.2⟩
  · exact ⟨h.1, h.2.1, Mem.setPoison_wf h.2.2 _ _⟩

theorem postTills_wf : ∀ {ts : List Mem} (xs : List Slot), ts.all Mem.wf = true → (postTills ts xs).all Mem.wf = true
  | [], _, _ => by simp [postTills]
  | _ :: _, [], h => by simpa [postTills] using h
  | m :: t, x :: xs, h => by
    simp only [List.all_cons, Bool.and_eq_true] at h
    simp [postTills, Mem.post_wf h.1, postTills_wf xs h.2]

theorem Job.post_wf {j : Job} (h : j.memWf = true) (r : Run) : (j.post r).memWf = true := by
  rw [Job.memWf_iff] at h ⊢
  exact ⟨postTills_wf _ h.1, Mem.post_wf h.2.1 _, Mem.post_wf (Mem.post_wf h.2.2 _) _⟩

theorem Job.takeRegion_wf {j : Job} (h : j.memWf = true) (r : Run) (desc : Nat) : (j.takeRegion r desc).memWf = true := by
  rw [Job.memWf_iff] at h ⊢
  unfold Job.takeRegion
  dsimp only
  split
  · exact ⟨mapRange_wf (fun k => Mem.remark_wf (Mem.post_wf (Mem.post_wf (nthD_wf h.1 k) _) _) _ _ _) _, h.2⟩
  · exact ⟨h.1, Mem.remark_wf (Mem.post_wf (Mem.post_wf h.2.1 _) _) _ _ _, h.2.2⟩
  · exact ⟨h.1, h.2.1, Mem.remark_wf (Mem.post_wf (Mem.post_wf h.2.2 _) _) _ _ _⟩

theorem State.regenerate_wf (s : State) (bank : Option (Nat × Nat)) : ∀ (n : Nat) (j : Job) (desc : Nat) {k : Job},
    j.memWf = true → s.regenerate bank n j desc = .done k → k.memWf = true
  | 0, _, _, _, _, h => by simp [State.regenerate] at h
  | n + 1, j, desc, k, hj, h => by
    simp only [State.regenerate] at h
    split at h
    · split at h
      · injection h with h
        subst h
        exact Job.takeRegion_wf hj _ _
      · cases h
      · split at h
        · split at h
          · next hk => exact State.regenerate_wf s bank n _ desc (State.regenerate_wf s bank n j _ hj hk) h
          · next hk => exact absurd h (by intro h'; exact hk _ h')
        · cases h
    · cases h

theorem State.regenAll_wf (s : State) : ∀ (l : List (Nat × Nat)) (j : Job) {k : Job},
    j.memWf = true → s.regenAll l j = .done k → k.memWf = true
  | [], j, k, hj, h => by
    simp only [State.regenAll] at h
    injection h with h
    exact h ▸ hj
  | x :: t, j, k, hj, h => by
    simp only [State.regenAll] at h
    split at h
    · next hk => exact State.regenAll_wf s t _ (State.regenerate_wf s none _ j _ hj hk) h
    · next hk => exact absurd h (by intro h'; exact hk _ h')

theorem Job.onRegion_wf {j : Job} (h : j.memWf = true) (r : SnapRec) {f : Mem → Mem}
    (hf : ∀ m, m.wf = true → (f m).wf = true) : (j.onRegion r f).memWf = true := by
  rw [Job.memWf_iff] at h ⊢
  unfold Job.onRegion
  split
  · exact ⟨setNth_wf h.1 (hf _ (nthD_wf h.1 _)) _, h.2⟩
  · exact ⟨h.1, hf _ h.2.1, h.2.2⟩
  · exact ⟨h.1, h.2.1, hf _ h.2.2⟩

theorem markBlock_wf {m : Mem} (h : m.wf = true) (d : W128) (k : Nat) : (markBlock d k m).wf = true :=
  Mem.setPoison_wf (Mem.setPoison_wf h _ _) _ _

theorem Job.takeImage_wf {j : Job} (h : j.memWf = true) (img : List Byte) : (j.takeImage img).memWf = true := by
  have h1 := foldl_keeps (p := fun j : Job => j.memWf = true) (f := fun j r => Job.takeRecord j img r)
    (fun j r hj => Job.onRegion_wf hj r (fun m hm => Mem.write_wf hm _ _)) (snapRecs img) j h
  have h2 := foldl_keeps (p := fun j : Job => j.memWf = true) (f := fun j r => Job.markRecord j img r)
    (fun j r hj => Job.onRegion_wf hj r (fun m hm =>
      foldl_keeps (p := fun m : Mem => m.wf = true) (fun m k hm => by
        dsimp only
        split
        · exact markBlock_wf hm _ _
        · exact hm) _ m hm)) (snapRecs img) _ h1
  exact h2

theorem Job.applyImage_wf {j : Job} (h : j.memWf = true) (i : Nat) : (j.applyImage i).memWf = true := by
  unfold Job.applyImage
  dsimp only
  split
  · exact h
  · rw [Job.memWf_iff] at h
    split
    · rw [Job.memWf_iff]
      refine ⟨mapRange_wf (fun k => ?_) _, h.2⟩
      split
      · exact Mem.write_wf (nthD_wf h.1 k) _ _
      · exact nthD_wf h.1 k
    · split
      · exact (Job.memWf_iff _).mpr ⟨h.1, Mem.write_wf h.2.1 _ _, h.2.2⟩
      · exact (Job.memWf_iff _).mpr h
    · split
      · exact (Job.memWf_iff _).mpr ⟨h.1, h.2.1, Mem.write_wf h.2.2 _ _⟩
      · exact (Job.memWf_iff _).mpr h

theorem Job.applyImages_wf {j : Job} (h : j.memWf = true) : j.applyImages.memWf = true :=
  foldl_keeps (p := fun j : Job => j.memWf = true) (f := fun j i => Job.applyImage j i)
    (fun _ i hj => Job.applyImage_wf hj i) _ j h

theorem LoadCmd.job_wf (l : LoadCmd) (b : Binary) : (l.job b).memWf = true := by
  rw [Job.memWf_iff]
  refine ⟨?_, rfl, rfl⟩
  simp [LoadCmd.job]

end Sys2Proof.Machine
end

