-- ==== Sys2Proof/Laws/Inv.lean ====
section
/-! SUPPORT. The functions that change the resident jobs or the host memory keep every memory in its canonical
form, and the queue as it is: one lemma for each. -/

namespace Sys2Proof.Machine

/-- The queue is `q`, and the memories are in their canonical form. -/
def Good (q : List Instr) (k : List Instr × List Job × List Host.Cell) : Prop :=
  k.1 = q ∧ k.2.1.all Job.memWf = true ∧ cellsWf 0 k.2.2 = true

theorem good_iff (s : State) : Good s.pending s.keep ↔ s.memWf = true := by
  simp only [Good, State.keep, State.memWf, Bool.and_eq_true, true_and]

variable {q : List Instr}

theorem Good.job {s : State} {n : Nat} {j : Job} (h : Good q s.keep) (hj : s.job n = some j) : j.memWf = true :=
  List.all_eq_true.mp h.2.1 j (List.mem_of_find?_eq_some hj)

theorem good_foldl {τ : Type} {f : State → τ → State} (h : ∀ s x, Good q s.keep → Good q (f s x).keep) (l : List τ)
    {s : State} (hs : Good q s.keep) : Good q (l.foldl f s).keep :=
  foldl_keeps (p := fun s : State => Good q s.keep) h l s hs

@[simp] theorem State.setJob_good {s : State} {j : Job} (h : Good q s.keep) (hj : j.memWf = true) :
    Good q (s.setJob j).keep := by
  refine ⟨h.1, ?_, h.2.2⟩
  have h2 := h.2.1
  simp only [State.setJob, State.keep, List.all_map]
  rw [List.all_eq_true] at h2 ⊢
  intro k hk
  simp only [Function.comp]
  split
  · exact hj
  · exact h2 k hk

@[simp] theorem State.hostWrite_good {s : State} (h : Good q s.keep) (addr : Nat) (bs : List Byte) :
    Good q (s.hostWrite addr bs).keep := by
  unfold State.hostWrite
  split
  · exact ⟨h.1, h.2.1, cellPutList_wf bs addr h.2.2⟩
  · split
    · exact h
    · rw [foldl_keep]
      · simpa using h
      · intro s x
        simp

@[simp] theorem State.produce_good (s : State) (n : Nat) (r : Ring) (ws : List W64)
    (h : Good q s.keep) : Good q (State.produce s n r ws).keep := by
  unfold State.produce
  dsimp only
  split
  · simp [h]
  · split
    · simp [h]
    · split
      · simp [h]
      · split
        · next j hj =>
          have hw := (Job.memWf_iff j).mp (h.job hj)
          rw [State.setRing_keep]
          refine State.setJob_good h ?_
          exact (Job.memWf_iff _).mpr ⟨hw.1, hw.2.1, Mem.setPoison_wf (Mem.write_wf hw.2.2 _ _) _ _⟩
        · simp [h]

@[simp] theorem State.produceIrq_good (s : State) (n : Nat) (r : Ring) (ws : List W64)
    (h : Good q s.keep) : Good q (State.produceIrq s n r ws).keep := by
  simp [State.produceIrq, h]

@[simp] theorem State.putCpl_good (s : State) (n : Nat) (r : Ring) (c : Completion)
    (h : Good q s.keep) : Good q (State.putCpl s n r c).keep := by
  simp [State.putCpl, h]

@[simp] theorem State.pushCpl_good (s : State) (c : Completion)
    (h : Good q s.keep) : Good q (State.pushCpl s c).keep := by
  unfold State.pushCpl
  (repeat' split) <;> first | (simp [h]; done) | (have hw := h.job ‹_›; simp [h, hw]; done)

@[simp] theorem State.drainList_good (s : State) (x0 : List Completion)
    (h : Good q s.keep) : Good q (State.drainList s x0).1.keep := by
  induction x0 generalizing s with
  | nil => simpa [State.drainList] using h
  | cons c t ih =>
    unfold State.drainList
    split
    · exact ih _ h
    · split
      · exact ih _ (by simp [h])
      · exact h

@[simp] theorem State.drainCpl_good (s : State)
    (h : Good q s.keep) : Good q (State.drainCpl s).keep := by
  unfold State.drainCpl
  refine good_foldl (fun s j h => ?_) _ (by simp [h])
  split
  · next k hk =>
    dsimp only
    split
    · next i hi =>
      have h2 : Good q (s.drainList k.queued).1.keep := by simp [h]
      have hw := h2.job hi
      simp [h, hw]
    · simp [h]
  · exact h

@[simp] theorem State.finish_good (s : State) (c : Cmd) (status : Nat)
    (h : Good q s.keep) : Good q (State.finish s c status).keep := by
  simp [State.finish, h]

@[simp] theorem State.finishWith_good (s : State) (c : Cmd) (r0 r1 : Nat)
    (h : Good q s.keep) : Good q (State.finishWith s c r0 r1).keep := by
  simp [State.finishWith, h]

@[simp] theorem State.finishLate_good (s : State) (w : Waiting) (opcode job status flags r0 r1 : Nat)
    (h : Good q s.keep) : Good q (State.finishLate s w opcode job status flags r0 r1).keep := by
  simp [State.finishLate, h]

@[simp] theorem State.poisonAt_good (s : State) (j : Job) (u : Nat × Nat) (space slot block : Nat)
    (h : Good q s.keep) (hj : j.memWf = true) : Good q (State.poisonAt s j u space slot block).keep := by
  unfold State.poisonAt
  dsimp only
  split <;> simp [h, Job.poisonBlock_wf hj]

@[simp] theorem State.uncorrectable_good (s : State) (j : Job) (u : Nat × Nat) (space slot block s0 s1 : Nat)
    (h : Good q s.keep) (hj : j.memWf = true) : Good q (State.uncorrectable s j u space slot block s0 s1).keep := by
  unfold State.uncorrectable
  dsimp only
  split <;> simp [h, hj]

@[simp] theorem State.dropJob_good (s : State) (n : Nat)
    (h : Good q s.keep) : Good q (State.dropJob s n).keep := by
  unfold State.dropJob
  split
  · exact h
  · next j hj =>
    have h1 : ∀ t : State, t.keep = s.keep → Good q (t.pending, t.jobs.filter (fun k => k.num != n), t.out.hostMem) := by
      intro t ht
      have e : (t.pending, t.jobs, t.out.hostMem) = (s.pending, s.jobs, s.out.hostMem) := ht
      simp only [Prod.mk.injEq] at e
      rw [e.1, e.2.1, e.2.2]
      exact ⟨h.1, List.all_eq_true.mpr (fun k hk => List.all_eq_true.mp h.2.1 k ((List.mem_filter.mp hk).1)), h.2.2⟩
    dsimp only
    refine State.drainCpl_good _ ?_
    rw [State.classEdge_keep, State.withdrawVault_keep, State.keep_mk]
    refine h1 _ ?_
    rw [foldl_keep (fun s x => State.answerHeld_keep s x)]
    split
    · split
      · exact State.keepSlots_keep _ _
      · rfl
    · rfl

@[simp] theorem State.closeJob_good (s : State) (n status : Nat)
    (h : Good q s.keep) : Good q (State.closeJob s n status).keep := by
  unfold State.closeJob
  split
  · exact h
  · next j hj =>
    dsimp only
    have h1 : ∀ (l : List StepReq) (last : Nat), Good q (l.foldl
        (fun (s : State) q => s.pushCpl (q.cpl n status (s.peerOf q.ring) last)) (s.voidJob n)).keep := fun l last =>
      good_foldl (fun s x h => by simp [h]) _ (by simp [h])
    have h2 : ∀ (l : List SnapReq) (t : State), Good q t.keep → Good q (l.foldl
        (fun (s : State) q => s.finishLate ⟨q.ring, BitVec.ofNat 32 q.seq⟩ 0x03 n 0x0402 0 0 0) t).keep := fun l t ht =>
      good_foldl (fun s x h => by simp [h]) _ ht
    split
    · exact State.finishLate_good _ _ _ _ _ _ _ _ (h2 _ _ (h1 _ _))
    · exact h2 _ _ (h1 _ _)

@[simp] theorem State.endJob_good (s : State) (n status : Nat)
    (h : Good q s.keep) : Good q (State.endJob s n status).keep := by
  simp [State.endJob, h]

@[simp] theorem State.programFault_good (s : State) (n code operand : Nat) (e : Evt)
    (h : Good q s.keep) : Good q (State.programFault s n code operand e).keep := by
  simp [State.programFault, h]

@[simp] theorem State.endAssay_good (s : State) (j : AssayJob) (flags : Nat)
    (h : Good q s.keep) : Good q (State.endAssay s j flags).keep := by
  unfold State.endAssay
  dsimp only
  (repeat' split) <;> simp [h]

@[simp] theorem State.startAssay_good (s : State) (j : AssayJob)
    (h : Good q s.keep) : Good q (State.startAssay s j).keep := by
  unfold State.startAssay
  dsimp only
  (repeat' split) <;> simp [h]

@[simp] theorem State.notRun_good (s : State) (j : AssayJob)
    (h : Good q s.keep) : Good q (State.notRun s j).keep := by
  unfold State.notRun
  dsimp only
  (repeat' split) <;> simp [h]

@[simp] theorem State.pumpAssay_good (x0 : Nat) (x1 : Nat) (x2 : State)
    (h : Good q x2.keep) : Good q (State.pumpAssay x0 x1 x2).keep := by
  induction x0 generalizing x2 with
  | zero => exact h
  | succ n ih =>
    unfold State.pumpAssay
    split
    · exact h
    · split
      · split
        · simp [h]
        · exact ih _ (by simp [h])
      · split
        · split <;> simp [h]
        · split
          · exact h
          · exact ih _ (by simp [h])

@[simp] theorem State.assaySettle_good (s : State)
    (h : Good q s.keep) : Good q (State.assaySettle s).keep := by
  unfold State.assaySettle
  split
  · exact h
  · exact good_foldl (fun s r h => by simp [h]) _ h

@[simp] theorem State.borrowAll_good (s : State)
    (h : Good q s.keep) : Good q (State.borrowAll s).keep := by
  unfold State.borrowAll
  refine good_foldl (fun s r h => ?_) _ h
  dsimp only
  (repeat' split) <;> simp [h]

@[simp] theorem State.leaveAssay_good (s : State) (j : AssayJob) (worst : Nat)
    (h : Good q s.keep) : Good q (State.leaveAssay s j worst).keep := by
  simp [State.leaveAssay, h]

@[simp] theorem State.assayVerdict_good (s : State) (j : AssayJob) (x : AssaySet) (verdict nrun vec : Nat) (d : W64)
    (h : Good q s.keep) : Good q (State.assayVerdict s j x verdict nrun vec d).keep := by
  unfold State.assayVerdict
  dsimp only
  (repeat' split) <;> simp [h]

@[simp] theorem State.assayOutcome_good (s : State) (j : AssayJob) (x : AssaySet) (nrun : Nat) (failed : Option (Nat × W64))
    (h : Good q s.keep) : Good q (State.assayOutcome s j x nrun failed).keep := by
  unfold State.assayOutcome
  (repeat' split) <;> simp [h]

@[simp] theorem State.captureJob_good (s : State) (n : Nat)
    (h : Good q s.keep) : Good q (State.captureJob s n).keep := by
  unfold State.captureJob
  split
  · exact h
  · next j hj =>
    have hw := h.job hj
    dsimp only
    refine good_foldl (fun s r h => ?_) _ (by simp [h, hw])
    split <;> simp [h]

@[simp] theorem State.captureAll_good (s : State)
    (h : Good q s.keep) : Good q (State.captureAll s).keep := by
  unfold State.captureAll
  refine good_foldl (fun s r h => ?_) _ h
  split <;> simp [h]

@[simp] theorem State.uncorrAt_good (s : State) (n d space block s0 s1 : Nat) (injected : Bool)
    (h : Good q s.keep) : Good q (State.uncorrAt s n d space block s0 s1 injected).keep := by
  unfold State.uncorrAt
  split
  · next j r hj hr =>
    have hw := h.job hj
    dsimp only
    (repeat' split) <;> simp [h, hw]
  · exact h

@[simp] theorem State.injectReads_good (s : State) (n d : Nat) (x0 : List Nat)
    (h : Good q s.keep) : Good q (State.injectReads s n d x0).keep := by
  induction x0 generalizing s with
  | nil => exact h
  | cons b t ih =>
    unfold State.injectReads
    dsimp only
    refine ih _ ?_
    (repeat' split) <;> simp [h]

@[simp] theorem State.readChecks_good (s : State) (i : Iss) (d : Nat) (chk : Chk)
    (h : Good q s.keep) : Good q (State.readChecks s i d chk).keep := by
  unfold State.readChecks
  dsimp only
  (repeat' split) <;> simp [h]

@[simp] theorem State.consume_good (s : State) (i : Iss) (d sp addr : Nat)
    (h : Good q s.keep) : Good q (State.consume s i d sp addr).keep := by
  unfold State.consume
  dsimp only
  (repeat' split) <;> simp [h]

@[simp] theorem State.perform_good (s : State) (i : Iss) (d : Nat) (chk : Chk) (o : RecOut)
    (h : Good q s.keep) : Good q (State.perform s i d chk o).keep := by
  unfold State.perform
  split
  · simp [h]
  · split
    · simp [h]
    · dsimp only
      rw [State.armReport_keep, State.chkReport_keep, State.markCheck_keep, foldl_keep]
      · simp [h]
      · intro s x
        simp

@[simp] theorem State.doRecord_good (s : State) (d op : Nat) (chk : Chk) (f : Ctx → Nat → RecOut)
    (h : Good q s.keep) : Good q (State.doRecord s d op chk f).keep := by
  unfold State.doRecord
  dsimp only
  (repeat' split) <;> simp [h]

@[simp] theorem State.doMove_good (s : State) (d op : Nat) (chk : Chk)
    (h : Good q s.keep) : Good q (State.doMove s d op chk).keep := by
  unfold State.doMove
  dsimp only
  (repeat' split) <;> simp [h]

@[simp] theorem State.doSend_good (s : State) (d : Nat) (chk : Chk)
    (h : Good q s.keep) : Good q (State.doSend s d chk).keep := by
  unfold State.doSend
  dsimp only
  (repeat' split) <;> simp [h]

@[simp] theorem State.applySwitch_good (s : State) (restored : Bool) (us : Nat)
    (h : Good q s.keep) : Good q (State.applySwitch s restored us).keep := by
  unfold State.applySwitch
  split
  · exact h
  · next w hw =>
    dsimp only
    (repeat' split) <;> first | exact h | (refine State.finishLate_good _ _ _ _ _ _ _ _ ?_; simp [h]; done) |
      (refine State.finishLate_good _ _ _ _ _ _ _ _ ?_; exact h)

@[simp] theorem State.sealSwitch_good (s : State) (v : Revert)
    (h : Good q s.keep) : Good q (State.sealSwitch s v).keep := by
  unfold State.sealSwitch
  dsimp only
  refine State.finishLate_good _ _ _ _ _ _ _ _ ?_
  rw [State.raise_keep, State.extendRun_keep, State.flashWrite_keep]
  exact h

@[simp] theorem State.endSwitch_good (s : State) (h : Good q s.keep) : Good q (State.endSwitch s).keep := by
  unfold State.endSwitch
  (repeat' split) <;> simp [h]

@[simp] theorem State.revertSwitch_good (s : State) (h : Good q s.keep) : Good q (State.revertSwitch s).keep := by
  unfold State.revertSwitch
  split
  · exact h
  · split
    · dsimp only
      refine State.finishLate_good _ _ _ _ _ _ _ _ ?_
      rw [State.raise_keep]
      exact h
    · simp [h]

theorem State.timeIf_good (s : State) (c : Prop) [Decidable c] (x : W64) (h : Good q s.keep) :
    Good q (if c then { s with time := x } else s).keep := by
  split
  · exact h
  · exact h

@[simp] theorem tick_good (s : State) (h : Good q s.keep) : Good q (tick s).keep :=
  State.endSwitch_good _ (State.timeIf_good _ _ _ (by split <;> simp [h]))

@[simp] theorem State.fenceNow_good (s : State) (utype punit cause : Nat)
    (h : Good q s.keep) : Good q (State.fenceNow s utype punit cause).keep := by
  simp [State.fenceNow, h]

@[simp] theorem State.poisonJob_good (s : State) (n addr : Nat)
    (h : Good q s.keep) : Good q (State.poisonJob s n addr).keep := by
  simp [State.poisonJob, h]

@[simp] theorem State.consumeEntry_good (s : State) (f : Fetch) (kind : Nat) (want : Cmd → Bool) (k : State → Cmd → State)
    (h : Good q s.keep) (hk : ∀ s c, Good q s.keep → Good q (k s c).keep) : Good q (State.consumeEntry s f kind want k).keep := by
  unfold State.consumeEntry
  split
  · exact h
  · dsimp only
    (repeat' split) <;> first | (simp [h]; done) | exact hk _ _ (by simp [h])

@[simp] theorem State.command_good (s : State) (f : Fetch) (op : Nat) (h : State → Cmd → State)
    (hs : Good q s.keep) (hk : ∀ s c, Good q s.keep → Good q (h s c).keep) : Good q (State.command s f op h).keep := by
  unfold State.command
  refine State.consumeEntry_good _ _ _ _ _ hs (fun s c hs => ?_)
  split
  · exact hk _ _ hs
  · simp [hs]

@[simp] theorem doStepRun_good (s : State) (c : Cmd)
    (h : Good q s.keep) : Good q (doStepRun s c).keep := by
  unfold doStepRun
  split
  · simp [h]
  · next j hj =>
    have hw := h.job hj
    split
    · simp [h]
    · dsimp only
      rw [State.keep_mk, State.keep_fold]
      simp [h, hw]

@[simp] theorem doSnapshot_good (s : State) (c : Cmd)
    (h : Good q s.keep) : Good q (doSnapshot s c).keep := by
  unfold doSnapshot
  (repeat' split) <;> first | (simp [h]; done) | (have hw := h.job ‹_›; simp [h, hw]; done)

@[simp] theorem doJobEnd_good (s : State) (c : Cmd)
    (h : Good q s.keep) : Good q (doJobEnd s c).keep := by
  unfold doJobEnd
  (repeat' split) <;> first | (simp [h]; done) | (have hw := h.job ‹_›; simp [h, hw]; done)

@[simp] theorem doJobAbort_good (s : State) (c : Cmd)
    (h : Good q s.keep) : Good q (doJobAbort s c).keep := by
  unfold doJobAbort
  refine State.dropJob_good _ _ (State.finish_good _ _ _ ?_)
  simp [h]

@[simp] theorem State.writeDesc_good (s : State) (c : Cmd) (w3 n : Nat)
    (h : Good q s.keep) : Good q (State.writeDesc s c w3 n).keep := by
  unfold State.writeDesc
  dsimp only
  split
  · simp [h]
  · split
    · next j hj =>
      have hw := (Job.memWf_iff j).mp (h.job hj)
      exact State.setJob_good h ((Job.memWf_iff _).mpr ⟨hw.1, hw.2.1, Mem.write_wf hw.2.2 _ _⟩)
    · exact h

@[simp] theorem doRingAlloc_good (s : State) (c : Cmd)
    (h : Good q s.keep) : Good q (doRingAlloc s c).keep := by
  unfold doRingAlloc
  dsimp only
  (repeat' split) <;> simp [h]

@[simp] theorem doRingFree_good (s : State) (c : Cmd)
    (h : Good q s.keep) : Good q (doRingFree s c).keep := by
  unfold doRingFree
  try dsimp only
  (repeat' split) <;> first | (simp [h]; done) | exact State.finish_good _ _ h | exact State.finishWith_good _ _ _ _ h

@[simp] theorem doSeqOpen_good (s : State) (c : Cmd)
    (h : Good q s.keep) : Good q (doSeqOpen s c).keep := by
  unfold doSeqOpen
  try dsimp only
  (repeat' split) <;> first | (simp [h]; done) | exact State.finish_good _ _ h | exact State.finishWith_good _ _ _ _ h

@[simp] theorem doSeqClose_good (s : State) (c : Cmd)
    (h : Good q s.keep) : Good q (doSeqClose s c).keep := by
  unfold doSeqClose
  try dsimp only
  (repeat' split) <;> first | (simp [h]; done) | exact State.finish_good _ _ h | exact State.finishWith_good _ _ _ _ h

@[simp] theorem doBoundary_good (s : State) (c : Cmd)
    (h : Good q s.keep) : Good q (doBoundary s c).keep := by
  unfold doBoundary
  dsimp only
  (repeat' split) <;> simp [h]

@[simp] theorem doSeqRequest_good (s : State) (c : Cmd)
    (h : Good q s.keep) : Good q (doSeqRequest s c).keep := by
  unfold doSeqRequest
  dsimp only
  (repeat' split) <;> simp [h]

@[simp] theorem doMarker_good (s : State) (c : Cmd)
    (h : Good q s.keep) : Good q (doMarker s c).keep := by
  unfold doMarker
  dsimp only
  (repeat' split) <;> simp [h]

@[simp] theorem doAssayRequest_good (s : State) (c : Cmd)
    (h : Good q s.keep) : Good q (doAssayRequest s c).keep := by
  unfold doAssayRequest
  dsimp only
  (repeat' split) <;> simp [h]

@[simp] theorem doDieBank_good (s : State) (c : Cmd)
    (h : Good q s.keep) : Good q (doDieBank s c).keep := by
  unfold doDieBank
  dsimp only
  (repeat' split) <;> simp [h]

@[simp] theorem doFwStage_good (s : State) (c : Cmd)
    (h : Good q s.keep) : Good q (doFwStage s c).keep := by
  unfold doFwStage
  dsimp only
  (repeat' split) <;> simp [h]

@[simp] theorem doFwSwitch_good (s : State) (c : Cmd)
    (h : Good q s.keep) : Good q (doFwSwitch s c).keep := by
  unfold doFwSwitch
  dsimp only
  (repeat' split) <;> simp [h]

@[simp] theorem doFwCommit_good (s : State) (c : Cmd)
    (h : Good q s.keep) : Good q (doFwCommit s c).keep := by
  unfold doFwCommit
  dsimp only
  (repeat' split) <;> simp [h]

@[simp] theorem doConfigInstall_good (s : State) (c : Cmd)
    (h : Good q s.keep) : Good q (doConfigInstall s c).keep := by
  unfold doConfigInstall
  dsimp only
  (repeat' split) <;> simp [h]

@[simp] theorem doAttest_good (s : State) (c : Cmd)
    (h : Good q s.keep) : Good q (doAttest s c).keep := by
  unfold doAttest
  dsimp only
  (repeat' split) <;> simp [h]

@[simp] theorem State.bare_good (s : State)
    (h : Good q s.keep) : Good q (State.bare s).keep := by
  exact ⟨h.1, rfl, h.2.2⟩

@[simp] theorem State.warmBare_good (s : State)
    (h : Good q s.keep) : Good q (State.warmBare s).keep := by
  exact ⟨h.1, rfl, h.2.2⟩

@[simp] theorem State.order3_good (s : State) (env : StartEnv)
    (h : Good q s.keep) : Good q (State.order3 s env).keep := by
  unfold State.order3
  split
  · dsimp only
    rw [State.keep_mk, State.keep_fold]
    simp [h]
  · dsimp only
    refine good_foldl (fun s x h => by simp [h]) _ ?_
    rw [State.keep_mk, State.keep_fold]
    refine good_foldl (fun s c h => ?_) _ (good_foldl (fun s c h => by simp [h]) _ (good_foldl (fun s c h => by simp [h]) _ ?_))
    · split <;> simp [h]
    · simp [h]

@[simp] theorem State.hostAgain_good (s : State)
    (h : Good q s.keep) : Good q (State.hostAgain s).keep := by
  unfold State.hostAgain
  (repeat' split) <;> simp [h]

@[simp] theorem State.admitPort_good (s : State) (p : Nat) (h : Hello) (cipher : List Byte)
    (hs : Good q s.keep) : Good q (State.admitPort s p h cipher).keep := by
  unfold State.admitPort
  dsimp only
  rw [State.classEdge_keep]
  refine State.hostAgain_good _ ?_
  rw [State.rerouteAll_keep]
  (repeat' split) <;> simp [hs]

@[simp] theorem State.order4_good (s : State) (env : StartEnv)
    (h : Good q s.keep) : Good q (State.order4 s env).keep := by
  unfold State.order4
  dsimp only
  rw [State.keep_mk, State.keep_fold]
  have h1 : Good q (env.vaultFail.foldl (fun (s : State) g => if 128 ≤ g then s else (s.startFail 4 2 3 g).permanent 3 g s.errSeq) s).keep :=
    good_foldl (fun s g h => by split <;> simp [h]) _ h
  have h2 : ∀ t : State, Good q t.keep → Good q (env.tillFail.foldl (fun (s : State) p => if 576 ≤ p ∨ s.isFenced 1 p = true then s
      else (s.startFail 4 2 1 p).fenceCore p s.errSeq) t).keep :=
    fun t ht => good_foldl (fun s p h => by split <;> simp [h]) _ ht
  have h3 := h2 (State.withdrawVault (env.vaultFail.foldl (fun (s : State) g =>
    if 128 ≤ g then s else (s.startFail 4 2 3 g).permanent 3 g s.errSeq) s)) (by simp [h1])
  refine good_foldl (fun s i h => ?_) _ ?_
  · split <;> simp [h]
  · split <;> simp [h3]

@[simp] theorem State.order5_good (s : State) (env : StartEnv)
    (h : Good q s.keep) : Good q (State.order5 s env).keep := by
  unfold State.order5
  dsimp only
  rw [State.keep_mk, State.keep_fold]
  refine good_foldl (fun s i h => ?_) _ h
  split
  · rw [State.roundSet_keep]; exact h
  · exact h

@[simp] theorem State.answered_good (s : State) (p : Nat) (g : Sigs)
    (h : Good q s.keep) : Good q (State.answered s p g).keep := by
  unfold State.answered
  split
  · split
    · exact State.admitPort_good _ _ _ _ h
    · rw [State.classEdge_keep, State.failAuth_keep]; exact h
  · exact h

@[simp] theorem State.firstAttempt_good (s : State) (a : PortAttempt)
    (h : Good q s.keep) : Good q (State.firstAttempt s a).keep := by
  unfold State.firstAttempt
  dsimp only
  rw [State.giveUp_keep]
  have h1 : Good q (s.train a.port a.lanes a.partner).keep := by rw [State.train_keep]; exact h
  generalize s.train a.port a.lanes a.partner = t at h1
  cases a.hello with
  | none => cases a.sigs with
    | none => exact h1
    | some g => exact State.answered_good _ _ _ h1
  | some x =>
    have h2 : Good q (t.greet a.port x).keep := by rw [State.greet_keep]; exact h1
    cases a.sigs with
    | none => exact h2
    | some g => exact State.answered_good _ _ _ h2

@[simp] theorem State.order6_good (s : State) (env : StartEnv)
    (h : Good q s.keep) : Good q (State.order6 s env).keep := by
  unfold State.order6
  dsimp only
  rw [State.keep_mk, State.keep_fold]
  exact good_foldl (fun s a h => State.firstAttempt_good s a h) _ h

@[simp] theorem State.order7_good (s : State)
    (h : Good q s.keep) : Good q (State.order7 s).keep := by
  unfold State.order7
  dsimp only
  split
  · exact good_foldl (fun s e h => by simp [h]) _ h
  · exact h

@[simp] theorem State.order8_good (s : State) (cause : Nat)
    (h : Good q s.keep) : Good q (State.order8 s cause).keep := by
  unfold State.order8
  dsimp only
  rw [State.settle_keep, State.keep_mk, State.keep_fold]
  have h1 : ∀ (l : List (List W64)) (t : State), Good q t.keep → Good q (l.foldl (fun s r => s.ledger r) t).keep :=
    fun l t ht => good_foldl (fun s r h => by simp [h]) _ ht
  have h2 := h1 s.su.held { s with
    rings := [(0, deviceRing 0 0 8 1), (1, deviceRing 0x4000 1 8 0), (2, deviceRing 0 4 16 0)]
    su := { s.su with held := [], phase := 8, mRun := s.su.mBoot } } h
  (repeat' split) <;> (try simp only [State.flashWrite_keep, State.raise_keep]) <;> exact h2

@[simp] theorem State.startUp_good (s : State) (env : StartEnv)
    (h : Good q s.keep) : Good q (State.startUp s env).keep := by
  unfold State.startUp
  dsimp only
  have h2 : Good q (s.order2 env).keep := by simp [h]
  have h3 := State.order3_good _ env h2
  have h5 := State.order5_good _ env (State.order4_good _ env h3)
  split
  · rw [State.settle_keep]; exact h2
  · split
    · rw [State.settle_keep]; exact h3
    · exact State.order8_good _ _ (State.order7_good _ (State.order6_good _ env h5))

@[simp] theorem State.warmReset_good (s : State) (env : StartEnv)
    (h : Good q s.keep) : Good q (State.warmReset s env).keep := by
  unfold State.warmReset
  split <;> simp [h]

@[simp] theorem State.recFinish_good (s : State) (env : StartEnv)
    (h : Good q s.keep) : Good q (State.recFinish s env).keep := by
  unfold State.recFinish
  split
  · exact h
  · split
    · rw [State.setRcv_keep]; exact h
    · split
      · rw [State.setRcv_keep]; exact h
      · split
        · rw [State.setRcv_keep]; exact h
        · dsimp only
          rw [State.setRcv_keep]
          refine State.startUp_good _ _ ?_
          exact ⟨h.1, rfl, h.2.2⟩

@[simp] theorem State.recResume_good (s : State)
    (h : Good q s.keep) : Good q (State.recResume s).keep := by
  unfold State.recResume
  split
  · exact State.recFinish_good _ _ h
  · exact h

@[simp] theorem State.railsOff_good (s : State) (phase : Nat) (halted : Bool)
    (h : Good q s.keep) : Good q (State.railsOff s phase halted).keep := by
  exact ⟨h.1, rfl, h.2.2⟩

@[simp] theorem State.regionRail_good (s : State) (r cause mv : Nat) (restarted : Bool)
    (h : Good q s.keep) : Good q (State.regionRail s r cause mv restarted).keep := by
  unfold State.regionRail
  dsimp only
  (repeat' split) <;> simp [h]

@[simp] theorem State.resume_good (s : State) (mv : Nat)
    (h : Good q s.keep) : Good q (State.resume s mv).keep := by
  unfold State.resume
  (repeat' split) <;> simp [h]

@[simp] theorem State.dueRegen_good (s : State) (n space addr : Nat)
    (h : Good q s.keep) : Good q (State.dueRegen s n space addr).keep := by
  unfold State.dueRegen
  (repeat' split) <;> first | (simp [h]; done) | (have hw := h.job ‹_›; simp [h, hw]; done)

@[simp] theorem State.readBlock_good (s : State) (j : Job) (l : MemLoc) (u : Nat × Nat) (x0 : EccOut)
    (h : Good q s.keep) (hj : j.memWf = true) : Good q (State.readBlock s j l u x0).keep := by
  unfold State.readBlock
  (repeat' split) <;> simp [h, hj]

@[simp] theorem State.scrubbed_good (s : State) (j : Job) (l : MemLoc) (u : Nat × Nat) (o : EccOut)
    (h : Good q s.keep) (hj : j.memWf = true) : Good q (State.scrubbed s j l u o).keep := by
  have ht := State.readBlock_good s j l u o h hj
  revert ht
  unfold State.scrubbed
  dsimp only
  generalize s.readBlock j l u o = t
  intro ht
  cases o
  · exact ht
  · exact ht
  · exact State.dueRegen_good _ _ _ _ ht
  · exact State.dueRegen_good _ _ _ _ ht

@[simp] theorem State.markLoose_keep (s : State) (l : MemLoc) : (State.markLoose s l).keep = s.keep := by
  unfold State.markLoose
  dsimp only
  (repeat' split) <;> rfl

@[simp] theorem State.uncorrLoose_keep (s : State) (l : MemLoc) (s0 s1 : Nat) :
    (State.uncorrLoose s l s0 s1).keep = s.keep := by
  unfold State.uncorrLoose
  dsimp only
  (repeat' split) <;> simp

@[simp] theorem State.uncorrLoose_good (s : State) (l : MemLoc) (s0 s1 : Nat)
    (h : Good q s.keep) : Good q (State.uncorrLoose s l s0 s1).keep := by
  rw [State.uncorrLoose_keep]
  exact h

@[simp] theorem State.scrubLoose_good (s : State) (l : MemLoc) (x0 : EccOut)
    (h : Good q s.keep) : Good q (State.scrubLoose s l x0).keep := by
  unfold State.scrubLoose
  (repeat' split) <;> simp [h]

@[simp] theorem State.readOut_good (s : State) (c : Nat) (es : List (MemLoc × EccOut))
    (h : Good q s.keep) : Good q (State.readOut s c es).keep := by
  unfold State.readOut
  refine good_foldl (fun s e h => ?_) _ h
  split
  · next j hj =>
    have hw := h.job hj
    split <;> simp [h, hw]
  · dsimp only
    split
    · exact State.scrubLoose_good _ _ _ h
    · exact h

@[simp] theorem State.retire_good (s : State) (c : Nat) (es : List (MemLoc × EccOut))
    (h : Good q s.keep) : Good q (State.retire s c es).keep := by
  simp [State.retire, h]

@[simp] theorem State.ageWrite_keep (s : State) (es : List W256) : (State.ageWrite s es).keep = s.keep := by
  unfold State.ageWrite
  dsimp only
  split
  · exact State.flashWrite_keep _ _
  · exact State.flashWrite_keep _ _

@[simp] theorem replanAll_good (x0 : Nat) (x1 : List RegionMeas) (x2 : State) (x3 : List W256)
    (h : Good q x2.keep) : Good q (replanAll x0 x1 x2 x3).1.keep := by
  induction x1 generalizing x0 x2 x3 with
  | nil => exact h
  | cons m t ih =>
    rw [replanAll]
    refine ih _ _ _ ?_
    rw [State.replan_keep]
    exact h

@[simp] theorem State.sendEntry_good (s : State) (n : Nat) (r : Ring) (k : W32)
    (h : Good q s.keep) : Good q (State.sendEntry s n r k).keep := by
  unfold State.sendEntry
  dsimp only
  (repeat' split) <;> simp [h]

@[simp] theorem State.sendEntries_good (s : State) (n : Nat) (r : Ring) (k : W32) (x0 : Nat)
    (h : Good q s.keep) : Good q (State.sendEntries s n r k x0).keep := by
  induction x0 generalizing s k with
  | zero => exact h
  | succ m ih =>
    have h2 : Good q (s.sendEntry n r k).keep := by simp [h]
    unfold State.sendEntries
    dsimp only
    split
    · split
      · exact h2
      · exact ih _ _ h2
    · exact h2

@[simp] theorem State.setTail_good (s : State) (n : Nat) (r : Ring) (v : W32)
    (h : Good q s.keep) : Good q (State.setTail s n r v).keep := by
  unfold State.setTail
  dsimp only
  (repeat' split) <;> simp [h]

@[simp] theorem State.setHead_good (s : State) (n : Nat) (r : Ring) (v : W32)
    (h : Good q s.keep) : Good q (State.setHead s n r v).keep := by
  unfold State.setHead
  (repeat' split) <;> simp [h]

@[simp] theorem State.doorbell_good (s : State) (v : W32)
    (h : Good q s.keep) : Good q (State.doorbell s v).keep := by
  unfold State.doorbell
  dsimp only
  (repeat' split) <;> simp [h]

@[simp] theorem State.cplPop_good (s : State) (v : W32)
    (h : Good q s.keep) : Good q (State.cplPop s v).keep := by
  unfold State.cplPop
  (repeat' split) <;> simp [h]

@[simp] theorem State.cmdPush_good (s : State) (v : W32)
    (h : Good q s.keep) : Good q (State.cmdPush s v).keep := by
  unfold State.cmdPush
  dsimp only
  (repeat' split) <;> simp [h]

@[simp] theorem State.regWrite_good (s : State) (side : Bool) (n o : Nat) (k : State → State)
    (h : Good q s.keep) (hk : ∀ s, Good q s.keep → Good q (k s).keep) : Good q (State.regWrite s side n o k).keep := by
  unfold State.regWrite
  split
  · exact hk _ h
  · exact h

@[simp] theorem State.fenceReq_good (s : State) (n : Nat)
    (h : Good q s.keep) : Good q (State.fenceReq s n).keep := by
  unfold State.fenceReq
  dsimp only
  (repeat' split) <;> simp [h]

@[simp] theorem State.unfenceReq_good (s : State) (n : Nat)
    (h : Good q s.keep) : Good q (State.unfenceReq s n).keep := by
  unfold State.unfenceReq
  dsimp only
  (repeat' split) <;> simp [h]

@[simp] theorem State.pageCtrl_good (s : State) (n : Nat) (data : W32)
    (h : Good q s.keep) : Good q (State.pageCtrl s n data).keep := by
  unfold State.pageCtrl
  dsimp only
  (repeat' split) <;> simp [h]

@[simp] theorem State.writeHead_good (s : State) (n o : Nat) (data : W32)
    (h : Good q s.keep) : Good q (State.writeHead s n o data).keep := by
  unfold State.writeHead
  dsimp only
  (repeat' split) <;> simp [h]

@[simp] theorem State.recCtl_good (s : State) (data : W32) (env : StartEnv)
    (h : Good q s.keep) : Good q (State.recCtl s data env).keep := by
  unfold State.recCtl
  dsimp only
  (repeat' split) <;> simp [h]

@[simp] theorem State.writeDev_good (s : State) (o : Nat) (data : W32) (env : StartEnv)
    (h : Good q s.keep) : Good q (State.writeDev s o data env).keep := by
  unfold State.writeDev
  dsimp only
  (repeat' split) <;> simp [h]

@[simp] theorem State.writeLedger_good (s : State) (o : Nat) (data : W32)
    (h : Good q s.keep) : Good q (State.writeLedger s o data).keep := by
  unfold State.writeLedger
  dsimp only
  (repeat' split) <;> simp [h]

@[simp] theorem State.regEffect_good (s : State) (n o : Nat) (data : W32) (env : StartEnv)
    (h : Good q s.keep) : Good q (State.regEffect s n o data env).keep := by
  unfold State.regEffect
  (repeat' split) <;> simp [h]

@[simp] theorem State.writeReg_good (s : State) (side : Bool) (off data : W32) (env : StartEnv)
    (h : Good q s.keep) : Good q (State.writeReg s side off data env).keep := by
  unfold State.writeReg
  dsimp only
  exact State.regWrite_good _ _ _ _ _ h (fun s h => by simp [h])

@[simp] theorem State.takeClaim_good (s : State) (p pos : Nat) (teller : BitVec 16)
    (h : Good q s.keep) : Good q (State.takeClaim s p pos teller).keep := by
  unfold State.takeClaim
  dsimp only
  (repeat' split) <;> simp [h]

@[simp] theorem State.trapJob_good (s : State) (j : Job) (r : Run)
    (h : Good q s.keep) : Good q (State.trapJob s j r).keep := by
  unfold State.trapJob
  dsimp only
  split
  · refine State.programFault_good _ _ _ _ _ ?_
    rw [foldl_keep (h := fun s r => by simp)]
    exact h
  · rw [foldl_keep (h := fun s r => by simp)]
    exact h

@[simp] theorem State.limitJob_good (s : State) (r : Run)
    (h : Good q s.keep) : Good q (State.limitJob s r).keep := by
  unfold State.limitJob
  dsimp only
  refine State.endJob_good _ _ _ ?_
  rw [State.raise_keep, foldl_keep (h := fun s r => by simp)]
  exact h

@[simp] theorem State.signOwn_keep (s : State) (j : Job) (r : Run) : (State.signOwn s j r).keep = s.keep :=
  State.mapRecvs_keep s _

@[simp] theorem State.checkRun_good (s : State) (j : Job) (r : Run)
    (h : Good q s.keep) : Good q (State.checkRun s j r).keep := by
  unfold State.checkRun
  dsimp only
  have h1 : ∀ (l : List Suspect) (r : Run), Good q (l.foldl (fun s u => s.verdict r u) s).keep := by
    intro l r
    rw [foldl_keep (h := fun s x => by simp)]
    exact h
  (repeat' split) <;> simp [h1]

@[simp] theorem State.reportPost_good (s : State) (j : Job) (r : Run)
    (h : Good q s.keep) : Good q (State.reportPost s j r).keep := by
  unfold State.reportPost
  dsimp only
  have h1 := State.pushCpl_good (q := q) s
    { opcode := 0xC0, flags := 0, job := j.num, cmdRing := 0, cmdSeq := 0, record := 0, section_ := 0, status := 0
      result0 := r.step.toNat, result1 := (r.gen + 1).toNat, ring := j.cplRing } h
  split
  · exact h1
  · next k hk =>
    have hw := h1.job hk
    split
    · exact h1
    · split
      · exact State.pushCpl_good _ _ (State.setJob_good h1 (by simp [hw]))
      · exact State.setJob_good h1 (by simp [hw])

@[simp] theorem State.postRun_good (s : State) (j : Job) (r : Run)
    (h : Good q s.keep) (hj : j.memWf = true) : Good q (State.postRun s j r).keep := by
  unfold State.postRun
  dsimp only
  rw [State.dropRun_keep]
  refine State.reportPost_good _ _ _ ?_
  generalize s.verifiedPart r = r
  have h1 : ∀ (t : State) (f : Fabric) , Good q t.keep → Good q ({ t with fab := f } : State).keep := fun _ _ h => h
  have h2 : ∀ (t : State) (w : List WBack) , Good q t.keep → Good q ({ t with wback := w } : State).keep := fun _ _ h => h
  have h3 : Good q ((s.setJob (j.post r)).exchange r).keep := by
    rw [State.exchange_keep]
    exact State.setJob_good h (Job.post_wf hj r)
  have h4 := h2 _ ((s.setJob (j.post r)).wback ++ (r.hbm.pages 4096).map (fun p => WBack.mk j.num p r.step.toNat s.time)) h3
  (repeat' split) <;> simp only [State.sample_keep, State.dropServed_keep] <;> refine h1 _ _ ?_ <;>
    rw [State.applyStage_keep] <;> exact h4

@[simp] theorem State.regenJob_good (s : State) (j : Job) (r : Option Run) (desc : Nat)
    (h : Good q s.keep) (hj : j.memWf = true) : Good q (State.regenJob s j r desc).keep := by
  unfold State.regenJob
  dsimp only
  split
  · simp [h]
  · next k hk =>
    have hw : k.memWf = true := State.regenerate_wf _ _ _ _ _ hj hk
    simp
    split <;> simp [h, hw]

@[simp] theorem State.finishLoad_good (s : State) (c : Cmd) (r : Reject)
    (h : Good q s.keep) : Good q (State.finishLoad s c r).keep := by
  simp [State.finishLoad, h]

@[simp] theorem State.makeResident_good (s : State) (c : Cmd) (j : Job)
    (h : Good q s.keep) (hj : j.memWf = true) : Good q (State.makeResident s c j).keep := by
  unfold State.makeResident
  dsimp only
  refine State.finishLoad_good _ _ _ ?_
  have e : ((s.remap.mapPages j).pending, (s.remap.mapPages j).jobs, (s.remap.mapPages j).out.hostMem)
      = (s.pending, s.jobs, s.out.hostMem) :=
    (State.mapPages_keep _ _).trans (State.remap_keep s)
  have e2 : (s.remap.pending, s.remap.jobs, s.remap.out.hostMem) = (s.pending, s.jobs, s.out.hostMem) := State.remap_keep s
  simp only [Prod.mk.injEq] at e e2
  rw [State.keep_mk, e.1, e2.2.1, e.2.2]
  refine ⟨h.1, ?_, h.2.2⟩
  simp only [List.all_append, Bool.and_eq_true]
  exact ⟨h.2.1, by simp [hj]⟩

@[simp] theorem State.resumeJob_good (s : State) (c : Cmd) (j : Job) (img : List Byte)
    (h : Good q s.keep) (hj : j.memWf = true) : Good q (State.resumeJob s c j img).keep := by
  unfold State.resumeJob
  dsimp only
  split
  · simp [h]
  · split
    · simp [h]
    · next k hk =>
      exact State.makeResident_good _ _ _ h (State.regenAll_wf _ _ _ (Job.takeImage_wf hj img) hk)

@[simp] theorem doJobLoad_good (s : State) (c : Cmd)
    (h : Good q s.keep) : Good q (doJobLoad s c).keep := by
  unfold doJobLoad
  dsimp only
  have hw : ∀ b, (c.load.job b).applyImages.memWf = true := fun b => Job.applyImages_wf (LoadCmd.job_wf _ _)
  (repeat' split) <;> simp [h, hw]

@[simp] theorem doAssayInstall_good (s : State) (c : Cmd)
    (h : Good q s.keep) : Good q (doAssayInstall s c).keep := by
  unfold doAssayInstall
  dsimp only
  (repeat' split) <;> simp [h]

@[simp] theorem doAssayRemove_good (s : State) (c : Cmd)
    (h : Good q s.keep) : Good q (doAssayRemove s c).keep := by
  unfold doAssayRemove
  dsimp only
  (repeat' split) <;> simp [h]

@[simp] theorem State.writeRegs_good (s : State) (addr : Nat) (named : Nat → Bool) (data : List Byte) (env : StartEnv)
    (n : Nat) (h : Good q s.keep) : Good q (State.writeRegs s addr named data env n).keep := by
  unfold State.writeRegs
  exact good_foldl (fun s i h => by split <;> simp [h]) _ h

@[simp] theorem State.recvWr_good (s : State) (p : Nat) (t : Txn) (chk : Chk) (env : StartEnv)
    (h : Good q s.keep) : Good q (State.recvWr s p t chk env).keep := by
  unfold State.recvWr
  (repeat' split) <;> simp [h]

@[simp] theorem State.aboutContrib_good (s : State) (p : Nat) (t : Txn) (k : State → Job → Incoming → State)
    (h : Good q s.keep) (hk : ∀ s j x, Good q s.keep → Good q (k s j x).keep) : Good q (State.aboutContrib s p t k).keep := by
  unfold State.aboutContrib
  (repeat' split) <;> first | (simp [h]; done) | exact hk _ _ _ h

@[simp] theorem State.poisonEntry_good (s : State) (r : Ring) (t : Txn)
    (h : Good q s.keep) : Good q (State.poisonEntry s r t).keep := by
  unfold State.poisonEntry
  split
  · next j hj =>
    split at hj
    · cases hj
    · have hw := (Job.memWf_iff j).mp (h.job hj)
      exact State.setJob_good h ((Job.memWf_iff _).mpr ⟨hw.1, hw.2.1, Mem.setPoison_wf hw.2.2 _ _⟩)
  · exact h

@[simp] theorem State.recvMsg_good (s : State) (p : Nat) (t : Txn)
    (h : Good q s.keep) : Good q (State.recvMsg s p t).keep := by
  unfold State.recvMsg
  dsimp only
  (repeat' split) <;> simp [h]

@[simp] theorem State.halt_good (s : State)
    (h : Good q s.keep) : Good q (State.halt s).keep := by
  unfold State.halt
  dsimp only
  rw [State.settle_keep]
  refine good_foldl (fun s j h => by simp [h]) _ ?_
  rw [State.keep_mk, State.keep_fold]
  exact h

end Sys2Proof.Machine
end

