-- ==== Sys2Proof/Laws/Exec.lean ====
section
/-! SUPPORT. Every command keeps the memories in their canonical form and the queue as it is: one lemma for each. -/

namespace Sys2Proof.Machine

/-- Where a command answers a next state, the queue there is `q` and the memories are in their canonical form. -/
def GoodOut (q : List Instr) : Host.Outcome State Fault Refusal → Prop
  | .next t => Good q t.keep
  | .fault _ => True
  | .refused _ => True

@[simp] theorem goodOut_next (q : List Instr) (t : State) : GoodOut q (.next t) ↔ Good q t.keep := Iff.rfl

@[simp] theorem goodOut_fault (q : List Instr) (f : Fault) : GoodOut q (.fault f) ↔ True := Iff.rfl

variable {q : List Instr}

@[simp] theorem State.wakeMill_keep (s t : State) (d : Nat) : (s.wakeMill t d).keep = t.keep := by
  unfold State.wakeMill
  (repeat' split) <;> simp

theorem State.takeTxn_keep {s s' : State} {p ty : Nat} {t : Txn} (h : s.takeTxn p ty = some (t, s')) :
    s'.keep = s.keep := by
  unfold State.takeTxn at h
  dsimp only at h
  split at h
  · split at h
    · simp only [Option.some.injEq, Prod.mk.injEq] at h
      simp [← h.2]
    · simp at h
  · simp at h

theorem minBy_mem {α : Type} {key : α → Nat} {l : List α} {a : α} (h : minBy key l = some a) : a ∈ l := by
  induction l generalizing a with
  | nil => simp [minBy] at h
  | cons b t ih =>
    unfold minBy at h
    split at h
    · simp_all
    · next c hc =>
      have := ih hc
      split at h <;> simp_all

@[simp] theorem Job.takeBatch_wf {j : Job} (hw : j.memWf = true) (b : Batch) : (j.takeBatch b).memWf = true := by
  have hw := (Job.memWf_iff j).mp hw
  exact (Job.memWf_iff _).mpr ⟨setNth_wf hw.1 (Mem.post_wf (nthD_wf hw.1 _) _) _, hw.2⟩

@[simp] theorem Job.withBatches_wf {j : Job} (hw : j.memWf = true) (bs : List Batch) : (j.withBatches bs).memWf = true :=
  foldl_keeps (p := fun k : Job => k.memWf = true) (fun _ b hk => Job.takeBatch_wf hk b) _ _ hw

@[simp] theorem Job.placed_wf {j : Job} (hw : j.memWf = true) (m moved : List Nat) : (j.placed m moved).memWf = true := hw

theorem execAssayRotation_good (die : Nat) (s : State) (h : Good q s.keep) :
    GoodOut q (execAssayRotation die s) := by
  unfold execAssayRotation
  dsimp only
  (repeat' split) <;> simp [h]

theorem execStepSelect_good (s : State) (h : Good q s.keep) :
    GoodOut q (execStepSelect s) := by
  have step (j : Job) (hw : j.memWf = true) (r : Run) (f : Run → Run) :
      Good q ((((((s.setJob (j.withBatches s.batches)).markBatches j).readReceived r).nameSwitch (f r).hosts).endDelay).beginRun
        (f r)).keep := by
    simp [h, hw]
  unfold execStepSelect
  dsimp only
  (repeat' split) <;> first | exact h | skip
  all_goals
    have hm := List.mem_filter.mp (minBy_mem ‹s.chosen = _›)
    have hw := List.all_eq_true.mp h.2.1 _ hm.1
    simp [h, hw]

theorem execStepBoundary_good (restored : Bool) (us : Nat) (s : State) (h : Good q s.keep) :
    GoodOut q (execStepBoundary restored us s) := by
  unfold execStepBoundary
  dsimp only
  split
  · exact h
  · simp only [goodOut_next, State.classEdge_keep, State.setAsy_keep, State.serveArrears_keep]
    refine State.borrowAll_good _ (State.assaySettle_good _ (State.applySwitch_good _ _ _ ?_))
    simp [h]

theorem execStepRun_good (f : Fetch) (s : State) (h : Good q s.keep) :
    GoodOut q (execStepRun f s) := by
  unfold execStepRun
  simp only [goodOut_next]
  refine State.command_good _ _ _ _ h (fun s c h => ?_)
  simp [h]

theorem execSnapshot_good (f : Fetch) (s : State) (h : Good q s.keep) :
    GoodOut q (execSnapshot f s) := by
  unfold execSnapshot
  simp only [goodOut_next]
  refine State.command_good _ _ _ _ h (fun s c h => ?_)
  simp [h]

theorem execJobEnd_good (f : Fetch) (s : State) (h : Good q s.keep) :
    GoodOut q (execJobEnd f s) := by
  unfold execJobEnd
  simp only [goodOut_next]
  refine State.command_good _ _ _ _ h (fun s c h => ?_)
  simp [h]

theorem execJobAbort_good (f : Fetch) (s : State) (h : Good q s.keep) :
    GoodOut q (execJobAbort f s) := by
  unfold execJobAbort
  simp only [goodOut_next]
  refine State.command_good _ _ _ _ h (fun s c h => ?_)
  simp [h]

theorem execRingAlloc_good (f : Fetch) (s : State) (h : Good q s.keep) :
    GoodOut q (execRingAlloc f s) := by
  unfold execRingAlloc
  simp only [goodOut_next]
  refine State.command_good _ _ _ _ h (fun s c h => ?_)
  simp [h]

theorem execRingFree_good (f : Fetch) (s : State) (h : Good q s.keep) :
    GoodOut q (execRingFree f s) := by
  unfold execRingFree
  simp only [goodOut_next]
  refine State.command_good _ _ _ _ h (fun s c h => ?_)
  simp [h]

theorem execSeqOpen_good (f : Fetch) (s : State) (h : Good q s.keep) :
    GoodOut q (execSeqOpen f s) := by
  unfold execSeqOpen
  simp only [goodOut_next]
  refine State.command_good _ _ _ _ h (fun s c h => ?_)
  simp [h]

theorem execSeqClose_good (f : Fetch) (s : State) (h : Good q s.keep) :
    GoodOut q (execSeqClose f s) := by
  unfold execSeqClose
  simp only [goodOut_next]
  refine State.command_good _ _ _ _ h (fun s c h => ?_)
  simp [h]

theorem execBoundary_good (f : Fetch) (s : State) (h : Good q s.keep) :
    GoodOut q (execBoundary f s) := by
  unfold execBoundary
  simp only [goodOut_next]
  refine State.command_good _ _ _ _ h (fun s c h => ?_)
  simp [h]

theorem execSequenceRequest_good (f : Fetch) (s : State) (h : Good q s.keep) :
    GoodOut q (execSequenceRequest f s) := by
  unfold execSequenceRequest
  simp only [goodOut_next]
  refine State.consumeEntry_good _ _ _ _ _ h (fun s c h => ?_)
  simp [h]

theorem execBoundaryMarker_good (f : Fetch) (s : State) (h : Good q s.keep) :
    GoodOut q (execBoundaryMarker f s) := by
  unfold execBoundaryMarker
  simp only [goodOut_next]
  refine State.consumeEntry_good _ _ _ _ _ h (fun s c h => ?_)
  simp [h]

theorem execBatchTimer_good (job : BitVec 16) (lcore rule : Nat) (s : State) (h : Good q s.keep) :
    GoodOut q (execBatchTimer job lcore rule s) := by
  unfold execBatchTimer
  (repeat' split) <;> simp [h]

theorem execAssayRequest_good (f : Fetch) (s : State) (h : Good q s.keep) :
    GoodOut q (execAssayRequest f s) := by
  unfold execAssayRequest
  simp only [goodOut_next]
  refine State.command_good _ _ _ _ h (fun s c h => ?_)
  simp [h]

theorem execDieBank_good (f : Fetch) (s : State) (h : Good q s.keep) :
    GoodOut q (execDieBank f s) := by
  unfold execDieBank
  simp only [goodOut_next]
  refine State.command_good _ _ _ _ h (fun s c h => ?_)
  simp [h]

theorem execFwStage_good (f : Fetch) (s : State) (h : Good q s.keep) :
    GoodOut q (execFwStage f s) := by
  unfold execFwStage
  simp only [goodOut_next]
  refine State.command_good _ _ _ _ h (fun s c h => ?_)
  simp [h]

theorem execFlashWriteEnd_good (s : State) (h : Good q s.keep) :
    GoodOut q (execFlashWriteEnd s) := by
  unfold execFlashWriteEnd
  (repeat' split) <;> simp [h]

theorem execFwSwitch_good (f : Fetch) (s : State) (h : Good q s.keep) :
    GoodOut q (execFwSwitch f s) := by
  unfold execFwSwitch
  simp only [goodOut_next]
  refine State.command_good _ _ _ _ h (fun s c h => ?_)
  simp [h]

theorem execFwCommit_good (f : Fetch) (s : State) (h : Good q s.keep) :
    GoodOut q (execFwCommit f s) := by
  unfold execFwCommit
  simp only [goodOut_next]
  refine State.command_good _ _ _ _ h (fun s c h => ?_)
  simp [h]

theorem execConfigInstall_good (f : Fetch) (s : State) (h : Good q s.keep) :
    GoodOut q (execConfigInstall f s) := by
  unfold execConfigInstall
  simp only [goodOut_next]
  refine State.command_good _ _ _ _ h (fun s c h => ?_)
  simp [h]

theorem execAttest_good (f : Fetch) (s : State) (h : Good q s.keep) :
    GoodOut q (execAttest f s) := by
  unfold execAttest
  simp only [goodOut_next]
  refine State.command_good _ _ _ _ h (fun s c h => ?_)
  simp [h]

theorem execWarmReset_good (f : Fetch) (env : StartEnv) (s : State) (h : Good q s.keep) :
    GoodOut q (execWarmReset f env s) := by
  unfold execWarmReset
  simp only [goodOut_next]
  refine State.command_good _ _ _ _ h (fun s c h => ?_)
  simp [h]

theorem execPerstN_good (env : StartEnv) (s : State) (h : Good q s.keep) :
    GoodOut q (execPerstN env s) := by
  simp [execPerstN, h]

theorem execHotReset_good (env : StartEnv) (s : State) (h : Good q s.keep) :
    GoodOut q (execHotReset env s) := by
  unfold execHotReset
  (repeat' split) <;> simp [h]

theorem execFlr_good (env : StartEnv) (s : State) (h : Good q s.keep) :
    GoodOut q (execFlr env s) := by
  unfold execFlr
  (repeat' split) <;> simp [h]

theorem execDevCtlReset_good (env : StartEnv) (s : State) (h : Good q s.keep) :
    GoodOut q (execDevCtlReset env s) := by
  simp [execDevCtlReset, h]

theorem execPowerUp_good (env : StartEnv) (s : State) (h : Good q s.keep) :
    GoodOut q (execPowerUp env s) := by
  have hb : Good q s.bare.keep := by simp [h]
  unfold execPowerUp
  dsimp only
  generalize s.bare = b at hb ⊢
  split
  · exact h
  · split
    · exact hb
    · split
      · split
        · exact State.startUp_good _ _ hb
        · refine (goodOut_next ..).mpr ?_
          rw [State.alertEdge_keep]
          exact hb
      · exact State.startUp_good _ _ hb

theorem execFinish_good (env : StartEnv) (s : State) (h : Good q s.keep) :
    GoodOut q (execFinish env s) := by
  simp [execFinish, h]

theorem execPowerCap_good (watts : Nat) (s : State) (h : Good q s.keep) :
    GoodOut q (execPowerCap watts s) := by
  unfold execPowerCap
  (repeat' split) <;> simp [h]

theorem execPowerOver_good (watts : Nat) (s : State) (h : Good q s.keep) :
    GoodOut q (execPowerOver watts s) := by
  unfold execPowerOver
  (repeat' split) <;> simp [h]

theorem execThermalCap_good (temps : List (BitVec 16)) (s : State) (h : Good q s.keep) :
    GoodOut q (execThermalCap temps s) := by
  unfold execThermalCap
  (repeat' split) <;> simp [h]

theorem execThermalAlert_good (point unit : Nat) (temp : BitVec 16) (s : State) (h : Good q s.keep) :
    GoodOut q (execThermalAlert point unit temp s) := by
  unfold execThermalAlert
  dsimp only
  (repeat' split) <;> simp [h]

theorem execThermalAlertClear_good (point unit : Nat) (temp : BitVec 16) (s : State) (h : Good q s.keep) :
    GoodOut q (execThermalAlertClear point unit temp s) := by
  unfold execThermalAlertClear
  dsimp only
  (repeat' split) <;> simp [h]

theorem execCoolant_good (inlet outlet : BitVec 16) (s : State) (h : Good q s.keep) :
    GoodOut q (execCoolant inlet outlet s) := by
  unfold execCoolant
  dsimp only
  (repeat' split) <;> simp [h]

theorem execThermtrip_good (point unit : Nat) (temp : BitVec 16) (s : State) (h : Good q s.keep) :
    GoodOut q (execThermtrip point unit temp s) := by
  unfold execThermtrip
  (repeat' split) <;> simp [h]

theorem execPowerLoss_good (mv : Nat) (pwrEn : Bool) (s : State) (h : Good q s.keep) :
    GoodOut q (execPowerLoss mv pwrEn s) := by
  unfold execPowerLoss
  (repeat' split) <;> simp [h]

theorem execRailFault_good (rail cause mv : Nat) (restarted : Bool) (s : State) (h : Good q s.keep) :
    GoodOut q (execRailFault rail cause mv restarted s) := by
  unfold execRailFault
  (repeat' split) <;> simp [h]

theorem execFlashGateClose_good (mv : Nat) (s : State) (h : Good q s.keep) :
    GoodOut q (execFlashGateClose mv s) := by
  unfold execFlashGateClose
  (repeat' split) <;> simp [h]

theorem execFlashGateOpen_good (mv : Nat) (s : State) (h : Good q s.keep) :
    GoodOut q (execFlashGateOpen mv s) := by
  unfold execFlashGateOpen
  dsimp only
  (repeat' split) <;> simp [h]

theorem execSagCap_good (mv : Nat) (s : State) (h : Good q s.keep) :
    GoodOut q (execSagCap mv s) := by
  unfold execSagCap
  (repeat' split) <;> simp [h]

theorem execSagCapEnd_good (mv : Nat) (s : State) (h : Good q s.keep) :
    GoodOut q (execSagCapEnd mv s) := by
  unfold execSagCapEnd
  (repeat' split) <;> simp [h]

theorem execQuiesce_good (mv : Nat) (s : State) (h : Good q s.keep) :
    GoodOut q (execQuiesce mv s) := by
  unfold execQuiesce
  (repeat' split) <;> simp [h]

theorem execQuiesceEnd_good (mv : Nat) (s : State) (h : Good q s.keep) :
    GoodOut q (execQuiesceEnd mv s) := by
  unfold execQuiesceEnd
  dsimp only
  (repeat' split) <;> simp [h]

theorem execOvervoltage_good (mv : Nat) (s : State) (h : Good q s.keep) :
    GoodOut q (execOvervoltage mv s) := by
  unfold execOvervoltage
  (repeat' split) <;> simp [h]

theorem execOvervoltageEnd_good (mv : Nat) (s : State) (h : Good q s.keep) :
    GoodOut q (execOvervoltageEnd mv s) := by
  unfold execOvervoltageEnd
  dsimp only
  (repeat' split) <;> simp [h]

theorem execScrub_good (l : MemLoc) (ecc : EccOut) (s : State) (h : Good q s.keep) :
    GoodOut q (execScrub l ecc s) := by
  unfold execScrub
  dsimp only
  (repeat' split) <;> first | (simp [h]; done) | (have hw := h.job ‹_›; simp [h, hw]; done)

theorem execEccRewrite_good (l : MemLoc) (bad : Bool) (s : State) (h : Good q s.keep) :
    GoodOut q (execEccRewrite l bad s) := by
  unfold execEccRewrite
  dsimp only
  (repeat' split) <;> first | (simp [h]; done) | (have hw := h.job ‹_›; simp [h, hw]; done)

theorem execRetirement_good (s : State) (h : Good q s.keep) :
    GoodOut q (execRetirement s) := by
  unfold execRetirement
  (repeat' split) <;> simp [h]

theorem execSparingRefill_good (s : State) (h : Good q s.keep) :
    GoodOut q (execSparingRefill s) := by
  unfold execSparingRefill
  (repeat' split) <;> simp [h]

theorem execRunTimeRetraining_good (chan : Nat) (ok : Bool) (s : State) (h : Good q s.keep) :
    GoodOut q (execRunTimeRetraining chan ok s) := by
  unfold execRunTimeRetraining
  (repeat' split) <;> simp [h]

theorem execArrearsPromoted_good (user arrears : Nat) (s : State) (h : Good q s.keep) :
    GoodOut q (execArrearsPromoted user arrears s) := by
  unfold execArrearsPromoted
  dsimp only
  (repeat' split) <;> simp [h]

theorem execAgeing_good (meas : List RegionMeas) (s : State) (h : Good q s.keep) :
    GoodOut q (execAgeing meas s) := by
  unfold execAgeing
  (repeat' split) <;> simp [h]

theorem execSummaryFold_good (s : State) (h : Good q s.keep) :
    GoodOut q (execSummaryFold s) := by
  unfold execSummaryFold
  dsimp only
  split
  · exact h
  · simp only [goodOut_next]
    refine good_foldl (fun s x h => ?_) _ h
    simpa using h

theorem execRefreshDoubled_good (stack : Nat) (temp : BitVec 16) (s : State) (h : Good q s.keep) :
    GoodOut q (execRefreshDoubled stack temp s) := by
  unfold execRefreshDoubled
  (repeat' split) <;> simp [h]

theorem execRefreshNormal_good (stack : Nat) (temp : BitVec 16) (s : State) (h : Good q s.keep) :
    GoodOut q (execRefreshNormal stack temp s) := by
  unfold execRefreshNormal
  (repeat' split) <;> simp [h]

theorem execBlankStrikeRampDown_good (core : StrikeEnd) (s : State) (h : Good q s.keep) :
    GoodOut q (execBlankStrikeRampDown core s) := by
  unfold execBlankStrikeRampDown
  dsimp only
  (repeat' split) <;> simp [h]

theorem execCounterLoRead_good (off : W32) (s : State) (h : Good q s.keep) :
    GoodOut q (execCounterLoRead off s) := by
  unfold execCounterLoRead
  (repeat' split) <;> simp [h]

theorem execEvtCount_good (page : Nat) (s : State) (h : Good q s.keep) :
    GoodOut q (execEvtCount page s) := by
  simp [execEvtCount, h]

theorem execMonCountLo_good (page : Nat) (s : State) (h : Good q s.keep) :
    GoodOut q (execMonCountLo page s) := by
  simp [execMonCountLo, h]

theorem execLdgDbDiscard_good (s : State) (h : Good q s.keep) :
    GoodOut q (execLdgDbDiscard s) := by
  simp [execLdgDbDiscard, h]

theorem execTelRelayTo_good (s : State) (h : Good q s.keep) :
    GoodOut q (execTelRelayTo s) := by
  simp [execTelRelayTo, h]

theorem execMsgResend_good (ring : Nat) (s : State) (h : Good q s.keep) :
    GoodOut q (execMsgResend ring s) := by
  unfold execMsgResend
  (repeat' split) <;> simp [h]

theorem execCpl_good (port : Nat) (s : State) (h : Good q s.keep) :
    GoodOut q (execCpl port s) := by
  unfold execCpl
  split
  · next ht => have ht := State.takeTxn_keep ht; simp [h, ht]
  · simp [h]

theorem execTagAbort_good (port tag : Nat) (s : State) (h : Good q s.keep) :
    GoodOut q (execTagAbort port tag s) := by
  unfold execTagAbort
  (repeat' split) <;> simp [h]

theorem execRelayTimeout_good (port tag : Nat) (s : State) (h : Good q s.keep) :
    GoodOut q (execRelayTimeout port tag s) := by
  unfold execRelayTimeout
  (repeat' split) <;> simp [h]

theorem execContribResend_good (send : Nat) (s : State) (h : Good q s.keep) :
    GoodOut q (execContribResend send s) := by
  unfold execContribResend
  (repeat' split) <;> simp [h]

theorem execFlitReceive_good (port : Nat) (flit : List Byte) (corrected : Nat) (s : State) (h : Good q s.keep) :
    GoodOut q (execFlitReceive port flit corrected s) := by
  unfold execFlitReceive
  dsimp only
  (repeat' split) <;> simp [h]

theorem execReplayRequest_good (port : Nat) (s : State) (h : Good q s.keep) :
    GoodOut q (execReplayRequest port s) := by
  unfold execReplayRequest
  dsimp only
  (repeat' split) <;> simp [h]

theorem execAckTimer_good (port : Nat) (s : State) (h : Good q s.keep) :
    GoodOut q (execAckTimer port s) := by
  unfold execAckTimer
  dsimp only
  (repeat' split) <;> simp [h]

theorem execSilenceTimer_good (port : Nat) (s : State) (h : Good q s.keep) :
    GoodOut q (execSilenceTimer port s) := by
  simp [execSilenceTimer, h]

theorem execSlowPartner_good (port vc : Nat) (s : State) (h : Good q s.keep) :
    GoodOut q (execSlowPartner port vc s) := by
  unfold execSlowPartner
  dsimp only
  (repeat' split) <;> simp [h]

theorem execLaneDrop_good (port lane : Nat) (s : State) (h : Good q s.keep) :
    GoodOut q (execLaneDrop port lane s) := by
  unfold execLaneDrop
  dsimp only
  (repeat' split) <;> simp [h]

theorem execTraining_good (port : Nat) (lanes partner : BitVec 8) (s : State) (h : Good q s.keep) :
    GoodOut q (execTraining port lanes partner s) := by
  simp [execTraining, h]

theorem execHello_good (port : Nat) (hello : Hello) (s : State) (h : Good q s.keep) :
    GoodOut q (execHello port hello s) := by
  simp [execHello, h]

theorem execResponse_good (port : Nat) (sigs : Sigs) (s : State) (h : Good q s.keep) :
    GoodOut q (execResponse port sigs s) := by
  simp [execResponse, h]

theorem execAuthFail_good (port order : Nat) (s : State) (h : Good q s.keep) :
    GoodOut q (execAuthFail port order s) := by
  simp [execAuthFail, h]

theorem execBindingForward_good (port : Nat) (id : BitVec 16) (digest : W64) (s : State) (h : Good q s.keep) :
    GoodOut q (execBindingForward port id digest s) := by
  unfold execBindingForward
  (repeat' split) <;> simp [h]

theorem execFolioClaim_good (port pos : Nat) (teller : FolioClaim) (s : State) (h : Good q s.keep) :
    GoodOut q (execFolioClaim port pos teller s) := by
  unfold execFolioClaim
  (repeat' split) <;> simp [h]

theorem execStepCheck_good (job : BitVec 16) (s : State) (h : Good q s.keep) :
    GoodOut q (execStepCheck job s) := by
  unfold execStepCheck
  (repeat' split) <;> simp [h]

theorem execRecountRun_good (job : BitVec 16) (s : State) (h : Good q s.keep) :
    GoodOut q (execRecountRun job s) := by
  unfold execRecountRun
  split
  · next j r hj hr =>
    have hw := h.job hj
    split
    · exact h
    · refine (?_ : ∀ m moved : List Nat, ∀ a : Run, GoodOut q (if a.hosts.any (fun p => decide (576 ≤ p)) then .next s else
          .next ((((s.setJob (j.placed m moved)).readyAll m moved).readReceived a).nextRun
            (resched j ((((s.setJob (j.placed m moved)).readyAll m moved).readReceived a).takeReceived j a))))) _ _ _
      intro m moved a
      split
      · exact h
      · simp [h, hw]
  · exact h

theorem execStepPost_good (job : BitVec 16) (s : State) (h : Good q s.keep) :
    GoodOut q (execStepPost job s) := by
  unfold execStepPost
  (repeat' split) <;> first | (simp [h]; done) | (have hw := h.job ‹_›; simp [h, hw]; done)

theorem execEscrowWriteBack_good (job : BitVec 16) (page : Nat) (s : State) (h : Good q s.keep) :
    GoodOut q (execEscrowWriteBack job page s) := by
  simp [execEscrowWriteBack, h]

theorem execJobEndEffect_good (job : BitVec 16) (s : State) (h : Good q s.keep) :
    GoodOut q (execJobEndEffect job s) := by
  unfold execJobEndEffect
  (repeat' split) <;> simp [h]

theorem execDieBankSwitch_good (core : Nat) (s : State) (h : Good q s.keep) :
    GoodOut q (execDieBankSwitch core s) := by
  unfold execDieBankSwitch
  dsimp only
  (repeat' split) <;> simp [h]

theorem execRegeneration_good (job : BitVec 16) (desc : BitVec 12) (s : State) (h : Good q s.keep) :
    GoodOut q (execRegeneration job desc s) := by
  unfold execRegeneration
  (repeat' split) <;> first | (simp [h]; done) | (have hw := h.job ‹_›; simp [h, hw]; done)

theorem execJobLoad_good (f : Fetch) (s : State) (h : Good q s.keep) :
    GoodOut q (execJobLoad f s) := by
  unfold execJobLoad
  simp only [goodOut_next]
  split
  · exact h
  · refine State.command_good _ _ _ _ h (fun s c h => ?_)
    simp [h]

theorem execRngFill_good (d : Nat) (chk : Chk) (s : State) (h : Good q s.keep) :
    GoodOut q (execRngFill d chk s) := by
  simp [execRngFill, h]

theorem execMillLoad_good (d : Nat) (chk : Chk) (s : State) (h : Good q s.keep) :
    GoodOut q (execMillLoad d chk s) := by
  simp [execMillLoad, h]

theorem execMillPass_good (d : Nat) (chk : Chk) (s : State) (h : Good q s.keep) :
    GoodOut q (execMillPass d chk s) := by
  simp [execMillPass, h]

theorem execAdd_good (d : Nat) (chk : Chk) (s : State) (h : Good q s.keep) :
    GoodOut q (execAdd d chk s) := by
  simp [execAdd, h]

theorem execSub_good (d : Nat) (chk : Chk) (s : State) (h : Good q s.keep) :
    GoodOut q (execSub d chk s) := by
  simp [execSub, h]

theorem execMul_good (d : Nat) (chk : Chk) (s : State) (h : Good q s.keep) :
    GoodOut q (execMul d chk s) := by
  simp [execMul, h]

theorem execMad_good (d : Nat) (chk : Chk) (s : State) (h : Good q s.keep) :
    GoodOut q (execMad d chk s) := by
  simp [execMad, h]

theorem execMin_good (d : Nat) (chk : Chk) (s : State) (h : Good q s.keep) :
    GoodOut q (execMin d chk s) := by
  simp [execMin, h]

theorem execMax_good (d : Nat) (chk : Chk) (s : State) (h : Good q s.keep) :
    GoodOut q (execMax d chk s) := by
  simp [execMax, h]

theorem execAbs_good (d : Nat) (chk : Chk) (s : State) (h : Good q s.keep) :
    GoodOut q (execAbs d chk s) := by
  simp [execAbs, h]

theorem execNeg_good (d : Nat) (chk : Chk) (s : State) (h : Good q s.keep) :
    GoodOut q (execNeg d chk s) := by
  simp [execNeg, h]

theorem execCvt_good (d : Nat) (chk : Chk) (s : State) (h : Good q s.keep) :
    GoodOut q (execCvt d chk s) := by
  simp [execCvt, h]

theorem execSel_good (d : Nat) (chk : Chk) (s : State) (h : Good q s.keep) :
    GoodOut q (execSel d chk s) := by
  simp [execSel, h]

theorem execCmpge_good (d : Nat) (chk : Chk) (s : State) (h : Good q s.keep) :
    GoodOut q (execCmpge d chk s) := by
  simp [execCmpge, h]

theorem execFinDrain_good (d : Nat) (chk : Chk) (s : State) (h : Good q s.keep) :
    GoodOut q (execFinDrain d chk s) := by
  simp [execFinDrain, h]

theorem execFinReduce_good (d : Nat) (chk : Chk) (s : State) (h : Good q s.keep) :
    GoodOut q (execFinReduce d chk s) := by
  simp [execFinReduce, h]

theorem execFinCheck_good (d : Nat) (chk : Chk) (s : State) (h : Good q s.keep) :
    GoodOut q (execFinCheck d chk s) := by
  simp [execFinCheck, h]

theorem execFrmEval_good (d : Nat) (chk : Chk) (s : State) (h : Good q s.keep) :
    GoodOut q (execFrmEval d chk s) := by
  simp [execFrmEval, h]

theorem execFrmSmaxAcc_good (d : Nat) (chk : Chk) (s : State) (h : Good q s.keep) :
    GoodOut q (execFrmSmaxAcc d chk s) := by
  simp [execFrmSmaxAcc, h]

theorem execFrmSmaxOut_good (d : Nat) (chk : Chk) (s : State) (h : Good q s.keep) :
    GoodOut q (execFrmSmaxOut d chk s) := by
  simp [execFrmSmaxOut, h]

theorem execFrmRms_good (d : Nat) (chk : Chk) (s : State) (h : Good q s.keep) :
    GoodOut q (execFrmRms d chk s) := by
  simp [execFrmRms, h]

theorem execAssayRunEnd_good (core : Nat) (run : AssayRun) (s : State) (h : Good q s.keep) :
    GoodOut q (execAssayRunEnd core run s) := by
  unfold execAssayRunEnd
  dsimp only
  (repeat' split) <;> simp [h]

theorem execAssayRunLimit_good (core : Nat) (s : State) (h : Good q s.keep) :
    GoodOut q (execAssayRunLimit core s) := by
  unfold execAssayRunLimit
  dsimp only
  (repeat' split) <;> first | exact h | skip
  simp only [goodOut_next]
  refine State.assayOutcome_good _ _ _ _ _ ?_
  exact h

theorem execAssayInstall_good (f : Fetch) (s : State) (h : Good q s.keep) :
    GoodOut q (execAssayInstall f s) := by
  unfold execAssayInstall
  simp only [goodOut_next]
  refine State.command_good _ _ _ _ h (fun s c h => ?_)
  simp [h]

theorem execAssayRemove_good (f : Fetch) (s : State) (h : Good q s.keep) :
    GoodOut q (execAssayRemove f s) := by
  unfold execAssayRemove
  simp only [goodOut_next]
  refine State.command_good _ _ _ _ h (fun s c h => ?_)
  simp [h]

theorem execNop_good (d : Nat) (chk : Chk) (s : State) (h : Good q s.keep) :
    GoodOut q (execNop d chk s) := by
  unfold execNop
  (repeat' split) <;> simp [h]

theorem execStepBegin_good (d : ControlRec) (s : State) (h : Good q s.keep) :
    GoodOut q (execStepBegin d s) := by
  simp [execStepBegin, h]

theorem execStepEnd_good (d : ControlRec) (s : State) (h : Good q s.keep) :
    GoodOut q (execStepEnd d s) := by
  simp [execStepEnd, h]

theorem execMove_good (d : Nat) (chk : Chk) (s : State) (h : Good q s.keep) :
    GoodOut q (execMove d chk s) := by
  simp [execMove, h]

theorem execMoveLands_good (d idx : Nat) (chk : Chk) (s : State) (h : Good q s.keep) :
    GoodOut q (execMoveLands d idx chk s) := by
  simp [execMoveLands, h]

theorem execAtomT256_good (d : Nat) (chk : Chk) (s : State) (h : Good q s.keep) :
    GoodOut q (execAtomT256 d chk s) := by
  simp [execAtomT256, h]

theorem execAtomFp32_good (d : Nat) (chk : Chk) (s : State) (h : Good q s.keep) :
    GoodOut q (execAtomFp32 d chk s) := by
  simp [execAtomFp32, h]

theorem execCollSend_good (d : Nat) (chk : Chk) (s : State) (h : Good q s.keep) :
    GoodOut q (execCollSend d chk s) := by
  simp [execCollSend, h]

theorem execRecordComplete_good (d idx : Nat) (s : State) (h : Good q s.keep) :
    GoodOut q (execRecordComplete d idx s) := by
  simp [execRecordComplete, h]

theorem execPortEnable_good (port : Nat) (on : Bool) (s : State) (h : Good q s.keep) :
    GoodOut q (execPortEnable port on s) := by
  simp [execPortEnable, h]

theorem execFenceReq_good (page : Nat) (s : State) (h : Good q s.keep) :
    GoodOut q (execFenceReq page s) := by
  unfold execFenceReq
  simp only [goodOut_next]
  refine State.regWrite_good _ _ _ _ _ h (fun s h => ?_)
  simp [h]

theorem execUnfenceReq_good (page : Nat) (s : State) (h : Good q s.keep) :
    GoodOut q (execUnfenceReq page s) := by
  unfold execUnfenceReq
  simp only [goodOut_next]
  refine State.regWrite_good _ _ _ _ _ h (fun s h => ?_)
  simp [h]

theorem execStageCommit_good (page : Nat) (s : State) (h : Good q s.keep) :
    GoodOut q (execStageCommit page s) := by
  simp [execStageCommit, h]

theorem execDevCtl_good (data : W32) (s : State) (h : Good q s.keep) :
    GoodOut q (execDevCtl data s) := by
  simp [execDevCtl, h]

theorem execEvtForce_good (page : Nat) (data : W32) (s : State) (h : Good q s.keep) :
    GoodOut q (execEvtForce page data s) := by
  simp [execEvtForce, h]

theorem execFwdData_good (write : Bool) (data : W32) (s : State) (h : Good q s.keep) :
    GoodOut q (execFwdData write data s) := by
  unfold execFwdData
  (repeat' split) <;> simp [h]

theorem execRecData_good (data : W32) (s : State) (h : Good q s.keep) :
    GoodOut q (execRecData data s) := by
  simp [execRecData, h]

theorem execPieceDone_good (s : State) (h : Good q s.keep) :
    GoodOut q (execPieceDone s) := by
  simp [execPieceDone, h]

theorem execAbort_good (s : State) (h : Good q s.keep) :
    GoodOut q (execAbort s) := by
  simp [execAbort, h]

theorem execLdgDbValue_good (data : W32) (s : State) (h : Good q s.keep) :
    GoodOut q (execLdgDbValue data s) := by
  unfold execLdgDbValue
  simp only [goodOut_next]
  refine State.regWrite_good _ _ _ _ _ h (fun s h => ?_)
  simp [h]

theorem execErrPop_good (data : W32) (s : State) (h : Good q s.keep) :
    GoodOut q (execErrPop data s) := by
  simp [execErrPop, h]

theorem execErrIrq_good (data : W32) (s : State) (h : Good q s.keep) :
    GoodOut q (execErrIrq data s) := by
  simp [execErrIrq, h]

theorem execAdmCmdPush_good (data : W32) (s : State) (h : Good q s.keep) :
    GoodOut q (execAdmCmdPush data s) := by
  unfold execAdmCmdPush
  simp only [goodOut_next]
  refine State.regWrite_good _ _ _ _ _ h (fun s h => ?_)
  simp [h]

theorem execAdmCplPop_good (data : W32) (s : State) (h : Good q s.keep) :
    GoodOut q (execAdmCplPop data s) := by
  unfold execAdmCplPop
  simp only [goodOut_next]
  refine State.regWrite_good _ _ _ _ _ h (fun s h => ?_)
  simp [h]

theorem execCounterLoWrite_good (off data : W32) (s : State) (h : Good q s.keep) :
    GoodOut q (execCounterLoWrite off data s) := by
  unfold execCounterLoWrite
  dsimp only
  (repeat' split) <;> simp [h]

theorem execCounterHiWrite_good (off data : W32) (s : State) (h : Good q s.keep) :
    GoodOut q (execCounterHiWrite off data s) := by
  unfold execCounterHiWrite
  dsimp only
  (repeat' split) <;> simp [h]

theorem execMonSel_good (page : Nat) (data : W32) (s : State) (h : Good q s.keep) :
    GoodOut q (execMonSel page data s) := by
  simp [execMonSel, h]

theorem execMonCtlClear_good (page : Nat) (s : State) (h : Good q s.keep) :
    GoodOut q (execMonCtlClear page s) := by
  simp [execMonCtlClear, h]

theorem execSnap_good (s : State) (h : Good q s.keep) :
    GoodOut q (execSnap s) := by
  simp [execSnap, h]

theorem execClearAll_good (s : State) (h : Good q s.keep) :
    GoodOut q (execClearAll s) := by
  simp [execClearAll, h]

theorem execMonitorSample_good (page quantity : Nat) (value : Int) (s : State) (h : Good q s.keep) :
    GoodOut q (execMonitorSample page quantity value s) := by
  unfold execMonitorSample
  (repeat' split) <;> simp [h]

theorem execBurWinSel_good (data : W32) (s : State) (h : Good q s.keep) :
    GoodOut q (execBurWinSel data s) := by
  simp [execBurWinSel, h]

theorem execCoreWinSel_good (core : Nat) (data : W32) (s : State) (h : Good q s.keep) :
    GoodOut q (execCoreWinSel core data s) := by
  simp [execCoreWinSel, h]

theorem execRelease_good (port : Nat) (s : State) (h : Good q s.keep) :
    GoodOut q (execRelease port s) := by
  simp [execRelease, h]

theorem execFolioEnt_good (pos : Nat) (data : W32) (s : State) (h : Good q s.keep) :
    GoodOut q (execFolioEnt pos data s) := by
  simp [execFolioEnt, h]

theorem execRegisterWrite_good (off data : W32) (env : StartEnv) (s : State) (h : Good q s.keep) :
    GoodOut q (execRegisterWrite off data env s) := by
  unfold execRegisterWrite
  (repeat' split) <;> simp [h]

theorem execMsixUnmask_good (vector : MsixWrite) (s : State) (h : Good q s.keep) :
    GoodOut q (execMsixUnmask vector s) := by
  unfold execMsixUnmask
  dsimp only
  (repeat' split) <;> simp [h]

theorem execRd_good (port : Nat) (s : State) (h : Good q s.keep) :
    GoodOut q (execRd port s) := by
  unfold execRd
  split
  · next ht => have ht := State.takeTxn_keep ht; simp [h, ht]
  · simp [h]

theorem execWr_good (port : Nat) (chk : Chk) (env : StartEnv) (s : State) (h : Good q s.keep) :
    GoodOut q (execWr port chk env s) := by
  unfold execWr
  split
  · next ht => have ht := State.takeTxn_keep ht; simp [h, ht]
  · simp [h]

theorem execAt256_good (port : Nat) (chk : Chk) (s : State) (h : Good q s.keep) :
    GoodOut q (execAt256 port chk s) := by
  unfold execAt256
  split
  · next ht => have ht := State.takeTxn_keep ht; simp [h, ht]
  · simp [h]

theorem execAfp32_good (port : Nat) (chk : Chk) (s : State) (h : Good q s.keep) :
    GoodOut q (execAfp32 port chk s) := by
  unfold execAfp32
  split
  · next ht => have ht := State.takeTxn_keep ht; simp [h, ht]
  · simp [h]

theorem execCsgn_good (port : Nat) (s : State) (h : Good q s.keep) :
    GoodOut q (execCsgn port s) := by
  unfold execCsgn
  split
  · next ht => have ht := State.takeTxn_keep ht; simp [h, ht]
  · simp [h]

theorem execVoid_good (port : Nat) (s : State) (h : Good q s.keep) :
    GoodOut q (execVoid port s) := by
  unfold execVoid
  split
  · next ht => have ht := State.takeTxn_keep ht; simp [h, ht]
  · simp [h]

theorem execDb_good (port : Nat) (s : State) (h : Good q s.keep) :
    GoodOut q (execDb port s) := by
  unfold execDb
  split
  · next ht => have ht := State.takeTxn_keep ht; simp [h, ht]
  · simp [h]

theorem execMsg_good (port : Nat) (s : State) (h : Good q s.keep) :
    GoodOut q (execMsg port s) := by
  unfold execMsg
  split
  · next ht => have ht := State.takeTxn_keep ht; simp [h, ht]
  · simp [h]

theorem execIntr_good (port : Nat) (s : State) (h : Good q s.keep) :
    GoodOut q (execIntr port s) := by
  unfold execIntr
  split
  · next ht => have ht := State.takeTxn_keep ht; simp [h, ht]
  · simp [h]

theorem execCollWait_good (job : CollTimeout) (s : State) (h : Good q s.keep) :
    GoodOut q (execCollWait job s) := by
  unfold execCollWait
  (repeat' split) <;> simp [h]

theorem execRelayRead_good (pos : Nat) (off : W32) (s : State) (h : Good q s.keep) :
    GoodOut q (execRelayRead pos off s) := by
  unfold execRelayRead
  (repeat' split) <;> simp [h]

theorem execRelayWrite_good (pos : Nat) (off : W32) (data : W32) (env : StartEnv) (s : State) (h : Good q s.keep) :
    GoodOut q (execRelayWrite pos off data env s) := by
  unfold execRelayWrite
  (repeat' split) <;> simp [h]

theorem execSidebandRead_good (off : W32) (ok : Bool) (s : State) (h : Good q s.keep) :
    GoodOut q (execSidebandRead off ok s) := by
  unfold execSidebandRead
  (repeat' split) <;> simp [h]

theorem execSidebandWrite_good (off data : W32) (ok : Bool) (env : StartEnv) (s : State) (h : Good q s.keep) :
    GoodOut q (execSidebandWrite off data ok env s) := by
  unfold execSidebandWrite
  (repeat' split) <;> simp [h]

theorem execSidebandAlert_good (off : W32) (ok : Bool) (s : State) (h : Good q s.keep) :
    GoodOut q (execSidebandAlert off ok s) := by
  unfold execSidebandAlert
  (repeat' split) <;> simp [h]

theorem execSidebandReset_good (off : W32) (ok : Bool) (env : StartEnv) (s : State) (h : Good q s.keep) :
    GoodOut q (execSidebandReset off ok env s) := by
  unfold execSidebandReset
  (repeat' split) <;> simp [h]

theorem execEntdaa_good (addr : BitVec 7) (s : State) (h : Good q s.keep) :
    GoodOut q (execEntdaa addr s) := by
  simp [execEntdaa, h]

theorem execSetdasa_good (static addr : BitVec 7) (s : State) (h : Good q s.keep) :
    GoodOut q (execSetdasa static addr s) := by
  simp [execSetdasa, h]

theorem execRstdaa_good (s : State) (h : Good q s.keep) :
    GoodOut q (execRstdaa s) := by
  simp [execRstdaa, h]

theorem execEnec_good (s : State) (h : Good q s.keep) :
    GoodOut q (execEnec s) := by
  simp [execEnec, h]

theorem execDisec_good (s : State) (h : Good q s.keep) :
    GoodOut q (execDisec s) := by
  simp [execDisec, h]

theorem execGetpid_good (s : State) (h : Good q s.keep) :
    GoodOut q (execGetpid s) := by
  simp [execGetpid, h]

theorem execGetbcr_good (s : State) (h : Good q s.keep) :
    GoodOut q (execGetbcr s) := by
  simp [execGetbcr, h]

theorem execGetdcr_good (s : State) (h : Good q s.keep) :
    GoodOut q (execGetdcr s) := by
  simp [execGetdcr, h]

theorem execGetstatus_good (s : State) (h : Good q s.keep) :
    GoodOut q (execGetstatus s) := by
  simp [execGetstatus, h]

theorem execRstact_good (action : Byte) (env : StartEnv) (s : State) (h : Good q s.keep) :
    GoodOut q (execRstact action env s) := by
  unfold execRstact
  (repeat' split) <;> simp [h]

theorem execWatchdog_good (job : BitVec 16) (limit elapsed die : Nat) (s : State) (h : Good q s.keep) :
    GoodOut q (execWatchdog job limit elapsed die s) := by
  unfold execWatchdog
  (repeat' split) <;> simp [h]

theorem execLockstep_good (pc0 pc1 : W64) (s : State) (h : Good q s.keep) :
    GoodOut q (execLockstep pc0 pc1 s) := by
  unfold execLockstep
  dsimp only
  (repeat' split) <;> simp [h]

end Sys2Proof.Machine
end

