-- ==== Sys2Proof/Laws/Placed.lean ====
section
/-! SUPPORT. The functions that leave the supply, device time and the placement alone: one lemma for each. -/

namespace Sys2Proof.Machine

@[simp] theorem State.placed_mk (a1 a2 a3 a4 a5 a6 a7 a8 a9 a10 a11 a12 a13 a14 a15 a16 a17 a18 a19 a20 a21 a22 a23 a24 a25 a26 a27 a28 a29 a30 a31 a32 a33 a34 a35 a36 a37) :
    State.placed ⟨a1, a2, a3, a4, a5, a6, a7, a8, a9, a10, a11, a12, a13, a14, a15, a16, a17, a18, a19, a20, a21, a22, a23, a24, a25, a26, a27, a28, a29, a30, a31, a32, a33, a34, a35, a36, a37⟩ = (a3, a5, a6, a7, a8, a18, a19, a20, a21, a22, a23) := rfl

@[simp] theorem State.placed_fold (s : State) :
    (s.time, s.mod, s.i3c, s.regions, s.fabrics, s.dieRecs, s.lmap, s.hbmMap, s.spared, s.hbmBytes, s.spareGb) = s.placed := rfl

@[simp] theorem placed_ite (c : Prop) [Decidable c] (s t : State) : (if c then s else t).placed = if c then s.placed else t.placed := by
  split <;> rfl

theorem foldl_placed {τ : Type} {f : State → τ → State} (h : ∀ s x, (f s x).placed = s.placed) :
    ∀ (l : List τ) (s : State), (l.foldl f s).placed = s.placed
  | [], _ => rfl
  | x :: t, s => (foldl_placed h t (f s x)).trans (h s x)

@[simp] theorem State.setPort_placed (s : State) (p : Nat) (q : Port) :
    (State.setPort s p q).placed = s.placed := by
  rfl

@[simp] theorem State.trySend_placed (s : State) (t : Txn) (u : TagUse) :
    (State.trySend s t u).1.placed = s.placed := by
  simp only [State.trySend]
  (repeat' split) <;> simp

@[simp] theorem State.sendReq_placed (s : State) (t : Txn) (u : TagUse) :
    (State.sendReq s t u).placed = s.placed := by
  simp [State.sendReq]

@[simp] theorem State.complete_placed (s : State) (inPort : Nat) (req : Txn) (status : Nat) (poison : Nat) (data : List Byte) :
    (State.complete s inPort req status poison data).placed = s.placed := by
  rfl

@[simp] theorem State.setPage_placed (s : State) (n : Nat) (p : Page) :
    (State.setPage s n p).placed = s.placed := by
  rfl

@[simp] theorem State.setCore_placed (s : State) (p : Nat) (c : CoreHw) :
    (State.setCore s p c).placed = s.placed := by
  rfl

@[simp] theorem State.setChan_placed (s : State) (c : Nat) (x : Chan) :
    (State.setChan s c x).placed = s.placed := by
  rfl

@[simp] theorem State.setDie_placed (s : State) (b : Nat) (x : BaseDie) :
    (State.setDie s b x).placed = s.placed := by
  rfl

@[simp] theorem State.setRing_placed (s : State) (n : Nat) (r : Ring) :
    (State.setRing s n r).placed = s.placed := by
  rfl

@[simp] theorem State.interrupt_placed (s : State) (v : BitVec 11) :
    (State.interrupt s v).placed = s.placed := by
  simp only [State.interrupt]
  (repeat' split) <;> simp

@[simp] theorem State.evtEdge_placed (s : State) :
    (State.evtEdge s).placed = s.placed := by
  simp [State.evtEdge]

@[simp] theorem State.markPage_placed (s : State) (n cls count : Nat) :
    (State.markPage s n cls count).placed = s.placed := by
  simp [State.markPage]

@[simp] theorem State.ledger_placed (s : State) (ws : List W64) :
    (State.ledger s ws).placed = s.placed := by
  simp only [State.ledger]
  (repeat' split) <;> simp

@[simp] theorem State.setSummary_placed (s : State) (k : Nat) (e : Summary) :
    (State.setSummary s k e).placed = s.placed := by
  rfl

@[simp] theorem State.noteUnit_placed (s : State) (e : Evt) :
    (State.noteUnit s e).placed = s.placed := by
  simp [State.noteUnit]

@[simp] theorem State.raise_placed (s : State) (e : Evt) :
    (State.raise s e).placed = s.placed := by
  simp [State.raise]

@[simp] theorem State.raiseQuiet_placed (s : State) (e : Evt) :
    (State.raiseQuiet s e).placed = s.placed := by
  simp [State.raiseQuiet]

@[simp] theorem State.errInterrupt_placed (s : State) :
    (State.errInterrupt s).placed = s.placed := by
  simp [State.errInterrupt]

@[simp] theorem State.countPage_placed (s : State) (n count : Nat) :
    (State.countPage s n count).placed = s.placed := by
  rfl

@[simp] theorem State.infoEvent_placed (s : State) (job step : Nat) (cls : Option Nat) :
    (State.infoEvent s job step cls).placed = s.placed := by
  unfold State.infoEvent
  dsimp only
  (repeat' split) <;> simp

@[simp] theorem State.lockBreakIf_placed (s : State) (p : Run → Bool) :
    (State.lockBreakIf s p).placed = s.placed := by
  unfold State.lockBreakIf
  dsimp only
  rw [foldl_placed]
  · simp
  · intro s x
    simp

@[simp] theorem State.lockBreak_placed (s : State) :
    (State.lockBreak s).placed = s.placed := by
  simp [State.lockBreak]

@[simp] theorem State.lockBreakJob_placed (s : State) (job : Nat) :
    (State.lockBreakJob s job).placed = s.placed := by
  simp [State.lockBreakJob]

@[simp] theorem State.sample_placed (s : State) (page quantity : Nat) (v : Int) :
    (State.sample s page quantity v).placed = s.placed := by
  rfl

@[simp] theorem State.classEdge_placed (s : State) :
    (State.classEdge s).placed = s.placed := by
  simp [State.classEdge]

@[simp] theorem State.matchBanks_placed (s : State) (p : Nat) :
    (State.matchBanks s p).placed = s.placed := by
  simp only [State.matchBanks]
  (repeat' split) <;> simp

@[simp] theorem State.readyBanks_placed (s : State) (p : Nat) :
    (State.readyBanks s p).placed = s.placed := by
  simp only [State.readyBanks]
  (repeat' split) <;> simp

@[simp] theorem State.flashWrite_placed (s : State) (w : FlashWrite) :
    (State.flashWrite s w).1.placed = s.placed := by
  simp only [State.flashWrite]
  (repeat' split) <;> simp

@[simp] theorem State.drainFlash_placed (s : State) :
    (State.drainFlash s).placed = s.placed := by
  rfl

@[simp] theorem State.summaryNow_placed (s : State) (k : Nat) :
    (State.summaryNow s k).placed = s.placed := by
  simp [State.summaryNow]

@[simp] theorem State.pageReset_placed (s : State) (n : Nat) :
    (State.pageReset s n).placed = s.placed := by
  rfl

@[simp] theorem State.coreReset_placed (s : State) (p : Nat) :
    (State.coreReset s p).placed = s.placed := by
  rfl

@[simp] theorem State.markFenced_placed (s : State) (utype punit : Nat) :
    (State.markFenced s utype punit).placed = s.placed := by
  simp [State.markFenced]

@[simp] theorem State.markDegraded_placed (s : State) (utype punit : Nat) :
    (State.markDegraded s utype punit).placed = s.placed := by
  rfl

@[simp] theorem State.countTransient_placed (s : State) (utype punit cause : Nat) :
    (State.countTransient s utype punit cause).placed = s.placed := by
  simp [State.countTransient]

@[simp] theorem State.setJob_placed (s : State) (j : Job) :
    (State.setJob s j).placed = s.placed := by
  rfl

@[simp] theorem State.setRun_placed (s : State) (r : Run) :
    (State.setRun s r).placed = s.placed := by
  rfl

@[simp] theorem State.dropRun_placed (s : State) (job : Nat) :
    (State.dropRun s job).placed = s.placed := by
  rfl

@[simp] theorem State.hostWrite_placed (s : State) (addr : Nat) (bs : List Byte) :
    (State.hostWrite s addr bs).placed = s.placed := by
  unfold State.hostWrite
  split
  · rfl
  · split
    · rfl
    · rw [foldl_placed]
      · rfl
      · intro s x
        simp

@[simp] theorem State.sendEntryWr_placed (s : State) (n : Nat) (k : W32) (t : Txn) :
    (State.sendEntryWr s n k t).placed = s.placed := by
  simp [State.sendEntryWr]

@[simp] theorem State.produceFar_placed (s : State) (n : Nat) (r : Ring) (ws : List W64) :
    (State.produceFar s n r ws).placed = s.placed := by
  unfold State.produceFar
  dsimp only
  split
  · rfl
  · rw [foldl_placed]
    · simp
    · intro s x
      simp

@[simp] theorem State.produce_placed (s : State) (n : Nat) (r : Ring) (ws : List W64) :
    (State.produce s n r ws).placed = s.placed := by
  simp only [State.produce]
  (repeat' split) <;> simp

@[simp] theorem State.ringIrq_placed (s : State) (n : Nat) (r : Ring) :
    (State.ringIrq s n r).placed = s.placed := by
  simp [State.ringIrq]

@[simp] theorem State.produceIrq_placed (s : State) (n : Nat) (r : Ring) (ws : List W64) :
    (State.produceIrq s n r ws).placed = s.placed := by
  simp [State.produceIrq]

@[simp] theorem State.putCpl_placed (s : State) (n : Nat) (r : Ring) (c : Completion) :
    (State.putCpl s n r c).placed = s.placed := by
  simp [State.putCpl]

@[simp] theorem State.passTail_placed (s : State) (n : Nat) (r : Ring) :
    (State.passTail s n r).placed = s.placed := by
  unfold State.passTail
  dsimp only
  rw [foldl_placed]
  · simp
  · intro s x
    simp

@[simp] theorem State.entryDone_placed (s : State) (n : Nat) (k : W32) (t : Txn) (status : Nat) :
    (State.entryDone s n k t status).placed = s.placed := by
  simp only [State.entryDone]
  (repeat' split) <;> simp

@[simp] theorem State.hostResend_placed (s : State) :
    (State.hostResend s).placed = s.placed := by
  unfold State.hostResend
  dsimp only
  rw [foldl_placed]
  · simp
  · intro s x
    simp

@[simp] theorem State.hostFetch_placed (s : State) (addr n : Nat) :
    (State.hostFetch s addr n).placed = s.placed := by
  unfold State.hostFetch
  split
  · rfl
  · split
    · rfl
    · rw [foldl_placed]
      intro s x
      simp

@[simp] theorem State.pushCpl_placed (s : State) (c : Completion) :
    (State.pushCpl s c).placed = s.placed := by
  simp only [State.pushCpl]
  (repeat' split) <;> simp

@[simp] theorem State.drainList_placed (s : State) (x0 : List Completion) :
    (State.drainList s x0).1.placed = s.placed := by
  induction x0 generalizing s with
  | nil => rfl
  | cons c t ih =>
    unfold State.drainList
    split
    · exact ih s
    · split
      · rw [ih]; simp
      · rfl

@[simp] theorem State.drainCpl_placed (s : State) :
    (State.drainCpl s).placed = s.placed := by
  have hj (s : State) (j : Job) : (match s.job j.num with
      | some j =>
        let r := s.drainList j.queued
        (match r.1.job j.num with
         | some k => r.1.setJob { k with queued := r.2 }
         | none => r.1)
      | none => s).placed = s.placed := by
    split
    · dsimp only
      split <;> simp
    · rfl
  unfold State.drainCpl
  exact (foldl_placed (fun s j => hj s j) _ _).trans (State.drainList_placed s s.queued0)

@[simp] theorem State.finish_placed (s : State) (c : Cmd) (status : Nat) :
    (State.finish s c status).placed = s.placed := by
  simp [State.finish]

@[simp] theorem State.finishWith_placed (s : State) (c : Cmd) (r0 r1 : Nat) :
    (State.finishWith s c r0 r1).placed = s.placed := by
  simp [State.finishWith]

@[simp] theorem State.finishLate_placed (s : State) (w : Waiting) (opcode job status flags r0 r1 : Nat) :
    (State.finishLate s w opcode job status flags r0 r1).placed = s.placed := by
  simp [State.finishLate]

@[simp] theorem State.stale_placed (s : State) (n : Nat) (r : Ring) :
    (State.stale s n r).placed = s.placed := by
  simp [State.stale]

@[simp] theorem State.fetched_placed (s : State) (f : Fetch) (r : Ring) :
    (State.fetched s f r).placed = s.placed := by
  simp [State.fetched]

@[simp] theorem State.raiseRun_placed (s : State) (job : Nat) (d : Option Nat) (e : Evt) (detail : Nat) (recount injected : Bool) :
    (State.raiseRun s job d e detail recount injected).placed = s.placed := by
  simp only [State.raiseRun]
  (repeat' split) <;> simp

@[simp] theorem State.candidate_placed (s : State) (c cause : Nat) :
    (State.candidate s c cause).placed = s.placed := by
  simp [State.candidate]

@[simp] theorem State.triggers_placed (s : State) (c cause : Nat) :
    (State.triggers s c cause).placed = s.placed := by
  simp [State.triggers]

@[simp] theorem State.corrected_placed (s : State) (job : Nat) (utype punit block n : Nat) :
    (State.corrected s job utype punit block n).placed = s.placed := by
  simp [State.corrected]

@[simp] theorem State.poisonAt_placed (s : State) (j : Job) (u : Nat × Nat) (space slot block : Nat) :
    (State.poisonAt s j u space slot block).placed = s.placed := by
  simp [State.poisonAt]

@[simp] theorem State.uncorrectable_placed (s : State) (j : Job) (u : Nat × Nat) (space slot block s0 s1 : Nat) :
    (State.uncorrectable s j u space slot block s0 s1).placed = s.placed := by
  simp [State.uncorrectable]

@[simp] theorem State.setSend_placed (s : State) (x : Send) :
    (State.setSend s x).placed = s.placed := by
  rfl

@[simp] theorem State.dropSend_placed (s : State) (id : Nat) :
    (State.dropSend s id).placed = s.placed := by
  rfl

@[simp] theorem State.stream_placed (s : State) (id : Nat) (x0 : List Nat) :
    (State.stream s id x0).placed = s.placed := by
  induction x0 generalizing s with
  | nil => rfl
  | cons i rest ih =>
    unfold State.stream
    dsimp only
    (repeat' split) <;> simp [ih]

@[simp] theorem State.startSend_placed (s : State) (j : Job) (r : Run) (d : Nat) (ordinal : Nat) (c : Contrib) :
    (State.startSend s j r d ordinal c).placed = s.placed := by
  simp [State.startSend]

@[simp] theorem State.sendMsg_placed (s : State) (x : Send) (t : Txn) (u : TagUse) (done late : Send) :
    (State.sendMsg s x t u done late).placed = s.placed := by
  simp [State.sendMsg]

@[simp] theorem State.sendCsgn_placed (s : State) (x : Send) :
    (State.sendCsgn s x).placed = s.placed := by
  simp [State.sendCsgn]

@[simp] theorem State.sendVoid_placed (s : State) (x : Send) (status : Nat) :
    (State.sendVoid s x status).placed = s.placed := by
  simp [State.sendVoid]

@[simp] theorem State.voidRun_placed (s : State) (job stepLo : Nat) :
    (State.voidRun s job stepLo).placed = s.placed :=
  foldl_placed (f := fun (s : State) x => s.sendVoid x 0) (fun s x => by simp) _ s

@[simp] theorem State.sendFinal_placed (s : State) (x : Send) :
    (State.sendFinal s x).placed = s.placed := by
  unfold State.sendFinal
  split
  · rw [State.sendVoid_placed]
  · dsimp only
    rw [State.sendVoid_placed]
    rfl

@[simp] theorem State.voidJob_placed (s : State) (job : Nat) :
    (State.voidJob s job).placed = s.placed := by
  unfold State.voidJob
  dsimp only
  rw [foldl_placed]
  intro s x
  simp

@[simp] theorem State.signRun_placed (s : State) (job : Nat) :
    (State.signRun s job).placed = s.placed := by
  unfold State.signRun
  dsimp only
  rw [foldl_placed]
  intro s x
  simp

@[simp] theorem State.mapRecvs_placed (s : State) (f : Recv → Recv) :
    (State.mapRecvs s f).placed = s.placed := by
  rfl

@[simp] theorem State.answer_placed (s : State) (p : Nat) (t : Txn) (status : Nat) :
    (State.answer s p t status).placed = s.placed := by
  rfl

@[simp] theorem State.answerHeld_placed (s : State) (v : Recv) :
    (State.answerHeld s v).placed = s.placed := by
  simp only [State.answerHeld]
  (repeat' split) <;> simp

@[simp] theorem State.markRead_placed (s : State) (r : Run) (d : Nat) (reads : List (Nat × Nat × Nat)) :
    (State.markRead s r d reads).placed = s.placed := by
  simp [State.markRead]

@[simp] theorem State.withdrawVault_placed (s : State) :
    (State.withdrawVault s).placed = s.placed := by
  unfold State.withdrawVault
  rw [foldl_placed]
  intro s x
  dsimp only
  (repeat' split) <;> simp

@[simp] theorem State.keepSlots_placed (s : State) (r : Run) :
    (State.keepSlots s r).placed = s.placed := by
  rfl

@[simp] theorem State.dropJob_placed (s : State) (n : Nat) :
    (State.dropJob s n).placed = s.placed := by
  unfold State.dropJob
  split
  · rfl
  · dsimp only
    rw [State.drainCpl_placed, State.classEdge_placed, State.withdrawVault_placed, State.placed_mk, State.placed_fold,
      foldl_placed (fun s x => State.answerHeld_placed s x)]
    split <;> simp

@[simp] theorem State.closeJob_placed (s : State) (n status : Nat) :
    (State.closeJob s n status).placed = s.placed := by
  unfold State.closeJob
  split
  · rfl
  · next j hj =>
    dsimp only
    have h1 : ∀ (l : List StepReq) (last : Nat), (l.foldl
        (fun (s : State) q => s.pushCpl (q.cpl n status (s.peerOf q.ring) last)) (s.voidJob n)).placed = s.placed :=
      fun l last => (foldl_placed (fun s x => by simp) _ _).trans (by simp)
    have h2 : ∀ (l : List SnapReq) (t : State), (l.foldl
        (fun (s : State) q => s.finishLate ⟨q.ring, BitVec.ofNat 32 q.seq⟩ 0x03 n 0x0402 0 0 0) t).placed = t.placed := fun l t =>
      foldl_placed (fun s x => by simp) _ _
    split
    · rw [State.finishLate_placed, h2, h1]
    · rw [h2, h1]

@[simp] theorem State.endJob_placed (s : State) (n status : Nat) :
    (State.endJob s n status).placed = s.placed := by
  simp [State.endJob]

@[simp] theorem State.programFault_placed (s : State) (n code operand : Nat) (e : Evt) :
    (State.programFault s n code operand e).placed = s.placed := by
  simp [State.programFault]

@[simp] theorem State.extendRun_placed (s : State) (kind : Nat) (item : BitVec 384) :
    (State.extendRun s kind item).placed = s.placed := by
  rfl

@[simp] theorem State.extendBoot_placed (s : State) (kind : Nat) (item : BitVec 384) :
    (State.extendBoot s kind item).placed = s.placed := by
  rfl

@[simp] theorem State.switchBank_placed (s : State) (p job step : Nat) :
    (State.switchBank s p job step).placed = s.placed := by
  simp [State.switchBank]

@[simp] theorem State.setAsy_placed (s : State) (a : AssayState) :
    (State.setAsy s a).placed = s.placed := by
  rfl

@[simp] theorem State.dropAssay_placed (s : State) (j : AssayJob) :
    (State.dropAssay s j).placed = s.placed := by
  rfl

@[simp] theorem State.putAssay_placed (s : State) (j k : AssayJob) :
    (State.putAssay s j k).placed = s.placed := by
  rfl

@[simp] theorem State.endAssay_placed (s : State) (j : AssayJob) (flags : Nat) :
    (State.endAssay s j flags).placed = s.placed := by
  simp only [State.endAssay]
  (repeat' split) <;> simp

@[simp] theorem State.unfenceCore_placed (s : State) (p : Nat) :
    (State.unfenceCore s p).placed = s.placed := by
  simp [State.unfenceCore]

@[simp] theorem State.startAssay_placed (s : State) (j : AssayJob) :
    (State.startAssay s j).placed = s.placed := by
  simp only [State.startAssay]
  (repeat' split) <;> simp

@[simp] theorem State.skipCore_placed (s : State) (p code : Nat) :
    (State.skipCore s p code).placed = s.placed := by
  simp [State.skipCore]

@[simp] theorem State.notRun_placed (s : State) (j : AssayJob) :
    (State.notRun s j).placed = s.placed := by
  simp [State.notRun]

@[simp] theorem State.pumpAssay_placed (x0 : Nat) (x1 : Nat) (x2 : State) :
    (State.pumpAssay x0 x1 x2).placed = x2.placed := by
  induction x0 generalizing x2 with
  | zero => rfl
  | succ n ih =>
    unfold State.pumpAssay
    (repeat' split) <;> first | rfl | (simp; done) | (rw [ih]; simp)

@[simp] theorem State.assaySettle_placed (s : State) :
    (State.assaySettle s).placed = s.placed := by
  unfold State.assaySettle
  split
  · rfl
  · exact foldl_placed (fun s r => by simp) _ _

@[simp] theorem State.queueSecond_placed (s : State) (x : AssaySet) (vec core : Nat) (d : W128) :
    (State.queueSecond s x vec core d).placed = s.placed := by
  rfl

@[simp] theorem State.voidRef_placed (s : State) (x : AssaySet) (i : Nat) :
    (State.voidRef s x i).placed = s.placed := State.raise_placed s _

@[simp] theorem State.judgeVec_placed (s : State) (x : AssaySet) (core : Nat) (event rot : Bool) (i : Nat) (v : Vec) (d : W128) :
    (State.judgeVec s x core event rot i v d).1.placed = s.placed := by
  unfold State.judgeVec
  generalize x.setId * 4096 + i = k
  split
  · dsimp only
    split
    · rfl
    · dsimp only
      generalize meetRef _ _ _ _ = m
      generalize look k s.asy.refs = old
      obtain ⟨a, b, c⟩ := m
      dsimp only
      split <;> (try rw [State.voidRef_placed]) <;> rcases c with _ | ⟨c, e⟩ <;> dsimp only <;>
        (try rw [State.queueSecond_placed]) <;> cases a <;> simp only [State.setAsy_placed]
  · rfl

@[simp] theorem State.judge_placed (s : State) (x : AssaySet) (core : Nat) (event rot : Bool) (x0 : Nat) (x1 : List (Vec × W128)) :
    (State.judge s x core event rot x0 x1).1.placed = s.placed := by
  induction x1 generalizing s x0 with
  | nil => rfl
  | cons v t ih =>
    rw [State.judge]
    split
    · rw [State.judgeVec_placed]
    · rw [ih, State.judgeVec_placed]

@[simp] theorem State.leaveAssay_placed (s : State) (j : AssayJob) (worst : Nat) :
    (State.leaveAssay s j worst).placed = s.placed := by
  unfold State.leaveAssay
  dsimp only
  (repeat' split) <;> first | (simp; done) | (rw [foldl_placed]; · simp; · intro s x; dsimp only; (repeat' split) <;> simp)

@[simp] theorem State.newPass_placed (s : State) :
    (State.newPass s).placed = s.placed := by
  simp [State.newPass]

@[simp] theorem State.queueAssays_placed (s : State) (cores ids : List Nat) (why : AssayWhy) (force : Bool) :
    (State.queueAssays s cores ids why force).placed = s.placed := by
  rfl

@[simp] theorem State.captureJob_placed (s : State) (n : Nat) :
    (State.captureJob s n).placed = s.placed := by
  unfold State.captureJob
  split
  · rfl
  · dsimp only
    rw [foldl_placed]
    · simp
    · intro s x
      split <;> simp

@[simp] theorem State.captureAll_placed (s : State) :
    (State.captureAll s).placed = s.placed := by
  unfold State.captureAll
  refine foldl_placed (fun s j => ?_) _ _
  split <;> simp

@[simp] theorem State.uncorrAt_placed (s : State) (n d space block s0 s1 : Nat) (injected : Bool) :
    (State.uncorrAt s n d space block s0 s1 injected).placed = s.placed := by
  simp only [State.uncorrAt]
  (repeat' split) <;> simp

@[simp] theorem State.corrAt_placed (s : State) (n d space block symbols : Nat) :
    (State.corrAt s n d space block symbols).placed = s.placed := by
  simp only [State.corrAt]
  (repeat' split) <;> simp

@[simp] theorem State.disarm_placed (s : State) (page bit_ : Nat) :
    (State.disarm s page bit_).placed = s.placed := by
  rfl

@[simp] theorem State.injectReads_placed (s : State) (n d : Nat) (x0 : List Nat) :
    (State.injectReads s n d x0).placed = s.placed := by
  induction x0 generalizing s with
  | nil => rfl
  | cons b t ih =>
    unfold State.injectReads
    dsimp only
    rw [ih]
    (repeat' split) <;> simp

@[simp] theorem State.readChecks_placed (s : State) (i : Iss) (d : Nat) (chk : Chk) :
    (State.readChecks s i d chk).placed = s.placed := by
  simp only [State.readChecks]
  (repeat' split) <;> simp

@[simp] theorem State.recRaise_placed (s : State) (i : Iss) (d code utype punit w6 w7 detail : Nat) (recount injected : Bool) :
    (State.recRaise s i d code utype punit w6 w7 detail recount injected).placed = s.placed := by
  simp [State.recRaise]

@[simp] theorem State.spoil_placed (s : State) (n d : Nat) (corrupt : Bool) :
    (State.spoil s n d corrupt).placed = s.placed := by
  simp only [State.spoil]
  (repeat' split) <;> simp

@[simp] theorem State.recEvent_placed (s : State) (i : Iss) (d : Nat) (x : Raise) :
    (State.recEvent s i d x).placed = s.placed := by
  simp only [State.recEvent]
  (repeat' split) <;> simp

@[simp] theorem State.strikeRaise_placed (s : State) (r : Run) (d : Option Nat) (core : Nat) (w6 w7 : W64) :
    (State.strikeRaise s r d core w6 w7).placed = s.placed := by
  unfold State.strikeRaise
  dsimp only
  split
  · rw [State.raiseRun_placed]
  · rfl

@[simp] theorem State.chkReport_placed (s : State) (i : Iss) (d : Nat) (chk : Chk) :
    (State.chkReport s i d chk).placed = s.placed := by
  unfold State.chkReport
  cases chk <;> dsimp only <;> (try split) <;>
    first
      | rw [State.spoil_placed, State.recRaise_placed]
      | rw [State.lockBreakJob_placed]
      | rw [State.strikeRaise_placed]
      | rfl

@[simp] theorem State.injectParity_placed (s : State) (i : Iss) (d page utype punit point : Nat) (w : Nat × Nat) :
    (State.injectParity s i d page utype punit point w).placed = s.placed := by
  simp [State.injectParity]

@[simp] theorem State.injectResidue_placed (s : State) (i : Iss) (d page utype punit expected : Nat) :
    (State.injectResidue s i d page utype punit expected).placed = s.placed := by
  simp [State.injectResidue]

@[simp] theorem State.injectCore_placed (s : State) (i : Iss) (d : Nat) :
    (State.injectCore s i d).placed = s.placed := by
  unfold State.injectCore
  dsimp only
  (repeat' split) <;> first | rfl | rw [State.injectParity_placed] | rw [State.injectResidue_placed]

theorem State.armDies_placed (s : State) (ts : List Haul) (f : State → Nat → Nat × Nat × Nat → State)
    (hf : ∀ s p u, (f s p u).placed = s.placed) : (State.armDies s ts f).placed = s.placed := by
  unfold State.armDies
  refine foldl_placed (fun s b => ?_) _ s
  split
  · exact hf _ _ _
  · rfl

@[simp] theorem State.armReport_placed (s : State) (i : Iss) (d : Nat) :
    (State.armReport s i d).placed = s.placed := by
  unfold State.armReport
  dsimp only
  split
  · rw [State.armDies_placed _ _ _ (fun s p u => State.injectParity_placed s i d p _ _ _ _)]
    rw [foldl_placed (fun s g => State.injectParity_placed s i d _ _ _ _ _), State.injectCore_placed]
  · rw [State.injectCore_placed]

@[simp] theorem State.markCheck_placed (s : State) (i : Iss) (d : Nat) :
    (State.markCheck s i d).placed = s.placed := by
  unfold State.markCheck
  dsimp only
  (repeat' split) <;> first | rfl | rw [State.recRaise_placed] <;> rfl

@[simp] theorem State.breakRun_placed (s : State) (n : Nat) :
    (State.breakRun s n).placed = s.placed := by
  simp only [State.breakRun]
  (repeat' split) <;> simp

@[simp] theorem State.consume_placed (s : State) (i : Iss) (d sp addr : Nat) :
    (State.consume s i d sp addr).placed = s.placed := by
  unfold State.consume
  dsimp only
  (repeat' split) <;> simp

@[simp] theorem State.advance_placed (s : State) (j : Job) (r : Run) :
    (State.advance s j r).placed = s.placed := by
  rfl

@[simp] theorem State.perform_placed (s : State) (i : Iss) (d : Nat) (chk : Chk) (o : RecOut) :
    (State.perform s i d chk o).placed = s.placed := by
  unfold State.perform
  split
  · simp
  · split
    · simp
    · dsimp only
      rw [State.armReport_placed, State.chkReport_placed, State.markCheck_placed, foldl_placed]
      · simp
      · intro s x
        simp

@[simp] theorem State.doRecord_placed (s : State) (d op : Nat) (chk : Chk) (f : Ctx → Nat → RecOut) :
    (State.doRecord s d op chk f).placed = s.placed := by
  simp only [State.doRecord]
  (repeat' split) <;> simp

@[simp] theorem State.doMove_placed (s : State) (d op : Nat) (chk : Chk) :
    (State.doMove s d op chk).placed = s.placed := by
  simp only [State.doMove]
  (repeat' split) <;> simp

@[simp] theorem State.landMove_placed (s : State) (d idx : Nat) (chk : Chk) :
    (State.landMove s d idx chk).placed = s.placed := by
  unfold State.landMove
  split
  · rfl
  · split
    · cases chk <;> dsimp only <;>
        first
          | rw [State.spoil_placed, State.raiseRun_placed, State.advance_placed]
          | rw [State.lockBreakJob_placed, State.advance_placed]
          | rw [State.advance_placed]
    · rfl

@[simp] theorem State.setRecv_placed (s : State) (v : Recv) :
    (State.setRecv s v).placed = s.placed := by
  rfl

@[simp] theorem State.doSend_placed (s : State) (d : Nat) (chk : Chk) :
    (State.doSend s d chk).placed = s.placed := by
  unfold State.doSend
  split
  · rfl
  · dsimp only
    split
    · simp
    · split
      · simp
      · split <;> simp

@[simp] theorem State.landOwn_placed (s : State) (j : Job) (r : Run) (d : Nat) (f : Flight) :
    (State.landOwn s j r d f).placed = s.placed := by
  unfold State.landOwn
  dsimp only
  split
  · rw [State.setRecv_placed, State.setRun_placed]
  · rw [State.setRun_placed]

@[simp] theorem State.completeRecord_placed (s : State) (d idx : Nat) :
    (State.completeRecord s d idx).placed = s.placed := by
  unfold State.completeRecord
  (repeat' split) <;> simp

@[simp] theorem State.controlCheck_placed (s : State) (j : Job) (r : Run) (d : Nat) (chk : Chk) :
    (State.controlCheck s j r d chk).placed = s.placed := by
  simp [State.controlCheck]

@[simp] theorem State.beginSegment_placed (s : State) (d : Nat) (chk : Chk) :
    (State.beginSegment s d chk).placed = s.placed := by
  simp only [State.beginSegment]
  (repeat' split) <;> simp

@[simp] theorem State.endSegment_placed (s : State) (d : Nat) (chk : Chk) :
    (State.endSegment s d chk).placed = s.placed := by
  simp only [State.endSegment]
  (repeat' split) <;> simp

@[simp] theorem State.markBatches_placed (s : State) (j : Job) :
    (State.markBatches s j).placed = s.placed := by
  rfl

@[simp] theorem State.readReceived_placed (s : State) (r : Run) :
    (State.readReceived s r).placed = s.placed := by
  rfl

@[simp] theorem State.nameSwitch_placed (s : State) (hosts : List Nat) :
    (State.nameSwitch s hosts).placed = s.placed := by
  unfold State.nameSwitch
  rw [foldl_placed]
  intro s x
  dsimp only
  (repeat' split) <;> simp

@[simp] theorem State.endDelay_placed (s : State) :
    (State.endDelay s).placed = s.placed := by
  rfl

@[simp] theorem State.beginRun_placed (s : State) (r : Run) :
    (State.beginRun s r).placed = s.placed := by
  rfl

@[simp] theorem State.applySwitch_placed (s : State) (restored : Bool) (us : Nat) :
    (State.applySwitch s restored us).placed = s.placed := by
  simp only [State.applySwitch]
  (repeat' split) <;> simp

@[simp] theorem State.noteItem_placed (s : State) (user age : Nat) :
    (State.noteItem s user age).placed = s.placed := by
  unfold State.noteItem
  split <;> rfl

@[simp] theorem State.served_placed (s : State) (us user : Nat) :
    (State.served s us user).placed = s.placed := by
  simp [State.served]

@[simp] theorem State.serveArrears_placed (s : State) (us : Nat) :
    (State.serveArrears s us).placed = s.placed := by
  unfold State.serveArrears
  dsimp only
  rw [State.setAsy_placed]
  rw [foldl_placed]
  · rfl
  · intro s x
    simp

@[simp] theorem State.endHosted_placed (s : State) (hosted : List Nat) :
    (State.endHosted s hosted).placed = s.placed := by
  rfl

@[simp] theorem State.poisonJob_placed (s : State) (n addr : Nat) :
    (State.poisonJob s n addr).placed = s.placed := by
  simp only [State.poisonJob]
  (repeat' split) <;> simp

@[simp] theorem State.writeDesc_placed (s : State) (c : Cmd) (w3 n : Nat) :
    (State.writeDesc s c w3 n).placed = s.placed := by
  simp only [State.writeDesc]
  (repeat' split) <;> simp

@[simp] theorem State.forgetSwitch_placed (s : State) (p : Nat) :
    (State.forgetSwitch s p).placed = s.placed := by
  rfl

@[simp] theorem State.loadBank_placed (s : State) (tag : W32) (n p : Nat) :
    (State.loadBank s tag n p).placed = s.placed := by
  rfl

@[simp] theorem State.nameSwitches_placed (s : State) :
    (State.nameSwitches s).placed = s.placed := by
  unfold State.nameSwitches
  rw [foldl_placed]
  intro s j
  simp

@[simp] theorem State.stageEvent_placed (s : State) (svn code : Nat) :
    (State.stageEvent s svn code).placed = s.placed := by
  simp [State.stageEvent]

@[simp] theorem State.identify_placed (s : State) :
    (State.identify s).placed = s.placed := by
  simp [State.identify]

@[simp] theorem State.startFail_placed (s : State) (order cause utype punit : Nat) :
    (State.startFail s order cause utype punit).placed = s.placed := by
  simp [State.startFail]

@[simp] theorem State.retireEarly_placed (s : State) (c cause : Nat) :
    (State.retireEarly s c cause).placed = s.placed := by
  simp [State.retireEarly]

@[simp] theorem State.groupsFromFences_placed (s : State) :
    (State.groupsFromFences s).placed = s.placed := by
  unfold State.groupsFromFences
  rw [foldl_placed]
  intro s x
  dsimp only
  (repeat' split) <;> simp

@[simp] theorem State.setRcv_placed (s : State) (r : Recovery) :
    (State.setRcv s r).placed = s.placed := by
  rfl

@[simp] theorem State.alertEvent_placed (s : State) (point unit : Nat) (temp : BitVec 16) :
    (State.alertEvent s point unit temp).placed = s.placed := by
  simp [State.alertEvent]

@[simp] theorem State.resume_placed (s : State) (mv : Nat) :
    (State.resume s mv).placed = s.placed := by
  simp [State.resume]

@[simp] theorem State.dueRegen_placed (s : State) (n space addr : Nat) :
    (State.dueRegen s n space addr).placed = s.placed := by
  simp only [State.dueRegen]
  (repeat' split) <;> simp

@[simp] theorem State.readBlock_placed (s : State) (j : Job) (l : MemLoc) (u : Nat × Nat) (x0 : EccOut) :
    (State.readBlock s j l u x0).placed = s.placed := by
  simp only [State.readBlock]
  (repeat' split) <;> simp

@[simp] theorem State.scrubbed_placed (s : State) (j : Job) (l : MemLoc) (u : Nat × Nat) (o : EccOut) :
    (State.scrubbed s j l u o).placed = s.placed := by
  have ht := State.readBlock_placed s j l u o
  revert ht
  unfold State.scrubbed
  dsimp only
  generalize s.readBlock j l u o = t
  intro ht
  cases o
  · exact ht
  · exact ht
  · exact (State.dueRegen_placed _ _ _ _).trans ht
  · exact (State.dueRegen_placed _ _ _ _).trans ht

@[simp] theorem State.uncorrLoose_placed (s : State) (l : MemLoc) (s0 s1 : Nat) :
    (State.uncorrLoose s l s0 s1).placed = s.placed := by
  have h : ∀ t : State, (t.markLoose l).placed = t.placed := by
    intro t
    unfold State.markLoose
    dsimp only
    (repeat' split) <;> simp
  unfold State.uncorrLoose
  dsimp only
  (repeat' split) <;> simp [h]

@[simp] theorem State.scrubLoose_placed (s : State) (l : MemLoc) (x0 : EccOut) :
    (State.scrubLoose s l x0).placed = s.placed := by
  simp only [State.scrubLoose]
  (repeat' split) <;> simp

@[simp] theorem State.patrol_placed (s : State) (u : Nat × Nat) :
    (State.patrol s u).placed = s.placed := by
  simp [State.patrol]

@[simp] theorem State.readOut_placed (s : State) (c : Nat) (es : List (MemLoc × EccOut)) :
    (State.readOut s c es).placed = s.placed := by
  unfold State.readOut
  refine foldl_placed (fun s e => ?_) _ _
  (repeat' split) <;> simp

@[simp] theorem State.lagged_placed (s : State) (r : Nat) (m : RegionMeas) :
    (State.lagged s r m).placed = s.placed := by
  unfold State.lagged
  rw [foldl_placed]
  intro s x
  dsimp only
  (repeat' split) <;> simp

@[simp] theorem State.strikeCheck_placed (s : State) (core : Nat) (chk : Chk) :
    (State.strikeCheck s core chk).placed = s.placed := by
  simp only [State.strikeCheck]
  (repeat' split) <;> simp

@[simp] theorem State.latch_placed (s : State) (side : Bool) (lo : Nat) (hi : W32) :
    (State.latch s side lo hi).placed = s.placed := by
  rfl

@[simp] theorem State.countRead_placed (s : State) (n : Nat) :
    (State.countRead s n).placed = s.placed := by
  rfl

@[simp] theorem State.monTake_placed (s : State) (n : Nat) :
    (State.monTake s n).placed = s.placed := by
  rfl

@[simp] theorem State.fwdNext_placed (s : State) :
    (State.fwdNext s).placed = s.placed := by
  rfl

@[simp] theorem State.afterRead_placed (s : State) (side : Bool) (n o : Nat) :
    (State.afterRead s side n o).placed = s.placed := by
  simp only [State.afterRead]
  (repeat' split) <;> simp

@[simp] theorem State.readReg_placed (s : State) (side : Bool) (off : W32) :
    (State.readReg s side off).2.placed = s.placed := by
  simp only [State.readReg]
  (repeat' split) <;> simp

@[simp] theorem State.hostRead_placed (s : State) (off : W32) :
    (State.hostRead s off).placed = s.placed := by
  simp [State.hostRead]

theorem State.setSu_placed (s : State) (u : StartUp) : State.placed { s with su := u } = s.placed := rfl

@[simp] theorem State.burSelect_placed (s : State) (data : W32) :
    (State.burSelect s data).placed = s.placed := State.setSu_placed _ _

@[simp] theorem State.coreSelect_placed (s : State) (p : Nat) (data : W32) :
    (State.coreSelect s p data).placed = s.placed := by
  simp only [State.coreSelect]
  (repeat' split) <;> simp

@[simp] theorem State.sendEntry_placed (s : State) (n : Nat) (r : Ring) (k : W32) :
    (State.sendEntry s n r k).placed = s.placed := by
  simp [State.sendEntry]

@[simp] theorem State.sendEntries_placed (s : State) (n : Nat) (r : Ring) (k : W32) (x0 : Nat) :
    (State.sendEntries s n r k x0).placed = s.placed := by
  induction x0 generalizing s k with
  | zero => rfl
  | succ m ih =>
    unfold State.sendEntries
    dsimp only
    (repeat' split) <;> simp [ih]

@[simp] theorem State.discardDoorbell_placed (s : State) :
    (State.discardDoorbell s).placed = s.placed := by
  simp [State.discardDoorbell]

@[simp] theorem State.setTail_placed (s : State) (n : Nat) (r : Ring) (v : W32) :
    (State.setTail s n r v).placed = s.placed := by
  simp [State.setTail]

@[simp] theorem State.setHead_placed (s : State) (n : Nat) (r : Ring) (v : W32) :
    (State.setHead s n r v).placed = s.placed := by
  simp [State.setHead]

@[simp] theorem State.doorbell_placed (s : State) (v : W32) :
    (State.doorbell s v).placed = s.placed := by
  unfold State.doorbell
  dsimp only
  (repeat' split) <;> first | (simp; done) | (rw [foldl_placed]; · simp; · intro s x; dsimp only; (repeat' split) <;> simp)

@[simp] theorem State.errPop_placed (s : State) (v : W32) :
    (State.errPop s v).placed = s.placed := by
  simp only [State.errPop]
  (repeat' split) <;> simp

@[simp] theorem State.cplPop_placed (s : State) (v : W32) :
    (State.cplPop s v).placed = s.placed := by
  simp only [State.cplPop]
  (repeat' split) <;> simp

@[simp] theorem State.cmdPush_placed (s : State) (v : W32) :
    (State.cmdPush s v).placed = s.placed := by
  simp only [State.cmdPush]
  (repeat' split) <;> simp

@[simp] theorem State.setErrIrq_placed (s : State) (v : W32) :
    (State.setErrIrq s v).placed = s.placed := by
  simp only [State.setErrIrq]
  (repeat' split) <;> simp

@[simp] theorem State.contribLanded_placed (s : State) (x : Send) (i : Nat) :
    (State.contribLanded s x i).placed = s.placed := by
  simp [State.contribLanded]

@[simp] theorem State.contribDone_placed (s : State) (id i status : Nat) :
    (State.contribDone s id i status).placed = s.placed := by
  simp only [State.contribDone]
  (repeat' split) <;> simp

@[simp] theorem State.restream_placed (s : State) (x : Send) :
    (State.restream s x).placed = s.placed := by
  simp [State.restream]

@[simp] theorem State.csgnDone_placed (s : State) (id status : Nat) :
    (State.csgnDone s id status).placed = s.placed := by
  simp only [State.csgnDone]
  (repeat' split) <;> simp

@[simp] theorem State.voidDone_placed (s : State) (id status : Nat) :
    (State.voidDone s id status).placed = s.placed := by
  simp only [State.voidDone]
  (repeat' split) <;> simp

@[simp] theorem State.msgDone_placed (s : State) (n : Nat) (k : W32) (status : Nat) :
    (State.msgDone s n k status).placed = s.placed := by
  simp only [State.msgDone]
  (repeat' split) <;> simp

@[simp] theorem State.relayAnswer_placed (s : State) (status : Nat) (v : W32) :
    (State.relayAnswer s status v).placed = s.placed := by
  simp [State.relayAnswer]

@[simp] theorem State.relayPump_placed (s : State) :
    (State.relayPump s).placed = s.placed := by
  unfold State.relayPump
  dsimp only
  rw [foldl_placed]
  · simp
  · intro s x
    simp

@[simp] theorem State.relayDone_placed (s : State) (id status : Nat) (data : List Byte) :
    (State.relayDone s id status data).placed = s.placed := by
  simp [State.relayDone]

@[simp] theorem State.relay_placed (s : State) (pos : Nat) (read : Bool) (off : Nat) (t : Txn) :
    (State.relay s pos read off t).placed = s.placed := by
  simp [State.relay]

@[simp] theorem State.relayExpired_placed (s : State) (id : Nat) :
    (State.relayExpired s id).placed = s.placed := by
  simp [State.relayExpired]

@[simp] theorem State.completeUse_placed (s : State) (u : TagUse) (status : Nat) (data : List Byte) :
    (State.completeUse s u status data).placed = s.placed := by
  simp only [State.completeUse]
  (repeat' split) <;> simp

@[simp] theorem State.freeTag_placed (s : State) (p g : Nat) :
    (State.freeTag s p g).placed = s.placed := by
  rfl

@[simp] theorem State.forward_placed (s : State) (inPort : Nat) (t : Txn) :
    (State.forward s inPort t).placed = s.placed := by
  simp only [State.forward]
  (repeat' split) <;> simp

@[simp] theorem State.redirect_placed (s : State) (p : Nat) (t : Txn) :
    (State.redirect s p t).placed = s.placed := by
  simp only [State.redirect]
  (repeat' split) <;> simp

@[simp] theorem State.reroutePort_placed (s : State) (p : Nat) :
    (State.reroutePort s p).placed = s.placed := by
  unfold State.reroutePort
  dsimp only
  rw [foldl_placed, foldl_placed]
  · simp
  · intro s t
    (repeat' split) <;> simp
  · intro s x
    simp

@[simp] theorem State.rerouteAll_placed (s : State) :
    (State.rerouteAll s).placed = s.placed := by
  unfold State.rerouteAll
  rw [foldl_placed]
  intro s p
  simp

@[simp] theorem State.portDown_placed (s : State) (p : Nat) :
    (State.portDown s p).placed = s.placed := by
  simp [State.portDown]

@[simp] theorem State.setEnable_placed (s : State) (p : Nat) (on : Bool) :
    (State.setEnable s p on).placed = s.placed := by
  simp [State.setEnable]

@[simp] theorem State.setForce_placed (s : State) (n : Nat) (data : W32) :
    (State.setForce s n data).placed = s.placed := by
  rfl

@[simp] theorem State.onMon_placed (s : State) (n : Nat) (f : Mon → Mon) :
    (State.onMon s n f).placed = s.placed := by
  rfl

@[simp] theorem State.monSelect_placed (s : State) (n : Nat) (data : W32) :
    (State.monSelect s n data).placed = s.placed := by
  rfl

@[simp] theorem State.stageCtl_placed (s : State) (data : W32) :
    (State.stageCtl s data).placed = s.placed := by
  rfl

@[simp] theorem State.fwdWrite_placed (s : State) (data : W32) :
    (State.fwdWrite s data).placed = s.placed := by
  simp [State.fwdWrite]

@[simp] theorem State.onRcv_placed (s : State) (f : Recovery → Recovery) :
    (State.onRcv s f).placed = s.placed := by
  simp [State.onRcv]

@[simp] theorem State.clearRepro_placed (s : State) (data : W32) :
    (State.clearRepro s data).placed = s.placed := by
  rfl

@[simp] theorem State.writeLedger_placed (s : State) (o : Nat) (data : W32) :
    (State.writeLedger s o data).placed = s.placed := by
  simp only [State.writeLedger]
  (repeat' split) <;> simp

@[simp] theorem State.writeAssay_placed (s : State) (o : Nat) (data : W32) :
    (State.writeAssay s o data).placed = s.placed := by
  simp [State.writeAssay]

@[simp] theorem State.monSnap_placed (s : State) :
    (State.monSnap s).placed = s.placed := by
  simp [State.monSnap]

@[simp] theorem State.monClear_placed (s : State) :
    (State.monClear s).placed = s.placed := by
  rfl

@[simp] theorem State.writeMonitor_placed (s : State) (o : Nat) (data : W32) :
    (State.writeMonitor s o data).placed = s.placed := by
  simp [State.writeMonitor]

@[simp] theorem State.sendClaim_placed (s : State) (pos : Nat) (id : BitVec 16) :
    (State.sendClaim s pos id).placed = s.placed := by
  simp only [State.sendClaim]
  (repeat' split) <;> simp

@[simp] theorem State.folioWrite_placed (s : State) (pos : Nat) (data : W32) :
    (State.folioWrite s pos data).placed = s.placed := by
  simp [State.folioWrite]

@[simp] theorem State.holdLo_placed (s : State) (o : Nat) (data : W32) :
    (State.holdLo s o data).placed = s.placed := by
  simp [State.holdLo]

@[simp] theorem State.loadHi_placed (s : State) (o : Nat) (data : W32) :
    (State.loadHi s o data).placed = s.placed := by
  simp [State.loadHi]

@[simp] theorem State.writeTeller_placed (s : State) (o : Nat) (data : W32) :
    (State.writeTeller s o data).placed = s.placed := by
  simp only [State.writeTeller]
  (repeat' split) <;> simp

@[simp] theorem State.portRelease_placed (s : State) (p : Nat) :
    (State.portRelease s p).placed = s.placed := by
  simp [State.portRelease]

@[simp] theorem State.writePort_placed (s : State) (p o : Nat) (data : W32) :
    (State.writePort s p o data).placed = s.placed := by
  simp [State.writePort]

@[simp] theorem State.fabricEvent_placed (s : State) (code p order contrib : Nat) :
    (State.fabricEvent s code p order contrib).placed = s.placed := by
  simp [State.fabricEvent]

@[simp] theorem State.lockBreakPort_placed (s : State) (p : Nat) :
    (State.lockBreakPort s p).placed = s.placed := by
  simp [State.lockBreakPort]

@[simp] theorem State.abortAll_placed (s : State) (p : Nat) :
    (State.abortAll s p).placed = s.placed := by
  unfold State.abortAll
  dsimp only
  rw [foldl_placed]
  · simp
  · intro s x
    simp

@[simp] theorem State.quarantine_placed (s : State) (p k : Nat) :
    (State.quarantine s p k).placed = s.placed := by
  simp [State.quarantine]

@[simp] theorem State.countQ_placed (s : State) (p k : Nat) :
    (State.countQ s p k).placed = s.placed := by
  simp only [State.countQ]
  (repeat' split) <;> simp

@[simp] theorem State.denied_placed (s : State) (p : Nat) (t : Txn) :
    (State.denied s p t).placed = s.placed := by
  simp [State.denied]

@[simp] theorem State.recvCpl_placed (s : State) (p : Nat) (t : Txn) :
    (State.recvCpl s p t).placed = s.placed := by
  simp only [State.recvCpl]
  (repeat' split) <;> simp

@[simp] theorem State.countRelay_placed (s : State) (p : Nat) :
    (State.countRelay s p).placed = s.placed := by
  simp [State.countRelay]

@[simp] theorem State.deliver_placed (s : State) (p : Nat) (t : Txn) :
    (State.deliver s p t).placed = s.placed := by
  simp [State.deliver]

@[simp] theorem State.takePayload_placed (s : State) (p : Nat) (h : LinkHead) (pl : List Byte) :
    (State.takePayload s p h pl).placed = s.placed := by
  unfold State.takePayload
  dsimp only
  split
  · simp
  · split
    · simp
      rw [foldl_placed]
      · simp
      · intro s t
        simp
    · rw [foldl_placed]
      · simp
      · intro s t
        simp

@[simp] theorem State.takeData_placed (s : State) (p : Nat) (h : LinkHead) (pl : List Byte) :
    (State.takeData s p h pl).placed = s.placed := by
  simp [State.takeData]

@[simp] theorem State.askReplay_placed (s : State) (p : Nat) :
    (State.askReplay s p).placed = s.placed := by
  simp [State.askReplay]

@[simp] theorem State.inOrder_placed (s : State) (p : Nat) (h : LinkHead) (pl : List Byte) :
    (State.inOrder s p h pl).placed = s.placed := by
  simp [State.inOrder]

@[simp] theorem State.dueFlit_placed (s : State) (p : Nat) (h : LinkHead) (flit : List Byte) :
    (State.dueFlit s p h flit).placed = s.placed := by
  simp only [State.dueFlit]
  (repeat' split) <;> simp

@[simp] theorem State.goodFlit_placed (s : State) (p : Nat) (h : LinkHead) (flit : List Byte) :
    (State.goodFlit s p h flit).placed = s.placed := by
  simp [State.goodFlit]

@[simp] theorem State.idle_placed (s : State) (p : Nat) :
    (State.idle s p).placed = s.placed := by
  rfl

@[simp] theorem State.enterAuth_placed (s : State) (p : Nat) (lanes : Byte) :
    (State.enterAuth s p lanes).placed = s.placed := by
  rfl

@[simp] theorem State.failAuth_placed (s : State) (p code order id : Nat) :
    (State.failAuth s p code order id).placed = s.placed := by
  simp [State.failAuth]

@[simp] theorem State.train_placed (s : State) (p : Nat) (x y : BitVec 8) : (s.train p x y).placed = s.placed := by
  unfold State.train
  dsimp only
  split
  · split
    · rw [State.classEdge_placed, State.setPort_placed]
    · rw [State.classEdge_placed, State.enterAuth_placed]
  · rfl

@[simp] theorem State.greet_placed (s : State) (p : Nat) (x : Hello) : (s.greet p x).placed = s.placed := by
  unfold State.greet
  dsimp only
  split
  · split
    · rw [State.setPort_placed]
    · rw [State.classEdge_placed, State.failAuth_placed]
  · rfl

@[simp] theorem State.giveUp_placed (s : State) (p o : Nat) : (s.giveUp p o).placed = s.placed := by
  unfold State.giveUp
  dsimp only
  split
  · rw [State.classEdge_placed, State.failAuth_placed]
  · rfl

@[simp] theorem State.tellOthers_placed (s : State) (p : Nat) (m : Mgmt) :
    (State.tellOthers s p m).placed = s.placed := by
  unfold State.tellOthers
  rw [foldl_placed]
  intro s x
  simp

@[simp] theorem State.bind_placed (s : State) (p id : Nat) (digest : W64) :
    (State.bind s p id digest).placed = s.placed := by
  simp [State.bind]

@[simp] theorem State.claimAll_placed (s : State) (id : BitVec 16) :
    (State.claimAll s id).placed = s.placed := by
  unfold State.claimAll
  rw [foldl_placed]
  intro s x
  simp

@[simp] theorem State.hostAgain_placed (s : State) :
    (State.hostAgain s).placed = s.placed := by
  simp [State.hostAgain]

@[simp] theorem State.admitPort_placed (s : State) (p : Nat) (h : Hello) (cipher : List Byte) :
    (State.admitPort s p h cipher).placed = s.placed := by
  simp [State.admitPort]

@[simp] theorem State.endClaim_placed (s : State) :
    (State.endClaim s).placed = s.placed := by
  rfl

@[simp] theorem State.replyClaim_placed (s : State) (p : Nat) (ok : Bool) :
    (State.replyClaim s p ok).placed = s.placed := by
  rfl

@[simp] theorem State.takeClaim_placed (s : State) (p pos : Nat) (teller : BitVec 16) :
    (State.takeClaim s p pos teller).placed = s.placed := by
  simp [State.takeClaim]

@[simp] theorem State.claimAnswer_placed (s : State) (pos : Nat) (holder : BitVec 16) :
    (State.claimAnswer s pos holder).placed = s.placed := by
  simp [State.claimAnswer]

@[simp] theorem State.trapJob_placed (s : State) (j : Job) (r : Run) :
    (State.trapJob s j r).placed = s.placed := by
  have h : (r.traps.foldl (fun s t => s.raiseRun j.num (some t.slot)
      (slotEvt j r t.slot t.idx 0x08 1 (r.host t.slot) t.w6.toNat t.w7.toNat 9) 0 false false) s).placed = s.placed :=
    foldl_placed (fun s t => by simp) _ _
  unfold State.trapJob
  dsimp only
  split
  · rw [State.programFault_placed]; exact h
  · exact h

@[simp] theorem State.awaitRun_placed (s : State) (r : Run) (counted : Nat) :
    (State.awaitRun s r counted).placed = s.placed := by
  simp [State.awaitRun]

@[simp] theorem State.readyAll_placed (s : State) (m moved : List Nat) :
    (State.readyAll s m moved).placed = s.placed := by
  exact foldl_placed (fun _ _ => State.readyBanks_placed _ _) _ _

@[simp] theorem State.nextRun_placed (s : State) (r : Run) :
    (State.nextRun s r).placed = s.placed := by
  rfl

@[simp] theorem State.mapPages_placed (s : State) (j : Job) :
    (State.mapPages s j).placed = s.placed := by
  rfl

@[simp] theorem State.exchange_placed (s : State) (r : Run) :
    (State.exchange s r).placed = s.placed := by
  rfl

@[simp] theorem State.reportPost_placed (s : State) (j : Job) (r : Run) :
    (State.reportPost s j r).placed = s.placed := by
  simp only [State.reportPost]
  (repeat' split) <;> simp

@[simp] theorem State.dropServed_placed (s : State) (n : Nat) (step : W64) :
    (State.dropServed s n step).placed = s.placed := by
  rfl

@[simp] theorem State.regenEvent_placed (s : State) (j : Job) (r : Option Run) (space addr desc : Nat) :
    (State.regenEvent s j r space addr desc).placed = s.placed := by
  simp [State.regenEvent]

@[simp] theorem State.readBack_placed (s : State) (j : Job) (desc : Nat) :
    (State.readBack s j desc).placed = s.placed := by
  unfold State.readBack
  dsimp only
  split
  · rw [foldl_placed]
    intro s x
    simp
  · rfl

@[simp] theorem State.regenJob_placed (s : State) (j : Job) (r : Option Run) (desc : Nat) :
    (State.regenJob s j r desc).placed = s.placed := by
  unfold State.regenJob
  dsimp only
  (repeat' split) <;> simp

@[simp] theorem State.finishLoad_placed (s : State) (c : Cmd) (r : Reject) :
    (State.finishLoad s c r).placed = s.placed := by
  simp [State.finishLoad]

@[simp] theorem State.wakeMill_placed (s t : State) (d : Nat) :
    (State.wakeMill s t d).placed = t.placed := by
  unfold State.wakeMill
  (repeat' split) <;> simp

@[simp] theorem State.setEvent_placed (s : State) (id ver act code : Nat) :
    (State.setEvent s id ver act code).placed = s.placed := by
  simp [State.setEvent]

@[simp] theorem State.storeSet_placed (s : State) (x : AssaySet) (k : Nat) :
    (State.storeSet s x k).placed = s.placed := by
  rfl

@[simp] theorem State.eraseSet_placed (s : State) (k : Nat) :
    (State.eraseSet s k).placed = s.placed := by
  rfl

@[simp] theorem State.setMsix_placed (s : State) (vector : Nat) (e : MsixEnt) :
    (State.setMsix s vector e).placed = s.placed := by
  rfl

@[simp] theorem State.sendPending_placed (s : State) (vector : Nat) :
    (State.sendPending s vector).placed = s.placed := by
  simp [State.sendPending]

@[simp] theorem State.stepEvent_placed (s : State) (job : Nat) (e : Evt) :
    (State.stepEvent s job e).placed = s.placed := by
  simp only [State.stepEvent]
  (repeat' split) <;> simp

@[simp] theorem State.collEvent_placed (s : State) (code p : Nat) (j : Job) (x : Incoming) (v : Recv) (w7 : Nat) :
    (State.collEvent s code p j x v w7).placed = s.placed := by
  simp [State.collEvent]

@[simp] theorem State.discard_placed (s : State) (v : Recv) (token attempt : Nat) :
    (State.discard s v token attempt).placed = s.placed := by
  simp only [State.discard]
  (repeat' split) <;> simp

@[simp] theorem State.compare_placed (s : State) (j : Job) (x : Incoming) (v : Recv) (h : HeldCsgn) :
    (State.compare s j x v h).placed = s.placed := by
  simp [State.compare]

@[simp] theorem State.landIn_placed (s : State) (p : Nat) (j : Job) (x : Incoming) (v : Recv) (t : Txn) :
    (State.landIn s p j x v t).placed = s.placed := by
  simp only [State.landIn]
  (repeat' split) <;> simp

@[simp] theorem State.ingressEvent_placed (s : State) (d : Nat) (j : Job) (r : Run) (ut pu w6 w7 : Nat) (injected : Bool) :
    (State.ingressEvent s d j r ut pu w6 w7 injected).placed = s.placed := by
  simp [State.ingressEvent]

@[simp] theorem State.ingress_placed (s : State) (p d : Nat) (j : Job) (r : Run) (t : Txn) (chk : Chk) :
    (State.ingress s p d j r t chk).1.placed = s.placed := by
  simp only [State.ingress]
  (repeat' split) <;> simp

@[simp] theorem State.compareHeld_placed (s : State) (j : Job) (x : Incoming) (t : Txn) :
    (State.compareHeld s j x t).placed = s.placed := by
  simp only [State.compareHeld]
  (repeat' split) <;> simp

@[simp] theorem State.recvData_placed (s : State) (p : Nat) (j : Job) (r : Run) (x : Incoming) (t : Txn) (chk : Chk) :
    (State.recvData s p j r x t chk).placed = s.placed := by
  simp only [State.recvData]
  (repeat' split) <;> simp

@[simp] theorem State.contribution_placed (s : State) (p : Nat) (t : Txn) (mode : Nat) (chk : Chk) :
    (State.contribution s p t mode chk).placed = s.placed := by
  simp only [State.contribution]
  (repeat' split) <;> simp

@[simp] theorem State.readRegs_placed (s : State) (addr : Nat) (named : Nat → Bool) (x0 : Nat) :
    (State.readRegs s addr named x0).2.placed = s.placed := by
  induction x0 generalizing s addr with
  | zero => rfl
  | succ n ih =>
    rw [State.readRegs]
    dsimp only
    rw [ih]
    split <;> simp

@[simp] theorem State.readWindow_placed (s : State) (p : Nat) (t : Txn) :
    (State.readWindow s p t).placed = s.placed := by
  simp only [State.readWindow]
  (repeat' split) <;> simp

@[simp] theorem State.recvRd_placed (s : State) (p : Nat) (t : Txn) :
    (State.recvRd s p t).placed = s.placed := by
  simp only [State.recvRd]
  (repeat' split) <;> simp

@[simp] theorem State.recvCsgn_placed (s : State) (p : Nat) (j : Job) (x : Incoming) (t : Txn) :
    (State.recvCsgn s p j x t).placed = s.placed := by
  simp only [State.recvCsgn]
  (repeat' split) <;> simp

@[simp] theorem State.recvVoid_placed (s : State) (p : Nat) (j : Job) (x : Incoming) (t : Txn) :
    (State.recvVoid s p j x t).placed = s.placed := by
  simp [State.recvVoid]

@[simp] theorem State.recvDb_placed (s : State) (p : Nat) (t : Txn) :
    (State.recvDb s p t).placed = s.placed := by
  simp only [State.recvDb]
  (repeat' split) <;> simp

@[simp] theorem State.poisonEntry_placed (s : State) (r : Ring) (t : Txn) :
    (State.poisonEntry s r t).placed = s.placed := by
  simp only [State.poisonEntry]
  (repeat' split) <;> simp

@[simp] theorem State.recvMsg_placed (s : State) (p : Nat) (t : Txn) :
    (State.recvMsg s p t).placed = s.placed := by
  simp only [State.recvMsg]
  (repeat' split) <;> simp

@[simp] theorem State.reroute_placed (s : State) (j : Job) :
    (State.reroute s j).placed = s.placed := by
  simp [State.reroute]

@[simp] theorem State.waitTimeout_placed (s : State) (j : Job) (r : Run) (x : Incoming) :
    (State.waitTimeout s j r x).placed = s.placed := by
  simp [State.waitTimeout]

@[simp] theorem State.sbAnswer_placed (s : State) (status : Byte) (data : W32) :
    (State.sbAnswer s status data).placed = s.placed := by
  rfl

@[simp] theorem State.cccAnswer_placed (s : State) (bs : List Byte) :
    (State.cccAnswer s bs).placed = s.placed := by
  simp [State.cccAnswer]

@[simp] theorem State.watchdogEvents_placed (s : State) (j : Job) (r : Run) (limit elapsed die : Nat) :
    (State.watchdogEvents s j r limit elapsed die).placed = s.placed := by
  unfold State.watchdogEvents
  dsimp only
  split
  · simp
  · rw [foldl_placed]
    intro s h
    simp

@[simp] theorem State.sealSwitch_placed (s : State) (v : Revert) :
    (State.sealSwitch s v).placed = s.placed := by
  simp [State.sealSwitch]

@[simp] theorem State.revertSwitch_placed (s : State) :
    (State.revertSwitch s).placed = s.placed := by
  unfold State.revertSwitch
  (repeat' split) <;> simp

end Sys2Proof.Machine
end

