-- ==== Sys2Proof/Laws/FramePlaced.lean ====
section
/-! SUPPORT. The commands that leave the supply, device time and placement alone: one frame lemma for each. -/

namespace Sys2Proof.Machine
theorem consumeEntry_placed {f : Fetch} {kind : Nat} {want : Cmd → Bool} {k : State → Cmd → State}
    (h : ∀ s c, (k s c).placed = s.placed) (s : State) : (s.consumeEntry f kind want k).placed = s.placed := by
  unfold State.consumeEntry
  dsimp only
  (repeat' split) <;> simp [h]

theorem command_placed {f : Fetch} {op : Nat} {k : State → Cmd → State} (h : ∀ s c, (k s c).placed = s.placed) (s : State) :
    (s.command f op k).placed = s.placed := by
  unfold State.command
  apply consumeEntry_placed
  intro s c
  split <;> simp [h]

theorem regWrite_placed {side : Bool} {n o : Nat} {k : State → State} (h : ∀ s, (k s).placed = s.placed) (s : State) :
    (s.regWrite side n o k).placed = s.placed := by
  unfold State.regWrite
  split <;> simp [h]

theorem takeTxn_placed {s t : State} {p ty : Nat} {x : Txn} (h : s.takeTxn p ty = some (x, t)) : t.placed = s.placed := by
  simp only [State.takeTxn] at h
  (repeat' split at h) <;> first | (cases h; done) | (cases h; simp)

theorem aboutContrib_placed {p : Nat} {x : Txn} {k : State → Job → Incoming → State} (h : ∀ s j c, (k s j c).placed = s.placed) (s : State) :
    (s.aboutContrib p x k).placed = s.placed := by
  unfold State.aboutContrib
  (repeat' split) <;> simp [h]

theorem execStepRun_placed : ∀ f (s t : State), execStepRun f s = .next t → t.placed = s.placed := by
  intro f
  intro s t h
  cases h
  apply command_placed
  intro s c
  unfold doStepRun
  try dsimp only
  (repeat' split) <;> simp

theorem execSnapshot_placed : ∀ f (s t : State), execSnapshot f s = .next t → t.placed = s.placed := by
  intro f
  intro s t h
  cases h
  apply command_placed
  intro s c
  unfold doSnapshot
  try dsimp only
  (repeat' split) <;> simp

theorem execJobEnd_placed : ∀ f (s t : State), execJobEnd f s = .next t → t.placed = s.placed := by
  intro f
  intro s t h
  cases h
  apply command_placed
  intro s c
  unfold doJobEnd
  try dsimp only
  (repeat' split) <;> simp

theorem execJobEndEffect_placed : ∀ job (s t : State), execJobEndEffect job s = .next t → t.placed = s.placed := by
  intro job
  intro s t h
  simp only [execJobEndEffect] at h
  (repeat' split at h) <;> first | (cases h; done) | (cases h; rfl) | (cases h; simp; done) | (cases h; simp_all)

theorem execJobAbort_placed : ∀ f (s t : State), execJobAbort f s = .next t → t.placed = s.placed := by
  intro f
  intro s t h
  cases h
  apply command_placed
  intro s c
  unfold doJobAbort
  try dsimp only
  (repeat' split) <;> simp

theorem execRingAlloc_placed : ∀ f (s t : State), execRingAlloc f s = .next t → t.placed = s.placed := by
  intro f
  intro s t h
  cases h
  apply command_placed
  intro s c
  unfold doRingAlloc
  try dsimp only
  (repeat' split) <;> simp

theorem execRingFree_placed : ∀ f (s t : State), execRingFree f s = .next t → t.placed = s.placed := by
  intro f
  intro s t h
  cases h
  apply command_placed
  intro s c
  unfold doRingFree
  try dsimp only
  (repeat' split) <;> simp

theorem execSeqOpen_placed : ∀ f (s t : State), execSeqOpen f s = .next t → t.placed = s.placed := by
  intro f
  intro s t h
  cases h
  apply command_placed
  intro s c
  unfold doSeqOpen
  try dsimp only
  (repeat' split) <;> simp

theorem execSeqClose_placed : ∀ f (s t : State), execSeqClose f s = .next t → t.placed = s.placed := by
  intro f
  intro s t h
  cases h
  apply command_placed
  intro s c
  unfold doSeqClose
  try dsimp only
  (repeat' split) <;> simp

theorem execBoundary_placed : ∀ f (s t : State), execBoundary f s = .next t → t.placed = s.placed := by
  intro f
  intro s t h
  cases h
  apply command_placed
  intro s c
  unfold doBoundary
  try dsimp only
  (repeat' split) <;> simp

theorem execDieBankSwitch_placed : ∀ core (s t : State), execDieBankSwitch core s = .next t → t.placed = s.placed := by
  intro core
  intro s t h
  simp only [execDieBankSwitch] at h
  (repeat' split at h) <;> first | (cases h; done) | (cases h; rfl) | (cases h; simp; done) | (cases h; simp_all)

theorem execAssayInstall_placed : ∀ f (s t : State), execAssayInstall f s = .next t → t.placed = s.placed := by
  intro f
  intro s t h
  cases h
  apply command_placed
  intro s c
  unfold doAssayInstall
  try dsimp only
  (repeat' split) <;> simp

theorem execAssayRemove_placed : ∀ f (s t : State), execAssayRemove f s = .next t → t.placed = s.placed := by
  intro f
  intro s t h
  cases h
  apply command_placed
  intro s c
  unfold doAssayRemove
  try dsimp only
  (repeat' split) <;> simp

theorem execAssayRequest_placed : ∀ f (s t : State), execAssayRequest f s = .next t → t.placed = s.placed := by
  intro f
  intro s t h
  cases h
  apply command_placed
  intro s c
  unfold doAssayRequest
  try dsimp only
  (repeat' split) <;> simp

theorem execFwStage_placed : ∀ f (s t : State), execFwStage f s = .next t → t.placed = s.placed := by
  intro f
  intro s t h
  cases h
  apply command_placed
  intro s c
  unfold doFwStage
  try dsimp only
  (repeat' split) <;> simp

theorem execFwSwitch_placed : ∀ f (s t : State), execFwSwitch f s = .next t → t.placed = s.placed := by
  intro f
  intro s t h
  cases h
  apply command_placed
  intro s c
  unfold doFwSwitch
  try dsimp only
  (repeat' split) <;> simp

theorem execFwCommit_placed : ∀ f (s t : State), execFwCommit f s = .next t → t.placed = s.placed := by
  intro f
  intro s t h
  cases h
  apply command_placed
  intro s c
  unfold doFwCommit
  try dsimp only
  (repeat' split) <;> simp

theorem execConfigInstall_placed : ∀ f (s t : State), execConfigInstall f s = .next t → t.placed = s.placed := by
  intro f
  intro s t h
  cases h
  apply command_placed
  intro s c
  unfold doConfigInstall
  try dsimp only
  (repeat' split) <;> simp

theorem execAttest_placed : ∀ f (s t : State), execAttest f s = .next t → t.placed = s.placed := by
  intro f
  intro s t h
  cases h
  apply command_placed
  intro s c
  unfold doAttest
  try dsimp only
  (repeat' split) <;> simp

theorem execSequenceRequest_placed : ∀ f (s t : State), execSequenceRequest f s = .next t → t.placed = s.placed := by
  intro f
  intro s t h
  cases h
  apply consumeEntry_placed
  intro s c
  unfold doSeqRequest
  try dsimp only
  (repeat' split) <;> simp

theorem execBoundaryMarker_placed : ∀ f (s t : State), execBoundaryMarker f s = .next t → t.placed = s.placed := by
  intro f
  intro s t h
  cases h
  apply consumeEntry_placed
  intro s c
  unfold doMarker
  try dsimp only
  (repeat' split) <;> simp

theorem execBatchTimer_placed : ∀ job lcore rule (s t : State), execBatchTimer job lcore rule s = .next t → t.placed = s.placed := by
  intro job lcore rule
  intro s t h
  simp only [execBatchTimer] at h
  (repeat' split at h) <;> first | (cases h; done) | (cases h; rfl) | (cases h; simp; done) | (cases h; simp_all)

theorem execNop_placed : ∀ d chk (s t : State), execNop d chk s = .next t → t.placed = s.placed := by
  intro d chk
  intro s t h
  simp only [execNop] at h
  (repeat' split at h) <;> first | (cases h; done) | (cases h; rfl) | (cases h; simp; done) | (cases h; simp_all)

theorem execStepBegin_placed : ∀ d (s t : State), execStepBegin d s = .next t → t.placed = s.placed := by
  intro d s t h
  simp only [execStepBegin] at h
  (repeat' split at h) <;> first | (cases h; done) | (cases h; rfl) | (cases h; simp; done) | (cases h; simp_all)

theorem execStepEnd_placed : ∀ d (s t : State), execStepEnd d s = .next t → t.placed = s.placed := by
  intro d s t h
  simp only [execStepEnd] at h
  (repeat' split at h) <;> first | (cases h; done) | (cases h; rfl) | (cases h; simp; done) | (cases h; simp_all)

theorem execRngFill_placed : ∀ d chk (s t : State), execRngFill d chk s = .next t → t.placed = s.placed := by
  intro d chk
  intro s t h
  simp only [execRngFill] at h
  (repeat' split at h) <;> first | (cases h; done) | (cases h; rfl) | (cases h; simp; done) | (cases h; simp_all)

theorem execMove_placed : ∀ d chk (s t : State), execMove d chk s = .next t → t.placed = s.placed := by
  intro d chk
  intro s t h
  simp only [execMove] at h
  (repeat' split at h) <;> first | (cases h; done) | (cases h; rfl) | (cases h; simp; done) | (cases h; simp_all)

theorem execMoveLands_placed : ∀ d idx chk (s t : State), execMoveLands d idx chk s = .next t → t.placed = s.placed := by
  intro d idx chk
  intro s t h
  simp only [execMoveLands] at h
  (repeat' split at h) <;> first | (cases h; done) | (cases h; rfl) | (cases h; simp; done) | (cases h; simp_all)

theorem execAtomT256_placed : ∀ d chk (s t : State), execAtomT256 d chk s = .next t → t.placed = s.placed := by
  intro d chk
  intro s t h
  simp only [execAtomT256] at h
  (repeat' split at h) <;> first | (cases h; done) | (cases h; rfl) | (cases h; simp; done) | (cases h; simp_all)

theorem execAtomFp32_placed : ∀ d chk (s t : State), execAtomFp32 d chk s = .next t → t.placed = s.placed := by
  intro d chk
  intro s t h
  simp only [execAtomFp32] at h
  (repeat' split at h) <;> first | (cases h; done) | (cases h; rfl) | (cases h; simp; done) | (cases h; simp_all)

theorem execMillLoad_placed : ∀ d chk (s t : State), execMillLoad d chk s = .next t → t.placed = s.placed := by
  intro d chk
  intro s t h
  simp only [execMillLoad] at h
  (repeat' split at h) <;> first | (cases h; done) | (cases h; rfl) | (cases h; simp; done) | (cases h; simp_all)

theorem execMillPass_placed : ∀ d chk (s t : State), execMillPass d chk s = .next t → t.placed = s.placed := by
  intro d chk
  intro s t h
  simp only [execMillPass] at h
  (repeat' split at h) <;> first | (cases h; done) | (cases h; rfl) | (cases h; simp; done) | (cases h; simp_all)

theorem execRecordComplete_placed : ∀ d idx (s t : State), execRecordComplete d idx s = .next t → t.placed = s.placed := by
  intro d idx
  intro s t h
  simp only [execRecordComplete] at h
  (repeat' split at h) <;> first | (cases h; done) | (cases h; rfl) | (cases h; simp; done) | (cases h; simp_all)

theorem execAdd_placed : ∀ d chk (s t : State), execAdd d chk s = .next t → t.placed = s.placed := by
  intro d chk
  intro s t h
  simp only [execAdd] at h
  (repeat' split at h) <;> first | (cases h; done) | (cases h; rfl) | (cases h; simp; done) | (cases h; simp_all)

theorem execSub_placed : ∀ d chk (s t : State), execSub d chk s = .next t → t.placed = s.placed := by
  intro d chk
  intro s t h
  simp only [execSub] at h
  (repeat' split at h) <;> first | (cases h; done) | (cases h; rfl) | (cases h; simp; done) | (cases h; simp_all)

theorem execMul_placed : ∀ d chk (s t : State), execMul d chk s = .next t → t.placed = s.placed := by
  intro d chk
  intro s t h
  simp only [execMul] at h
  (repeat' split at h) <;> first | (cases h; done) | (cases h; rfl) | (cases h; simp; done) | (cases h; simp_all)

theorem execMad_placed : ∀ d chk (s t : State), execMad d chk s = .next t → t.placed = s.placed := by
  intro d chk
  intro s t h
  simp only [execMad] at h
  (repeat' split at h) <;> first | (cases h; done) | (cases h; rfl) | (cases h; simp; done) | (cases h; simp_all)

theorem execMin_placed : ∀ d chk (s t : State), execMin d chk s = .next t → t.placed = s.placed := by
  intro d chk
  intro s t h
  simp only [execMin] at h
  (repeat' split at h) <;> first | (cases h; done) | (cases h; rfl) | (cases h; simp; done) | (cases h; simp_all)

theorem execMax_placed : ∀ d chk (s t : State), execMax d chk s = .next t → t.placed = s.placed := by
  intro d chk
  intro s t h
  simp only [execMax] at h
  (repeat' split at h) <;> first | (cases h; done) | (cases h; rfl) | (cases h; simp; done) | (cases h; simp_all)

theorem execAbs_placed : ∀ d chk (s t : State), execAbs d chk s = .next t → t.placed = s.placed := by
  intro d chk
  intro s t h
  simp only [execAbs] at h
  (repeat' split at h) <;> first | (cases h; done) | (cases h; rfl) | (cases h; simp; done) | (cases h; simp_all)

theorem execNeg_placed : ∀ d chk (s t : State), execNeg d chk s = .next t → t.placed = s.placed := by
  intro d chk
  intro s t h
  simp only [execNeg] at h
  (repeat' split at h) <;> first | (cases h; done) | (cases h; rfl) | (cases h; simp; done) | (cases h; simp_all)

theorem execCvt_placed : ∀ d chk (s t : State), execCvt d chk s = .next t → t.placed = s.placed := by
  intro d chk
  intro s t h
  simp only [execCvt] at h
  (repeat' split at h) <;> first | (cases h; done) | (cases h; rfl) | (cases h; simp; done) | (cases h; simp_all)

theorem execSel_placed : ∀ d chk (s t : State), execSel d chk s = .next t → t.placed = s.placed := by
  intro d chk
  intro s t h
  simp only [execSel] at h
  (repeat' split at h) <;> first | (cases h; done) | (cases h; rfl) | (cases h; simp; done) | (cases h; simp_all)

theorem execCmpge_placed : ∀ d chk (s t : State), execCmpge d chk s = .next t → t.placed = s.placed := by
  intro d chk
  intro s t h
  simp only [execCmpge] at h
  (repeat' split at h) <;> first | (cases h; done) | (cases h; rfl) | (cases h; simp; done) | (cases h; simp_all)

theorem execFinDrain_placed : ∀ d chk (s t : State), execFinDrain d chk s = .next t → t.placed = s.placed := by
  intro d chk
  intro s t h
  simp only [execFinDrain] at h
  (repeat' split at h) <;> first | (cases h; done) | (cases h; rfl) | (cases h; simp; done) | (cases h; simp_all)

theorem execFinReduce_placed : ∀ d chk (s t : State), execFinReduce d chk s = .next t → t.placed = s.placed := by
  intro d chk
  intro s t h
  simp only [execFinReduce] at h
  (repeat' split at h) <;> first | (cases h; done) | (cases h; rfl) | (cases h; simp; done) | (cases h; simp_all)

theorem execFinCheck_placed : ∀ d chk (s t : State), execFinCheck d chk s = .next t → t.placed = s.placed := by
  intro d chk
  intro s t h
  simp only [execFinCheck] at h
  (repeat' split at h) <;> first | (cases h; done) | (cases h; rfl) | (cases h; simp; done) | (cases h; simp_all)

theorem execFrmEval_placed : ∀ d chk (s t : State), execFrmEval d chk s = .next t → t.placed = s.placed := by
  intro d chk
  intro s t h
  simp only [execFrmEval] at h
  (repeat' split at h) <;> first | (cases h; done) | (cases h; rfl) | (cases h; simp; done) | (cases h; simp_all)

theorem execFrmSmaxAcc_placed : ∀ d chk (s t : State), execFrmSmaxAcc d chk s = .next t → t.placed = s.placed := by
  intro d chk
  intro s t h
  simp only [execFrmSmaxAcc] at h
  (repeat' split at h) <;> first | (cases h; done) | (cases h; rfl) | (cases h; simp; done) | (cases h; simp_all)

theorem execFrmSmaxOut_placed : ∀ d chk (s t : State), execFrmSmaxOut d chk s = .next t → t.placed = s.placed := by
  intro d chk
  intro s t h
  simp only [execFrmSmaxOut] at h
  (repeat' split at h) <;> first | (cases h; done) | (cases h; rfl) | (cases h; simp; done) | (cases h; simp_all)

theorem execFrmRms_placed : ∀ d chk (s t : State), execFrmRms d chk s = .next t → t.placed = s.placed := by
  intro d chk
  intro s t h
  simp only [execFrmRms] at h
  (repeat' split at h) <;> first | (cases h; done) | (cases h; rfl) | (cases h; simp; done) | (cases h; simp_all)

theorem execCollSend_placed : ∀ d chk (s t : State), execCollSend d chk s = .next t → t.placed = s.placed := by
  intro d chk
  intro s t h
  simp only [execCollSend] at h
  (repeat' split at h) <;> first | (cases h; done) | (cases h; rfl) | (cases h; simp; done) | (cases h; simp_all)

theorem execStepSelect_placed : ∀ (s t : State), execStepSelect  s = .next t → t.placed = s.placed := by
  intro s t h
  simp only [execStepSelect] at h
  (repeat' split at h) <;> first | (cases h; done) | (cases h; rfl) | (cases h; simp; done) | (cases h; simp_all)

theorem execEscrowWriteBack_placed : ∀ job page (s t : State), execEscrowWriteBack job page s = .next t → t.placed = s.placed := by
  intro job page
  intro s t h
  simp only [execEscrowWriteBack] at h
  (repeat' split at h) <;> first | (cases h; done) | (cases h; rfl) | (cases h; simp; done) | (cases h; simp_all)

theorem execRecountRun_placed : ∀ job (s t : State), execRecountRun job s = .next t → t.placed = s.placed := by
  intro job
  intro s t h
  unfold execRecountRun at h
  split at h
  · split at h
    · cases h; rfl
    · extract_lets m moved q u v at h
      split at h
      · cases h; rfl
      · have h := Host.Outcome.next.inj h
        rw [← h]
        clear h
        rw [State.nextRun_placed, State.readReceived_placed, State.readyAll_placed, State.setJob_placed]
  · cases h; rfl

theorem execWatchdog_placed : ∀ job limit elapsed die (s t : State), execWatchdog job limit elapsed die s = .next t → t.placed = s.placed := by
  intro job limit elapsed die
  intro s t h
  simp only [execWatchdog] at h
  (repeat' split at h) <;> first | (cases h; done) | (cases h; rfl) | (cases h; simp; done) | (cases h; simp_all)

theorem execRegeneration_placed : ∀ job desc (s t : State), execRegeneration job desc s = .next t → t.placed = s.placed := by
  intro job desc
  intro s t h
  simp only [execRegeneration] at h
  (repeat' split at h) <;> first | (cases h; done) | (cases h; rfl) | (cases h; simp; done) | (cases h; simp_all)

theorem execScrub_placed : ∀ loc ecc (s t : State), execScrub loc ecc s = .next t → t.placed = s.placed := by
  intro loc ecc
  intro s t h
  simp only [execScrub] at h
  (repeat' split at h) <;> first | (cases h; done) | (cases h; rfl) | (cases h; simp; done) | (cases h; simp_all)

theorem execEccRewrite_placed : ∀ loc bad (s t : State), execEccRewrite loc bad s = .next t → t.placed = s.placed := by
  intro loc bad
  intro s t h
  simp only [execEccRewrite] at h
  (repeat' split at h) <;> first | (cases h; done) | (cases h; rfl) | (cases h; simp; done) | (cases h; simp_all)

theorem execArrearsPromoted_placed : ∀ user arrears (s t : State), execArrearsPromoted user arrears s = .next t → t.placed = s.placed := by
  intro user arrears
  intro s t h
  simp only [execArrearsPromoted] at h
  (repeat' split at h) <;> first | (cases h; done) | (cases h; rfl) | (cases h; simp; done) | (cases h; simp_all)

theorem execAssayRotation_placed : ∀ die (s t : State), execAssayRotation die s = .next t → t.placed = s.placed := by
  intro die s t h
  unfold execAssayRotation at h
  dsimp only at h
  (repeat' split at h) <;> first | (cases h; done) | (cases h; rfl) | (cases h; simp [State.reachThird]; done)

theorem execSummaryFold_placed : ∀ (s t : State), execSummaryFold  s = .next t → t.placed = s.placed := by
  intro s t h
  simp only [execSummaryFold] at h
  (repeat' split at h) <;> first | (cases h; rfl) | (cases h; simp; done) | (cases h; simp; apply foldl_placed; intro s x; simp)

theorem execBlankStrikeRampDown_placed : ∀ core (s t : State), execBlankStrikeRampDown core s = .next t → t.placed = s.placed := by
  intro core s t h
  simp only [execBlankStrikeRampDown] at h
  (repeat' split at h) <;> first | (cases h; done) | (cases h; rfl) | (cases h; simp; done) | (cases h; simp_all)

theorem execRelayRead_placed : ∀ pos off (s t : State), execRelayRead pos off s = .next t → t.placed = s.placed := by
  intro pos off
  intro s t h
  simp only [execRelayRead] at h
  (repeat' split at h) <;> first | (cases h; done) | (cases h; rfl) | (cases h; simp; done) | (cases h; simp_all)

theorem execRelayTimeout_placed : ∀ port tag (s t : State), execRelayTimeout port tag s = .next t → t.placed = s.placed := by
  intro port tag
  intro s t h
  simp only [execRelayTimeout] at h
  (repeat' split at h) <;> first | (cases h; done) | (cases h; rfl) | (cases h; simp; done) | (cases h; simp_all)

theorem execSidebandRead_placed : ∀ off ok (s t : State), execSidebandRead off ok s = .next t → t.placed = s.placed := by
  intro off ok
  intro s t h
  simp only [execSidebandRead] at h
  (repeat' split at h) <;> first | (cases h; done) | (cases h; rfl) | (cases h; simp; done) | (cases h; simp_all)

theorem execSidebandAlert_placed : ∀ off ok (s t : State), execSidebandAlert off ok s = .next t → t.placed = s.placed := by
  intro off ok
  intro s t h
  simp only [execSidebandAlert] at h
  (repeat' split at h) <;> first | (cases h; done) | (cases h; rfl) | (cases h; simp; done) | (cases h; simp_all)

theorem execGetpid_placed : ∀ (s t : State), execGetpid  s = .next t → t.placed = s.placed := by
  intro s t h
  simp only [execGetpid] at h
  (repeat' split at h) <;> first | (cases h; done) | (cases h; rfl) | (cases h; simp; done) | (cases h; simp_all)

theorem execGetbcr_placed : ∀ (s t : State), execGetbcr  s = .next t → t.placed = s.placed := by
  intro s t h
  simp only [execGetbcr] at h
  (repeat' split at h) <;> first | (cases h; done) | (cases h; rfl) | (cases h; simp; done) | (cases h; simp_all)

theorem execGetdcr_placed : ∀ (s t : State), execGetdcr  s = .next t → t.placed = s.placed := by
  intro s t h
  simp only [execGetdcr] at h
  (repeat' split at h) <;> first | (cases h; done) | (cases h; rfl) | (cases h; simp; done) | (cases h; simp_all)

theorem execGetstatus_placed : ∀ (s t : State), execGetstatus  s = .next t → t.placed = s.placed := by
  intro s t h
  simp only [execGetstatus] at h
  (repeat' split at h) <;> first | (cases h; done) | (cases h; rfl) | (cases h; simp; done) | (cases h; simp_all)

theorem execLaneDrop_placed : ∀ port lane (s t : State), execLaneDrop port lane s = .next t → t.placed = s.placed := by
  intro port lane s t h
  unfold execLaneDrop at h
  dsimp only at h
  split at h
  · cases h; rfl
  · split at h
    · cases h
      rw [State.portDown_placed, State.lockBreak_placed, State.setPort_placed]
    · cases h
      rw [State.classEdge_placed, State.setPort_placed, State.lockBreak_placed, State.setPort_placed]

theorem execTraining_placed : ∀ port lanes partner (s t : State), execTraining port lanes partner s = .next t → t.placed = s.placed := by
  intro port lanes partner s t h
  cases h
  exact State.train_placed _ _ _ _

theorem execHello_placed : ∀ port hello (s t : State), execHello port hello s = .next t → t.placed = s.placed := by
  intro port hello s t h
  cases h
  exact State.greet_placed _ _ _

theorem execResponse_placed : ∀ port sigs (s t : State), execResponse port sigs s = .next t → t.placed = s.placed := by
  intro port sigs s t h
  cases h
  unfold State.answered
  split
  · split
    · exact State.admitPort_placed _ _ _ _
    · rw [State.classEdge_placed, State.failAuth_placed]
  · rfl

theorem execAuthFail_placed : ∀ port order (s t : State), execAuthFail port order s = .next t → t.placed = s.placed := by
  intro port order s t h
  cases h
  exact State.giveUp_placed _ _ _

theorem execBindingForward_placed : ∀ port id digest (s t : State), execBindingForward port id digest s = .next t → t.placed = s.placed := by
  intro port id digest
  intro s t h
  simp only [execBindingForward] at h
  (repeat' split at h) <;> first | (cases h; done) | (cases h; rfl) | (cases h; simp; done) | (cases h; simp_all)

theorem execFolioClaim_placed : ∀ port pos teller (s t : State), execFolioClaim port pos teller s = .next t → t.placed = s.placed := by
  intro port pos teller s t h
  simp only [execFolioClaim] at h
  (repeat' split at h) <;> first | (cases h; done) | (cases h; rfl) | (cases h; simp; done) | (cases h; simp_all)

theorem execFlitReceive_placed : ∀ port flit corrected (s t : State), execFlitReceive port flit corrected s = .next t → t.placed = s.placed := by
  intro port flit corrected
  intro s t h
  simp only [execFlitReceive] at h
  (repeat' split at h) <;> first | (cases h; done) | (cases h; rfl) | (cases h; simp; done) | (cases h; simp_all)

theorem execReplayRequest_placed : ∀ port (s t : State), execReplayRequest port s = .next t → t.placed = s.placed := by
  intro port
  intro s t h
  simp only [execReplayRequest] at h
  (repeat' split at h) <;> first | (cases h; done) | (cases h; rfl) | (cases h; simp; done) | (cases h; simp_all)

theorem execAckTimer_placed : ∀ port (s t : State), execAckTimer port s = .next t → t.placed = s.placed := by
  intro port
  intro s t h
  simp only [execAckTimer] at h
  (repeat' split at h) <;> first | (cases h; done) | (cases h; rfl) | (cases h; simp; done) | (cases h; simp_all)

theorem execSilenceTimer_placed : ∀ port (s t : State), execSilenceTimer port s = .next t → t.placed = s.placed := by
  intro port
  intro s t h
  simp only [execSilenceTimer] at h
  (repeat' split at h) <;> first | (cases h; done) | (cases h; rfl) | (cases h; simp; done) | (cases h; simp_all)

theorem execSlowPartner_placed : ∀ port vc (s t : State), execSlowPartner port vc s = .next t → t.placed = s.placed := by
  intro port vc
  intro s t h
  simp only [execSlowPartner] at h
  (repeat' split at h) <;> first | (cases h; done) | (cases h; rfl) | (cases h; simp; done) | (cases h; simp_all)

theorem execTagAbort_placed : ∀ port tag (s t : State), execTagAbort port tag s = .next t → t.placed = s.placed := by
  intro port tag
  intro s t h
  simp only [execTagAbort] at h
  (repeat' split at h) <;> first | (cases h; done) | (cases h; rfl) | (cases h; simp; done) | (cases h; simp_all)

theorem execRd_placed : ∀ port (s t : State), execRd port s = .next t → t.placed = s.placed := by
  intro port
  intro s t h
  simp only [execRd] at h
  (repeat' split at h) <;> first | (cases h; done) | (cases h; rfl) | (cases h; rename_i hx; have := takeTxn_placed hx; simp_all; done) | (cases h; rename_i hx _; have := takeTxn_placed hx; simp_all; done) | (cases h; rename_i hx _ _; have := takeTxn_placed hx; simp_all; done) | (cases h; rename_i hx _ _ _; have := takeTxn_placed hx; simp_all; done) | (cases h; rename_i hx _ _ _ _; have := takeTxn_placed hx; simp_all) | (cases h; rename_i hx _ _ _ _ _; have := takeTxn_placed hx; simp_all)

theorem execAt256_placed : ∀ port chk (s t : State), execAt256 port chk s = .next t → t.placed = s.placed := by
  intro port chk
  intro s t h
  simp only [execAt256] at h
  (repeat' split at h) <;> first | (cases h; done) | (cases h; rfl) | (cases h; rename_i hx; have := takeTxn_placed hx; simp_all; done) | (cases h; rename_i hx _; have := takeTxn_placed hx; simp_all; done) | (cases h; rename_i hx _ _; have := takeTxn_placed hx; simp_all; done) | (cases h; rename_i hx _ _ _; have := takeTxn_placed hx; simp_all; done) | (cases h; rename_i hx _ _ _ _; have := takeTxn_placed hx; simp_all) | (cases h; rename_i hx _ _ _ _ _; have := takeTxn_placed hx; simp_all)

theorem execAfp32_placed : ∀ port chk (s t : State), execAfp32 port chk s = .next t → t.placed = s.placed := by
  intro port chk
  intro s t h
  simp only [execAfp32] at h
  (repeat' split at h) <;> first | (cases h; done) | (cases h; rfl) | (cases h; rename_i hx; have := takeTxn_placed hx; simp_all; done) | (cases h; rename_i hx _; have := takeTxn_placed hx; simp_all; done) | (cases h; rename_i hx _ _; have := takeTxn_placed hx; simp_all; done) | (cases h; rename_i hx _ _ _; have := takeTxn_placed hx; simp_all; done) | (cases h; rename_i hx _ _ _ _; have := takeTxn_placed hx; simp_all) | (cases h; rename_i hx _ _ _ _ _; have := takeTxn_placed hx; simp_all)

theorem execCpl_placed : ∀ port (s t : State), execCpl port s = .next t → t.placed = s.placed := by
  intro port
  intro s t h
  simp only [execCpl] at h
  (repeat' split at h) <;> first | (cases h; done) | (cases h; rfl) | (cases h; rename_i hx; have := takeTxn_placed hx; simp_all; done) | (cases h; rename_i hx _; have := takeTxn_placed hx; simp_all; done) | (cases h; rename_i hx _ _; have := takeTxn_placed hx; simp_all; done) | (cases h; rename_i hx _ _ _; have := takeTxn_placed hx; simp_all; done) | (cases h; rename_i hx _ _ _ _; have := takeTxn_placed hx; simp_all) | (cases h; rename_i hx _ _ _ _ _; have := takeTxn_placed hx; simp_all)

theorem execDb_placed : ∀ port (s t : State), execDb port s = .next t → t.placed = s.placed := by
  intro port
  intro s t h
  simp only [execDb] at h
  (repeat' split at h) <;> first | (cases h; done) | (cases h; rfl) | (cases h; rename_i hx; have := takeTxn_placed hx; simp_all; done) | (cases h; rename_i hx _; have := takeTxn_placed hx; simp_all; done) | (cases h; rename_i hx _ _; have := takeTxn_placed hx; simp_all; done) | (cases h; rename_i hx _ _ _; have := takeTxn_placed hx; simp_all; done) | (cases h; rename_i hx _ _ _ _; have := takeTxn_placed hx; simp_all) | (cases h; rename_i hx _ _ _ _ _; have := takeTxn_placed hx; simp_all)

theorem execMsg_placed : ∀ port (s t : State), execMsg port s = .next t → t.placed = s.placed := by
  intro port
  intro s t h
  simp only [execMsg] at h
  (repeat' split at h) <;> first | (cases h; done) | (cases h; rfl) | (cases h; rename_i hx; have := takeTxn_placed hx; simp_all; done) | (cases h; rename_i hx _; have := takeTxn_placed hx; simp_all; done) | (cases h; rename_i hx _ _; have := takeTxn_placed hx; simp_all; done) | (cases h; rename_i hx _ _ _; have := takeTxn_placed hx; simp_all; done) | (cases h; rename_i hx _ _ _ _; have := takeTxn_placed hx; simp_all) | (cases h; rename_i hx _ _ _ _ _; have := takeTxn_placed hx; simp_all)

theorem execCsgn_placed : ∀ port (s t : State), execCsgn port s = .next t → t.placed = s.placed := by
  intro port
  intro s t h
  simp only [execCsgn] at h
  split at h
  · cases h
    rename_i hx
    rw [← takeTxn_placed hx]
    apply aboutContrib_placed
    intro s j c
    simp
  · cases h
    rfl

theorem execVoid_placed : ∀ port (s t : State), execVoid port s = .next t → t.placed = s.placed := by
  intro port
  intro s t h
  simp only [execVoid] at h
  split at h
  · cases h
    rename_i hx
    rw [← takeTxn_placed hx]
    apply aboutContrib_placed
    intro s j c
    simp
  · cases h
    rfl

theorem execIntr_placed : ∀ port (s t : State), execIntr port s = .next t → t.placed = s.placed := by
  intro port
  intro s t h
  simp only [execIntr] at h
  (repeat' split at h) <;> first | (cases h; done) | (cases h; rfl) | (cases h; rename_i hx; have := takeTxn_placed hx; simp_all; done) | (cases h; rename_i hx _; have := takeTxn_placed hx; simp_all; done) | (cases h; rename_i hx _ _; have := takeTxn_placed hx; simp_all; done) | (cases h; rename_i hx _ _ _; have := takeTxn_placed hx; simp_all; done) | (cases h; rename_i hx _ _ _ _; have := takeTxn_placed hx; simp_all) | (cases h; rename_i hx _ _ _ _ _; have := takeTxn_placed hx; simp_all)

theorem execMsgResend_placed : ∀ ring (s t : State), execMsgResend ring s = .next t → t.placed = s.placed := by
  intro ring
  intro s t h
  simp only [execMsgResend] at h
  (repeat' split at h) <;> first | (cases h; done) | (cases h; rfl) | (cases h; simp; done) | (cases h; simp_all)

theorem execContribResend_placed : ∀ send (s t : State), execContribResend send s = .next t → t.placed = s.placed := by
  intro send
  intro s t h
  simp only [execContribResend] at h
  (repeat' split at h) <;> first | (cases h; done) | (cases h; rfl) | (cases h; simp; done) | (cases h; simp_all)

theorem execCollWait_placed : ∀ job (s t : State), execCollWait job s = .next t → t.placed = s.placed := by
  intro job s t h
  simp only [execCollWait] at h
  (repeat' split at h) <;> first | (cases h; done) | (cases h; rfl) | (cases h; simp; done) | (cases h; simp_all)

theorem execPortEnable_placed : ∀ port on (s t : State), execPortEnable port on s = .next t → t.placed = s.placed := by
  intro port on
  intro s t h
  simp only [execPortEnable] at h
  (repeat' split at h) <;> first | (cases h; done) | (cases h; rfl) | (cases h; simp; done) | (cases h; apply regWrite_placed; intro s; simp)

theorem execDevCtl_placed : ∀ data (s t : State), execDevCtl data s = .next t → t.placed = s.placed := by
  intro data
  intro s t h
  simp only [execDevCtl] at h
  (repeat' split at h) <;> first | (cases h; done) | (cases h; rfl) | (cases h; simp; done) | (cases h; apply regWrite_placed; intro s; simp)

theorem execEvtForce_placed : ∀ page data (s t : State), execEvtForce page data s = .next t → t.placed = s.placed := by
  intro page data
  intro s t h
  simp only [execEvtForce] at h
  (repeat' split at h) <;> first | (cases h; done) | (cases h; rfl) | (cases h; simp; done) | (cases h; apply regWrite_placed; intro s; simp)

theorem execEvtCount_placed : ∀ page (s t : State), execEvtCount page s = .next t → t.placed = s.placed := by
  intro page
  intro s t h
  simp only [execEvtCount] at h
  (repeat' split at h) <;> first | (cases h; done) | (cases h; rfl) | (cases h; simp; done) | (cases h; simp_all)

theorem execLdgDbValue_placed : ∀ data (s t : State), execLdgDbValue data s = .next t → t.placed = s.placed := by
  intro data
  intro s t h
  simp only [execLdgDbValue] at h
  (repeat' split at h) <;> first | (cases h; done) | (cases h; rfl) | (cases h; simp; done) | (cases h; apply regWrite_placed; intro s; simp)

theorem execLdgDbDiscard_placed : ∀ (s t : State), execLdgDbDiscard  s = .next t → t.placed = s.placed := by
  intro s t h
  simp only [execLdgDbDiscard] at h
  (repeat' split at h) <;> first | (cases h; done) | (cases h; rfl) | (cases h; simp; done) | (cases h; simp_all)

theorem execErrPop_placed : ∀ data (s t : State), execErrPop data s = .next t → t.placed = s.placed := by
  intro data
  intro s t h
  simp only [execErrPop] at h
  (repeat' split at h) <;> first | (cases h; done) | (cases h; rfl) | (cases h; simp; done) | (cases h; apply regWrite_placed; intro s; simp)

theorem execErrIrq_placed : ∀ data (s t : State), execErrIrq data s = .next t → t.placed = s.placed := by
  intro data
  intro s t h
  simp only [execErrIrq] at h
  (repeat' split at h) <;> first | (cases h; done) | (cases h; rfl) | (cases h; simp; done) | (cases h; apply regWrite_placed; intro s; simp)

theorem execAdmCmdPush_placed : ∀ data (s t : State), execAdmCmdPush data s = .next t → t.placed = s.placed := by
  intro data
  intro s t h
  simp only [execAdmCmdPush] at h
  (repeat' split at h) <;> first | (cases h; done) | (cases h; rfl) | (cases h; simp; done) | (cases h; apply regWrite_placed; intro s; simp)

theorem execAdmCplPop_placed : ∀ data (s t : State), execAdmCplPop data s = .next t → t.placed = s.placed := by
  intro data
  intro s t h
  simp only [execAdmCplPop] at h
  (repeat' split at h) <;> first | (cases h; done) | (cases h; rfl) | (cases h; simp; done) | (cases h; apply regWrite_placed; intro s; simp)

theorem execCounterLoRead_placed : ∀ off (s t : State), execCounterLoRead off s = .next t → t.placed = s.placed := by
  intro off
  intro s t h
  simp only [execCounterLoRead] at h
  (repeat' split at h) <;> first | (cases h; done) | (cases h; rfl) | (cases h; simp; done) | (cases h; simp_all)

theorem execCounterLoWrite_placed : ∀ off data (s t : State), execCounterLoWrite off data s = .next t → t.placed = s.placed := by
  intro off data
  intro s t h
  simp only [execCounterLoWrite] at h
  (repeat' split at h) <;> first | (cases h; done) | (cases h; rfl) | (cases h; simp; done) | (cases h; apply regWrite_placed; intro s; simp)

theorem execCounterHiWrite_placed : ∀ off data (s t : State), execCounterHiWrite off data s = .next t → t.placed = s.placed := by
  intro off data
  intro s t h
  simp only [execCounterHiWrite] at h
  (repeat' split at h) <;> first | (cases h; done) | (cases h; rfl) | (cases h; simp; done) | (cases h; apply regWrite_placed; intro s; simp)

theorem execMonSel_placed : ∀ page data (s t : State), execMonSel page data s = .next t → t.placed = s.placed := by
  intro page data
  intro s t h
  simp only [execMonSel] at h
  (repeat' split at h) <;> first | (cases h; done) | (cases h; rfl) | (cases h; simp; done) | (cases h; apply regWrite_placed; intro s; simp)

theorem execMonCtlClear_placed : ∀ page (s t : State), execMonCtlClear page s = .next t → t.placed = s.placed := by
  intro page
  intro s t h
  simp only [execMonCtlClear] at h
  (repeat' split at h) <;> first | (cases h; done) | (cases h; rfl) | (cases h; simp; done) | (cases h; apply regWrite_placed; intro s; simp)

theorem execMonCountLo_placed : ∀ page (s t : State), execMonCountLo page s = .next t → t.placed = s.placed := by
  intro page
  intro s t h
  simp only [execMonCountLo] at h
  (repeat' split at h) <;> first | (cases h; done) | (cases h; rfl) | (cases h; simp; done) | (cases h; simp_all)

theorem execSnap_placed : ∀ (s t : State), execSnap  s = .next t → t.placed = s.placed := by
  intro s t h
  simp only [execSnap] at h
  (repeat' split at h) <;> first | (cases h; done) | (cases h; rfl) | (cases h; simp; done) | (cases h; apply regWrite_placed; intro s; simp)

theorem execClearAll_placed : ∀ (s t : State), execClearAll  s = .next t → t.placed = s.placed := by
  intro s t h
  simp only [execClearAll] at h
  (repeat' split at h) <;> first | (cases h; done) | (cases h; rfl) | (cases h; simp; done) | (cases h; apply regWrite_placed; intro s; simp)

theorem execFwdData_placed : ∀ write data (s t : State), execFwdData write data s = .next t → t.placed = s.placed := by
  intro write data
  intro s t h
  simp only [execFwdData] at h
  (repeat' split at h) <;> first | (cases h; done) | (cases h; rfl) | (cases h; simp; done) | (cases h; apply regWrite_placed; intro s; simp)

theorem execRecData_placed : ∀ data (s t : State), execRecData data s = .next t → t.placed = s.placed := by
  intro data
  intro s t h
  simp only [execRecData] at h
  (repeat' split at h) <;> first | (cases h; done) | (cases h; rfl) | (cases h; simp; done) | (cases h; simp_all)

theorem execPieceDone_placed : ∀ (s t : State), execPieceDone  s = .next t → t.placed = s.placed := by
  intro s t h
  simp only [execPieceDone] at h
  (repeat' split at h) <;> first | (cases h; done) | (cases h; rfl) | (cases h; simp; done) | (cases h; simp_all)

theorem execAbort_placed : ∀ (s t : State), execAbort  s = .next t → t.placed = s.placed := by
  intro s t h
  simp only [execAbort] at h
  (repeat' split at h) <;> first | (cases h; done) | (cases h; rfl) | (cases h; simp; done) | (cases h; simp_all)

theorem execBurWinSel_placed : ∀ data (s t : State), execBurWinSel data s = .next t → t.placed = s.placed := by
  intro data
  intro s t h
  simp only [execBurWinSel] at h
  (repeat' split at h) <;> first | (cases h; done) | (cases h; rfl) | (cases h; simp; done) | (cases h; apply regWrite_placed; intro s; simp)

theorem execCoreWinSel_placed : ∀ core data (s t : State), execCoreWinSel core data s = .next t → t.placed = s.placed := by
  intro core data
  intro s t h
  simp only [execCoreWinSel] at h
  (repeat' split at h) <;> first | (cases h; done) | (cases h; rfl) | (cases h; simp; done) | (cases h; apply regWrite_placed; intro s; simp)

theorem execRelease_placed : ∀ port (s t : State), execRelease port s = .next t → t.placed = s.placed := by
  intro port
  intro s t h
  simp only [execRelease] at h
  (repeat' split at h) <;> first | (cases h; done) | (cases h; rfl) | (cases h; simp; done) | (cases h; apply regWrite_placed; intro s; simp)

theorem execFolioEnt_placed : ∀ pos data (s t : State), execFolioEnt pos data s = .next t → t.placed = s.placed := by
  intro pos data
  intro s t h
  simp only [execFolioEnt] at h
  (repeat' split at h) <;> first | (cases h; done) | (cases h; rfl) | (cases h; simp; done) | (cases h; apply regWrite_placed; intro s; simp)

theorem execTelRelayTo_placed : ∀ (s t : State), execTelRelayTo  s = .next t → t.placed = s.placed := by
  intro s t h
  simp only [execTelRelayTo] at h
  (repeat' split at h) <;> first | (cases h; done) | (cases h; rfl) | (cases h; simp; done) | (cases h; simp_all)

theorem execMonitorSample_placed : ∀ page quantity value (s t : State), execMonitorSample page quantity value s = .next t → t.placed = s.placed := by
  intro page quantity value
  intro s t h
  simp only [execMonitorSample] at h
  (repeat' split at h) <;> first | (cases h; done) | (cases h; rfl) | (cases h; simp; done) | (cases h; simp_all)

theorem State.configure_placed (s : State) (c : PcieCfg) : (s.configure c).placed = s.placed := by
  unfold State.configure
  dsimp only
  split
  · rw [foldl_placed (fun s v => State.sendPending_placed s v)]
    rfl
  · rfl

theorem execMsixUnmask_placed : ∀ vector (s t : State), execMsixUnmask vector s = .next t → t.placed = s.placed := by
  intro vector s t h
  unfold execMsixUnmask at h
  split at h
  · cases h; rfl
  · cases h
    (repeat' split) <;> simp [State.configure_placed]

theorem execRunTimeRetraining_placed : ∀ chan ok (s t : State), execRunTimeRetraining chan ok s = .next t → t.placed = s.placed := by
  intro chan ok
  intro s t h
  simp only [execRunTimeRetraining] at h
  (repeat' split at h) <;> first | (cases h; done) | (cases h; rfl) | (cases h; simp; done) | (cases h; simp_all)

theorem execFlashWriteEnd_placed : ∀ (s t : State), execFlashWriteEnd  s = .next t → t.placed = s.placed := by
  intro s t h
  simp only [execFlashWriteEnd] at h
  (repeat' split at h) <;> first | (cases h; done) | (cases h; rfl) | (cases h; simp; done) | (cases h; simp_all)

end Sys2Proof.Machine
end

