-- ==== Sys2Proof/Laws/Work.lean ====
section
/-! SUPPORT. The functions that leave the jobs and their requests alone: one lemma for each. -/

namespace Sys2Proof.Machine

@[simp] theorem State.work_mk (a1 a2 a3 a4 a5 a6 a7 a8 a9 a10 a11 a12 a13 a14 a15 a16 a17 a18 a19 a20 a21 a22 a23 a24 a25 a26 a27 a28 a29 a30 a31 a32 a33 a34 a35 a36 a37) :
    State.work ⟨a1, a2, a3, a4, a5, a6, a7, a8, a9, a10, a11, a12, a13, a14, a15, a16, a17, a18, a19, a20, a21, a22, a23, a24, a25, a26, a27, a28, a29, a30, a31, a32, a33, a34, a35, a36, a37⟩ = (a27, a24, a26, a28, a29, a30, a31) := rfl

@[simp] theorem State.work_fold (s : State) :
    (s.jobs, s.pageMap, s.queued0, s.seqTab, s.batches, s.stamp, s.wback) = s.work := rfl

@[simp] theorem work_ite (c : Prop) [Decidable c] (s t : State) : (if c then s else t).work = if c then s.work else t.work := by
  split <;> rfl

theorem foldl_work {τ : Type} {f : State → τ → State} (h : ∀ s x, (f s x).work = s.work) :
    ∀ (l : List τ) (s : State), (l.foldl f s).work = s.work
  | [], _ => rfl
  | x :: t, s => (foldl_work h t (f s x)).trans (h s x)

@[simp] theorem State.setPort_work (s : State) (p : Nat) (q : Port) :
    (State.setPort s p q).work = s.work := by
  rfl

@[simp] theorem State.trySend_work (s : State) (t : Txn) (u : TagUse) :
    (State.trySend s t u).1.work = s.work := by
  simp only [State.trySend]
  (repeat' split) <;> simp

@[simp] theorem State.sendReq_work (s : State) (t : Txn) (u : TagUse) :
    (State.sendReq s t u).work = s.work := by
  simp [State.sendReq]

@[simp] theorem State.complete_work (s : State) (inPort : Nat) (req : Txn) (status : Nat) (poison : Nat) (data : List Byte) :
    (State.complete s inPort req status poison data).work = s.work := by
  rfl

@[simp] theorem State.setPage_work (s : State) (n : Nat) (p : Page) :
    (State.setPage s n p).work = s.work := by
  rfl

@[simp] theorem State.setRegion_work (s : State) (r : Nat) (x : Region) :
    (State.setRegion s r x).work = s.work := by
  rfl

@[simp] theorem State.setCore_work (s : State) (p : Nat) (c : CoreHw) :
    (State.setCore s p c).work = s.work := by
  rfl

@[simp] theorem State.setChan_work (s : State) (c : Nat) (x : Chan) :
    (State.setChan s c x).work = s.work := by
  rfl

@[simp] theorem State.setDie_work (s : State) (b : Nat) (x : BaseDie) :
    (State.setDie s b x).work = s.work := by
  rfl

@[simp] theorem State.setRing_work (s : State) (n : Nat) (r : Ring) :
    (State.setRing s n r).work = s.work := by
  rfl

@[simp] theorem State.interrupt_work (s : State) (v : BitVec 11) :
    (State.interrupt s v).work = s.work := by
  simp only [State.interrupt]
  (repeat' split) <;> simp

@[simp] theorem State.evtEdge_work (s : State) :
    (State.evtEdge s).work = s.work := by
  simp [State.evtEdge]

@[simp] theorem State.markPage_work (s : State) (n cls count : Nat) :
    (State.markPage s n cls count).work = s.work := by
  simp [State.markPage]

@[simp] theorem State.ledger_work (s : State) (ws : List W64) :
    (State.ledger s ws).work = s.work := by
  simp only [State.ledger]
  (repeat' split) <;> simp

@[simp] theorem State.setSummary_work (s : State) (k : Nat) (e : Summary) :
    (State.setSummary s k e).work = s.work := by
  rfl

@[simp] theorem State.noteUnit_work (s : State) (e : Evt) :
    (State.noteUnit s e).work = s.work := by
  simp [State.noteUnit]

@[simp] theorem State.raise_work (s : State) (e : Evt) :
    (State.raise s e).work = s.work := by
  simp [State.raise]

@[simp] theorem State.raiseQuiet_work (s : State) (e : Evt) :
    (State.raiseQuiet s e).work = s.work := by
  simp [State.raiseQuiet]

@[simp] theorem State.errInterrupt_work (s : State) :
    (State.errInterrupt s).work = s.work := by
  simp [State.errInterrupt]

@[simp] theorem State.countPage_work (s : State) (n count : Nat) :
    (State.countPage s n count).work = s.work := by
  rfl

@[simp] theorem State.infoEvent_work (s : State) (job step : Nat) (cls : Option Nat) :
    (State.infoEvent s job step cls).work = s.work := by
  unfold State.infoEvent
  dsimp only
  (repeat' split) <;> simp

@[simp] theorem State.lockBreakIf_work (s : State) (p : Run → Bool) :
    (State.lockBreakIf s p).work = s.work := by
  unfold State.lockBreakIf
  dsimp only
  rw [foldl_work]
  · simp
  · intro s x
    simp

@[simp] theorem State.lockBreak_work (s : State) :
    (State.lockBreak s).work = s.work := by
  simp [State.lockBreak]

@[simp] theorem State.lockBreakJob_work (s : State) (job : Nat) :
    (State.lockBreakJob s job).work = s.work := by
  simp [State.lockBreakJob]

@[simp] theorem State.governor_work (s : State) :
    (State.governor s).work = s.work := by
  simp [State.governor]

@[simp] theorem State.alertEdge_work (s : State) :
    (State.alertEdge s).work = s.work := by
  simp [State.alertEdge]

@[simp] theorem State.sample_work (s : State) (page quantity : Nat) (v : Int) :
    (State.sample s page quantity v).work = s.work := by
  rfl

@[simp] theorem State.classEdge_work (s : State) :
    (State.classEdge s).work = s.work := by
  simp [State.classEdge]

@[simp] theorem State.settle_work (s : State) :
    (State.settle s).work = s.work := by
  simp [State.settle]

@[simp] theorem State.matchBanks_work (s : State) (p : Nat) :
    (State.matchBanks s p).work = s.work := by
  simp only [State.matchBanks]
  (repeat' split) <;> simp

@[simp] theorem State.readyBanks_work (s : State) (p : Nat) :
    (State.readyBanks s p).work = s.work := by
  simp only [State.readyBanks]
  (repeat' split) <;> simp

@[simp] theorem State.rehost_work (s : State) (ls : List Nat) :
    (State.rehost s ls).work = s.work := by
  unfold State.rehost
  dsimp only
  rw [State.work_mk, State.work_fold, foldl_work]
  intro s x
  simp

@[simp] theorem State.flashWrite_work (s : State) (w : FlashWrite) :
    (State.flashWrite s w).1.work = s.work := by
  simp only [State.flashWrite]
  (repeat' split) <;> simp

@[simp] theorem State.drainFlash_work (s : State) :
    (State.drainFlash s).work = s.work := by
  rfl

@[simp] theorem State.summaryNow_work (s : State) (k : Nat) :
    (State.summaryNow s k).work = s.work := by
  simp [State.summaryNow]

@[simp] theorem State.pageReset_work (s : State) (n : Nat) :
    (State.pageReset s n).work = s.work := by
  rfl

@[simp] theorem State.coreReset_work (s : State) (p : Nat) :
    (State.coreReset s p).work = s.work := by
  rfl

@[simp] theorem State.markFenced_work (s : State) (utype punit : Nat) :
    (State.markFenced s utype punit).work = s.work := by
  simp [State.markFenced]

@[simp] theorem State.fenceCore_work (s : State) (p cause : Nat) :
    (State.fenceCore s p cause).work = s.work := by
  simp [State.fenceCore]

@[simp] theorem State.fenceRegion_work (s : State) (r cause : Nat) :
    (State.fenceRegion s r cause).work = s.work := by
  unfold State.fenceRegion
  simp
  rw [foldl_work]
  intro s x
  split <;> simp

@[simp] theorem State.markDegraded_work (s : State) (utype punit : Nat) :
    (State.markDegraded s utype punit).work = s.work := by
  rfl

@[simp] theorem State.permanent_work (s : State) (utype punit cause : Nat) :
    (State.permanent s utype punit cause).work = s.work := by
  simp only [State.permanent]
  (repeat' split) <;> simp

@[simp] theorem State.countTransient_work (s : State) (utype punit cause : Nat) :
    (State.countTransient s utype punit cause).work = s.work := by
  simp [State.countTransient]

@[simp] theorem State.transientAssay_work (s : State) (p : Nat) :
    (State.transientAssay s p).work = s.work := by
  simp [State.transientAssay]

@[simp] theorem State.setRun_work (s : State) (r : Run) :
    (State.setRun s r).work = s.work := by
  rfl

@[simp] theorem State.dropRun_work (s : State) (job : Nat) :
    (State.dropRun s job).work = s.work := by
  rfl

@[simp] theorem State.hostWrite_work (s : State) (addr : Nat) (bs : List Byte) :
    (State.hostWrite s addr bs).work = s.work := by
  unfold State.hostWrite
  split
  · rfl
  · split
    · rfl
    · rw [foldl_work]
      · rfl
      · intro s x
        simp

@[simp] theorem State.sendEntryWr_work (s : State) (n : Nat) (k : W32) (t : Txn) :
    (State.sendEntryWr s n k t).work = s.work := by
  simp [State.sendEntryWr]

@[simp] theorem State.produceFar_work (s : State) (n : Nat) (r : Ring) (ws : List W64) :
    (State.produceFar s n r ws).work = s.work := by
  unfold State.produceFar
  dsimp only
  split
  · rfl
  · rw [foldl_work]
    · simp
    · intro s x
      simp

@[simp] theorem State.ringIrq_work (s : State) (n : Nat) (r : Ring) :
    (State.ringIrq s n r).work = s.work := by
  simp [State.ringIrq]

@[simp] theorem State.passTail_work (s : State) (n : Nat) (r : Ring) :
    (State.passTail s n r).work = s.work := by
  unfold State.passTail
  dsimp only
  rw [foldl_work]
  · simp
  · intro s x
    simp

@[simp] theorem State.entryDone_work (s : State) (n : Nat) (k : W32) (t : Txn) (status : Nat) :
    (State.entryDone s n k t status).work = s.work := by
  simp only [State.entryDone]
  (repeat' split) <;> simp

@[simp] theorem State.hostResend_work (s : State) :
    (State.hostResend s).work = s.work := by
  unfold State.hostResend
  dsimp only
  rw [foldl_work]
  · simp
  · intro s x
    simp

@[simp] theorem State.hostFetch_work (s : State) (addr n : Nat) :
    (State.hostFetch s addr n).work = s.work := by
  unfold State.hostFetch
  split
  · rfl
  · split
    · rfl
    · rw [foldl_work]
      intro s x
      simp

@[simp] theorem State.stale_work (s : State) (n : Nat) (r : Ring) :
    (State.stale s n r).work = s.work := by
  simp [State.stale]

@[simp] theorem State.fetched_work (s : State) (f : Fetch) (r : Ring) :
    (State.fetched s f r).work = s.work := by
  simp [State.fetched]

@[simp] theorem State.raiseRun_work (s : State) (job : Nat) (d : Option Nat) (e : Evt) (detail : Nat) (recount injected : Bool) :
    (State.raiseRun s job d e detail recount injected).work = s.work := by
  simp only [State.raiseRun]
  (repeat' split) <;> simp

@[simp] theorem State.candidate_work (s : State) (c cause : Nat) :
    (State.candidate s c cause).work = s.work := by
  simp [State.candidate]

@[simp] theorem State.triggers_work (s : State) (c cause : Nat) :
    (State.triggers s c cause).work = s.work := by
  simp [State.triggers]

@[simp] theorem State.corrected_work (s : State) (job : Nat) (utype punit block n : Nat) :
    (State.corrected s job utype punit block n).work = s.work := by
  simp [State.corrected]

@[simp] theorem State.setSend_work (s : State) (x : Send) :
    (State.setSend s x).work = s.work := by
  rfl

@[simp] theorem State.dropSend_work (s : State) (id : Nat) :
    (State.dropSend s id).work = s.work := by
  rfl

@[simp] theorem State.stream_work (s : State) (id : Nat) (x0 : List Nat) :
    (State.stream s id x0).work = s.work := by
  induction x0 generalizing s with
  | nil => rfl
  | cons i rest ih =>
    unfold State.stream
    dsimp only
    (repeat' split) <;> simp [ih]

@[simp] theorem State.startSend_work (s : State) (j : Job) (r : Run) (d : Nat) (ordinal : Nat) (c : Contrib) :
    (State.startSend s j r d ordinal c).work = s.work := by
  simp [State.startSend]

@[simp] theorem State.sendMsg_work (s : State) (x : Send) (t : Txn) (u : TagUse) (done late : Send) :
    (State.sendMsg s x t u done late).work = s.work := by
  simp [State.sendMsg]

@[simp] theorem State.sendCsgn_work (s : State) (x : Send) :
    (State.sendCsgn s x).work = s.work := by
  simp [State.sendCsgn]

@[simp] theorem State.sendVoid_work (s : State) (x : Send) (status : Nat) :
    (State.sendVoid s x status).work = s.work := by
  simp [State.sendVoid]

@[simp] theorem State.voidRun_work (s : State) (job stepLo : Nat) :
    (State.voidRun s job stepLo).work = s.work :=
  foldl_work (f := fun (s : State) x => s.sendVoid x 0) (fun s x => by simp) _ s

@[simp] theorem State.sendFinal_work (s : State) (x : Send) :
    (State.sendFinal s x).work = s.work := by
  unfold State.sendFinal
  split
  · rw [State.sendVoid_work]
  · dsimp only
    rw [State.sendVoid_work]
    rfl

@[simp] theorem State.voidJob_work (s : State) (job : Nat) :
    (State.voidJob s job).work = s.work := by
  unfold State.voidJob
  dsimp only
  rw [foldl_work]
  intro s x
  simp

@[simp] theorem State.signRun_work (s : State) (job : Nat) :
    (State.signRun s job).work = s.work := by
  unfold State.signRun
  dsimp only
  rw [foldl_work]
  intro s x
  simp

@[simp] theorem State.mapRecvs_work (s : State) (f : Recv → Recv) :
    (State.mapRecvs s f).work = s.work := by
  rfl

@[simp] theorem State.answer_work (s : State) (p : Nat) (t : Txn) (status : Nat) :
    (State.answer s p t status).work = s.work := by
  rfl

@[simp] theorem State.answerHeld_work (s : State) (v : Recv) :
    (State.answerHeld s v).work = s.work := by
  simp only [State.answerHeld]
  (repeat' split) <;> simp

@[simp] theorem State.markRead_work (s : State) (r : Run) (d : Nat) (reads : List (Nat × Nat × Nat)) :
    (State.markRead s r d reads).work = s.work := by
  simp [State.markRead]

@[simp] theorem State.withdrawVault_work (s : State) :
    (State.withdrawVault s).work = s.work := by
  unfold State.withdrawVault
  rw [foldl_work]
  intro s x
  dsimp only
  (repeat' split) <;> simp

@[simp] theorem State.keepSlots_work (s : State) (r : Run) :
    (State.keepSlots s r).work = s.work := by
  rfl

@[simp] theorem State.applyStage_work (s : State) :
    (State.applyStage s).work = s.work := by
  simp only [State.applyStage]
  (repeat' split) <;> simp

@[simp] theorem State.extendRun_work (s : State) (kind : Nat) (item : BitVec 384) :
    (State.extendRun s kind item).work = s.work := by
  rfl

@[simp] theorem State.extendBoot_work (s : State) (kind : Nat) (item : BitVec 384) :
    (State.extendBoot s kind item).work = s.work := by
  rfl

@[simp] theorem State.switchBank_work (s : State) (p job step : Nat) :
    (State.switchBank s p job step).work = s.work := by
  simp [State.switchBank]

@[simp] theorem State.setAsy_work (s : State) (a : AssayState) :
    (State.setAsy s a).work = s.work := by
  rfl

@[simp] theorem State.unfenceCore_work (s : State) (p : Nat) :
    (State.unfenceCore s p).work = s.work := by
  simp [State.unfenceCore]

@[simp] theorem State.skipCore_work (s : State) (p code : Nat) :
    (State.skipCore s p code).work = s.work := by
  simp [State.skipCore]

@[simp] theorem State.assayRecord_work (s : State) (x : AssaySet) (core verdict nrun vec : Nat) (d : W64) :
    (State.assayRecord s x core verdict nrun vec d).work = s.work := by
  simp [State.assayRecord]

@[simp] theorem State.newPass_work (s : State) :
    (State.newPass s).work = s.work := by
  simp [State.newPass]

@[simp] theorem State.corrAt_work (s : State) (n d space block symbols : Nat) :
    (State.corrAt s n d space block symbols).work = s.work := by
  simp only [State.corrAt]
  (repeat' split) <;> simp

@[simp] theorem State.disarm_work (s : State) (page bit_ : Nat) :
    (State.disarm s page bit_).work = s.work := by
  rfl

@[simp] theorem State.recRaise_work (s : State) (i : Iss) (d code utype punit w6 w7 detail : Nat) (recount injected : Bool) :
    (State.recRaise s i d code utype punit w6 w7 detail recount injected).work = s.work := by
  simp [State.recRaise]

@[simp] theorem State.spoil_work (s : State) (n d : Nat) (corrupt : Bool) :
    (State.spoil s n d corrupt).work = s.work := by
  simp only [State.spoil]
  (repeat' split) <;> simp

@[simp] theorem State.recEvent_work (s : State) (i : Iss) (d : Nat) (x : Raise) :
    (State.recEvent s i d x).work = s.work := by
  simp only [State.recEvent]
  (repeat' split) <;> simp

@[simp] theorem State.strikeRaise_work (s : State) (r : Run) (d : Option Nat) (core : Nat) (w6 w7 : W64) :
    (State.strikeRaise s r d core w6 w7).work = s.work := by
  unfold State.strikeRaise
  dsimp only
  split
  · rw [State.raiseRun_work]
  · rfl

@[simp] theorem State.chkReport_work (s : State) (i : Iss) (d : Nat) (chk : Chk) :
    (State.chkReport s i d chk).work = s.work := by
  unfold State.chkReport
  cases chk <;> dsimp only <;> (try split) <;>
    first
      | rw [State.spoil_work, State.recRaise_work]
      | rw [State.lockBreakJob_work]
      | rw [State.strikeRaise_work]
      | rfl

@[simp] theorem State.injectParity_work (s : State) (i : Iss) (d page utype punit point : Nat) (w : Nat × Nat) :
    (State.injectParity s i d page utype punit point w).work = s.work := by
  simp [State.injectParity]

@[simp] theorem State.injectResidue_work (s : State) (i : Iss) (d page utype punit expected : Nat) :
    (State.injectResidue s i d page utype punit expected).work = s.work := by
  simp [State.injectResidue]

@[simp] theorem State.injectCore_work (s : State) (i : Iss) (d : Nat) :
    (State.injectCore s i d).work = s.work := by
  unfold State.injectCore
  dsimp only
  (repeat' split) <;> first | rfl | rw [State.injectParity_work] | rw [State.injectResidue_work]

theorem State.armDies_work (s : State) (ts : List Haul) (f : State → Nat → Nat × Nat × Nat → State)
    (hf : ∀ s p u, (f s p u).work = s.work) : (State.armDies s ts f).work = s.work := by
  unfold State.armDies
  refine foldl_work (fun s b => ?_) _ s
  split
  · exact hf _ _ _
  · rfl

@[simp] theorem State.armReport_work (s : State) (i : Iss) (d : Nat) :
    (State.armReport s i d).work = s.work := by
  unfold State.armReport
  dsimp only
  split
  · rw [State.armDies_work _ _ _ (fun s p u => State.injectParity_work s i d p _ _ _ _)]
    rw [foldl_work (fun s g => State.injectParity_work s i d _ _ _ _ _), State.injectCore_work]
  · rw [State.injectCore_work]

@[simp] theorem State.markCheck_work (s : State) (i : Iss) (d : Nat) :
    (State.markCheck s i d).work = s.work := by
  unfold State.markCheck
  dsimp only
  (repeat' split) <;> first | rfl | rw [State.recRaise_work] <;> rfl

@[simp] theorem State.breakRun_work (s : State) (n : Nat) :
    (State.breakRun s n).work = s.work := by
  simp only [State.breakRun]
  (repeat' split) <;> simp

@[simp] theorem State.advance_work (s : State) (j : Job) (r : Run) :
    (State.advance s j r).work = s.work := by
  rfl

@[simp] theorem State.landMove_work (s : State) (d idx : Nat) (chk : Chk) :
    (State.landMove s d idx chk).work = s.work := by
  unfold State.landMove
  split
  · rfl
  · split
    · cases chk <;> dsimp only <;>
        first
          | rw [State.spoil_work, State.raiseRun_work, State.advance_work]
          | rw [State.lockBreakJob_work, State.advance_work]
          | rw [State.advance_work]
    · rfl

@[simp] theorem State.setRecv_work (s : State) (v : Recv) :
    (State.setRecv s v).work = s.work := by
  rfl

@[simp] theorem State.landOwn_work (s : State) (j : Job) (r : Run) (d : Nat) (f : Flight) :
    (State.landOwn s j r d f).work = s.work := by
  unfold State.landOwn
  dsimp only
  split
  · rw [State.setRecv_work, State.setRun_work]
  · rw [State.setRun_work]

@[simp] theorem State.completeRecord_work (s : State) (d idx : Nat) :
    (State.completeRecord s d idx).work = s.work := by
  unfold State.completeRecord
  (repeat' split) <;> simp

@[simp] theorem State.controlCheck_work (s : State) (j : Job) (r : Run) (d : Nat) (chk : Chk) :
    (State.controlCheck s j r d chk).work = s.work := by
  simp [State.controlCheck]

@[simp] theorem State.beginSegment_work (s : State) (d : Nat) (chk : Chk) :
    (State.beginSegment s d chk).work = s.work := by
  simp only [State.beginSegment]
  (repeat' split) <;> simp

@[simp] theorem State.endSegment_work (s : State) (d : Nat) (chk : Chk) :
    (State.endSegment s d chk).work = s.work := by
  simp only [State.endSegment]
  (repeat' split) <;> simp

@[simp] theorem State.readReceived_work (s : State) (r : Run) :
    (State.readReceived s r).work = s.work := by
  rfl

@[simp] theorem State.nameSwitch_work (s : State) (hosts : List Nat) :
    (State.nameSwitch s hosts).work = s.work := by
  unfold State.nameSwitch
  rw [foldl_work]
  intro s x
  dsimp only
  (repeat' split) <;> simp

@[simp] theorem State.endDelay_work (s : State) :
    (State.endDelay s).work = s.work := by
  rfl

@[simp] theorem State.beginRun_work (s : State) (r : Run) :
    (State.beginRun s r).work = s.work := by
  rfl

@[simp] theorem State.act_work (s : State) (utype punit cause : Nat) :
    (State.act s utype punit cause).work = s.work := by
  simp [State.act]

@[simp] theorem State.takeAccumulated_work (s : State) (k cause : Nat) :
    (State.takeAccumulated s k cause).work = s.work := by
  unfold State.takeAccumulated
  rw [State.act_work]
  rfl

@[simp] theorem State.doAccumulated_work (s : State) :
    (State.doAccumulated s).work = s.work := by
  unfold State.doAccumulated
  rw [foldl_work]
  intro s x
  simp

@[simp] theorem State.takeSlow_work (s : State) (p share : Nat) :
    (State.takeSlow s p share).work = s.work := by
  unfold State.takeSlow
  dsimp only
  (repeat' split) <;> simp

@[simp] theorem State.takeCore_work (s : State) (p : Nat) :
    (State.takeCore s p).work = s.work := by
  unfold State.takeCore
  dsimp only
  (repeat' split) <;> simp

@[simp] theorem State.doCores_work (s : State) : (State.doCores s).work = s.work :=
  foldl_work State.takeCore_work _ s

@[simp] theorem State.noteItem_work (s : State) (user age : Nat) :
    (State.noteItem s user age).work = s.work := by
  unfold State.noteItem
  split <;> rfl

@[simp] theorem State.served_work (s : State) (us user : Nat) :
    (State.served s us user).work = s.work := by
  simp [State.served]

@[simp] theorem State.serveArrears_work (s : State) (us : Nat) :
    (State.serveArrears s us).work = s.work := by
  unfold State.serveArrears
  dsimp only
  rw [State.setAsy_work]
  rw [foldl_work]
  · rfl
  · intro s x
    simp

@[simp] theorem State.endHosted_work (s : State) (hosted : List Nat) :
    (State.endHosted s hosted).work = s.work := by
  rfl

@[simp] theorem State.forgetSwitch_work (s : State) (p : Nat) :
    (State.forgetSwitch s p).work = s.work := by
  rfl

@[simp] theorem State.loadBank_work (s : State) (tag : W32) (n p : Nat) :
    (State.loadBank s tag n p).work = s.work := by
  rfl

@[simp] theorem State.nameSwitches_work (s : State) :
    (State.nameSwitches s).work = s.work := by
  unfold State.nameSwitches
  rw [foldl_work]
  intro s j
  simp

@[simp] theorem State.reload_work (s : State) (item : List Byte) :
    (State.reload s item).work = s.work := by
  unfold State.reload
  dsimp only
  rw [foldl_work]
  · simp
    rw [foldl_work]
    · simp
    · intro s p
      simp
  · intro s p
    simp

@[simp] theorem State.stageEvent_work (s : State) (svn code : Nat) :
    (State.stageEvent s svn code).work = s.work := by
  simp [State.stageEvent]

@[simp] theorem State.identify_work (s : State) :
    (State.identify s).work = s.work := by
  simp [State.identify]

@[simp] theorem State.latched_work (s : State) :
    (State.latched s).work = s.work := by
  simp only [State.latched]
  (repeat' split) <;> simp

@[simp] theorem State.bootWrites_work (s : State) :
    (State.bootWrites s).work = s.work := by
  unfold State.bootWrites
  dsimp only
  (repeat' split) <;> simp

@[simp] theorem State.order2_work (s : State) (env : StartEnv) :
    (State.order2 s env).work = s.work := by
  unfold State.order2
  dsimp only
  (repeat' split) <;> simp

@[simp] theorem State.startFail_work (s : State) (order cause utype punit : Nat) :
    (State.startFail s order cause utype punit).work = s.work := by
  simp [State.startFail]

@[simp] theorem State.retireEarly_work (s : State) (c cause : Nat) :
    (State.retireEarly s c cause).work = s.work := by
  simp [State.retireEarly]

@[simp] theorem State.setRail_work (s : State) (r v0 vmax t0 : Nat) :
    (State.setRail s r v0 vmax t0).work = s.work := by
  rfl

@[simp] theorem State.groupsFromFences_work (s : State) :
    (State.groupsFromFences s).work = s.work := by
  unfold State.groupsFromFences
  rw [foldl_work]
  intro s x
  dsimp only
  (repeat' split) <;> simp

@[simp] theorem State.loadBanks_work (s : State) :
    (State.loadBanks s).work = s.work := by
  unfold State.loadBanks
  dsimp only
  rw [foldl_work]
  · simp
  · intro s x
    simp

@[simp] theorem State.roundZero_work (s : State) (x : AssaySet) (fs : List (Nat × Nat × W128)) (again : Nat → Bool) (p : Nat) :
    (State.roundZero s x fs again p).work = s.work := by
  unfold State.roundZero
  dsimp only
  (repeat' split) <;> simp

@[simp] theorem State.roundVector_work (s : State) (env : StartEnv) (x : AssaySet) (i : Nat) (v : Vec) (live : List Nat) :
    (State.roundVector s env x i v live).1.work = s.work := by
  unfold State.roundVector
  dsimp only
  (repeat' split) <;> simp

@[simp] theorem State.runA_work (s : State) (env : StartEnv) (x : AssaySet) (i : Nat) (vs : List Vec) (live : List Nat)
    (fs : List (Nat × Nat × W128)) : (State.runA s env x i vs live fs).1.work = s.work := by
  induction vs generalizing s i live fs with
  | nil => rfl
  | cons v t ih => rw [State.runA, ih, State.roundVector_work]

@[simp] theorem State.roundSet_work (s : State) (env : StartEnv) (x : AssaySet) :
    (State.roundSet s env x).work = s.work := by
  unfold State.roundSet
  dsimp only
  rw [foldl_work (fun s p => State.roundZero_work s x _ _ p), State.runA_work]

@[simp] theorem State.setRcv_work (s : State) (r : Recovery) :
    (State.setRcv s r).work = s.work := by
  rfl

@[simp] theorem State.setMod_work (s : State) (m : Module) :
    (State.setMod s m).work = s.work := by
  rfl

@[simp] theorem State.heat_work (s : State) (x0 : Nat) (x1 : List (BitVec 16)) :
    (State.heat s x0 x1).work = s.work := by
  induction x1 generalizing s x0 with
  | nil => rfl
  | cons t ts ih => simp [State.heat, ih]

@[simp] theorem State.senseAt_work (s : State) (point unit : Nat) (temp : BitVec 16) :
    (State.senseAt s point unit temp).work = s.work := by
  simp only [State.senseAt]
  (repeat' split) <;> simp

@[simp] theorem State.setAlert_work (s : State) (point unit : Nat) (on : Bool) :
    (State.setAlert s point unit on).work = s.work := by
  simp only [State.setAlert]
  (repeat' split) <;> simp

@[simp] theorem State.alertEvent_work (s : State) (point unit : Nat) (temp : BitVec 16) :
    (State.alertEvent s point unit temp).work = s.work := by
  simp [State.alertEvent]

@[simp] theorem State.sagRecord_work (s : State) (e : Sag) :
    (State.sagRecord s e).work = s.work := by
  unfold State.sagRecord
  (repeat' split) <;> rfl

@[simp] theorem State.sagFollow_work (s : State) : (State.sagFollow s).work = s.work := by
  unfold State.sagFollow
  split
  · rw [State.sagRecord_work]
  · rfl

@[simp] theorem State.sagAt_work (s : State) (depth mv before : Nat) :
    (State.sagAt s depth mv before).work = s.work := by
  unfold State.sagAt
  split <;> simp

@[simp] theorem State.closeGate_work (s : State) :
    (State.closeGate s).work = s.work := by
  rfl

@[simp] theorem State.inputIs_work (s : State) (mv : Nat) :
    (State.inputIs s mv).work = s.work := by
  simp [State.inputIs]

@[simp] theorem State.sagBegin_work (s : State) (depth mv : Nat) :
    (State.sagBegin s depth mv).work = s.work := by
  simp [State.sagBegin]

@[simp] theorem State.hold_work (s : State) (mv : Nat) :
    (State.hold s mv).work = s.work := by
  simp [State.hold]

@[simp] theorem State.patrol_work (s : State) (u : Nat × Nat) :
    (State.patrol s u).work = s.work := by
  simp [State.patrol]

@[simp] theorem State.moveFrames_work (s : State) (c : Nat) (loose : List Nat) :
    (State.moveFrames s c loose).work = s.work := by
  rfl

@[simp] theorem State.lagged_work (s : State) (r : Nat) (m : RegionMeas) :
    (State.lagged s r m).work = s.work := by
  unfold State.lagged
  rw [foldl_work]
  intro s x
  dsimp only
  (repeat' split) <;> simp

@[simp] theorem State.replan_work (s : State) (r : Nat) (m : RegionMeas) :
    (State.replan s r m).1.work = s.work := by
  unfold State.replan
  dsimp only
  split
  · rfl
  · have h : ∀ (l : List Nat) (t : State), (l.foldl (fun (s : State) (k : Nat) =>
        (ratesAt m k).foldl (fun (s : State) (f : Nat) => s.sample (0x80 + r) 3 (f : Int)) s) t).work = t.work :=
      foldl_work (fun s k => foldl_work (fun s f => State.sample_work s _ _ _) _ s)
    (repeat' split) <;> simp [h]

@[simp] theorem State.strikeCheck_work (s : State) (core : Nat) (chk : Chk) :
    (State.strikeCheck s core chk).work = s.work := by
  simp only [State.strikeCheck]
  (repeat' split) <;> simp

@[simp] theorem State.latch_work (s : State) (side : Bool) (lo : Nat) (hi : W32) :
    (State.latch s side lo hi).work = s.work := by
  rfl

@[simp] theorem State.countRead_work (s : State) (n : Nat) :
    (State.countRead s n).work = s.work := by
  rfl

@[simp] theorem State.monTake_work (s : State) (n : Nat) :
    (State.monTake s n).work = s.work := by
  rfl

@[simp] theorem State.fwdNext_work (s : State) :
    (State.fwdNext s).work = s.work := by
  rfl

@[simp] theorem State.afterRead_work (s : State) (side : Bool) (n o : Nat) :
    (State.afterRead s side n o).work = s.work := by
  simp only [State.afterRead]
  (repeat' split) <;> simp

@[simp] theorem State.readReg_work (s : State) (side : Bool) (off : W32) :
    (State.readReg s side off).2.work = s.work := by
  simp only [State.readReg]
  (repeat' split) <;> simp

@[simp] theorem State.hostRead_work (s : State) (off : W32) :
    (State.hostRead s off).work = s.work := by
  simp [State.hostRead]

theorem State.setSu_work (s : State) (u : StartUp) : State.work { s with su := u } = s.work := rfl

@[simp] theorem State.burSelect_work (s : State) (data : W32) :
    (State.burSelect s data).work = s.work := State.setSu_work _ _

@[simp] theorem State.coreSelect_work (s : State) (p : Nat) (data : W32) :
    (State.coreSelect s p data).work = s.work := by
  simp only [State.coreSelect]
  (repeat' split) <;> simp

@[simp] theorem State.discardDoorbell_work (s : State) :
    (State.discardDoorbell s).work = s.work := by
  simp [State.discardDoorbell]

@[simp] theorem State.errPop_work (s : State) (v : W32) :
    (State.errPop s v).work = s.work := by
  simp only [State.errPop]
  (repeat' split) <;> simp

@[simp] theorem State.setErrIrq_work (s : State) (v : W32) :
    (State.setErrIrq s v).work = s.work := by
  simp only [State.setErrIrq]
  (repeat' split) <;> simp

@[simp] theorem State.contribLanded_work (s : State) (x : Send) (i : Nat) :
    (State.contribLanded s x i).work = s.work := by
  simp [State.contribLanded]

@[simp] theorem State.contribDone_work (s : State) (id i status : Nat) :
    (State.contribDone s id i status).work = s.work := by
  simp only [State.contribDone]
  (repeat' split) <;> simp

@[simp] theorem State.restream_work (s : State) (x : Send) :
    (State.restream s x).work = s.work := by
  simp [State.restream]

@[simp] theorem State.csgnDone_work (s : State) (id status : Nat) :
    (State.csgnDone s id status).work = s.work := by
  simp only [State.csgnDone]
  (repeat' split) <;> simp

@[simp] theorem State.voidDone_work (s : State) (id status : Nat) :
    (State.voidDone s id status).work = s.work := by
  simp only [State.voidDone]
  (repeat' split) <;> simp

@[simp] theorem State.msgDone_work (s : State) (n : Nat) (k : W32) (status : Nat) :
    (State.msgDone s n k status).work = s.work := by
  simp only [State.msgDone]
  (repeat' split) <;> simp

@[simp] theorem State.relayAnswer_work (s : State) (status : Nat) (v : W32) :
    (State.relayAnswer s status v).work = s.work := by
  simp [State.relayAnswer]

@[simp] theorem State.relayPump_work (s : State) :
    (State.relayPump s).work = s.work := by
  unfold State.relayPump
  dsimp only
  rw [foldl_work]
  · simp
  · intro s x
    simp

@[simp] theorem State.relayDone_work (s : State) (id status : Nat) (data : List Byte) :
    (State.relayDone s id status data).work = s.work := by
  simp [State.relayDone]

@[simp] theorem State.relay_work (s : State) (pos : Nat) (read : Bool) (off : Nat) (t : Txn) :
    (State.relay s pos read off t).work = s.work := by
  simp [State.relay]

@[simp] theorem State.relayExpired_work (s : State) (id : Nat) :
    (State.relayExpired s id).work = s.work := by
  simp [State.relayExpired]

@[simp] theorem State.completeUse_work (s : State) (u : TagUse) (status : Nat) (data : List Byte) :
    (State.completeUse s u status data).work = s.work := by
  simp only [State.completeUse]
  (repeat' split) <;> simp

@[simp] theorem State.freeTag_work (s : State) (p g : Nat) :
    (State.freeTag s p g).work = s.work := by
  rfl

@[simp] theorem State.forward_work (s : State) (inPort : Nat) (t : Txn) :
    (State.forward s inPort t).work = s.work := by
  simp only [State.forward]
  (repeat' split) <;> simp

@[simp] theorem State.redirect_work (s : State) (p : Nat) (t : Txn) :
    (State.redirect s p t).work = s.work := by
  simp only [State.redirect]
  (repeat' split) <;> simp

@[simp] theorem State.reroutePort_work (s : State) (p : Nat) :
    (State.reroutePort s p).work = s.work := by
  unfold State.reroutePort
  dsimp only
  rw [foldl_work, foldl_work]
  · simp
  · intro s t
    (repeat' split) <;> simp
  · intro s x
    simp

@[simp] theorem State.rerouteAll_work (s : State) :
    (State.rerouteAll s).work = s.work := by
  unfold State.rerouteAll
  rw [foldl_work]
  intro s p
  simp

@[simp] theorem State.portDown_work (s : State) (p : Nat) :
    (State.portDown s p).work = s.work := by
  simp [State.portDown]

@[simp] theorem State.setEnable_work (s : State) (p : Nat) (on : Bool) :
    (State.setEnable s p on).work = s.work := by
  simp [State.setEnable]

@[simp] theorem State.unfenceRegion_work (s : State) (r : Nat) :
    (State.unfenceRegion s r).work = s.work := by
  simp [State.unfenceRegion]

@[simp] theorem State.stageCommit_work (s : State) (n : Nat) :
    (State.stageCommit s n).work = s.work := by
  simp [State.stageCommit]

@[simp] theorem State.setForce_work (s : State) (n : Nat) (data : W32) :
    (State.setForce s n data).work = s.work := by
  rfl

@[simp] theorem State.onMon_work (s : State) (n : Nat) (f : Mon → Mon) :
    (State.onMon s n f).work = s.work := by
  rfl

@[simp] theorem State.monSelect_work (s : State) (n : Nat) (data : W32) :
    (State.monSelect s n data).work = s.work := by
  rfl

@[simp] theorem State.stageCtl_work (s : State) (data : W32) :
    (State.stageCtl s data).work = s.work := by
  rfl

@[simp] theorem State.fwdWrite_work (s : State) (data : W32) :
    (State.fwdWrite s data).work = s.work := by
  simp [State.fwdWrite]

@[simp] theorem State.onRcv_work (s : State) (f : Recovery → Recovery) :
    (State.onRcv s f).work = s.work := by
  simp [State.onRcv]

@[simp] theorem State.clearRepro_work (s : State) (data : W32) :
    (State.clearRepro s data).work = s.work := by
  rfl

@[simp] theorem State.writeAssay_work (s : State) (o : Nat) (data : W32) :
    (State.writeAssay s o data).work = s.work := by
  simp [State.writeAssay]

@[simp] theorem State.monSnap_work (s : State) :
    (State.monSnap s).work = s.work := by
  simp [State.monSnap]

@[simp] theorem State.monClear_work (s : State) :
    (State.monClear s).work = s.work := by
  rfl

@[simp] theorem State.writeMonitor_work (s : State) (o : Nat) (data : W32) :
    (State.writeMonitor s o data).work = s.work := by
  simp [State.writeMonitor]

@[simp] theorem State.sendClaim_work (s : State) (pos : Nat) (id : BitVec 16) :
    (State.sendClaim s pos id).work = s.work := by
  simp only [State.sendClaim]
  (repeat' split) <;> simp

@[simp] theorem State.folioWrite_work (s : State) (pos : Nat) (data : W32) :
    (State.folioWrite s pos data).work = s.work := by
  simp [State.folioWrite]

@[simp] theorem State.holdLo_work (s : State) (o : Nat) (data : W32) :
    (State.holdLo s o data).work = s.work := by
  simp [State.holdLo]

@[simp] theorem State.loadHi_work (s : State) (o : Nat) (data : W32) :
    (State.loadHi s o data).work = s.work := by
  simp [State.loadHi]

@[simp] theorem State.writeTeller_work (s : State) (o : Nat) (data : W32) :
    (State.writeTeller s o data).work = s.work := by
  simp only [State.writeTeller]
  (repeat' split) <;> simp

@[simp] theorem State.portRelease_work (s : State) (p : Nat) :
    (State.portRelease s p).work = s.work := by
  simp [State.portRelease]

@[simp] theorem State.writePort_work (s : State) (p o : Nat) (data : W32) :
    (State.writePort s p o data).work = s.work := by
  simp [State.writePort]

@[simp] theorem State.writeRegion_work (s : State) (r o : Nat) (data : W32) :
    (State.writeRegion s r o data).work = s.work := by
  simp [State.writeRegion]

@[simp] theorem State.fabricEvent_work (s : State) (code p order contrib : Nat) :
    (State.fabricEvent s code p order contrib).work = s.work := by
  simp [State.fabricEvent]

@[simp] theorem State.lockBreakPort_work (s : State) (p : Nat) :
    (State.lockBreakPort s p).work = s.work := by
  simp [State.lockBreakPort]

@[simp] theorem State.abortAll_work (s : State) (p : Nat) :
    (State.abortAll s p).work = s.work := by
  unfold State.abortAll
  dsimp only
  rw [foldl_work]
  · simp
  · intro s x
    simp

@[simp] theorem State.quarantine_work (s : State) (p k : Nat) :
    (State.quarantine s p k).work = s.work := by
  simp [State.quarantine]

@[simp] theorem State.countQ_work (s : State) (p k : Nat) :
    (State.countQ s p k).work = s.work := by
  simp only [State.countQ]
  (repeat' split) <;> simp

@[simp] theorem State.denied_work (s : State) (p : Nat) (t : Txn) :
    (State.denied s p t).work = s.work := by
  simp [State.denied]

@[simp] theorem State.recvCpl_work (s : State) (p : Nat) (t : Txn) :
    (State.recvCpl s p t).work = s.work := by
  simp only [State.recvCpl]
  (repeat' split) <;> simp

@[simp] theorem State.countRelay_work (s : State) (p : Nat) :
    (State.countRelay s p).work = s.work := by
  simp [State.countRelay]

@[simp] theorem State.deliver_work (s : State) (p : Nat) (t : Txn) :
    (State.deliver s p t).work = s.work := by
  simp [State.deliver]

@[simp] theorem State.takePayload_work (s : State) (p : Nat) (h : LinkHead) (pl : List Byte) :
    (State.takePayload s p h pl).work = s.work := by
  unfold State.takePayload
  dsimp only
  split
  · simp
  · split
    · simp
      rw [foldl_work]
      · simp
      · intro s t
        simp
    · rw [foldl_work]
      · simp
      · intro s t
        simp

@[simp] theorem State.takeData_work (s : State) (p : Nat) (h : LinkHead) (pl : List Byte) :
    (State.takeData s p h pl).work = s.work := by
  simp [State.takeData]

@[simp] theorem State.askReplay_work (s : State) (p : Nat) :
    (State.askReplay s p).work = s.work := by
  simp [State.askReplay]

@[simp] theorem State.inOrder_work (s : State) (p : Nat) (h : LinkHead) (pl : List Byte) :
    (State.inOrder s p h pl).work = s.work := by
  simp [State.inOrder]

@[simp] theorem State.dueFlit_work (s : State) (p : Nat) (h : LinkHead) (flit : List Byte) :
    (State.dueFlit s p h flit).work = s.work := by
  simp only [State.dueFlit]
  (repeat' split) <;> simp

@[simp] theorem State.goodFlit_work (s : State) (p : Nat) (h : LinkHead) (flit : List Byte) :
    (State.goodFlit s p h flit).work = s.work := by
  simp [State.goodFlit]

@[simp] theorem State.idle_work (s : State) (p : Nat) :
    (State.idle s p).work = s.work := by
  rfl

@[simp] theorem State.enterAuth_work (s : State) (p : Nat) (lanes : Byte) :
    (State.enterAuth s p lanes).work = s.work := by
  rfl

@[simp] theorem State.failAuth_work (s : State) (p code order id : Nat) :
    (State.failAuth s p code order id).work = s.work := by
  simp [State.failAuth]

@[simp] theorem State.tellOthers_work (s : State) (p : Nat) (m : Mgmt) :
    (State.tellOthers s p m).work = s.work := by
  unfold State.tellOthers
  rw [foldl_work]
  intro s x
  simp

@[simp] theorem State.bind_work (s : State) (p id : Nat) (digest : W64) :
    (State.bind s p id digest).work = s.work := by
  simp [State.bind]

@[simp] theorem State.claimAll_work (s : State) (id : BitVec 16) :
    (State.claimAll s id).work = s.work := by
  unfold State.claimAll
  rw [foldl_work]
  intro s x
  simp

@[simp] theorem State.endClaim_work (s : State) :
    (State.endClaim s).work = s.work := by
  rfl

@[simp] theorem State.replyClaim_work (s : State) (p : Nat) (ok : Bool) :
    (State.replyClaim s p ok).work = s.work := by
  rfl

@[simp] theorem State.claimAnswer_work (s : State) (pos : Nat) (holder : BitVec 16) :
    (State.claimAnswer s pos holder).work = s.work := by
  simp [State.claimAnswer]

@[simp] theorem State.verdictRecord_work (s : State) (r : Run) (u : Suspect) :
    (State.verdictRecord s r u).work = s.work := by
  simp [State.verdictRecord]

@[simp] theorem State.transient_work (s : State) (r : Run) (u : Suspect) (cause : Nat) :
    (State.transient s r u cause).work = s.work := by
  simp [State.transient]

@[simp] theorem State.verdict_work (s : State) (r : Run) (u : Suspect) :
    (State.verdict s r u).work = s.work := by
  simp [State.verdict]

@[simp] theorem State.nameHost_work (s : State) (j : Job) (r : Run) (d i a b : Nat) :
    (State.nameHost s j r d i a b).1.work = s.work := by
  simp only [State.nameHost]
  (repeat' split) <;> simp

@[simp] theorem State.nameHosts_work (s : State) (j : Job) (r : Run) (k : Nat) (x0 : List (Nat × Nat)) :
    (State.nameHosts s j r k x0).1.work = s.work := by
  induction x0 generalizing s r with
  | nil => rfl
  | cons x t ih => simp [State.nameHosts, ih]

@[simp] theorem State.awaitRun_work (s : State) (r : Run) (counted : Nat) :
    (State.awaitRun s r counted).work = s.work := by
  simp [State.awaitRun]

@[simp] theorem State.readyAll_work (s : State) (m moved : List Nat) :
    (State.readyAll s m moved).work = s.work := by
  exact foldl_work (fun _ _ => State.readyBanks_work _ _) _ _

@[simp] theorem State.nextRun_work (s : State) (r : Run) :
    (State.nextRun s r).work = s.work := by
  rfl

@[simp] theorem State.regenEvent_work (s : State) (j : Job) (r : Option Run) (space addr desc : Nat) :
    (State.regenEvent s j r space addr desc).work = s.work := by
  simp [State.regenEvent]

@[simp] theorem State.readBack_work (s : State) (j : Job) (desc : Nat) :
    (State.readBack s j desc).work = s.work := by
  unfold State.readBack
  dsimp only
  split
  · rw [foldl_work]
    intro s x
    simp
  · rfl

@[simp] theorem State.remap_work (s : State) :
    (State.remap s).work = s.work := by
  unfold State.remap
  dsimp only
  rw [State.work_mk, State.work_fold, foldl_work]
  intro s x
  simp

@[simp] theorem State.wakeMill_work (s t : State) (d : Nat) :
    (State.wakeMill s t d).work = t.work := by
  simp only [State.wakeMill]
  (repeat' split) <;> simp

@[simp] theorem State.setEvent_work (s : State) (id ver act code : Nat) :
    (State.setEvent s id ver act code).work = s.work := by
  simp [State.setEvent]

@[simp] theorem State.storeSet_work (s : State) (x : AssaySet) (k : Nat) :
    (State.storeSet s x k).work = s.work := by
  rfl

@[simp] theorem State.eraseSet_work (s : State) (k : Nat) :
    (State.eraseSet s k).work = s.work := by
  rfl

@[simp] theorem State.beatAll_work (s : State) :
    (State.beatAll s).work = s.work := by
  simp [State.beatAll]

@[simp] theorem State.setMsix_work (s : State) (vector : Nat) (e : MsixEnt) :
    (State.setMsix s vector e).work = s.work := by
  rfl

@[simp] theorem State.sendPending_work (s : State) (vector : Nat) :
    (State.sendPending s vector).work = s.work := by
  simp [State.sendPending]

@[simp] theorem State.stepEvent_work (s : State) (job : Nat) (e : Evt) :
    (State.stepEvent s job e).work = s.work := by
  simp only [State.stepEvent]
  (repeat' split) <;> simp

@[simp] theorem State.collEvent_work (s : State) (code p : Nat) (j : Job) (x : Incoming) (v : Recv) (w7 : Nat) :
    (State.collEvent s code p j x v w7).work = s.work := by
  simp [State.collEvent]

@[simp] theorem State.discard_work (s : State) (v : Recv) (token attempt : Nat) :
    (State.discard s v token attempt).work = s.work := by
  simp only [State.discard]
  (repeat' split) <;> simp

@[simp] theorem State.compare_work (s : State) (j : Job) (x : Incoming) (v : Recv) (h : HeldCsgn) :
    (State.compare s j x v h).work = s.work := by
  simp [State.compare]

@[simp] theorem State.landIn_work (s : State) (p : Nat) (j : Job) (x : Incoming) (v : Recv) (t : Txn) :
    (State.landIn s p j x v t).work = s.work := by
  simp only [State.landIn]
  (repeat' split) <;> simp

@[simp] theorem State.ingressEvent_work (s : State) (d : Nat) (j : Job) (r : Run) (ut pu w6 w7 : Nat) (injected : Bool) :
    (State.ingressEvent s d j r ut pu w6 w7 injected).work = s.work := by
  simp [State.ingressEvent]

@[simp] theorem State.ingress_work (s : State) (p d : Nat) (j : Job) (r : Run) (t : Txn) (chk : Chk) :
    (State.ingress s p d j r t chk).1.work = s.work := by
  simp only [State.ingress]
  (repeat' split) <;> simp

@[simp] theorem State.compareHeld_work (s : State) (j : Job) (x : Incoming) (t : Txn) :
    (State.compareHeld s j x t).work = s.work := by
  simp only [State.compareHeld]
  (repeat' split) <;> simp

@[simp] theorem State.recvData_work (s : State) (p : Nat) (j : Job) (r : Run) (x : Incoming) (t : Txn) (chk : Chk) :
    (State.recvData s p j r x t chk).work = s.work := by
  simp only [State.recvData]
  (repeat' split) <;> simp

@[simp] theorem State.contribution_work (s : State) (p : Nat) (t : Txn) (mode : Nat) (chk : Chk) :
    (State.contribution s p t mode chk).work = s.work := by
  simp only [State.contribution]
  (repeat' split) <;> simp

@[simp] theorem State.readRegs_work (s : State) (addr : Nat) (named : Nat → Bool) (x0 : Nat) :
    (State.readRegs s addr named x0).2.work = s.work := by
  induction x0 generalizing s addr with
  | zero => rfl
  | succ n ih =>
    rw [State.readRegs]
    dsimp only
    rw [ih]
    split <;> simp

@[simp] theorem State.readWindow_work (s : State) (p : Nat) (t : Txn) :
    (State.readWindow s p t).work = s.work := by
  simp only [State.readWindow]
  (repeat' split) <;> simp

@[simp] theorem State.recvRd_work (s : State) (p : Nat) (t : Txn) :
    (State.recvRd s p t).work = s.work := by
  simp only [State.recvRd]
  (repeat' split) <;> simp

@[simp] theorem State.recvCsgn_work (s : State) (p : Nat) (j : Job) (x : Incoming) (t : Txn) :
    (State.recvCsgn s p j x t).work = s.work := by
  simp only [State.recvCsgn]
  (repeat' split) <;> simp

@[simp] theorem State.recvVoid_work (s : State) (p : Nat) (j : Job) (x : Incoming) (t : Txn) :
    (State.recvVoid s p j x t).work = s.work := by
  simp [State.recvVoid]

@[simp] theorem State.recvDb_work (s : State) (p : Nat) (t : Txn) :
    (State.recvDb s p t).work = s.work := by
  simp only [State.recvDb]
  (repeat' split) <;> simp

@[simp] theorem State.reroute_work (s : State) (j : Job) :
    (State.reroute s j).work = s.work := by
  simp [State.reroute]

@[simp] theorem State.waitTimeout_work (s : State) (j : Job) (r : Run) (x : Incoming) :
    (State.waitTimeout s j r x).work = s.work := by
  simp [State.waitTimeout]

@[simp] theorem State.sbAnswer_work (s : State) (status : Byte) (data : W32) :
    (State.sbAnswer s status data).work = s.work := by
  rfl

@[simp] theorem State.onI3c_work (s : State) (k : I3c → I3c) :
    (State.onI3c s k).work = s.work := by
  simp [State.onI3c]

@[simp] theorem State.cccAnswer_work (s : State) (bs : List Byte) :
    (State.cccAnswer s bs).work = s.work := by
  unfold State.cccAnswer
  dsimp only
  (repeat' split) <;> first | (simp; done) | (rw [foldl_work]; · simp; · intro s x; dsimp only; (repeat' split) <;> simp)

@[simp] theorem State.watchdogEvents_work (s : State) (j : Job) (r : Run) (limit elapsed die : Nat) :
    (State.watchdogEvents s j r limit elapsed die).work = s.work := by
  unfold State.watchdogEvents
  dsimp only
  split
  · simp
  · rw [foldl_work]
    intro s h
    simp

theorem to_work {τ : Type} {f : State → τ → State} {w} (h : ∀ s x, s.work = w → (f s x).work = w) :
    ∀ (l : List τ) {s : State}, s.work = w → (l.foldl f s).work = w
  | [], _, hs => hs
  | x :: t, s, hs => to_work h t (h s x hs)

theorem State.order3_to {w} (s : State) (env : StartEnv)
    (h : s.work = w) : (State.order3 s env).work = w := by
  unfold State.order3
  split
  · dsimp only
    rw [State.work_mk, State.work_fold]
    simp [h]
  · dsimp only
    refine to_work (fun s x h => by simp [h]) _ ?_
    rw [State.work_mk, State.work_fold]
    refine to_work (fun s c h => ?_) _ (to_work (fun s c h => by simp [h]) _ (to_work (fun s c h => by simp [h]) _ ?_))
    · split <;> simp [h]
    · simp [h]

theorem State.order4_to {w} (s : State) (env : StartEnv)
    (h : s.work = w) : (State.order4 s env).work = w := by
  unfold State.order4
  dsimp only
  rw [State.work_mk, State.work_fold]
  have h1 : (env.vaultFail.foldl (fun (s : State) g => if 128 ≤ g then s else (s.startFail 4 2 3 g).permanent 3 g s.errSeq) s).work = w :=
    to_work (fun s g h => by split <;> simp [h]) _ h
  have h2 : ∀ t : State, t.work = w → (env.tillFail.foldl (fun (s : State) p => if 576 ≤ p ∨ s.isFenced 1 p = true then s
      else (s.startFail 4 2 1 p).fenceCore p s.errSeq) t).work = w :=
    fun t ht => to_work (fun s p h => by split <;> simp [h]) _ ht
  have h3 := h2 (State.withdrawVault (env.vaultFail.foldl (fun (s : State) g =>
    if 128 ≤ g then s else (s.startFail 4 2 3 g).permanent 3 g s.errSeq) s)) (by simp [h1])
  refine to_work (fun s i h => ?_) _ ?_
  · split <;> simp [h]
  · split <;> simp [h3]

theorem State.order5_to {w} (s : State) (env : StartEnv)
    (h : s.work = w) : (State.order5 s env).work = w := by
  unfold State.order5
  dsimp only
  rw [State.work_mk, State.work_fold]
  refine to_work (fun s i h => ?_) _ h
  split
  · rw [State.roundSet_work]; exact h
  · exact h

/-- With no job and nothing queued there is no completion to write again. -/
theorem State.hostAgain_idle {s : State} (h : s.work = State.reset.work) : s.hostAgain.work = State.reset.work := by
  unfold State.hostAgain
  split
  · have h1 : s.hostResend.work = State.reset.work := by rw [State.hostResend_work]; exact h
    have hj : s.hostResend.jobs = [] := congrArg Prod.fst h1
    have hq : s.hostResend.queued0 = [] := congrArg (fun w => w.2.2.1) h1
    have e : s.hostResend.drainCpl = { s.hostResend with queued0 := [] } := by
      unfold State.drainCpl
      rw [hq]
      simp only [State.drainList, hj, List.foldl_nil]
    rw [e, State.work_mk, ← hq, State.work_fold]
    exact h1
  · exact h

theorem State.admitPort_idle {s : State} (p : Nat) (a : Hello) (c : List Byte) (h : s.work = State.reset.work) :
    (s.admitPort p a c).work = State.reset.work := by
  unfold State.admitPort
  dsimp only
  rw [State.classEdge_work]
  refine State.hostAgain_idle ?_
  rw [State.rerouteAll_work]
  (repeat' split) <;> simp [h]

@[simp] theorem State.train_work (s : State) (p : Nat) (x y : BitVec 8) : (s.train p x y).work = s.work := by
  unfold State.train
  dsimp only
  split
  · split
    · rw [State.classEdge_work, State.setPort_work]
    · rw [State.classEdge_work, State.enterAuth_work]
  · rfl

@[simp] theorem State.greet_work (s : State) (p : Nat) (x : Hello) : (s.greet p x).work = s.work := by
  unfold State.greet
  dsimp only
  split
  · split
    · rw [State.setPort_work]
    · rw [State.classEdge_work, State.failAuth_work]
  · rfl

@[simp] theorem State.giveUp_work (s : State) (p o : Nat) : (s.giveUp p o).work = s.work := by
  unfold State.giveUp
  dsimp only
  split
  · rw [State.classEdge_work, State.failAuth_work]
  · rfl

theorem State.answered_idle {s : State} (p : Nat) (x : Sigs) (h : s.work = State.reset.work) :
    (s.answered p x).work = State.reset.work := by
  unfold State.answered
  split
  · split
    · exact State.admitPort_idle _ _ _ h
    · rw [State.classEdge_work, State.failAuth_work]; exact h
  · exact h

/-- Order 6 from a state with no job leaves none (R401). -/
theorem State.firstAttempt_idle {s : State} (a : PortAttempt) (h : s.work = State.reset.work) :
    (s.firstAttempt a).work = State.reset.work := by
  unfold State.firstAttempt
  dsimp only
  rw [State.giveUp_work]
  have h1 : (s.train a.port a.lanes a.partner).work = State.reset.work := by rw [State.train_work]; exact h
  generalize s.train a.port a.lanes a.partner = t at h1
  cases a.hello with
  | none => cases a.sigs with
    | none => exact h1
    | some g => exact State.answered_idle _ _ h1
  | some x =>
    have h2 : (t.greet a.port x).work = State.reset.work := by rw [State.greet_work]; exact h1
    cases a.sigs with
    | none => exact h2
    | some g => exact State.answered_idle _ _ h2

theorem State.order6_to {s : State} (env : StartEnv) (h : s.work = State.reset.work) :
    (State.order6 s env).work = State.reset.work := by
  unfold State.order6
  dsimp only
  rw [State.work_mk, State.work_fold]
  exact to_work (fun s a h => State.firstAttempt_idle a h) _ h

theorem State.order7_to {w} (s : State) (h : s.work = w) : (State.order7 s).work = w := by
  unfold State.order7
  dsimp only
  split
  · exact to_work (fun s e h => by simp [h]) _ h
  · exact h

theorem State.order8_to {w} (s : State) (cause : Nat)
    (h : s.work = w) : (State.order8 s cause).work = w := by
  unfold State.order8
  dsimp only
  rw [State.settle_work, State.work_mk, State.work_fold]
  have h1 : ∀ (l : List (List W64)) (t : State), t.work = w → (l.foldl (fun s r => s.ledger r) t).work = w :=
    fun l t ht => to_work (fun s r h => by simp [h]) _ ht
  have h2 := h1 s.su.held { s with
    rings := [(0, deviceRing 0 0 8 1), (1, deviceRing 0x4000 1 8 0), (2, deviceRing 0 4 16 0)]
    su := { s.su with held := [], phase := 8, mRun := s.su.mBoot } } h
  (repeat' split) <;> (try simp only [State.flashWrite_work, State.raise_work]) <;> exact h2

theorem State.startUp_to (s : State) (env : StartEnv)
    (h : s.work = State.reset.work) : (State.startUp s env).work = State.reset.work := by
  unfold State.startUp
  dsimp only
  have h2 : (s.order2 env).work = State.reset.work := by simp [h]
  have h3 := State.order3_to _ env h2
  have h5 := State.order5_to _ env (State.order4_to _ env h3)
  split
  · rw [State.settle_work]; exact h2
  · split
    · rw [State.settle_work]; exact h3
    · exact State.order8_to _ _ (State.order7_to _ (State.order6_to env h5))

theorem State.warmBare_work (s : State) : s.warmBare.work = State.reset.work := rfl

/-- After a warm reset nothing is left of the jobs and of the requests that waited for them (R420). -/
theorem State.warmReset_work (s : State) (env : StartEnv) (h : s.mod.railsUp = true) :
    (s.warmReset env).work = State.reset.work := by
  simp only [State.warmReset, h, if_true]
  exact State.startUp_to _ env s.warmBare_work

end Sys2Proof.Machine
end

