-- ==== Sys2Proof/Laws/FrameWork.lean ====
section
/-! SUPPORT. The commands that leave the jobs, their requests and their sequences alone: one frame lemma for each. -/

namespace Sys2Proof.Machine
theorem regWrite_work {side : Bool} {n o : Nat} {k : State → State} (h : ∀ s, (k s).work = s.work) (s : State) :
    (s.regWrite side n o k).work = s.work := by
  unfold State.regWrite
  split <;> simp [h]

theorem takeTxn_work {s t : State} {p ty : Nat} {x : Txn} (h : s.takeTxn p ty = some (x, t)) : t.work = s.work := by
  simp only [State.takeTxn] at h
  (repeat' split at h) <;> first | (cases h; done) | (cases h; simp)

theorem aboutContrib_work {p : Nat} {x : Txn} {k : State → Job → Incoming → State} (h : ∀ s j c, (k s j c).work = s.work) (s : State) :
    (s.aboutContrib p x k).work = s.work := by
  unfold State.aboutContrib
  (repeat' split) <;> simp [h]

theorem replanAll_work : ∀ (l : List RegionMeas) (r : Nat) (s : State) (es : List W256), (replanAll r l s es).1.work = s.work
  | [], _, _, _ => rfl
  | m :: t, r, s, es => by
    rw [replanAll, replanAll_work t]
    simp

theorem execDieBankSwitch_work : ∀ core (s t : State), execDieBankSwitch core s = .next t → t.work = s.work := by
  intro core
  intro s t h
  simp only [execDieBankSwitch] at h
  (repeat' split at h) <;> first | (cases h; done) | (cases h; rfl) | (cases h; simp; done) | (cases h; simp_all)

theorem execNop_work : ∀ d chk (s t : State), execNop d chk s = .next t → t.work = s.work := by
  intro d chk
  intro s t h
  simp only [execNop] at h
  (repeat' split at h) <;> first | (cases h; done) | (cases h; rfl) | (cases h; simp; done) | (cases h; simp_all)

theorem execStepBegin_work : ∀ d (s t : State), execStepBegin d s = .next t → t.work = s.work := by
  intro d s t h
  simp only [execStepBegin] at h
  (repeat' split at h) <;> first | (cases h; done) | (cases h; rfl) | (cases h; simp; done) | (cases h; simp_all)

theorem execStepEnd_work : ∀ d (s t : State), execStepEnd d s = .next t → t.work = s.work := by
  intro d s t h
  simp only [execStepEnd] at h
  (repeat' split at h) <;> first | (cases h; done) | (cases h; rfl) | (cases h; simp; done) | (cases h; simp_all)

theorem execMoveLands_work : ∀ d idx chk (s t : State), execMoveLands d idx chk s = .next t → t.work = s.work := by
  intro d idx chk
  intro s t h
  simp only [execMoveLands] at h
  (repeat' split at h) <;> first | (cases h; done) | (cases h; rfl) | (cases h; simp; done) | (cases h; simp_all)

theorem execRecordComplete_work : ∀ d idx (s t : State), execRecordComplete d idx s = .next t → t.work = s.work := by
  intro d idx
  intro s t h
  simp only [execRecordComplete] at h
  (repeat' split at h) <;> first | (cases h; done) | (cases h; rfl) | (cases h; simp; done) | (cases h; simp_all)

theorem execWatchdog_work : ∀ job limit elapsed die (s t : State), execWatchdog job limit elapsed die s = .next t → t.work = s.work := by
  intro job limit elapsed die
  intro s t h
  simp only [execWatchdog] at h
  (repeat' split at h) <;> first | (cases h; done) | (cases h; rfl) | (cases h; simp; done) | (cases h; simp_all)

theorem execSparingRefill_work : ∀ (s t : State), execSparingRefill  s = .next t → t.work = s.work := by
  intro s t h
  simp only [execSparingRefill] at h
  (repeat' split at h) <;> first | (cases h; done) | (cases h; rfl) | (cases h; simp; done) | (cases h; simp_all)

theorem execArrearsPromoted_work : ∀ user arrears (s t : State), execArrearsPromoted user arrears s = .next t → t.work = s.work := by
  intro user arrears
  intro s t h
  simp only [execArrearsPromoted] at h
  (repeat' split at h) <;> first | (cases h; done) | (cases h; rfl) | (cases h; simp; done) | (cases h; simp_all)

theorem ageWrite_work (s : State) (es : List W256) : (s.ageWrite es).work = s.work := by
  unfold State.ageWrite
  dsimp only
  split
  · exact State.flashWrite_work _ _
  · exact State.flashWrite_work _ _

theorem execAgeing_work : ∀ meas (s t : State), execAgeing meas s = .next t → t.work = s.work := by
  intro meas s t h
  unfold execAgeing at h
  split at h
  · cases h; rfl
  · cases h
    rw [State.settle_work, ageWrite_work, replanAll_work]
    rfl

theorem execSummaryFold_work : ∀ (s t : State), execSummaryFold  s = .next t → t.work = s.work := by
  intro s t h
  simp only [execSummaryFold] at h
  (repeat' split at h) <;> first | (cases h; rfl) | (cases h; simp; done) | (cases h; simp; apply foldl_work; intro s x; simp)

theorem execBlankStrikeRampDown_work : ∀ core (s t : State), execBlankStrikeRampDown core s = .next t → t.work = s.work := by
  intro core s t h
  simp only [execBlankStrikeRampDown] at h
  (repeat' split at h) <;> first | (cases h; done) | (cases h; rfl) | (cases h; simp; done) | (cases h; simp_all)

theorem execPowerCap_work : ∀ watts (s t : State), execPowerCap watts s = .next t → t.work = s.work := by
  intro watts
  intro s t h
  simp only [execPowerCap] at h
  (repeat' split at h) <;> first | (cases h; done) | (cases h; rfl) | (cases h; simp; done) | (cases h; simp_all)

theorem execPowerOver_work : ∀ watts (s t : State), execPowerOver watts s = .next t → t.work = s.work := by
  intro watts
  intro s t h
  simp only [execPowerOver] at h
  (repeat' split at h) <;> first | (cases h; done) | (cases h; rfl) | (cases h; simp; done) | (cases h; simp_all)

theorem execThermalCap_work : ∀ temps (s t : State), execThermalCap temps s = .next t → t.work = s.work := by
  intro temps
  intro s t h
  simp only [execThermalCap] at h
  (repeat' split at h) <;> first | (cases h; done) | (cases h; rfl) | (cases h; simp; done) | (cases h; simp_all)

theorem execThermalAlert_work : ∀ point unit temp (s t : State), execThermalAlert point unit temp s = .next t → t.work = s.work := by
  intro point unit temp
  intro s t h
  simp only [execThermalAlert] at h
  (repeat' split at h) <;> first | (cases h; done) | (cases h; rfl) | (cases h; simp; done) | (cases h; simp_all)

theorem execCoolant_work : ∀ inlet outlet (s t : State), execCoolant inlet outlet s = .next t → t.work = s.work := by
  intro inlet outlet
  intro s t h
  simp only [execCoolant] at h
  (repeat' split at h) <;> first | (cases h; done) | (cases h; rfl) | (cases h; simp; done) | (cases h; simp_all)

theorem execRefreshDoubled_work : ∀ stack temp (s t : State), execRefreshDoubled stack temp s = .next t → t.work = s.work := by
  intro stack temp
  intro s t h
  simp only [execRefreshDoubled] at h
  (repeat' split at h) <;> first | (cases h; done) | (cases h; rfl) | (cases h; simp; done) | (cases h; simp_all)

theorem execRefreshNormal_work : ∀ stack temp (s t : State), execRefreshNormal stack temp s = .next t → t.work = s.work := by
  intro stack temp
  intro s t h
  simp only [execRefreshNormal] at h
  (repeat' split at h) <;> first | (cases h; done) | (cases h; rfl) | (cases h; simp; done) | (cases h; simp_all)

theorem execFlashGateClose_work : ∀ mv (s t : State), execFlashGateClose mv s = .next t → t.work = s.work := by
  intro mv
  intro s t h
  simp only [execFlashGateClose] at h
  (repeat' split at h) <;> first | (cases h; done) | (cases h; rfl) | (cases h; simp; done) | (cases h; simp_all)

/-! #### Reports leave the recovery alone -/

theorem State.interrupt_rcv (s : State) (v : BitVec 11) : (s.interrupt v).su.rcv = s.su.rcv := by
  unfold State.interrupt State.sendReq State.trySend
  dsimp only
  (repeat' split) <;> rfl

theorem State.evtEdge_rcv (s : State) : s.evtEdge.su.rcv = s.su.rcv := by
  unfold State.evtEdge
  dsimp only
  split
  · rw [State.interrupt_rcv]
  · rfl

theorem State.markPage_rcv (s : State) (n c k : Nat) : (s.markPage n c k).su.rcv = s.su.rcv := by
  unfold State.markPage
  dsimp only
  rw [State.evtEdge_rcv]
  rfl

theorem State.ledger_rcv (s : State) (ws : List W64) : (s.ledger ws).su.rcv = s.su.rcv := by
  unfold State.ledger
  dsimp only
  split
  · split <;> rfl
  · (repeat' split) <;> first | rfl | (rw [State.interrupt_rcv]; rfl)

theorem State.infoEvent_rcv (s : State) (j k c : Nat) : (s.infoEvent j k (some c)).su.rcv = s.su.rcv := by
  unfold State.infoEvent
  dsimp only
  rw [State.markPage_rcv, State.ledger_rcv]

theorem State.lockBreakIf_rcv (s : State) (p : Run → Bool) : (s.lockBreakIf p).su.rcv = s.su.rcv := by
  have h : ∀ (l : List Run) (t : State),
      (l.foldl (fun (s : State) r => s.infoEvent r.job r.step.toNat (some 13)) t).su.rcv = t.su.rcv := by
    intro l
    induction l with
    | nil => intro t; rfl
    | cons r l ih => intro t; rw [List.foldl_cons, ih, State.infoEvent_rcv]
  unfold State.lockBreakIf
  dsimp only
  rw [h]

theorem State.settle_rcv (s : State) : s.settle.su.rcv = s.su.rcv := by
  unfold State.settle
  rw [State.evtEdge_rcv]
  unfold State.alertEdge State.governor State.lockBreak
  dsimp only
  (repeat' split) <;> first | rfl | exact State.lockBreakIf_rcv _ _

theorem State.recResume_idle {s : State} (h : s.su.rcv.waiting = none) : s.recResume = s := by
  unfold State.recResume
  rw [h]

theorem State.recResume_some {s : State} {env : StartEnv} (h : s.su.rcv.waiting = some env) : s.recResume = s.recFinish env := by
  unfold State.recResume
  rw [h]

theorem State.sagFollow_some {s : State} {e : Sag} (h : s.mod.episode = some e) : s.sagFollow = s.sagRecord e := by
  unfold State.sagFollow
  rw [h]

theorem State.inputIs_quiesced (s : State) (mv : Nat) : (s.inputIs mv).mod.quiesced = s.mod.quiesced := by
  unfold State.inputIs State.sagFollow State.sagRecord
  (repeat' split) <;> rfl

theorem State.inputIs_overVolt (s : State) (mv : Nat) : (s.inputIs mv).mod.overVolt = s.mod.overVolt := by
  unfold State.inputIs State.sagFollow State.sagRecord
  (repeat' split) <;> rfl

theorem State.inputIs_rcv (s : State) (mv : Nat) : (s.inputIs mv).su.rcv = s.su.rcv := by
  unfold State.inputIs State.sagFollow State.sagRecord
  (repeat' split) <;> rfl

/-- The gate's opening leaves the jobs alone where no FINISH waits for it (R418). -/
theorem execFlashGateOpen_work : ∀ mv (s t : State), s.su.rcv.waiting = none →
    execFlashGateOpen mv s = .next t → t.work = s.work := by
  intro mv s t hw h
  unfold execFlashGateOpen at h
  split at h
  · cases h; rfl
  · split at h
    · cases h; exact State.inputIs_work _ _
    · cases h
      rw [State.recResume_idle, State.settle_work]
      · exact State.inputIs_work _ _
      · rw [State.settle_rcv]
        show (s.inputIs mv).su.rcv.waiting = none
        rw [State.inputIs_rcv]
        exact hw

theorem execSagCap_work : ∀ mv (s t : State), execSagCap mv s = .next t → t.work = s.work := by
  intro mv
  intro s t h
  simp only [execSagCap] at h
  (repeat' split at h) <;> first | (cases h; done) | (cases h; rfl) | (cases h; simp; done) | (cases h; simp_all)

theorem execSagCapEnd_work : ∀ mv (s t : State), execSagCapEnd mv s = .next t → t.work = s.work := by
  intro mv
  intro s t h
  simp only [execSagCapEnd] at h
  (repeat' split at h) <;> first | (cases h; done) | (cases h; rfl) | (cases h; simp; done) | (cases h; simp_all)

theorem execQuiesce_work : ∀ mv (s t : State), execQuiesce mv s = .next t → t.work = s.work := by
  intro mv
  intro s t h
  simp only [execQuiesce] at h
  (repeat' split at h) <;> first | (cases h; done) | (cases h; rfl) | (cases h; simp; done) | (cases h; simp_all)

theorem execOvervoltage_work : ∀ mv (s t : State), execOvervoltage mv s = .next t → t.work = s.work := by
  intro mv
  intro s t h
  simp only [execOvervoltage] at h
  (repeat' split at h) <;> first | (cases h; done) | (cases h; rfl) | (cases h; simp; done) | (cases h; simp_all)

theorem execRelayRead_work : ∀ pos off (s t : State), execRelayRead pos off s = .next t → t.work = s.work := by
  intro pos off
  intro s t h
  simp only [execRelayRead] at h
  (repeat' split at h) <;> first | (cases h; done) | (cases h; rfl) | (cases h; simp; done) | (cases h; simp_all)

theorem execRelayTimeout_work : ∀ port tag (s t : State), execRelayTimeout port tag s = .next t → t.work = s.work := by
  intro port tag
  intro s t h
  simp only [execRelayTimeout] at h
  (repeat' split at h) <;> first | (cases h; done) | (cases h; rfl) | (cases h; simp; done) | (cases h; simp_all)

theorem execSidebandRead_work : ∀ off ok (s t : State), execSidebandRead off ok s = .next t → t.work = s.work := by
  intro off ok
  intro s t h
  simp only [execSidebandRead] at h
  (repeat' split at h) <;> first | (cases h; done) | (cases h; rfl) | (cases h; simp; done) | (cases h; simp_all)

theorem execSidebandAlert_work : ∀ off ok (s t : State), execSidebandAlert off ok s = .next t → t.work = s.work := by
  intro off ok
  intro s t h
  simp only [execSidebandAlert] at h
  (repeat' split at h) <;> first | (cases h; done) | (cases h; rfl) | (cases h; simp; done) | (cases h; simp_all)

theorem execEntdaa_work : ∀ addr (s t : State), execEntdaa addr s = .next t → t.work = s.work := by
  intro addr
  intro s t h
  simp only [execEntdaa] at h
  (repeat' split at h) <;> first | (cases h; done) | (cases h; rfl) | (cases h; simp; done) | (cases h; simp_all)

theorem execSetdasa_work : ∀ static addr (s t : State), execSetdasa static addr s = .next t → t.work = s.work := by
  intro static addr
  intro s t h
  simp only [execSetdasa] at h
  (repeat' split at h) <;> first | (cases h; done) | (cases h; rfl) | (cases h; simp; done) | (cases h; simp_all)

theorem execRstdaa_work : ∀ (s t : State), execRstdaa  s = .next t → t.work = s.work := by
  intro s t h
  simp only [execRstdaa] at h
  (repeat' split at h) <;> first | (cases h; done) | (cases h; rfl) | (cases h; simp; done) | (cases h; simp_all)

theorem execEnec_work : ∀ (s t : State), execEnec  s = .next t → t.work = s.work := by
  intro s t h
  simp only [execEnec] at h
  (repeat' split at h) <;> first | (cases h; done) | (cases h; rfl) | (cases h; simp; done) | (cases h; simp_all)

theorem execDisec_work : ∀ (s t : State), execDisec  s = .next t → t.work = s.work := by
  intro s t h
  simp only [execDisec] at h
  (repeat' split at h) <;> first | (cases h; done) | (cases h; rfl) | (cases h; simp; done) | (cases h; simp_all)

theorem execGetpid_work : ∀ (s t : State), execGetpid  s = .next t → t.work = s.work := by
  intro s t h
  simp only [execGetpid] at h
  (repeat' split at h) <;> first | (cases h; done) | (cases h; rfl) | (cases h; simp; done) | (cases h; simp_all)

theorem execGetbcr_work : ∀ (s t : State), execGetbcr  s = .next t → t.work = s.work := by
  intro s t h
  simp only [execGetbcr] at h
  (repeat' split at h) <;> first | (cases h; done) | (cases h; rfl) | (cases h; simp; done) | (cases h; simp_all)

theorem execGetdcr_work : ∀ (s t : State), execGetdcr  s = .next t → t.work = s.work := by
  intro s t h
  simp only [execGetdcr] at h
  (repeat' split at h) <;> first | (cases h; done) | (cases h; rfl) | (cases h; simp; done) | (cases h; simp_all)

theorem execGetstatus_work : ∀ (s t : State), execGetstatus  s = .next t → t.work = s.work := by
  intro s t h
  simp only [execGetstatus] at h
  (repeat' split at h) <;> first | (cases h; done) | (cases h; rfl) | (cases h; simp; done) | (cases h; simp_all)

theorem execLaneDrop_work : ∀ port lane (s t : State), execLaneDrop port lane s = .next t → t.work = s.work := by
  intro port lane s t h
  unfold execLaneDrop at h
  dsimp only at h
  split at h
  · cases h; rfl
  · split at h
    · cases h
      rw [State.portDown_work, State.lockBreak_work, State.setPort_work]
    · cases h
      rw [State.classEdge_work, State.setPort_work, State.lockBreak_work, State.setPort_work]

theorem execTraining_work : ∀ port lanes partner (s t : State), execTraining port lanes partner s = .next t → t.work = s.work := by
  intro port lanes partner
  intro s t h
  simp only [execTraining] at h
  (repeat' split at h) <;> first | (cases h; done) | (cases h; rfl) | (cases h; simp; done) | (cases h; simp_all)

theorem execHello_work : ∀ port hello (s t : State), execHello port hello s = .next t → t.work = s.work := by
  intro port hello
  intro s t h
  simp only [execHello] at h
  (repeat' split at h) <;> first | (cases h; done) | (cases h; rfl) | (cases h; simp; done) | (cases h; simp_all)

theorem execAuthFail_work : ∀ port order (s t : State), execAuthFail port order s = .next t → t.work = s.work := by
  intro port order
  intro s t h
  simp only [execAuthFail] at h
  (repeat' split at h) <;> first | (cases h; done) | (cases h; rfl) | (cases h; simp; done) | (cases h; simp_all)

theorem execBindingForward_work : ∀ port id digest (s t : State), execBindingForward port id digest s = .next t → t.work = s.work := by
  intro port id digest
  intro s t h
  simp only [execBindingForward] at h
  (repeat' split at h) <;> first | (cases h; done) | (cases h; rfl) | (cases h; simp; done) | (cases h; simp_all)

theorem execFlitReceive_work : ∀ port flit corrected (s t : State), execFlitReceive port flit corrected s = .next t → t.work = s.work := by
  intro port flit corrected
  intro s t h
  simp only [execFlitReceive] at h
  (repeat' split at h) <;> first | (cases h; done) | (cases h; rfl) | (cases h; simp; done) | (cases h; simp_all)

theorem execReplayRequest_work : ∀ port (s t : State), execReplayRequest port s = .next t → t.work = s.work := by
  intro port
  intro s t h
  simp only [execReplayRequest] at h
  (repeat' split at h) <;> first | (cases h; done) | (cases h; rfl) | (cases h; simp; done) | (cases h; simp_all)

theorem execAckTimer_work : ∀ port (s t : State), execAckTimer port s = .next t → t.work = s.work := by
  intro port
  intro s t h
  simp only [execAckTimer] at h
  (repeat' split at h) <;> first | (cases h; done) | (cases h; rfl) | (cases h; simp; done) | (cases h; simp_all)

theorem execSilenceTimer_work : ∀ port (s t : State), execSilenceTimer port s = .next t → t.work = s.work := by
  intro port
  intro s t h
  simp only [execSilenceTimer] at h
  (repeat' split at h) <;> first | (cases h; done) | (cases h; rfl) | (cases h; simp; done) | (cases h; simp_all)

theorem execSlowPartner_work : ∀ port vc (s t : State), execSlowPartner port vc s = .next t → t.work = s.work := by
  intro port vc
  intro s t h
  simp only [execSlowPartner] at h
  (repeat' split at h) <;> first | (cases h; done) | (cases h; rfl) | (cases h; simp; done) | (cases h; simp_all)

theorem execTagAbort_work : ∀ port tag (s t : State), execTagAbort port tag s = .next t → t.work = s.work := by
  intro port tag
  intro s t h
  simp only [execTagAbort] at h
  (repeat' split at h) <;> first | (cases h; done) | (cases h; rfl) | (cases h; simp; done) | (cases h; simp_all)

theorem execRd_work : ∀ port (s t : State), execRd port s = .next t → t.work = s.work := by
  intro port
  intro s t h
  simp only [execRd] at h
  (repeat' split at h) <;> first | (cases h; done) | (cases h; rfl) | (cases h; rename_i hx; have := takeTxn_work hx; simp_all; done) | (cases h; rename_i hx _; have := takeTxn_work hx; simp_all; done) | (cases h; rename_i hx _ _; have := takeTxn_work hx; simp_all; done) | (cases h; rename_i hx _ _ _; have := takeTxn_work hx; simp_all; done) | (cases h; rename_i hx _ _ _ _; have := takeTxn_work hx; simp_all) | (cases h; rename_i hx _ _ _ _ _; have := takeTxn_work hx; simp_all)

theorem execAt256_work : ∀ port chk (s t : State), execAt256 port chk s = .next t → t.work = s.work := by
  intro port chk
  intro s t h
  simp only [execAt256] at h
  (repeat' split at h) <;> first | (cases h; done) | (cases h; rfl) | (cases h; rename_i hx; have := takeTxn_work hx; simp_all; done) | (cases h; rename_i hx _; have := takeTxn_work hx; simp_all; done) | (cases h; rename_i hx _ _; have := takeTxn_work hx; simp_all; done) | (cases h; rename_i hx _ _ _; have := takeTxn_work hx; simp_all; done) | (cases h; rename_i hx _ _ _ _; have := takeTxn_work hx; simp_all) | (cases h; rename_i hx _ _ _ _ _; have := takeTxn_work hx; simp_all)

theorem execAfp32_work : ∀ port chk (s t : State), execAfp32 port chk s = .next t → t.work = s.work := by
  intro port chk
  intro s t h
  simp only [execAfp32] at h
  (repeat' split at h) <;> first | (cases h; done) | (cases h; rfl) | (cases h; rename_i hx; have := takeTxn_work hx; simp_all; done) | (cases h; rename_i hx _; have := takeTxn_work hx; simp_all; done) | (cases h; rename_i hx _ _; have := takeTxn_work hx; simp_all; done) | (cases h; rename_i hx _ _ _; have := takeTxn_work hx; simp_all; done) | (cases h; rename_i hx _ _ _ _; have := takeTxn_work hx; simp_all) | (cases h; rename_i hx _ _ _ _ _; have := takeTxn_work hx; simp_all)

theorem execCpl_work : ∀ port (s t : State), execCpl port s = .next t → t.work = s.work := by
  intro port
  intro s t h
  simp only [execCpl] at h
  (repeat' split at h) <;> first | (cases h; done) | (cases h; rfl) | (cases h; rename_i hx; have := takeTxn_work hx; simp_all; done) | (cases h; rename_i hx _; have := takeTxn_work hx; simp_all; done) | (cases h; rename_i hx _ _; have := takeTxn_work hx; simp_all; done) | (cases h; rename_i hx _ _ _; have := takeTxn_work hx; simp_all; done) | (cases h; rename_i hx _ _ _ _; have := takeTxn_work hx; simp_all) | (cases h; rename_i hx _ _ _ _ _; have := takeTxn_work hx; simp_all)

theorem execDb_work : ∀ port (s t : State), execDb port s = .next t → t.work = s.work := by
  intro port
  intro s t h
  simp only [execDb] at h
  (repeat' split at h) <;> first | (cases h; done) | (cases h; rfl) | (cases h; rename_i hx; have := takeTxn_work hx; simp_all; done) | (cases h; rename_i hx _; have := takeTxn_work hx; simp_all; done) | (cases h; rename_i hx _ _; have := takeTxn_work hx; simp_all; done) | (cases h; rename_i hx _ _ _; have := takeTxn_work hx; simp_all; done) | (cases h; rename_i hx _ _ _ _; have := takeTxn_work hx; simp_all) | (cases h; rename_i hx _ _ _ _ _; have := takeTxn_work hx; simp_all)

theorem execCsgn_work : ∀ port (s t : State), execCsgn port s = .next t → t.work = s.work := by
  intro port
  intro s t h
  simp only [execCsgn] at h
  split at h
  · cases h
    rename_i hx
    rw [← takeTxn_work hx]
    apply aboutContrib_work
    intro s j c
    simp
  · cases h
    rfl

theorem execVoid_work : ∀ port (s t : State), execVoid port s = .next t → t.work = s.work := by
  intro port
  intro s t h
  simp only [execVoid] at h
  split at h
  · cases h
    rename_i hx
    rw [← takeTxn_work hx]
    apply aboutContrib_work
    intro s j c
    simp
  · cases h
    rfl

theorem execIntr_work : ∀ port (s t : State), execIntr port s = .next t → t.work = s.work := by
  intro port
  intro s t h
  simp only [execIntr] at h
  (repeat' split at h) <;> first | (cases h; done) | (cases h; rfl) | (cases h; rename_i hx; have := takeTxn_work hx; simp_all; done) | (cases h; rename_i hx _; have := takeTxn_work hx; simp_all; done) | (cases h; rename_i hx _ _; have := takeTxn_work hx; simp_all; done) | (cases h; rename_i hx _ _ _; have := takeTxn_work hx; simp_all; done) | (cases h; rename_i hx _ _ _ _; have := takeTxn_work hx; simp_all) | (cases h; rename_i hx _ _ _ _ _; have := takeTxn_work hx; simp_all)

theorem execContribResend_work : ∀ send (s t : State), execContribResend send s = .next t → t.work = s.work := by
  intro send
  intro s t h
  simp only [execContribResend] at h
  (repeat' split at h) <;> first | (cases h; done) | (cases h; rfl) | (cases h; simp; done) | (cases h; simp_all)

theorem execCollWait_work : ∀ job (s t : State), execCollWait job s = .next t → t.work = s.work := by
  intro job s t h
  simp only [execCollWait] at h
  (repeat' split at h) <;> first | (cases h; done) | (cases h; rfl) | (cases h; simp; done) | (cases h; simp_all)

theorem execPortEnable_work : ∀ port on (s t : State), execPortEnable port on s = .next t → t.work = s.work := by
  intro port on
  intro s t h
  simp only [execPortEnable] at h
  (repeat' split at h) <;> first | (cases h; done) | (cases h; rfl) | (cases h; simp; done) | (cases h; apply regWrite_work; intro s; simp)

theorem execStageCommit_work : ∀ page (s t : State), execStageCommit page s = .next t → t.work = s.work := by
  intro page
  intro s t h
  simp only [execStageCommit] at h
  (repeat' split at h) <;> first | (cases h; done) | (cases h; rfl) | (cases h; simp; done) | (cases h; apply regWrite_work; intro s; simp)

theorem execDevCtl_work : ∀ data (s t : State), execDevCtl data s = .next t → t.work = s.work := by
  intro data
  intro s t h
  simp only [execDevCtl] at h
  (repeat' split at h) <;> first | (cases h; done) | (cases h; rfl) | (cases h; simp; done) | (cases h; apply regWrite_work; intro s; simp)

theorem execEvtForce_work : ∀ page data (s t : State), execEvtForce page data s = .next t → t.work = s.work := by
  intro page data
  intro s t h
  simp only [execEvtForce] at h
  (repeat' split at h) <;> first | (cases h; done) | (cases h; rfl) | (cases h; simp; done) | (cases h; apply regWrite_work; intro s; simp)

theorem execEvtCount_work : ∀ page (s t : State), execEvtCount page s = .next t → t.work = s.work := by
  intro page
  intro s t h
  simp only [execEvtCount] at h
  (repeat' split at h) <;> first | (cases h; done) | (cases h; rfl) | (cases h; simp; done) | (cases h; simp_all)

theorem execLdgDbDiscard_work : ∀ (s t : State), execLdgDbDiscard  s = .next t → t.work = s.work := by
  intro s t h
  simp only [execLdgDbDiscard] at h
  (repeat' split at h) <;> first | (cases h; done) | (cases h; rfl) | (cases h; simp; done) | (cases h; simp_all)

theorem execErrPop_work : ∀ data (s t : State), execErrPop data s = .next t → t.work = s.work := by
  intro data
  intro s t h
  simp only [execErrPop] at h
  (repeat' split at h) <;> first | (cases h; done) | (cases h; rfl) | (cases h; simp; done) | (cases h; apply regWrite_work; intro s; simp)

theorem execErrIrq_work : ∀ data (s t : State), execErrIrq data s = .next t → t.work = s.work := by
  intro data
  intro s t h
  simp only [execErrIrq] at h
  (repeat' split at h) <;> first | (cases h; done) | (cases h; rfl) | (cases h; simp; done) | (cases h; apply regWrite_work; intro s; simp)

theorem execCounterLoRead_work : ∀ off (s t : State), execCounterLoRead off s = .next t → t.work = s.work := by
  intro off
  intro s t h
  simp only [execCounterLoRead] at h
  (repeat' split at h) <;> first | (cases h; done) | (cases h; rfl) | (cases h; simp; done) | (cases h; simp_all)

theorem execCounterLoWrite_work : ∀ off data (s t : State), execCounterLoWrite off data s = .next t → t.work = s.work := by
  intro off data
  intro s t h
  simp only [execCounterLoWrite] at h
  (repeat' split at h) <;> first | (cases h; done) | (cases h; rfl) | (cases h; simp; done) | (cases h; apply regWrite_work; intro s; simp)

theorem execCounterHiWrite_work : ∀ off data (s t : State), execCounterHiWrite off data s = .next t → t.work = s.work := by
  intro off data
  intro s t h
  simp only [execCounterHiWrite] at h
  (repeat' split at h) <;> first | (cases h; done) | (cases h; rfl) | (cases h; simp; done) | (cases h; apply regWrite_work; intro s; simp)

theorem execMonSel_work : ∀ page data (s t : State), execMonSel page data s = .next t → t.work = s.work := by
  intro page data
  intro s t h
  simp only [execMonSel] at h
  (repeat' split at h) <;> first | (cases h; done) | (cases h; rfl) | (cases h; simp; done) | (cases h; apply regWrite_work; intro s; simp)

theorem execMonCtlClear_work : ∀ page (s t : State), execMonCtlClear page s = .next t → t.work = s.work := by
  intro page
  intro s t h
  simp only [execMonCtlClear] at h
  (repeat' split at h) <;> first | (cases h; done) | (cases h; rfl) | (cases h; simp; done) | (cases h; apply regWrite_work; intro s; simp)

theorem execMonCountLo_work : ∀ page (s t : State), execMonCountLo page s = .next t → t.work = s.work := by
  intro page
  intro s t h
  simp only [execMonCountLo] at h
  (repeat' split at h) <;> first | (cases h; done) | (cases h; rfl) | (cases h; simp; done) | (cases h; simp_all)

theorem execSnap_work : ∀ (s t : State), execSnap  s = .next t → t.work = s.work := by
  intro s t h
  simp only [execSnap] at h
  (repeat' split at h) <;> first | (cases h; done) | (cases h; rfl) | (cases h; simp; done) | (cases h; apply regWrite_work; intro s; simp)

theorem execClearAll_work : ∀ (s t : State), execClearAll  s = .next t → t.work = s.work := by
  intro s t h
  simp only [execClearAll] at h
  (repeat' split at h) <;> first | (cases h; done) | (cases h; rfl) | (cases h; simp; done) | (cases h; apply regWrite_work; intro s; simp)

theorem execFwdData_work : ∀ write data (s t : State), execFwdData write data s = .next t → t.work = s.work := by
  intro write data
  intro s t h
  simp only [execFwdData] at h
  (repeat' split at h) <;> first | (cases h; done) | (cases h; rfl) | (cases h; simp; done) | (cases h; apply regWrite_work; intro s; simp)

theorem execRecData_work : ∀ data (s t : State), execRecData data s = .next t → t.work = s.work := by
  intro data
  intro s t h
  simp only [execRecData] at h
  (repeat' split at h) <;> first | (cases h; done) | (cases h; rfl) | (cases h; simp; done) | (cases h; simp_all)

theorem execPieceDone_work : ∀ (s t : State), execPieceDone  s = .next t → t.work = s.work := by
  intro s t h
  simp only [execPieceDone] at h
  (repeat' split at h) <;> first | (cases h; done) | (cases h; rfl) | (cases h; simp; done) | (cases h; simp_all)

theorem execAbort_work : ∀ (s t : State), execAbort  s = .next t → t.work = s.work := by
  intro s t h
  simp only [execAbort] at h
  (repeat' split at h) <;> first | (cases h; done) | (cases h; rfl) | (cases h; simp; done) | (cases h; simp_all)

theorem execBurWinSel_work : ∀ data (s t : State), execBurWinSel data s = .next t → t.work = s.work := by
  intro data
  intro s t h
  simp only [execBurWinSel] at h
  (repeat' split at h) <;> first | (cases h; done) | (cases h; rfl) | (cases h; simp; done) | (cases h; apply regWrite_work; intro s; simp)

theorem execCoreWinSel_work : ∀ core data (s t : State), execCoreWinSel core data s = .next t → t.work = s.work := by
  intro core data
  intro s t h
  simp only [execCoreWinSel] at h
  (repeat' split at h) <;> first | (cases h; done) | (cases h; rfl) | (cases h; simp; done) | (cases h; apply regWrite_work; intro s; simp)

theorem execRelease_work : ∀ port (s t : State), execRelease port s = .next t → t.work = s.work := by
  intro port
  intro s t h
  simp only [execRelease] at h
  (repeat' split at h) <;> first | (cases h; done) | (cases h; rfl) | (cases h; simp; done) | (cases h; apply regWrite_work; intro s; simp)

theorem execFolioEnt_work : ∀ pos data (s t : State), execFolioEnt pos data s = .next t → t.work = s.work := by
  intro pos data
  intro s t h
  simp only [execFolioEnt] at h
  (repeat' split at h) <;> first | (cases h; done) | (cases h; rfl) | (cases h; simp; done) | (cases h; apply regWrite_work; intro s; simp)

theorem execTelRelayTo_work : ∀ (s t : State), execTelRelayTo  s = .next t → t.work = s.work := by
  intro s t h
  simp only [execTelRelayTo] at h
  (repeat' split at h) <;> first | (cases h; done) | (cases h; rfl) | (cases h; simp; done) | (cases h; simp_all)

theorem execThermalAlertClear_work : ∀ point unit temp (s t : State), execThermalAlertClear point unit temp s = .next t → t.work = s.work := by
  intro point unit temp
  intro s t h
  simp only [execThermalAlertClear] at h
  (repeat' split at h) <;> first | (cases h; done) | (cases h; rfl) | (cases h; simp; done) | (cases h; simp_all)

theorem execMonitorSample_work : ∀ page quantity value (s t : State), execMonitorSample page quantity value s = .next t → t.work = s.work := by
  intro page quantity value
  intro s t h
  simp only [execMonitorSample] at h
  (repeat' split at h) <;> first | (cases h; done) | (cases h; rfl) | (cases h; simp; done) | (cases h; simp_all)

theorem State.configure_work (s : State) (c : PcieCfg) : (s.configure c).work = s.work := by
  unfold State.configure
  dsimp only
  split
  · rw [foldl_work (fun s v => State.sendPending_work s v)]
    rfl
  · rfl

theorem execMsixUnmask_work : ∀ vector (s t : State), execMsixUnmask vector s = .next t → t.work = s.work := by
  intro vector s t h
  unfold execMsixUnmask at h
  split at h
  · cases h; rfl
  · cases h
    (repeat' split) <;> simp [State.configure_work]

theorem execRunTimeRetraining_work : ∀ chan ok (s t : State), execRunTimeRetraining chan ok s = .next t → t.work = s.work := by
  intro chan ok
  intro s t h
  simp only [execRunTimeRetraining] at h
  (repeat' split at h) <;> first | (cases h; done) | (cases h; rfl) | (cases h; simp; done) | (cases h; simp_all)

end Sys2Proof.Machine
end

