-- ==== Sys2Proof/Laws/Ledger.lean ====
section
/-! SUPPORT. What events leave of the rings, the ledger page and the pages, and the bits of DEV_EVT_SUMMARY. -/

namespace Sys2Proof.Machine

theorem trySend_reps (s : State) (t : Txn) (u : TagUse) :
    ((s.trySend t u).1.rings, (s.trySend t u).1.ldg, (s.trySend t u).1.pages) = (s.rings, s.ldg, s.pages) := by
  unfold State.trySend
  split <;> rfl

theorem interrupt_reps (s : State) (v : BitVec 11) :
    ((s.interrupt v).rings, (s.interrupt v).ldg, (s.interrupt v).pages) = (s.rings, s.ldg, s.pages) := by
  unfold State.interrupt State.sendReq
  dsimp only
  (repeat' split) <;> first | exact trySend_reps _ _ _ | rfl

@[simp] theorem interrupt_rings (s : State) (v : BitVec 11) : (s.interrupt v).rings = s.rings := congrArg (·.1) (interrupt_reps s v)

@[simp] theorem interrupt_ldg (s : State) (v : BitVec 11) : (s.interrupt v).ldg = s.ldg := congrArg (·.2.1) (interrupt_reps s v)

@[simp] theorem interrupt_pages (s : State) (v : BitVec 11) : (s.interrupt v).pages = s.pages := congrArg (·.2.2) (interrupt_reps s v)

@[simp] theorem evtEdge_rings (s : State) : s.evtEdge.rings = s.rings := by
  unfold State.evtEdge; dsimp only; split <;> simp

@[simp] theorem evtEdge_ldg (s : State) : s.evtEdge.ldg = s.ldg := by
  unfold State.evtEdge; dsimp only; split <;> simp

@[simp] theorem evtEdge_pages (s : State) : s.evtEdge.pages = s.pages := by
  unfold State.evtEdge; dsimp only; split <;> simp

@[simp] theorem markPage_rings (s : State) (n c k : Nat) : (s.markPage n c k).rings = s.rings := by
  simp [State.markPage, State.setPage]

@[simp] theorem markPage_ldg (s : State) (n c k : Nat) : (s.markPage n c k).ldg = s.ldg := by
  simp [State.markPage, State.setPage]

@[simp] theorem noteUnit_rings (s : State) (e : Evt) : (s.noteUnit e).rings = s.rings := by
  unfold State.noteUnit; split <;> rfl

@[simp] theorem noteUnit_ldg (s : State) (e : Evt) : (s.noteUnit e).ldg = s.ldg := by
  unfold State.noteUnit; split <;> rfl

@[simp] theorem noteUnit_pages (s : State) (e : Evt) : (s.noteUnit e).pages = s.pages := by
  unfold State.noteUnit; split <;> rfl

@[simp] theorem ledger_pages (s : State) (ws : List W64) : (s.ledger ws).pages = s.pages := by
  unfold State.ledger
  dsimp only
  (repeat' split) <;> simp [State.setRing]

theorem summary_fold (s : State) (t : Nat) (ht : t ≠ 0) : ∀ (l : List (Nat × Page)) (acc : Nat),
    (l.foldl (fun acc e => if e.2.evtStatus &&& e.2.evtEnable = 0 ∨ s.pageType e.1 = 0 then acc
      else acc ||| 2 ^ s.pageType e.1) acc).testBit t = true
    ↔ acc.testBit t = true ∨ ∃ e ∈ l, s.pageType e.1 = t ∧ e.2.evtStatus &&& e.2.evtEnable ≠ 0
  | [], acc => by simp
  | e :: l, acc => by
    rw [List.foldl_cons, summary_fold s t ht l]
    split
    · rename_i h
      constructor
      · rintro (h1 | ⟨x, hx, h2⟩)
        · exact .inl h1
        · exact .inr ⟨x, by simp [hx], h2⟩
      · rintro (h1 | ⟨x, hx, h2⟩)
        · exact .inl h1
        · rcases List.mem_cons.mp hx with rfl | hx
          · rcases h with h | h
            · exact absurd h h2.2
            · exact absurd (h2.1.symm.trans h) ht
          · exact .inr ⟨x, hx, h2⟩
    · rename_i h
      rw [not_or] at h
      rw [Nat.testBit_or, Bool.or_eq_true, Nat.testBit_two_pow, decide_eq_true_eq]
      constructor
      · rintro ((h1 | h1) | ⟨x, hx, h2⟩)
        · exact .inl h1
        · exact .inr ⟨e, by simp, h1, h.1⟩
        · exact .inr ⟨x, by simp [hx], h2⟩
      · rintro (h1 | ⟨x, hx, h2⟩)
        · exact .inl (.inl h1)
        · rcases List.mem_cons.mp hx with rfl | hx
          · exact .inl (.inr h2.1)
          · exact .inr ⟨x, hx, h2⟩

end Sys2Proof.Machine
end

