-- ==== Sys2Proof/Laws/Results.lean ====
section
/-! SUPPORT. What the end of a command leaves of the runs and of the posted memories: the reports, ports and assays that
follow a step's effect change neither. -/

namespace Sys2Proof.Machine

/-! ### The runs, but for the mark of a broken timing lock -/

/-- A run but for the mark of a broken timing lock. -/
def Run.phase (r : Run) : Run := { r with lockBroken := false }
def State.phases (s : State) : List Run := s.runs.map Run.phase

theorem State.phases_of_runs {s t : State} (h : t.runs = s.runs) : t.phases = s.phases := by
  simp only [State.phases, h]

theorem State.phases_of_rest {s t : State} (h : t.rest = s.rest) : t.phases = s.phases :=
  State.phases_of_runs (congrArg (fun x => x.2.2.2.2.2.2.2.2.2.2.2.2.2.2.2.2.2.2.2.2.2.1) h)

/-- The run of a job, where only the marks of its lock may differ. -/
theorem State.run_of_phases {s t : State} (h : t.phases = s.phases) {n : Nat} {r : Run} (hr : s.run n = some r) :
    ∃ q, t.run n = some q ∧ q.phase = r.phase := by
  have hf : ∀ l : List Run, (l.find? (fun r => r.job == n)).map Run.phase = (l.map Run.phase).find? (fun r => r.job == n) := by
    intro l
    rw [List.find?_map]
    rfl
  have h1 : (s.run n).map Run.phase = (t.run n).map Run.phase := by
    simp only [State.run, hf]; exact congrArg (List.find? _) h.symm
  rw [hr] at h1
  cases hq : t.run n with
  | none => rw [hq] at h1; cases h1
  | some q => rw [hq] at h1; exact ⟨q, rfl, (Option.some.inj h1).symm⟩

theorem foldl_phases {τ : Type} {f : State → τ → State} (h : ∀ s x, (f s x).phases = s.phases) :
    ∀ (l : List τ) (s : State), (l.foldl f s).phases = s.phases
  | [], _ => rfl
  | x :: t, s => (foldl_phases h t (f s x)).trans (h s x)

@[simp] theorem State.infoEvent_phases (s : State) (j n : Nat) (c : Option Nat) : (s.infoEvent j n c).phases = s.phases :=
  State.phases_of_rest (by simp)

@[simp] theorem State.lockBreakIf_phases (s : State) (p : Run → Bool) : (s.lockBreakIf p).phases = s.phases := by
  unfold State.lockBreakIf
  dsimp only
  rw [foldl_phases (fun s x => State.infoEvent_phases s _ _ _)]
  simp only [State.phases, List.map_map]
  apply List.map_congr_left
  intro r _
  simp only [Function.comp, Machine.breakRun]
  split <;> rfl

@[simp] theorem State.lockBreakJob_phases (s : State) (n : Nat) : (s.lockBreakJob n).phases = s.phases :=
  State.lockBreakIf_phases _ _

@[simp] theorem State.trySend_phases (s : State) (t : Txn) (u : TagUse) : (s.trySend t u).1.phases = s.phases := by
  unfold State.trySend
  split <;> rfl

@[simp] theorem State.setSend_phases (s : State) (x : Send) : (s.setSend x).phases = s.phases := rfl

@[simp] theorem State.sendMsg_phases (s : State) (x : Send) (t : Txn) (u : TagUse) (a b : Send) :
    (s.sendMsg x t u a b).phases = s.phases := by
  unfold State.sendMsg
  dsimp only
  repeat' split
  · simp
  · simp
  · simp

@[simp] theorem State.sendCsgn_phases (s : State) (x : Send) : (s.sendCsgn x).phases = s.phases := State.sendMsg_phases ..
@[simp] theorem State.sendVoid_phases (s : State) (x : Send) (n : Nat) : (s.sendVoid x n).phases = s.phases :=
  State.sendMsg_phases ..
@[simp] theorem State.signRun_phases (s : State) (n : Nat) : (s.signRun n).phases = s.phases :=
  foldl_phases (fun s x => State.sendCsgn_phases s x) _ _
@[simp] theorem State.voidRun_phases (s : State) (n k : Nat) : (s.voidRun n k).phases = s.phases :=
  foldl_phases (fun s x => State.sendVoid_phases s x 0) _ _
@[simp] theorem State.classEdge_phases (s : State) : s.classEdge.phases = s.phases :=
  State.phases_of_runs s.classEdge_runs

@[simp] theorem State.setCore_phases (s : State) (p : Nat) (c : CoreHw) : (s.setCore p c).phases = s.phases := rfl
@[simp] theorem State.putAssay_phases (s : State) (j k : AssayJob) : (s.putAssay j k).phases = s.phases := rfl
@[simp] theorem State.setAsy_phases (s : State) (a : AssayState) : (s.setAsy a).phases = s.phases := rfl
@[simp] theorem State.dropAssay_phases (s : State) (j : AssayJob) : (s.dropAssay j).phases = s.phases := rfl
@[simp] theorem State.raise_phases (s : State) (e : Evt) : (s.raise e).phases = s.phases := State.phases_of_rest (by simp)
@[simp] theorem State.pushCpl_phases (s : State) (c : Completion) : (s.pushCpl c).phases = s.phases :=
  State.phases_of_rest (by simp)
@[simp] theorem State.finishLate_phases (s : State) (w : Waiting) (a b c d e f : Nat) :
    (s.finishLate w a b c d e f).phases = s.phases := State.phases_of_rest (by simp)
@[simp] theorem State.finish_phases (s : State) (c : Cmd) (n : Nat) : (s.finish c n).phases = s.phases :=
  State.phases_of_rest (by simp)

@[simp] theorem State.endAssay_phases (s : State) (j : AssayJob) (n : Nat) : (s.endAssay j n).phases = s.phases := by
  unfold State.endAssay
  dsimp only
  repeat' split
  all_goals first | rfl | simp

@[simp] theorem State.startAssay_phases (s : State) (j : AssayJob) : (s.startAssay j).phases = s.phases := by
  unfold State.startAssay
  dsimp only
  repeat' split
  all_goals simp

@[simp] theorem State.skipCore_phases (s : State) (p c : Nat) : (s.skipCore p c).phases = s.phases := by simp [State.skipCore]

@[simp] theorem State.notRun_phases (s : State) (j : AssayJob) : (s.notRun j).phases = s.phases := by
  unfold State.notRun
  dsimp only
  repeat' split
  all_goals simp

@[simp] theorem State.pumpAssay_phases : ∀ (n r : Nat) (s : State), (State.pumpAssay n r s).phases = s.phases
  | 0, _, _ => rfl
  | n + 1, r, s => by
    unfold State.pumpAssay
    (repeat' split) <;> simp [State.pumpAssay_phases n]

@[simp] theorem State.assaySettle_phases (s : State) : s.assaySettle.phases = s.phases := by
  unfold State.assaySettle
  split
  · rfl
  · exact foldl_phases (fun s r => State.pumpAssay_phases _ r s) _ _

/-! ### The posted memories -/

/-- A job's number, step, generation, and its posted tills and vault. Its HBM also holds its rings. -/
def Job.book (j : Job) := (j.num, j.step, j.gen, j.tills, j.vault)
def State.book (s : State) (n : Nat) := (s.job n).map Job.book

theorem State.book_of_keep {s t : State} (h : t.keep = s.keep) (n : Nat) : t.book n = s.book n := by
  simp only [State.book, State.job, State.jobs_of_keep h]

theorem State.book_some {s : State} {n : Nat} {j : Job} (h : s.job n = some j) : s.book n = some j.book := by
  simp [State.book, h]

theorem State.book_of_some {s : State} {n : Nat} {j : Job} (h : s.book n = some j.book) :
    ∃ k, s.job n = some k ∧ k.book = j.book := by
  simp only [State.book, Option.map_eq_some_iff] at h
  exact h

/-- The job that a number names after a job is set. -/
theorem State.setJob_job (s : State) (j : Job) (n : Nat) :
    (s.setJob j).job n = (s.job n).map (fun k => if n = j.num then j else k) := by
  have hf : ∀ l : List Job, (l.map (fun k => if k.num == j.num then j else k)).find? (fun k => k.num == n)
      = (l.find? (fun k => k.num == n)).map (fun k => if n = j.num then j else k) := by
    intro l
    induction l with
    | nil => rfl
    | cons k t ih =>
      simp only [List.map_cons, List.find?_cons]
      by_cases h1 : k.num = n
      · by_cases h2 : k.num = j.num
        · have h3 : n = j.num := h1.symm.trans h2
          have h4 : (j.num == n) = true := by simp [h3]
          have h5 : (k.num == n) = true := by simp [h1]
          simp [h2, h4, h5, h3]
        · have h3 : n ≠ j.num := fun h => h2 (h1.trans h)
          have h5 : (k.num == n) = true := by simp [h1]
          simp [h2, h5, h3]
      · have h5 : (k.num == n) = false := by simp [h1]
        by_cases h2 : k.num = j.num
        · have h4 : (j.num == n) = false := by simp; exact fun h => h1 (h2.trans h)
          simpa [h2, h4, h5] using ih
        · simpa [h2, h5] using ih
  exact hf s.jobs

theorem State.setJob_same (s : State) {j k : Job} (h : s.job j.num = some k) : (s.setJob j).job j.num = some j := by
  rw [State.setJob_job, h]; simp

theorem State.setJob_book (s : State) {j k : Job} (hk : s.job k.num = some k) (h : j.book = k.book) (n : Nat) :
    (s.setJob j).book n = s.book n := by
  have hn : j.num = k.num := congrArg (·.1) h
  simp only [State.book, State.setJob_job, hn, Option.map_map]
  by_cases h1 : n = k.num
  · subst h1; simp [hk, h]
  · cases s.job n <;> simp [h1]

@[simp] theorem State.setRing_book (s : State) (n : Nat) (r : Ring) (m : Nat) : (s.setRing n r).book m = s.book m := rfl

@[simp] theorem State.hostWrite_book (s : State) (a : Nat) (bs : List Byte) (m : Nat) : (s.hostWrite a bs).book m = s.book m := by
  have h : (s.hostWrite a bs).jobs = s.jobs := congrArg (·.1) (State.hostWrite_work s a bs)
  simp only [State.book, State.job, h]

@[simp] theorem State.produce_book (s : State) (n : Nat) (r : Ring) (ws : List W64) (m : Nat) :
    (s.produce n r ws).book m = s.book m := by
  unfold State.produce
  dsimp only
  split
  · exact State.book_of_keep (by simp) m
  · split
    · simp only [State.setRing_book, State.hostWrite_book]
    · split
      · rfl
      · split
        · next j hj =>
          rw [State.setRing_book]
          exact State.setJob_book s (k := j) (by rw [State.job_num hj]; exact hj) (by rfl) m
        · rfl

@[simp] theorem State.produceIrq_book (s : State) (n : Nat) (r : Ring) (ws : List W64) (m : Nat) :
    (s.produceIrq n r ws).book m = s.book m := by
  unfold State.produceIrq
  split
  · exact State.produce_book s n r ws m
  · exact (State.book_of_keep (by simp) m).trans (State.produce_book s n r ws m)

@[simp] theorem State.putCpl_book (s : State) (n : Nat) (r : Ring) (c : Completion) (m : Nat) :
    (s.putCpl n r c).book m = s.book m := State.produceIrq_book s n r c.words m

@[simp] theorem State.pushCpl_book (s : State) (c : Completion) (n : Nat) : (s.pushCpl c).book n = s.book n := by
  unfold State.pushCpl
  split
  · rfl
  · split
    · next j hj =>
      split
      · simp
      · exact State.setJob_book s (j := { j with queued := j.queued ++ [c] }) (k := j)
          (by rw [State.job_num hj]; exact hj) rfl n
    · split
      · simp
      · rfl

@[simp] theorem State.applyStage_book (s : State) (m : Nat) : s.applyStage.book m = s.book m := State.book_of_keep (by simp) m

@[simp] theorem State.reportPost_book (s : State) (j : Job) (r : Run) (m : Nat) : (s.reportPost j r).book m = s.book m := by
  unfold State.reportPost
  dsimp only
  generalize hc : s.pushCpl _ = u
  have hu : u.book m = s.book m := by rw [← hc]; simp
  split
  · exact hu
  · next k hk =>
    have hn := State.job_num hk
    split
    · exact hu
    · next q t hq =>
      have h1 : ∀ l, (u.setJob { k with queue := l }).book m = u.book m := fun l =>
        State.setJob_book u (k := k) (by rw [hn]; exact hk) (by rfl) m
      split
      · rw [State.pushCpl_book, h1, hu]
      · rw [h1, hu]

/-- Posting makes the run's shadows, without what no countersign has verified, the job's memory, and the run is
gone. -/
theorem State.postRun_book (s : State) {n : Nat} {j : Job} (hj : s.job n = some j) (r : Run) :
    (s.postRun j r).book n = some (j.post (s.verifiedPart r)).book ∧ (s.postRun j r).run n = none := by
  have hn := State.job_num hj
  have h1 : (s.setJob (j.post (s.verifiedPart r))).book n = some (j.post (s.verifiedPart r)).book := by
    have h := State.setJob_same s (j := j.post (s.verifiedPart r)) (k := j) (by show s.job j.num = some j; rw [hn]; exact hj)
    have h2 : (j.post (s.verifiedPart r)).num = n := hn
    rw [h2] at h
    exact State.book_some h
  refine ⟨?_, ?_⟩
  · unfold State.postRun
    dsimp only
    generalize s.verifiedPart r = r at h1 ⊢
    have e1 : ∀ t : State, (t.dropRun j.num).book n = t.book n := fun _ => rfl
    have e2 : ∀ (t : State) (p q : Nat) (v : Int), (t.sample p q v).book n = t.book n := fun _ _ _ _ => rfl
    have e3 : ∀ (t : State) (a : Nat) (b : W64), (t.dropServed a b).book n = t.book n := fun _ _ _ => rfl
    have e4 : ∀ (t : State) (f : Fabric), ({ t with fab := f } : State).book n = t.book n := fun _ _ => rfl
    have e5 : ∀ (t : State) (w : List WBack), ({ t.exchange r with wback := w } : State).book n = t.book n := fun _ _ => rfl
    rw [e1, State.reportPost_book]
    cases r.detected with
    | none => dsimp only; rw [e2, e3, e4, State.applyStage_book, e5, h1]
    | some x => dsimp only; split <;> (simp only [e2]; rw [e3, e4, State.applyStage_book, e5, h1])
  · unfold State.postRun State.run State.dropRun
    simp only [hn, List.find?_filter]
    rw [List.find?_eq_none]
    intro x _
    simp

/-- Setting a job's run. -/
theorem State.setRun_run (s : State) {r k : Run} {n : Nat} (h : s.run n = some k) (hr : r.job = n) : (s.setRun r).run n = some r := by
  subst hr
  have hf : ∀ l : List Run, (l.map (fun k => if k.job == r.job then r else k)).find? (fun k => k.job == r.job)
      = (l.find? (fun k => k.job == r.job)).map (fun _ => r) := by
    intro l
    induction l with
    | nil => rfl
    | cons k t ih =>
      simp only [List.map_cons, List.find?_cons]
      by_cases h1 : k.job = r.job
      · have h5 : (k.job == r.job) = true := by simp [h1]
        simp [h5]
      · have h5 : (k.job == r.job) = false := by simp [h1]
        simpa [h5] using ih
  have := hf s.runs
  simp only [State.run] at h
  rw [h] at this
  exact this

/-- What a check, and what follows it, leaves of the run of its job. -/
theorem State.check_run (s u : State) {n : Nat} {r k : Run} (h : s.run n = some k) (hr : r.job = n)
    (hu : u.phases = (s.setRun r).phases) : ∃ q, u.classEdge.assaySettle.run n = some q ∧ q.phase = r.phase :=
  State.run_of_phases (s := s.setRun r) (by rw [State.assaySettle_phases, State.classEdge_phases, hu]) (State.setRun_run s h hr)

/-- The first check of a run that raised something, was stopped or did not end: the step waits for its next run. -/
theorem State.checkRun_fails (s : State) (j : Job) (r : Run) (h1 : r.history = []) (h2 : r.suspects = [])
    (hf : r.broken = true ∨ (∃ x ∈ r.slots, x.ended = false) ∨ ∃ e ∈ r.events, e.recount = true)
    (hc : r.counted + (if r.uncounted then 0 else 1) < 6) :
    ∃ q : Run, s.checkRun j r = s.awaitRun q (r.counted + (if r.uncounted then 0 else 1))
      ∧ q = { r with history := q.history, suspects := q.suspects, agreed := q.agreed } ∧ q.history.length = 1 := by
  have hp : ∀ (c b : Bool) (q : Run), q.history = [⟨r.slots.map (fun x => x.digest), r.hosts, r.events, c,
      r.slots.all (fun x => x.ended) && !r.broken, b⟩] → ∀ cmp, q.posts cmp = false := by
    intro c b q hq cmp
    simp only [Run.posts, hq, pastAt, List.length_singleton, nthD, PastRun.passes]
    rcases hf with hf | ⟨x, hx, hf⟩ | ⟨e, he, hf⟩
    · simp [hf]
    · have : r.slots.all (fun x => x.ended) = false := by
        rw [List.all_eq_false]; exact ⟨x, hx, by simp [hf]⟩
      simp [this]
    · have : (flags r.events).isEmpty = false := by
        rw [List.isEmpty_eq_false_iff]
        exact List.ne_nil_of_mem (List.mem_filter.mpr ⟨he, hf⟩)
      simp [this]
  have hm : ∀ (s : State) (j : Job) (q : Run) (h : List PastRun), s.nameHosts j q 0 (mismatches h 0) = (s, q) := by
    intro s j q h
    have : mismatches h 0 = [] := by
      unfold mismatches
      split <;> rfl
    rw [this]; rfl
  have hd : byUnit [] = [] := rfl
  unfold State.checkRun
  simp only [h1, h2, List.length_nil, List.map_nil, List.zip_nil_left, List.filterMap_nil, hd, List.foldl_nil, hm,
    List.any_nil, Bool.false_eq_true, if_false, ite_self, List.nil_append]
  rw [hp _ _ _ rfl]
  simp only [Bool.false_eq_true, if_false, Nat.not_le.mpr hc]
  exact ⟨_, rfl, rfl, rfl⟩

/-! ### A next run -/

/-- What a run is, apart from its slots, shadows and turns. -/
def Run.head (r : Run) := (r.job, r.template, r.step, r.order, r.run, r.hosts, r.history, r.waiting, r.events)

@[simp] theorem Run.setShadow_head (r : Run) (d sp : Nat) (x : Shadow) : (r.setShadow d sp x).head = r.head := by
  unfold Run.setShadow
  split <;> rfl

@[simp] theorem Run.applyWrites_head (r : Run) (d : Nat) (ws : List (Nat × Nat × Byte)) (marks : List (Nat × Nat)) :
    (r.applyWrites d ws marks).head = r.head := by
  unfold Run.applyWrites
  dsimp only
  repeat' split
  all_goals simp

@[simp] theorem Run.arrive_head (r : Run) (d k : Nat) : (r.arrive d k).head = r.head := by
  unfold Run.arrive
  dsimp only
  split <;> rfl

@[simp] theorem Run.land_head (r : Run) (j : Job) (x : Recv) (a : Nat) : (r.land j x a).head = r.head := by
  unfold Run.land
  dsimp only
  split <;> simp

@[simp] theorem State.takeReceived_head (s : State) (j : Job) (r : Run) : (s.takeReceived j r).head = r.head := by
  have h : ∀ (l : List Recv) (r : Run), (l.foldl (fun r x => r.land j x (j.collToken r.template x)) r).head = r.head := by
    intro l
    induction l with
    | nil => intro r; rfl
    | cons x t ih => intro r; exact (ih _).trans (Run.land_head r j x _)
  exact h _ r

theorem foldl_head {τ : Type} {f : Run → τ → Run} (h : ∀ r x, (f r x).head = r.head) :
    ∀ (l : List τ) (r : Run), (l.foldl f r).head = r.head
  | [], _ => rfl
  | x :: t, r => (foldl_head h t (f r x)).trans (h r x)

theorem skipSlot_head (j : Job) (d : Nat) : ∀ (n : Nat) (r : Run), (skipSlot j d n r).head = r.head
  | 0, _ => rfl
  | n + 1, r => by
    rw [skipSlot]
    dsimp only
    split
    · rw [skipSlot_head]
      split
      · exact Run.arrive_head _ _ _
      · rfl
    · rfl

theorem skipRound_head (j : Job) (r : Run) : (skipRound j r).head = r.head :=
  foldl_head (fun _ _ => skipSlot_head _ _ _ _) _ r

/-- Skipping and taking turns move slots and turns only. -/
@[simp] theorem resched_head (j : Job) (r : Run) : (resched j r).head = r.head := by
  have h : (skipAll j r).head = r.head := by
    unfold skipAll
    split
    · exact foldl_head (fun _ _ => skipRound_head _ _) _ r
    · rfl
  exact Eq.trans rfl h

@[simp] theorem State.readyBanks_runs (s : State) (p : Nat) : (s.readyBanks p).runs = s.runs := by
  unfold State.readyBanks State.matchBanks
  repeat' split
  all_goals rfl

@[simp] theorem State.readyAll_runs (s : State) (m moved : List Nat) : (s.readyAll m moved).runs = s.runs :=
  foldl_runs (fun s _ => State.readyBanks_runs s _) _ _

/-! ### What the edges of a command leave alone -/

/-- The module but for what the governor and ALERT_N keep of their last values. -/
def Module.plain (m : Module) : Module := { m with capBelowPin := false, undercut := 0, alertPrev := false }

/-- What the governor, ALERT_N and the event summary leave alone. -/
def State.lasting (s : State) := (s.time, s.mod.plain, s.i3c, s.regions, s.fabrics, s.flash, s.cores, s.chans, s.dies,
  s.dieRecs, s.lmap, s.hbmMap, s.spared, s.hbmBytes, s.spareGb, s.pageMap, s.asy, s.fab, s.jobs)

theorem State.lasting_of {s t : State} (h : t.rest = s.rest) (hj : t.jobs = s.jobs) : t.lasting = s.lasting := by
  simp only [State.rest, Prod.mk.injEq] at h
  simp only [State.lasting, h, hj]

@[simp] theorem State.interrupt_lasting (s : State) (v : BitVec 11) : (s.interrupt v).lasting = s.lasting :=
  State.lasting_of (by simp) (State.jobs_of_keep (by simp))

@[simp] theorem State.infoEvent_lasting (s : State) (j n : Nat) (c : Option Nat) : (s.infoEvent j n c).lasting = s.lasting :=
  State.lasting_of (by simp) (State.jobs_of_keep (by simp))

theorem foldl_lasting {τ : Type} {f : State → τ → State} (h : ∀ s x, (f s x).lasting = s.lasting) :
    ∀ (l : List τ) (s : State), (l.foldl f s).lasting = s.lasting
  | [], _ => rfl
  | x :: t, s => (foldl_lasting h t (f s x)).trans (h s x)

@[simp] theorem State.lockBreakIf_lasting (s : State) (p : Run → Bool) : (s.lockBreakIf p).lasting = s.lasting := by
  unfold State.lockBreakIf
  dsimp only
  rw [foldl_lasting (fun s x => State.infoEvent_lasting s _ _ _)]
  rfl

@[simp] theorem State.governor_lasting (s : State) : s.governor.lasting = s.lasting := by
  unfold State.governor
  dsimp only
  split
  · exact State.lockBreakIf_lasting _ _
  · rfl

@[simp] theorem State.alertEdge_lasting (s : State) : s.alertEdge.lasting = s.lasting := by
  unfold State.alertEdge
  dsimp only
  split <;> rfl

@[simp] theorem State.evtEdge_lasting (s : State) : s.evtEdge.lasting = s.lasting := by
  unfold State.evtEdge
  dsimp only
  split
  · rw [State.interrupt_lasting]; rfl
  · rfl

@[simp] theorem State.settle_lasting (s : State) : s.settle.lasting = s.lasting := by simp [State.settle]

@[simp] theorem State.settle_phases (s : State) : s.settle.phases = s.phases := by
  have h1 : s.governor.phases = s.phases := by
    unfold State.governor
    dsimp only
    split
    · exact State.lockBreakIf_phases _ _
    · rfl
  have h2 : ∀ s : State, s.alertEdge.phases = s.phases := fun s => by
    unfold State.alertEdge
    dsimp only
    split <;> rfl
  have h3 : ∀ s : State, s.evtEdge.phases = s.phases := fun s => State.phases_of_rest (by simp)
  simp only [State.settle, h1, h2, h3]

theorem State.settle_regions (s : State) : s.settle.regions = s.regions := congrArg (·.2.2.2.1) s.settle_lasting
theorem State.settle_region (s : State) (r : Nat) : s.settle.region r = s.region r := by
  simp only [State.region, State.settle_regions]
theorem State.settle_plain (s : State) : s.settle.mod.plain = s.mod.plain := congrArg (·.2.1) s.settle_lasting
theorem State.raise_lasting (s : State) (e : Evt) : (s.raise e).lasting = s.lasting :=
  State.lasting_of (by simp) (State.jobs_of_keep (by simp))

/-- The thermal caps after an interval's temperatures, region by region. -/
theorem State.heat_region (r : Nat) : ∀ (ts : List (BitVec 16)) (k : Nat) (s : State),
    (State.heat s k ts).region r = match (if k ≤ r then ts[r - k]? else none) with
      | some t => { s.region r with temp := t, thermalCap := nextThermalCap (s.region r).thermalCap t.toInt }
      | none => s.region r
  | [], k, s => by simp [State.heat]
  | t :: ts, k, s => by
    rw [State.heat, State.heat_region r ts]
    by_cases h : k ≤ r
    · by_cases h2 : r = k
      · subst h2
        have h3 : ¬ r + 1 ≤ r := by omega
        simp [State.region, State.setRegion, h3]
      · have h3 : k + 1 ≤ r := by omega
        have h4 : r - k = r - (k + 1) + 1 := by omega
        have h5 : ∀ x, (s.setRegion k x).region r = s.region r := fun x => by
          simp only [State.region, State.setRegion, lookD_put_ne h2]
        simp only [h, h3, if_true, h4, List.getElem?_cons_succ, h5]
    · have h3 : ¬ k + 1 ≤ r := by omega
      have h2 : r ≠ k := by omega
      simp only [h, h3, if_false, State.region, State.setRegion, lookD_put_ne h2]

theorem insertNat_mem (k : Nat) : ∀ l : List Nat, k ∈ insertNat k l
  | [] => by simp [insertNat]
  | x :: t => by
    unfold insertNat
    split
    · simp
    · split
      · next h => simp [h]
      · exact List.mem_cons_of_mem _ (insertNat_mem k t)

/-- The regions after an alert's event and the edges that follow it. -/
theorem State.alert_region (s : State) (point unit : Nat) (t : BitVec 16) (r : Nat) :
    ((s.alertEvent point unit t).settle).region r = s.region r := by
  have h : (s.alertEvent point unit t).lasting = s.lasting := by
    unfold State.alertEvent
    split <;> exact State.raise_lasting _ _
  rw [State.settle_region]
  exact congrArg (fun l => lookD Region.reset r l) (congrArg (·.2.2.2.1) h)

/-- An alert that has begun holds after its event and the edges that follow it. -/
theorem State.alert_holds (s : State) (point unit : Nat) (t : BitVec 16) :
    (((s.setAlert point unit true).alertEvent point unit t).settle).alerted point unit = true := by
  have hl : (((s.setAlert point unit true).alertEvent point unit t).settle).lasting = (s.setAlert point unit true).lasting := by
    rw [State.settle_lasting]
    unfold State.alertEvent
    split <;> exact State.raise_lasting _ _
  generalize ((s.setAlert point unit true).alertEvent point unit t).settle = u at hl
  have hr : u.regions = (s.setAlert point unit true).regions := congrArg (·.2.2.2.1) hl
  have hm : u.mod.plain = (s.setAlert point unit true).mod.plain := congrArg (·.2.1) hl
  have hb : u.mod.baseAlert = (s.setAlert point unit true).mod.baseAlert := congrArg (·.baseAlert) hm
  have hh : u.mod.hbmAlert = (s.setAlert point unit true).mod.hbmAlert := congrArg (·.hbmAlert) hm
  have hc : u.mod.coolAlert = (s.setAlert point unit true).mod.coolAlert := congrArg (·.coolAlert) hm
  match point, hr, hb, hh, hc with
  | 0, hr, _, _, _ => simp [State.alerted, State.region, hr, State.setAlert, State.setRegion]
  | 1, _, hb, _, _ => simp only [State.alerted, hb]; exact List.contains_iff_mem.mpr (insertNat_mem _ _)
  | 2, _, _, hh, _ => simp only [State.alerted, hh]; exact List.contains_iff_mem.mpr (insertNat_mem _ _)
  | _ + 3, _, _, _, hc => simp only [State.alerted, hc]; rfl

/-! ### Die banks -/

theorem State.core_of_rest {s t : State} (h : t.rest = s.rest) (p : Nat) : t.core p = s.core p :=
  congrArg (fun l => lookD CoreHw.reset p l) (congrArg (fun x => x.2.2.2.2.2.2.2.1) h)

theorem State.core_setCore (s : State) (q : Nat) (c : CoreHw) (p : Nat) :
    (s.setCore q c).core p = if p = q then c else s.core p := by
  by_cases h : p = q
  · subst h; simp [State.core, State.setCore]
  · simp [State.core, State.setCore, h, lookD_put_ne h]

theorem foldl_core {f : State → Nat → State} {g : CoreHw → CoreHw}
    (h : ∀ s q p, (f s q).core p = if p = q then g (s.core p) else s.core p) :
    ∀ (l : List Nat), l.Nodup → ∀ (s : State) (p : Nat), (l.foldl f s).core p = if p ∈ l then g (s.core p) else s.core p
  | [], _, s, p => by simp
  | q :: l, hn, s, p => by
    rw [List.nodup_cons] at hn
    rw [List.foldl_cons, foldl_core h l hn.2, h]
    by_cases h1 : p = q
    · subst h1; simp [hn.1]
    · simp [h1]

/-- A core with a reload in its inactive bank (Table 6-13 order 4). -/
def CoreHw.loaded (b : DieBank) (c : CoreHw) : CoreHw :=
  { c with
    bank0 := if c.active then b else c.bank0, bank1 := if c.active then c.bank1 else b, pending := true, scheduled := false }

/-- A core that has exchanged its banks (orders 6 and 7). -/
def CoreHw.switched (c : CoreHw) : CoreHw :=
  { c with active := !c.active, pending := false, scheduled := false, switches := c.switches + 1 }

theorem State.loadBank_core (s : State) (tag : W32) (n q p : Nat) :
    (s.loadBank tag n q).core p = if p = q then (s.core p).loaded ⟨tag, n⟩ else s.core p := by
  unfold State.loadBank
  dsimp only
  rw [State.core_setCore]
  split
  · next h => subst h; rfl
  · rfl

theorem State.switchBank_core (s : State) (q j k p : Nat) :
    (s.switchBank q j k).core p = if p = q then (s.core p).switched else s.core p := by
  unfold State.switchBank
  dsimp only
  rw [State.core_of_rest (State.extendRun_rest _ _ _), State.core_of_rest (State.raise_rest _ _), State.core_setCore]
  split
  · next h => subst h; rfl
  · rfl

/-- A core but for the mark that a switch step is named. -/
def CoreHw.bare (c : CoreHw) : CoreHw := { c with scheduled := false }

theorem State.nameSwitch_core (s : State) (hs : List Nat) (p : Nat) : ((s.nameSwitch hs).core p).bare = (s.core p).bare := by
  unfold State.nameSwitch
  have h : ∀ (l : List Nat) (s : State), ((l.foldl (fun (s : State) p =>
      if (s.core p).pending then s.setCore p { s.core p with scheduled := true } else s) s).core p).bare = (s.core p).bare := by
    intro l
    induction l with
    | nil => intro s; rfl
    | cons q l ih =>
      intro s
      rw [List.foldl_cons, ih]
      split
      · rw [State.core_setCore]
        split
        · next h => subst h; rfl
        · rfl
      · rfl
  exact h _ s

theorem State.nameSwitches_core (s : State) (p : Nat) : (s.nameSwitches.core p).bare = (s.core p).bare := by
  unfold State.nameSwitches
  have h : ∀ (l : List Job) (s : State), ((l.foldl (fun (s : State) j => s.nameSwitch (s.hostsFor j)) s).core p).bare
      = (s.core p).bare := by
    intro l
    induction l with
    | nil => intro s; rfl
    | cons j l ih => intro s; rw [List.foldl_cons, ih, State.nameSwitch_core]
  exact h _ s

/-- What a core hosts, as the reload of its banks reads it. -/
def State.hosting (s : State) := (s.runs.map (·.hosts), s.jobs, s.lmap)

theorem State.coreHasJob_of {s t : State} (h : t.hosting = s.hosting) (p : Nat) : t.coreHasJob p = s.coreHasJob p := by
  simp only [State.hosting, Prod.mk.injEq] at h
  have h1 : ∀ u : State, u.runs.any (fun r => r.hosts.contains p) = (u.runs.map (·.hosts)).any (fun l => l.contains p) := fun u => by
    rw [List.any_map]; rfl
  simp only [State.coreHasJob, h1, h.1, h.2.1, h.2.2]

theorem State.loadBank_hosting (s : State) (tag : W32) (n q : Nat) : (s.loadBank tag n q).hosting = s.hosting := by
  simp only [State.hosting, State.loadBank, State.forgetSwitch, State.setCore, List.map_map]
  rfl

theorem State.nameSwitch_hosting (s : State) (hs : List Nat) : (s.nameSwitch hs).hosting = s.hosting := by
  unfold State.nameSwitch
  have h : ∀ (l : List Nat) (s : State), (l.foldl (fun (s : State) p =>
      if (s.core p).pending then s.setCore p { s.core p with scheduled := true } else s) s).hosting = s.hosting := by
    intro l
    induction l with
    | nil => intro s; rfl
    | cons q l ih =>
      intro s
      rw [List.foldl_cons, ih]
      split <;> rfl
  exact h _ s

theorem foldl_hosting {τ : Type} {f : State → τ → State} (h : ∀ s x, (f s x).hosting = s.hosting) :
    ∀ (l : List τ) (s : State), (l.foldl f s).hosting = s.hosting
  | [], _ => rfl
  | x :: t, s => (foldl_hosting h t (f s x)).trans (h s x)

/-- A record that is accepted stands in the inactive bank of every core that is not withdrawn; a core without a job and
not under assay has switched to it. -/
theorem State.reload_core (s : State) (item : List Byte) (p : Nat) (hp : p < 576) (hf : s.isFenced 1 p = false) :
    ((s.reload item).core p).bare =
      let b : DieBank := ⟨BitVec.ofNat 32 (natAt item 4 2 * 65536 + natAt item 6 2), s.dieRecs.foldl (fun m x => max m (x.1 + 1)) 1⟩
      if s.coreHasJob p || s.underAssay p then ((s.core p).loaded b).bare else ((s.core p).loaded b).switched := by
  unfold State.reload
  dsimp only
  generalize hu : ({ s with dieRecs := _, flash := _ } : State) = u
  have hc : u.core p = s.core p := by subst hu; rfl
  have hj : u.hosting = s.hosting := by subst hu; rfl
  generalize hps : (List.range 576).filter (fun p => !u.isFenced 1 p) = ps
  have hnd : ps.Nodup := by subst hps; exact List.nodup_range.filter _
  have hm : p ∈ ps := by
    subst hps hu
    simp only [List.mem_filter, List.mem_range, hp, true_and]
    simpa [State.isFenced] using hf
  generalize BitVec.ofNat 32 (natAt item 4 2 * 65536 + natAt item 6 2) = tag
  generalize s.dieRecs.foldl (fun m x => max m (x.1 + 1)) 1 = n
  have hs : ∀ x : CoreHw, x.switched = x.bare.switched := fun _ => rfl
  have key : ∀ v : State, (v.core p).bare = ((s.core p).loaded ⟨tag, n⟩).bare → v.hosting = s.hosting →
      (((ps.filter (fun p => !v.coreHasJob p && !v.underAssay p)).foldl (fun s p => s.switchBank p 0 0) v).core p).bare =
        if s.coreHasJob p || s.underAssay p then ((s.core p).loaded ⟨tag, n⟩).bare else ((s.core p).loaded ⟨tag, n⟩).switched := by
    intro v hv1 hv
    have hv2 := State.coreHasJob_of hv p
    have hv3 : v.underAssay p = s.underAssay p := congrArg (·.assay) hv1
    have hf := foldl_core (f := fun s p => State.switchBank s p 0 0) (g := CoreHw.switched)
      (fun s q p => State.switchBank_core s q 0 0 p) _ (hnd.filter (fun p => !v.coreHasJob p && !v.underAssay p)) v p
    rw [hf]
    by_cases hb : (s.coreHasJob p || s.underAssay p) = true
    · have : p ∉ ps.filter (fun p => !v.coreHasJob p && !v.underAssay p) := by
        simp only [List.mem_filter, hv2, hv3]
        intro h
        simp only [Bool.or_eq_true] at hb
        rcases hb with hb | hb <;> simp [hb] at h
      rw [if_neg this, if_pos hb, hv1]
    · have : p ∈ ps.filter (fun p => !v.coreHasJob p && !v.underAssay p) := by
        simp only [List.mem_filter, hv2, hv3, hm, true_and]
        simpa using hb
      rw [if_pos this, if_neg hb, hs, hv1, ← hs]
      rfl
  refine key _ ?_ ?_
  · have hf := foldl_core (f := fun s p => State.loadBank s tag n p) (g := CoreHw.loaded ⟨tag, n⟩)
      (fun s q p => State.loadBank_core s tag n q p) ps hnd u p
    rw [State.nameSwitches_core, hf, if_pos hm, hc]
  · rw [← hj]
    refine (foldl_hosting (fun s (j : Job) => State.nameSwitch_hosting s _) _ _).trans ?_
    exact foldl_hosting (fun s q => State.loadBank_hosting s tag n q) _ _

theorem State.flash_of_rest {s t : State} (h : t.rest = s.rest) : t.flash = s.flash := congrArg (fun x => x.2.2.2.2.2.2.1) h

theorem State.reload_dieRec (s : State) (item : List Byte) : (s.reload item).flash.dieRec =
    some ⟨BitVec.ofNat 16 (natAt item 6 2), BitVec.ofNat 16 (natAt item 4 2), Config.sha384 item, recSlots item⟩ := by
  have h1 : ∀ (l : List Nat) (s : State) (tag : W32) (n : Nat),
      (l.foldl (fun s p => State.loadBank s tag n p) s).flash = s.flash := by
    intro l
    induction l with
    | nil => intros; rfl
    | cons q l ih => intro s tag n; exact ih _ _ _
  have h2 : ∀ (l : List Job) (s : State), (l.foldl (fun (s : State) j => s.nameSwitch (s.hostsFor j)) s).flash = s.flash := by
    have h : ∀ (l : List Nat) (s : State), (l.foldl (fun (s : State) p =>
        if (s.core p).pending then s.setCore p { s.core p with scheduled := true } else s) s).flash = s.flash := by
      intro l
      induction l with
      | nil => intro s; rfl
      | cons q l ih => intro s; rw [List.foldl_cons, ih]; split <;> rfl
    intro l
    induction l with
    | nil => intro s; rfl
    | cons j l ih => intro s; rw [List.foldl_cons, ih]; exact h _ s
  have h3 : ∀ (l : List Nat) (s : State), (l.foldl (fun s p => State.switchBank s p 0 0) s).flash = s.flash := by
    intro l
    induction l with
    | nil => intro s; rfl
    | cons q l ih =>
      intro s
      rw [List.foldl_cons, ih]
      unfold State.switchBank
      dsimp only
      rw [State.flash_of_rest (State.extendRun_rest _ _ _), State.flash_of_rest (State.raise_rest _ _)]
      rfl
  unfold State.reload
  dsimp only
  rw [h3]
  unfold State.nameSwitches
  rw [h2, h1]

/-! ### The teller's page and what the device puts out, but for the interrupts that an event raises -/

/-- The teller's page but for its pending vectors, and what the device has put out but for its MSI-X messages. -/
def State.front (s : State) : Teller × Out := ({ s.tel with pend := [] }, { s.out with msix := [] })

@[simp] theorem front_ite (c : Prop) [Decidable c] (s t : State) : (if c then s else t).front = if c then s.front else t.front := by
  split <;> rfl

@[simp] theorem State.setPort_front (s : State) (p : Nat) (q : Port) : (s.setPort p q).front = s.front := rfl
@[simp] theorem State.setPage_front (s : State) (n : Nat) (p : Page) : (s.setPage n p).front = s.front := rfl
@[simp] theorem State.setRing_front (s : State) (n : Nat) (r : Ring) : (s.setRing n r).front = s.front := rfl

@[simp] theorem State.trySend_front (s : State) (t : Txn) (u : TagUse) : (s.trySend t u).1.front = s.front := by
  unfold State.trySend
  split <;> rfl

@[simp] theorem State.interrupt_front (s : State) (v : BitVec 11) : (s.interrupt v).front = s.front := by
  unfold State.interrupt
  dsimp only
  split
  · split <;> rfl
  · split
    · exact State.trySend_front _ _ _
    · rfl

@[simp] theorem State.evtEdge_front (s : State) : s.evtEdge.front = s.front := by
  unfold State.evtEdge
  dsimp only
  split
  · rw [State.interrupt_front]; rfl
  · rfl

@[simp] theorem State.markPage_front (s : State) (n cls count : Nat) : (s.markPage n cls count).front = s.front := by
  unfold State.markPage
  exact State.evtEdge_front _

@[simp] theorem State.ledger_front (s : State) (ws : List W64) : (s.ledger ws).front = s.front := by
  unfold State.ledger
  split
  · split <;> rfl
  · dsimp only
    (repeat' split) <;> first
      | rfl
      | exact (State.interrupt_front _ _).trans rfl

@[simp] theorem State.noteUnit_front (s : State) (e : Evt) : (s.noteUnit e).front = s.front := by
  unfold State.noteUnit
  split <;> rfl

@[simp] theorem State.raise_front (s : State) (e : Evt) : (s.raise e).front = s.front := by
  simp [State.raise]

/-- A field of the teller's page that no interrupt changes. -/
theorem State.tel_of_front {s t : State} (h : t.front = s.front) :
    t.tel.relays = s.tel.relays ∧ t.tel.relayTo = s.tel.relayTo ∧ t.tel.folio = s.tel.folio ∧ t.tel.wins = s.tel.wins
    ∧ t.out.pcieAbort = s.out.pcieAbort ∧ t.out.lastRead = s.out.lastRead := by
  simp only [State.front, Prod.mk.injEq, Teller.mk.injEq, Out.mk.injEq] at h
  obtain ⟨⟨h1, h2, h3, h4, h5, h6, h7, h8, h9, h10, h11⟩, h12⟩ := h
  simp_all

/-! ### Relayed accesses -/

theorem releaseRelays_mem : ∀ (held : List Nat) (l : List Relay) (x : Relay), x ∈ (releaseRelays held l).2 → x ∈ l
  | _, [], _, h => h
  | held, y :: l, x, h => by
    unfold releaseRelays at h
    dsimp only at h
    split at h
    · split at h
      · rcases List.mem_cons.mp h with h | h
        · exact h ▸ List.mem_cons_self ..
        · exact List.mem_cons_of_mem _ (releaseRelays_mem _ _ _ h)
      · exact List.mem_cons_of_mem _ (releaseRelays_mem _ _ _ h)
    · rcases List.mem_cons.mp h with h | h
      · exact h ▸ List.mem_cons_self ..
      · exact List.mem_cons_of_mem _ (releaseRelays_mem _ _ _ h)

/-- An access that is still open stays in the list. -/
theorem releaseRelays_open : ∀ (held : List Nat) (l : List Relay) (x : Relay), x ∈ l → x.answer = none →
    x ∈ (releaseRelays held l).2
  | _, [], _, h, _ => h
  | held, y :: l, x, h, hn => by
    unfold releaseRelays
    dsimp only
    rcases List.mem_cons.mp h with h | h
    · subst h
      split
      · next ha => exact absurd (hn.symm.trans ha) (by simp)
      · exact List.mem_cons_self ..
    · split
      · split
        · exact List.mem_cons_of_mem _ (releaseRelays_open _ _ _ h hn)
        · exact releaseRelays_open _ _ _ h hn
      · exact List.mem_cons_of_mem _ (releaseRelays_open _ _ _ h hn)

@[simp] theorem State.relayAnswer_tel (s : State) (n : Nat) (v : W32) : (s.relayAnswer n v).tel = s.tel := by
  unfold State.relayAnswer
  split <;> rfl

/-- What is released leaves the list; the rest of the teller's page stays. -/
theorem State.relayPump_tel (s : State) :
    s.relayPump.tel = { s.tel with relays := (releaseRelays [] s.tel.relays).2 } := by
  have h : ∀ (l : List (Nat × W32)) (u : State), (l.foldl (fun s a => s.relayAnswer a.1 a.2) u).tel = u.tel := by
    intro l
    induction l with
    | nil => intro u; rfl
    | cons a l ih => intro u; rw [List.foldl_cons, ih]; exact State.relayAnswer_tel ..
  unfold State.relayPump
  dsimp only
  rw [h]

/-! ### Reports and contributions leave the assays alone -/

theorem foldl_asy {τ : Type} {f : State → τ → State} (h : ∀ s x, (f s x).asy = s.asy) :
    ∀ (l : List τ) (s : State), (l.foldl f s).asy = s.asy
  | [], _ => rfl
  | x :: t, s => (foldl_asy h t (f s x)).trans (h s x)

theorem State.asy_of_rest {s t : State} (h : t.rest = s.rest) : t.asy = s.asy :=
  congrArg (fun x => x.2.2.2.2.2.2.2.2.2.2.2.2.2.2.2.2.2.2.2.2.2.2.2.1) h

theorem State.classEdge_asy (s : State) : s.classEdge.asy = s.asy := State.asy_of_rest (by simp)

theorem State.lockBreakIf_asy (s : State) (p : Run → Bool) : (s.lockBreakIf p).asy = s.asy := by
  unfold State.lockBreakIf
  dsimp only
  rw [foldl_asy (fun s r => State.asy_of_rest (State.infoEvent_rest s _ _ _))]

theorem State.lockBreakJob_asy (s : State) (n : Nat) : (s.lockBreakJob n).asy = s.asy := State.lockBreakIf_asy _ _

theorem State.sendMsg_asy (s : State) (x : Send) (t : Txn) (u : TagUse) (a b : Send) :
    (s.sendMsg x t u a b).asy = s.asy := by
  have h : (s.trySend t u).1.asy = s.asy := State.asy_of_rest (by simp)
  unfold State.sendMsg
  dsimp only
  split
  · show (if s.straying t = true then (s.trySend t u).1.lockBreakJob x.job else (s.trySend t u).1).asy = s.asy
    split
    · rw [State.lockBreakJob_asy, h]
    · exact h
  · rfl

theorem State.signRun_asy (s : State) (n : Nat) : (s.signRun n).asy = s.asy :=
  foldl_asy (fun s x => State.sendMsg_asy s _ _ _ _ _) _ _

theorem State.voidRun_asy (s : State) (n k : Nat) : (s.voidRun n k).asy = s.asy :=
  foldl_asy (fun s x => State.sendMsg_asy s _ _ _ _ _) _ _

theorem State.signOwn_asy (s : State) (j : Job) (r : Run) : (s.signOwn j r).asy = s.asy := rfl

@[simp] theorem State.signOwn_phases (s : State) (j : Job) (r : Run) : (s.signOwn j r).phases = s.phases := rfl

/-- With no assay waiting the assays' turn changes nothing. -/
theorem State.assaySettle_none {s : State} (h : s.asy.jobs = []) : s.assaySettle = s := by
  unfold State.assaySettle
  rw [h]
  rfl

/-- A run whose contributions have all been verified posts as it stands. -/
theorem State.verifiedPart_all (s : State) (r : Run) (h : ∀ v ∈ s.fab.recvs, v.ofStep r = true → v.verified = true) :
    s.verifiedPart r = r := by
  have : s.fab.recvs.filter (fun v => v.ofStep r && !v.verified) = [] := by
    rw [List.filter_eq_nil_iff]
    intro v hv hc
    rw [Bool.and_eq_true] at hc
    rw [h v hv hc.1] at hc
    exact absurd hc.2 (by decide)
  unfold State.verifiedPart
  rw [this]
  rfl

end Sys2Proof.Machine
end

