-- ==== Sys2Proof/Laws/Ports.lean ====
section
/-! SUPPORT. What sending leaves of a port: its link, its admission and what it receives (R299 to R304, R312). -/

namespace Sys2Proof.Machine

/-- A port but for what it sends and for the tags of its requests. -/
def Port.line (q : Port) : Port :=
  { q with
    txSeq := 0, unacked := [], waiting := [], credits := [], granted := [], tags := [], parked := [], tagWait := []
    wire := [], mgmt := [], countTx := 0, keyTx := 0, fwdq := [], fwdLast := 0 }

@[simp] theorem Port.returned_line (q : Port) : q.returned.line = q.line := by
  unfold Port.returned
  split <;> rfl

@[simp] theorem Port.charge_line (q : Port) (f : TxFlit) : (q.charge f).line = q.line := by
  unfold Port.charge
  split <;> rfl

@[simp] theorem Port.emit_line (q : Port) (f : TxFlit) : (q.emit f).line = q.line := by
  rw [← Port.returned_line q]
  rfl

@[simp] theorem Port.emitBare_line (q : Port) (n : Nat) : (q.emitBare n).line = q.line := by
  rw [← Port.returned_line q]
  rfl

theorem pumpList_line : ∀ (fs : List TxFlit) (q : Port), (pumpList fs q).line = q.line
  | [], _ => rfl
  | f :: fs, q => by
    unfold pumpList
    split
    · rw [pumpList_line fs, Port.emit_line, Port.charge_line]
    · rw [pumpList_line fs]; rfl

@[simp] theorem Port.drain_line (q : Port) : q.drain.line = q.line := pumpList_line _ _

theorem Port.serve_line : ∀ (n : Nat) (q : Port), (Port.serve n q).line = q.line
  | 0, _ => rfl
  | n + 1, q => by
    unfold Port.serve
    split
    · split
      · rw [Port.serve_line n, Port.drain_line]; rfl
      · rfl
    · rfl

@[simp] theorem Port.pump_line (q : Port) : q.pump.line = q.line := by
  unfold Port.pump
  rw [Port.serve_line, Port.drain_line]

@[simp] theorem Port.enqueue_line (q : Port) (i : Nat) (t : Txn) : (q.enqueue i t).line = q.line := by
  unfold Port.enqueue
  exact Port.pump_line _

@[simp] theorem Port.idle_line (q : Port) : q.idle.line = q.line := by
  have h : ∀ (l : List Nat) (q : Port), (l.foldl (fun q _ => if q.stale then q.emitBare 0 else q) q).line = q.line := by
    intro l
    induction l with
    | nil => intro q; rfl
    | cons x l ih =>
      intro q
      rw [List.foldl_cons, ih]
      split
      · exact Port.emitBare_line _ _
      · rfl
  exact h _ _

@[simp] theorem Port.send_line (q : Port) (t : Txn) : (q.send t).line = q.line := by
  unfold Port.send
  split
  · rw [Port.pump_line]; rfl
  · rfl

@[simp] theorem Port.sendMgmt_line (q : Port) (m : Mgmt) : (q.sendMgmt m).line = q.line :=
  Port.pump_line { q with waiting := q.waiting ++ [({ ftype := 3 } : TxFlit)] }

@[simp] theorem Port.request_line (q : Port) (n : W64) (t : Txn) (u : TagUse) : (q.request n t u).line = q.line := by
  unfold Port.request
  split
  · rw [Port.send_line]; rfl
  · rfl

@[simp] theorem Port.retag_line (q : Port) (n : W64) : (q.retag n).line = q.line := by
  have h : ∀ (l : List (Txn × TagUse)) (q : Port), (tagPump n l q).line = q.line := by
    intro l
    induction l with
    | nil => intro q; rfl
    | cons x l ih => intro q; obtain ⟨t, u⟩ := x; unfold tagPump; rw [ih, Port.request_line]
  exact h _ _

@[simp] theorem Port.replay_line (q : Port) : q.replay.line = q.line := rfl

/-! ### The device's ports -/

def State.line (s : State) (p : Nat) : Port := (s.port p).line

@[simp] theorem line_ite (c : Prop) [Decidable c] (s t : State) (p : Nat) :
    (if c then s else t).line p = if c then s.line p else t.line p := by split <;> rfl

theorem State.line_of_ports {s t : State} (h : t.ports = s.ports) (p : Nat) : t.line p = s.line p := by
  simp only [State.line, State.port, h]

theorem foldl_line {τ : Type} {f : State → τ → State} {p : Nat} (h : ∀ s x, (f s x).line p = s.line p) :
    ∀ (l : List τ) (s : State), (l.foldl f s).line p = s.line p
  | [], _ => rfl
  | x :: t, s => (foldl_line h t (f s x)).trans (h s x)

theorem State.setPort_line (s : State) (k : Nat) (q : Port) (p : Nat) (h : q.line = s.line k) :
    (s.setPort k q).line p = s.line p := by
  by_cases e : p = k
  · subst e; simp only [State.line, State.setPort_port]; exact h
  · simp only [State.line, State.setPort_port_ne s e]

@[simp] theorem State.setPort_line_self (s : State) (k : Nat) (q : Port) : (s.setPort k q).line k = q.line := by
  simp only [State.line, State.setPort_port]

@[simp] theorem State.trySend_line (s : State) (t : Txn) (u : TagUse) (p : Nat) : (s.trySend t u).1.line p = s.line p := by
  unfold State.trySend
  split
  · exact State.setPort_line _ _ _ _ (Port.request_line _ _ _ _)
  · rfl

@[simp] theorem State.complete_line (s : State) (i : Nat) (r : Txn) (st po : Nat) (d : List Byte) (p : Nat) :
    (s.complete i r st po d).line p = s.line p := State.setPort_line _ _ _ _ (Port.send_line _ _)

@[simp] theorem State.interrupt_line (s : State) (v : BitVec 11) (p : Nat) : (s.interrupt v).line p = s.line p := by
  unfold State.interrupt
  dsimp only
  split
  · split <;> rfl
  · split
    · exact State.trySend_line _ _ _ _
    · rfl

@[simp] theorem State.evtEdge_line (s : State) (p : Nat) : s.evtEdge.line p = s.line p := by
  unfold State.evtEdge
  dsimp only
  split
  · rw [State.interrupt_line]; rfl
  · rfl

@[simp] theorem State.markPage_line (s : State) (n c k p : Nat) : (s.markPage n c k).line p = s.line p := by
  unfold State.markPage
  exact State.evtEdge_line _ _

@[simp] theorem State.ledger_line (s : State) (ws : List W64) (p : Nat) : (s.ledger ws).line p = s.line p := by
  unfold State.ledger
  split
  · split <;> rfl
  · dsimp only
    (repeat' split) <;> first
      | rfl
      | exact (State.interrupt_line _ _ _).trans rfl

@[simp] theorem State.noteUnit_line (s : State) (e : Evt) (p : Nat) : (s.noteUnit e).line p = s.line p := by
  unfold State.noteUnit
  split <;> rfl

@[simp] theorem State.raise_line (s : State) (e : Evt) (p : Nat) : (s.raise e).line p = s.line p := by
  simp [State.raise]

@[simp] theorem State.fabricEvent_line (s : State) (a b c d p : Nat) : (s.fabricEvent a b c d).line p = s.line p :=
  State.raise_line _ _ _

@[simp] theorem State.countPage_line (s : State) (n k p : Nat) : (s.countPage n k).line p = s.line p := rfl

@[simp] theorem State.infoEvent_line (s : State) (j n : Nat) (c : Option Nat) (p : Nat) : (s.infoEvent j n c).line p = s.line p := by
  unfold State.infoEvent
  dsimp only
  (repeat' split) <;> first
    | (rw [State.markPage_line, State.ledger_line]; rfl)
    | (rw [State.countPage_line, State.ledger_line]; rfl)

@[simp] theorem State.lockBreakIf_line (s : State) (f : Run → Bool) (p : Nat) : (s.lockBreakIf f).line p = s.line p := by
  unfold State.lockBreakIf
  dsimp only
  rw [foldl_line (fun s x => State.infoEvent_line s _ _ _ p)]
  rfl

@[simp] theorem State.lockBreak_line (s : State) (p : Nat) : s.lockBreak.line p = s.line p :=
  State.lockBreakIf_line _ _ _

@[simp] theorem State.lockBreakJob_line (s : State) (n p : Nat) : (s.lockBreakJob n).line p = s.line p :=
  State.lockBreakIf_line _ _ _
@[simp] theorem State.lockBreakPort_line (s : State) (n p : Nat) : (s.lockBreakPort n).line p = s.line p :=
  State.lockBreakIf_line _ _ _

@[simp] theorem State.classEdge_line (s : State) (p : Nat) : s.classEdge.line p = s.line p := by
  unfold State.classEdge
  dsimp only
  split <;> rfl

/-! ### Completions and other paths -/

@[simp] theorem State.setSend_line (s : State) (x : Send) (p : Nat) : (s.setSend x).line p = s.line p := rfl
@[simp] theorem State.dropSend_line (s : State) (n p : Nat) : (s.dropSend n).line p = s.line p := rfl
@[simp] theorem State.setRing_line (s : State) (n : Nat) (r : Ring) (p : Nat) : (s.setRing n r).line p = s.line p := rfl

@[simp] theorem State.sendMsg_line (s : State) (x : Send) (t : Txn) (u : TagUse) (y z : Send) (p : Nat) :
    (s.sendMsg x t u y z).line p = s.line p := by
  simp only [State.sendMsg]
  (repeat' split) <;> simp

@[simp] theorem State.sendCsgn_line (s : State) (x : Send) (p : Nat) : (s.sendCsgn x).line p = s.line p :=
  State.sendMsg_line ..
@[simp] theorem State.sendVoid_line (s : State) (x : Send) (n p : Nat) : (s.sendVoid x n).line p = s.line p :=
  State.sendMsg_line ..

@[simp] theorem State.stream_line (id p : Nat) : ∀ (l : List Nat) (s : State), (s.stream id l).line p = s.line p
  | [], _ => rfl
  | i :: l, s => by
    unfold State.stream
    split
    · rfl
    · split
      · exact State.stream_line id p l s
      · dsimp only
        rw [State.stream_line id p l]
        (repeat' split) <;> simp

@[simp] theorem State.contribDone_line (s : State) (id i n p : Nat) : (s.contribDone id i n).line p = s.line p := by
  simp only [State.contribDone, State.contribLanded]
  (repeat' split) <;> simp

@[simp] theorem State.csgnDone_line (s : State) (id n p : Nat) : (s.csgnDone id n).line p = s.line p := by
  simp only [State.csgnDone, State.restream]
  (repeat' split) <;> simp

@[simp] theorem State.voidDone_line (s : State) (id n p : Nat) : (s.voidDone id n).line p = s.line p := by
  simp only [State.voidDone]
  (repeat' split) <;> simp

@[simp] theorem State.msgDone_line (s : State) (n : Nat) (k : W32) (st p : Nat) : (s.msgDone n k st).line p = s.line p := by
  simp only [State.msgDone]
  (repeat' split) <;> simp

@[simp] theorem State.ringIrq_line (s : State) (n : Nat) (r : Ring) (p : Nat) : (s.ringIrq n r).line p = s.line p := by
  simp only [State.ringIrq]
  (repeat' split) <;> simp

@[simp] theorem State.passTail_line (s : State) (n : Nat) (r : Ring) (p : Nat) : (s.passTail n r).line p = s.line p := by
  simp only [State.passTail]
  rw [foldl_line (fun s _ => State.ringIrq_line s _ _ p)]
  simp

@[simp] theorem State.entryDone_line (s : State) (n : Nat) (k : W32) (t : Txn) (st p : Nat) :
    (s.entryDone n k t st).line p = s.line p := by
  simp only [State.entryDone]
  (repeat' split) <;> first
    | rfl
    | simp

@[simp] theorem State.relayAnswer_line (s : State) (n : Nat) (v : W32) (p : Nat) : (s.relayAnswer n v).line p = s.line p := by
  unfold State.relayAnswer
  split <;> rfl

@[simp] theorem State.relayPump_line (s : State) (p : Nat) : s.relayPump.line p = s.line p := by
  simp only [State.relayPump]
  rw [foldl_line (fun s x => State.relayAnswer_line s _ _ p)]
  rfl

@[simp] theorem State.relayDone_line (s : State) (id n : Nat) (d : List Byte) (p : Nat) : (s.relayDone id n d).line p = s.line p := by
  simp only [State.relayDone, State.relayPump_line]
  rfl

@[simp] theorem State.completeUse_line (s : State) (u : TagUse) (n : Nat) (d : List Byte) (p : Nat) :
    (s.completeUse u n d).line p = s.line p := by
  cases u <;> simp [State.completeUse]

@[simp] theorem State.freeTag_line (s : State) (k g p : Nat) : (s.freeTag k g).line p = s.line p := by
  unfold State.freeTag
  exact State.setPort_line _ _ _ _ (Port.retag_line _ _)

@[simp] theorem State.sendReq_line (s : State) (t : Txn) (u : TagUse) (p : Nat) : (s.sendReq t u).line p = s.line p :=
  State.trySend_line _ _ _ _

@[simp] theorem State.forward_line (s : State) (i : Nat) (t : Txn) (p : Nat) : (s.forward i t).line p = s.line p := by
  have h : ∀ (u : State) (k : Nat), (u.setPort k ((u.port k).enqueue i t)).line p = u.line p :=
    fun u k => State.setPort_line _ _ _ _ (Port.enqueue_line _ _ _)
  simp only [State.forward]
  generalize (if (s.port i).limited = true then none
    else (s.egress t.dst t.altOk).bind fun p => if (s.port p).limited = true then none else some p) = o
  (repeat' split) <;> first | rfl | exact h _ _ | (rw [State.lockBreakJob_line]; exact h _ _) | exact State.complete_line _ _ _ _ _ _ _

@[simp] theorem State.redirect_line (s : State) (k : Nat) (t : Txn) (p : Nat) : (s.redirect k t).line p = s.line p := by
  have h : ∀ (u : State) (k : Nat), (u.setPort k ((u.port k).send t)).line p = u.line p :=
    fun u k => State.setPort_line _ _ _ _ (Port.send_line _ _)
  simp only [State.redirect]
  (repeat' split) <;> simp [h]

@[simp] theorem State.reroutePort_line (s : State) (k p : Nat) : (s.reroutePort k).line p = s.line p := by
  have h : ∀ (u : State) (k : Nat) (t : Txn), (u.setPort k ((u.port k).send t)).line p = u.line p :=
    fun u k t => State.setPort_line _ _ _ _ (Port.send_line _ _)
  unfold State.reroutePort
  dsimp only
  refine (foldl_line (fun s (x : Nat × Txn) => State.forward_line s x.1 x.2 p) _ _).trans ?_
  rw [foldl_line (p := p) (fun s x => by (repeat' split) <;> simp [h])]
  exact State.setPort_line _ _ _ _ rfl

@[simp] theorem State.rerouteAll_line (s : State) (p : Nat) : s.rerouteAll.line p = s.line p :=
  foldl_line (fun s x => State.reroutePort_line s x p) _ _

/-- A port that goes down. -/
theorem State.portDown_line (s : State) (p : Nat) : (s.portDown p).line p = (s.port p).goDown.line := by
  simp [State.portDown]

/-! ### Host memory and completions -/

theorem State.sendEntryWr_line (s : State) (n : Nat) (k : W32) (t : Txn) (p : Nat) : (s.sendEntryWr n k t).line p = s.line p := by
  simp only [State.sendEntryWr]
  split
  · exact State.trySend_line _ _ _ _
  · rfl

theorem State.produceFar_line (s : State) (n : Nat) (r : Ring) (ws : List W64) (p : Nat) :
    (s.produceFar n r ws).line p = s.line p := by
  simp only [State.produceFar]
  split
  · rfl
  · rw [foldl_line (fun s x => State.sendEntryWr_line s _ _ _ p)]; rfl

theorem State.hostWrite_line (s : State) (a : Nat) (bs : List Byte) (p : Nat) : (s.hostWrite a bs).line p = s.line p := by
  simp only [State.hostWrite]
  (repeat' split) <;> first
    | rfl
    | (rw [foldl_line (fun s x => State.sendReq_line s _ _ p)]; rfl)

theorem State.produce_line (s : State) (n : Nat) (r : Ring) (ws : List W64) (p : Nat) : (s.produce n r ws).line p = s.line p := by
  simp only [State.produce]
  (repeat' split) <;> first
    | rfl
    | exact State.produceFar_line ..
    | exact State.hostWrite_line ..

@[simp] theorem State.putCpl_line (s : State) (n : Nat) (r : Ring) (c : Completion) (p : Nat) :
    (s.putCpl n r c).line p = s.line p := by
  simp only [State.putCpl, State.produceIrq]
  split <;> simp [State.produce_line]

theorem State.drainList_line (p : Nat) : ∀ (l : List Completion) (s : State), (s.drainList l).1.line p = s.line p
  | [], _ => rfl
  | c :: l, s => by
    unfold State.drainList
    split
    · exact State.drainList_line p l s
    · split
      · rw [State.drainList_line p l, State.putCpl_line]
      · rfl

theorem State.drainCpl_line (s : State) (p : Nat) : s.drainCpl.line p = s.line p := by
  unfold State.drainCpl
  dsimp only
  refine (foldl_line (p := p) (fun u j => ?_) _ _).trans ?_
  · split
    · split
      · exact State.drainList_line ..
      · exact State.drainList_line ..
    · rfl
  · exact State.drainList_line ..

@[simp] theorem State.hostAgain_line (s : State) (p : Nat) : s.hostAgain.line p = s.line p := by
  unfold State.hostAgain
  split
  · rw [State.drainCpl_line, State.hostResend, foldl_line (fun s x => State.sendEntryWr_line s _ _ _ p)]
    rfl
  · rfl

/-! ### Admission -/

theorem State.sendMgmtTo_line (s : State) (k : Nat) (m : Mgmt) (p : Nat) :
    (s.setPort k ((s.port k).sendMgmt m)).line p = s.line p := State.setPort_line _ _ _ _ (Port.sendMgmt_line _ _)

@[simp] theorem State.tellOthers_line (s : State) (k : Nat) (m : Mgmt) (p : Nat) : (s.tellOthers k m).line p = s.line p :=
  foldl_line (fun s x => State.sendMgmtTo_line s x m p) _ _

@[simp] theorem State.bind_line (s : State) (k id : Nat) (d : W64) (p : Nat) : (s.bind k id d).line p = s.line p := by
  simp only [State.bind]
  split
  · rfl
  · exact (State.tellOthers_line ..).trans rfl

@[simp] theorem State.sendClaim_line (s : State) (pos : Nat) (id : BitVec 16) (p : Nat) :
    (s.sendClaim pos id).line p = s.line p := by
  unfold State.sendClaim
  split
  · exact State.sendMgmtTo_line ..
  · rfl

@[simp] theorem State.claimAll_line (s : State) (id : BitVec 16) (p : Nat) : (s.claimAll id).line p = s.line p :=
  foldl_line (fun s _ => State.sendClaim_line s _ _ p) _ _

/-- A port that is admitted keeps its line through the binding, the claims and what waited. -/
theorem State.admitPort_line (s : State) (p : Nat) (h : Hello) (c : List Byte) :
    (s.admitPort p h c).line p = (s.admittedPort p h c).line := by
  simp only [State.admitPort, State.classEdge_line, State.hostAgain_line, State.rerouteAll_line]
  (repeat' split) <;> simp

/-- A port whose authentication fails. -/
theorem State.failAuth_line (s : State) (p code order id : Nat) :
    ((s.failAuth p code order id).classEdge).line p = { (s.port p).goDown with state := .authFail }.line := by
  simp [State.failAuth]

/-! ### Bindings and claims -/

theorem State.fab_of_rest {s t : State} (h : t.rest = s.rest) : t.fab = s.fab :=
  congrArg (fun x => x.2.2.2.2.2.2.2.2.2.2.2.2.2.2.2.2.2.2.2.2.2.2.2.2) h

theorem State.countPage_front (s : State) (n k : Nat) : (s.countPage n k).front = s.front := rfl

@[simp] theorem State.infoEvent_front (s : State) (j n : Nat) (c : Option Nat) : (s.infoEvent j n c).front = s.front := by
  unfold State.infoEvent
  dsimp only
  (repeat' split) <;> first
    | (rw [State.markPage_front, State.ledger_front]; rfl)
    | (rw [State.countPage_front, State.ledger_front]; rfl)

/-- A binding that conflicts with none is in the table afterwards. -/
theorem State.bind_binding {s : State} {id : Nat} {d : W64} (h : s.bindConflict id d = false) (p : Nat) :
    look id (s.bind p id d).fab.binding = some d := by
  unfold State.bind
  split
  · next hs =>
    obtain ⟨e, he⟩ := Option.isSome_iff_exists.mp hs
    simp only [State.bindConflict, he, Bool.or_eq_false_iff, bne_eq_false_iff_eq] at h
    rw [he, h.1]
  · rw [State.fab_of_rest (State.tellOthers_rest ..)]
    exact look_put_same ..

/-- A teller notes a member's answer in its folio table. -/
theorem State.claimAnswer_folio {s : State} {pos : Nat} (t : BitVec 16) (h : (lookD FolioEnt.reset pos s.tel.folio).valid = true) :
    lookD FolioEnt.reset pos (s.claimAnswer pos t).tel.folio = { lookD FolioEnt.reset pos s.tel.folio with
      claimed := decide (t.toNat = s.deviceId), refused := !decide (t.toNat = s.deviceId) } := by
  unfold State.claimAnswer
  dsimp only
  rw [if_neg (by simp [h])]
  split
  · exact lookD_put_same ..
  · rw [(State.tel_of_front (State.infoEvent_front _ _ _ _)).2.2.1]
    exact lookD_put_same ..

/-- A member holds the claim that it takes. -/
theorem State.takeClaim_claim (s : State) (p pos : Nat) (t : BitVec 16) :
    (s.takeClaim p pos t).fab.claim = if s.claimOk pos t then some t else s.fab.claim := by
  unfold State.takeClaim
  split
  · rw [State.fab_of_rest (State.hostAgain_rest _), State.fab_of_rest (State.replyClaim_rest ..)]
  · rw [State.fab_of_rest (State.infoEvent_rest ..), State.fab_of_rest (State.replyClaim_rest ..)]

/-! ### The received set -/

theorem find_map_same {α : Type} (q : α → Bool) (v : α) (hv : q v = true) :
    ∀ l : List α, l.any q = true → (l.map (fun w => if q w then v else w)).find? q = some v
  | [], h => by simp at h
  | w :: l, h => by
    rw [List.map_cons]
    by_cases hw : q w = true
    · rw [if_pos hw, List.find?_cons_of_pos hv]
    · have : l.any q = true := by
        rw [List.any_cons] at h
        simpa [hw] using h
      rw [if_neg hw, List.find?_cons_of_neg hw]
      exact find_map_same q v hv l this

/-- An entry that is put into the received set is there. -/
theorem State.setRecv_recvOf (s : State) (v : Recv) (x : Incoming) (t : Txn) (h : x.is t v = true) :
    (s.setRecv v).recvOf x t = some v := by
  have h' := h
  simp only [Incoming.is, Bool.and_eq_true, beq_iff_eq] at h'
  obtain ⟨⟨⟨⟨⟨h1, h2⟩, h3⟩, h4⟩, h5⟩, h6⟩ := h'
  have hs : ∀ w : Recv, (w.job == v.job && w.stepLo == v.stepLo && w.src == v.src && w.shard == v.shard
      && w.lcore == v.lcore && w.ordinal == v.ordinal) = x.is t w := by
    intro w
    simp only [Incoming.is, h1, h2, h3, h4, h5, h6]
  unfold State.setRecv State.recvOf
  simp only [hs]
  split
  · next ha => exact find_map_same (x.is t) v h _ (by simpa using ha)
  · next ha =>
    have : List.find? (x.is t) s.fab.recvs = none := by
      rw [List.find?_eq_none]
      intro w hw hq
      exact ha (by simpa using ⟨w, hw, hq⟩)
    rw [List.find?_append, this]
    simp [h]

theorem State.recvOf_of_fab {s t : State} (h : t.fab = s.fab) (x : Incoming) (n : Txn) : t.recvOf x n = s.recvOf x n := by
  simp only [State.recvOf, h]

@[simp] theorem State.answer_recvOf (s : State) (p : Nat) (t : Txn) (st : Nat) (x : Incoming) (n : Txn) :
    (s.answer p t st).recvOf x n = s.recvOf x n := State.recvOf_of_fab (State.fab_of_rest (State.answer_rest ..)) x n

/-- What lands of the first data of a contribution, and that nothing is compared yet. -/
theorem State.landIn_fresh (s : State) (p : Nat) (j : Job) (x : Incoming) (t : Txn) :
    ((s.landIn p j x (x.fresh j t p) t).answer p t 0).compareHeld j x t = (s.landIn p j x (x.fresh j t p) t).answer p t 0
    ∧ ∃ w, ((s.landIn p j x (x.fresh j t p) t).answer p t 0).recvOf x t = some w
      ∧ w.landed = x.bytes j t [] ∧ w.attempt = t.attempt ∧ w.marks = t.marks
      ∧ w.complete = decide ((x.bytes j t []).length = x.count j) ∧ w.verified = false := by
  have hr : ∀ u : State, ∃ w, (u.setRecv { x.fresh j t p with
        port := some p, landed := (x.fresh j t p).landed ++ x.bytes j t (x.fresh j t p).landed
        marks := (x.fresh j t p).marks ++ t.marks
        complete := decide (((x.fresh j t p).landed ++ x.bytes j t (x.fresh j t p).landed).length = x.count j)
        due := (x.fresh j t p).due && !decide (((x.fresh j t p).landed ++ x.bytes j t (x.fresh j t p).landed).length = x.count j)
        read := (x.fresh j t p).read || decide ((x.fresh j t p).mode ≠ 0) }).recvOf x t = some w
      ∧ w.held = none ∧ w.landed = x.bytes j t [] ∧ w.attempt = t.attempt ∧ w.marks = t.marks
      ∧ w.complete = decide ((x.bytes j t []).length = x.count j) ∧ w.verified = false := by
    intro u
    refine ⟨_, State.setRecv_recvOf _ _ x t (by simp [Incoming.is, Incoming.fresh]), rfl, rfl, rfl, rfl, rfl, rfl⟩
  have hl : ∃ w, (s.landIn p j x (x.fresh j t p) t).recvOf x t = some w
      ∧ w.held = none ∧ w.landed = x.bytes j t [] ∧ w.attempt = t.attempt ∧ w.marks = t.marks
      ∧ w.complete = decide ((x.bytes j t []).length = x.count j) ∧ w.verified = false := by
    unfold State.landIn
    dsimp only
    exact hr _
  obtain ⟨w, hw, hn, hrest⟩ := hl
  refine ⟨?_, w, by rw [State.answer_recvOf, hw], hrest⟩
  unfold State.compareHeld
  rw [State.answer_recvOf, hw]
  simp [hn]

/-! ### The device's modes -/

/-- The staged and the present modes of a device. -/
def State.modes (s : State) : Option (Bool × Bool) × Bool × Bool × Bool :=
  (s.dev.stage, s.dev.proofEn, s.dev.timingLock, s.dev.proofRefused)

theorem State.modes_of_dev {s t : State} (h : t.dev = s.dev) : t.modes = s.modes := by simp only [State.modes, h]

@[simp] theorem State.setPort_modes (s : State) (p : Nat) (q : Port) : (s.setPort p q).modes = s.modes := rfl

@[simp] theorem State.interrupt_modes (s : State) (v : BitVec 11) : (s.interrupt v).modes = s.modes := by
  unfold State.interrupt
  dsimp only
  split
  · split <;> rfl
  · split
    · unfold State.sendReq State.trySend
      split <;> rfl
    · rfl

@[simp] theorem State.evtEdge_modes (s : State) : s.evtEdge.modes = s.modes := by
  unfold State.evtEdge
  dsimp only
  split
  · rw [State.interrupt_modes]; rfl
  · rfl

@[simp] theorem State.ledger_modes (s : State) (ws : List W64) : (s.ledger ws).modes = s.modes := by
  unfold State.ledger
  split
  · split <;> rfl
  · dsimp only
    (repeat' split) <;> first
      | rfl
      | exact (State.interrupt_modes _ _).trans rfl

@[simp] theorem State.infoEvent_modes (s : State) (j n : Nat) (c : Option Nat) : (s.infoEvent j n c).modes = s.modes := by
  have h : ∀ (u : State) (c : Nat), (u.markPage 0 c 1).modes = u.modes := by
    intro u c
    unfold State.markPage
    rw [State.evtEdge_modes]
    rfl
  unfold State.infoEvent
  dsimp only
  (repeat' split) <;> first
    | (rw [h]; exact (State.ledger_modes _ _).trans rfl)
    | exact (State.ledger_modes _ _).trans rfl

@[simp] theorem State.settle_modes (s : State) : s.settle.modes = s.modes := by
  have hi : ∀ (l : List Run) (u : State), (l.foldl (fun (s : State) r => s.infoEvent r.job r.step.toNat (some 13)) u).modes = u.modes := by
    intro l
    induction l with
    | nil => intro u; rfl
    | cons r l ih => intro u; rw [List.foldl_cons, ih, State.infoEvent_modes]
  have hg : s.governor.modes = s.modes := by
    unfold State.governor
    dsimp only
    split
    · unfold State.lockBreak State.lockBreakIf
      dsimp only
      rw [hi]; rfl
    · rfl
  unfold State.settle
  rw [State.evtEdge_modes, ← hg]
  unfold State.alertEdge
  dsimp only
  split <;> rfl

/-- A stage that is applied is in effect; one that is refused is discarded. -/
theorem State.applyStage_modes (s : State) (p t : Bool) (h : s.dev.stage = some (p, t)) :
    s.applyStage.modes = if s.stageRefused p then (none, s.dev.proofEn, s.dev.timingLock, true)
      else (none, p, t, s.dev.proofRefused) := by
  unfold State.applyStage
  simp only [h]
  split
  · rw [State.infoEvent_modes]; rfl
  · rw [State.settle_modes]; rfl

/-! ### Counted events -/

/-- A counted event whose limit is off leaves all but the list of the events. -/
theorem State.countQ_line {s : State} {p k : Nat} (h : nthD 0 (s.line p).qlim k = 0) :
    ∃ e, (s.countQ p k).line p = { s.line p with qev := e } := by
  have h' : nthD 0 (s.port p).qlim k = 0 := h
  unfold State.countQ
  dsimp only
  rw [if_neg (fun x => x.1 h'), State.setPort_line_self]
  exact ⟨_, rfl⟩

/-- A port that asks for a replay discards until it comes. -/
theorem State.askReplay_line {s : State} {p : Nat} (h : nthD 0 (s.port p).qlim 2 = 0) (hd : (s.port p).discarding = false)
    (ht : (s.port p).takes = true) : ∃ e, (s.askReplay p).line p = { s.port p with discarding := true, qev := e }.line := by
  unfold State.askReplay
  dsimp only
  rw [if_neg (by simp [hd, ht]), State.lockBreakPort_line]
  have hl : (s.setPort p ({ s.port p with discarding := true }.emitBare 2)).line p = { s.port p with discarding := true }.line := by
    rw [State.setPort_line_self, Port.emitBare_line]
  obtain ⟨e, he⟩ := State.countQ_line (s := s.setPort p ({ s.port p with discarding := true }.emitBare 2)) (p := p) (k := 2)
    (by rw [hl]; exact h)
  exact ⟨e, by rw [he, hl]; rfl⟩

/-- What a port's line says of it. -/
theorem Port.of_line {q r : Port} (h : q.line = r.line) :
    q.state = r.state ∧ q.lanes = r.lanes ∧ q.width = r.width ∧ q.enc = r.enc ∧ q.partner = r.partner ∧ q.fec = r.fec
    ∧ q.rxSeq = r.rxSeq ∧ q.discarding = r.discarding ∧ q.hello = r.hello ∧ q.limited = r.limited ∧ q.qev = r.qev
    ∧ q.keyRx = r.keyRx ∧ q.salt = r.salt ∧ q.sent = r.sent ∧ q.rxq = r.rxq ∧ q.qcause = r.qcause := by
  simp only [Port.line, Port.mk.injEq] at h
  simp_all

end Sys2Proof.Machine
end

