-- ==== Sys2Proof/Laws/Posting.lean ====
section
/-! SUPPORT. A step's shadow over the posted copy, and what posting makes of it. -/

namespace Sys2Proof.Machine

theorem shadowLook_lt : ∀ (x : Nat) (l : List Host.Cell), (∀ c ∈ l, x < c.1) → shadowLook x l = none
  | _, [], _ => rfl
  | x, (i, b) :: t, h => by
    have := h (i, b) (by simp)
    simp only [shadowLook]
    rw [if_neg (by simp at this; omega), if_pos (by simpa using this)]

/-- A byte without a cell is not in the shadow. -/
theorem shadowLook_absent : ∀ (x : Nat) (l : List Host.Cell), (∀ e ∈ l, e.1 ≠ x) → shadowLook x l = none
  | _, [], _ => rfl
  | x, (i, b) :: t, h => by
    have hi : i ≠ x := h (i, b) (List.mem_cons_self ..)
    simp only [shadowLook, if_neg hi]
    split
    · rfl
    · exact shadowLook_absent x t (fun e he => h e (List.mem_cons_of_mem _ he))

/-- A cell of a rising list is found at its address. -/
theorem shadowLook_mem : ∀ (x : Nat) (b : Byte) (l : List Host.Cell), l.Pairwise (fun x y => x.1 < y.1) → (x, b) ∈ l →
    shadowLook x l = some b
  | x, b, (i, c) :: t, h, hm => by
    rw [List.pairwise_cons] at h
    rcases List.mem_cons.mp hm with hm | hm
    · cases hm; simp [shadowLook]
    · have hi : i < x := h.1 _ hm
      have h1 : ¬ i = x := by omega
      have h2 : ¬ x < i := by omega
      simp only [shadowLook, if_neg h1, if_neg h2]
      exact shadowLook_mem x b t h.2 hm

theorem shadowLook_put (a x : Nat) (b : Byte) : ∀ (l : List Host.Cell), l.Pairwise (fun x y => x.1 < y.1) →
    shadowLook x (cellPutRaw a b l) = if x = a then some b else shadowLook x l
  | [], _ => by
    simp only [cellPutRaw, shadowLook]
    split
    · rename_i h; simp [h]
    · rename_i h
      rw [if_neg (Ne.symm h)]
      split <;> rfl
  | (i, c) :: t, h => by
    rw [List.pairwise_cons] at h
    simp only [cellPutRaw]
    by_cases h1 : a < i
    · rw [if_pos h1]
      simp only [shadowLook]
      by_cases h2 : a = x
      · simp [h2]
      · rw [if_neg h2, if_neg (Ne.symm h2)]
        by_cases h3 : x < a
        · rw [if_pos h3, if_neg (by omega), if_pos (by omega)]
        · rw [if_neg h3]
    · rw [if_neg h1]
      by_cases h2 : a = i
      · rw [if_pos h2]
        subst h2
        simp only [shadowLook]
        by_cases h3 : a = x
        · simp [h3]
        · rw [if_neg h3, if_neg h3, if_neg (Ne.symm h3)]
      · rw [if_neg h2]
        simp only [shadowLook, shadowLook_put a x b t h.2]
        by_cases h3 : i = x
        · rw [if_pos h3, if_neg (by omega), if_pos h3]
        · rw [if_neg h3, if_neg h3]
          by_cases h4 : x < i
          · rw [if_pos h4, if_neg (by omega), if_pos h4]
          · rw [if_neg h4, if_neg h4]

theorem merge_wf : ∀ (l m : List Host.Cell), cellsWf 0 m = true → cellsWf 0 (mergeCells l m) = true
  | [], _, h => h
  | (a, b) :: t, m, h => merge_wf t _ (cellPut_wf b h (Nat.zero_le _))

theorem merge_get (x : Nat) : ∀ (l m : List Host.Cell), cellsWf 0 m = true → l.Pairwise (fun x y => x.1 < y.1) →
    cellGet x (mergeCells l m) = (shadowLook x l).getD (cellGet x m)
  | [], _, _, _ => rfl
  | (a, b) :: t, m, h, hp => by
    rw [List.pairwise_cons] at hp
    simp only [mergeCells, merge_get x t _ (cellPut_wf b h (Nat.zero_le _)) hp.2, shadowLook]
    by_cases h1 : a = x
    · subst h1
      rw [if_pos rfl, shadowLook_lt a t hp.1, cellGet_cellPut_same b h]
      rfl
    · rw [if_neg h1, cellGet_cellPut_ne (Ne.symm h1) b h]
      by_cases h2 : x < a
      · rw [if_pos h2, shadowLook_lt x t (fun c hc => Nat.lt_trans h2 (hp.1 c hc))]
      · rw [if_neg h2]

end Sys2Proof.Machine
end

