-- ==== Sys2Proof/Laws/Records.lean ====
section
/-! SUPPORT. What a record of an engine does where it meets no error. -/

namespace Sys2Proof.Machine

@[simp] theorem State.markRead_bankAfter (s : State) (r : Run) (n : Nat) (l : List (Nat × Nat × Nat)) (i : Iss) (d : Nat) :
    (s.markRead r n l).bankAfter i d = s.bankAfter i d := by
  unfold State.markRead
  split <;> rfl

@[simp] theorem State.chkReport_ok (s : State) (i : Iss) (d : Nat) : s.chkReport i d .ok = s := rfl

@[simp] theorem State.readChecks_ok (s : State) (i : Iss) (d : Nat) (ha : s.armedHbm = false) : s.readChecks i d .ok = s := by
  simp [State.readChecks, ha]

/-- A record whose reads meet no error, and that neither faults nor consumes poison, leaves its outcome. -/
theorem State.doRecord_left {s : State} {d op : Nat} {i : Iss} {f : Ctx → Nat → RecOut} (hi : s.issueAt d op = some i)
    (ha : s.armedHbm = false) (hf : (f (s.ctx i.job i.run d) i.rec_).fault = none)
    (hc : (f (s.ctx i.job i.run d) i.rec_).consumed = []) :
    s.doRecord d op .ok f = s.left i d (f (s.ctx i.job i.run d) i.rec_) := by
  simp only [State.doRecord, hi, State.readChecks_ok _ _ _ ha, State.perform, hf, hc, State.left, State.chkReport_ok,
    State.markRead_bankAfter]

end Sys2Proof.Machine
end

