-- ==== Sys2Proof/Laws/Tick.lean ====
section
/-! SUPPORT. What idle time does to the beat counters. -/

namespace Sys2Proof.Machine

theorem lookD_foldl_put_of_not_mem {α : Type} (d : α) (g : Nat → α) (r : Nat) :
    ∀ (ks : List Nat) (l : List (Nat × α)), r ∉ ks → lookD d r (ks.foldl (fun l k => put k (g k) l) l) = lookD d r l
  | [], _, _ => rfl
  | k :: t, l, h => by
    rw [List.foldl_cons, lookD_foldl_put_of_not_mem d g r t _ (fun hm => h (List.mem_cons_of_mem _ hm))]
    exact lookD_put_ne (show r ≠ k from fun e => h (by rw [e]; exact List.mem_cons_self)) _ _ _

theorem lookD_foldl_put {α : Type} (d : α) (g : Nat → α) (r : Nat) :
    ∀ (ks : List Nat) (l : List (Nat × α)), r ∈ ks → lookD d r (ks.foldl (fun l k => put k (g k) l) l) = g r
  | [], _, h => by cases h
  | k :: t, l, h => by
    rw [List.foldl_cons]
    by_cases ht : r ∈ t
    · exact lookD_foldl_put d g r t _ ht
    · rw [lookD_foldl_put_of_not_mem d g r t _ ht]
      rcases List.mem_cons.mp h with rfl | h
      · exact lookD_put_same _ _ _ _
      · exact absurd h ht

/-- The same where only some keys are written. -/
theorem lookD_foldl_put_if {α : Type} (d : α) (c : Nat → Bool) (g : Nat → α) (r : Nat) :
    ∀ (ks : List Nat) (l : List (Nat × α)), lookD d r (ks.foldl (fun l k => if c k then put k (g k) l else l) l)
      = if c r = true ∧ r ∈ ks then g r else lookD d r l
  | [], l => by simp
  | k :: t, l => by
    rw [List.foldl_cons, lookD_foldl_put_if d c g r t]
    by_cases hr : c r = true
    · by_cases ht : r ∈ t
      · simp [hr, ht]
      · by_cases hk : r = k
        · subst hk
          simp [hr, ht, lookD_put_same]
        · simp only [hr, ht, true_and, if_false, List.mem_cons, hk, false_or]
          split
          · exact lookD_put_ne hk _ _ _
          · rfl
    · simp only [hr, false_and, if_false, Bool.false_eq_true]
      by_cases hk : c k = true
      · simp only [hk, if_true]
        exact lookD_put_ne (fun e => hr (by rw [e]; exact hk)) _ _ _
      · simp [hk]

/-- The beats of a region whose rail is in regulation advance (R26, R27). -/
theorem State.beatAll_region (s : State) {r : Nat} (h : r < 32) (hr : (s.region r).rail = true) :
    s.beatAll.region r = { s.region r with beats := (s.region r).beats + BitVec.ofNat 64 (s.regionRate r * tickMicros) } := by
  exact (lookD_foldl_put_if Region.reset (fun r => (s.region r).rail) (fun r =>
    { s.region r with beats := (s.region r).beats + BitVec.ofNat 64 (s.regionRate r * tickMicros) }) r (List.range 32)
    s.regions).trans (by simp [hr, h])

/-- The others stand still. -/
theorem State.beatAll_region_off (s : State) {r : Nat} (hr : (s.region r).rail = false) : s.beatAll.region r = s.region r := by
  exact (lookD_foldl_put_if Region.reset (fun r => (s.region r).rail) (fun r =>
    { s.region r with beats := (s.region r).beats + BitVec.ofNat 64 (s.regionRate r * tickMicros) }) r (List.range 32)
    s.regions).trans (by simp only [hr, Bool.false_eq_true, false_and, if_false]; rfl)

theorem State.beatAll_fabric (s : State) {b : Nat} (h : b < 4) :
    s.beatAll.fabric b = { s.fabric b with beats := (s.fabric b).beats + BitVec.ofNat 64 (s.fabricRate b * tickMicros) } := by
  have hm := List.mem_range.mpr h
  simp only [State.beatAll]
  generalize List.range 4 = l at hm ⊢
  exact lookD_foldl_put FabDomain.reset (fun b =>
    { s.fabric b with beats := (s.fabric b).beats + BitVec.ofNat 64 (s.fabricRate b * tickMicros) }) b l s.fabrics hm

end Sys2Proof.Machine
end

