-- ==== Sys2Proof/Laws/Values.lean ====
section
/-! SUPPORT. Exact fractions as rational numbers, and what decoding, rounding and the element-wise forms do to them. -/

namespace Sys2Proof.Machine

theorem floor_div (n d : Nat) (h : 0 < d) : ((n : Rat) / (d : Rat)).floor = ((n / d : Nat) : Int) := by
  have := Rat.floor_intCast_div_natCast (n : Int) d
  simp only [Int.cast_natCast] at this
  exact this

theorem rest_div (n d : Nat) (h : 0 < d) : (n : Rat) / (d : Rat) - ((n / d : Nat) : Rat) = ((n % d : Nat) : Rat) / d := by
  have hd : (d : Rat) ≠ 0 := by exact_mod_cast h.ne'
  rw [eq_div_iff hd, sub_mul, div_mul_cancel₀ _ hd]
  have := Nat.div_add_mod n d
  have h2 : ((d * (n / d) + n % d : Nat) : Rat) = (n : Rat) := by rw [this]
  push_cast at h2 ⊢
  linarith

theorem odd_or_one (q : Nat) : (if q % 2 = 0 then q + 1 else q) = q ||| 1 := by
  apply Nat.eq_of_testBit_eq
  intro i
  rw [Nat.testBit_or]
  cases i with
  | zero => split <;> simp [Nat.testBit_zero] <;> omega
  | succ i =>
    split
    · simp [Nat.testBit_succ]
      congr 1
      omega
    · simp [Nat.testBit_succ]

theorem rat_scale (x : Frac) (k : Int) : (x.scale k).rat = x.rat * (2 : Rat) ^ k := by
  unfold Frac.scale
  split
  · rename_i h
    obtain ⟨n, rfl⟩ := Int.eq_ofNat_of_zero_le h
    simp [Frac.rat]
    ring
  · rename_i h
    obtain ⟨n, hn⟩ := Int.eq_ofNat_of_zero_le (a := -k) (by omega)
    have : k = -(n : Int) := by omega
    subst this
    simp [Frac.rat, div_eq_mul_inv]
    ring

theorem rat_ofFrac (x : Frac) (z : Bool) : (Val.ofFrac x z).toFrac.rat = x.rat := by
  unfold Val.ofFrac
  split
  · rename_i h
    simp [Val.zero, Val.toFrac, Frac.rat, h]
  · simp only [Val.toFrac, Frac.rat]
    by_cases hn : x.num < 0
    · simp only [hn, decide_true, if_true]
      congr 1
      have : -((x.num.natAbs : Nat) : Int) = x.num := by omega
      exact_mod_cast this
    · simp only [hn, decide_false, Bool.false_eq_true, if_false]
      congr 1
      have : ((x.num.natAbs : Nat) : Int) = x.num := by omega
      exact_mod_cast this

theorem rat_of_not_finite (f : Fmt) (c : Nat) (hf : isBlock f = true) (h : ¬ (decodeCode f c).cls = .finite) :
    (decodeCode f c).toFrac.rat = 0 := by
  have hp : ∀ n es, ¬ (decodePosit c n es).cls = .finite → (decodePosit c n es).toFrac.rat = 0 := by
    intro n es h
    unfold decodePosit at h ⊢
    dsimp only at h ⊢
    split
    · simp [Val.zero, Val.toFrac, Frac.rat]
    · rename_i h1
      rw [if_neg h1] at h
      split
      · simp [Val.bad, Val.toFrac, Frac.rat]
      · rename_i h2
        rw [if_neg h2] at h
        exact absurd rfl h
  cases f <;> simp [isBlock] at hf
  · exact hp _ _ h
  · exact hp _ _ h
  · simp only [decodeCode, decodeBp4] at h ⊢
    split
    · simp [Val.zero, Val.toFrac, Frac.rat]
    · rename_i h1
      rw [if_neg h1] at h
      split
      · simp [Val.bad, Val.toFrac, Frac.rat]
      · rename_i h2
        rw [if_neg h2] at h
        split at h <;> exact absurd rfl h

theorem scale_pos (x : Frac) (k : Int) (h : 0 < x.num) (hd : 0 < x.den) : 0 < (x.scale k).num ∧ 0 < (x.scale k).den := by
  unfold Frac.scale
  split
  · exact ⟨Int.mul_pos h (by exact_mod_cast Nat.two_pow_pos _), hd⟩
  · exact ⟨h, Nat.mul_pos hd (Nat.two_pow_pos _)⟩

theorem posit_pos (c n es : Nat) (h : (decodePosit c n es).cls = .finite) :
    0 < (decodePosit c n es).num ∧ 0 < (decodePosit c n es).den := by
  unfold decodePosit at h ⊢
  dsimp only at h ⊢
  split
  · rename_i h1; rw [if_pos h1] at h; cases h
  · rename_i h1
    rw [if_neg h1] at h
    split
    · rename_i h2; rw [if_pos h2] at h; cases h
    · dsimp only
      refine ⟨?_, (scale_pos _ _ ?_ (Nat.two_pow_pos _)).2⟩
      · refine Int.natAbs_pos.mpr (ne_of_gt (scale_pos _ _ ?_ (Nat.two_pow_pos _)).1)
        dsimp only
        exact_mod_cast Nat.add_pos_left (Nat.two_pow_pos _) _
      · dsimp only
        exact_mod_cast Nat.add_pos_left (Nat.two_pow_pos _) _

theorem rat_add (a b : Frac) (ha : 0 < a.den) (hb : 0 < b.den) : (a.add b).rat = a.rat + b.rat := by
  have h1 : (a.den : Rat) ≠ 0 := by exact_mod_cast ha.ne'
  have h2 : (b.den : Rat) ≠ 0 := by exact_mod_cast hb.ne'
  simp only [Frac.add, Frac.rat]
  push_cast
  field_simp

theorem rat_mul (a b : Frac) : (a.mul b).rat = a.rat * b.rat := by
  simp only [Frac.mul, Frac.rat]
  push_cast
  rw [div_mul_div_comm]

theorem rat_lt (a b : Frac) (ha : 0 < a.den) (hb : 0 < b.den) : a.lt b = true ↔ a.rat < b.rat := by
  have h1 : (0 : Rat) < a.den := by exact_mod_cast ha
  have h2 : (0 : Rat) < b.den := by exact_mod_cast hb
  simp only [Frac.lt, Frac.rat, decide_eq_true_eq]
  rw [div_lt_div_iff₀ h1 h2]
  constructor
  · intro h; exact_mod_cast h
  · intro h; exact_mod_cast h

theorem rat_negate (v : Val) (h : v.exact) : v.negate.toFrac.rat = -v.toFrac.rat := by
  rcases v with ⟨cls, neg, num, den⟩
  rcases h.1 with ⟨h, h'⟩ | ⟨h, h'⟩ <;> (simp only at h; subst h; cases neg <;> simp [Val.negate, Val.toFrac, Frac.rat, neg_div])

theorem exact_negate (v : Val) (h : v.exact) : v.negate.exact := by
  rcases v with ⟨cls, neg, num, den⟩
  rcases h.1 with ⟨h', h''⟩ | ⟨h', h''⟩ <;> (simp only at h'; subst h'; simpa [Val.negate, Val.exact] using h)

theorem ofFrac_exact (x : Frac) (z : Bool) (h : 0 < x.den) : (Val.ofFrac x z).exact := by
  unfold Val.ofFrac
  split
  · simp [Val.zero, Val.exact]
  · rename_i hn
    exact ⟨.inr ⟨rfl, Int.natAbs_pos.mpr hn⟩, h⟩

theorem cls_exact (v : Val) (h : v.exact) : v.cls ≠ .invalid ∧ v.cls ≠ .infinite := by
  rcases h.1 with ⟨h, _⟩ | ⟨h, _⟩ <;> simp [h]

theorem exactAdd_exact (a b : Val) (ha : a.exact) (hb : b.exact) :
    ∃ v, exactAdd a b = some v ∧ v.exact ∧ v.toFrac.rat = a.toFrac.rat + b.toFrac.rat := by
  have h1 := cls_exact a ha
  have h2 := cls_exact b hb
  refine ⟨_, by simp [exactAdd, h1.2, h2.2]; rfl, ?_, ?_⟩
  · exact ofFrac_exact _ _ (Nat.mul_pos ha.2 hb.2)
  · rw [rat_ofFrac, rat_add _ _ ha.2 hb.2]

theorem exactMul_exact (a b : Val) (ha : a.exact) (hb : b.exact) :
    ∃ v, exactMul a b = some v ∧ v.exact ∧ v.toFrac.rat = a.toFrac.rat * b.toFrac.rat := by
  have h1 := cls_exact a ha
  have h2 := cls_exact b hb
  refine ⟨_, by simp [exactMul, h1.2, h2.2]; rfl, ?_, ?_⟩
  · exact ofFrac_exact _ _ (Nat.mul_pos ha.2 hb.2)
  · rw [rat_ofFrac, rat_mul]

theorem val_lt (a b : Val) (ha : a.exact) (hb : b.exact) : a.lt b = true ↔ a.toFrac.rat < b.toFrac.rat := by
  have h1 := cls_exact a ha
  have h2 := cls_exact b hb
  rw [← rat_lt _ _ ha.2 hb.2]
  unfold Val.lt
  split <;> simp_all

theorem zero_rat (a : Val) (ha : a.exact) (h : a.cls = .zero) : a.toFrac.rat = 0 := by
  rcases ha.1 with ⟨_, h'⟩ | ⟨h', _⟩
  · simp [Val.toFrac, Frac.rat, h']
  · rw [h] at h'; cases h'

theorem fin_sign (a : Val) (ha : a.exact) (h : a.cls = .finite) : (a.neg = true → a.toFrac.rat < 0) ∧ (a.neg = false → 0 < a.toFrac.rat) := by
  have hd : (0 : Rat) < a.den := by exact_mod_cast ha.2
  have hn : (0 : Rat) < a.num := by
    rcases ha.1 with ⟨h', _⟩ | ⟨_, h'⟩
    · rw [h] at h'; cases h'
    · exact_mod_cast h'
  constructor <;> intro hneg
  · simp only [Val.toFrac, Frac.rat, hneg, if_true]
    push_cast
    exact div_neg_of_neg_of_pos (by linarith) hd
  · simp only [Val.toFrac, Frac.rat, hneg, Bool.false_eq_true, if_false]
    push_cast
    exact div_pos hn hd

theorem minBefore_le (a b : Val) (ha : a.exact) (hb : b.exact) : (minBefore a b = true → a.toFrac.rat ≤ b.toFrac.rat)
    ∧ (minBefore a b = false → b.toFrac.rat ≤ a.toFrac.rat) := by
  unfold minBefore
  split
  · rename_i h
    rw [zero_rat a ha h.1, zero_rat b hb h.2]
    simp
  · have := val_lt b a hb ha
    constructor
    · intro h
      rw [Bool.not_eq_true'] at h
      by_contra hc
      rw [not_le] at hc
      rw [this.mpr hc] at h
      cases h
    · intro h
      simp only [Bool.not_eq_false'] at h
      exact (this.mp h).le

/-- Each bit of the poison mask is its block's mark. -/
theorem poisonMask_bits (m : Mem) (block : Nat) : ∀ n : Nat, poisonMask m block n < 2 ^ n
    ∧ ∀ i, i < n → (poisonMask m block n).testBit i = m.isPoisoned (block + i)
  | 0 => ⟨Nat.one_pos, fun _ h => absurd h (Nat.not_lt_zero _)⟩
  | n + 1 => by
    obtain ⟨h1, h2⟩ := poisonMask_bits m block n
    have e : poisonMask m block (n + 1) = 2 ^ n * b2n (m.isPoisoned (block + n)) + poisonMask m block n := by
      rw [poisonMask, Nat.add_comm, Nat.mul_comm]
    have hb : b2n (m.isPoisoned (block + n)) ≤ 1 := by cases m.isPoisoned (block + n) <;> decide
    refine ⟨?_, fun i hi => ?_⟩
    · rw [e, Nat.pow_succ]
      have := Nat.mul_le_mul_left (2 ^ n) hb
      omega
    · rw [e, Nat.testBit_two_pow_mul_add _ h1]
      by_cases h : i < n
      · rw [if_pos h, h2 i h]
      · have : i = n := by omega
        subst this
        rw [if_neg h, Nat.sub_self]
        cases m.isPoisoned (block + i) <;> decide

end Sys2Proof.Machine
end

