-- ==== Sys2Proof/Tests/Slice0.lean ====
section
/-! SUPPORT. Tests: ill-formed commands that the checks refuse, a state that meets the hypotheses of every statement,
and worked values of the spec. -/

namespace Sys2Proof.Tests

set_option Elab.async false

open Sys2Proof Sys2Proof.Machine

/-! ### Small states -/

/-- A ring in host memory with one entry at HEAD 0. -/
def ringH (kind job : Nat) : Ring := ⟨0x1000, true, kind, 6, 17, 0, 5, true, 1, 0, job, false, [], []⟩
/-- A ring of JOB 0 in HBM, with the entries given. -/
def ring0 (kind : Nat) (tail : W32) (es : List (Nat × List W64)) : Ring :=
  ⟨0, false, kind, 6, 1, 0, 0, false, tail, 0, 0, false, es, []⟩

/-- A ready teller with its PCIe link, the device's own rings and the resident job 1's rings, and one job. -/
def up : State := { State.reset with
  mod := { State.reset.mod with railsUp := true, mgmtUp := true, pwrEn := true }
  su := { State.reset.su with phase := 8, teller := true, identityOk := true }
  tel := { State.reset.tel with linkUp := true }
  rings := [(0, ring0 0 0 []), (1, ring0 1 0 []), (2, ring0 4 0 []), (16, ringH 0 1), (17, { ringH 1 1 with tail := 0 })] }

/-- A binary of one shard and one logical core, with one template and a stream. -/
def bin1 (stream : List W128) : Binary :=
  { digest := 0, header := [0, 0, BitVec.ofNat 64 (2 ^ 48)] ++ List.replicate 29 0, poolTypes := [0], pool := [0]
    rules := [], folds := [], steps := [0], streams := [stream], escrow := [], coll := [], hallHeader := 0, hall := []
    rng := [], batch := [0], images := [] }

def job1 (stream : List W128) : Job :=
  { num := 1, bin := bin1 stream, devices := 0, shardFirst := 0, shardLast := 0, step0 := 0, step := 0, gen := 0
    tills := [⟨[], []⟩], vault := ⟨[], []⟩, hbm := ⟨[], []⟩, regen := [], queue := [], cplRing := 17, queued := []
    ending := none, snaps := [], everPosted := false, regenDue := [], prov := [] }

/-- The word of a record of an opcode with no field set. -/
def rec0 (op : Nat) : W128 := BitVec.ofNat 128 (op * 2 ^ 120)

def up1 : State := { up with jobs := [job1 [rec0 1, rec0 2]] }

/-- An entry of ring 16 with its bytes at the location: opcode, job, words 1 to 7. -/
def host (op job : Nat) (ws : List Nat) (data : List Byte) : Fetch :=
  { ring := 16, entry := (List.range 8).map (fun i => BitVec.ofNat 64 (nthD 0 ((op * 2 ^ 56 + job * 2 ^ 32) :: ws) i))
    data := data, snap := [] }

/-- The command that the device finds there. -/
def cmd (s : State) (f : Fetch) : Cmd := s.cmdAt 16 (ringH 0 1) f

/-- The entry is accepted as a command. -/
def Ok (s : State) (f : Fetch) (op : Nat) : Prop := s.accepts f op (ringH 0 1) (cmd s f)


/-- The state in which the device serves the entry of ring 16. -/
def served (s : State) (f : Fetch) : State := s.consumed f (ringH 0 1)

/-! ### Commands that name a job (O7) -/

/-- The job of `up1`. -/
def j1 : Job := job1 [rec0 1, rec0 2]

theorem wit_jobCommands :
    (Ok up1 (host 2 1 [0, 5] []) 2 ∧ up1.job (cmd up1 (host 2 1 [0, 5] [])).job = some j1
      ∧ (cmd up1 (host 2 1 [0, 5] [])).w 1 < j1.bin.templates)
    ∧ (Ok up1 (host 3 1 [0x2000, 2 ^ 62 + 4096] []) 3 ∧ bits ((cmd up1 (host 3 1 [0x2000, 2 ^ 62 + 4096] [])).w 2) 63 62 = 1)
    ∧ (Ok up1 (host 4 1 [] []) 4 ∧ j1.ending = none) ∧ Ok up1 (host 5 1 [] []) 5 := by
  unfold Ok State.accepts State.takes; decide +kernel

/-! ### Rings, sequences and batches (O8, O9) -/

/-- A ring descriptor: a sequence ring of 16 entries in host memory, for job 1, with completion ring 17. -/
def descr : List Byte :=
  leBytes 8 0x8000 ++ leBytes 8 (2 ^ 62 + 3 * 2 ^ 58 + 4 * 2 ^ 53 + 17 * 2 ^ 33) ++ leBytes 8 0 ++ leBytes 8 (2 ^ 48)

/-- Job 1 with a sequence ring 18 that holds an entry, one open sequence of it, and a batch rule with a timer. -/
def up2 : State := { up1 with
  jobs := [{ j1 with bin := { j1.bin with batch := [BitVec.ofNat 64 (2 ^ 57 + 7 * 2 ^ 41)] } }]
  rings := up1.rings ++ [(18, ringH 3 1)], seqTab := [(4, ⟨false, 1, 0, 0, 0, 9, 18⟩)] }

/-- An entry of ring 18. -/
def seqE (op : Nat) (ws : List Nat) : Fetch := { host op 1 ws [] with ring := 18 }
def seqC (f : Fetch) : Cmd := up2.cmdAt 18 (ringH 3 1) f

theorem wit_ringCommands :
    (Ok up1 (host 6 1 [0x2000, 2 ^ 62 + 32] descr) 6 ∧ up1.locPoison (cmd up1 (host 6 1 [0x2000, 2 ^ 62 + 32] descr)) 32 = none
      ∧ (served up1 (host 6 1 [0x2000, 2 ^ 62 + 32] descr)).descCheck 1 ((wordsOf (bytesAt descr 0 32)).take 4) = 0
      ∧ lowestFree ((served up1 (host 6 1 [0x2000, 2 ^ 62 + 32] descr)).rings.map (·.1)) 16 (2 ^ 20 - 16) = some 18)
    ∧ (Ok up1 (host 7 1 [17] []) 7 ∧ (served up1 (host 7 1 [17] [])).ring 17 = some { ringH 1 1 with tail := 0 })
    ∧ (Ok up2 (host 10 1 [18] []) 10 ∧ (served up2 (host 10 1 [18] [])).ring 18 = some (ringH 3 1)
      ∧ 16 ≤ (cmd up2 (host 10 1 [18] [])).w 1 ∧ (ringH 3 1).job = (cmd up2 (host 10 1 [18] [])).job ∧ (ringH 3 1).full = false) := by
  unfold Ok State.accepts State.takes; decide +kernel

theorem wit_sequenceCommands :
    (Ok up2 (host 8 1 [18 * 2 ^ 27] []) 8 ∧ (served up2 (host 8 1 [18 * 2 ^ 27] [])).seqRing 1 18 = true
      ∧ bits ((cmd up2 (host 8 1 [18 * 2 ^ 27] [])).w 1) 14 9 < 1 ∧ lowestFree (up2.seqTab.map (·.1)) 0 2048 = some 0)
    ∧ (Ok up2 (host 9 1 [4] []) 9 ∧ up2.seqOf 1 4 = some ⟨false, 1, 0, 0, 0, 9, 18⟩)
    ∧ (up2.takes (seqE 0x20 [4]) 3 (ringH 3 1) (seqC (seqE 0x20 [4])) ∧ (seqC (seqE 0x20 [4])).opcode = 0x20
      ∧ (seqC (seqE 0x20 [4])).seqWf 1 = true ∧ bits ((seqC (seqE 0x20 [4])).w 1) 10 0 = 4)
    ∧ (up2.takes (seqE 0x21 []) 3 (ringH 3 1) (seqC (seqE 0x21 [])) ∧ (seqC (seqE 0x21 [])).opcode = 0x21
      ∧ (seqC (seqE 0x21 [])).seqWf 1 = true ∧ ∀ i, i < 6 → (seqC (seqE 0x21 [])).w (i + 1) = 0)
    ∧ batchTimerOf (up2.batchRule 1 0) ≠ 0 := by
  unfold Ok State.accepts State.takes; decide +kernel

/-! ### JOB_LOAD (O10) -/

def padTo (n : Nat) (bs : List Byte) : List Byte := bs ++ List.replicate (n - bs.length) 0
def dirEntry (t o l : Nat) : List Byte := leBytes 8 (t * 2 ^ 56) ++ leBytes 8 o ++ leBytes 8 l ++ leBytes 8 0

/-- A binary with an empty pool entry, one template and one stream of STEP_BEGIN and STEP_END (R218 to R233). -/
def binFile : List Byte :=
  padTo 384 (padTo 256 (leBytes 8 (0x4E495742 * 2 ^ 32 + 2 ^ 28 + 4) ++ leBytes 8 0 ++ leBytes 8 (2 ^ 48))
    ++ dirEntry 1 384 2064 ++ dirEntry 4 2496 16 ++ dirEntry 5 2560 32 ++ dirEntry 6 2624 0)
  ++ padTo 2112 [] ++ padTo 64 [] ++ padTo 64 (leBytes 16 (2 ^ 120 + 2 ^ 116) ++ leBytes 16 (2 ^ 121 + 2 ^ 116))

/-- A JOB_LOAD of job `n` from host memory, with the snapshot bit and word 4. -/
def loadE (n step0 snap : Nat) (bs img : List Byte) : Fetch :=
  { host 1 n [0x2000, 2 ^ 62 + bs.length, 0, step0, 0x9000 * snap, (2 ^ 62 + 2 ^ 61 + img.length) * snap, 1] bs with
    snap := img }

theorem wit_jobLoad :
    (Ok up1 (loadE 2 0 0 binFile []) 1 ∧ (served up1 (loadE 2 0 0 binFile [])).loadCheck (cmd up1 (loadE 2 0 0 binFile [])) = 0
      ∧ (served up1 (loadE 2 0 0 binFile [])).loadReject (cmd up1 (loadE 2 0 0 binFile [])).load binFile = none
      ∧ (cmd up1 (loadE 2 0 0 binFile [])).load.snap = false)
    ∧ (Ok up1 (loadE 2 0 0 [] []) 1 ∧ (served up1 (loadE 2 0 0 [] [])).loadCheck (cmd up1 (loadE 2 0 0 [] [])) = 0
      ∧ (served up1 (loadE 2 0 0 [] [])).loadReject (cmd up1 (loadE 2 0 0 [] [])).load [] = some ⟨0, 0, 1⟩)
    ∧ (Ok up1 (loadE 1 0 0 [] []) 1 ∧ (served up1 (loadE 1 0 0 [] [])).loadCheck (cmd up1 (loadE 1 0 0 [] [])) = 0x1F + 1)
    ∧ up1.retireDue = false ∧ ({ up1 with chans := [(0, { Chan.reset with candidate := true })], spareGb := 1 }).retireDue = true := by
  unfold Ok State.accepts State.takes; decide +kernel
theorem leNat_leBytes : ∀ n x, leNat (leBytes n x) = x % 256 ^ n
  | 0, x => by simp [leBytes, leNat, Nat.mod_one]
  | n + 1, x => by
    simp only [leBytes, leNat, leNat_leBytes n, BitVec.toNat_ofNat]
    rw [show 256 ^ (n + 1) = 256 * 256 ^ n by rw [Nat.pow_succ, Nat.mul_comm], Nat.mod_mul]

/-- A snapshot image of job 2 before its step 1, without regions. -/
def snapImg : List Byte :=
  leBytes 4 0x534E4150 ++ leBytes 2 1 ++ leBytes 2 2 ++ leBytes 8 0 ++ leBytes 48 (binaryOf binFile).digest.toNat
    ++ List.replicate 192 0

theorem wit_jobResume :
    Ok up1 (loadE 2 1 1 binFile snapImg) 1
    ∧ (served up1 (loadE 2 1 1 binFile snapImg)).loadCheck (cmd up1 (loadE 2 1 1 binFile snapImg)) = 0
    ∧ (served up1 (loadE 2 1 1 binFile snapImg)).loadReject (cmd up1 (loadE 2 1 1 binFile snapImg)).load binFile = none
    ∧ (cmd up1 (loadE 2 1 1 binFile snapImg)).load.snap = true
    ∧ (served up1 (loadE 2 1 1 binFile snapImg)).snapBad (cmd up1 (loadE 2 1 1 binFile snapImg)).load
        ((cmd up1 (loadE 2 1 1 binFile snapImg)).load.job (binaryOf binFile)).applyImages snapImg = false
    ∧ ∃ k, (served up1 (loadE 2 1 1 binFile snapImg)).regenAll
        ((((cmd up1 (loadE 2 1 1 binFile snapImg)).load.job (binaryOf binFile)).applyImages).takeImage snapImg).regen
        ((((cmd up1 (loadE 2 1 1 binFile snapImg)).load.job (binaryOf binFile)).applyImages).takeImage snapImg) = .done k := by
  have hd : natAt snapImg 16 48 = (binaryOf binFile).digest.toNat := by
    have h : natAt snapImg 16 48 = leNat (leBytes 48 (binaryOf binFile).digest.toNat) := rfl
    rw [h, leNat_leBytes, Nat.mod_eq_of_lt]
    exact Nat.lt_of_lt_of_le (binaryOf binFile).digest.isLt (Nat.le_of_eq (by rw [show 256 = 2 ^ 8 from rfl, ← Nat.pow_mul]))
  have hi : (binaryOf binFile).images = [] := by decide +kernel
  have hb : (((cmd up1 (loadE 2 1 1 binFile snapImg)).load.job (binaryOf binFile)).applyImages).bin = binaryOf binFile := by
    simp [Job.applyImages, LoadCmd.job, hi]
  refine ⟨?_, by decide +kernel, by decide +kernel, by decide +kernel, ?_, ?_⟩
  · exact ⟨⟨by decide +kernel, by decide +kernel, rfl, by decide +kernel⟩, by decide +kernel, by decide +kernel⟩
  · simp only [State.snapBad, Bool.or_eq_false_iff]
    refine ⟨⟨⟨⟨⟨⟨⟨⟨⟨⟨⟨?_, ?_⟩, ?_⟩, ?_⟩, ?_⟩, ?_⟩, ?_⟩, ?_⟩, ?_⟩, ?_⟩, ?_⟩, ?_⟩
    case refine_4 => rw [hb, hd]; simp
    all_goals decide +kernel
  · exact ⟨_, by rfl⟩
/-! ### Assay, die bank, firmware, configuration, attestation (O11 to O13)

Signatures are checked by functions without a body (log 12): an item that verifies is a hypothesis of its witness. -/

/-- The bytes at a command's location in words 1 and 2. -/
def itemOf (s : State) (f : Fetch) : List Byte := s.locBytes (cmd s f) ((cmd s f).w 1) ((cmd s f).w 2) (cmd s f).data

/-- An entry that names `data` at its location. -/
def itemE (op : Nat) (data : List Byte) : Fetch := host op 0 [0x2000, 2 ^ 62 + data.length] data

def asySet : AssaySet := ⟨7, 1, false, true, true, 10, [⟨0, 0, false⟩], 0, bin1 []⟩
def up3 : State := { up1 with flash := { up1.flash with assay := [(0, asySet)] } }

def asyItem : List Byte :=
  leBytes 8 (0x41535359 * 2 ^ 32 + 9 * 2 ^ 16 + 1) ++ leBytes 8 (2 ^ 61 + 2 ^ 32 + 10 * 2 ^ 16) ++ leBytes 8 2624 ++ leBytes 8 0
    ++ binFile ++ List.replicate (32 + sigLen) 0

theorem wit_assayInstall (h : verifyItem (served up3 (itemE 0x0C asyItem)).eitherKeys 4 (itemOf up3 (itemE 0x0C asyItem)) = 0) :
    Ok up3 (itemE 0x0C asyItem) 0x0C ∧ up3.mod.flashGate = false
    ∧ (served up3 (itemE 0x0C asyItem)).installCode (itemOf up3 (itemE 0x0C asyItem)) = 0
    ∧ up3.flash.slotFor (assaySetOf (itemOf up3 (itemE 0x0C asyItem))).setId = some 1 := by
  refine ⟨⟨⟨by decide +kernel, by decide +kernel, rfl, by decide +kernel⟩, by decide +kernel, by decide +kernel⟩, rfl, ?_, by decide +kernel⟩
  have i1 : (assaySetOf (itemOf up3 (itemE 0x0C asyItem))).setId = 9 := by decide +kernel
  have i2 : (served up3 (itemE 0x0C asyItem)).assayBinaryBad (itemOf up3 (itemE 0x0C asyItem)) = false := by decide +kernel
  have i3 : (served up3 (itemE 0x0C asyItem)).flash.setById 9 = none := by decide +kernel
  have i4 : (served up3 (itemE 0x0C asyItem)).flash.slotFor 9 = some 1 := by decide +kernel
  have i5 : (served up3 (itemE 0x0C asyItem)).flash.slotOf 9 = none := by decide +kernel
  have i6 : (served up3 (itemE 0x0C asyItem)).flash.installs = [] := by decide +kernel
  simp [State.installCode, i1, h, i2, i3, i4, i5, i6]

theorem wit_assayCommands :
    (Ok up3 (host 0x0D 0 [7] []) 0x0D ∧ up3.flash.slotOf 7 = some 0 ∧ up3.flash.setById 7 = some asySet
      ∧ up3.erasedLately 0 = false)
    ∧ (Ok up3 (host 0x0E 0 [5] []) 0x0E ∧ up3.flash.setIds (·.demand) = [7]
      ∧ (served up3 (host 0x0E 0 [5] [])).requestCores 0 5 = some [5] ∧ up3.underRequest 5 = false)
    ∧ (Ok up3 (host 0x0E 0 [2 ^ 62 + 7 * 2 ^ 16 + 5] []) 0x0E ∧ (served up3 (host 0x0E 0 [2 ^ 62 + 7 * 2 ^ 16 + 5] [])).requestCores 1 5 = some [5]
      ∧ (up3.flash.setById 7).isSome = true) := by
  unfold Ok State.accepts State.takes; decide +kernel

/-- Core 5 belongs to no job and core 6 is under assay; core 7 is fenced. -/
def up6 : State := { up1 with
  cores := [(6, { CoreHw.reset with assay := true })]
  units := { up1.units with fenced := [unitKey 1 7] } }

theorem wit_dieBankCores : up1.isFenced 1 5 = false ∧ up6.coreHasJob 5 = false ∧ up6.underAssay 5 = false
    ∧ up6.underAssay 6 = true ∧ up6.isFenced 1 7 = true ∧ (∃ p, p < 576 ∧ up1.coreHasJob p = true) := by
  refine ⟨by decide +kernel, by decide +kernel, by decide +kernel, by decide +kernel, by decide +kernel, 0, ?_⟩; decide +kernel

/-- A die bank record of user version 3 without a user slot. -/
def bankItem : List Byte :=
  leBytes 4 0x44424E4B ++ leBytes 2 1 ++ leBytes 2 3 ++ List.replicate (56 + sigLen) 0

theorem wit_dieBank (h : verifyItem up1.eitherKeys 5 (itemOf up1 (itemE 0x0B bankItem)) = 0) :
    Ok up1 (itemE 0x0B bankItem) 0x0B ∧ up1.dieBankCode (itemOf up1 (itemE 0x0B bankItem)) = 0 := by
  refine ⟨⟨⟨by decide +kernel, by decide +kernel, rfl, by decide +kernel⟩, by decide +kernel, by decide +kernel⟩, ?_⟩
  have i1 : natAt (itemOf up1 (itemE 0x0B bankItem)) 0 4 = 0x44424E4B ∧ natAt (itemOf up1 (itemE 0x0B bankItem)) 6 2 = 3
      ∧ natAt (itemOf up1 (itemE 0x0B bankItem)) 12 4 = 0 ∧ natAt (itemOf up1 (itemE 0x0B bankItem)) 8 4 = 0
      ∧ (itemOf up1 (itemE 0x0B bankItem)).length = 64 + sigLen
      ∧ (bytesAt (itemOf up1 (itemE 0x0B bankItem)) 16 48).any (· ≠ 0) = false
      ∧ natAt (itemOf up1 (itemE 0x0B bankItem)) 4 2 = up1.running.head.builtin
      ∧ maskSlots 0 = [] := by decide +kernel
  obtain ⟨a, b, c, d, e, f, g, k⟩ := i1
  simp only [State.dieBankCode, h, a, b, c, d, e, f, g, k, recSlots]
  decide +kernel

theorem wit_dieBankRefused :
    (Ok up1 (itemE 0x0B []) 0x0B ∧ up1.mod.flashGate = false ∧ up1.dieBankCode (itemOf up1 (itemE 0x0B [])) = 0x0300 + 1)
    ∧ (Ok { up1 with mod := { up1.mod with flashGate := true } } (itemE 0x0B []) 0x0B
      ∧ ({ up1 with mod := { up1.mod with flashGate := true } }).mod.flashGate = true) := by
  unfold Ok State.accepts State.takes; decide +kernel

/-- A firmware image and a configuration record of type 3, with no body. -/
def fwItem : List Byte := leBytes 4 0x4657494D ++ List.replicate sigLen 0
def cfgItem : List Byte := leBytes 4 0x43464752 ++ leBytes 4 3 ++ leBytes 8 9 ++ List.replicate sigLen 0

theorem wit_fwStage (h : verifyItem (served up1 (itemE 0x0F fwItem)).tsuvikKeys 1 (itemOf up1 (itemE 0x0F fwItem)) = 0) :
    Ok up1 (itemE 0x0F fwItem) 0x0F ∧ up1.stageBusy = 0 ∧ (served up1 (itemE 0x0F fwItem)).imageCode (itemOf up1 (itemE 0x0F fwItem)) = 0 := by
  refine ⟨⟨⟨by decide +kernel, by decide +kernel, rfl, by decide +kernel⟩, by decide +kernel, by decide +kernel⟩, by decide +kernel, ?_⟩
  have i1 : natAt (itemOf up1 (itemE 0x0F fwItem)) 0 4 = 0x4657494D ∧ (itemOf up1 (itemE 0x0F fwItem)).length = 4 + sigLen
      ∧ (served up1 (itemE 0x0F fwItem)).flash.settled.head.svn = 0 := by decide +kernel
  obtain ⟨a, b, c⟩ := i1
  simp only [State.imageCode, h, a, b, c, Nat.not_lt_zero, if_false]
  decide

/-- A trial of an image, with another in slot B. -/
def up4 : State := { up1 with
  su := { up1.su with trial := true, fwStaging := some (⟨16, 0⟩, FwImage.shipped) }
  flash := { up1.flash with imgB := some FwImage.shipped } }
def svRec : SvRec := ⟨1, up1.flash.settled.head.digest, 5, true⟩
def up5 : State := { up4 with
  su := { up4.su with fwStaging := none }
  flash := { up4.flash with imgA := some { FwImage.shipped with sv := some svRec } } }

theorem wit_firmwareCommands :
    (up4.su.fwStaging = some (⟨16, 0⟩, FwImage.shipped) ∧ up4.mod.flashGate = false ∧ up4.ready = true)
    ∧ (Ok up5 (host 0x10 0 [] []) 0x10 ∧ up5.switchCode = 0)
    ∧ (Ok up4 (host 0x11 0 [] []) 0x11 ∧ up4.su.trial = true ∧ up4.appends = none)
    ∧ (Ok up5 (host 0x11 0 [] []) 0x11 ∧ up5.su.trial = true ∧ up5.mod.flashGate = false)
    ∧ (Ok up1 (host 0x13 0 [1, 2, 3, 4, 0x2000, 2 ^ 62 + 3584] []) 0x13 ∧ up1.su.identityOk = true
      ∧ 3584 ≤ bits ((cmd up1 (host 0x13 0 [1, 2, 3, 4, 0x2000, 2 ^ 62 + 3584] [])).w 6) 47 0) := by
  unfold Ok State.accepts State.takes; decide +kernel

theorem wit_fwCommitAppends : up5.appends = some svRec := by decide +kernel

theorem wit_configInstall (h : verifyItem (served up1 (itemE 0x12 cfgItem)).eitherKeys 3 (itemOf up1 (itemE 0x12 cfgItem)) = 0) :
    Ok up1 (itemE 0x12 cfgItem) 0x12 ∧ (served up1 (itemE 0x12 cfgItem)).configCode (itemOf up1 (itemE 0x12 cfgItem)) = 0 := by
  refine ⟨⟨⟨by decide +kernel, by decide +kernel, rfl, by decide +kernel⟩, by decide +kernel, by decide +kernel⟩, ?_⟩
  have i1 : cfgType (itemOf up1 (itemE 0x12 cfgItem)) = 3 ∧ natAt (itemOf up1 (itemE 0x12 cfgItem)) 0 4 = 0x43464752
      ∧ natAt (itemOf up1 (itemE 0x12 cfgItem)) 5 1 = 0 ∧ natAt (itemOf up1 (itemE 0x12 cfgItem)) 6 2 = 0
      ∧ (itemOf up1 (itemE 0x12 cfgItem)).length = 16 + sigLen ∧ look 3 (served up1 (itemE 0x12 cfgItem)).su.cfg = none
      ∧ (served up1 (itemE 0x12 cfgItem)).mod.flashGate = false
      ∧ (bytesAt (sigOf (itemOf up1 (itemE 0x12 cfgItem))) 6 2 ++ bytesAt (sigOf (itemOf up1 (itemE 0x12 cfgItem))) 3389 3).any
        (· ≠ 0) = false := by decide +kernel
  obtain ⟨a, b, c, d, e, f, g, k⟩ := i1
  simp only [State.configCode, a, b, c, d, e, f, g, k]
  simp [h]

/-! ### Resets, power and recovery (O14, O15) -/

def env0 : StartEnv := ⟨true, 0, true, 48000, none, [], [], [], [], [], [], (16, 5)⟩
def low : State := { State.reset with mod := { State.reset.mod with pwrEn := false } }
def rcv : State := { up with su := { up.su with phase := 0xE, rcv := { Recovery.reset with pieces := [(0, [])] } } }

theorem wit_resets : up1.mod.railsUp = true ∧ up1.su.teller = true ∧ up1.mod.mgmtUp = true
    ∧ Ok up1 (host 0x14 0 [] []) 0x14 := by
  unfold Ok State.accepts State.takes; decide +kernel

theorem wit_powerUp : low.mod.pwrEn = false ∧ (env0.mref = true ∧ 46000 ≤ env0.inMv ∧ env0.rail = none)
    ∧ ({ env0 with mref := false }).mref = false ∧ ({ env0 with inMv := 45999 }).inMv < 46000
    ∧ ({ env0 with rail := some ⟨31, 1, 650, true⟩ }).rail = some ⟨31, 1, 650, true⟩
    ∧ ({ env0 with rail := some ⟨32, 1, 1100, false⟩ }).rail = some ⟨32, 1, 1100, false⟩ := by decide

theorem wit_finish (item : List Byte) (h : rcv.recoveryImage = some item) :
    rcv.su.phase = 0xE ∧ rcv.su.rcv.pieces ≠ [] ∧ rcv.mod.flashGate = false
    ∧ { rcv with mod := { rcv.mod with flashGate := true } }.mod.flashGate = true
    ∧ ∃ x, rcv.recoveryImage = some x := ⟨rfl, by decide, rfl, rfl, item, h⟩
/-! ### Records of a step (O16 to O21) -/

/-- Job 1 at its second record, with the words given after STEP_BEGIN, in the middle of a step. -/
def running (ws : List W128) : State :=
  let j := job1 (rec0 1 :: ws ++ [rec0 2])
  let r := up1.openRun j ⟨0, some 1, 0, true, 16, 0, 0⟩
  { up1 with
    jobs := [j]
    runs := [{ r with order := 3, turns := [(0, 0)], slots := r.slots.map (fun x => { x with pc := 1, begun := true }) }] }

/-- The record issues and meets neither a fault nor poison. -/
def meets (op extra : Nat) (f : Ctx → Nat → RecOut) : Bool :=
  let s := running [BitVec.ofNat 128 (op * 2 ^ 120 + extra)]
  !s.armedHbm && (match s.issueAt 0 op with
    | some i => (f (s.ctx i.job i.run 0) i.rec_).fault.isNone && (f (s.ctx i.job i.run 0) i.rec_).consumed.isEmpty
    | none => false)

theorem wit_engineRecords : meets 0x03 0 doRng = true ∧ meets 0x40 0 doMillLoad = true ∧ meets 0x41 0 doMillPass = true
    ∧ meets 0x5B 0 doDrain = true ∧ meets 0x5C 0 doReduce = true ∧ meets 0x5D 0 doCheck = true := by decide +kernel

theorem wit_elementwiseRecords : meets 0x50 0 (doElem .add) = true ∧ meets 0x51 0 (doElem .sub) = true
    ∧ meets 0x52 0 (doElem .mul) = true ∧ meets 0x53 0 (doElem .mad) = true ∧ meets 0x54 0 (doElem .min) = true
    ∧ meets 0x55 0 (doElem .max) = true ∧ meets 0x56 0 (doElem .abs) = true ∧ meets 0x57 0 (doElem .neg) = true
    ∧ meets 0x58 0 (doElem .cvt) = true ∧ meets 0x59 0 (doElem .sel) = true ∧ meets 0x5A 0 (doElem .cmpge) = true := by
  decide +kernel

theorem wit_formerRecords : meets 0x60 (2 ^ 55) (guarded doEval) = true ∧ meets 0x61 (2 ^ 55) (guarded doSmaxAcc) = true
    ∧ meets 0x62 (2 ^ 55) (guarded doSmaxOut) = true ∧ meets 0x63 (2 ^ 55) (guarded doRms) = true := by decide +kernel

/-- A move, an atomic add, a contribution issue. -/
def issues (op : Nat) : Bool :=
  let s := running [rec0 op, rec0 (op + 1)]
  !s.armedHbm && (s.issueAt 0 op).isSome

theorem wit_dataMovements : (running [rec0 0]).issueAt 0 0x00 ≠ none ∧ issues 0x20 = true ∧ issues 0x22 = true
    ∧ issues 0x23 = true := by decide +kernel

/-- The run before its first record, and at its last. -/
def atFirst : State := { up1 with runs := [{ up1.openRun j1 ⟨0, some 1, 0, true, 16, 0, 0⟩ with turns := [(0, 0)] }] }
def atLast : State := running []

theorem wit_controlRecords : atFirst.controlAt 0 0x01 false ≠ none ∧ atLast.controlAt 0 0x02 true ≠ none := by decide +kernel

/-- A run with a movement and a drain in flight. -/
def flying : State :=
  let s := running []
  let f : Flight := ⟨1, 0x20, 0, [], [], 0, 0, 0, none⟩
  { s with runs := s.runs.map (fun r => { r with slots := r.slots.map (fun x => { x with flights := [f, { f with idx := 2, opcode := 0x5B }] }) }) }

theorem wit_flights : (∃ j r f, flying.flightAt 0 1 = some (j, r, f) ∧ isMove f.opcode = true)
    ∧ ∃ j r f, flying.flightAt 0 2 = some (j, r, f) ∧ flying.flightDone f = true ∧ (r.slot 0).inTurn f = true :=
  ⟨⟨_, _, ⟨1, 0x20, 0, [], [], 0, 0, 0, none⟩, by rfl, by decide⟩, ⟨_, _, ⟨2, 0x5B, 0, [], [], 0, 0, 0, none⟩, by rfl, by decide⟩⟩

/-- The contribution of a record, and the slot that it names on this device. -/
def contribOf (s : State) : Option (List (Nat × Nat) × Option Nat) :=
  (s.issueAt 0 0x70).map (fun i =>
    let k := (s.ctx i.job i.run 0).contrib i.rec_ i.rec2
    (k.consumed, i.job.slotOf k.shard k.lcore))

/-- Two shards on two devices, and a contribution to shard 1. -/
def sending : State :=
  let s := running [rec0 0x70, BitVec.ofNat 128 (0x71 * 2 ^ 120 + 2 ^ 79)]
  { s with jobs := s.jobs.map (fun j => { j with bin := { j.bin with header := setNth j.bin.header 1 (BitVec.ofNat 64 (2 ^ 39)) } }) }

theorem wit_contribution : contribOf (running [rec0 0x70, rec0 0x71]) = some ([], some 0)
    ∧ contribOf sending = some ([], none) := by decide +kernel

/-! ### A step from selection to posting (O22, O23) -/

def asked : State := { up1 with jobs := [{ j1 with queue := [⟨0, some 1, 0, true, 16, 0, 0⟩] }] }

theorem wit_stepSelect : asked.held = false ∧ asked.ready = true ∧ asked.runsAllow = true ∧ asked.boundaryDue = false
    ∧ asked.retireDue = false ∧ asked.chosen = some { j1 with queue := [⟨0, some 1, 0, true, 16, 0, 0⟩] } := by decide +kernel

/-- The run with all its slots ended, at an order, waiting for a recount or not. -/
def ended (order : Nat) (waiting : Bool) : Run :=
  let r := asked.openRun j1 ⟨0, some 1, 0, true, 16, 0, 0⟩
  { r with order := order, waiting := waiting, slots := r.slots.map (fun x => { x with begun := true, ended := true }) }
def after (order : Nat) (waiting : Bool) : State := { asked with runs := [ended order waiting] }

theorem wit_stepCheck : (after 5 false).job 1 ≠ none ∧ (after 5 false).run 1 = some (ended 5 false)
    ∧ (after 5 false).held = false ∧ (after 5 false).ready = true ∧ (ended 5 false).slots.all (·.ended) = true
    ∧ (ended 5 false).history = [] ∧ (ended 5 false).events = [] ∧ (ended 5 false).suspects = []
    ∧ (ended 5 false).agreed = [] ∧ (ended 5 false).traps = [] ∧ (ended 5 false).uncounted = false
    ∧ (ended 5 false).broken = false ∧ ({ ended 5 false with broken := true }).broken = true
    ∧ (∃ x ∈ (atLast.runs.flatMap (·.slots)), x.ended = false) ∧ (ended 5 false).counted < 5
    ∧ (∃ e ∈ [(⟨2, 1, 0, some 0, 0, 0, true, false⟩ : RunEvent)], e.recount = true) := by decide +kernel

theorem wit_stepPost : (after 7 false).run 1 = some (ended 7 false) ∧ (ended 7 false).broken = false
    ∧ (after 7 false).allVerified (ended 7 false) = true := by decide +kernel

theorem wit_recountRun : (after 5 true).run 1 = some (ended 5 true) ∧ (ended 5 true).poisoned = []
    ∧ (after 5 true).replacementDue (ended 5 true) = false ∧ (after 5 true).othersRun 1 = false
    ∧ ∀ p ∈ ((ended 5 true).again j1 ((after 5 true).nextHosts (ended 5 true)) (after 5 true).errSeq).hosts, p < 576 := by decide +kernel

/-! ### Events of a step and its boundary (O24) -/

/-- Job 1 whose end waits; a run whose region of descriptor 3 is poisoned; a core whose reload is named for the step. -/
def ending1 : State := { up1 with jobs := [{ j1 with ending := some (16, 0), regenDue := [3] }] }
def poisoned1 : State := { up1 with runs := [{ ended 5 true with poisoned := [(2, 0, 0, 3)] }] }
def naming : State := { atFirst with
  cores := [(0, { CoreHw.reset with scheduled := true, pending := true })]
  runs := atFirst.runs.map (fun r => { r with toSwitch := [0] }) }

theorem wit_stepEvents :
    (up1.held = false ∧ up1.ready = true ∧ up1.runs = [])
    ∧ ((after 3 false).run 1 = some (ended 3 false) ∧ (ended 3 false).order < 6 ∧ 9 < 10)
    ∧ up1.runs.find? (fun r => decide (r.order ≤ 5) && !r.waiting) = none
    ∧ (after 3 false).runs.find? (fun r => decide (r.order ≤ 5) && !r.waiting) = some (ended 3 false)
    ∧ (poisoned1.run 1 = some { ended 5 true with poisoned := [(2, 0, 0, 3)] } ∧ poisoned1.job 1 ≠ none)
    ∧ (ending1.run 1 = none ∧ 3 ∈ [3])
    ∧ (ending1.job 1 = some { j1 with ending := some (16, 0), regenDue := [3] } ∧ j1.snaps = [])
    ∧ ((naming.core 0).scheduled = true ∧ (naming.core 0).pending = true
      ∧ (naming.runs.find? (fun r => r.toSwitch.contains 0 && r.hosts.contains 0 && decide (r.order < 5) && r.history.isEmpty
        && !r.broken)).isSome = true
      ∧ naming.runs.all (fun r => r.slots.all (fun x => !x.former)) = true) := by decide +kernel
/-! ### Upkeep, assay and ageing (O25 to O27) -/

def blk (space : Nat) : MemLoc := ⟨1, space, 0, 64⟩
def worn : State := { up1 with
  chans := [(0, { Chan.reset with candidate := true, rewrite := [(1, 64, false)] })], spareGb := 1 }

theorem wit_memoryUpkeep :
    (up1.held = false ∧ up1.ready = true ∧ up1.job (blk 0).job.toNat = some j1)
    ∧ ((blk 2).space = 2 ∧ (worn.blockUnit 2 0 64).2 = 0 ∧ (worn.chan 0).rewrite = [(1, 64, false)] ∧ worn.job 1 = some j1)
    ∧ (worn.retireDue = true ∧ worn.quiet = true ∧ worn.candidates = [0])
    ∧ (worn.spareGb < 2 ∧ hbmFits worn.hbmBytes worn.jobs = true) ∧ up1.isFenced 5 3 = false := by decide +kernel

theorem wit_looseMemory : looseBlock ⟨0, 2, 1023, chanBlocks - 1⟩ = true ∧ looseBlock ⟨0, 0, 575, 65535⟩ = true
    ∧ looseBlock ⟨0, 1, 48, 131071⟩ = true ∧ up1.job 0 = none ∧ up1.isFenced 5 1023 = false
    ∧ { worn with jobs := [] }.job (blk 2).job.toNat = none := by decide +kernel

/-- Core 5 under assay by `asySet`. -/
def assayed : State := { up3 with
  asy := { up3.asy with jobs := [⟨5, .rotation, [], some asySet, true, false, false, none, 0⟩] } }

theorem wit_assayRotation : up3.asy.rotEn = true ∧ up3.newPass.asy.jobs = [] ∧ up3.newPass.rotationNext 1 = some 144
    ∧ (up3.newPass.flash.setIds (·.rotation)).filter (fun i => !up3.newPass.asy.late.contains i) = [7] := by decide +kernel

theorem wit_assayRun : (assayed.assayOf 5).isSome = true ∧ assayed.held = false ∧ assayed.ready = true
    ∧ (assayed.judge asySet 5 false true 0 (asySet.vecs.zip (assayed.runDigests 5 asySet ⟨[some 1], false⟩))).2 = some (0, 1)
    ∧ (assayed.judge asySet 5 false true 0 (asySet.vecs.zip (assayed.runDigests 5 asySet ⟨[some 0], false⟩))).2 = none ∧ asySet.vecs.length ≤ [(none : Option W128)].length := by decide +kernel

theorem wit_arrears : 1 ∉ up1.asy.promoted ∧ arrearsLimit 1 (nthD 0 up1.asy.arrLimit 1).toNat 1000 = some 1000
    ∧ arrearsLimit 3 (nthD 0 up1.asy.arrLimit 3).toNat 30000000 = some 30000000
    ∧ up1.mod.sagCap = false := by decide

/-- A mill that strikes blanks in the running step, and one that idles at a pass. -/
def striking : State := { running [rec0 0x41] with
  jobs := (running [rec0 0x41]).jobs.map (fun j => { j with bin := { j.bin with header := setNth j.bin.header 1 512 } }) }

theorem wit_idling : striking.runs.any (fun r => r.hosts.contains 0 && decide (r.order < 5)) = true
    ∧ striking.jobs.all (fun j => j.bin.strikes) = true ∧ (striking.issueAt 0 0x41).isSome = true
    ∧ (striking.setCore 0 { striking.core 0 with idle := true }).core 0 = { striking.core 0 with idle := true } := by
  decide +kernel

/-! ### Supply, temperature, sideband, relay (O29 to O34) -/

theorem wit_supply : up.mod.railsUp = true ∧ up.mod.powerOver = false
    ∧ ({ up.mod with powerCap := 800 }).powerCap = 800 ∧ 3200 < 3201 ∧ (46999 < 47000 ∧ 47000 ≤ 47000) ∧ 47500 < 47501
    ∧ (45499 < 45500 ∧ 45500 ≤ 45500) ∧ (43999 < 44000 ∧ up.mod.quiesced = false)
    ∧ (44000 ≤ 44000 ∧ ({ up.mod with quiesced := true }).quiesced = true) ∧ (57000 < 57001 ∧ up.mod.overVolt = false)
    ∧ (56000 ≤ 56000 ∧ ({ up.mod with overVolt := true }).overVolt = true) ∧ (31 < 32 ∧ 32 ≤ 32) := by decide

theorem wit_temperature :
    (alertAt 0 ≤ (840#16).toInt ∧ alertAt 1 ≤ (840#16).toInt ∧ alertAt 2 ≤ (760#16).toInt
      ∧ (up.senseAt 0 31 840).alerted 0 31 = false ∧ (up.senseAt 2 15 760).alerted 2 15 = false)
    ∧ ((344#16).toInt ≤ 360 - 16 ∧ (824#16).toInt ≤ alertAt 0 - 16) ∧ (360 < (361#16).toInt ∧ up.mod.coolAlert = false)
    ∧ (tripAt 0 ≤ (920#16).toInt ∧ tripAt 2 ≤ (840#16).toInt) ∧ (680 ≤ (680#16).toInt ∧ (655#16).toInt < 656) := by
  decide +kernel

theorem wit_sidebandAndI3c : up.mod.mgmtUp = true ∧ (sbReach 0x1FFC = true ∧ regAligned 0x1FFC = true)
    ∧ sbReach 0x2000 = false ∧ up.i3c.dynAddr = none ∧ ({ up.i3c with dynAddr := some 9 }).dynAddr ≠ none
    ∧ (0x61 : BitVec 7) ≠ 0x60 + up.mod.folioPos.setWidth 7 ∧ State.reset.mod.mgmtUp = false
    ∧ (regAligned 0x1FFE = false ∧ sbReach 0x1FFE = true) ∧ regAligned 0x4000000 = false := by decide

/-- A teller with a claimed member at position 2, device 9, beyond port 0; its own identifier record is in effect. -/
def telling : State := { up1 with
  su := { up1.su with cfg := [(2, CfgRec.shipped)] }
  ports := [(0, { Port.reset with state := .admitted, lanes := 0xFF, width := 8, credits := [24, 24, 16], granted := [24, 24, 16] })]
  tel := { up1.tel with folio := [(2, ⟨true, true, false, 9⟩)] } }

theorem wit_relay : regAligned 8 = true ∧ telling.hostLink = true ∧ telling.memberAt 3 = none ∧ telling.memberAt 2 = some 9
    ∧ telling.ownEgress 9 false = some 0 ∧ { telling with su := up1.su }.ownEgress 9 false = none
    ∧ { telling with su := up1.su }.memberAt 2 = some 9 ∧ State.reset.hostLink = false
    ∧ ({ Port.reset with tags := [⟨3, .relay 2, 0⟩] }).tagUse 3 = some (.relay 2)
    ∧ (∀ id, ({ Port.reset with tags := [⟨3, .int, 0⟩] }).tagUse 3 ≠ some (.relay id)) := by
  refine ⟨by decide +kernel, by decide +kernel, by decide +kernel, by decide +kernel, by decide +kernel, by decide +kernel,
    by decide +kernel, by decide +kernel, by decide +kernel, fun id h => ?_⟩
  have : ({ Port.reset with tags := [⟨3, .int, 0⟩] } : Port).tagUse 3 = some .int := by decide
  rw [this] at h; cases h

/-! ### Ports and what they receive (O35 to O38) -/

/-- `telling` with changes to port 0. -/
def atPort (f : Port → Port) : State := { telling with ports := [(0, f (telling.port 0))] }
/-- The header of a management flit with SEQ 0. -/
def mgmtHead : Nat := 3 * 2 ^ 92 + 15 * 2 ^ 51
def flit0 : TxFlit := { ftype := 1 }

theorem wit_link :
    ((telling.port 0).takes = true ∧ widthOf (0xFF &&& ~~~(BitVec.ofNat 8 (2 ^ 7))) = 6
      ∧ (0xFF &&& ~~~(BitVec.ofNat 8 (2 ^ 7)) : Byte) ≠ 0xFF ∧ widthOf ((0xF : Byte) &&& ~~~(BitVec.ofNat 8 (2 ^ 3))) = 0)
    ∧ (telling.trainable 11 = true ∧ widthOf ((0xFF : Byte) &&& 0x07) = 0 ∧ widthOf ((0xFF : Byte) &&& 0x0F) ≠ 0)
    ∧ (crc32 (bytesAt (List.replicate 256 0) 0 252) ≠ natAt (List.replicate 256 0) 252 4 ∧ 0 < 12)
    ∧ (State.reset.port 0).takes = false ∧ State.reset.trainable 0 = false ∧ ((0xF : Byte) &&& ~~~(BitVec.ofNat 8 (2 ^ 7))) = 0xF
    ∧ ((atPort (fun q => { q with discarding := true })).port 0).discarding = true ∧ nthD 0 ((atPort (fun q => { q with qlim := [] })).port 0).qlim 2 = 0
    ∧ ((linkHead mgmtHead).ftype = 3 ∧ (linkHead mgmtHead).bad = false ∧ (linkHead mgmtHead).seq = (telling.port 0).rxSeq)
    ∧ (telling.port 0).replayAck = none ∧ (telling.port 0).unacked = [] ∧ (State.reset.port 0).state ≠ .admitted
    ∧ (∀ f ∈ (telling.port 0).waiting, f.vc ≠ 0) ∧ (telling.port 0).tagUse 7 = none
    ∧ crc32 (bytesAt (List.replicate 252 0 ++ leBytes 4 (crc32 (List.replicate 252 0))) 0 252)
        = natAt (List.replicate 252 0 ++ leBytes 4 (crc32 (List.replicate 252 0))) 252 4
    ∧ ((atPort (fun q => { q with replayAck := some 3 })).port 0).replayAck = some 3
    ∧ ((atPort (fun q => { q with unacked := [flit0] })).port 0).unacked ≠ [] ∧ (telling.port 0).state = .admitted
    ∧ (∃ f ∈ ((atPort (fun q => { q with waiting := [flit0] })).port 0).waiting, f.vc = 0)
    ∧ ((atPort (fun q => { q with tags := [⟨4095, .int, 0⟩] })).port 0).tagUse 4095 = some .int := by decide +kernel

def hello0 : Hello := ⟨true, 9, 2, false, [], 0, [], [], false, [], [], []⟩
def inAuth (h : Option Hello) : State := atPort (fun q => { q with state := .auth, hello := h })

theorem wit_admission :
    (((inAuth none).port 0).state = .auth ∧ ((inAuth none).port 0).hello = none ∧ (inAuth none).helloOrder 0 hello0 ≠ 0)
    ∧ (((inAuth (some hello0)).port 0).state = .auth ∧ ((inAuth (some hello0)).port 0).hello = some hello0)
    ∧ (telling.admitted 0 = true ∧ telling.bindConflict 9 8 = false)
    ∧ { telling with fab := { telling.fab with binding := [(9, 7)] } }.bindConflict 9 8 = true
    ∧ (telling.su.teller = true ∧ ({ telling.su with teller := false }).teller = false)
    ∧ (State.reset.su.identityOk = false ∧ (telling.port 0).state ≠ .auth ∧ (inAuth none).su.identityOk = true)
    ∧ State.reset.admitted 0 = false ∧ (lookD FolioEnt.reset 2 telling.tel.folio).valid = true := by decide +kernel

/-- A partner whose chains verify passes the orders of admission (signatures: log 12). -/
theorem wit_admissionPasses (h : Hello) (hc : certsOk h = true) (hr : h.record = true)
    (hb : (inAuth none).bindConflict h.id.toNat (keyIdOf (certKeys h.cert)) = false) : (inAuth none).helloOrder 0 h = 0 := by
  have hf : ((inAuth none).port 0).floor = 0 := by decide +kernel
  simp [State.helloOrder, hc, hr, hb, hf]

/-- A transaction of a type at the head of its channel. -/
def got (ttype : Nat) : State :=
  atPort (fun q => { q with rxq := [⟨ttype, 3, 9, 0, 1, 1, 0, false, 0, 5, 0, 0, 0, 0, []⟩], tags := [⟨3, .int, 0⟩] })

theorem wit_receivedRequests : ∀ ttype ∈ [1, 2, 3, 4, 5, 6, 7, 8, 9, 10],
    (((got ttype).takeTxn 0 ttype).map (fun x => (x.1.ttype, (x.2.port 0).tagUse 3, (x.2.port 0).tagUse 4))) =
      some (ttype, some .int, none) := by decide +kernel

/-- A contribution of which transaction 0 waits to be sent again, and one that has landed. -/
def sendX (retry : List Nat) : Send := ⟨5, 1, 0, 0, 0, 0, 9, 0, 64, [], [], retry, false, .landed, none⟩

/-- Job 1 on the first of two shards; its slot waits for the contribution of shard 1. -/
def waitJob : Job :=
  let st := [rec0 1, BitVec.ofNat 128 (0x70 * 2 ^ 120), BitVec.ofNat 128 (0x71 * 2 ^ 120 + 2 ^ 19), BitVec.ofNat 128 (48 * 2 ^ 110), rec0 2]
  { job1 st with bin := { bin1 st with header := [0, BitVec.ofNat 64 (2 ^ 39), BitVec.ofNat 64 (2 ^ 48)] } }
def waiting : State :=
  let r := up1.openRun waitJob ⟨0, some 1, 0, true, 16, 0, 0⟩
  { up1 with
    jobs := [waitJob]
    runs := [{ r with order := 3, turns := [(0, 0)], slots := r.slots.map (fun x => { x with pc := 3, begun := true }) }] }

theorem wit_resends :
    ({ up1 with rings := [(20, { ringH 2 1 with host := false })] }.undelivered 20 { ringH 2 1 with host := false } = some 0)
    ∧ ({ up1 with fab := { up1.fab with sends := [sendX [0]] } }.send 5 = some (sendX [0]) ∧ (sendX [0]).retry ≠ [])
    ∧ ((sendX []).retry = [] ∧ ({ sendX [] with void := some 0 }).void = some 0 ∧ (sendX [0]).void = none ∧ (sendX []).state = .landed ∧ up1.sendDecided (sendX []) = true)
    ∧ (waiting.ready = true ∧ (waiting.run 1).isSome = true ∧ waiting.runs.all (fun r =>
        !r.waiting && !r.broken && ((waitJob.incoming r.template (fun _ => true)).find? (waiting.waitsFor waitJob r)).isSome)
          = true) := by decide +kernel
/-! ### Register pages (O39 to O43) -/

def fencedCore : State := { up1 with units := { up1.units with fenced := [unitKey 1 0] } }

theorem wit_pageControl : up1.takesWrite false (0x10 + 0) 0x0C = true ∧ up1.takesWrite false (0x10 + 11) 0x0C = true
    ∧ up1.takesWrite false 0x800 0x0C = true ∧ up1.takesWrite false 0xA3F 0x0C = true ∧ up1.takesWrite false 6 0x0C = true
    ∧ up1.takesWrite false 0 0x110 = true ∧ up1.takesWrite false 0x400 0x18 = true ∧ up1.takesWrite false (0x10 + 3) 0x104 = true
    ∧ (fencedCore.takesWrite false 0x800 0x18 = false ∧ fencedCore.takesWrite false 0x800 0x0C = true)
    ∧ (State.reset.takesWrite false (0x10 + 0) 0x0C = false ∧ State.reset.takesWrite false 0 0x110 = false
      ∧ State.reset.takesWrite false (0x10 + 3) 0x104 = false) := by decide +kernel

/-- The doorbell names a ring, TAIL or HEAD. -/
def bell (n : Nat) (head : Bool) : State := { up1 with
  ldg := { up1.ldg with dbRing := BitVec.ofNat 32 (n + (if head then 2 ^ 31 else 0)) }
  rings := up1.rings ++ [(20, { ringH 2 1 with host := false, job := 0 })] }

theorem wit_doorbell :
    ((bell 16 true).takesWrite false 3 0x104 = true ∧ bits (bell 16 true).ldg.dbRing.toNat 19 0 = 16
      ∧ (bell 16 true).ring 16 = some (ringH 0 1) ∧ (bell 16 true).ldg.dbRing.getLsbD 31 = true
      ∧ ((1 : W32) - (ringH 0 1).head).toNat ≤ (ringH 0 1).used ∧ (ringH 0 1).used < ((2 : W32) - (ringH 0 1).head).toNat)
    ∧ ((bell 16 false).ldg.dbRing.getLsbD 31 = false ∧ (ringH 0 1).kind ≠ 2
      ∧ ((64 : W32) - (ringH 0 1).head).toNat ≤ (ringH 0 1).size ∧ (ringH 0 1).size < ((65 : W32) - (ringH 0 1).head).toNat)
    ∧ ((bell 20 false).ring 20 = some { ringH 2 1 with host := false, job := 0 } ∧ (bell 20 false).ldg.dbRing.getLsbD 31 = false)
    ∧ (bits (bell 2 false).ldg.dbRing.toNat 19 0 ≤ 2 ∧ (bell 99 false).ring 99 = none) := by decide +kernel

theorem wit_ledger : up1.takesWrite false 3 0x120 = true ∧ up1.ring 2 = some (ring0 4 0 []) ∧ up1.takesWrite false 3 0x258 = true
    ∧ up1.ring 1 = some (ring0 1 0 []) ∧ up1.takesWrite false 3 0x124 = true ∧ up1.takesWrite false 3 0x240 = true
    ∧ up1.ring 0 = some (ring0 0 0 []) ∧ (ring0 0 0 []).full = false ∧ (1 : W32).getLsbD 0 = true
    ∧ up1.pageOpen false 3 = true := by decide +kernel

theorem wit_recoveryAndForwarding : rcv.su.phase = 0xE ∧ up1.su.phase ≠ 0xE ∧ up1.takesWrite false 0 0x154 = true
    ∧ up1.pageOpen false 0 = true := by decide +kernel

theorem wit_countersAndMonitors :
    (regAligned 0x10164 = true ∧ 0x164 ≠ 0x1C ∧ 0x164 ≠ 0x30) ∧ up1.pageOpen false (0x10164 / 4096) = true
    ∧ pairOf (up1.pageType (0x10164 / 4096)) (0x10164 % 4096) = some (0x164, true)
    ∧ (up1.pageType (0x6400 / 4096) = 7 ∧ up1.takesWrite false (0x6400 / 4096) (0x6400 % 4096) = true)
    ∧ (winPair 0x400 = some (0x400, true) ∧ winPair 0x404 = some (0x400, false) ∧ winPair 0xBEC = some (0xBE8, false))
    ∧ (0xA3F < 0xA40 ∧ up1.pageOpen false 0xA3F = true) ∧ up1.takesWrite false 0x80 0x20 = true
    ∧ up1.takesWrite false 0x80 0x24 = true ∧ up1.takesWrite false 5 0x100 = true
    ∧ (up1.mod.railsUp = true ∧ 0 < monQuantities (up1.pageType 0x80)) := by decide +kernel

theorem wit_windows : up1.takesWrite false 2 0x110 = true ∧ up1.takesWrite false (0x800 + 0) 0x120 = true
    ∧ (coreItem (up1.shownSlot 0) 0).isSome = true ∧ coreItem (up1.shownSlot 0) 0xFF000000 = none
    ∧ (up1.takesWrite false 6 (0x100 + 4 * 0) = true ∧ up1.takesWrite false 6 (0x100 + 4 * 15) = true)
    ∧ ((lookD FolioEnt.reset 2 telling.tel.folio).valid = true ∧ (8 : W32).setWidth 16 ≠ (lookD FolioEnt.reset 2 telling.tel.folio).id)
    ∧ (lookD FolioEnt.reset 15 telling.tel.folio).valid = false
    ∧ (up1.pageOpen false 6 = true ∧ up1.su.teller = true) ∧ (regAligned 0x18 = true ∧ up1.takesWrite false 0 0x18 = true)
    ∧ State.reset.takesWrite false 0 0x18 = false ∧ 2047 < 2048 := by decide +kernel

/-! ### Whole-machine statements (O2, O4, O5, O44 to O47, O58) -/

theorem wit_idle : State.reset.pending = [] ∧ State.reset.mod.mgmtUp = false ∧ State.reset.mod.railsUp = false
    ∧ up.pending = [] ∧ up.mod.mgmtUp = true ∧ up.mod.railsUp = true := by decide

theorem wit_stepKeeps : State.reset.Inv ∧ ∃ t, step State.reset = .next t := ⟨⟨by decide, by decide⟩, _, rfl⟩

theorem wit_commandsLeaveQueue : up1.memWf = true ∧ ∃ t, exec .enec up1 = .next t := ⟨by decide +kernel, _, rfl⟩

theorem wit_frames : (Instr.add 0 .ok).movesPlacement = false ∧ (Instr.enec).touchesWork = false
    ∧ (∃ t, exec (.add 0 .ok) up1 = .next t) ∧ ∃ t, exec .enec up1 = .next t := ⟨rfl, rfl, ⟨_, rfl⟩, ⟨_, rfl⟩⟩

theorem wit_escrow : (Instr.add 0 .ok).issues = some (0, .ok) ∧ (running [rec0 0x50]).armedHbm = false
    ∧ (∃ t, exec (.add 0 .ok) (running [rec0 0x50]) = .next t)
    ∧ (∃ t, exec (.recordComplete 0 2) flying = .next t) ∧ ∃ t, exec (.moveLands 0 1 .ok) flying = .next t :=
  ⟨rfl, by decide +kernel, ⟨_, rfl⟩, ⟨_, rfl⟩, ⟨_, rfl⟩⟩

theorem wit_held : ({ up1 with mod := { up1.mod with quiesced := true } }).held = true ∧ State.reset.ready = false
    ∧ (Instr.add 0 .ok).issues = some (0, .ok) := by decide

theorem wit_recountHolds : (∃ r ∈ (after 5 false).runs, r.order < 6) ∧ ∃ r ∈ (after 6 true).runs, r.waiting = true :=
  ⟨⟨ended 5 false, by simp [after], by decide +kernel⟩, ⟨ended 6 true, by simp [after], by decide +kernel⟩⟩

/-! ### Values, memories, events (O49 to O57) -/

theorem wit_values : 0 < 2 ∧ (isBlock .bp8 = true ∧ isBlock .bp4 = true) ∧ (0xFF < 256 ∧ 0xDF ≤ 0xDF ∧ 0x1F ≤ 0x1F ∧ 0xE0 ≤ 0xE0)
    ∧ ((decodePosit 0 8 2).cls = .zero ∧ (decodePosit 0x80 8 2).cls = .invalid ∧ (decodePosit 0x40 8 2).cls = .finite)
    ∧ (decodeCode .p16 0).cls = .zero ∧ (decodeCode .p16 0x4000).cls = .finite := by decide +kernel

theorem wit_exact : (decodeCode .p16 0x4000).exact ∧ (decodeCode .p16 0xC000).exact ∧ (decodeCode .p16 0).exact := by
  unfold Val.exact; decide +kernel

theorem wit_laneSum : (0 < 1 ∧ 0 < 8) ∧ [(1, 2), (3, 4)].Perm [(3, 4), (1, 2)] := ⟨by decide, List.Perm.swap _ _ _⟩

theorem wit_memories : (⟨[(3, 7), (64, 1)], [2]⟩ : Mem).wf = true
    ∧ (⟨[(3, 0), (5, 9)], []⟩ : Shadow).cells.Pairwise (fun x y => x.1 < y.1) := by decide

theorem wit_events : up1.ring 2 = some (ring0 4 0 []) ∧ ((ring0 4 0 []).tail - (ring0 4 0 []).head).toNat ≠ 65536
    ∧ ((ring0 4 65536 []).tail - (ring0 4 65536 []).head).toNat = 65536
    ∧ { up1 with rings := [(2, ring0 4 65536 [])] }.ring 2 = some (ring0 4 65536 [])
    ∧ (up1.dev.summaryPrev = 0 ∧ ({ up1.dev with evtIrq := 0x80000000 }).evtIrq.getLsbD 31 = true
      ∧ { up1 with pages := [(1, { Page.reset with evtStatus := 1, evtEnable := 1 })] }.evtSummary ≠ 0) := by decide +kernel
/-! ### What a port receives (O37, O60) -/

/-- A transaction from device 9 for job 1. -/
def txn0 (ttype : Nat) : Txn := ⟨ttype, 3, 9, 0, 1, 4, 0, false, 0, 0, 0, 0, 0, 0, []⟩
/-- The state with that transaction received at port 0. -/
def inbox (s : State) (t : Txn) : State :=
  { s with ports := [(0, { telling.port 0 with rxq := [t], tags := [⟨3, .int, 0⟩] })] }
/-- What the state answers when the transaction is taken. -/
def taken {α : Type} (s : State) (t : Txn) (f : State → α) : Option α := ((inbox s t).takeTxn 0 t.ttype).map (fun x => f x.2)

/-- Device 9 may read one page of host memory through the teller. -/
def winning : State := { telling with tel := { telling.tel with wins := [(2, ⟨0x1000, 0x1000, true, true⟩)] } }
/-- A member of teller 9, and job 1 that waits for shard 1. -/
def member : State := { telling with su := { telling.su with teller := false }, fab := { telling.fab with claim := some 9 } }

theorem wit_reads :
    taken telling { txn0 1 with space := 4 } (fun u => u.fromTeller (txn0 1)) = some false
    ∧ taken winning { txn0 1 with space := 3, addr := 0x1000 } (fun u => (u.isMember 9, u.hostWindow false 0x1000 64))
      = some (true, true)
    ∧ taken winning { txn0 1 with space := 3, addr := 0x1FC1 } (fun u => (u.isMember 9, u.hostWindow false 0x1FC1 64))
      = some (true, false)
    ∧ taken winning { txn0 1 with space := 3, addr := 0x1FC0 } (fun u => (u.isMember 8, u.hostWindow true 0x1FC0 64))
      = some (false, true)
    ∧ taken waiting (txn0 1) (fun u => (u.job 1 == some waitJob, u.job 2 == none)) = some (true, true)
    ∧ taken waiting (txn0 1) (fun u => ([0, 1, 2 ^ 32 - 1].map (fun n => match u.stepAt waitJob n with
        | .now _ => 0 | .ahead => 1 | .behind => 2))) = some [0, 1, 2] := by decide +kernel

/-- A peer ring of job 1 and device 9, an entry of it, and its doorbell. -/
def peered : State := { telling with rings := telling.rings ++ [(20, { ringH 2 1 with host := false, peerDev := 9 })] }

theorem wit_ringTransactions :
    taken peered { txn0 6 with addr := 20 } (fun u => (u.ring 20).map (fun r => (r.kind, r.host, r.peerDev, r.job)))
      = some (some (2, false, 9, 1))
    ∧ taken peered { txn0 6 with addr := 20 } (fun u => (u.ring 20).map (fun r =>
        (decide (r.size < ((65 : W32) - r.head).toNat), decide (((64 : W32) - r.head).toNat ≤ r.size)))) = some (some (true, true))
    ∧ taken peered { txn0 6 with addr := 16 } (fun u => (u.ring 16).map (fun r => (r.kind, r.host))) = some (some (0, true))
    ∧ taken peered { txn0 6 with addr := 99 } (fun u => u.ring 99) = some none
    ∧ taken peered { txn0 7 with addr := 20, data := leBytes 8 (2 ^ 32 + 1) } (fun u => (u.ring 20).map (fun r =>
        (r.job, (r.tail + BitVec.ofNat 32 r.ahead.length).toNat, u.cplOpen r))) = some (some (1, 1, true))
    ∧ natAt (leBytes 8 (2 ^ 32 + 1)) 4 2 = 1 ∧ natAt (leBytes 8 (2 ^ 32 + 1)) 0 4 = 1
    ∧ taken peered { txn0 7 with addr := 20, data := leBytes 8 2 } (fun u => (u.ring 20).map (fun r => decide (r.tail = 2)))
      = some (some false)
    ∧ taken telling (txn0 5) (fun u => ((u.port 0).tagUse 3, (u.port 0).tagUse 4)) = some (some .int, none)
    ∧ taken telling (txn0 0xA) (fun u => (u.isMember 9, u.isMember 8)) = some (true, false) := by decide +kernel

/-- The device that hosts shard 1 of the job (log 18), and its contribution. -/
def src1 : Nat := Config.shardDevice 1 1
def x1 : Incoming := ⟨1, 0, 0, 0, 0x70 * 2 ^ 120, 0x71 * 2 ^ 120 + 2 ^ 19⟩
def data1 : Txn := { txn0 2 with src := src1 }
def landed1 : List (Nat × Nat × Byte) := (List.range 4).map (fun a => (0, a, 0))
def csgn1 (d : Nat) : Txn := { txn0 8 with
  src := src1, data := leBytes 16 ((x1.csgn waitJob landed1).toNat + d) ++ leBytes 8 4 }
def recv1 : Recv := { x1.fresh waitJob (csgn1 0) 0 with landed := landed1, complete := true }

theorem named1 (t : Txn) (n : Nat) (h : t.src = src1) : waitJob.named 0 t n =
    ((waitJob.incoming 0 (fun sh => decide (sh = 1))).find?
      (fun x => decide (x.ordinal = t.contrib) && x.reach waitJob t n)) := by
  have h1 : fromDevice waitJob t.src 1 = true := by rw [h]; simp [fromDevice, src1, show waitJob.num = 1 from rfl]; decide +kernel
  have h0 : fromDevice waitJob t.src 0 = false := by
    simp [fromDevice, show waitJob.hostsShard 0 = true by decide +kernel]
  have hs : waitJob.bin.shards = 2 := by decide +kernel
  have hi : waitJob.incoming 0 (fromDevice waitJob t.src) = waitJob.incoming 0 (fun sh => decide (sh = 1)) := by
    have : (List.range 2).filter (fromDevice waitJob t.src) = (List.range 2).filter (fun sh => decide (sh = 1)) := by
      simp [List.range_succ, h1, h0]
    simp only [Job.incoming, hs, this]
  simp only [Job.named, hi]

theorem wit_contributionNamed :
    (waitJob.named 0 data1 1).map (fun x => (x.mode waitJob, x.bytes waitJob data1 [] == landed1, x.count waitJob)) = some (0, true, 4)
    ∧ waitJob.named 0 { data1 with contrib := 1 } 1 = none ∧ waitJob.named 0 (csgn1 0) 1 = some x1
    ∧ waitJob.ofJob src1 = true ∧ ∃ dev, waitJob.ofJob dev = false := by
  have hs : waitJob.bin.shards = 2 := by decide +kernel
  refine ⟨?_, ?_, ?_, ?_, Config.shardDevice 1 0 + Config.shardDevice 1 1 + 1, ?_⟩
  · rw [named1 _ _ rfl]; decide +kernel
  · rw [named1 _ _ rfl]; decide +kernel
  · rw [named1 _ _ rfl]; decide +kernel
  · rw [Job.ofJob, hs]
    simp [List.range_succ, fromDevice, src1, show waitJob.num = 1 from rfl, show waitJob.hostsShard 1 = false by decide +kernel]
  · rw [Job.ofJob, hs]
    simp [List.range_succ, fromDevice, show waitJob.num = 1 from rfl, show waitJob.hostsShard 0 = true by decide +kernel]
    omega

theorem wit_countersign : { waiting with fab := { waiting.fab with recvs := [recv1] } }.recvOf x1 (csgn1 0) = some recv1
    ∧ waiting.recvOf x1 (csgn1 0) = none ∧ (recv1.attempt = 0 ∧ recv1.voided = false ∧ recv1.complete = true)
    ∧ BitVec.ofNat 128 (natAt (csgn1 0).data 0 16) = x1.csgn waitJob recv1.landed
    ∧ natAt (csgn1 0).data 16 8 = x1.count waitJob
    ∧ BitVec.ofNat 128 (natAt (csgn1 1).data 0 16) ≠ x1.csgn waitJob recv1.landed
    ∧ ((txn0 9).attempt + 4 - 1) % 4 = 3 ∧ (txn0 9).status ≠ 1 := by
  refine ⟨?_, rfl, ⟨rfl, rfl, rfl⟩, ?_, ?_, ?_, rfl, by decide⟩
  · simp [State.recvOf, Incoming.is, recv1, Incoming.fresh, csgn1]
  all_goals decide +kernel

/-! ### Sides of the statements that leave the state alone -/

theorem wit_noEffect : State.reset.takesWrite false 0x10 0x0C = false ∧ { up1 with ports := [(0, { Port.reset with state := .host })] }.jexlet 0 = false ∧ telling.jexlet 1 = true
    ∧ up1.isFenced 1 3 = false ∧ fencedCore.isFenced 1 0 = true ∧ up1.pageType 0x10 = 8 ∧ up1.pageType 0x800 = 0xB
    ∧ up1.pageType 0x80 = 0xA ∧ up1.pageType 0x400 = 0xC ∧ up1.pageType 3 ∉ [8, 0xA, 0xB, 0xC]
    ∧ up3.flash.setIds (·.demand) ≠ [] ∧ up1.flash.setIds (·.demand) = [] ∧ up1.dev.stage = none := by
  decide +kernel
/-! ### Clauses over several cases (O2, O10, O20, O22, O23, O26, O29, O33, O37, O43, O55, O60) -/

theorem wit_idleSwitch : ∃ v, { up with su := { up.su with revert := some ⟨false, 0, ⟨16, 0⟩, 0, 0⟩ } }.su.revert = some v
    ∧ up.su.revert = none ∧ up.pending = [] := ⟨_, rfl, rfl, rfl⟩

theorem wit_snapMismatch : (cmd up1 (loadE 2 0 1 binFile [])).load.snap = true
    ∧ (served up1 (loadE 2 0 1 binFile [])).snapBad (cmd up1 (loadE 2 0 1 binFile [])).load
        ((cmd up1 (loadE 2 0 1 binFile [])).load.job (binaryOf binFile)).applyImages [] = true
    ∧ (served up1 (loadE 2 0 1 binFile [])).loadCheck (cmd up1 (loadE 2 0 1 binFile [])) = 0
    ∧ (served up1 (loadE 2 0 1 binFile [])).loadReject (cmd up1 (loadE 2 0 1 binFile [])).load binFile = none
    ∧ Ok up1 (loadE 2 0 1 binFile []) 1 := by
  unfold Ok State.accepts State.takes; decide +kernel

/-- Two moves in flight, of which the second is not in turn, and a contribution to this device that has ended streaming. -/
def flight0 : Flight := ⟨1, 0x20, 0, [], [], 0, 0, 0, none⟩
def queueing : State :=
  let s := running [rec0 0x70, rec0 0x71]
  { s with
    fab := { s.fab with recvs := [{ (⟨0, 0, 0, 0, 0, 0⟩ : Incoming).fresh j1 (⟨2, 0, 0, 0, 1, 0, 0, false, 0, 0, 0, 0, 0, 0, []⟩ : Txn) 0 with
      own := some 0 }] }
    runs := s.runs.map (fun r => { r with slots := r.slots.map (fun x => { x with
      flights := [flight0, { flight0 with idx := 2 }, { flight0 with idx := 1, opcode := 0x70 }] }) }) }

theorem wit_moveOrder : (queueing.runs.all (fun r => (r.slot 0).inTurn flight0 && !(r.slot 0).inTurn { flight0 with idx := 2 })) = true
    ∧ isMove flight0.opcode = true := by decide +kernel

theorem wit_ownContribution : queueing.runs.all (fun r => (queueing.flightAt 0 1).isSome
      && queueing.flightDone { flight0 with idx := 1, opcode := 0x70 } && (r.slot 0).inTurn { flight0 with idx := 1, opcode := 0x70 }
      && queueing.jobs.all (fun j => (queueing.ownAt j r 0 (sendOrdinal (segment (j.streamOf 0) r.template).2
        (1 - (segment (j.streamOf 0) r.template).1))).isSome)) = true
    ∧ queueing.jobs ≠ [] ∧ queueing.runs ≠ [] := by decide +kernel

theorem wit_checksAndPosts : (after 5 false).asy.jobs = []
    ∧ ∀ v ∈ (after 7 false).fab.recvs, v.ofStep (ended 7 false) = true → v.verified = true :=
  ⟨rfl, fun v h => absurd (show v ∈ [] from h) (List.not_mem_nil)⟩

/-- The flash gate closed, with the queue full. -/
def gated : State := { up1 with
  mod := { up1.mod with flashGate := true }
  flash := { up1.flash with queue := [.config 3 CfgRec.shipped (2 ^ 24)] } }

theorem wit_ageing : ({ up1.mod with sagCap := true }).sagCap = true ∧ up1.mod.sagCap = false
    ∧ (up1.flashWrite (.ageing [(0, 0)])).2 = true ∧ (gated.flashWrite (.ageing [(0, 0)])).2 = false
    ∧ (3 ∉ up1.asy.promoted ∧ arrearsLimit 3 (nthD 0 (up1.noteItem 3 30000000).asy.arrLimit 3).toNat
      ((up1.noteItem 3 30000000).arrears 3) = some 30000000)
    ∧ arrearsLimit 3 (nthD 0 (up1.noteItem 3 0).asy.arrLimit 3).toNat ((up1.noteItem 3 0).arrears 3) = none := by decide +kernel

theorem wit_recoveryWaits : (rcv.setRcv { rcv.su.rcv with waiting := some env0 }).su.rcv.waiting = some env0
    ∧ up1.su.rcv.waiting = none ∧ up1.mod.episode = none ∧ (3200 ≤ 3200 ∧ 47500 ≤ 47500 ∧ 45500 ≤ 45500 ∧ 57000 ≤ 57000
      ∧ 56000 < 56001) := ⟨rfl, rfl, rfl, by decide⟩

theorem wit_relayOpen : (⟨2, 2, false, 8, none⟩ : Relay) ∈ [(⟨1, 2, true, 8, none⟩ : Relay), ⟨2, 2, false, 8, none⟩]
    ∧ (⟨2, 2, false, 8, none⟩ : Relay).id ≠ 1 ∧ (⟨2, 2, false, 8, none⟩ : Relay).answer = none := by decide

theorem wit_windowOfTheStep :
    (waitJob.incoming 0 (fun _ => true)).any (fun x => x.reach waitJob { data1 with ttype := 1 } 1) = true
    ∧ (waitJob.incoming 0 (fun _ => true)).any (fun x => x.reach waitJob { data1 with ttype := 1, space := 2 } 1) = false := by
  decide +kernel

theorem wit_msix : (up.configure ⟨0, 0, true, 128, 512, false, false⟩).tel.pcie.d3hot = true ∧ up.tel.pcie.d3hot = false
    ∧ ({ up with tel := { up.tel with pend := [7] } }).tel.pend.contains 7 = true ∧ up.tel.pend.contains 7 = false := by
  decide +kernel

theorem wit_posting : Shadow.empty.cells.Pairwise (fun x y => x.1 < y.1) ∧ (∀ e ∈ Shadow.empty.cells, e.1 ≠ 3)
    ∧ (3, 0) ∈ (⟨[(3, 0), (5, 9)], []⟩ : Shadow).cells ∧ (∀ e ∈ (⟨[(3, 0), (5, 9)], []⟩ : Shadow).cells, e.1 ≠ 4) := by
  decide

theorem wit_firstLanding : waiting.runs.all (fun r => waiting.wayArmed 0 x1.slot r data1 == none) = true ∧ waiting.runs ≠ []
    ∧ waiting.recvOf x1 data1 = none ∧ (data1.space < 3 ∧ x1.mode waitJob = 0) := by
  refine ⟨by decide +kernel, by decide +kernel, rfl, by decide +kernel⟩
/-! ### Worked values of the spec -/

/-- Table 2-8. -/
theorem test_expansions : expand .p16 0x4A3C 0 = 0x801A3C ∧ expand .p16 0xB5C4 0 = 0xC01A3C
    ∧ expand .bp8 0x5A 0xFB = 0xBFEA00 ∧ expand .bp6 0x1B 3 = 0x806C00 ∧ expand .bp4 0xB 1 = 0xC01C00
    ∧ expand .i8 0x9C 0x20 = 0xC02C80 ∧ expand .fp16 3 0 = 0xBE9C00 ∧ expand .p8 0x80 0 % 2 ^ 25 = 0x1800000 := by decide +kernel

/-- Chapter 2's tally drained to P8: 1.0625 + 2^−40 by rto to P32, by rne to P8. -/
theorem test_drained : (encode .p32 .rto ⟨.finite, false, 17 * 2 ^ 36 + 1, 2 ^ 40⟩).code = 0x40800001
    ∧ (encode .p8 .rne (decodeCode .p32 0x40800001)).code = 0x41
    ∧ (encode .p8 .rne (decodeCode .p32 0x40800000)).code = 0x40 := by decide +kernel

/-- Chapter 6's reciprocal of P16 0x4A3C. -/
theorem test_recip : packInternal (decodeCode .p16 0x4A3C).toFrac = 0x400347800000
    ∧ packInternal (dieEval 4 recipDie (decodeCode .p16 0x4A3C).toFrac) = 0x5FFD903847E9
    ∧ (encode .p16 .rne (Val.ofFrac (dieEval 4 recipDie (decodeCode .p16 0x4A3C).toFrac))).code = 0x3482 := by decide +kernel

/-- Chapter 7's activation row: 12 / 127 by p8_ceil, and its I8 and BP8 codes. -/
theorem test_activationRow : p8Ceil ⟨12, 127⟩ = 0x25
    ∧ ([(9625, 1000), (325, 100), (3125, 100000), (145, 10)].map (fun x => (encodeI8 0x25 ⟨.finite, x == (325, 100), x.1, x.2⟩).code))
      = [0x5F, 0xE0, 0x00, 0x7F]
    ∧ ([(9625, 1000), (325, 100), (3125, 100000), (145, 10)].map (fun x =>
        (encodeBlockElem .bp8 0 ⟨.finite, x == (325, 100), x.1, x.2⟩).code)) = [0x5A, 0xB3, 0x1C, 0x5E] := by decide +kernel

/-- Chapter 9's HBM offset, and chapter 1's map of a module without fences. -/
theorem test_placement : State.reset.channelOf 0x100500000 = 128 ∧ nthD 0 State.reset.lmap 208 = 234
    ∧ nthD 0 State.reset.lmap 511 = 573 := by decide +kernel

/-- RFC 8439, section 2.3.2, which R241 names. -/
theorem test_chacha : (chachaBlock [0x03020100, 0x07060504, 0x0b0a0908, 0x0f0e0d0c, 0x13121110, 0x17161514, 0x1b1a1918, 0x1f1e1d1c]
    1 0x09000000 0x4a000000 0).take 2 = [0xe4e7f110, 0x15593bd1] := by decide +kernel

/-- R60 and Table 1-8. -/
theorem test_rounding : roundInt 5 2 .rne = 2 ∧ roundInt 7 2 .rne = 4 ∧ roundInt 9 4 .rto = 3 ∧ roundInt 8 4 .rto = 2 := by decide
theorem test_powerCap : nextPowerCap 1500 3151 = 1475 ∧ nextPowerCap 1500 3150 = 1500 ∧ nextPowerCap 1500 2999 = 1525
    ∧ nextPowerCap 810 4000 = 800 ∧ nextPowerCap 1800 0 = 1800 := by decide

/-- R8: HBM capacity in decimal GB, tills and vault in binary units. -/
theorem test_sizes : spaceSize 2 = 1008000000000 ∧ spaceSize 1 = 512 * 1024 * 1024 ∧ spaceSize 0 = 4096 * 1024
    ∧ hbmFits (10 ^ 9) [] = true := by decide +kernel

/-- Table 9-9: the NaR of T256 in either operand of an atomic add, and the sum of 1 and −1. -/
theorem test_atomNaR : atomT256 (2 ^ 255) 7 = 2 ^ 255 ∧ atomT256 0 (2 ^ 255) = 2 ^ 255 ∧ atomT256 (2 ^ 254) (3 * 2 ^ 254) = 0 := by
  decide +kernel

/-! ### One step each -/

/-- A field of the next state that a command answers. -/
def outcome {α : Type} (o : Host.Outcome State Fault Refusal) (f : State → α) : Option α :=
  match o with
  | .next t => some (f t)
  | _ => none

/-- RING_ALLOC takes the lowest free number from 16 up. -/
theorem test_ringAlloc : outcome (exec (.ringAlloc (host 6 1 [0x2000, 2 ^ 62 + 32] descr)) up1) (fun t => t.rings.map (·.1))
    = some [0, 1, 2, 16, 17, 18] := by decide +kernel

/-- STEP_BEGIN opens the segment, and the step is at order 3; STEP_END of the last slot takes it to order 5. -/
theorem test_control : outcome (exec (.stepBegin ⟨0, .ok⟩) atFirst) (fun t => t.runs.map (fun r => (r.order, (r.slot 0).pc, (r.slot 0).begun)))
      = some [(3, 1, true)]
    ∧ outcome (exec (.stepEnd ⟨0, .ok⟩) atLast) (fun t => t.runs.map (fun r => (r.order, (r.slot 0).ended))) = some [(5, true)] := by
  decide +kernel

/-- A step that posts moves the step counter and the generation on, and its run is gone. -/
theorem test_stepPost : outcome (exec (.stepPost 1) (after 7 false)) (fun t => (t.jobs.map (fun j => (j.step, j.gen)), t.runs.length))
    = some ([(1, 1)], 0) := by decide +kernel

/-- Below 44.0 V the module quiesces: alert cause bits 0 to 2, ALERT_N, nothing issues. -/
theorem test_quiesce : outcome (exec (.quiesce 43999) up1) (fun t => (t.mod.quiesced, t.held)) = some (true, true)
    ∧ outcome (exec (.flashGateClose 46999) up1) (fun t => (t.alertCause, t.alert)) = some (2, false)
    ∧ outcome (exec (.overvoltage 57001) up1) (fun t => (t.alertCause, t.alert)) = some (0x401, true) := by decide +kernel

/-- MSI-X: a pending vector is sent once when it is unmasked. -/
theorem test_msix : outcome (exec (.msixUnmask ⟨7, 0xFEE00000, 5, 0, none⟩) { up with tel := { up.tel with pend := [7] } })
    (fun t => (t.out.msix, t.tel.pend)) = some ([⟨7, 0xFEE00000, 5⟩], []) := by decide +kernel

/-- A waiting command leaves the queue as it runs; an idle step lets 1 µs pass. -/
theorem test_queue : outcome (step { up with pending := [.enec, .disec] }) (fun t => (t.pending, t.time)) = some ([.disec], 0)
    ∧ outcome (step up) (fun t => (t.time, t.pending)) = some (1000, []) := by decide +kernel

/-! ### Ill-formed commands -/

/-- Every range of WellFormed refuses the first value beyond it. -/
theorem test_illFormed :
    [ Instr.stepRun ⟨2 ^ 20, [], [], []⟩, .stepRun ⟨0, [0], [], []⟩, .batchTimer 1 512 0, .batchTimer 1 0 64
    , .dieBankSwitch 576, .assayRunEnd 576 ⟨[], false⟩, .nop (65536 * 512) .ok, .runTimeRetraining 1024 true
    , .arrearsPromoted 6 0, .assayRotation 4, .ageing [], .thermalCap [], .thermalAlert 3 0 0, .thermalAlert 0 32 0
    , .thermtrip 1 4 0, .thermalAlertClear 2 16 0, .thermalAlertClear 3 1 0, .thermalAlertClear 4 0 0
    , .refreshDoubled 16 0, .railFault 58 0 0 true, .relayRead 16 0, .relayRead 0 0x4000000, .folioEnt 16 0
    , .laneDrop 0 8, .laneDrop 12 0, .rd 12, .folioClaim 0 16 ⟨0, false⟩, .flitReceive 0 [] 0, .fenceReq 16384
    , .counterLoRead 0x4000000, .msixUnmask ⟨2048, 0, 0, 0, none⟩ ].all (fun i => !i.wf) = true := by decide +kernel

/-- And takes the last value inside it. -/
theorem test_wellFormed :
    [ Instr.stepRun ⟨2 ^ 20 - 1, List.replicate 8 0, [], []⟩, .batchTimer 1 511 63, .dieBankSwitch 575, .nop (65536 * 512 - 1) .ok
    , .runTimeRetraining 1023 true, .arrearsPromoted 5 0, .assayRotation 3, .thermalAlert 0 31 0, .thermtrip 1 3 0
    , .thermalAlertClear 3 0 0, .refreshDoubled 15 0, .railFault 57 0 0 true, .relayRead 15 0x3FFFFFC, .laneDrop 11 7
    , .flitReceive 0 (List.replicate 256 0) 0, .fenceReq 16383, .msixUnmask ⟨2047, 0, 0, 0, none⟩ ].all Instr.wf = true := by decide +kernel

/-- No row of the opcode table has bits. -/
theorem test_decode : ∀ n w, decodeTableWord n w = none := fun _ _ => rfl

end Sys2Proof.Tests
end

/-! ## Which commands answer a next state (R10, R12; log 46) -/

namespace Sys2Proof.Proofs
open Sys2Proof.Machine

/-- The command is a register access at this offset that R10 rules: of the host, through the teller, or of the
sideband with a good command. -/
def AccessesRegister (c : Instr) (off : W32) : Prop :=
  (∃ v, c = .counterLoWrite off v) ∨ c = .counterLoRead off ∨ (∃ v, c = .counterHiWrite off v)
    ∨ (∃ v env, c = .registerWrite off v env) ∨ (∃ pos, c = .relayRead pos off)
    ∨ (∃ pos v env, c = .relayWrite pos off v env) ∨ c = .sidebandRead off true
    ∨ ∃ v env, c = .sidebandWrite off v true env

/-- The outcome is a next state. -/
def Answers (o : Host.Outcome State Fault Refusal) : Prop := ∃ t, o = .next t

theorem answers_next (t : State) : Answers (.next t) := ⟨t, rfl⟩

/-- The offset operand of a register command. -/
def offsetOf : Instr → Option W32
  | .counterLoWrite off _ | .counterLoRead off | .counterHiWrite off _ | .registerWrite off _ _ | .relayRead _ off
  | .relayWrite _ off _ _ | .sidebandRead off _ | .sidebandWrite off _ _ _ => some off
  | _ => none

/-! ### The meanings that the statements below speak of

One equation each: `simp` with `exec` itself would first have to make the equations of all its commands. -/

section
variable (s : State) (off v : W32) (env : StartEnv) (pos port tag page quantity : Nat) (value : Int) (ok : Bool)

theorem exec_counterLoRead : exec (.counterLoRead off) s = execCounterLoRead off s := rfl
theorem exec_counterLoWrite : exec (.counterLoWrite off v) s = execCounterLoWrite off v s := rfl
theorem exec_counterHiWrite : exec (.counterHiWrite off v) s = execCounterHiWrite off v s := rfl
theorem exec_registerWrite : exec (.registerWrite off v env) s = execRegisterWrite off v env s := rfl
theorem exec_relayRead : exec (.relayRead pos off) s = execRelayRead pos off s := rfl
theorem exec_relayWrite : exec (.relayWrite pos off v env) s = execRelayWrite pos off v env s := rfl
theorem exec_relayTimeout : exec (.relayTimeout port tag) s = execRelayTimeout port tag s := rfl
theorem exec_sidebandRead : exec (.sidebandRead off ok) s = execSidebandRead off ok s := rfl
theorem exec_sidebandWrite : exec (.sidebandWrite off v ok env) s = execSidebandWrite off v ok env s := rfl
theorem exec_sidebandAlert : exec (.sidebandAlert off ok) s = execSidebandAlert off ok s := rfl
theorem exec_sidebandReset : exec (.sidebandReset off ok env) s = execSidebandReset off ok env s := rfl
theorem exec_rstact (action : Byte) : exec (.rstact action env) s = execRstact action env s := rfl
theorem exec_hotReset : exec (.hotReset env) s = execHotReset env s := rfl
theorem exec_flr : exec (.flr env) s = execFlr env s := rfl
theorem exec_release : exec (.release port) s = execRelease port s := rfl
theorem exec_monitorSample : exec (.monitorSample page quantity value) s = execMonitorSample page quantity value s := rfl
end

/-! ### The sideband's commands, case by case (R445) -/

section
variable {s : State} {off : W32} (v : W32) (env : StartEnv)

theorem exec_sidebandRead_down (ok : Bool) (hm : s.mod.mgmtUp = false) : exec (.sidebandRead off ok) s = .next s := by
  simp [exec_sidebandRead, execSidebandRead, hm]

theorem exec_sidebandWrite_down (ok : Bool) (hm : s.mod.mgmtUp = false) :
    exec (.sidebandWrite off v ok env) s = .next s := by
  simp [exec_sidebandWrite, execSidebandWrite, hm]

theorem exec_sidebandRead_bad (hm : s.mod.mgmtUp = true) :
    exec (.sidebandRead off false) s = .next (s.sbAnswer 2 0) := by
  simp [exec_sidebandRead, execSidebandRead, hm]

theorem exec_sidebandWrite_bad (hm : s.mod.mgmtUp = true) :
    exec (.sidebandWrite off v false env) s = .next (s.sbAnswer 2 0) := by
  simp [exec_sidebandWrite, execSidebandWrite, hm]

theorem exec_sidebandRead_beyond (hm : s.mod.mgmtUp = true) (hr : sbReach off = false) :
    exec (.sidebandRead off true) s = .next (s.sbAnswer 1 0) := by
  simp [exec_sidebandRead, execSidebandRead, hm, hr]

theorem exec_sidebandWrite_beyond (hm : s.mod.mgmtUp = true) (hr : sbReach off = false) :
    exec (.sidebandWrite off v true env) s = .next (s.sbAnswer 1 0) := by
  simp [exec_sidebandWrite, execSidebandWrite, hm, hr]

theorem exec_sidebandRead_aligned (hm : s.mod.mgmtUp = true) (hr : sbReach off = true) (h : regAligned off = true) :
    exec (.sidebandRead off true) s = .next ((s.readReg true off).2.sbAnswer 0 (s.readReg true off).1) := by
  simp [exec_sidebandRead, execSidebandRead, hm, hr, h]

theorem exec_sidebandWrite_aligned (hm : s.mod.mgmtUp = true) (hr : sbReach off = true) (h : regAligned off = true) :
    exec (.sidebandWrite off v true env) s = .next ((s.writeReg true off v env).sbAnswer 0 0) := by
  simp [exec_sidebandWrite, execSidebandWrite, hm, hr, h]
end

/-! ### An offset that R10 forbids -/

section
variable {off : W32} (s : State) (v : W32) (env : StartEnv) (pos : Nat) (h : regAligned off = false)
include h

theorem exec_counterLoRead_misaligned : exec (.counterLoRead off) s = .fault (.misaligned off) := by
  simp [exec_counterLoRead, execCounterLoRead, h]

theorem exec_counterLoWrite_misaligned : exec (.counterLoWrite off v) s = .fault (.misaligned off) := by
  simp [exec_counterLoWrite, execCounterLoWrite, h]

theorem exec_counterHiWrite_misaligned : exec (.counterHiWrite off v) s = .fault (.misaligned off) := by
  simp [exec_counterHiWrite, execCounterHiWrite, h]

theorem exec_registerWrite_misaligned : exec (.registerWrite off v env) s = .fault (.misaligned off) := by
  simp [exec_registerWrite, execRegisterWrite, h]

theorem exec_relayRead_misaligned : exec (.relayRead pos off) s = .fault (.misaligned off) := by
  simp [exec_relayRead, execRelayRead, h]

theorem exec_relayWrite_misaligned : exec (.relayWrite pos off v env) s = .fault (.misaligned off) := by
  simp [exec_relayWrite, execRelayWrite, h]

theorem exec_sidebandRead_misaligned (hm : s.mod.mgmtUp = true) (hr : sbReach off = true) :
    exec (.sidebandRead off true) s = .fault (.misaligned off) := by
  simp [exec_sidebandRead, execSidebandRead, h, hm, hr]

theorem exec_sidebandWrite_misaligned (hm : s.mod.mgmtUp = true) (hr : sbReach off = true) :
    exec (.sidebandWrite off v true env) s = .fault (.misaligned off) := by
  simp [exec_sidebandWrite, execSidebandWrite, h, hm, hr]

/-- A register command then stops, or is a command of the sideband that reaches no register. -/
theorem exec_of_misaligned {c : Instr} (hc : offsetOf c = some off) :
    Answers (exec c s) ∨ exec c s = .fault (.misaligned off) ∧ AccessesRegister c off := by
  cases c
  case counterLoRead => cases hc; exact .inr ⟨exec_counterLoRead_misaligned s h, by simp [AccessesRegister]⟩
  case counterLoWrite => cases hc; exact .inr ⟨exec_counterLoWrite_misaligned s _ h, by simp [AccessesRegister]⟩
  case counterHiWrite => cases hc; exact .inr ⟨exec_counterHiWrite_misaligned s _ h, by simp [AccessesRegister]⟩
  case registerWrite => cases hc; exact .inr ⟨exec_registerWrite_misaligned s _ _ h, by simp [AccessesRegister]⟩
  case relayRead => cases hc; exact .inr ⟨exec_relayRead_misaligned s _ h, by simp [AccessesRegister]⟩
  case relayWrite => cases hc; exact .inr ⟨exec_relayWrite_misaligned s _ _ _ h, by simp [AccessesRegister]⟩
  case sidebandRead ok =>
    cases hc
    cases hm : s.mod.mgmtUp
    · exact .inl ⟨s, exec_sidebandRead_down ok hm⟩
    · cases ok
      · exact .inl ⟨_, exec_sidebandRead_bad hm⟩
      · cases hr : sbReach off
        · exact .inl ⟨_, exec_sidebandRead_beyond hm hr⟩
        · exact .inr ⟨exec_sidebandRead_misaligned s h hm hr, by simp [AccessesRegister]⟩
  case sidebandWrite ok _ =>
    cases hc
    cases hm : s.mod.mgmtUp
    · exact .inl ⟨s, exec_sidebandWrite_down _ _ ok hm⟩
    · cases ok
      · exact .inl ⟨_, exec_sidebandWrite_bad _ _ hm⟩
      · cases hr : sbReach off
        · exact .inl ⟨_, exec_sidebandWrite_beyond _ _ hm hr⟩
        · exact .inr ⟨exec_sidebandWrite_misaligned s _ _ h hm hr, by simp [AccessesRegister]⟩
  all_goals cases hc
end

/-! ### Every other command -/

/-- With an offset that R10 allows a register command answers. -/
theorem exec_answers_of_aligned {c : Instr} {off : W32} (s : State) (hc : offsetOf c = some off)
    (h : regAligned off = true) : Answers (exec c s) := by
  cases c
  case counterLoRead | counterLoWrite | counterHiWrite | registerWrite | relayRead | relayWrite | sidebandRead
      | sidebandWrite =>
    cases hc
    unfold exec
    simp only [execCounterLoRead, execCounterLoWrite, execCounterHiWrite, execRegisterWrite, execRelayRead,
      execRelayWrite, execSidebandRead, execSidebandWrite, h, Bool.not_true, if_true, Bool.false_eq_true, if_false]
    (repeat' split) <;> exact answers_next _
  all_goals cases hc

/-- A command without a register's offset answers: each branch of its meaning is a next state. The groups are those
whose meaning branches, subject by subject; the last line is for the meanings that are one next state. -/
theorem exec_answers_of_offsetOf_none {c : Instr} (h : offsetOf c = none) (s : State) : Answers (exec c s) := by
  cases c
  case counterLoWrite | counterLoRead | counterHiWrite | registerWrite | relayRead | relayWrite | sidebandRead
      | sidebandWrite => cases h
  case batchTimer | stepSelect | stepBoundary | stepCheck | recountRun | stepPost | jobEndEffect | nop |
      regeneration | watchdog | lockstep =>
    unfold exec
    simp only [execBatchTimer, execStepSelect, execStepBoundary, execStepCheck, execRecountRun, execStepPost,
      execJobEndEffect, execNop, execRegeneration, execWatchdog, execLockstep]
    (repeat' split) <;> exact answers_next _
  case dieBankSwitch | assayRotation | assayRunEnd | assayRunLimit | blankStrikeRampDown | flashWriteEnd |
      ageing | summaryFold | arrearsPromoted =>
    unfold exec
    simp only [execDieBankSwitch, execAssayRotation, execAssayRunEnd, execAssayRunLimit,
      execBlankStrikeRampDown, execFlashWriteEnd, execAgeing, execSummaryFold, execArrearsPromoted]
    (repeat' split) <;> exact answers_next _
  case scrub | eccRewrite | retirement | sparingRefill | runTimeRetraining | refreshDoubled | refreshNormal =>
    unfold exec
    simp only [execScrub, execEccRewrite, execRetirement, execSparingRefill, execRunTimeRetraining,
      execRefreshDoubled, execRefreshNormal]
    (repeat' split) <;> exact answers_next _
  case powerUp | powerLoss | powerCap | powerOver | thermalCap | thermalAlert | thermalAlertClear | coolant |
      thermtrip | railFault =>
    unfold exec
    simp only [execPowerUp, execPowerLoss, execPowerCap, execPowerOver, execThermalCap, execThermalAlert,
      execThermalAlertClear, execCoolant, execThermtrip, execRailFault]
    (repeat' split) <;> exact answers_next _
  case flashGateClose | flashGateOpen | sagCap | sagCapEnd | quiesce | quiesceEnd | overvoltage |
      overvoltageEnd =>
    unfold exec
    simp only [execFlashGateClose, execFlashGateOpen, execSagCap, execSagCapEnd, execQuiesce, execQuiesceEnd,
      execOvervoltage, execOvervoltageEnd]
    (repeat' split) <;> exact answers_next _
  case laneDrop | bindingForward | folioClaim | flitReceive | replayRequest | ackTimer | slowPartner |
      tagAbort | relayTimeout | msgResend | contribResend | collWait =>
    unfold exec
    simp only [execLaneDrop, execBindingForward, execFolioClaim, execFlitReceive, execReplayRequest,
      execAckTimer, execSlowPartner, execTagAbort, execRelayTimeout, execMsgResend, execContribResend,
      execCollWait]
    (repeat' split) <;> exact answers_next _
  case rd | wr | at256 | afp32 | cpl | db | msg | csgn | void | intr =>
    unfold exec
    simp only [execRd, execWr, execAt256, execAfp32, execCpl, execDb, execMsg, execCsgn, execVoid, execIntr]
    (repeat' split) <;> exact answers_next _
  case sidebandAlert | sidebandReset | monitorSample | msixUnmask =>
    unfold exec
    simp only [execSidebandAlert, execSidebandReset, execMonitorSample, execMsixUnmask]
    (repeat' split) <;> exact answers_next _
  all_goals exact answers_next _

/-- Every command answers, or is a register access that stops at its offset (log 46). -/
theorem exec_answers_or_stops (c : Instr) (s : State) :
    Answers (exec c s)
      ∨ ∃ off, regAligned off = false ∧ exec c s = .fault (.misaligned off) ∧ AccessesRegister c off := by
  cases hc : offsetOf c with
  | none => exact .inl (exec_answers_of_offsetOf_none hc s)
  | some off =>
    cases h : regAligned off
    · exact (exec_of_misaligned s h hc).imp_right (fun hf => ⟨off, h, hf⟩)
    · exact .inl (exec_answers_of_aligned s hc h)

/-- Settles O6: a command without a register's offset answers on every branch, and a register command where R10 allows
its offset. -/
theorem everyCommandAnswers : Obligations.EveryCommandAnswers := exec_answers_or_stops

/-- Settles O34: each register command stops at an offset that R10 forbids, and a fault comes from nowhere else, since
every other outcome is a next state. -/
theorem misalignedAccessFaults : Obligations.MisalignedAccessFaults := by
  refine ⟨fun s off v env h => ⟨exec_counterLoRead_misaligned s h, exec_counterLoWrite_misaligned s v h,
    exec_counterHiWrite_misaligned s v h, exec_registerWrite_misaligned s v env h,
    fun pos => ⟨exec_relayRead_misaligned s pos h, exec_relayWrite_misaligned s v env pos h⟩,
    fun hm hr => ⟨exec_sidebandRead_misaligned s h hm hr, exec_sidebandWrite_misaligned s v env h hm hr⟩⟩, ?_, ?_⟩
  · intro c s e he
    obtain ⟨t, ht⟩ | ⟨off, h, hf, hc⟩ := exec_answers_or_stops c s
    · cases he.symm.trans ht
    · cases he.symm.trans hf
      exact ⟨off, rfl, h, hc⟩
  · intro c s r hr
    obtain ⟨t, ht⟩ | ⟨off, -, hf, -⟩ := exec_answers_or_stops c s
    · cases hr.symm.trans ht
    · cases hr.symm.trans hf

/-- Settles O31: the sideband's cases, one by one. -/
theorem sidebandCommandsAct : Obligations.SidebandCommandsAct := by
  refine ⟨fun s off hm => ⟨
    fun hr h => ⟨exec_sidebandRead_aligned hm hr h, fun v env => exec_sidebandWrite_aligned v env hm hr h⟩,
    fun hr => ⟨exec_sidebandRead_beyond hm hr, fun v env => exec_sidebandWrite_beyond v env hm hr⟩,
    exec_sidebandRead_bad hm, fun v env => exec_sidebandWrite_bad v env hm, ?_, fun h0 => ?_, ?_⟩, ?_, fun _ _ _ => rfl⟩
  · simp [exec_sidebandAlert, execSidebandAlert, hm]
  · simp only [exec_sidebandAlert, execSidebandAlert, hm, h0, Bool.not_true, Bool.false_or, ne_eq, not_false_eq_true,
      decide_true, Bool.false_eq_true, if_false, if_true]
  · simp [exec_sidebandAlert, execSidebandAlert, hm]
  · intro s off v ok env hm
    exact ⟨exec_sidebandRead_down ok hm, exec_sidebandWrite_down v env ok hm,
      by simp [exec_sidebandAlert, execSidebandAlert, hm]⟩

end Sys2Proof.Proofs

/-! ## Warm resets (R420) and the values at power-on (R15) -/

namespace Sys2Proof.Proofs
open Sys2Proof.Machine

section
variable {s : State} (env : StartEnv)

theorem warmReset_up (h : s.mod.railsUp = true) : s.warmReset env = s.warmBare.startUp env := if_pos h

theorem warmReset_down (h : s.mod.railsUp = false) : s.warmReset env = s := if_neg (by simp [h])

theorem exec_perstN : exec (.perstN env) s = .next (s.warmReset env) := rfl

theorem exec_devCtlReset : exec (.devCtlReset env) s = .next (s.warmReset env) := rfl

theorem exec_hotReset_teller (h : s.su.teller = true) : exec (.hotReset env) s = .next (s.warmReset env) := by
  simp [exec_hotReset, execHotReset, h]

theorem exec_flr_teller (h : s.su.teller = true) : exec (.flr env) s = .next (s.warmReset env) := by
  simp [exec_flr, execFlr, h]

theorem exec_hotReset_other (h : s.su.teller = false) : exec (.hotReset env) s = .next s := by
  simp [exec_hotReset, execHotReset, h]

theorem exec_flr_other (h : s.su.teller = false) : exec (.flr env) s = .next s := by
  simp [exec_flr, execFlr, h]

theorem exec_sidebandReset_good (hm : s.mod.mgmtUp = true) :
    exec (.sidebandReset 0xA5A5 true env) s = .next ((s.warmReset env).sbAnswer 0 0) := by
  simp [exec_sidebandReset, execSidebandReset, hm]

theorem exec_sidebandReset_bad {off : W32} {ok : Bool} (hm : s.mod.mgmtUp = true) (h : ok = false ∨ off ≠ 0xA5A5) :
    exec (.sidebandReset off ok env) s = .next (s.sbAnswer 2 0) := by
  have hb : (!ok || decide (off ≠ 0xA5A5)) = true := by simpa using h
  simp only [exec_sidebandReset, execSidebandReset, hm, hb, Bool.not_true, Bool.false_eq_true, if_false, if_true]

theorem exec_sidebandReset_down (off : W32) (ok : Bool) (hm : s.mod.mgmtUp = false) :
    exec (.sidebandReset off ok env) s = .next s := by
  simp [exec_sidebandReset, execSidebandReset, hm]

theorem exec_rstact_target (hm : s.mod.mgmtUp = true) : exec (.rstact 2 env) s = .next (s.warmReset env) := by
  simp [exec_rstact, execRstact, hm]

theorem exec_rstact_other {a : Byte} (h : s.mod.mgmtUp = false ∨ a ≠ 2) : exec (.rstact a env) s = .next s := by
  have hb : (s.mod.mgmtUp && decide (a = 2)) = false := by
    rcases h with h | h
    · rw [h, Bool.false_and]
    · rw [decide_eq_false h, Bool.and_false]
  simp only [exec_rstact, execRstact, hb, Bool.false_eq_true, if_false]

/-- RSTACT with the rails down: no action resets anything. -/
theorem exec_rstact_railsDown (a : Byte) (h : s.mod.railsUp = false) : exec (.rstact a env) s = .next s := by
  simp only [exec_rstact, execRstact, warmReset_down env h, ite_self]
end

theorem mod_of_rest {s t : State} (h : t.rest = s.rest) : t.mod = s.mod := congrArg (fun x => x.2.2.1) h

/-- The start-up of a warm reset begins with nothing of the jobs, and adds nothing. -/
theorem warmBare_startUp_work (s : State) (env : StartEnv) : (s.warmBare.startUp env).work = State.reset.work :=
  State.startUp_to _ env s.warmBare_work

/-- Settles O14: with the rails up each reset is the warm reset, which leaves nothing of the jobs. -/
theorem warmResetsEndEveryJob : Obligations.WarmResetsEndEveryJob := by
  refine ⟨?_, ?_, fun s => ?_, ?_⟩
  · intro s env hup
    have hw := warmReset_up env hup
    refine ⟨_, rfl, warmBare_startUp_work s env, ?_⟩
    rw [← hw]
    exact ⟨exec_perstN env, exec_devCtlReset env, fun ht => ⟨exec_hotReset_teller env ht, exec_flr_teller env ht⟩,
      fun hm => ⟨exec_sidebandReset_good env hm, exec_rstact_target env hm⟩⟩
  · intro s f env r c hc hup
    have hmod : ((s.consumed f r).finish c 0).mod = s.mod :=
      (mod_of_rest (State.finish_rest (s.consumed f r) c 0)).trans (State.consumed_mod s f r)
    refine ⟨_, ?_, rfl, warmBare_startUp_work _ env⟩
    rw [← warmReset_up env (by rw [hmod, hup])]
    exact congrArg _ (State.command_accepts hc _)
  · refine ⟨rfl, rfl, rfl, rfl, rfl, rfl, rfl, rfl, rfl, rfl, rfl, rfl, rfl⟩
  · intro s env off ok a
    refine ⟨fun h => ?_, ?_, fun hm hb => exec_sidebandReset_bad env hm hb, exec_sidebandReset_down env off ok,
      exec_rstact_other env⟩
    · have hw := warmReset_down env h
      refine ⟨?_, ?_, exec_rstact_railsDown env a h, fun hm => ?_⟩
      · rw [exec_perstN, hw]
      · rw [exec_devCtlReset, hw]
      · rw [exec_sidebandReset_good env hm, hw]
    · rintro (h | h)
      · have hw := warmReset_down env h
        constructor
        · simp only [exec_hotReset, execHotReset, hw, ite_self]
        · simp only [exec_flr, execFlr, hw, ite_self]
      · exact ⟨exec_hotReset_other env h, exec_flr_other env h⟩

/-- Before power-up every page reads as at reset. -/
theorem reset_page (n : Nat) : State.reset.page n = Page.reset := rfl

/-- Before power-up no unit is fenced. -/
theorem reset_isFenced (t p : Nat) : State.reset.isFenced t p = false := by
  simp [State.isFenced, State.reset]

/-- Settles O59: the fields of the reset state are these values; pages and fences are read through their lists. -/
theorem resetValues : Obligations.ResetValues := by
  refine ⟨rfl, rfl, rfl, rfl, rfl, rfl, rfl, rfl, rfl, rfl, rfl, rfl, rfl, rfl, rfl, rfl, fun n => ?_,
    reset_isFenced 1, rfl, by decide, rfl, rfl, rfl⟩
  rw [reset_page]
  exact ⟨rfl, rfl, rfl⟩

end Sys2Proof.Proofs

/-! ## The host's accesses through the teller (R326, R328; log 17) -/

namespace Sys2Proof.Proofs
open Sys2Proof.Machine

section
variable {s : State} {off : W32} (v : W32) (env : StartEnv) {pos : Nat} (h : regAligned off = true)
include h

theorem exec_relayRead_unlinked (hl : s.hostLink = false) : exec (.relayRead pos off) s = .next s := by
  simp [exec_relayRead, execRelayRead, h, hl]

theorem exec_relayWrite_unlinked (hl : s.hostLink = false) : exec (.relayWrite pos off v env) s = .next s := by
  simp [exec_relayWrite, execRelayWrite, h, hl]

theorem exec_relayRead_own (hl : s.hostLink = true) : exec (.relayRead 0 off) s = .next (s.hostRead off) := by
  simp [exec_relayRead, execRelayRead, h, hl]

theorem exec_relayWrite_own (hl : s.hostLink = true) :
    exec (.relayWrite 0 off v env) s = .next (s.writeReg false off v env) := by
  simp [exec_relayWrite, execRelayWrite, h, hl]

theorem exec_relayRead_noMember (hl : s.hostLink = true) (hp : pos ≠ 0) (hm : s.memberAt pos = none) :
    exec (.relayRead pos off) s = .next { s with out := { s.out with lastRead := 0 } } := by
  simp [exec_relayRead, execRelayRead, h, hl, hp, hm]

theorem exec_relayWrite_noMember (hl : s.hostLink = true) (hp : pos ≠ 0) (hm : s.memberAt pos = none) :
    exec (.relayWrite pos off v env) s = .next s := by
  simp [exec_relayWrite, execRelayWrite, h, hl, hp, hm]

theorem exec_relayRead_member {dev : Nat} (hl : s.hostLink = true) (hp : pos ≠ 0) (hm : s.memberAt pos = some dev) :
    exec (.relayRead pos off) s = .next (s.relay pos true off.toNat (s.regTxn 1 dev off.toNat [])) := by
  simp [exec_relayRead, execRelayRead, h, hl, hp, hm]

theorem exec_relayWrite_member {dev : Nat} (hl : s.hostLink = true) (hp : pos ≠ 0) (hm : s.memberAt pos = some dev) :
    exec (.relayWrite pos off v env) s = .next (s.relay pos false off.toNat
      (s.regTxn 2 dev off.toNat (leBytes 64 (v.toNat * 2 ^ (8 * (off.toNat % 64)))))) := by
  simp [exec_relayWrite, execRelayWrite, h, hl, hp, hm]
end

/-- With a port on its path a relayed access is requested there and joins the accesses that are outstanding. -/
theorem relay_sent {s : State} {t : Txn} {p : Nat} (he : s.ownEgress t.dst t.altOk = some p) (pos : Nat) (read : Bool)
    (off : Nat) : s.relay pos read off t = { s.setPort p ((s.port p).request s.time t (.relay s.tel.nextRelay)) with
      tel := { s.tel with
        relays := s.tel.relays ++ [⟨s.tel.nextRelay, pos, read, off, none⟩], nextRelay := s.tel.nextRelay + 1 } } := by
  simp [State.relay, State.trySend, he]

/-- Without one a read completes with Completer Abort, and a write is dropped. -/
theorem relay_unsent {s : State} {t : Txn} (he : s.ownEgress t.dst t.altOk = none) (pos : Nat) (read : Bool)
    (off : Nat) : s.relay pos read off t
      = if read then { s with out := { s.out with pcieAbort := s.out.pcieAbort + 1 } } else s := by
  simp [State.relay, State.trySend, he, State.relayAnswer]

/-! ### A relayed access that times out -/

theorem fabricEvent_front (s : State) (code p order contrib : Nat) :
    (s.fabricEvent code p order contrib).front = s.front := State.raise_front _ _

/-- A timeout is counted in TEL_RELAY_TO, and the list of accesses and the count of aborts stand. -/
theorem freeTag_countRelay (s : State) (p g : Nat) :
    ((s.freeTag p g).countRelay p).tel.relays = s.tel.relays
    ∧ ((s.freeTag p g).countRelay p).tel.relayTo = BitVec.ofNat 32 (satAdd s.tel.relayTo.toNat 1 (2 ^ 32 - 1))
    ∧ ((s.freeTag p g).countRelay p).out.pcieAbort = s.out.pcieAbort := by
  have hf : ((s.freeTag p g).countRelay p).front = State.front { s with
      tel := { s.tel with relayTo := BitVec.ofNat 32 (satAdd s.tel.relayTo.toNat 1 (2 ^ 32 - 1)) } } :=
    fabricEvent_front _ _ _ _ _
  exact ⟨congrArg (fun x => x.1.relays) hf, congrArg (fun x => x.1.relayTo) hf, congrArg (fun x => x.2.pcieAbort) hf⟩

/-- The accesses that an expiry leaves: the others, less those whose answers it lets go. -/
theorem relayExpired_tel (s : State) (id : Nat) : (s.relayExpired id).tel = { s.tel with
    relays := (releaseRelays [] (s.tel.relays.filter (fun x => x.id != id))).2 } := by
  unfold State.relayExpired
  dsimp only
  rw [State.relayPump_tel]
  split <;> simp

/-- The only access outstanding: its expiry leaves none, and a read completes with Completer Abort. -/
theorem relayExpired_only {s : State} {id pos o : Nat} {read : Bool} (h : s.tel.relays = [⟨id, pos, read, o, none⟩]) :
    (s.relayExpired id).tel.relays = []
      ∧ (s.relayExpired id).out.pcieAbort = s.out.pcieAbort + (if read then 1 else 0) := by
  constructor
  · simp [relayExpired_tel, h, releaseRelays]
  · cases read <;> simp [State.relayExpired, State.relayPump, State.relayAnswer, h, releaseRelays]

theorem exec_relayTimeout_noRelay {s : State} {p g : Nat} (h : ∀ id, (s.port p).tagUse g ≠ some (.relay id)) :
    exec (.relayTimeout p g) s = .next s := by
  rw [exec_relayTimeout, execRelayTimeout]
  split
  · next id hid => exact absurd hid (h id)
  · rfl

/-- Settles O33: an access that reaches a member is sent or not as its path says; a timeout takes its access. -/
theorem relayCommandsAct : Obligations.RelayCommandsAct := by
  refine ⟨fun s off v env h hl => ⟨exec_relayRead_own h hl, exec_relayWrite_own v env h hl, ?_, ?_, ?_⟩, ?_, ?_, ?_⟩
  · exact fun pos hp hm => ⟨exec_relayRead_noMember h hl hp hm, exec_relayWrite_noMember v env h hl hp hm⟩
  · intro pos dev p hp hm he
    refine ⟨⟨_, (exec_relayRead_member h hl hp hm).trans (congrArg _ (relay_sent he ..)), rfl, rfl⟩,
      ⟨_, (exec_relayWrite_member v env h hl hp hm).trans (congrArg _ (relay_sent he ..)), rfl, rfl⟩⟩
  · intro pos dev hp hm he
    exact ⟨(exec_relayRead_member h hl hp hm).trans (congrArg _ (relay_unsent he ..)),
      (exec_relayWrite_member v env h hl hp hm).trans (congrArg _ (relay_unsent he ..))⟩
  · exact fun s off v env pos h hl => ⟨exec_relayRead_unlinked h hl, exec_relayWrite_unlinked v env h hl⟩
  · intro s p g id hu
    obtain ⟨hr, hto, ho⟩ := freeTag_countRelay s p g
    refine ⟨((s.freeTag p g).countRelay p).relayExpired id, ?_, ?_, ?_, ?_, ?_⟩
    · simp [exec_relayTimeout, execRelayTimeout, hu]
    · rw [relayExpired_tel, ← hto]
    · intro x hx
      rw [relayExpired_tel, hr] at hx
      obtain ⟨hmem, hid⟩ := List.mem_filter.mp (releaseRelays_mem _ _ x hx)
      exact ⟨by simpa using hid, hmem⟩
    · intro x hx hid hopen
      rw [relayExpired_tel, hr]
      exact releaseRelays_open _ _ x (List.mem_filter.mpr ⟨hx, by simpa using hid⟩) hopen
    · intro pos read o hone
      have := relayExpired_only (hr.trans hone)
      rwa [ho] at this
  · exact fun s p g => exec_relayTimeout_noRelay

end Sys2Proof.Proofs

/-! ## The requests of PAGE_CTRL, and the device-level controls (R14, R316, R449 to R457; log 37) -/

namespace Sys2Proof.Proofs
open Sys2Proof.Machine

theorem regWrite_taken {s : State} {side : Bool} {n o : Nat} (h : s.takesWrite side n o = true) (k : State → State) :
    s.regWrite side n o k = k s := if_pos h

theorem regWrite_refused {s : State} {side : Bool} {n o : Nat} (h : s.takesWrite side n o = false) (k : State → State) :
    s.regWrite side n o k = s := if_neg (by simp [h])

/-! ### What each command does where its page takes the write -/

section
variable {s : State} {n : Nat}

theorem exec_portEnable_taken {p : Nat} (on : Bool) (h : s.takesWrite false (0x10 + p) 0x0C = true) :
    exec (.portEnable p on) s = .next (s.setEnable p on) := congrArg _ (regWrite_taken h _)

theorem exec_fenceReq_taken (h : s.takesWrite false n 0x0C = true) : exec (.fenceReq n) s = .next (s.fenceReq n) :=
  congrArg _ (regWrite_taken h _)

theorem exec_unfenceReq_taken (h : s.takesWrite false n 0x0C = true) :
    exec (.unfenceReq n) s = .next (s.unfenceReq n) := congrArg _ (regWrite_taken h _)

theorem exec_stageCommit_taken (h : s.takesWrite false n 0x0C = true) :
    exec (.stageCommit n) s = .next (s.stageCommit n) := congrArg _ (regWrite_taken h _)

theorem exec_stageCommit_idle (h : s.takesWrite false n 0x0C = false ∨ 6 < n ∨ s.dev.stage = none) :
    exec (.stageCommit n) s = .next s := by
  cases ht : s.takesWrite false n 0x0C
  · exact congrArg _ (regWrite_refused ht _)
  · rw [exec_stageCommit_taken ht]
    rcases h with h | h | h
    · simp [ht] at h
    · rw [State.stageCommit, if_neg (by omega)]
    · simp [State.stageCommit, State.applyStage, h]
end

/-- A port that is taken down is in DOWN (R298). -/
theorem portDown_state (s : State) (p : Nat) : ((s.portDown p).port p).state = .down :=
  (Port.of_line (s.portDown_line p)).1

/-- The modes after a stage is applied (R14). -/
theorem applyStage_dev {s : State} {p l : Bool} (h : s.dev.stage = some (p, l)) :
    s.applyStage.dev.stage = none
    ∧ (s.stageRefused p = false → s.applyStage.dev.proofEn = p ∧ s.applyStage.dev.timingLock = l)
    ∧ (s.stageRefused p = true → s.applyStage.dev.proofEn = s.dev.proofEn
      ∧ s.applyStage.dev.timingLock = s.dev.timingLock ∧ s.applyStage.dev.proofRefused = true) := by
  have hm := State.applyStage_modes s p l h
  cases hr : s.stageRefused p <;> simp [hr, State.modes] at hm <;> simp [hm]

/-! ### ENABLE, FENCE_REQ and UNFENCE_REQ by page type -/

section
variable {s : State} {n : Nat}

theorem setEnable_host {p : Nat} (h : s.jexlet p = false) (on : Bool) : s.setEnable p on = s := by
  simp [State.setEnable, h]

theorem setEnable_stays {p : Nat} {on : Bool} (h : s.jexlet p = true) (hs : on = true ∨ (s.port p).state = .quarantined) :
    s.setEnable p on = s.setPage (0x10 + p) { s.page (0x10 + p) with enable := on } := by
  have hq : ((s.setPage (0x10 + p) { s.page (0x10 + p) with enable := on }).port p).state = (s.port p).state := rfl
  rcases hs with hs | hs <;> simp [State.setEnable, h, hs, hq]

theorem setEnable_down {p : Nat} (h : s.jexlet p = true) (hs : (s.port p).state ≠ .quarantined) :
    s.setEnable p false = (s.setPage (0x10 + p) { s.page (0x10 + p) with enable := false }).portDown p := by
  have hq : ((s.setPage (0x10 + p) { s.page (0x10 + p) with enable := false }).port p).state = (s.port p).state := rfl
  simp [State.setEnable, h, hs, hq]

theorem fenceReq_core (h : s.pageType n = 0xB) : s.fenceReq n =
    if s.isFenced 1 (pageInstance n) || !s.otherCore (pageInstance n) then s else s.fenceNow 1 (pageInstance n) 0 := by
  simp [State.fenceReq, h]

theorem fenceReq_region (h : s.pageType n = 0xA) : s.fenceReq n =
    if s.isFenced 2 (pageInstance n) || !s.otherRegion (pageInstance n) then s else s.fenceNow 2 (pageInstance n) 0 := by
  simp [State.fenceReq, h]

theorem fenceReq_channel (h : s.pageType n = 0xC) : s.fenceReq n = if s.isFenced 5 (pageInstance n) then s
    else (s.setChan (pageInstance n) { s.chan (pageInstance n) with candidate := true, cause := 0 }).markDegraded 5
      (pageInstance n) := by
  simp [State.fenceReq, State.permanent, h]

theorem fenceReq_port_down (h : s.pageType n = 8) (hj : s.jexlet (pageInstance n) = true)
    (hs : (s.port (pageInstance n)).state ≠ .quarantined) : s.fenceReq n = s.portDown (pageInstance n) := by
  simp [State.fenceReq, h, hj, hs]

theorem fenceReq_port_stays (h : s.pageType n = 8)
    (hs : s.jexlet (pageInstance n) = false ∨ (s.port (pageInstance n)).state = .quarantined) : s.fenceReq n = s := by
  rcases hs with hs | hs <;> simp [State.fenceReq, h, hs]

theorem fenceReq_other (h : s.pageType n ∉ [8, 0xA, 0xB, 0xC]) : s.fenceReq n = s := by
  unfold State.fenceReq
  split <;> simp_all

theorem unfenceReq_core (h : s.pageType n = 0xB) : s.unfenceReq n =
    if !s.isFenced 1 (pageInstance n) || (s.flash.setIds (·.demand)).isEmpty
      || s.asy.jobs.any (fun j => j.core == pageInstance n) then s
    else (s.queueAssays [pageInstance n] (s.flash.setIds (·.demand)) .unfence false).assaySettle := by
  simp [State.unfenceReq, h]

theorem unfenceReq_core_queues (h : s.pageType n = 0xB) (hf : s.isFenced 1 (pageInstance n) = true)
    (hi : s.flash.setIds (·.demand) ≠ []) (ha : ∀ a ∈ s.asy.jobs, a.core ≠ pageInstance n) :
    s.unfenceReq n = (s.queueAssays [pageInstance n] (s.flash.setIds (·.demand)) .unfence false).assaySettle := by
  rw [unfenceReq_core h, if_neg]
  simpa [hf, hi] using ha

theorem unfenceReq_core_stays (h : s.pageType n = 0xB) (hs : s.isFenced 1 (pageInstance n) = false
    ∨ s.flash.setIds (·.demand) = [] ∨ ∃ a ∈ s.asy.jobs, a.core = pageInstance n) : s.unfenceReq n = s := by
  rw [unfenceReq_core h, if_pos]
  rcases hs with hs | hs | hs <;> simp [hs]

theorem unfenceReq_region (h : s.pageType n = 0xA) : s.unfenceReq n =
    if s.isFenced 2 (pageInstance n) then s.unfenceRegion (pageInstance n) else s := by
  simp [State.unfenceReq, h]

theorem unfenceReq_other (ha : s.pageType n ≠ 0xA) (hb : s.pageType n ≠ 0xB) : s.unfenceReq n = s := by
  unfold State.unfenceReq
  split <;> simp_all
end

/-- Settles O39: each control by its page type, and nothing on a page that takes no write. -/
theorem pageControlCommandsAct : Obligations.PageControlCommandsAct := by
  refine ⟨fun s p on => ⟨fun ht => ?_, fun ht => congrArg _ (regWrite_refused ht _)⟩,
    fun s n i hi => ⟨fun ht => ?_, fun ht => congrArg _ (regWrite_refused ht _)⟩,
    fun s n i hi => ⟨fun ht => ?_, fun ht => congrArg _ (regWrite_refused ht _)⟩,
    fun s n => ⟨fun p l ht hn hs => ?_, exec_stageCommit_idle⟩, fun s v => rfl, fun s n v => rfl, fun s p => ?_⟩
  · rw [exec_portEnable_taken on ht]
    refine ⟨fun hj => congrArg _ (setEnable_host hj on), fun hj hs => congrArg _ (setEnable_stays hj hs), ?_⟩
    rintro hj rfl hs
    exact ⟨_, congrArg _ (setEnable_down hj hs), rfl, portDown_state _ p⟩
  · subst hi
    rw [exec_fenceReq_taken ht]
    exact ⟨fun h => congrArg _ (fenceReq_core h), fun h => congrArg _ (fenceReq_region h),
      fun h => congrArg _ (fenceReq_channel h),
      fun h hj hs => ⟨_, congrArg _ (fenceReq_port_down h hj hs), rfl, portDown_state s _⟩,
      fun h hs => congrArg _ (fenceReq_port_stays h hs), fun h => congrArg _ (fenceReq_other h)⟩
  · subst hi
    rw [exec_unfenceReq_taken ht]
    exact ⟨fun h hf hi ha => congrArg _ (unfenceReq_core_queues h hf hi ha),
      fun h hs => congrArg _ (unfenceReq_core_stays h hs), fun h => congrArg _ (unfenceReq_region h),
      fun ha hb => congrArg _ (unfenceReq_other ha hb)⟩
  · refine ⟨_, ?_, rfl, applyStage_dev hs⟩
    rw [exec_stageCommit_taken ht, State.stageCommit, if_pos hn]
  · simp only [exec_release, execRelease, State.regWrite, State.portRelease]
    split <;> simp_all

end Sys2Proof.Proofs

/-! ## Counter pairs, event counts and monitor windows (R11, R397 to R399, R451, R463; log 38) -/

namespace Sys2Proof.Proofs
open Sys2Proof.Machine

/-! ### Reads -/

theorem hostRead_closed {s : State} {off : W32} (h : s.pageOpen false (off.toNat / 4096) = false) :
    s.hostRead off = { s with out := { s.out with lastRead := 0 } } := by
  simp [State.hostRead, State.readReg, h]

theorem hostRead_open {s : State} {off : W32} {n o : Nat} (hn : off.toNat / 4096 = n) (ho : off.toNat % 4096 = o)
    (h : s.pageOpen false n = true) : s.hostRead off =
      { s.afterRead false n o with out := { (s.afterRead false n o).out with lastRead := s.readValue false n o } } := by
  simp [State.hostRead, State.readReg, h, hn, ho]

theorem exec_counterLoRead_aligned {off : W32} (s : State) (h : regAligned off = true) :
    exec (.counterLoRead off) s = .next (s.hostRead off) := by
  simp [exec_counterLoRead, execCounterLoRead, h]

theorem exec_evtCount (s : State) (n : Nat) :
    exec (.evtCount n) s = .next (s.hostRead (BitVec.ofNat 32 (4096 * n + 0x1C))) := rfl

theorem exec_monCountLo (s : State) (n : Nat) :
    exec (.monCountLo n) s = .next (s.hostRead (BitVec.ofNat 32 (4096 * n + 0x30))) := rfl

/-- The window offset of register `o` of page `n`. -/
theorem pageOffset {n o : Nat} (hn : n < 0xA40) (ho : o < 4096) :
    (BitVec.ofNat 32 (4096 * n + o)).toNat / 4096 = n ∧ (BitVec.ofNat 32 (4096 * n + o)).toNat % 4096 = o := by
  rw [BitVec.toNat_ofNat, Nat.mod_eq_of_lt (by omega)]
  omega

/-- No register of the common header belongs to a 64-bit pair that latches. -/
theorem pairOf_header (type : Nat) {o : Nat} (ho : o < 0x100) : pairOf type o = none := by
  have hne : ∀ k, 0x100 ≤ k → o ≠ k := by omega
  have hw : ¬ 0x400 ≤ o := by omega
  unfold pairOf winPair
  split <;> simp [hne, hw]

section
variable {s : State} {n : Nat}

/-- A read of LO of a pair answers LO and latches HI. -/
theorem readLo_of_pair {o lo : Nat} (hc : o ≠ 0x1C) (hm : o ≠ 0x30) (hp : pairOf (s.pageType n) o = some (lo, true)) :
    s.afterRead false n o = s.latch false (4096 * n + o) (BitVec.ofNat 32 (s.regValue n (o + 4)))
      ∧ s.readValue false n o = BitVec.ofNat 32 (s.regValue n o) := by
  simp [State.afterRead, State.readValue, hc, hm, hp]

theorem readEvtCount : s.afterRead false n 0x1C = s.setPage n { s.page n with evtCount := 0 }
    ∧ s.readValue false n 0x1C = (s.page n).evtCount := by
  simp [State.afterRead, State.readValue, State.countRead, pairOf_header, State.regValue, State.headReg]

theorem readMonCountLo : s.afterRead false n 0x30 = s.setPage n { s.page n with mon := (s.page n).mon.take }
    ∧ s.readValue false n 0x30
      = BitVec.ofNat 32 ((s.setPage n { s.page n with mon := (s.page n).mon.take }).regValue n 0x30) :=
  ⟨rfl, rfl⟩
end

/-! ### Writes of a host window's pair -/

section
variable {s : State} {off : W32} (v : W32) (h : regAligned off = true)
include h

theorem exec_counterLoWrite_window {lo : Nat} (ht : s.pageType (off.toNat / 4096) = 7)
    (hw : s.takesWrite false (off.toNat / 4096) (off.toNat % 4096) = true)
    (hp : winPair (off.toNat % 4096) = some (lo, true)) :
    exec (.counterLoWrite off v) s = .next (s.holdLo (off.toNat % 4096) v) := by
  simp [exec_counterLoWrite, execCounterLoWrite, h, ht, hp, regWrite_taken hw]

theorem exec_counterHiWrite_window {lo : Nat} (ht : s.pageType (off.toNat / 4096) = 7)
    (hw : s.takesWrite false (off.toNat / 4096) (off.toNat % 4096) = true)
    (hp : winPair (off.toNat % 4096) = some (lo, false)) :
    exec (.counterHiWrite off v) s = .next (s.loadHi (off.toNat % 4096) v) := by
  simp [exec_counterHiWrite, execCounterHiWrite, h, ht, hp, regWrite_taken hw]

theorem exec_counterLoWrite_other (hno : s.pageType (off.toNat / 4096) ≠ 7
      ∨ (∀ lo, winPair (off.toNat % 4096) ≠ some (lo, true))
      ∨ s.takesWrite false (off.toNat / 4096) (off.toNat % 4096) = false) :
    exec (.counterLoWrite off v) s = .next s := by
  simp only [exec_counterLoWrite, execCounterLoWrite, h, Bool.not_true, Bool.false_eq_true, if_false]
  split
  · next lo ht hp =>
    rcases hno with hno | hno | hno
    · exact absurd ht hno
    · exact absurd hp (hno lo)
    · rw [regWrite_refused hno]
  · rfl

theorem exec_counterHiWrite_other (hno : s.pageType (off.toNat / 4096) ≠ 7
      ∨ (∀ lo, winPair (off.toNat % 4096) ≠ some (lo, false))
      ∨ s.takesWrite false (off.toNat / 4096) (off.toNat % 4096) = false) :
    exec (.counterHiWrite off v) s = .next s := by
  simp only [exec_counterHiWrite, execCounterHiWrite, h, Bool.not_true, Bool.false_eq_true, if_false]
  split
  · next lo ht hp =>
    rcases hno with hno | hno | hno
    · exact absurd ht hno
    · exact absurd hp (hno lo)
    · rw [regWrite_refused hno]
  · rfl
end

/-! ### Monitor windows -/

theorem mem_assigned {s : State} {n : Nat} : n ∈ s.assigned ↔ n < 0xA40 ∧ s.pageType n ≠ 0 := by
  simp [State.assigned]

/-- SNAP changes the stored pages and the assay page's count alone. -/
theorem monSnap_frame (s : State) : s.monSnap = { s with pages := s.monSnap.pages, asy := s.monSnap.asy } := by
  simp only [State.monSnap, State.setAsy]

/-- SNAP is counted (R463). -/
theorem monSnap_asy (s : State) :
    s.monSnap.asy = { s.asy with snaps := BitVec.ofNat 16 (min (s.asy.snaps.toNat + 1) 65535) } := by
  simp only [State.monSnap, State.setAsy, satAdd_eq_min]

/-- SNAP keeps the capture of every assigned page. -/
theorem monSnap_page {s : State} {n : Nat} (hn : n < 0xA40) (ht : s.pageType n ≠ 0) :
    s.monSnap.page n = { s.page n with mon := { (s.page n).mon with kept := some (s.page n).mon.cap } } := by
  simp only [State.monSnap, State.page, State.setAsy_pages, lookD]
  rw [look_map_key n _ _ (mem_assigned.mpr ⟨hn, ht⟩)]
  rfl

/-- CLEAR_ALL empties every window; one that no page has stored is empty already. -/
theorem monClear_page (s : State) (n : Nat) : s.monClear.page n =
    { s.page n with mon := { (s.page n).mon with cap := MonCap.zero, snap := none, kept := none } } := by
  simp only [State.monClear, State.page, lookD]
  rw [look_map_val n (fun p : Page => { p with mon := p.mon.clear })]
  cases look n s.pages <;> rfl

theorem sample_other {m : Mon} {q : Nat} (h : m.run = false ∨ m.quantity.toNat ≠ q) (v : Int) : m.sample q v = m := by
  rcases h with h | h <;> simp [Mon.sample, h]

/-- A window that runs captures a sample of its quantity, limited to 32 bits. -/
theorem sample_cap {m : Mon} {q : Nat} (hr : m.run = true) (hq : m.quantity.toNat = q) (v : Int) :
    (m.sample q v).cap.count = (m.cap.count + 1) % 2 ^ 64
    ∧ (m.cap.count = 0 → (m.sample q v).cap.min = max (-(2 ^ 31 : Int)) (min v (2 ^ 31 - 1))
      ∧ (m.sample q v).cap.max = max (-(2 ^ 31 : Int)) (min v (2 ^ 31 - 1))) := by
  have he : (!m.run || m.quantity.toNat != q) = false := by simp [hr, hq]
  exact ⟨by simp [Mon.sample, he], fun h0 => ⟨by simp [Mon.sample, he, h0], by simp [Mon.sample, he, h0]⟩⟩

theorem exec_monitorSample_offered {s : State} {n q : Nat} (v : Int) (hu : s.mod.railsUp = true)
    (hq : q < monQuantities (s.pageType n)) : exec (.monitorSample n q v) s = .next (s.sample n q v) := by
  simp [exec_monitorSample, execMonitorSample, hu, hq]

theorem exec_monitorSample_other {s : State} {n q : Nat} (v : Int)
    (h : s.mod.railsUp = false ∨ monQuantities (s.pageType n) ≤ q) : exec (.monitorSample n q v) s = .next s := by
  have hb : (s.mod.railsUp && decide (q < monQuantities (s.pageType n))) = false := by
    rcases h with h | h <;> simp [h]
  simp only [exec_monitorSample, execMonitorSample, hb, Bool.false_eq_true, if_false]

/-- Settles O42: reads by what they answer and latch, writes and samples by what they store. -/
theorem countersAndMonitorsAct : Obligations.CountersAndMonitorsAct := by
  refine ⟨?_, ?_, ?_, ?_, ?_, ?_, ?_, ?_, ?_, ?_, ?_⟩
  · intro s off lo h ho hc hm hp
    obtain ⟨ha, hv⟩ := readLo_of_pair (n := off.toNat / 4096) hc hm hp
    rw [exec_counterLoRead_aligned s h, hostRead_open rfl rfl ho, ha, hv]
  · intro s off v lo h ht hw
    exact ⟨exec_counterLoWrite_window v h ht hw, exec_counterHiWrite_window v h ht hw⟩
  · intro s off v h
    refine ⟨exec_counterLoWrite_other v h, exec_counterHiWrite_other v h, fun ho => ?_⟩
    rw [exec_counterLoRead_aligned s h, hostRead_closed ho]
  · intro s n hn ho
    obtain ⟨h1, h2⟩ := pageOffset (o := 0x1C) hn (by omega)
    obtain ⟨h3, h4⟩ := pageOffset (o := 0x30) hn (by omega)
    constructor
    · rw [exec_evtCount, hostRead_open h1 h2 ho, readEvtCount.1, readEvtCount.2]
    · rw [exec_monCountLo, hostRead_open h3 h4 ho, readMonCountLo.1, readMonCountLo.2]
  · intro s n hn ho
    constructor
    · rw [exec_evtCount, hostRead_closed (by rwa [(pageOffset hn (by decide)).1])]
    · rw [exec_monCountLo, hostRead_closed (by rwa [(pageOffset hn (by decide)).1])]
  · exact fun s n v ht => congrArg _ (regWrite_taken ht _)
  · exact fun s n ht => congrArg _ (regWrite_taken ht _)
  · intro s ht
    exact ⟨⟨s.monSnap, congrArg _ (regWrite_taken ht _), monSnap_frame s, monSnap_asy s, fun n => monSnap_page⟩,
      s.monClear, congrArg _ (regWrite_taken ht _), rfl, monClear_page s⟩
  · exact fun s n v => ⟨fun ht => congrArg _ (regWrite_refused ht _), fun ht => congrArg _ (regWrite_refused ht _),
      fun ht => ⟨congrArg _ (regWrite_refused ht _), congrArg _ (regWrite_refused ht _)⟩⟩
  · exact fun s n q v => ⟨exec_monitorSample_offered v, exec_monitorSample_other v⟩
  · exact fun m q v => ⟨fun h => sample_other h v, fun hr hq => sample_cap hr hq v⟩

end Sys2Proof.Proofs

/-! ## Idle time (R26, R27, R417; log 18) -/

namespace Sys2Proof.Proofs
open Sys2Proof.Machine

/-- What an idle step makes of a state before it looks at a switch: beats with the rails, device time with the
management domain. -/
def idled (s : State) : State :=
  let t := if s.mod.railsUp then s.beatAll else s
  if s.mod.mgmtUp then { t with time := t.time + 1000 } else t

section
variable (s : State)

theorem step_idle (h : s.pending = []) : step s = .next (idled s).endSwitch := by
  have hm : (if s.mod.railsUp then s.beatAll else s).mod = s.mod := by split <;> rfl
  simp only [step, h, tick, idled, hm]
  rfl

theorem idled_frame :
    idled s = { s with time := (idled s).time, regions := (idled s).regions, fabrics := (idled s).fabrics } := by
  simp only [idled]
  split <;> split <;> rfl

theorem idled_su : (idled s).su = s.su := by rw [idled_frame s]

theorem idled_time_up (h : s.mod.mgmtUp = true) : (idled s).time = s.time + 1000 := by
  simp only [idled, h, if_true]
  split <;> rfl

theorem idled_time_down (h : s.mod.mgmtUp = false) : (idled s).time = s.time := by
  simp only [idled, h, Bool.false_eq_true, if_false]
  split <;> rfl

/-- Device time passes beside the beats. -/
theorem idled_domains_up (h : s.mod.railsUp = true) :
    (idled s).regions = s.beatAll.regions ∧ (idled s).fabrics = s.beatAll.fabrics := by
  simp only [idled, h, if_true]
  split <;> exact ⟨rfl, rfl⟩

theorem idled_domains_down (h : s.mod.railsUp = false) :
    (idled s).regions = s.regions ∧ (idled s).fabrics = s.fabrics := by
  simp only [idled, h, Bool.false_eq_true, if_false]
  split <;> exact ⟨rfl, rfl⟩

theorem idled_region (h : s.mod.railsUp = true) {r : Nat} (hr : r < 32) : (idled s).region r =
    if (s.region r).rail = true
      then { s.region r with beats := (s.region r).beats + BitVec.ofNat 64 (s.regionRate r) } else s.region r := by
  have hb : (idled s).region r = s.beatAll.region r := congrArg (lookD Region.reset r) (idled_domains_up s h).1
  rw [hb]
  split
  · next hrail => rw [s.beatAll_region hr hrail, tickMicros, Nat.mul_one]
  · next hrail => exact s.beatAll_region_off (Bool.eq_false_iff.mpr hrail)

theorem idled_fabric (h : s.mod.railsUp = true) {b : Nat} (hb : b < 4) :
    (idled s).fabric b = { s.fabric b with beats := (s.fabric b).beats + BitVec.ofNat 64 (s.fabricRate b) } := by
  have he : (idled s).fabric b = s.beatAll.fabric b := congrArg (lookD FabDomain.reset b) (idled_domains_up s h).2
  rw [he, s.beatAll_fabric hb, tickMicros, Nat.mul_one]

theorem endSwitch_none (h : s.su.revert = none) : s.endSwitch = s := by
  simp only [State.endSwitch, h]

theorem endSwitch_some {v : Revert} (h : s.su.revert = some v) :
    s.endSwitch = if (s.time - v.time).toNat ≤ 1000000000 then s else s.sealSwitch v := by
  simp only [State.endSwitch, h]
end

/-- Settles O2: the idle step is `idled`, which leaves the switch as it was, and then the switch's end. -/
theorem idleStepLetsTimePass : Obligations.IdleStepLetsTimePass := by
  intro s hq
  refine ⟨idled s, step_idle s hq, idled_frame s, fun h => endSwitch_none _ (by rw [idled_su, h]),
    fun v h => endSwitch_some _ (by rw [idled_su, h]), idled_time_up s, idled_time_down s, idled_domains_down s,
    fun h => ⟨fun r hr => idled_region s h hr, fun b hb => idled_fabric s h hb⟩⟩

end Sys2Proof.Proofs

/-! ## JOB_LOAD (R23, R243, R248, R250, R252, R257, R294; log 14, 28, 36) -/

namespace Sys2Proof.Proofs
open Sys2Proof.Machine

section
variable {s : State} {f : Fetch} {r : Ring} {c : Cmd}

theorem exec_jobLoad_waits (f : Fetch) (h : s.retireDue = true) : exec (.jobLoad f) s = .next s :=
  congrArg _ (if_pos h)

theorem exec_jobLoad_accepted (ha : s.accepts f 0x01 r c) (hd : s.retireDue = false) :
    exec (.jobLoad f) s = .next (doJobLoad (s.consumed f r) c) := by
  have hw : exec (.jobLoad f) s = .next (if s.retireDue then s else s.command f 0x01 doJobLoad) := rfl
  rw [hw, hd, State.command_accepts ha]
  rfl
end

section
variable {s : State} {c : Cmd}

theorem doJobLoad_badWords {n : Nat} (h : s.loadCheck c = n + 1) : doJobLoad s c = s.finishLoad c ⟨0, 0, n + 1⟩ := by
  simp only [doJobLoad, h]

theorem doJobLoad_rejected {x : Reject} (hc : s.loadCheck c = 0)
    (hx : s.loadReject c.load (s.locBytes c (c.w 1) (c.w 2) c.data) = some x) : doJobLoad s c = s.finishLoad c x := by
  simp only [doJobLoad, hc, hx]

/-- A binary that the loader accepts: its job is resumed from the image that the command names, or made resident. -/
theorem doJobLoad_loaded (hc : s.loadCheck c = 0)
    (hx : s.loadReject c.load (s.locBytes c (c.w 1) (c.w 2) c.data) = none) : doJobLoad s c =
      if c.load.snap
      then s.resumeJob c (c.load.job (binaryOf (s.locBytes c (c.w 1) (c.w 2) c.data))).applyImages
        (s.locBytes c (c.w 5) (c.w 6) c.snap)
      else s.makeResident c (c.load.job (binaryOf (s.locBytes c (c.w 1) (c.w 2) c.data))).applyImages := by
  simp only [doJobLoad, hc, hx]

variable {j : Job} {img : List Byte}

theorem resumeJob_misfit (h : s.snapBad c.load j img = true) : s.resumeJob c j img = s.finishLoad c ⟨0, 0, 0x0408⟩ :=
  if_pos h

/-- A fitting image's job is resident, and its sequences are entered, once its regenerable regions are regenerated. -/
theorem resumeJob_regenerated {k : Job} (h : s.snapBad c.load j img = false)
    (hk : s.regenAll (j.takeImage img).regen (j.takeImage img) = .done k) : s.resumeJob c j img =
      ({ s with
        freeCtr := s.freeCtr + redoFuel k 0 + 1
        seqTab := (snapSeqs img).foldl (fun l (x : Nat × Nat) => put x.1 (SeqEntry.ofCode x.2 k.num) l)
          s.seqTab } : State).makeResident c k := by
  simp only [State.resumeJob, h, hk, Bool.false_eq_true, if_false]

theorem resumeJob_faults {code x : Nat} (h : s.snapBad c.load j img = false)
    (hk : s.regenAll (j.takeImage img).regen (j.takeImage img) = .fault code x) :
    s.resumeJob c j img = s.finishLoad c ⟨0, 0, code⟩ := by
  simp only [State.resumeJob, h, hk, Bool.false_eq_true, if_false]
end

theorem lmap_of_placed {s t : State} (h : t.placed = s.placed) : t.lmap = s.lmap :=
  congrArg (fun x => x.2.2.2.2.2.2.1) h

/-- A job that is made resident stands at the end of the residents. -/
theorem makeResident_nums (s : State) (c : Cmd) (j : Job) : (s.makeResident c j).nums = s.nums ++ [j.num] := by
  have hr : s.remap.nums = s.nums := State.nums_of_keep s.remap_keep
  simp only [State.makeResident, State.finishLoad, State.pushCpl_nums]
  rw [← hr]
  exact List.map_append

theorem remap_lmap (s : State) : s.remap.lmap = mapR23 s.healthyIn := by simp only [State.remap]

/-- A completion and the new job's pages leave the map of the logical cores as R23 made it. -/
theorem makeResident_lmap (s : State) (c : Cmd) (j : Job) : (s.makeResident c j).lmap = mapR23 s.healthyIn := by
  rw [State.makeResident, lmap_of_placed (State.finishLoad_placed ..), State.mapPages, remap_lmap]

/-- Settles O10: the accepted entry is `doJobLoad`, by the check of its words, the loader's verdict and the image. -/
theorem jobLoadActs : Obligations.JobLoadActs := by
  refine ⟨?_, ?_, ?_, fun s c j => ⟨exec_jobLoad_waits, makeResident_nums s c j, makeResident_lmap s c j⟩⟩
  · rintro s f r c bs j ha hd hc rfl hx rfl
    rw [← State.consumed_locBytes s f r] at hx ⊢
    rw [exec_jobLoad_accepted ha hd, doJobLoad_loaded hc hx]
    refine ⟨fun hs => by rw [if_neg (by simp [hs])], fun img hs himg => ?_⟩
    rw [← State.consumed_locBytes s f r] at himg
    subst himg
    rw [if_pos hs]
    refine ⟨fun hb => congrArg _ (resumeJob_misfit hb), fun hb => ?_⟩
    cases hk : (s.consumed f r).regenAll _ _ with
    | done k => rw [resumeJob_regenerated hb hk, State.consumed_freeCtr, State.consumed_seqTab]
    | fault code x => exact congrArg _ (resumeJob_faults hb hk)
  · intro s f r c x ha hd hc hx
    rw [← State.consumed_locBytes s f r] at hx
    rw [exec_jobLoad_accepted ha hd, doJobLoad_rejected hc hx]
    rfl
  · intro s f r c n ha hd hc
    rw [exec_jobLoad_accepted ha hd, doJobLoad_badWords hc]
    rfl

end Sys2Proof.Proofs

/-! ## The supply and the rails (R36, R418, R419, R428 to R431, R436, R438; log 35) -/

namespace Sys2Proof.Proofs
open Sys2Proof.Machine

/-- A state with the gate open: the queue applied, an erase that was suspended under way again, and the episode over
(R418, R419). -/
def gateOpened (s : State) : State :=
  { s.drainFlash with
    mod := { s.mod with flashGate := false, episode := none }
    flash := { s.drainFlash.flash with suspended := false } }

/-! ### What each command does with the rails up, by the sample that it brings -/

section
variable {s : State} (w rail cause mv : Nat) (back : Bool) (hup : s.mod.railsUp = true)
include hup

/-- The guard that most of these commands begin with. -/
theorem ite_railsUp {α : Type} (a b : α) : (if !s.mod.railsUp then a else b) = b := if_neg (by simp [hup])

theorem exec_powerCap_up : exec (.powerCap w) s = .next (s.setMod { s.mod with
    inW := w, powerCap := nextPowerCap s.mod.powerCap w
    powerOver := s.mod.powerOver && decide (3200 < w) && decide (nextPowerCap s.mod.powerCap w = 800) }).settle :=
  ite_railsUp hup _ _

theorem exec_flashGateClose_up : exec (.flashGateClose mv) s =
    if 47000 ≤ mv then .next (s.inputIs mv) else .next (s.sagAt 1 mv 10000).closeGate.settle :=
  ite_railsUp hup _ _

theorem exec_flashGateOpen_up : exec (.flashGateOpen mv) s =
    if mv ≤ 47500 then .next (s.inputIs mv) else .next (gateOpened (s.inputIs mv)).settle.recResume :=
  ite_railsUp hup _ _

theorem exec_sagCap_up : exec (.sagCap mv) s =
    if 45500 ≤ mv then .next (s.inputIs mv) else .next (s.sagBegin 2 mv).settle :=
  ite_railsUp hup _ _

theorem exec_sagCapEnd_up : exec (.sagCapEnd mv) s =
    if mv < 45500 then .next (s.inputIs mv)
    else .next ((s.inputIs mv).setMod { (s.inputIs mv).mod with sagCap := false }).settle :=
  ite_railsUp hup _ _

theorem exec_quiesce_up : exec (.quiesce mv) s =
    if 44000 ≤ mv ∨ s.mod.quiesced = true then .next (s.inputIs mv)
    else .next (((s.sagBegin 3 mv).hold mv).setMod
      { ((s.sagBegin 3 mv).hold mv).mod with quiesced := true }).settle :=
  ite_railsUp hup _ _

theorem exec_overvoltage_up {u : State} (hu : u = ((s.inputIs mv).hold mv).raise { code := 0x33, w6 := mv % 65536 }) :
    exec (.overvoltage mv) s =
      if mv ≤ 57000 ∨ s.mod.overVolt = true then .next (s.inputIs mv)
      else .next (u.setMod { u.mod with overVolt := true }).settle := by
  subst hu
  exact ite_railsUp hup _ _

theorem exec_railFault_up : exec (.railFault rail cause mv back) s =
    if rail < 32 then .next (s.regionRail rail cause mv back).settle
    else .next ((s.railsOff 0xF true).setMod
      { (s.railsOff 0xF true).mod with railFault := true, railLatch := some (railWords rail cause 3 mv) }).settle :=
  ite_railsUp hup _ _
end

/-! ### POWER_OVER (R438) -/

section
variable {s : State} {w : Nat}

theorem exec_powerOver_begins (hup : s.mod.railsUp = true) (hw : 3200 < w) (hc : s.mod.powerCap = 800)
    (ho : s.mod.powerOver = false) : exec (.powerOver w) s = .next
      ((s.setMod { s.mod with powerOver := true }).raise { code := 0x39, w6 := w % 65536, w7 := 800 }).settle := by
  rw [← hc]
  exact if_neg (by simp [hup, hc, ho, hw])

theorem exec_powerOver_stays (h : w ≤ 3200 ∨ s.mod.powerCap ≠ 800 ∨ s.mod.powerOver = true) :
    exec (.powerOver w) s = .next s :=
  if_pos (by rcases h with h | h | h <;> simp [h])
end

/-! ### The ends of a hold, which do not need the rails (R428, R429) -/

section
variable (s : State) (mv : Nat)

theorem exec_quiesceEnd : exec (.quiesceEnd mv) s =
    if mv < 44000 ∨ s.mod.quiesced = false then .next (s.inputIs mv)
    else .next ((((s.inputIs mv).setMod { (s.inputIs mv).mod with quiesced := false }).resume mv).settle) := by
  rw [← s.inputIs_quiesced mv]
  rfl

theorem exec_overvoltageEnd : exec (.overvoltageEnd mv) s =
    if 56000 < mv ∨ s.mod.overVolt = false then .next (s.inputIs mv)
    else .next ((((s.inputIs mv).setMod { (s.inputIs mv).mod with overVolt := false }).resume mv).settle) := by
  rw [← s.inputIs_overVolt mv]
  rfl
end

/-! ### The first threshold of an episode, and the gate's opening -/

/-- The event that begins an episode leaves the episode as it was set, so its record follows it at once (R430). -/
theorem sagAt_begins {s : State} {depth mv before : Nat} {e : Sag} (h : s.mod.episode = none)
    (he : e = ⟨depth, mv, BitVec.ofNat 64 (s.time.toNat - before), s.errSeq⟩) : s.sagAt depth mv before =
      ((s.setMod { s.mod with inMv := mv, episode := some e }).raise { code := 0x30, info := true }).sagRecord e := by
  subst he
  simp only [State.sagAt, h]
  refine State.sagFollow_some ?_
  rw [mod_of_rest (State.raise_rest _ _)]
  rfl

/-- The gate's opening leaves a FINISH that waits where it is (R421). -/
theorem gateOpened_settle_waiting (s : State) (mv : Nat) :
    (gateOpened (s.inputIs mv)).settle.su.rcv.waiting = s.su.rcv.waiting := by
  have hg : (gateOpened (s.inputIs mv)).su = (s.inputIs mv).su := rfl
  rw [State.settle_rcv, hg, State.inputIs_rcv]

/-- Settles O29: each command by the sample that it brings. -/
theorem supplyCommandsAct : Obligations.SupplyCommandsAct := by
  refine ⟨fun s w hup => exec_powerCap_up w hup,
    fun s w hup => ⟨exec_powerOver_begins hup, exec_powerOver_stays⟩, ?_, ?_, ?_, ?_, ?_, ?_, ?_, ?_⟩
  · intro s mv hup
    rw [exec_flashGateClose_up mv hup]
    exact ⟨fun h => if_neg (by omega), fun e => sagAt_begins, fun h => if_pos h⟩
  · rintro s mv u v hup rfl hv
    have hw := gateOpened_settle_waiting s mv
    replace hv : v = gateOpened (s.inputIs mv) := hv
    rw [exec_flashGateOpen_up mv hup, hv]
    refine ⟨fun h hn => ?_, fun env h hn => ?_, fun h => if_pos h⟩
    · rw [if_neg (by omega), State.recResume_idle (hw.trans hn)]
    · rw [if_neg (by omega), State.recResume_some (hw.trans hn)]
  · intro s mv hup
    rw [exec_sagCap_up mv hup, exec_sagCapEnd_up mv hup]
    exact ⟨fun h => ⟨if_neg (by omega), if_pos h⟩, fun h => ⟨if_pos h, if_neg (by omega)⟩⟩
  · intro s mv hup
    rw [exec_quiesce_up mv hup]
    exact ⟨fun h hq => if_neg (by simp [hq, h]), fun h => if_pos h⟩
  · intro s mv
    rw [exec_quiesceEnd]
    exact ⟨fun h hq => if_neg (by simp [hq, h]), fun h => if_pos h⟩
  · intro s mv u hup hu
    rw [exec_overvoltage_up mv hup hu]
    exact ⟨fun h ho => if_neg (by simp [ho, h]), fun h => if_pos h⟩
  · intro s mv
    rw [exec_overvoltageEnd]
    exact ⟨fun h ho => if_neg (by simp [ho, h]), fun h => if_pos h⟩
  · intro s rail cause mv back hup
    rw [exec_railFault_up rail cause mv back hup]
    exact ⟨fun h => if_pos h, fun h => if_neg (by omega)⟩

end Sys2Proof.Proofs

/-! ## Number formats: rounding, block elements and the conversion into I8 (R49, R60, R64) -/

namespace Sys2Proof.Proofs
open Sys2Proof.Machine

/-! ### Rounding: the remainder over the denominator against one half and zero (R60) -/

section
variable {r d : Nat} (hd : 0 < d)
include hd

theorem half_lt_ratio : 1 / 2 < (r : Rat) / d ↔ d < 2 * r := by
  rw [div_lt_div_iff₀ two_pos (Nat.cast_pos.mpr hd), one_mul, mul_comm]
  exact_mod_cast Iff.rfl

theorem ratio_eq_half : (r : Rat) / d = 1 / 2 ↔ 2 * r = d := by
  rw [div_eq_div_iff (Nat.cast_ne_zero.mpr hd.ne') two_ne_zero, one_mul, mul_comm]
  exact_mod_cast Iff.rfl

theorem ratio_pos : 0 < (r : Rat) / d ↔ 0 < r := by
  rw [div_pos_iff_of_pos_right (Nat.cast_pos.mpr hd), Nat.cast_pos]

theorem roundInt_eq_roundRat (num : Nat) (mode : Rnd) : roundInt num d mode = roundRat ((num : Rat) / d) mode := by
  simp only [roundInt, roundRat, floor_div num d hd, Int.toNat_natCast, rest_div num d hd]
  cases mode with
  | rne => simp only [half_lt_ratio hd, ratio_eq_half hd, gt_iff_lt]
  | rto => simp only [ratio_pos hd, odd_or_one, gt_iff_lt]

end

/-- Settles O49, by quotient and remainder: they are the floor and, over the denominator, the rest. -/
theorem roundIntRounds : Obligations.RoundIntRounds :=
  fun num _ mode hd => roundInt_eq_roundRat hd num mode

/-! ### Block elements (R49) -/

theorem badExp_iff (b : Nat) : badExp b = true ↔ 0x20 ≤ b ∧ b ≤ 0xDF := by
  rw [badExp, decide_eq_true_eq]
  omega

theorem signed_byte_low {b : Nat} (h : b < 128) : signed b 8 = b := by
  rw [signed, Nat.mod_eq_of_lt (by omega), if_pos (by omega)]

theorem signed_byte_high {b : Nat} (h : 128 ≤ b) (hb : b < 256) : signed b 8 = (b : Int) - 256 := by
  rw [signed, Nat.mod_eq_of_lt (by omega), if_neg (by omega)]
  rfl

/-- With an exponent byte that is not reserved, the element's value is scaled; zero and the invalid code have value 0
on both sides. -/
theorem rat_decodeElem_block {f : Fmt} (hf : isBlock f = true) (c : Nat) {b : Nat} (hb : badExp b = false) :
    (decodeElem f c b).toFrac.rat = (decodeCode f c).toFrac.rat * (2 : Rat) ^ signed b 8 := by
  simp only [decodeElem, hf, hb, if_true, Bool.false_eq_true, if_false]
  split
  next => rw [rat_ofFrac, rat_scale]
  next h => rw [rat_of_not_finite f c hf h, zero_mul]

/-- Settles O50: the exponent byte scales the element's fraction by its two's-complement value. -/
theorem blockElementValue : Obligations.BlockElementValue := by
  intro f c b hf hb
  have ok (h : ¬ (0x20 ≤ b ∧ b ≤ 0xDF)) : badExp b = false := by rwa [← badExp_iff, Bool.not_eq_true] at h
  refine ⟨badExp_iff b, fun hl => ?_, fun hh => ?_⟩
  · rw [rat_decodeElem_block hf c (ok (by omega)), signed_byte_low (by omega)]
  · rw [rat_decodeElem_block hf c (ok (by omega)), signed_byte_high (by omega) hb]

/-! ### Conversion into I8 (R64) -/

theorem signed_clamp_pos (q : Nat) : signed (if 127 < q then 0x7F else q) 8 = min (q : Int) 127 := by
  rw [signed_byte_low (by split <;> omega)]
  split <;> omega

theorem signed_clamp_neg (q : Nat) : signed (if 128 < q then 0x80 else (256 - q) % 256) 8 = max (-(q : Int)) (-128) := by
  rcases Nat.eq_zero_or_pos q with rfl | hq
  · decide
  · rw [signed_byte_high (by split <;> omega) (by split <;> omega)]
    split <;> omega

/-- The sign of a value as a factor. -/
def signOf (neg : Bool) : Rat := if neg then -1 else 1

theorem rat_toFrac (v : Val) : v.toFrac.rat = signOf v.neg * ((v.num : Rat) / v.den) := by
  cases h : v.neg <;> simp [Val.toFrac, Frac.rat, signOf, h, neg_div]

theorem signOf_div (a b : Bool) : signOf a / signOf b = signOf (a != b) := by
  cases a <;> cases b <;> norm_num [signOf]

/-- The fraction that `encodeI8` rounds is the magnitude of the quotient; its sign is the exclusive or of the signs. -/
theorem rat_quotient (x a : Val) : x.toFrac.rat / a.toFrac.rat
    = signOf (x.neg != a.neg) * (((x.num * a.den : Nat) : Rat) / ((x.den * a.num : Nat) : Rat)) := by
  rw [rat_toFrac, rat_toFrac, mul_div_mul_comm, signOf_div, div_div_div_eq, Nat.cast_mul, Nat.cast_mul]

/-- The magnitude that `encodeI8` gives a finite value, before the clamp. -/
def i8Mag (a : Nat) (x : Val) : Nat :=
  roundInt (x.num * (decodePosit a 8 2).den) (x.den * (decodePosit a 8 2).num) .rne

section
variable {a : Nat} {x : Val}

theorem encodeI8_badScale (h : (decodePosit a 8 2).cls ≠ .finite) : encodeI8 a x = { code := 0, inv := true } :=
  if_pos h

theorem encodeI8_zero (hs : (decodePosit a 8 2).cls = .finite) (hx : x.cls = .zero) : encodeI8 a x = { code := 0 } := by
  simp [encodeI8, hs, hx]

variable (hs : (decodePosit a 8 2).cls = .finite) (hx : x.cls = .finite)
include hs hx

theorem code_encodeI8_pos (h : (x.neg != (decodePosit a 8 2).neg) = false) :
    (encodeI8 a x).code = if 127 < i8Mag a x then 0x7F else i8Mag a x := by
  simp only [encodeI8, i8Mag, hs, hx, h, ne_eq, not_true, if_false, Bool.false_eq_true, apply_ite Enc.code]
  rfl

theorem code_encodeI8_neg (h : (x.neg != (decodePosit a 8 2).neg) = true) :
    (encodeI8 a x).code = if 128 < i8Mag a x then 0x80 else (256 - i8Mag a x) % 256 := by
  simp only [encodeI8, i8Mag, hs, hx, h, ne_eq, not_true, if_false, if_true, apply_ite Enc.code]
  rfl

end

/-- The conversion of a finite value, by the signs: R64's formula for a positive and for a negative quotient. -/
theorem signed_encodeI8 {a : Nat} {x : Val} (hx : x.exact) (hs : (decodePosit a 8 2).cls = .finite)
    (hf : x.cls = .finite) {y : Rat} (hy : y = x.toFrac.rat / (decodePosit a 8 2).toFrac.rat) :
    (0 < y ∧ signed (encodeI8 a x).code 8 = min (roundRat y .rne : Int) 127)
    ∨ (y < 0 ∧ signed (encodeI8 a x).code 8 = max (-(roundRat (-y) .rne : Int)) (-128)) := by
  obtain ⟨han, had⟩ := posit_pos a 8 2 hs
  have hn : 0 < x.num := hx.1.elim (fun h => by simp [hf] at h) And.right
  have hd : 0 < x.den * (decodePosit a 8 2).num := Nat.mul_pos hx.2 han
  have hpos := (ratio_pos hd).mpr (Nat.mul_pos hn had)
  have hmag : i8Mag a x = _ := roundInt_eq_roundRat hd _ .rne
  rw [rat_quotient] at hy
  cases h : x.neg != (decodePosit a 8 2).neg with
  | false =>
    rw [h, signOf, if_neg Bool.false_ne_true, one_mul] at hy
    rw [code_encodeI8_pos hs hf h, signed_clamp_pos, hmag, ← hy]
    exact .inl ⟨hy ▸ hpos, rfl⟩
  | true =>
    rw [h, signOf, if_pos rfl, neg_one_mul, eq_comm, neg_eq_iff_eq_neg] at hy
    rw [code_encodeI8_neg hs hf h, signed_clamp_neg, hmag, hy]
    exact .inr ⟨neg_pos.mp (hy ▸ hpos), rfl⟩

/-- Settles O51, by the scale's class, the value's class and the sign of the quotient. -/
theorem convertToI8 : Obligations.ConvertToI8 := by
  intro a x hx
  refine ⟨fun h => ?_, fun hs h0 => ?_, fun y hs hf hy => ?_⟩
  · rw [encodeI8_badScale (by rcases h with h | h <;> simp [h])]
    exact ⟨rfl, rfl⟩
  · rw [encodeI8_zero hs h0]
  · obtain ⟨hpos, he⟩ | ⟨hneg, he⟩ := signed_encodeI8 hx hs hf hy
    · exact ⟨fun _ => he, fun h => absurd hpos h.not_gt⟩
    · exact ⟨fun h => absurd hneg h.not_gt, fun _ => he⟩

end Sys2Proof.Proofs

/-! ## The exact path's lane sum (R58, R73, R74) -/

namespace Sys2Proof.Proofs
open Sys2Proof.Machine

/-! ### What one product adds -/

/-- The magnitude that a finite product adds, in units of 2^−112, as `exactGroup` computes it. -/
def laneMag (p : Product) : Nat :=
  if 0 ≤ p.exp + 112 then p.mag * 2 ^ (p.exp + 112).toNat else p.mag / 2 ^ (-(p.exp + 112)).toNat

theorem units_of_not_finite {p : Product} (h : p.cls ≠ .finite) : p.units = 0 := if_neg h

theorem natCast_laneMag (p : Product) : (laneMag p : Int) =
    if 0 ≤ p.exp + 112 then (p.mag : Int) * 2 ^ (p.exp + 112).toNat else (p.mag : Int) / 2 ^ (-(p.exp + 112)).toNat := by
  rw [laneMag]
  split <;> push_cast <;> rfl

theorem add_units_of_finite {p : Product} (h : p.cls = .finite) (v : Int) :
    v + p.units = if p.neg then v - laneMag p else v + laneMag p := by
  rw [Product.units, if_pos h, ← natCast_laneMag]
  split
  · rw [neg_one_mul, sub_eq_add_neg]
  · rw [one_mul]

/-! ### What a list of products adds -/

/-- What the products of a pass add to a lane, in units of 2^−112. -/
def unitSum (ps : List (Nat × Nat)) : Int := (ps.map (fun x => (planchetProduct x.1 x.2).units)).sum

theorem unitSum_cons (x : Nat × Nat) (ps : List (Nat × Nat)) :
    unitSum (x :: ps) = (planchetProduct x.1 x.2).units + unitSum ps := List.sum_cons

theorem unitSum_take_add_drop (n : Nat) (ps : List (Nat × Nat)) :
    unitSum (ps.take n) + unitSum (ps.drop n) = unitSum ps := by
  rw [unitSum, unitSum, unitSum, ← List.sum_append, ← List.map_append, List.take_append_drop]

theorem unitSum_perm {ps qs : List (Nat × Nat)} (h : ps.Perm qs) : unitSum ps = unitSum qs := (h.map _).sum_eq

/-! ### The value of a lane over a group, over the groups and over the pass -/

theorem v_exactGroup (col j i : Nat) (ps : List (Nat × Nat)) (l : LaneVal) :
    (exactGroup col j i ps l).v = l.v + unitSum ps := by
  induction ps generalizing i l with
  | nil => exact (add_zero _).symm
  | cons x ps ih =>
    rw [exactGroup, ih, unitSum_cons, ← add_assoc]
    congr 1
    cases h : (planchetProduct x.1 x.2).cls with
    | finite => exact (add_units_of_finite h l.v).symm
    | zero | infinite | invalid =>
      rw [units_of_not_finite (by simp [h])]
      exact (add_zero _).symm

/-- Every group takes at least one product, so as many groups as products run the list out. -/
theorem v_exactGroups (col : Nat) {gk : Nat} (hgk : 0 < gk) (n j : Nat) (ps : List (Nat × Nat)) (l : LaneVal)
    (hn : ps.length ≤ n) : (exactGroups col gk n j ps l).v = l.v + unitSum ps := by
  induction n generalizing j ps l with
  | zero =>
    rw [List.eq_nil_of_length_eq_zero (Nat.le_zero.mp hn)]
    exact (add_zero _).symm
  | succ n ih =>
    cases ps with
    | nil => exact (add_zero _).symm
    | cons x ps =>
      have hdrop : ((x :: ps).drop gk).length ≤ n := by
        rw [List.length_drop]
        rw [List.length_cons] at hn ⊢
        omega
      rw [exactGroups, if_neg (by simp), ih _ _ _ hdrop, v_exactGroup, add_assoc, unitSum_take_add_drop]

/-- The overflow check and the pass counter write the lane's status alone. -/
theorem v_passExact (col gk : Nat) (ps : List (Nat × Nat)) (l : LaneVal) :
    (passExact col gk ps l).v = (exactGroups col gk (ps.length + 1) 0 ps l).v := by
  simp only [passExact]
  split <;> rfl

theorem v_passExact_eq_add_unitSum (col : Nat) {gk : Nat} (hgk : 0 < gk) (ps : List (Nat × Nat)) (l : LaneVal) :
    (passExact col gk ps l).v = l.v + unitSum ps := by
  rw [v_passExact, v_exactGroups col hgk _ _ _ _ (Nat.le_succ _)]

/-- Settles O53: the lane's value after a pass is its value before plus the sum over its products, and that sum does not
depend on their order. -/
theorem laneSumIsExact : Obligations.LaneSumIsExact := by
  refine ⟨fun col gk ps l hgk => v_passExact_eq_add_unitSum col hgk ps l, fun col gk col' gk' ps qs l hgk hgk' hp => ?_⟩
  rw [v_passExact_eq_add_unitSum col hgk, v_passExact_eq_add_unitSum col' hgk', unitSum_perm hp]

end Sys2Proof.Proofs

/-! ## The engines' records (R105, R107, R128, R142, R150, R154, R227, R242; log 10, 45) -/

namespace Sys2Proof.Proofs
open Sys2Proof.Machine

/-- A record that meets no error leaves the outcome of its operation, here under the name that a statement gives it. -/
theorem doRecord_outcome {s : State} {d op : Nat} {i : Iss} {o : RecOut} {f : Ctx → Nat → RecOut}
    (hi : s.issueAt d op = some i) (ha : s.armedHbm = false) (ho : o = f (s.ctx i.job i.run d) i.rec_)
    (hf : o.fault = none) (hc : o.consumed = []) : s.doRecord d op .ok f = s.left i d o := by
  subst ho
  exact State.doRecord_left hi ha hf hc

/-- Settles O16: each record is `doRecord` with its own operation, and after a pass its core's mill is woken. -/
theorem engineRecordsAct : Obligations.EngineRecordsAct := by
  refine ⟨?rngFill, ?millLoad, ?millPass, ?finDrain, ?finReduce, ?finCheck⟩
  case millPass =>
    intro s d i o hi ha ho hf hc
    exact congrArg (fun t => Host.Outcome.next (s.wakeMill t d)) (doRecord_outcome hi ha ho hf hc)
  all_goals
    intro s d i o hi ha ho hf hc
    exact congrArg _ (doRecord_outcome hi ha ho hf hc)

end Sys2Proof.Proofs

/-! ## Sequences and batches (R122, R123, R254 to R256; log 31) -/

namespace Sys2Proof.Proofs
open Sys2Proof.Machine

/-! ### What the taking of an entry leaves as it was -/

/-- The owner of the ring whose entry is taken. -/
theorem consumed_ringJob (s : State) (f : Fetch) (r : Ring) : (s.consumed f r).ringJob f.ring = r.job := by
  rw [State.ringJob, State.consumed, State.setRing_ring]

theorem consumed_marked (s : State) (f : Fetch) (r : Ring) (job ring : Nat) :
    (s.consumed f r).marked job ring = s.marked job ring := by
  funext b
  rw [State.marked, State.consumed_batchRule, State.consumed_seqTab]
  rfl

/-! ### The effect of an entry that is not refused -/

/-- The sequence that SEQ_OPEN enters, as its word 1 gives it (R255). -/
def openedSeq (c : Cmd) : SeqEntry :=
  { closing := false, job := c.job, lcore := bits (c.w 1) 8 0, rule := bits (c.w 1) 14 9
    cacheDesc := bits (c.w 1) 26 15, length := 0, reqRing := bits (c.w 1) 46 27 }

section
variable {s : State} {c : Cmd}

theorem doSeqOpen_opens {j : Job} {i : Nat} (hj : s.job c.job = some j)
    (hr : s.seqRing c.job (bits (c.w 1) 46 27) = true) (hb : bits (c.w 1) 14 9 < j.bin.batch.length)
    (hi : lowestFree (s.seqTab.map (·.1)) 0 2048 = some i) :
    doSeqOpen s c = ({ s with seqTab := put i (openedSeq c) s.seqTab }).finishWith c i 0 := by
  simp only [doSeqOpen, hj, hr, hi, if_neg (Nat.not_le.mpr hb)]
  rfl

theorem doSeqClose_closes {e : SeqEntry} (he : s.seqOf c.job (c.w 1) = some e) :
    doSeqClose s c = ({ s with
      seqTab := if s.batches.any (fun b => b.reqs.any (fun q => q.index == c.w 1))
        then put (c.w 1) { e with closing := true } s.seqTab else del (c.w 1) s.seqTab }).finish c 0 := by
  simp only [doSeqClose, he]
  split <;> rfl

theorem doSeqRequest_enters {job : Nat} {e : SeqEntry} (hj : s.ringJob c.ring = job) (ho : c.opcode = 0x20)
    (hw : c.seqWf job = true) (he : s.seqOf job (bits (c.w 1) 10 0) = some e) (hc : e.closing = false)
    (hl : e.length < 16777215) : doSeqRequest s c = { s with
      seqTab := put (bits (c.w 1) 10 0) { e with length := e.length + 1 } s.seqTab
      batches := enter job e.lcore e.rule (batchCount (s.batchRule job e.rule))
        ⟨bits (c.w 1) 10 0, e.length, (List.range 5).map (fun k => BitVec.ofNat 64 (c.w (2 + k)))⟩ s.batches } := by
  simp only [doSeqRequest, hj, he, if_neg (Nat.not_le.mpr hl)]
  simp [ho, hw, hc]

theorem doMarker_closes {job : Nat} (hj : s.ringJob c.ring = job) (hw : c.seqWf job = true)
    (h0 : ∀ i, i < 6 → c.w (i + 1) = 0) :
    doMarker s c = { s with batches := closeFirst (s.marked job c.ring) [] s.batches } := by
  simp only [doMarker, hj]
  exact if_pos (by simpa [hw] using h0)
end

/-! ### The commands -/

section
variable {s : State} {f : Fetch} {r : Ring} {c : Cmd}

theorem exec_seqOpen_accepted (ha : s.accepts f 0x08 r c) :
    exec (.seqOpen f) s = .next (doSeqOpen (s.consumed f r) c) := congrArg _ (State.command_accepts ha _)

theorem exec_seqClose_accepted (ha : s.accepts f 0x09 r c) :
    exec (.seqClose f) s = .next (doSeqClose (s.consumed f r) c) := congrArg _ (State.command_accepts ha _)

theorem exec_sequenceRequest_taken (ht : s.takes f 3 r c) (ho : c.opcode = 0x20) :
    exec (.sequenceRequest f) s = .next (doSeqRequest (s.consumed f r) c) :=
  congrArg _ (State.consumeEntry_takes ht (by simp [ho]) _)

theorem exec_boundaryMarker_taken (ht : s.takes f 3 r c) (ho : c.opcode = 0x21) :
    exec (.boundaryMarker f) s = .next (doMarker (s.consumed f r) c) :=
  congrArg _ (State.consumeEntry_takes ht (by simp [ho]) _)

/-- The owner of the ring that a taken entry names. -/
theorem takes_ringJob {kind : Nat} (ht : s.takes f kind r c) : (s.consumed f r).ringJob c.ring = r.job := by
  rw [(State.takes_ring ht).1, consumed_ringJob]
end

/-- Settles O9: each entry by its effect on the state that its taking leaves, whose sequences and batches are as they
were; the timer needs no entry. -/
theorem sequenceCommandsAct : Obligations.SequenceCommandsAct := by
  refine ⟨?seqOpen, ?seqClose, ?request, ?marker, fun s job lcore rule h => if_neg h⟩
  case seqOpen =>
    intro s f r c j i ha hj hr hb hi
    rw [← State.consumed_job s f r] at hj
    rw [← State.consumed_seqTab s f r] at hi
    rw [exec_seqOpen_accepted ha, doSeqOpen_opens hj hr hb hi, State.consumed_seqTab]
    rfl
  case seqClose =>
    intro s f r c e ha he
    rw [← State.consumed_seqOf s f r] at he
    rw [← State.consumed_seqTab s f r, ← State.consumed_batches s f r, exec_seqClose_accepted ha, doSeqClose_closes he]
  case request =>
    intro s f r c e ht ho hw he hc hl
    rw [← State.consumed_seqOf s f r] at he
    rw [exec_sequenceRequest_taken ht ho, doSeqRequest_enters (takes_ringJob ht) ho hw he hc hl,
      State.consumed_seqTab, State.consumed_batches, State.consumed_batchRule]
  case marker =>
    intro s f r c ht ho hw h0
    rw [exec_boundaryMarker_taken ht ho, doMarker_closes (takes_ringJob ht) hw h0, consumed_marked,
      State.consumed_batches, (State.takes_ring ht).1]

end Sys2Proof.Proofs

/-! ## The hourly fold and the mills that idle (R118, R355, R356, R393; log 44) -/

namespace Sys2Proof.Proofs
open Sys2Proof.Machine

section
variable {s : State} {p : Nat}

theorem exec_summaryFold_ready (h : s.ready = true) {u : State}
    (hu : u = s.unfolded.foldl (fun s e => (s.flashWrite (.summary e.1 e.2)).1) s) :
    exec .summaryFold s = .next { u with flash := { u.flash with sumHour := 0 } } := by
  subst hu
  exact if_neg (by simp [h])

/-- A running step whose binary strikes blanks has its hosts' mills strike (R118). -/
theorem strikes_of_run {r : Run} {j : Job} (hr : r ∈ s.runs) (hp : p ∈ r.hosts) (ho : r.order < 5)
    (hj : s.job r.job = some j) (hs : j.bin.strikes = true) : s.strikes p = true :=
  List.any_eq_true.mpr ⟨r, hr, by simp [hp, ho, hj, hs]⟩

/-- A check that finds nothing reports nothing. -/
theorem strikeCheck_ok (s : State) (p : Nat) : s.strikeCheck p .ok = s := by
  unfold State.strikeCheck
  split <;> rfl

theorem exec_blankStrikeRampDown_strikes (h : s.strikes p = true) :
    exec (.blankStrikeRampDown ⟨p, .ok⟩) s = .next (s.setCore p { s.core p with idle := true }) :=
  (if_pos h).trans (congrArg _ (strikeCheck_ok _ p))

/-- A pass that issues on an idle mill ends its idling. -/
theorem wakeMill_idle {t : State} {d : Nat} {i : Iss} (hi : s.issueAt d 0x41 = some i)
    (h : (t.core (i.run.host d)).idle = true) :
    s.wakeMill t d = t.setCore (i.run.host d) { t.core (i.run.host d) with idle := false } := by
  simp only [State.wakeMill, hi, h, if_true]
end

/-- Settles O27: the fold of a ready module, a mill that a running step's blanks make idle, and the pass that wakes it. -/
theorem summariesAndIdlingAct : Obligations.SummariesAndIdlingAct :=
  ⟨fun _ _ h hu => exec_summaryFold_ready h hu,
    fun _ _ _ _ hr hp ho hj hs => exec_blankStrikeRampDown_strikes (strikes_of_run hr hp ho hj hs),
    fun _ _ _ _ => wakeMill_idle⟩

end Sys2Proof.Proofs

/-! ## The finisher's element-wise instructions (R67, R138, R141, R227) -/

namespace Sys2Proof.Proofs
open Sys2Proof.Machine

/-- Table 5-2 on rational numbers: the exact result of an element-wise instruction. -/
def elemResult (op : ElemOp) (x y z : Rat) : Rat :=
  match op with
  | .add => x + y
  | .sub => x - y
  | .mul => x * y
  | .mad => x * y + z
  | .min => if x ≤ y then x else y
  | .max => if x ≤ y then y else x
  | .abs => if 0 ≤ x then x else -x
  | .neg => -x
  | .cvt => x
  | .sel => if 0 < z then x else y
  | .cmpge => if y ≤ x then 1 else 0

/-- A formed element stands for this number and does not count as invalid. -/
def Forms (f : Formed) (q : Rat) : Prop := f.val.toFrac.rat = q ∧ f.inv = false

/-- A sum or product that is defined and has this value forms it. -/
theorem formOpt_forms {o : Option Val} {q : Rat} (h : ∃ v, o = some v ∧ v.exact ∧ v.toFrac.rat = q) :
    Forms (formOpt o) q := by
  obtain ⟨v, rfl, -, hv⟩ := h
  exact ⟨hv, rfl⟩

/-! ### The sign of a value -/

/-- Without its sign a value is its magnitude. -/
theorem rat_unsigned (v : Val) : ({ v with neg := false } : Val).toFrac.rat = |v.toFrac.rat| := by
  have hm : 0 ≤ (v.num : Rat) / v.den := by positivity
  rw [rat_toFrac, rat_toFrac, abs_mul, abs_of_nonneg hm]
  cases v.neg <;> norm_num [signOf]

/-- SEL's test of its third operand, class and sign, asks whether the value is above zero. -/
theorem nonzero_unsigned_iff_pos {c : Val} (hc : c.exact) :
    (decide (c.cls ≠ .zero) && !c.neg) = true ↔ 0 < c.toFrac.rat := by
  obtain ⟨h, -⟩ | ⟨h, -⟩ := hc.1
  · simp [h, zero_rat c hc h]
  · obtain ⟨hneg, hpos⟩ := fin_sign c hc h
    cases hs : c.neg with
    | true => simp [(hneg hs).not_gt]
    | false => simp [h, hpos hs]

/-! ### Two exact operands: the class test and the order -/

section
variable {a b : Val} (ha : a.exact) (hb : b.exact)
include ha hb

theorem neither_invalid : (decide (a.cls = .invalid) || decide (b.cls = .invalid)) = false := by
  simp [(cls_exact a ha).1, (cls_exact b hb).1]

/-- MIN's choice; where −0 meets +0 the order by sign changes the code chosen and not its value. -/
theorem rat_ite_minBefore_eq_min :
    (if minBefore a b then a else b).toFrac.rat = min a.toFrac.rat b.toFrac.rat := by
  obtain ⟨hle, hge⟩ := minBefore_le a b ha hb
  cases h : minBefore a b with
  | true => exact (min_eq_left (hle h)).symm
  | false => exact (min_eq_right (hge h)).symm

theorem rat_ite_minBefore_eq_max :
    (if minBefore a b then b else a).toFrac.rat = max a.toFrac.rat b.toFrac.rat := by
  obtain ⟨hle, hge⟩ := minBefore_le a b ha hb
  cases h : minBefore a b with
  | true => exact (max_eq_right (hle h)).symm
  | false => exact (max_eq_left (hge h)).symm

theorem rat_ite_lt_eq_ite_le : (if a.lt b then Val.zero false else ⟨.finite, false, 1, 1⟩).toFrac.rat
    = if b.toFrac.rat ≤ a.toFrac.rat then 1 else 0 := by
  simp only [val_lt a b ha hb, ← not_lt, ite_not]
  split <;> norm_num [Val.toFrac, Val.zero, Frac.rat]

end

/-! ### The exact result of each instruction (R138, Table 5-2) -/

/-- Each instruction, by its operation: the tests for invalid operands fail, and what remains is an exact sum or
product, a choice among the operands, or a change of sign. -/
theorem elemForm_forms (op : ElemOp) {a b c : Val} (ha : a.exact) (hb : b.exact) (hc : c.exact) :
    Forms (elemForm op a b c) (elemResult op a.toFrac.rat b.toFrac.rat c.toFrac.rat) := by
  have hab := neither_invalid ha hb
  cases op with
  | add =>
    simp only [elemForm, hab]
    exact formOpt_forms (exactAdd_exact a b ha hb)
  | sub =>
    simp only [elemForm, hab]
    rw [elemResult, sub_eq_add_neg, ← rat_negate b hb]
    exact formOpt_forms (exactAdd_exact a b.negate ha (exact_negate b hb))
  | mul =>
    simp only [elemForm, hab]
    exact formOpt_forms (exactMul_exact a b ha hb)
  | mad =>
    obtain ⟨p, hp, hpe, hpv⟩ := exactMul_exact a b ha hb
    simp only [elemForm, hab, hp, (cls_exact c hc).1]
    rw [elemResult, ← hpv]
    exact formOpt_forms (exactAdd_exact p c hpe hc)
  | min =>
    simp only [elemForm, hab]
    exact ⟨(rat_ite_minBefore_eq_min ha hb).trans (min_def _ _), rfl⟩
  | max =>
    simp only [elemForm, hab]
    exact ⟨(rat_ite_minBefore_eq_max ha hb).trans (max_def _ _), rfl⟩
  | abs =>
    simp only [elemForm, (cls_exact a ha).1]
    refine ⟨(rat_unsigned a).trans ?_, rfl⟩
    rw [elemResult]
    split
    next h => exact abs_of_nonneg h
    next h => exact abs_of_neg (not_le.mp h)
  | neg => exact ⟨rat_negate a ha, rfl⟩
  | cvt => exact ⟨rfl, rfl⟩
  | sel =>
    simp only [elemForm, (cls_exact c hc).1, if_false, nonzero_unsigned_iff_pos hc]
    exact ⟨apply_ite (fun v : Val => v.toFrac.rat) _ _ _, rfl⟩
  | cmpge =>
    simp only [elemForm, hab]
    exact ⟨rat_ite_lt_eq_ite_le ha hb, rfl⟩

/-- Settles O52: each instruction's element forms Table 5-2's result. -/
theorem elementwiseResultsAreExact : Obligations.ElementwiseResultsAreExact := by
  intro a b c ha hb hc
  have h (op : ElemOp) := elemForm_forms op ha hb hc
  exact ⟨(h .add).1, (h .sub).1, (h .mul).1, (h .mad).1, (h .min).1, (h .max).1, (h .abs).1, (h .neg).1, (h .cvt).1,
    (h .sel).1, (h .cmpge).1, fun op => (h op).2⟩

/-- Settles O17: each record is `doRecord` with its own element-wise operation. -/
theorem elementwiseRecordsAct : Obligations.ElementwiseRecordsAct := by
  refine ⟨?add, ?sub, ?mul, ?mad, ?min, ?max, ?abs, ?neg, ?cvt, ?sel, ?cmpge⟩
  all_goals
    intro s d i o hi ha ho hf hc
    exact congrArg _ (doRecord_outcome hi ha ho hf hc)

end Sys2Proof.Proofs

/-! ## The former's records (R164, R179 to R191, R227; log 11, 20) -/

namespace Sys2Proof.Proofs
open Sys2Proof.Machine

/-- Settles O18: each record is `doRecord` with its own operation behind the check of its dies. -/
theorem formerRecordsAct : Obligations.FormerRecordsAct := by
  refine ⟨?eval, ?smaxAcc, ?smaxOut, ?rms⟩
  all_goals
    intro s d i o hi ha ho hf hc
    exact congrArg _ (doRecord_outcome hi ha ho hf hc)

end Sys2Proof.Proofs

/-! ## Die bank records (R193, R194, R196, R251, R408, R416, R419; log 12) -/

namespace Sys2Proof.Proofs
open Sys2Proof.Machine

/-! ### What the taking of an entry leaves as it was -/

section
variable (s : State) (f : Fetch) (r : Ring)

theorem consumed_item (c : Cmd) : (s.consumed f r).item c = s.locBytes c (c.w 1) (c.w 2) c.data :=
  s.consumed_locBytes f r c _ _ _

theorem consumed_dieBankCode (item : List Byte) : (s.consumed f r).dieBankCode item = s.dieBankCode item := by
  obtain ⟨ps, rs, h⟩ := s.consumed_eq f r
  rw [h]
  rfl

theorem consumed_core (p : Nat) : (s.consumed f r).core p = s.core p := by
  rw [State.core, State.consumed_cores, State.core]

theorem consumed_underAssay (p : Nat) : (s.consumed f r).underAssay p = s.underAssay p :=
  congrArg CoreHw.assay (consumed_core s f r p)

theorem consumed_isFenced (utype p : Nat) : (s.consumed f r).isFenced utype p = s.isFenced utype p := by
  rw [State.isFenced, State.consumed_units, State.isFenced]

theorem consumed_coreHasJob (p : Nat) : (s.consumed f r).coreHasJob p = s.coreHasJob p :=
  State.coreHasJob_of (by simp [State.hosting]) p
end

/-! ### The command, by the verdict on its record -/

section
variable {s : State} {f : Fetch} {r : Ring} {c : Cmd} (ha : s.accepts f 0x0B r c)
include ha

theorem exec_dieBank_accepted : exec (.dieBank f) s = .next (doDieBank (s.consumed f r) c) :=
  congrArg _ (State.command_accepts ha _)

/-- The flash takes no record while its gate is closed (R419, Table 14-9). -/
theorem exec_dieBank_gated (hg : s.mod.flashGate = true) :
    exec (.dieBank f) s = .next ((s.consumed f r).finish c 0x0309) := by
  rw [exec_dieBank_accepted ha]
  exact congrArg _ (if_pos (by simpa using hg))

variable {item : List Byte} (hg : s.mod.flashGate = false) (hi : item = s.locBytes c (c.w 1) (c.w 2) c.data)
include hg hi

theorem exec_dieBank_reloads (h0 : s.dieBankCode item = 0) :
    exec (.dieBank f) s = .next (((s.consumed f r).reload item).finish c 0) := by
  rw [exec_dieBank_accepted ha, doDieBank, if_neg (by simp [hg])]
  simp only [consumed_item, consumed_dieBankCode, ← hi, h0]

theorem exec_dieBank_refuses {n : Nat} (hn : s.dieBankCode item = n + 1) :
    exec (.dieBank f) s = .next (((s.consumed f r).raise { code := 0x1D }).finish c (n + 1)) := by
  rw [exec_dieBank_accepted ha, doDieBank, if_neg (by simp [hg])]
  simp only [consumed_item, consumed_dieBankCode, ← hi, hn]
end

/-! ### The banks of a core that has taken the record -/

/-- The bank that a reload writes where `active` selects the other one (R193, R194). -/
def inactiveBank (active : Bool) (c : CoreHw) : DieBank := if active then c.bank0 else c.bank1

/-- The bank that `active` selects. -/
def activeBank (active : Bool) (c : CoreHw) : DieBank := if active then c.bank1 else c.bank0

theorem inactiveBank_loaded (b : DieBank) (c : CoreHw) : inactiveBank c.active (c.loaded b) = b := by
  cases h : c.active <;> simp [inactiveBank, CoreHw.loaded, h]

theorem activeBank_loaded (b : DieBank) (c : CoreHw) : activeBank c.active (c.loaded b) = activeBank c.active c := by
  cases h : c.active <;> simp [activeBank, CoreHw.loaded, h]

/-- What an accepted record leaves of a core `c`, but for the mark that its switch step is named: the record in its
inactive bank, and the banks exchanged unless the switch waits. -/
def Reloaded (b : DieBank) (waits : Bool) (c k : CoreHw) : Prop :=
  k.bare = if waits then (c.loaded b).bare else (c.loaded b).switched

section
variable {b : DieBank} {waits : Bool} {c k : CoreHw}

theorem Reloaded.inactiveBank_eq (h : Reloaded b waits c k) : inactiveBank c.active k = b := by
  cases waits
  all_goals exact (congrArg (inactiveBank c.active) h).trans (inactiveBank_loaded b c)

theorem Reloaded.activeBank_eq (h : Reloaded b waits c k) : activeBank c.active k = activeBank c.active c := by
  cases waits
  all_goals exact (congrArg (activeBank c.active) h).trans (activeBank_loaded b c)

theorem Reloaded.pending (h : Reloaded b true c k) : k.active = c.active ∧ k.pending = true := by
  have h : k.bare = (c.loaded b).bare := h
  exact ⟨(congrArg CoreHw.active h :), congrArg CoreHw.pending h⟩

theorem Reloaded.switched (h : Reloaded b false c k) :
    k.active = !c.active ∧ k.pending = false ∧ k.switches = c.switches + 1 := by
  have h : k.bare = (c.loaded b).switched := h
  exact ⟨congrArg CoreHw.active h, congrArg CoreHw.pending h, congrArg CoreHw.switches h⟩
end

/-- Every core that is not withdrawn takes the record; its switch waits while it hosts a job or is under assay. -/
theorem reloaded_core (s : State) (f : Fetch) (r : Ring) (c : Cmd) (item : List Byte) {p : Nat} (hp : p < 576)
    (hf : s.isFenced 1 p = false) :
    Reloaded ⟨BitVec.ofNat 32 (natAt item 4 2 * 65536 + natAt item 6 2), s.dieRecs.foldl (fun m x => max m (x.1 + 1)) 1⟩
      (s.coreHasJob p || s.underAssay p) (s.core p) ((((s.consumed f r).reload item).finish c 0).core p) := by
  have h := (s.consumed f r).reload_core item p hp ((consumed_isFenced s f r 1 p).trans hf)
  simpa only [Reloaded, State.core_of_rest (State.finish_rest _ _ _), consumed_core, consumed_coreHasJob,
    consumed_underAssay, State.consumed_dieRecs] using h

/-- Settles O12, by the gate and the verdict on the record: one that is accepted stands in flash, and each core's share
of it is `Reloaded`. -/
theorem dieBankActs : Obligations.DieBankActs := by
  refine ⟨?accepted, fun s f r c n ha hg hn => exec_dieBank_refuses ha hg rfl hn,
    fun s f r c ha hg => exec_dieBank_gated ha hg⟩
  intro s f r c item b ha hg hi h0 hb
  subst hb
  refine ⟨_, exec_dieBank_reloads ha hg hi h0, rfl, ?flash, fun p hp hf => ?core⟩
  case flash =>
    rw [State.flash_of_rest (State.finish_rest _ _ _), State.reload_dieRec]
    exact ⟨_, rfl, rfl, rfl⟩
  case core =>
    have h := reloaded_core s f r c item hp hf
    refine ⟨h.inactiveBank_eq, h.activeBank_eq, fun hw => ?_, fun hj hu => ?_⟩
    · rw [(Bool.or_eq_true _ _).mpr hw] at h
      exact h.pending
    · rw [hj, hu] at h
      exact h.switched

end Sys2Proof.Proofs

/-! ## Events of a step and its boundary (R193, R194, R238, R275, R290, R336, R337, R345, R377, R393, R417; log 30) -/

namespace Sys2Proof.Proofs
open Sys2Proof.Machine

/-! ### What each command does under the conditions of its rule -/

section
variable (s : State) (n : BitVec 16)

theorem exec_watchdog (limit elapsed die : Nat) :
    exec (.watchdog n limit elapsed die) s = execWatchdog n limit elapsed die s := rfl
theorem exec_lockstep (pc0 pc1 : W64) : exec (.lockstep pc0 pc1) s = execLockstep pc0 pc1 s := rfl
theorem exec_regeneration (d : BitVec 12) : exec (.regeneration n d) s = execRegeneration n d s := rfl
theorem exec_jobEndEffect : exec (.jobEndEffect n) s = execJobEndEffect n s := rfl
theorem exec_dieBankSwitch (p : Nat) : exec (.dieBankSwitch p) s = execDieBankSwitch p s := rfl
end

section
variable {s : State}

/-- The boundary's work, in the order of R377. -/
theorem exec_stepBoundary_works {restored : Bool} {us : Nat} {u : State} (hh : s.held = false) (hr : s.ready = true)
    (h0 : s.runs = []) (hu : u =
      (((s.captureAll.doCores.doAccumulated).applySwitch restored us).assaySettle.borrowAll).serveArrears us) :
    exec (.stepBoundary restored us) s = .next (u.setAsy { u.asy with delay := us }).classEdge := by
  subst hu
  exact if_neg (by simp [hh, hr, h0])

/-- A run over its limit is named and stopped (R336). -/
theorem exec_watchdog_stops {n : BitVec 16} {limit elapsed : Nat} (die : Nat) {j : Job} {r : Run}
    (hj : s.job n.toNat = some j) (hr : s.run n.toNat = some r) (hh : s.held = false) (hs : s.ready = true)
    (hl : limit < elapsed) (hw : r.waiting = false) (hb : r.broken = false) (ho : r.order < 6) :
    exec (.watchdog n limit elapsed die) s = .next ((s.watchdogEvents j r limit elapsed die).breakRun j.num) := by
  simp [exec_watchdog, execWatchdog, hj, hr, hh, hs, hw, hb, hl, ho]

/-- The poison that a run met is regenerated while the run waits (R288, R290). -/
theorem exec_regeneration_of_run {n : BitVec 16} {d : BitVec 12} {j : Job} {r : Run} (hj : s.job n.toNat = some j)
    (hh : s.held = false) (hs : s.ready = true) (hr : s.run n.toNat = some r) (hw : r.waiting = true)
    (hp : ∃ x ∈ r.poisoned, x.2.2.2 = d.toNat) :
    exec (.regeneration n d) s = .next (s.regenJob j (some r) d.toNat) := by
  have ha : r.poisoned.any (fun x => decide (x.2.2.2 = d.toNat)) = true := by simpa using hp
  simp only [exec_regeneration, execRegeneration, hj, hh, hs, hr, hw, ha, Bool.not_true, Bool.or_self, Bool.and_self,
    Bool.false_eq_true, if_false, if_true]

/-- The poison of a job is regenerated before its next step (R290). -/
theorem exec_regeneration_of_job {n : BitVec 16} {d : BitVec 12} {j : Job} (hj : s.job n.toNat = some j)
    (hh : s.held = false) (hs : s.ready = true) (hr : s.run n.toNat = none) (hd : d.toNat ∈ j.regenDue) :
    exec (.regeneration n d) s = .next (s.regenJob j none d.toNat) := by
  simp [exec_regeneration, execRegeneration, hj, hh, hs, hr, hd]

/-- A job whose end waits ends once its step and its snapshots are done (R238). -/
theorem exec_jobEndEffect_ends {n : BitVec 16} {j : Job} {e : Nat × Nat} (hj : s.job n.toNat = some j)
    (hh : s.held = false) (hs : s.ready = true) (he : j.ending = some e) (hr : s.run j.num = none) (hn : j.snaps = []) :
    exec (.jobEndEffect n) s = .next (s.endJob j.num 0) := by
  simp [exec_jobEndEffect, execJobEndEffect, hj, hh, hs, he, hr, hn]

/-- No slot of a core has issued a former record, as DIE_BANK_SWITCH looks for one. -/
theorem any_former_eq_false {r : Run} {p : Nat}
    (h : ∀ d, d < r.slots.length → r.host d = p → (r.slot d).former = false) :
    (List.range r.slots.length).any (fun d => r.host d == p && (r.slot d).former) = false := by
  simpa using h

/-- A core switches at its named step, before its first former record (Table 6-13 order 6, R194). -/
theorem exec_dieBankSwitch_switches {p : Nat} {r : Run} (hh : s.held = false) (hs : s.ready = true)
    (hn : (s.core p).scheduled = true) (hp : (s.core p).pending = true)
    (hr : s.runs.find? (fun r => r.toSwitch.contains p && r.hosts.contains p && decide (r.order < 5) && r.history.isEmpty
      && !r.broken) = some r)
    (hf : ∀ d, d < r.slots.length → r.host d = p → (r.slot d).former = false) :
    exec (.dieBankSwitch p) s = .next (s.switchBank p r.job r.step.toNat) := by
  simp only [exec_dieBankSwitch, execDieBankSwitch, hh, hs, hn, hp, hr, any_former_eq_false hf, Bool.not_true,
    Bool.or_self, Bool.false_eq_true, if_false]
end

/-- Settles O24: each command under its rule's condition, a divergence with and without a running step, a regeneration
for the run and for the job; a page that is written back needs no condition. -/
theorem stepEventsAct : Obligations.StepEventsAct := by
  refine ⟨fun _ _ _ _ hh hr h0 hu => exec_stepBoundary_works hh hr h0 hu,
    fun _ _ _ _ die _ _ hj hr hh hs hl hw hb ho => exec_watchdog_stops die hj hr hh hs hl hw hb ho,
    ?lockstepIdle, ?lockstepRunning,
    fun _ _ _ _ hj hh hs => ⟨fun _ hr hw hp => exec_regeneration_of_run hj hh hs hr hw hp,
      fun hr hd => exec_regeneration_of_job hj hh hs hr hd⟩,
    fun _ _ _ _ hj hh hs he hr hn => exec_jobEndEffect_ends hj hh hs he hr hn,
    fun _ _ _ hh hs hn hp hr hf => exec_dieBankSwitch_switches hh hs hn hp hr hf, fun _ _ _ => rfl⟩
  case lockstepIdle =>
    intro s pc0 pc1 third u v hs hc ht hu hv
    subst ht hu hv
    simp only [exec_lockstep, execLockstep, hs, hc, Bool.not_true, Bool.false_eq_true, if_false]
  case lockstepRunning =>
    intro s pc0 pc1 third r u v hs hc ht hu hv
    subst ht hu hv
    simp only [exec_lockstep, execLockstep, hs, hc, Bool.not_true, Bool.false_eq_true, if_false]

end Sys2Proof.Proofs

/-! ## The control records (R209, R227, R230, R473) -/

namespace Sys2Proof.Proofs
open Sys2Proof.Machine

section
variable {s : State} {d : Nat} {j : Job} {r : Run}

/-- The check of a control record that finds nothing reports nothing (R335). -/
theorem controlCheck_ok (s : State) (j : Job) (r : Run) (d : Nat) : s.controlCheck j r d .ok = s :=
  State.chkReport_ok s _ d

theorem exec_nop (s : State) (d : Nat) (chk : Chk) : exec (.nop d chk) s = execNop d chk s := rfl

/-- A NOP that issues takes its slot to the next record. -/
theorem exec_nop_issues {i : Iss} (hi : s.issueAt d 0x00 = some i) :
    exec (.nop d .ok) s = .next (s.setRun (resched i.job
      (i.run.setSlot d { i.run.slot d with pc := i.idx d + 1 }))) := by
  simp only [exec_nop, execNop, hi, State.chkReport_ok]

/-- A STEP_BEGIN whose turn runs begins the segment of its slot, and the step is at order 3. -/
theorem beginSegment_begins (hc : s.controlAt d 0x01 false = some (j, r)) :
    s.beginSegment d .ok = s.setRun (resched j { r.setSlot d { r.slot d with
      pc := (r.slot d).pc + 1, begun := true, started := s.time } with order := 3 }) := by
  simp only [State.beginSegment, hc, controlCheck_ok]

/-- The run after a STEP_END: the kept group maxima stand in their planes and in the digest (R209), the segment has
ended, and the step is at order 5 when it was the last one. -/
def segmentEnded (s : State) (j : Job) (r : Run) (d : Nat) : Run :=
  let ws := planeWrites j (r.slot d).groupMax
  let q := r.applyWrites d ws []
  let q := q.setSlot d { q.slot d with
    pc := (r.slot d).pc + 1, ended := true, digest := (r.slot d).ending s.freeCtr (digestOf ws) }
  if q.slots.all (·.ended) then { q with order := 5 } else q

/-- A STEP_END whose turn runs, every record of its slot completed, ends the segment and samples its duration
(R399). -/
theorem endSegment_ends (hc : s.controlAt d 0x02 true = some (j, r)) :
    s.endSegment d .ok = (s.advance j (segmentEnded s j r d)).sample
      (0x800 + r.host d) 0 ((s.time - (r.slot d).started).toNat / 1000) := by
  simp only [State.endSegment, hc, controlCheck_ok, segmentEnded]
end

/-- Settles O19: a NOP that issues, a STEP_BEGIN that begins its segment and a STEP_END that ends it. -/
theorem controlRecordsAct : Obligations.ControlRecordsAct := by
  refine ⟨fun _ _ _ hi => exec_nop_issues hi, fun _ _ _ _ hc => congrArg _ (beginSegment_begins hc), ?stepEnd⟩
  case stepEnd =>
    intro s d j r q ws x hc hws hx hq
    subst hws hx hq
    exact congrArg _ (endSegment_ends hc)

end Sys2Proof.Proofs

/-! ## Every step keeps the memories and the queue (R239, R253, R263, R275) -/

namespace Sys2Proof.Proofs
open Sys2Proof.Machine

/-- Every command keeps the queue behind it and the canonical form of the memories: its meaning does. -/
theorem exec_good {q : List Instr} : ∀ (c : Instr) (s : State), Good q s.keep → GoodOut q (exec c s)
  | .jobLoad f, s, h => execJobLoad_good f s h
  | .stepRun f, s, h => execStepRun_good f s h
  | .snapshot f, s, h => execSnapshot_good f s h
  | .jobEnd f, s, h => execJobEnd_good f s h
  | .jobEndEffect job, s, h => execJobEndEffect_good job s h
  | .jobAbort f, s, h => execJobAbort_good f s h
  | .ringAlloc f, s, h => execRingAlloc_good f s h
  | .ringFree f, s, h => execRingFree_good f s h
  | .seqOpen f, s, h => execSeqOpen_good f s h
  | .seqClose f, s, h => execSeqClose_good f s h
  | .boundary f, s, h => execBoundary_good f s h
  | .dieBank f, s, h => execDieBank_good f s h
  | .dieBankSwitch core, s, h => execDieBankSwitch_good core s h
  | .assayInstall f, s, h => execAssayInstall_good f s h
  | .assayRemove f, s, h => execAssayRemove_good f s h
  | .assayRequest f, s, h => execAssayRequest_good f s h
  | .fwStage f, s, h => execFwStage_good f s h
  | .fwSwitch f, s, h => execFwSwitch_good f s h
  | .fwCommit f, s, h => execFwCommit_good f s h
  | .configInstall f, s, h => execConfigInstall_good f s h
  | .attest f, s, h => execAttest_good f s h
  | .warmReset f env, s, h => execWarmReset_good f env s h
  | .sequenceRequest f, s, h => execSequenceRequest_good f s h
  | .boundaryMarker f, s, h => execBoundaryMarker_good f s h
  | .batchTimer job lcore rule, s, h => execBatchTimer_good job lcore rule s h
  | .nop d chk, s, h => execNop_good d chk s h
  | .stepBegin d, s, h => execStepBegin_good d s h
  | .stepEnd d, s, h => execStepEnd_good d s h
  | .rngFill d chk, s, h => execRngFill_good d chk s h
  | .move d chk, s, h => execMove_good d chk s h
  | .moveLands d idx chk, s, h => execMoveLands_good d idx chk s h
  | .atomT256 d chk, s, h => execAtomT256_good d chk s h
  | .atomFp32 d chk, s, h => execAtomFp32_good d chk s h
  | .millLoad d chk, s, h => execMillLoad_good d chk s h
  | .millPass d chk, s, h => execMillPass_good d chk s h
  | .recordComplete d idx, s, h => execRecordComplete_good d idx s h
  | .add d chk, s, h => execAdd_good d chk s h
  | .sub d chk, s, h => execSub_good d chk s h
  | .mul d chk, s, h => execMul_good d chk s h
  | .mad d chk, s, h => execMad_good d chk s h
  | .min d chk, s, h => execMin_good d chk s h
  | .max d chk, s, h => execMax_good d chk s h
  | .abs d chk, s, h => execAbs_good d chk s h
  | .neg d chk, s, h => execNeg_good d chk s h
  | .cvt d chk, s, h => execCvt_good d chk s h
  | .sel d chk, s, h => execSel_good d chk s h
  | .cmpge d chk, s, h => execCmpge_good d chk s h
  | .finDrain d chk, s, h => execFinDrain_good d chk s h
  | .finReduce d chk, s, h => execFinReduce_good d chk s h
  | .finCheck d chk, s, h => execFinCheck_good d chk s h
  | .frmEval d chk, s, h => execFrmEval_good d chk s h
  | .frmSmaxAcc d chk, s, h => execFrmSmaxAcc_good d chk s h
  | .frmSmaxOut d chk, s, h => execFrmSmaxOut_good d chk s h
  | .frmRms d chk, s, h => execFrmRms_good d chk s h
  | .collSend d chk, s, h => execCollSend_good d chk s h
  | .stepSelect, s, h => execStepSelect_good s h
  | .stepBoundary restored us, s, h => execStepBoundary_good restored us s h
  | .stepCheck job, s, h => execStepCheck_good job s h
  | .stepPost job, s, h => execStepPost_good job s h
  | .escrowWriteBack job page, s, h => execEscrowWriteBack_good job page s h
  | .recountRun job, s, h => execRecountRun_good job s h
  | .watchdog job limit elapsed die, s, h => execWatchdog_good job limit elapsed die s h
  | .lockstep pc0 pc1, s, h => execLockstep_good pc0 pc1 s h
  | .regeneration job desc, s, h => execRegeneration_good job desc s h
  | .scrub loc ecc, s, h => execScrub_good loc ecc s h
  | .eccRewrite loc bad, s, h => execEccRewrite_good loc bad s h
  | .retirement, s, h => execRetirement_good s h
  | .sparingRefill, s, h => execSparingRefill_good s h
  | .arrearsPromoted user arrears, s, h => execArrearsPromoted_good user arrears s h
  | .assayRotation die, s, h => execAssayRotation_good die s h
  | .assayRunEnd core run, s, h => execAssayRunEnd_good core run s h
  | .ageing meas, s, h => execAgeing_good meas s h
  | .summaryFold, s, h => execSummaryFold_good s h
  | .blankStrikeRampDown core, s, h => execBlankStrikeRampDown_good core s h
  | .powerCap watts, s, h => execPowerCap_good watts s h
  | .powerOver watts, s, h => execPowerOver_good watts s h
  | .thermalCap temps, s, h => execThermalCap_good temps s h
  | .thermalAlert point unit temp, s, h => execThermalAlert_good point unit temp s h
  | .coolant inlet outlet, s, h => execCoolant_good inlet outlet s h
  | .thermtrip point unit temp, s, h => execThermtrip_good point unit temp s h
  | .refreshDoubled stack temp, s, h => execRefreshDoubled_good stack temp s h
  | .refreshNormal stack temp, s, h => execRefreshNormal_good stack temp s h
  | .flashGateClose mv, s, h => execFlashGateClose_good mv s h
  | .flashGateOpen mv, s, h => execFlashGateOpen_good mv s h
  | .sagCap mv, s, h => execSagCap_good mv s h
  | .sagCapEnd mv, s, h => execSagCapEnd_good mv s h
  | .quiesce mv, s, h => execQuiesce_good mv s h
  | .quiesceEnd mv, s, h => execQuiesceEnd_good mv s h
  | .overvoltage mv, s, h => execOvervoltage_good mv s h
  | .overvoltageEnd mv, s, h => execOvervoltageEnd_good mv s h
  | .powerLoss mv pwrEn, s, h => execPowerLoss_good mv pwrEn s h
  | .powerUp env, s, h => execPowerUp_good env s h
  | .railFault rail cause mv restarted, s, h => execRailFault_good rail cause mv restarted s h
  | .perstN env, s, h => execPerstN_good env s h
  | .hotReset env, s, h => execHotReset_good env s h
  | .flr env, s, h => execFlr_good env s h
  | .relayRead pos off, s, h => execRelayRead_good pos off s h
  | .relayWrite pos off data env, s, h => execRelayWrite_good pos off data env s h
  | .relayTimeout port tag, s, h => execRelayTimeout_good port tag s h
  | .sidebandRead off ok, s, h => execSidebandRead_good off ok s h
  | .sidebandWrite off data ok env, s, h => execSidebandWrite_good off data ok env s h
  | .sidebandAlert off ok, s, h => execSidebandAlert_good off ok s h
  | .sidebandReset off ok env, s, h => execSidebandReset_good off ok env s h
  | .entdaa addr, s, h => execEntdaa_good addr s h
  | .setdasa static addr, s, h => execSetdasa_good static addr s h
  | .rstdaa, s, h => execRstdaa_good s h
  | .enec, s, h => execEnec_good s h
  | .disec, s, h => execDisec_good s h
  | .getpid, s, h => execGetpid_good s h
  | .getbcr, s, h => execGetbcr_good s h
  | .getdcr, s, h => execGetdcr_good s h
  | .getstatus, s, h => execGetstatus_good s h
  | .rstact action env, s, h => execRstact_good action env s h
  | .laneDrop port lane, s, h => execLaneDrop_good port lane s h
  | .training port lanes partner, s, h => execTraining_good port lanes partner s h
  | .hello port hello, s, h => execHello_good port hello s h
  | .response port sigs, s, h => execResponse_good port sigs s h
  | .authFail port order, s, h => execAuthFail_good port order s h
  | .bindingForward port id digest, s, h => execBindingForward_good port id digest s h
  | .folioClaim port pos teller, s, h => execFolioClaim_good port pos teller s h
  | .flitReceive port flit corrected, s, h => execFlitReceive_good port flit corrected s h
  | .replayRequest port, s, h => execReplayRequest_good port s h
  | .ackTimer port, s, h => execAckTimer_good port s h
  | .silenceTimer port, s, h => execSilenceTimer_good port s h
  | .slowPartner port vc, s, h => execSlowPartner_good port vc s h
  | .tagAbort port tag, s, h => execTagAbort_good port tag s h
  | .rd port, s, h => execRd_good port s h
  | .wr port chk env, s, h => execWr_good port chk env s h
  | .at256 port chk, s, h => execAt256_good port chk s h
  | .afp32 port chk, s, h => execAfp32_good port chk s h
  | .cpl port, s, h => execCpl_good port s h
  | .db port, s, h => execDb_good port s h
  | .msg port, s, h => execMsg_good port s h
  | .csgn port, s, h => execCsgn_good port s h
  | .void port, s, h => execVoid_good port s h
  | .intr port, s, h => execIntr_good port s h
  | .msgResend ring, s, h => execMsgResend_good ring s h
  | .contribResend send, s, h => execContribResend_good send s h
  | .collWait job, s, h => execCollWait_good job s h
  | .portEnable port on, s, h => execPortEnable_good port on s h
  | .fenceReq page, s, h => execFenceReq_good page s h
  | .unfenceReq page, s, h => execUnfenceReq_good page s h
  | .stageCommit page, s, h => execStageCommit_good page s h
  | .devCtl data, s, h => execDevCtl_good data s h
  | .devCtlReset env, s, h => execDevCtlReset_good env s h
  | .evtForce page data, s, h => execEvtForce_good page data s h
  | .evtCount page, s, h => execEvtCount_good page s h
  | .ldgDbValue data, s, h => execLdgDbValue_good data s h
  | .ldgDbDiscard, s, h => execLdgDbDiscard_good s h
  | .errPop data, s, h => execErrPop_good data s h
  | .errIrq data, s, h => execErrIrq_good data s h
  | .admCmdPush data, s, h => execAdmCmdPush_good data s h
  | .admCplPop data, s, h => execAdmCplPop_good data s h
  | .counterLoRead off, s, h => execCounterLoRead_good off s h
  | .counterLoWrite off data, s, h => execCounterLoWrite_good off data s h
  | .counterHiWrite off data, s, h => execCounterHiWrite_good off data s h
  | .monSel page data, s, h => execMonSel_good page data s h
  | .monCtlClear page, s, h => execMonCtlClear_good page s h
  | .monCountLo page, s, h => execMonCountLo_good page s h
  | .snap, s, h => execSnap_good s h
  | .clearAll, s, h => execClearAll_good s h
  | .fwdData write data, s, h => execFwdData_good write data s h
  | .recData data, s, h => execRecData_good data s h
  | .pieceDone, s, h => execPieceDone_good s h
  | .finish env, s, h => execFinish_good env s h
  | .abort, s, h => execAbort_good s h
  | .burWinSel data, s, h => execBurWinSel_good data s h
  | .coreWinSel core data, s, h => execCoreWinSel_good core data s h
  | .release port, s, h => execRelease_good port s h
  | .folioEnt pos data, s, h => execFolioEnt_good pos data s h
  | .telRelayTo, s, h => execTelRelayTo_good s h
  | .registerWrite off data env, s, h => execRegisterWrite_good off data env s h
  | .thermalAlertClear point unit temp, s, h => execThermalAlertClear_good point unit temp s h
  | .monitorSample page quantity value, s, h => execMonitorSample_good page quantity value s h
  | .msixUnmask vector, s, h => execMsixUnmask_good vector s h
  | .assayRunLimit core, s, h => execAssayRunLimit_good core s h
  | .runTimeRetraining chan ok, s, h => execRunTimeRetraining_good chan ok s h
  | .flashWriteEnd, s, h => execFlashWriteEnd_good s h

/-- Settles O5: where a command answers, the canonical form and the queue are those of `exec_good`. -/
theorem commandsLeaveTheQueue : Obligations.CommandsLeaveTheQueue := by
  intro c s t hw h
  have hg := exec_good c s ((good_iff s).mpr hw)
  rw [h, goodOut_next] at hg
  obtain ⟨hq, hm⟩ := hg
  exact ⟨hq, (good_iff t).mp ⟨rfl, hm⟩⟩

/-- While time passes, the queue stays as it is and the memories in their canonical form. -/
theorem tick_inv {s : State} (h : s.Inv) : (tick s).Inv := by
  obtain ⟨hw, hq⟩ := h
  obtain ⟨hp, hm⟩ := tick_good s ((good_iff s).mpr hw)
  exact ⟨(good_iff _).mp ⟨rfl, hm⟩, by rw [State.queueWf, show (tick s).pending = s.pending from hp]; exact hq⟩

/-- Settles O4: an idle step lets time pass, any other runs the front command on the rest of the queue. -/
theorem stepKeepsSoundState : Obligations.StepKeepsSoundState := by
  intro s t hi h
  unfold step at h
  split at h
  · cases h
    exact tick_inv hi
  · next c rest hp =>
    obtain ⟨hw, hq⟩ := hi
    obtain ⟨hpt, hwt⟩ := commandsLeaveTheQueue c { s with pending := rest } t hw h
    rw [State.queueWf, hp, List.all_cons, Bool.and_eq_true] at hq
    exact ⟨hwt, by rw [State.queueWf, hpt]; exact hq.2⟩

/-- Settles O3: nothing is resident, written or queued before power-up. -/
theorem resetStateIsSound : Obligations.ResetStateIsSound := ⟨rfl, rfl⟩

end Sys2Proof.Proofs

/-! ## What the commands of a kind leave alone (R237, R239, R254, R292, R426) -/

namespace Sys2Proof.Proofs
open Sys2Proof.Machine

/-- A command outside `Instr.movesPlacement` leaves the supply, device time and the placement alone. -/
theorem exec_placed {i : Instr} (hi : i.movesPlacement = false) {s t : State} (h : exec i s = .next t) :
    t.placed = s.placed := by
  cases i with
  | jobLoad | dieBank | warmReset | stepBoundary | stepCheck | stepPost | lockstep | retirement | sparingRefill |
      assayRunEnd | ageing | powerCap | powerOver | thermalCap | thermalAlert | coolant | thermtrip |
      refreshDoubled | refreshNormal | flashGateClose | flashGateOpen | sagCap | sagCapEnd | quiesce | quiesceEnd |
      overvoltage | overvoltageEnd | powerLoss | powerUp | railFault | perstN | hotReset | flr | relayWrite |
      sidebandWrite | sidebandReset | entdaa | setdasa | rstdaa | enec | disec | rstact | wr | fenceReq |
      unfenceReq | stageCommit | devCtlReset | finish | registerWrite | thermalAlertClear |
      assayRunLimit => cases hi
  | stepRun f => exact execStepRun_placed f s t h
  | snapshot f => exact execSnapshot_placed f s t h
  | jobEnd f => exact execJobEnd_placed f s t h
  | jobEndEffect job => exact execJobEndEffect_placed job s t h
  | jobAbort f => exact execJobAbort_placed f s t h
  | ringAlloc f => exact execRingAlloc_placed f s t h
  | ringFree f => exact execRingFree_placed f s t h
  | seqOpen f => exact execSeqOpen_placed f s t h
  | seqClose f => exact execSeqClose_placed f s t h
  | boundary f => exact execBoundary_placed f s t h
  | dieBankSwitch core => exact execDieBankSwitch_placed core s t h
  | assayInstall f => exact execAssayInstall_placed f s t h
  | assayRemove f => exact execAssayRemove_placed f s t h
  | assayRequest f => exact execAssayRequest_placed f s t h
  | fwStage f => exact execFwStage_placed f s t h
  | fwSwitch f => exact execFwSwitch_placed f s t h
  | fwCommit f => exact execFwCommit_placed f s t h
  | configInstall f => exact execConfigInstall_placed f s t h
  | attest f => exact execAttest_placed f s t h
  | sequenceRequest f => exact execSequenceRequest_placed f s t h
  | boundaryMarker f => exact execBoundaryMarker_placed f s t h
  | batchTimer job lcore rule => exact execBatchTimer_placed job lcore rule s t h
  | nop d chk => exact execNop_placed d chk s t h
  | stepBegin d => exact execStepBegin_placed d s t h
  | stepEnd d => exact execStepEnd_placed d s t h
  | rngFill d chk => exact execRngFill_placed d chk s t h
  | move d chk => exact execMove_placed d chk s t h
  | moveLands d idx chk => exact execMoveLands_placed d idx chk s t h
  | atomT256 d chk => exact execAtomT256_placed d chk s t h
  | atomFp32 d chk => exact execAtomFp32_placed d chk s t h
  | millLoad d chk => exact execMillLoad_placed d chk s t h
  | millPass d chk => exact execMillPass_placed d chk s t h
  | recordComplete d idx => exact execRecordComplete_placed d idx s t h
  | add d chk => exact execAdd_placed d chk s t h
  | sub d chk => exact execSub_placed d chk s t h
  | mul d chk => exact execMul_placed d chk s t h
  | mad d chk => exact execMad_placed d chk s t h
  | min d chk => exact execMin_placed d chk s t h
  | max d chk => exact execMax_placed d chk s t h
  | abs d chk => exact execAbs_placed d chk s t h
  | neg d chk => exact execNeg_placed d chk s t h
  | cvt d chk => exact execCvt_placed d chk s t h
  | sel d chk => exact execSel_placed d chk s t h
  | cmpge d chk => exact execCmpge_placed d chk s t h
  | finDrain d chk => exact execFinDrain_placed d chk s t h
  | finReduce d chk => exact execFinReduce_placed d chk s t h
  | finCheck d chk => exact execFinCheck_placed d chk s t h
  | frmEval d chk => exact execFrmEval_placed d chk s t h
  | frmSmaxAcc d chk => exact execFrmSmaxAcc_placed d chk s t h
  | frmSmaxOut d chk => exact execFrmSmaxOut_placed d chk s t h
  | frmRms d chk => exact execFrmRms_placed d chk s t h
  | collSend d chk => exact execCollSend_placed d chk s t h
  | stepSelect => exact execStepSelect_placed s t h
  | escrowWriteBack job page => exact execEscrowWriteBack_placed job page s t h
  | recountRun job => exact execRecountRun_placed job s t h
  | watchdog job limit elapsed die => exact execWatchdog_placed job limit elapsed die s t h
  | regeneration job desc => exact execRegeneration_placed job desc s t h
  | scrub loc ecc => exact execScrub_placed loc ecc s t h
  | eccRewrite loc bad => exact execEccRewrite_placed loc bad s t h
  | arrearsPromoted user arrears => exact execArrearsPromoted_placed user arrears s t h
  | assayRotation die => exact execAssayRotation_placed die s t h
  | summaryFold => exact execSummaryFold_placed s t h
  | blankStrikeRampDown core => exact execBlankStrikeRampDown_placed core s t h
  | relayRead pos off => exact execRelayRead_placed pos off s t h
  | relayTimeout port tag => exact execRelayTimeout_placed port tag s t h
  | sidebandRead off ok => exact execSidebandRead_placed off ok s t h
  | sidebandAlert off ok => exact execSidebandAlert_placed off ok s t h
  | getpid => exact execGetpid_placed s t h
  | getbcr => exact execGetbcr_placed s t h
  | getdcr => exact execGetdcr_placed s t h
  | getstatus => exact execGetstatus_placed s t h
  | laneDrop port lane => exact execLaneDrop_placed port lane s t h
  | training port lanes partner => exact execTraining_placed port lanes partner s t h
  | hello port hello => exact execHello_placed port hello s t h
  | response port sigs => exact execResponse_placed port sigs s t h
  | authFail port order => exact execAuthFail_placed port order s t h
  | bindingForward port id digest => exact execBindingForward_placed port id digest s t h
  | folioClaim port pos teller => exact execFolioClaim_placed port pos teller s t h
  | flitReceive port flit corrected => exact execFlitReceive_placed port flit corrected s t h
  | replayRequest port => exact execReplayRequest_placed port s t h
  | ackTimer port => exact execAckTimer_placed port s t h
  | silenceTimer port => exact execSilenceTimer_placed port s t h
  | slowPartner port vc => exact execSlowPartner_placed port vc s t h
  | tagAbort port tag => exact execTagAbort_placed port tag s t h
  | rd port => exact execRd_placed port s t h
  | at256 port chk => exact execAt256_placed port chk s t h
  | afp32 port chk => exact execAfp32_placed port chk s t h
  | cpl port => exact execCpl_placed port s t h
  | db port => exact execDb_placed port s t h
  | msg port => exact execMsg_placed port s t h
  | csgn port => exact execCsgn_placed port s t h
  | void port => exact execVoid_placed port s t h
  | intr port => exact execIntr_placed port s t h
  | msgResend ring => exact execMsgResend_placed ring s t h
  | contribResend send => exact execContribResend_placed send s t h
  | collWait job => exact execCollWait_placed job s t h
  | portEnable port on => exact execPortEnable_placed port on s t h
  | devCtl data => exact execDevCtl_placed data s t h
  | evtForce page data => exact execEvtForce_placed page data s t h
  | evtCount page => exact execEvtCount_placed page s t h
  | ldgDbValue data => exact execLdgDbValue_placed data s t h
  | ldgDbDiscard => exact execLdgDbDiscard_placed s t h
  | errPop data => exact execErrPop_placed data s t h
  | errIrq data => exact execErrIrq_placed data s t h
  | admCmdPush data => exact execAdmCmdPush_placed data s t h
  | admCplPop data => exact execAdmCplPop_placed data s t h
  | counterLoRead off => exact execCounterLoRead_placed off s t h
  | counterLoWrite off data => exact execCounterLoWrite_placed off data s t h
  | counterHiWrite off data => exact execCounterHiWrite_placed off data s t h
  | monSel page data => exact execMonSel_placed page data s t h
  | monCtlClear page => exact execMonCtlClear_placed page s t h
  | monCountLo page => exact execMonCountLo_placed page s t h
  | snap => exact execSnap_placed s t h
  | clearAll => exact execClearAll_placed s t h
  | fwdData write data => exact execFwdData_placed write data s t h
  | recData data => exact execRecData_placed data s t h
  | pieceDone => exact execPieceDone_placed s t h
  | abort => exact execAbort_placed s t h
  | burWinSel data => exact execBurWinSel_placed data s t h
  | coreWinSel core data => exact execCoreWinSel_placed core data s t h
  | release port => exact execRelease_placed port s t h
  | folioEnt pos data => exact execFolioEnt_placed pos data s t h
  | telRelayTo => exact execTelRelayTo_placed s t h
  | monitorSample page quantity value => exact execMonitorSample_placed page quantity value s t h
  | msixUnmask vector => exact execMsixUnmask_placed vector s t h
  | runTimeRetraining chan ok => exact execRunTimeRetraining_placed chan ok s t h
  | flashWriteEnd => exact execFlashWriteEnd_placed s t h

/-- Settles O44: each command outside the list by its own frame. -/
theorem placementAndSupplyFrame : Obligations.PlacementAndSupplyFrame := fun _ _ _ hi h => exec_placed hi h

/-- A command outside `Instr.touchesWork` leaves the jobs, their posted memories and their requests alone. -/
theorem exec_work {i : Instr} (hi : i.touchesWork = false) {s t : State} (h : exec i s = .next t) :
    t.work = s.work := by
  cases i with
  | jobLoad | stepRun | snapshot | jobEnd | jobEndEffect | jobAbort | ringAlloc | ringFree | seqOpen | seqClose |
      boundary | dieBank | assayInstall | assayRemove | assayRequest | fwStage | fwSwitch | fwCommit |
      configInstall | attest | warmReset | sequenceRequest | boundaryMarker | batchTimer | rngFill | move |
      atomT256 | atomFp32 | millLoad | millPass | add | sub | mul | mad | min | max | abs | neg | cvt | sel |
      cmpge | finDrain | finReduce | finCheck | frmEval | frmSmaxAcc | frmSmaxOut | frmRms | collSend | stepSelect |
      stepBoundary | stepCheck | stepPost | escrowWriteBack | recountRun | lockstep | regeneration | scrub |
      eccRewrite | retirement | assayRotation | assayRunEnd | thermtrip | flashGateOpen | quiesceEnd |
      overvoltageEnd | powerLoss | powerUp | railFault | perstN | hotReset | flr | relayWrite | sidebandWrite |
      sidebandReset | rstact | response | folioClaim | wr | msg | msgResend | fenceReq | unfenceReq | devCtlReset |
      ldgDbValue | admCmdPush | admCplPop | finish | registerWrite | assayRunLimit | flashWriteEnd => cases hi
  | dieBankSwitch core => exact execDieBankSwitch_work core s t h
  | nop d chk => exact execNop_work d chk s t h
  | stepBegin d => exact execStepBegin_work d s t h
  | stepEnd d => exact execStepEnd_work d s t h
  | moveLands d idx chk => exact execMoveLands_work d idx chk s t h
  | recordComplete d idx => exact execRecordComplete_work d idx s t h
  | watchdog job limit elapsed die => exact execWatchdog_work job limit elapsed die s t h
  | sparingRefill => exact execSparingRefill_work s t h
  | arrearsPromoted user arrears => exact execArrearsPromoted_work user arrears s t h
  | ageing meas => exact execAgeing_work meas s t h
  | summaryFold => exact execSummaryFold_work s t h
  | blankStrikeRampDown core => exact execBlankStrikeRampDown_work core s t h
  | powerCap watts => exact execPowerCap_work watts s t h
  | powerOver watts => exact execPowerOver_work watts s t h
  | thermalCap temps => exact execThermalCap_work temps s t h
  | thermalAlert point unit temp => exact execThermalAlert_work point unit temp s t h
  | coolant inlet outlet => exact execCoolant_work inlet outlet s t h
  | refreshDoubled stack temp => exact execRefreshDoubled_work stack temp s t h
  | refreshNormal stack temp => exact execRefreshNormal_work stack temp s t h
  | flashGateClose mv => exact execFlashGateClose_work mv s t h
  | sagCap mv => exact execSagCap_work mv s t h
  | sagCapEnd mv => exact execSagCapEnd_work mv s t h
  | quiesce mv => exact execQuiesce_work mv s t h
  | overvoltage mv => exact execOvervoltage_work mv s t h
  | relayRead pos off => exact execRelayRead_work pos off s t h
  | relayTimeout port tag => exact execRelayTimeout_work port tag s t h
  | sidebandRead off ok => exact execSidebandRead_work off ok s t h
  | sidebandAlert off ok => exact execSidebandAlert_work off ok s t h
  | entdaa addr => exact execEntdaa_work addr s t h
  | setdasa static addr => exact execSetdasa_work static addr s t h
  | rstdaa => exact execRstdaa_work s t h
  | enec => exact execEnec_work s t h
  | disec => exact execDisec_work s t h
  | getpid => exact execGetpid_work s t h
  | getbcr => exact execGetbcr_work s t h
  | getdcr => exact execGetdcr_work s t h
  | getstatus => exact execGetstatus_work s t h
  | laneDrop port lane => exact execLaneDrop_work port lane s t h
  | training port lanes partner => exact execTraining_work port lanes partner s t h
  | hello port hello => exact execHello_work port hello s t h
  | authFail port order => exact execAuthFail_work port order s t h
  | bindingForward port id digest => exact execBindingForward_work port id digest s t h
  | flitReceive port flit corrected => exact execFlitReceive_work port flit corrected s t h
  | replayRequest port => exact execReplayRequest_work port s t h
  | ackTimer port => exact execAckTimer_work port s t h
  | silenceTimer port => exact execSilenceTimer_work port s t h
  | slowPartner port vc => exact execSlowPartner_work port vc s t h
  | tagAbort port tag => exact execTagAbort_work port tag s t h
  | rd port => exact execRd_work port s t h
  | at256 port chk => exact execAt256_work port chk s t h
  | afp32 port chk => exact execAfp32_work port chk s t h
  | cpl port => exact execCpl_work port s t h
  | db port => exact execDb_work port s t h
  | csgn port => exact execCsgn_work port s t h
  | void port => exact execVoid_work port s t h
  | intr port => exact execIntr_work port s t h
  | contribResend send => exact execContribResend_work send s t h
  | collWait job => exact execCollWait_work job s t h
  | portEnable port on => exact execPortEnable_work port on s t h
  | stageCommit page => exact execStageCommit_work page s t h
  | devCtl data => exact execDevCtl_work data s t h
  | evtForce page data => exact execEvtForce_work page data s t h
  | evtCount page => exact execEvtCount_work page s t h
  | ldgDbDiscard => exact execLdgDbDiscard_work s t h
  | errPop data => exact execErrPop_work data s t h
  | errIrq data => exact execErrIrq_work data s t h
  | counterLoRead off => exact execCounterLoRead_work off s t h
  | counterLoWrite off data => exact execCounterLoWrite_work off data s t h
  | counterHiWrite off data => exact execCounterHiWrite_work off data s t h
  | monSel page data => exact execMonSel_work page data s t h
  | monCtlClear page => exact execMonCtlClear_work page s t h
  | monCountLo page => exact execMonCountLo_work page s t h
  | snap => exact execSnap_work s t h
  | clearAll => exact execClearAll_work s t h
  | fwdData write data => exact execFwdData_work write data s t h
  | recData data => exact execRecData_work data s t h
  | pieceDone => exact execPieceDone_work s t h
  | abort => exact execAbort_work s t h
  | burWinSel data => exact execBurWinSel_work data s t h
  | coreWinSel core data => exact execCoreWinSel_work core data s t h
  | release port => exact execRelease_work port s t h
  | folioEnt pos data => exact execFolioEnt_work pos data s t h
  | telRelayTo => exact execTelRelayTo_work s t h
  | thermalAlertClear point unit temp => exact execThermalAlertClear_work point unit temp s t h
  | monitorSample page quantity value => exact execMonitorSample_work page quantity value s t h
  | msixUnmask vector => exact execMsixUnmask_work vector s t h
  | runTimeRetraining chan ok => exact execRunTimeRetraining_work chan ok s t h

/-- Settles O45: the commands outside the list, and FLASH_GATE_OPEN where no FINISH waits for the gate. -/
theorem jobsAndRequestsFrame : Obligations.JobsAndRequestsFrame :=
  ⟨fun _ _ _ hi h => exec_work hi h, fun mv s t hr h => execFlashGateOpen_work mv s t hr h⟩

end Sys2Proof.Proofs

/-! ## The records of a step: held, and in escrow (R238, R239, R258, R275, R283, R288, R346, R428, R431) -/

namespace Sys2Proof.Proofs
open Sys2Proof.Machine

/-- The five courses that a record command takes: a NOP, a record of an engine, a pass (which also wakes its core's
mill), a data movement, and a contribution. -/
inductive RecordCourse (s : State) (d : Nat) (chk : Chk) : Host.Outcome State Fault Refusal → Prop
  | nop : RecordCourse s d chk (execNop d chk s)
  | engine (op : Nat) (f : Ctx → Nat → RecOut) : RecordCourse s d chk (.next (s.doRecord d op chk f))
  | pass : RecordCourse s d chk (.next (s.wakeMill (s.doRecord d 0x41 chk doMillPass) d))
  | movement (op : Nat) : RecordCourse s d chk (.next (s.doMove d op chk))
  | contribution : RecordCourse s d chk (.next (s.doSend d chk))

/-- Every record command takes one of them. -/
theorem exec_recordCourse {i : Instr} {d : Nat} {chk : Chk} (h : i.issues = some (d, chk)) (s : State) :
    RecordCourse s d chk (exec i s) := by
  cases i
  case nop => cases h; exact .nop
  case move | atomT256 | atomFp32 => cases h; exact .movement _
  case collSend => cases h; exact .contribution
  case millPass => cases h; exact .pass
  case rngFill | millLoad | add | sub | mul | mad | min | max | abs | neg | cvt | sel | cmpge | finDrain | finReduce
      | finCheck | frmEval | frmSmaxAcc | frmSmaxOut | frmRms => cases h; exact .engine _ _
  all_goals cases h

/-! ### A module that is held or not ready -/

section
variable {s : State} (h : s.held = true ∨ s.ready = false) (d : Nat)
include h

theorem held_or_notReady : (s.held || !s.ready) = true := by simpa using h

theorem issueAt_held (op : Nat) : s.issueAt d op = none := by
  rw [State.issueAt, if_pos (held_or_notReady h)]

theorem controlAt_held (op : Nat) (begun : Bool) : s.controlAt d op begun = none := by
  rw [State.controlAt, if_pos (held_or_notReady h)]

/-- No course of a record leaves its first test: nothing issues. -/
theorem recordCourse_held {chk : Chk} {o : Host.Outcome State Fault Refusal} (hc : RecordCourse s d chk o) :
    o = .next s := by
  have hi := issueAt_held h d
  cases hc with
  | nop => rw [execNop, hi]
  | engine op f => rw [State.doRecord, hi]
  | pass => rw [State.wakeMill, hi, State.doRecord, hi]
  | movement op => rw [State.doMove, hi]
  | contribution => rw [State.doSend, hi]

theorem beginSegment_held (chk : Chk) : s.beginSegment d chk = s := by
  rw [State.beginSegment, controlAt_held h]

theorem endSegment_held (chk : Chk) : s.endSegment d chk = s := by
  rw [State.endSegment, controlAt_held h]
end

/-- STEP_SELECT changes nothing while one of its conditions fails (R237). -/
theorem exec_stepSelect_blocked {s : State}
    (h : (s.held || !s.ready || !s.runsAllow || s.boundaryDue || s.retireDue) = true) :
    exec .stepSelect s = .next s := if_pos h

/-- Settles O47: a record does not issue, a control record has no turn, and no step is selected. -/
theorem heldIssuesNothing : Obligations.HeldIssuesNothing :=
  ⟨fun _ s d _ hi h => recordCourse_held h d (exec_recordCourse hi s),
    fun s d chk h => ⟨congrArg _ (beginSegment_held h d chk), congrArg _ (endSegment_held h d chk),
      exec_stepSelect_blocked (by rw [held_or_notReady h]; rfl)⟩⟩

/-- A step in progress before order 6, in wait for its next run, or after more than one run, holds the others (R237,
R346). -/
theorem runsAllow_false {s : State} (h : ∃ r ∈ s.runs, r.order < 6 ∨ r.waiting = true ∨ 2 ≤ r.history.length) :
    s.runsAllow = false := by
  obtain ⟨r, hr, h⟩ := h
  rw [State.runsAllow, List.all_eq_false]
  refine ⟨r, hr, ?_⟩
  rcases h with h | h | h
  · simp [Nat.not_le.mpr h]
  · simp [h]
  · simp [show r.history.length ≠ 1 by omega]

/-- Settles O58: the selection's test of the other runs fails. -/
theorem recountHoldsOtherSteps : Obligations.RecountHoldsOtherSteps :=
  fun _ h => exec_stepSelect_blocked (by simp [runsAllow_false h])

/-! ### What a record leaves of the posted memories -/

/-- A mill that wakes leaves the resident jobs alone (R118). -/
theorem wakeMill_job (s t : State) (d n : Nat) : (s.wakeMill t d).job n = t.job n := by
  rw [State.job, State.job, jobs_of_posted (State.wakeMill_posted s t d)]

/-- Each course writes escrow alone, or ends a job of its step. -/
theorem recordCourse_posted {s t : State} {d : Nat} {chk : Chk} (ha : s.armedHbm = false)
    (hc : ∀ sp b x y, chk ≠ .uncorrectable sp b x y) {o : Host.Outcome State Fault Refusal}
    (h : RecordCourse s d chk o) (ht : o = .next t) : t.posted = s.posted ∨ ∃ j ∈ s.jobs, t.job j.num = none := by
  cases h with
  | nop => exact .inl (execNop_posted d chk s t ht)
  | engine op f => cases ht; exact State.doRecord_posted ha hc
  | pass =>
    cases ht
    simpa only [State.wakeMill_posted, wakeMill_job] using State.doRecord_posted (f := doMillPass) ha hc
  | movement op => cases ht; exact .inl (State.doMove_posted ha hc)
  | contribution => cases ht; exact State.doSend_posted ha hc

/-- Settles O46: a record by its course; its completion and the landing of a move write the run alone. -/
theorem escrowProtectsPostedMemory : Obligations.EscrowProtectsPostedMemory := by
  refine ⟨fun i s t d chk hi ha hc h => recordCourse_posted ha hc (exec_recordCourse hi s) h, fun s t d idx chk => ⟨?_, ?_⟩⟩
  · intro h
    cases h
    exact State.completeRecord_posted s d idx
  · intro h
    cases h
    exact State.landMove_posted s d idx chk

end Sys2Proof.Proofs

/-! ## Posted memories, and a step's shadow over them (R223, R237, R239, R253, R275) -/

namespace Sys2Proof.Proofs
open Sys2Proof.Machine

/-- A read of one byte is the byte there. -/
theorem read_one (m : Mem) (x : Nat) : m.read x 1 = [cellGet x m.cells] := rfl

/-- Settles O54: reads after a write, the poison map that a write does not touch, and the canonical form. -/
theorem postedMemoryReadsBack : Obligations.PostedMemoryReadsBack :=
  fun _ a bs h => ⟨Mem.read_write h a bs, fun x hx => by rw [read_one, read_one, Mem.write_else h a x bs hx], rfl,
    Mem.write_wf h a bs⟩

/-- A byte that the step writes reads as written, and every other as before. -/
theorem shGet_putByte {sh : Shadow} (h : sh.cells.Pairwise (fun x y => x.1 < y.1)) (m : Mem) (a x : Nat) (b : Byte) :
    shGet (sh.putByte a b) m x = if x = a then b else shGet sh m x := by
  rw [shGet, Shadow.putByte, shadowLook_put a x b sh.cells h]
  split <;> rfl

/-- Settles O55: the step reads its shadow's cell or, without one, the posted copy's; posting merges the cells. -/
theorem postingPublishesTheShadow : Obligations.PostingPublishesTheShadow := by
  intro m sh hm hs
  obtain ⟨hc, -⟩ := (Mem.wf_iff m).mp hm
  refine ⟨fun a x b => shGet_putByte hs m a x b, fun x hx => ?_, fun x b hb => ?_, fun x => ?_, ?_⟩
  · rw [shGet, shadowLook_absent x sh.cells hx]; rfl
  · rw [shGet, shadowLook_mem x b sh.cells hs hb]; rfl
  · exact merge_get x sh.cells m.cells hc hs
  · exact mergeCells_wf sh.cells hc

end Sys2Proof.Proofs

/-! ## Reports leave all but reports alone (R247, R251, R330, R351, R453) -/

namespace Sys2Proof.Proofs
open Sys2Proof.Machine

/-- Settles O48: each report by its own frame. -/
theorem reportsTouchOnlyReports : Obligations.ReportsTouchOnlyReports :=
  fun s e c status r0 r1 x v addr bs => ⟨State.raise_rest s e, State.interrupt_rest s v, State.hostWrite_rest s addr bs,
    State.pushCpl_rest s x, State.finish_rest s c status, State.finishWith_rest s c r0 r1, State.drainCpl_rest s,
    fun job step cls => State.infoEvent_rest s job step cls⟩

end Sys2Proof.Proofs

/-! ## Commands of jobs and rings (R237, R238, R244 to R246, R248 to R252, R256; log 25, 31) -/

namespace Sys2Proof.Proofs
open Sys2Proof.Machine

/-! ### The effect of an entry that is not refused -/

section
variable {s : State} {c : Cmd} {j : Job}

/-- The request that STEP_RUN enters: TEMPLATE, and COUNT, 0 without limit (R248). -/
def stepRequest (s : State) (c : Cmd) : StepReq :=
  { template := c.w 1, left := if c.w 2 = 0 then none else some (c.w 2), posted := 0, locked := true
    ring := c.ring, seq := BitVec.ofNat 32 c.seq, stamp := s.stamp }

theorem doStepRun_queues (hj : s.job c.job = some j) (ht : c.w 1 < j.bin.templates) :
    doStepRun s c = { s.setJob { j with queue := j.queue ++ [stepRequest s c] } with stamp := s.stamp + 1 } := by
  simp only [doStepRun, hj, if_neg (Nat.not_le.mpr ht), stepRequest]

theorem doSnapshot_waits (hj : s.job c.job = some j) (hl : bits (c.w 2) 63 62 = 1) :
    doSnapshot s c = s.setJob { j with snaps := j.snaps ++ [⟨c.w 1, bits (c.w 2) 47 0, c.ring, c.seq⟩] } := by
  simp only [doSnapshot, hj, if_neg (not_not.mpr hl)]

theorem doJobEnd_waits (hj : s.job c.job = some j) (he : j.ending = none) :
    doJobEnd s c = s.setJob { j with ending := some (c.ring, c.seq) } := by
  simp [doJobEnd, hj, he]

/-- After JOB_ABORT neither the job nor its run is there: what its end completes leaves it resident until it is
dropped. -/
theorem doJobAbort_gone (hj : s.job c.job = some j) :
    (doJobAbort s c).job c.job = none ∧ (doJobAbort s c).run c.job = none := by
  obtain ⟨k, hk⟩ := State.job_some_of_nums (t := (s.closeJob c.job 0).finish c 0) (by simp) hj
  exact ⟨State.dropJob_job _ _, State.dropJob_run _ _ hk⟩

theorem namedRing_some {job n : Nat} {x : Ring} (hx : s.ring n = some x) (hn : 16 ≤ n) (hj : x.job = job) :
    s.namedRing job n = some x := by
  simp only [State.namedRing, hx, hn, hj, and_self, if_true]

theorem doRingAlloc_enters {w : List Nat} {n : Nat} (hp : s.locPoison c 32 = none) (hl : 32 ≤ bits (c.w 2) 47 0)
    (hw : w = (wordsOf (bytesAt (s.locBytes c (c.w 1) (c.w 2) c.data) 0 32)).take 4) (hd : s.descCheck c.job w = 0)
    (hn : lowestFree (s.rings.map (·.1)) 16 (2 ^ 20 - 16) = some n) :
    doRingAlloc s c = ((s.setRing n (ringOf w)).writeDesc c (nthD 0 w 3) n).finishWith c n 0 := by
  simp only [doRingAlloc, hp, ← hw, if_neg (Nat.not_lt.mpr hl), hd, hn]

theorem doRingFree_removes {x : Ring} (hx : s.ring (c.w 1) = some x) (hn : 16 ≤ c.w 1) (hj : x.job = c.job) :
    doRingFree s c = ({ s with rings := del (c.w 1) s.rings }).finish c 0 := by
  simp only [doRingFree, namedRing_some hx hn hj]

theorem doBoundary_marks {x : Ring} (hx : s.ring (c.w 1) = some x) (hn : 16 ≤ c.w 1) (hj : x.job = c.job)
    (hk : x.kind = 3) (hf : x.full = false) : doBoundary s c = (s.produceIrq (c.w 1) x
      [BitVec.ofNat 64 (0x21 * 2 ^ 56 + c.job * 2 ^ 32), 0, 0, 0, 0, 0, 0, 0]).finish c 0 := by
  simp only [doBoundary, namedRing_some hx hn hj, if_neg (not_not.mpr hk), hf, Bool.false_eq_true, if_false]
end

/-! ### The commands -/

section
variable {s : State} {f : Fetch} {r : Ring} {c : Cmd}

theorem exec_stepRun_accepted (ha : s.accepts f 0x02 r c) :
    exec (.stepRun f) s = .next (doStepRun (s.consumed f r) c) := congrArg _ (State.command_accepts ha _)

theorem exec_snapshot_accepted (ha : s.accepts f 0x03 r c) :
    exec (.snapshot f) s = .next (doSnapshot (s.consumed f r) c) := congrArg _ (State.command_accepts ha _)

theorem exec_jobEnd_accepted (ha : s.accepts f 0x04 r c) :
    exec (.jobEnd f) s = .next (doJobEnd (s.consumed f r) c) := congrArg _ (State.command_accepts ha _)

theorem exec_jobAbort_accepted (ha : s.accepts f 0x05 r c) :
    exec (.jobAbort f) s = .next (doJobAbort (s.consumed f r) c) := congrArg _ (State.command_accepts ha _)

theorem exec_ringAlloc_accepted (ha : s.accepts f 0x06 r c) :
    exec (.ringAlloc f) s = .next (doRingAlloc (s.consumed f r) c) := congrArg _ (State.command_accepts ha _)

theorem exec_ringFree_accepted (ha : s.accepts f 0x07 r c) :
    exec (.ringFree f) s = .next (doRingFree (s.consumed f r) c) := congrArg _ (State.command_accepts ha _)

theorem exec_boundary_accepted (ha : s.accepts f 0x0A r c) :
    exec (.boundary f) s = .next (doBoundary (s.consumed f r) c) := congrArg _ (State.command_accepts ha _)

/-- The ring and SEQ of an accepted command are those of the entry that is taken. -/
theorem accepts_ring {op : Nat} (ha : s.accepts f op r c) : c.ring = f.ring ∧ c.seq = r.head.toNat :=
  State.takes_ring ha.1
end

/-- Settles O7: each command's effect on the state that the taking of its entry leaves, whose jobs are as they were. -/
theorem jobCommandsAct : Obligations.JobCommandsAct := by
  refine ⟨?stepRun, ?snapshot, ?jobEnd, ?jobAbort⟩
  all_goals
    intro s f r c j ha hj
    obtain ⟨hring, hseq⟩ := accepts_ring ha
    rw [← State.consumed_job s f r] at hj
  case stepRun =>
    intro ht
    rw [exec_stepRun_accepted ha, doStepRun_queues hj ht, stepRequest, hring, hseq, BitVec.ofNat_toNat,
      BitVec.setWidth_eq, State.consumed_stamp]
  case snapshot =>
    intro hl
    rw [exec_snapshot_accepted ha, doSnapshot_waits hj hl, hring, hseq]
  case jobEnd =>
    intro he
    rw [exec_jobEnd_accepted ha, doJobEnd_waits hj he, hring, hseq]
  case jobAbort =>
    exact ⟨_, exec_jobAbort_accepted ha, rfl, doJobAbort_gone hj⟩

/-- Settles O8: each command's effect on the state that the taking of its entry leaves. -/
theorem ringCommandsAct : Obligations.RingCommandsAct := by
  refine ⟨?ringAlloc, ?ringFree, ?boundary⟩
  case ringAlloc =>
    intro s f r c w n ha hp hl hw hd hn
    rw [← State.consumed_locPoison s f r] at hp
    rw [← State.consumed_locBytes s f r] at hw
    rw [exec_ringAlloc_accepted ha, doRingAlloc_enters hp hl hw hd hn]
  case ringFree =>
    intro s f r c x ha hx hn hj
    rw [exec_ringFree_accepted ha, doRingFree_removes hx hn hj]
  case boundary =>
    intro s f r c x ha hx hn hj hk hf
    rw [exec_boundary_accepted ha, doBoundary_marks hx hn hj hk hf]

end Sys2Proof.Proofs

/-! ## Data movements, contributions and completions (R227, R278 to R284, R318, R364; log 42) -/

namespace Sys2Proof.Proofs
open Sys2Proof.Machine

/-- The flight of a data movement that issues: what it has captured, where that goes, and which addition it is (R283,
R284). -/
def capturedFlight (i : Iss) (d op : Nat) (k : Capture) : Flight :=
  { i.flight d with
    writes := inSpace k.space k.writes, marks := k.marks.map (fun b => (k.space, b, true)), dst := k.slot
    arrival := k.arrival, atom := if op = 0x22 then 1 else if op = 0x23 then 2 else 0 }

/-- A movement that issues and whose reads meet no error captures its source; its writes are in flight. -/
theorem doMove_captures {s : State} {d op : Nat} {i : Iss} {k : Capture} (hi : s.issueAt d op = some i)
    (ha : s.armedHbm = false) (hk : k = (s.ctx i.job i.run d).capture i.rec_ i.rec2) :
    s.doMove d op .ok = (((s.markRead i.run d ((s.ctx i.job i.run d).reads i.rec_ i.rec2)).advance i.job
      (i.after d { slot := i.run.slot d } (digestOf (inSpace k.space k.writes)) (capturedFlight i d op k)
        i.run.bank)).markCheck i d).armReport i d := by
  subst hk
  simp only [State.doMove, hi, State.readChecks_ok _ _ _ ha, State.chkReport_ok, capturedFlight]

section
variable {s : State} {d idx : Nat} {j : Job} {r : Run} {f : Flight} (hf : s.flightAt d idx = some (j, r, f))
include hf

theorem landMove_lands (hm : isMove f.opcode = true) (ht : (r.slot d).inTurn f = true) :
    s.landMove d idx .ok = s.advance j (r.landed j d f) := by
  simp only [State.landMove, hf, hm, ht, Bool.and_self, if_true]

theorem landMove_waits (ht : (r.slot d).inTurn f = false) (chk : Chk) : s.landMove d idx chk = s := by
  rw [State.landMove, hf]
  exact if_neg (by simp [ht])

theorem completeRecord_ends (hd : s.flightDone f = true) (ht : (r.slot d).inTurn f = true)
    (ho : ¬ (f.opcode = 0x70 ∧ f.send = none)) :
    s.completeRecord d idx = s.setRun (resched j (r.dropFlight d idx)) := by
  simp only [State.completeRecord, hf, hd, ht, Bool.and_self, if_true, if_neg ho]

theorem completeRecord_ownContribution (hd : s.flightDone f = true) (ht : (r.slot d).inTurn f = true)
    (ho : f.opcode = 0x70 ∧ f.send = none) : s.completeRecord d idx = s.landOwn j r d f := by
  simp only [State.completeRecord, hf, hd, ht, Bool.and_self, if_true, if_pos ho]
end

/-- A contribution to this device lands whole, in the run and in the received set (R318, R322). -/
theorem landOwn_lands {s : State} {j : Job} {r : Run} {d : Nat} {f : Flight} {v : Recv}
    (hv : s.ownAt j r d (sendOrdinal (segment (j.streamOf d) r.template).2
      (f.idx - (segment (j.streamOf d) r.template).1)) = some v) :
    s.landOwn j r d f = (s.setRun (resched j (((r.land j (v.whole f.writes f.marks) f.arrival).landedWhole
      (v.whole f.writes f.marks)).dropFlight d f.idx))).setRecv (v.whole f.writes f.marks) := by
  simp only [State.landOwn, hv]

/-- Settles O20: the three movements by what they capture, and the ends of a flight by its turn. -/
theorem dataMovementsAct : Obligations.DataMovementsAct := by
  refine ⟨?move, ?atomT256, ?atomFp32, ?moveLands, ?recordComplete⟩
  case move | atomT256 | atomFp32 =>
    intro s d i k f hi ha hk hf
    subst hf
    exact congrArg _ (doMove_captures hi ha hk)
  case moveLands =>
    exact fun s d idx j r f hf hm => ⟨fun ht => congrArg _ (landMove_lands hf hm ht),
      fun ht => congrArg _ (landMove_waits hf ht .ok)⟩
  case recordComplete =>
    intro s d idx j r f hf hd ht
    exact ⟨fun ho => congrArg _ (completeRecord_ends hf hd ht ho), fun v h70 hs hv =>
      congrArg Host.Outcome.next ((completeRecord_ownContribution hf hd ht ⟨h70, hs⟩).trans (landOwn_lands hv))⟩

end Sys2Proof.Proofs

/-! ## The selection of a step (R237, R256, R322, R377, R390; log 41) -/

namespace Sys2Proof.Proofs
open Sys2Proof.Machine

/-- STEP_SELECT where nothing stands in the way and a step can begin. -/
theorem exec_stepSelect_begins {s : State} {j : Job} {q : StepReq} {rest : List StepReq} (hh : s.held = false)
    (hr : s.ready = true) (ha : s.runsAllow = true) (hb : s.boundaryDue = false) (hd : s.retireDue = false)
    (hc : s.chosen = some j) (hq : j.queue = q :: rest) {k : Job} (hk : k = j.withBatches s.batches) {u : State}
    (hu : u = (s.setJob k).markBatches j) {x : Run}
    (hx : x = resched k ((u.readReceived (u.openRun k q)).takeReceived k (u.openRun k q))) {v : State}
    (hv : v = (((u.readReceived (u.openRun k q)).nameSwitch x.hosts).endDelay).beginRun x) :
    exec .stepSelect s = .next (if v.mod.capBelowPin then v.lockBreakJob j.num else v) := by
  subst hv hx hu hk
  show execStepSelect s = _
  simp only [execStepSelect, hh, hr, ha, hb, hd, hc, hq, Bool.not_true, Bool.or_false, Bool.false_eq_true, if_false]

/-- Taking its batches leaves a job's number and step. -/
theorem withBatches_step (j : Job) (bs : List Batch) :
    (j.withBatches bs).num = j.num ∧ (j.withBatches bs).step = j.step := by
  have h : ∀ (l : List Batch) (k : Job), (l.foldl (fun j b => j.takeBatch b) k).num = k.num
      ∧ (l.foldl (fun j b => j.takeBatch b) k).step = k.step := by
    intro l
    induction l with
    | nil => exact fun k => ⟨rfl, rfl⟩
    | cons b l ih => exact fun k => ih (k.takeBatch b)
  exact h _ _

/-- A run is what it is whether or not its lock is broken. -/
theorem head_of_phase {x y : Run} (h : x.phase = y.phase) : x.head = y.head :=
  show x.phase.head = y.phase.head from congrArg Run.head h

/-- The run that a step begins with stands among the runs, but for the mark of its lock. -/
theorem beginRun_mem {s t : State} {r : Run} (h : t.phases = (s.beginRun r).phases) :
    ∃ x ∈ t.runs, x.head = r.head := by
  have hm : r.phase ∈ t.phases := by
    rw [h]
    exact List.mem_map_of_mem (List.mem_append_right s.runs (List.mem_singleton_self r))
  obtain ⟨x, hx, he⟩ := List.mem_map.mp hm
  exact ⟨x, hx, head_of_phase he⟩

/-- Settles O22: the state that the selection leaves, in which a break of the lock may follow the new run. -/
theorem stepSelectionBeginsAStep : Obligations.StepSelectionBeginsAStep := by
  intro s j q rest k u v r hh hr ha hb hd hc hq hk hu hr0 hv
  have hp : (if v.mod.capBelowPin then v.lockBreakJob j.num else v).phases = v.phases := by
    split
    · exact State.lockBreakJob_phases _ _
    · rfl
  rw [hv] at hp
  obtain ⟨x, hx, he⟩ := beginRun_mem hp
  rw [← hv] at hx
  have hid := withBatches_step j s.batches
  rw [← hk] at hid
  rw [resched_head, State.takeReceived_head, hr0] at he
  simp only [Run.head, State.openRun, Prod.mk.injEq] at he
  obtain ⟨hjob, htmpl, hstep, horder, hrun, hhosts, hhist, hwait, hev⟩ := he
  subst hr0
  exact ⟨_, x, exec_stepSelect_begins hh hr ha hb hd hc hq hk hu rfl hv, rfl, hx, horder, hrun, htmpl, hstep.trans hid.2,
    hjob.trans hid.1, hhosts, hhist, hwait, hev, rfl, rfl⟩

end Sys2Proof.Proofs

/-! ## Doorbells, the error window and the administrative rings (R245 to R247, R351, R460; log 39) -/

namespace Sys2Proof.Proofs
open Sys2Proof.Machine

/-! ### What each command does where the ledger page takes the write -/

section
variable {s : State} (v : W32)

theorem exec_ldgDbValue_taken (h : s.takesWrite false 3 0x104 = true) :
    exec (.ldgDbValue v) s = .next (s.doorbell v) := congrArg _ (regWrite_taken h _)

theorem exec_errPop_taken (h : s.takesWrite false 3 0x120 = true) :
    exec (.errPop v) s = .next (s.errPop v) := congrArg _ (regWrite_taken h _)

theorem exec_errIrq_taken (h : s.takesWrite false 3 0x124 = true) :
    exec (.errIrq v) s = .next (s.setErrIrq v) := congrArg _ (regWrite_taken h _)

theorem exec_admCmdPush_taken (h : s.takesWrite false 3 0x240 = true) :
    exec (.admCmdPush v) s = .next (s.cmdPush v) := congrArg _ (regWrite_taken h _)

theorem exec_admCplPop_taken (h : s.takesWrite false 3 0x258 = true) :
    exec (.admCplPop v) s = .next (s.cplPop v) := congrArg _ (regWrite_taken h _)

/-! ### Doorbells -/

theorem doorbell_noRing (h : bits s.ldg.dbRing.toNat 19 0 ≤ 2 ∨ s.ring (bits s.ldg.dbRing.toNat 19 0) = none) :
    s.doorbell v = s.discardDoorbell := by
  rcases h with h | h <;> simp [State.doorbell, h]

/-- A ring from 3 up takes a doorbell as bit 31 says: its HEAD, or its TAIL. -/
theorem doorbell_ring {n : Nat} {r : Ring} (hn : n = bits s.ldg.dbRing.toNat 19 0) (h2 : 2 < n) (hr : s.ring n = some r) :
    s.doorbell v = if s.ldg.dbRing.getLsbD 31 then s.setHead n r v else s.setTail n r v := by
  subst hn
  simp only [State.doorbell, if_neg (Nat.not_le.mpr h2), hr]

section
variable {v} (n : Nat) {r : Ring}

theorem setHead_moves (h : (v - r.head).toNat ≤ r.used) :
    s.setHead n r v = (s.setRing n { r with head := v, stopped := false }).drainCpl := if_neg (Nat.not_lt.mpr h)

theorem setHead_beyond (h : r.used < (v - r.head).toNat) : s.setHead n r v = s.discardDoorbell := if_pos h

theorem setTail_moves (h : (v - r.head).toNat ≤ r.size) (hk : r.kind ≠ 2) :
    s.setTail n r v = s.setRing n { r with tail := v, stopped := false } := by
  simp only [State.setTail, if_neg (Nat.not_lt.mpr h), if_neg hk]

theorem setTail_stream (h : (v - r.head).toNat ≤ r.size) (hk : r.kind = 2) :
    s.setTail n r v = (s.setRing n { r with tail := v, stopped := false }).sendEntries n
      { r with tail := v, stopped := false } r.tail (v - r.tail).toNat := by
  simp only [State.setTail, if_neg (Nat.not_lt.mpr h), if_pos hk]

theorem setTail_overrun (h : r.size < (v - r.head).toNat) :
    s.setTail n r v = s.discardDoorbell.raise { code := 0x11, job := r.job } := if_pos h
end

/-! ### The device's own rings -/

theorem errPop_none (h : s.ring 2 = none) : s.errPop v = s := by simp only [State.errPop, h]

theorem errPop_some {r : Ring} (h : s.ring 2 = some r) : s.errPop v =
    s.setRing 2 { r with head := r.head + BitVec.ofNat 32 (min (bits v.toNat 16 0) r.used) } := by
  simp only [State.errPop, h, Ring.pop]

theorem cplPop_none (h : s.ring 1 = none) : s.cplPop v = s := by simp only [State.cplPop, h]

theorem cplPop_some {r : Ring} (h : s.ring 1 = some r) : s.cplPop v =
    (s.setRing 1 { r with head := r.head + BitVec.ofNat 32 (min (bits v.toNat 16 0) r.used) }).drainCpl := by
  simp only [State.cplPop, h, Ring.pop]

theorem cmdPush_idle (h : s.ring 0 = none ∨ v.getLsbD 0 = false) : s.cmdPush v = s := by
  rcases h with h | h
  · simp only [State.cmdPush, h, ite_self]
  · exact if_neg (by rw [h]; exact Bool.false_ne_true)

/-- A push of the staged command, by the room of ring 0. -/
theorem cmdPush_some {r : Ring} (h : s.ring 0 = some r) (hv : v.getLsbD 0 = true) : s.cmdPush v =
    if r.full then { s with ldg := { s.ldg with
      discard := BitVec.ofNat 32 (satAdd s.ldg.discard.toNat 1 (2 ^ 32 - 1)) } }.raise { code := 0x11 }
    else s.produce 0 { r with stopped := false } (stagedWords s.ldg.cmd) := by
  simp only [State.cmdPush, hv, if_true, h]

theorem setErrIrq_none (h : s.ring 2 = none) :
    s.setErrIrq v = { s with ldg := { s.ldg with errIrq := v &&& 0x800007FF } } := by
  have h' : State.ring { s with ldg := { s.ldg with errIrq := v &&& 0x800007FF } } 2 = none := h
  simp only [State.setErrIrq, irqBits, h']

theorem setErrIrq_some {r : Ring} (h : s.ring 2 = some r) :
    s.setErrIrq v = { s with ldg := { s.ldg with errIrq := v &&& 0x800007FF } }.setRing 2
      { r with irqEn := v.getLsbD 31, msix := v.setWidth 11 } := by
  have h' : State.ring { s with ldg := { s.ldg with errIrq := v &&& 0x800007FF } } 2 = some r := h
  simp only [State.setErrIrq, irqBits, h']

theorem setErrIrq_ldg : (s.setErrIrq v).ldg = { s.ldg with errIrq := v &&& 0x800007FF } := by
  cases h : s.ring 2 with
  | none => rw [setErrIrq_none v h]
  | some r => rw [setErrIrq_some v h]; rfl

/-! ### The count of discarded doorbells -/

theorem exec_ldgDbDiscard : exec .ldgDbDiscard s = .next (s.hostRead 0x3108) := rfl

/-- A read of LDG_DB_DISCARD answers the count and clears it. -/
theorem readDiscard : s.afterRead false 3 0x108 = { s with ldg := { s.ldg with discard := 0 } }
    ∧ s.readValue false 3 0x108 = s.ldg.discard := by
  have hp : s.pageType 3 = 4 := rfl
  simp [State.afterRead, State.readValue, hp, pairOf, State.regValue, State.ledgerReg]
end

/-- Settles O40: the doorbell by its ring, bit 31 and the bound that it must keep; the device's own rings by whether they
are there; and nothing where the ledger page takes no write. -/
theorem ledgerCommandsAct : Obligations.LedgerCommandsAct := by
  refine ⟨?doorbell, ?noRing, ?errPop, ?cplPop, ?errIrq, ?cmdPush, ?discard, ?refused⟩
  case doorbell =>
    intro s v n r ht hn h2 hr
    rw [exec_ldgDbValue_taken v ht, doorbell_ring v hn h2 hr]
    refine ⟨fun hb h => ?_, fun hb h => ?_, fun hb hk h => ?_, fun hb hk h => ?_, fun hb h => ?_⟩ <;> rw [hb]
    · exact congrArg _ (setHead_moves n h)
    · exact congrArg _ (setHead_beyond n h)
    · exact congrArg _ (setTail_moves n h hk)
    · exact congrArg _ (setTail_stream n h hk)
    · exact congrArg _ (setTail_overrun n h)
  case noRing => exact fun s v ht h => (exec_ldgDbValue_taken v ht).trans (congrArg _ (doorbell_noRing v h))
  case errPop => exact fun s v r ht h => (exec_errPop_taken v ht).trans (congrArg _ (errPop_some v h))
  case cplPop => exact fun s v r ht h => (exec_admCplPop_taken v ht).trans (congrArg _ (cplPop_some v h))
  case errIrq =>
    exact fun s v ht => ⟨_, exec_errIrq_taken v ht, setErrIrq_ldg v, fun r h => setErrIrq_some v h,
      fun h => setErrIrq_none v h⟩
  case cmdPush =>
    intro s v r ht hr hv
    rw [exec_admCmdPush_taken v ht, cmdPush_some v hr hv]
    exact ⟨fun hf => by rw [hf]; rfl, fun hf => by rw [hf]; rfl⟩
  case discard =>
    intro s ho
    rw [exec_ldgDbDiscard, hostRead_open (n := 3) (o := 0x108) rfl rfl ho, readDiscard.1, readDiscard.2]
  case refused =>
    refine fun s v => ⟨fun ht => congrArg _ (regWrite_refused ht _), ?_, ?_, fun ht => congrArg _ (regWrite_refused ht _), ?_,
      fun ho => congrArg _ (hostRead_closed ho)⟩
    · intro h
      cases ht : s.takesWrite false 3 0x120
      · exact congrArg _ (regWrite_refused ht _)
      · exact (exec_errPop_taken v ht).trans (congrArg _ (errPop_none v (h.resolve_left (by simp [ht]))))
    · intro h
      cases ht : s.takesWrite false 3 0x258
      · exact congrArg _ (regWrite_refused ht _)
      · exact (exec_admCplPop_taken v ht).trans (congrArg _ (cplPop_none v (h.resolve_left (by simp [ht]))))
    · intro h
      cases ht : s.takesWrite false 3 0x240
      · exact congrArg _ (regWrite_refused ht _)
      · exact (exec_admCmdPush_taken v ht).trans (congrArg _ (cmdPush_idle v (h.resolve_left (by simp [ht]))))

end Sys2Proof.Proofs

/-! ## The transactions that a port has received (R245, R246, R303 to R305, R317, R329, R330; log 16, 17, 43) -/

namespace Sys2Proof.Proofs
open Sys2Proof.Machine

/-! ### The oldest transaction of a channel -/

/-- A transaction that is taken is of the type asked for, on an admitted port, and has left the port's queue. -/
theorem takeTxn_some {s u : State} {p n : Nat} {t : Txn} (h : s.takeTxn p n = some (t, u)) :
    t.ttype = n ∧ (s.port p).state = .admitted ∧ u = s.setPort p { s.port p with
      rxq := delFirst (fun x => txnVc x.ttype == txnVc n) (s.port p).rxq }.idle := by
  simp only [State.takeTxn] at h
  split at h
  · split at h
    · next hc =>
      obtain ⟨ht, ha⟩ := hc
      cases h
      exact ⟨ht, ha, rfl⟩
    · cases h
  · cases h

/-- What an idle port sends leaves what it has received (R300). -/
theorem idle_rxq (q : Port) : q.idle.rxq = q.rxq := by
  obtain ⟨_, _, _, _, _, _, _, _, _, _, _, _, _, _, h, _⟩ := Port.of_line q.idle_line
  exact h

theorem takeTxn_rxq {s u : State} {p n : Nat} {t : Txn} (h : s.takeTxn p n = some (t, u)) :
    (u.port p).rxq = delFirst (fun x => txnVc x.ttype == txnVc n) (s.port p).rxq := by
  obtain ⟨-, -, rfl⟩ := takeTxn_some h
  rw [State.setPort_port, idle_rxq]

section
variable {s u : State} {p : Nat} {t : Txn} (chk : Chk) (env : StartEnv)

theorem exec_rd_taken (h : s.takeTxn p 1 = some (t, u)) : exec (.rd p) s = .next (u.recvRd p t) := by
  show execRd p s = _
  rw [execRd, h]

theorem exec_wr_taken (h : s.takeTxn p 2 = some (t, u)) : exec (.wr p chk env) s = .next (u.recvWr p t chk env) := by
  show execWr p chk env s = _
  rw [execWr, h]

theorem exec_at256_taken (h : s.takeTxn p 3 = some (t, u)) : exec (.at256 p chk) s =
    .next (if t.space < 3 then u.contribution p t 1 chk else u.denied p t) := by
  show execAt256 p chk s = _
  rw [execAt256, h]

theorem exec_afp32_taken (h : s.takeTxn p 4 = some (t, u)) : exec (.afp32 p chk) s =
    .next (if t.space < 3 then u.contribution p t 2 chk else u.denied p t) := by
  show execAfp32 p chk s = _
  rw [execAfp32, h]

theorem exec_cpl_taken (h : s.takeTxn p 5 = some (t, u)) : exec (.cpl p) s = .next (u.recvCpl p t) := by
  show execCpl p s = _
  rw [execCpl, h]

theorem exec_db_taken (h : s.takeTxn p 6 = some (t, u)) : exec (.db p) s = .next (u.recvDb p t) := by
  show execDb p s = _
  rw [execDb, h]

theorem exec_msg_taken (h : s.takeTxn p 7 = some (t, u)) : exec (.msg p) s = .next (u.recvMsg p t) := by
  show execMsg p s = _
  rw [execMsg, h]

theorem exec_csgn_taken (h : s.takeTxn p 8 = some (t, u)) : exec (.csgn p) s =
    .next (u.aboutContrib p t (fun s j x => s.recvCsgn p j x t)) := by
  show execCsgn p s = _
  rw [execCsgn, h]

theorem exec_void_taken (h : s.takeTxn p 9 = some (t, u)) : exec (.void p) s =
    .next (u.aboutContrib p t (fun s j x => s.recvVoid p j x t)) := by
  show execVoid p s = _
  rw [execVoid, h]

theorem exec_intr_taken (h : s.takeTxn p 0xA = some (t, u)) : exec (.intr p) s = .next (if u.isMember t.src
    then (u.interrupt (BitVec.ofNat 11 t.addr)).answer p t 0 else u.denied p t) := by
  show execIntr p s = _
  rw [execIntr, h]
end

/-- Without a transaction of its type at the front of the channel, a command of the receiver changes nothing. -/
theorem exec_received_none (s : State) (p : Nat) (chk : Chk) (env : StartEnv) :
    (s.takeTxn p 1 = none → exec (.rd p) s = .next s) ∧ (s.takeTxn p 2 = none → exec (.wr p chk env) s = .next s)
    ∧ (s.takeTxn p 3 = none → exec (.at256 p chk) s = .next s) ∧ (s.takeTxn p 4 = none → exec (.afp32 p chk) s = .next s)
    ∧ (s.takeTxn p 5 = none → exec (.cpl p) s = .next s) ∧ (s.takeTxn p 6 = none → exec (.db p) s = .next s)
    ∧ (s.takeTxn p 7 = none → exec (.msg p) s = .next s) ∧ (s.takeTxn p 8 = none → exec (.csgn p) s = .next s)
    ∧ (s.takeTxn p 9 = none → exec (.void p) s = .next s) ∧ (s.takeTxn p 0xA = none → exec (.intr p) s = .next s) := by
  refine ⟨?_, ?_, ?_, ?_, ?_, ?_, ?_, ?_, ?_, ?_⟩
  all_goals
    intro h
    unfold exec
    simp only [execRd, execWr, execAt256, execAfp32, execCpl, execDb, execMsg, execCsgn, execVoid, execIntr, h]

/-! ### RD and WR by their space (R302, R303) -/

section
variable {u : State} {p : Nat} {t : Txn}

theorem recvRd_registers (h : t.space = 4) : u.recvRd p t = if u.fromTeller t
    then (u.readRegs t.addr t.names (4 * t.len)).2.complete p t 0 0
      (bytesAt (u.readRegs t.addr t.names (4 * t.len)).1 0 (16 * t.len)) else u.denied p t := by
  simp only [State.recvRd, h]

theorem recvRd_host (h : t.space = 3) : u.recvRd p t =
    if u.isMember t.src && u.hostWindow false t.addr (16 * t.len) then
      { u with freeCtr := u.freeCtr + 1 }.complete p t 0 0 ((List.range (16 * t.len)).map (fun k => padByte u.freeCtr k))
    else u.denied p t := by
  simp only [State.recvRd, h]

theorem recvRd_memory (h : t.space < 3) : u.recvRd p t = u.readWindow p t := by
  unfold State.recvRd
  split
  · omega
  · omega
  · rfl

theorem recvWr_registers (chk : Chk) (env : StartEnv) (h : t.space = 4) : u.recvWr p t chk env = if u.fromTeller t
    then (u.writeRegs t.addr t.names t.data env (4 * t.len)).answer p t 0 else u.denied p t := by
  simp only [State.recvWr, h]

theorem recvWr_host (chk : Chk) (env : StartEnv) (h : t.space = 3) : u.recvWr p t chk env =
    if u.isMember t.src && u.hostWindow true t.addr (16 * t.len) then (u.hostWrite t.addr t.data).answer p t 0
    else u.denied p t := by
  simp only [State.recvWr, h]

theorem recvWr_memory (chk : Chk) (env : StartEnv) (h : t.space < 3) : u.recvWr p t chk env = u.contribution p t 0 chk := by
  unfold State.recvWr
  split
  · omega
  · omega
  · rfl

/-! ### A read of a job's memory (R305, Table 10-7) -/

theorem readWindow_noJob (h : u.job t.job = none) : u.readWindow p t = u.denied p t := by
  simp only [State.readWindow, h]

theorem readWindow_otherStep {j : Job} (h : u.job t.job = some j) (hs : ∀ r, u.stepAt j t.stepLo ≠ .now r) :
    u.readWindow p t = u.denied p t := by
  simp only [State.readWindow, h]

/-- In the current step: the posted memory, to a device of the job inside a declared destination. -/
theorem readWindow_now {j : Job} {r : Run} (h : u.job t.job = some j) (hs : u.stepAt j t.stepLo = .now r) :
    u.readWindow p t = if j.ofJob t.src
        && (j.incoming r.template (fun _ => true)).any (fun x => x.reach j t (t.len / 4)) then
      u.complete p t 0 (poisonMask (j.posted t.slot t.space) (t.offset / 64) (t.len / 4))
        ((j.posted t.slot t.space).read t.offset (16 * t.len))
    else u.denied p t := by
  simp only [State.readWindow, h, hs]

/-! ### CPL (R303, R304) -/

theorem recvCpl_outstanding {x : TagUse} (h : (u.port p).tagUse t.tag = some x) :
    u.recvCpl p t = (u.freeTag p t.tag).completeUse x t.status t.data := by
  simp only [State.recvCpl, h]

theorem recvCpl_unexpected (h : (u.port p).tagUse t.tag = none) : u.recvCpl p t = u.countQ p 3 := by
  simp only [State.recvCpl, h]

/-! ### DB and MSG (R245, R246, R317) -/

theorem recvDb_noRing (h : u.ring (t.addr % 2 ^ 20) = none) : u.recvDb p t = u.denied p t := by
  simp only [State.recvDb, h]

theorem recvDb_otherRing {r : Ring} (h : u.ring (t.addr % 2 ^ 20) = some r)
    (hr : r.kind ≠ 2 ∨ r.host = true ∨ r.peerDev.toNat ≠ t.src ∨ r.job ≠ t.job) : u.recvDb p t = u.denied p t := by
  simp only [State.recvDb, h]
  exact if_pos hr

/-- A doorbell on the stream whose other end rings it: beyond the ring's size it answers RETRY, with an event. -/
theorem recvDb_stream {r : Ring} {v : W32} (h : u.ring (t.addr % 2 ^ 20) = some r)
    (hr : ¬ (r.kind ≠ 2 ∨ r.host = true ∨ r.peerDev.toNat ≠ t.src ∨ r.job ≠ t.job))
    (hv : v = BitVec.ofNat 32 (natAt t.data 0 4)) : u.recvDb p t =
      if r.size < (v - r.head).toNat then (u.raise { code := 0x11, job := r.job }).answer p t 5
      else ((u.setRing (t.addr % 2 ^ 20) { r with tail := v, stopped := false }).ringIrq (t.addr % 2 ^ 20)
        { r with tail := v, stopped := false }).answer p t 0 := by
  subst hv
  simp only [State.recvDb, h]
  exact if_neg hr

theorem recvMsg_noRing (h : u.ring (t.addr % 2 ^ 20) = none) : u.recvMsg p t = u.denied p t := by
  simp only [State.recvMsg, h]

theorem recvMsg_otherRing {r : Ring} (h : u.ring (t.addr % 2 ^ 20) = some r)
    (hr : r.kind ≠ 2 ∨ r.peerDev.toNat ≠ t.src ∨ r.job ≠ t.job ∨ r.job ≠ natAt t.data 4 2) :
    u.recvMsg p t = u.denied p t := by
  simp only [State.recvMsg, h]
  exact if_pos hr

/-- An entry of the ring's own job: produced in its order while the ring has room, else answered RETRY. -/
theorem recvMsg_stream {r : Ring} (h : u.ring (t.addr % 2 ^ 20) = some r)
    (hr : ¬ (r.kind ≠ 2 ∨ r.peerDev.toNat ≠ t.src ∨ r.job ≠ t.job ∨ r.job ≠ natAt t.data 4 2)) : u.recvMsg p t =
      if natAt t.data 0 4 ≠ (r.tail + BitVec.ofNat 32 r.ahead.length).toNat ∨ u.cplOpen r = false then u.answer p t 5
      else ((u.produceIrq (t.addr % 2 ^ 20) r ((wordsOf t.data).map (BitVec.ofNat 64))).poisonEntry r t).answer p t 0 := by
  simp only [State.recvMsg, h]
  exact if_neg hr
end

/-- Settles O37: each command by the transaction that it takes, and by the window that holds it. -/
theorem receivedRequestsAct : Obligations.ReceivedRequestsAct := by
  refine ⟨?taken, exec_received_none, ?rd, ?wr, ?data, ?cpl, ?db, ?msg, fun _ _ _ => rfl, poisonMask_bits⟩
  case taken =>
    intro s u p n t h
    obtain ⟨ht, ha, -⟩ := takeTxn_some h
    exact ⟨ht, ha, takeTxn_rxq h⟩
  case rd =>
    intro s u p t h
    rw [exec_rd_taken h]
    refine ⟨fun h4 => congrArg _ (recvRd_registers h4), fun h3 hm hw => ?_, fun h3 hd => ?_, fun h2 => ?_⟩
    · refine ⟨_, ?_, congrArg _ ((recvRd_host h3).trans (if_pos (by rw [hm, hw]; rfl)))⟩
      rw [List.length_map, List.length_range]
    · rw [recvRd_host h3, if_neg]
      rcases hd with hd | hd <;> simp [hd]
    · rw [recvRd_memory h2]
      refine ⟨fun j r hj hs hd hx => ?_, fun j r hj hs hd => ?_, fun j hj hs => congrArg _ (readWindow_otherStep hj hs),
        fun hj => congrArg _ (readWindow_noJob hj)⟩
      · rw [readWindow_now hj hs, if_pos (by rw [hd, List.any_eq_true.mpr hx]; rfl)]
      · rw [readWindow_now hj hs, if_neg]
        rcases hd with hd | hd
        · simp [hd]
        · simpa using fun _ => hd
  case wr =>
    intro s u p t chk env h
    rw [exec_wr_taken chk env h]
    exact ⟨fun h4 => congrArg _ (recvWr_registers chk env h4), fun h3 => congrArg _ (recvWr_host chk env h3),
      fun h2 => congrArg _ (recvWr_memory chk env h2)⟩
  case data =>
    exact fun s u p t chk => ⟨exec_at256_taken chk, exec_afp32_taken chk, exec_csgn_taken, exec_void_taken, exec_intr_taken⟩
  case cpl =>
    intro s u p t h
    rw [exec_cpl_taken h]
    exact ⟨fun x hx => congrArg _ (recvCpl_outstanding hx), fun hn => congrArg _ (recvCpl_unexpected hn)⟩
  case db =>
    intro s u p t h
    rw [exec_db_taken h]
    refine ⟨fun r v hr hk hh hp hj hv => ?_, fun r hr ho => congrArg _ (recvDb_otherRing hr ho),
      fun hn => congrArg _ (recvDb_noRing hn)⟩
    rw [recvDb_stream hr (by simp [hk, hh, hp, hj]) hv]
    exact ⟨fun hb => by rw [if_pos hb], fun hb => by rw [if_neg (Nat.not_lt.mpr hb)]⟩
  case msg =>
    intro s u p t h
    rw [exec_msg_taken h]
    refine ⟨fun r hr hk hp hj hd => ?_, fun r hr ho => congrArg _ (recvMsg_otherRing hr ho),
      fun hn => congrArg _ (recvMsg_noRing hn)⟩
    rw [recvMsg_stream hr (by simp [hk, hp, hj, ← hd])]
    exact ⟨fun hs ho => by rw [if_neg (by simp [hs, ho])], fun hb => by rw [if_pos hb]⟩

end Sys2Proof.Proofs

/-! ## The check of a run, its posting, and its next run (R237, R275, R322, R340, R341, R344; log 44, 45) -/

namespace Sys2Proof.Proofs
open Sys2Proof.Machine

/-- A run that is found belongs to the job that it is looked up by. -/
theorem run_job {s : State} {n : Nat} {r : Run} (h : s.run n = some r) : r.job = n := by
  simpa using List.find?_some h

/-! ### Table 11-3 for a first run -/

/-- What the check notes of a first run that passes. -/
def passedRun (s : State) (r : Run) : Run :=
  { r with
    history := [⟨r.slots.map (·.digest), r.hosts, [], true, true, decide (s.errSeq = r.errStart)⟩]
    suspects := [], agreed := [] }

/-- The first run has no earlier one to differ from (R343). -/
theorem mismatches_first (h : List PastRun) : mismatches h 0 = [] := by
  unfold mismatches
  split <;> rfl

/-- A first run without an event, a suspect or a trap, whose slots have all ended, goes to order 7 and signs its
contributions. -/
theorem checkRun_passes {s : State} {j : Job} {r : Run} (hh : r.history = []) (he : r.events = [])
    (hs : r.suspects = []) (ha : r.agreed = []) (ht : r.traps = []) (hu : r.uncounted = false) (hb : r.broken = false)
    (hw : r.slots.all (·.ended) = true) : s.checkRun j r =
      (((s.keepSlots (passedRun s r)).setRun { passedRun s r with order := 7 }).signRun j.num).signOwn j (passedRun s r) := by
  cases r
  simp only at hh he hs ha ht hu hb hw
  subst hh he hs ha ht hu hb
  unfold State.checkRun
  simp only [hw, mismatches_first, List.length_nil, List.nil_append, List.map_nil, List.zip_nil_left, List.filterMap_nil,
    List.foldl_nil, State.newSuspects, State.nameHosts, byUnit, List.any_nil, Bool.false_eq_true, if_false, ite_self,
    Bool.not_false, Bool.and_self]
  rw [if_pos (by simp [Run.posts, pastAt, nthD, PastRun.passes, flags])]
  rfl

/-! ### The commands in a module that runs -/

section
variable {s : State} {n : BitVec 16} {j : Job} {r : Run} (hj : s.job n.toNat = some j) (hr : s.run n.toNat = some r)
  (hh : s.held = false) (hm : s.ready = true)
include hj hr hh hm

theorem exec_stepCheck_completes (ho : r.order = 5) (hw : r.waiting = false) :
    exec (.stepCheck n) s = .next (s.checkRun j r).classEdge.assaySettle := by
  show execStepCheck n s = _
  simp [execStepCheck, hj, hr, hh, hm, ho, hw]

theorem exec_stepPost_posts (ho : r.order = 7) (hw : r.waiting = false) (hb : r.broken = false)
    (hv : s.allVerified r = true) : exec (.stepPost n) s = .next (s.postRun j r) := by
  show execStepPost n s = _
  simp [execStepPost, hj, hr, hh, hm, ho, hw, hb, hv]

theorem exec_recountRun_begins (hw : r.waiting = true) (hp : r.poisoned = []) (hd : s.replacementDue r = false)
    (ho : s.othersRun r.job = false) {m moved : List Nat} {q : Run} {u : State} (hms : m = s.nextHosts r)
    (hmv : moved = (List.range 512).filter (fun l => nthD noHost m l != nthD noHost s.lmap l && decide (l < j.slots)))
    (hq : q = r.again j m s.errSeq) (hq2 : ∀ p ∈ q.hosts, p < 576)
    (hu : u = ((s.setJob (j.placed m moved)).readyAll m moved).readReceived q) :
    exec (.recountRun n) s = .next (u.nextRun (resched j (u.takeReceived j q))) := by
  have hany : (q.hosts.any fun p => decide (576 ≤ p)) = false := by simpa using hq2
  change execRecountRun n s = _
  rw [execRecountRun, hj, hr]
  dsimp only
  rw [if_neg (by simp [hh, hm, hw, hp, hd, ho]), ← hms, ← hmv, ← hq, if_neg (by rw [hany]; exact Bool.false_ne_true), hu]
end

/-! ### What a check leaves at the end of its command -/

/-- The mark of a broken lock apart, two runs agree in every field. -/
theorem fields_of_phase {x y : Run} (h : x.phase = y.phase) :
    x.order = y.order ∧ x.waiting = y.waiting ∧ x.counted = y.counted ∧ x.step = y.step ∧ x.history = y.history
    ∧ x.slots = y.slots ∧ x.vault = y.vault ∧ x.hbm = y.hbm :=
  ⟨(congrArg Run.order h :), (congrArg Run.waiting h :), (congrArg Run.counted h :), (congrArg Run.step h :),
    (congrArg Run.history h :), (congrArg Run.slots h :), (congrArg Run.vault h :), (congrArg Run.hbm h :)⟩

/-- A check that leaves the jobs alone leaves them so to the end of the command where no assay waits for a core. -/
theorem check_jobs {s u : State} (hk : u.keep = s.keep) (ha : u.asy = s.asy) :
    u.classEdge.jobs = s.jobs ∧ (s.asy.jobs = [] → u.classEdge.assaySettle.jobs = s.jobs) := by
  have hj : u.classEdge.jobs = s.jobs := (State.classEdge_jobs u).trans (State.jobs_of_keep hk)
  refine ⟨hj, fun h => ?_⟩
  rw [State.assaySettle_none (by rw [State.classEdge_asy, ha, h]), hj]

/-- A run that passes its check, as the command leaves it. -/
theorem passed_run {s : State} {n : Nat} {j : Job} {r : Run} (hr : s.run n = some r) {u : State}
    (hu : u = (((s.keepSlots (passedRun s r)).setRun { passedRun s r with order := 7 }).signRun j.num).signOwn j
      (passedRun s r)) :
    ∃ q, u.classEdge.assaySettle.run n = some q ∧ q.phase = { passedRun s r with order := 7 }.phase := by
  refine State.check_run s u hr (r := { passedRun s r with order := 7 }) (show r.job = n from run_job hr) ?_
  rw [hu, State.signOwn_phases, State.signRun_phases]
  rfl

/-- A run that waits for its next, as the command leaves it. -/
theorem awaited_run {s : State} {n : Nat} {r q : Run} (hr : s.run n = some r) (hq : q.job = r.job) (c : Nat) :
    ∃ x, (s.awaitRun q c).classEdge.assaySettle.run n = some x
      ∧ x.phase = { q with waiting := true, counted := c, order := 5 }.phase :=
  State.check_run s _ hr (hq.trans (run_job hr)) (by
    rw [State.awaitRun, State.lockBreakJob_phases, State.voidRun_phases])

/-! ### The next run -/

/-- What a step's next run is: at order 2, numbered by the runs that count, on the hosts of R341, with nothing raised. -/
theorem again_head (r : Run) (j : Job) (m : List Nat) (e : Nat) : (r.again j m e).head = (r.job, r.template, r.step, 2,
    r.counted, (List.range j.slots).map (fun d => nthD noHost m (d % 512)), r.history, false, []) := rfl

/-- The next run stands in its predecessor's place. -/
theorem nextRun_run {u : State} {n : Nat} {r x : Run} (hr : u.run n = some r) (hx : x.job = n) :
    (u.nextRun x).run n = some x := State.setRun_run u hr hx

theorem recount_run (s : State) (k : Job) (m moved : List Nat) (q : Run) (n : Nat) :
    (((s.setJob k).readyAll m moved).readReceived q).run n = s.run n := by
  show (((s.setJob k).readyAll m moved).runs).find? _ = _
  rw [State.readyAll_runs]
  rfl

/-- Settles O23: the check of a first run by what it raised, the posting of a verified run, and a step's next run. -/
theorem stepChecksPostsAndRecounts : Obligations.StepChecksPostsAndRecounts := by
  refine ⟨?check, ?post, ?recount⟩
  case check =>
    intro s n j r hj hr hh hm ho hw
    have hex := exec_stepCheck_completes hj hr hh hm ho hw
    refine ⟨hex, fun hhist hev hsus hagr htr hunc hbr hend => ?_, fun hhist hsus hfail hcnt => ?_⟩
    · have hc := checkRun_passes (s := s) (j := j) hhist hev hsus hagr htr hunc hbr hend
      obtain ⟨q, hq, hp⟩ := passed_run hr hc
      obtain ⟨h1, h2⟩ := check_jobs (s := s) (u := s.checkRun j r) (by rw [hc]; simp)
        (by rw [hc, State.signOwn_asy, State.signRun_asy]; rfl)
      obtain ⟨hord, hwait, -, -, hhist', hslots, hvault, hhbm⟩ := fields_of_phase hp
      exact ⟨_, q, hex, hq, hord, hwait.trans hw, hhist', hslots, hvault, hhbm, h1, h2⟩
    · obtain ⟨q, hc, hq, hlen⟩ := State.checkRun_fails s j r hhist hsus hfail hcnt
      obtain ⟨x, hx, hp⟩ := awaited_run hr (congrArg Run.job hq :) (r.counted + if r.uncounted then 0 else 1)
      obtain ⟨h1, h2⟩ := check_jobs (s := s) (u := s.checkRun j r) (by rw [hc]; simp)
        (by rw [hc, State.awaitRun, State.lockBreakJob_asy, State.voidRun_asy]; rfl)
      obtain ⟨hord, hwait, hcount, hstep, hhist', -⟩ := fields_of_phase hp
      rw [← hc] at hx
      exact ⟨_, x, hex, hx, hord, hwait, hcount, hstep.trans (congrArg Run.step hq :), (congrArg _ hhist').trans hlen, h1, h2⟩
  case post =>
    intro s n j r p hj hr hh hm ho hw hb hv hp
    subst hp
    obtain ⟨hbook, hrun⟩ := State.postRun_book s hj r
    obtain ⟨k, hk, hkb⟩ := State.book_of_some hbook
    simp only [Job.book, Job.post, Prod.mk.injEq] at hkb
    obtain ⟨-, hstep, hgen, htills, hvault⟩ := hkb
    exact ⟨State.verifiedPart_all s r, _, k, exec_stepPost_posts hj hr hh hm ho hw hb hv, rfl, hrun, hk, hstep, hgen, htills,
      hvault, rfl⟩
  case recount =>
    intro s n j r q m moved u hj hr hh hm hw hp hd ho hms hmv hq hhosts hu
    have hhead : (resched j (u.takeReceived j q)).head = q.head := by rw [resched_head, State.takeReceived_head]
    have hurun : u.run n.toNat = some r := by rw [hu, recount_run, hr]
    have hqj : q.job = n.toNat := by rw [hq]; exact (run_job hr :)
    refine ⟨_, resched j (u.takeReceived j q), exec_recountRun_begins hj hr hh hm hw hp hd ho hms hmv hq hhosts hu, rfl,
      nextRun_run hurun ((congrArg (·.1) hhead).trans hqj), ?_⟩
    have hfields := hhead.trans (by rw [hq, again_head])
    simp only [Run.head, Prod.mk.injEq] at hfields
    obtain ⟨-, htmpl, hstep, horder, hrun, hhs, hhist, hwait, hev⟩ := hfields
    exact ⟨horder, hrun, hhist, hstep, htmpl, hhs, hwait, hev, by rw [hq]; rfl, by rw [hq]; rfl⟩

end Sys2Proof.Proofs

/-! ## Scrub, rewrites, retirement, refill and retraining (R270, R271, R290 to R294; log 22, 24) -/

namespace Sys2Proof.Proofs
open Sys2Proof.Machine

/-! ### What a retirement takes of the capacity and the sparing reserve (R293) -/

/-- The capacity of the HBM and the sparing reserve. -/
def capacity (s : State) : Nat × Nat := (s.hbmBytes, s.spareGb)

/-- Both are part of what is placed. -/
theorem capacity_of_placed {s t : State} (h : t.placed = s.placed) : capacity t = capacity s := by
  simp only [State.placed, Prod.mk.injEq] at h
  simp only [capacity, h]

/-- The channel's frames move into the reserve that is left, and take nothing of it. -/
theorem moveFrames_capacity (s : State) (c : Nat) (loose : List Nat) : capacity (s.moveFrames c loose) = capacity s := rfl

/-- A retirement takes 10^9 bytes and one part of the reserve, whatever the reads of the channel find. -/
theorem retire_capacity (s : State) (c : Nat) (es : List (MemLoc × EccOut)) :
    capacity (s.retire c es) = (s.hbmBytes - 10 ^ 9, s.spareGb - 1) := by
  have hread : capacity (s.readOut c es) = capacity s := capacity_of_placed (State.readOut_placed s c es)
  unfold State.retire
  dsimp only
  rw [capacity_of_placed (State.classEdge_placed _), capacity_of_placed (State.raise_placed _ _),
    capacity_of_placed (State.pageReset_placed _ _), moveFrames_capacity, capacity_of_placed (State.markFenced_placed _ _ _)]
  obtain ⟨hbytes, hspare⟩ := Prod.mk.inj hread
  rw [← hbytes, ← hspare]
  rfl

/-! ### What each command does in a ready module -/

section
variable {s : State} (hm : s.ready = true)
include hm

section
variable {l : MemLoc} (ecc : EccOut) (hh : s.held = false)
include hh

theorem exec_scrub_resident {j : Job} (hj : s.job l.job.toNat = some j) : exec (.scrub l ecc) s =
    .next ((s.patrol (s.blockUnit l.space l.slot l.block)).scrubbed j l (s.blockUnit l.space l.slot l.block) ecc) := by
  change execScrub l ecc s = _
  rw [execScrub, if_neg (by simp [hm, hh]), hj]

theorem exec_scrub_loose (hz : l.job = 0) (hj : s.job 0 = none) (hl : looseBlock l = true)
    (hf : s.isFenced (looseUnit l).1 (looseUnit l).2 = false) :
    exec (.scrub l ecc) s = .next ((s.patrol (looseUnit l)).scrubLoose l ecc) := by
  have hnone : s.job l.job.toNat = none := by rw [hz]; exact hj
  change execScrub l ecc s = _
  rw [execScrub, if_neg (by simp [hm, hh]), hnone]
  exact if_neg (by simp [hz, hl, hf])

theorem exec_retirement_retires {c : Nat} {rest : List Nat} (hd : s.retireDue = true) (hq : s.quiet = true)
    (hc : s.candidates = c :: rest) : exec .retirement s = .next (s.retire c (Config.retireReads c s.freeCtr)) := by
  change execRetirement s = _
  rw [execRetirement, if_neg (by simp [hm, hh, hd, hq]), hc]
end

/-- The rewrite of a block that waits for one: the wait ends, and a block that is bad again is treated as its owner's. -/
theorem exec_eccRewrite_waiting {l : MemLoc} {c : Nat} (hsp : l.space = 2) (bad : Bool)
    (hc : c = if l.job.toNat = 0 then l.slot else s.channelOf (64 * l.block))
    (hx : ∃ x ∈ (s.chan c).rewrite, x.1 = l.job.toNat ∧ x.2.1 = l.block) {t : State}
    (ht : t = s.setChan c ((s.chan c).rewritten l.job.toNat l.block)) :
    exec (.eccRewrite l bad) s = .next (if bad then
      (match s.job l.job.toNat with
        | some j => t.uncorrectable j (5, c) 2 l.slot l.block 0 0
        | none => t.uncorrLoose { l with slot := c } 0 0).candidate c t.errSeq
      else t) := by
  have hwait : (s.chan c).rewrite.any (fun x => x.1 == l.job.toNat && x.2.1 == l.block) = true := by simpa using hx
  subst ht
  change execEccRewrite l bad s = _
  rw [execEccRewrite]
  dsimp only
  rw [← hc, if_neg (by simp [hm, hsp, hwait])]
  cases bad <;> rfl

theorem exec_sparingRefill_fits (hs : s.spareGb < 2) (hf : hbmFits s.hbmBytes s.jobs = true) :
    exec .sparingRefill s = .next { s with spareGb := s.spareGb + 1 } :=
  if_pos (by simp [hm, hs, hf])

theorem exec_runTimeRetraining_inService {c : Nat} (hf : s.isFenced 5 c = false) (ok : Bool) :
    exec (.runTimeRetraining c ok) s = .next (if ok then s.setChan c { s.chan c with trained := ok }
      else (s.setChan c { s.chan c with trained := ok }).candidate c 0) :=
  if_neg (by simp [hm, hf])
end

/-- Settles O25: each command under the conditions of its rule, and the capacity that a retirement takes. -/
theorem memoryUpkeepActs : Obligations.MemoryUpkeepActs := by
  refine ⟨?scrub, ?rewrite, ?retirement, fun s hm => exec_sparingRefill_fits hm, ?retraining⟩
  case scrub =>
    intro s l ecc u hh hm
    refine ⟨?_, ?_⟩
    · rintro j hj rfl
      exact exec_scrub_resident hm ecc hh hj
    · rintro hz hj hl rfl hf
      exact exec_scrub_loose hm ecc hh hz hj hl hf
  case rewrite =>
    intro s t l bad c hm hsp hc hx ht
    rw [exec_eccRewrite_waiting hm hsp bad hc hx ht]
    refine ⟨?_, ?_, ?_⟩
    · rintro rfl
      rfl
    · rintro j rfl hj
      rw [hj]
      rfl
    · rintro rfl hj
      rw [hj]
      rfl
  case retirement =>
    rintro s u w c rest hh hm hd hq hc rfl rfl
    obtain ⟨hbytes, hspare⟩ := Prod.mk.inj (retire_capacity s c (Config.retireReads c s.freeCtr))
    exact ⟨_, exec_retirement_retires hm hh hd hq hc, rfl, hbytes, hspare⟩
  case retraining =>
    exact fun s c hm hf => ⟨exec_runTimeRetraining_inService hm hf true, exec_runTimeRetraining_inService hm hf false⟩

end Sys2Proof.Proofs

/-! ## Temperature: caps, alerts, refresh and the trip (R269, R441 to R443; log 5) -/

namespace Sys2Proof.Proofs
open Sys2Proof.Machine

/-- An alert's cap: a region's drops to 0.8 G beats/s, another point has none (R441). -/
def alertCapped (u : State) (point unit : Nat) : State :=
  if point = 0 then u.setRegion unit { u.region unit with thermalCap := 800 } else u

/-- The state in which the regulator has tripped: the rails are off, the point latched (R443). -/
def tripped (u : State) (point unit : Nat) (x : BitVec 16) : State :=
  (u.railsOff 0 false).setMod { (u.railsOff 0 false).mod with
    thermTrip := true, tripLatch := some ⟨point, unit, x, u.startNo⟩ }

/-! ### What a sensed temperature and the end of a command leave -/

/-- A sensor's report touches no start-up count. -/
theorem senseAt_startNo (s : State) (point unit : Nat) (x : BitVec 16) : (s.senseAt point unit x).startNo = s.startNo := by
  unfold State.senseAt
  split <;> rfl

/-- An event and the edges that follow it leave the module's own conditions as they were. -/
theorem raise_settle_plain (s : State) (e : Evt) : (s.raise e).settle.mod.plain = s.mod.plain := by
  rw [State.settle_plain, mod_of_rest (State.raise_rest s e)]

/-! ### What each command does, by the temperature that it brings -/

section
variable {s : State} (point unit : Nat) (x : BitVec 16) (hup : s.mod.railsUp = true)
include hup

theorem exec_thermalCap_up (temps : List (BitVec 16)) :
    exec (.thermalCap temps) s = .next (s.heat 0 (temps.take 32)).settle := ite_railsUp hup _ _

theorem exec_thermalAlert_up : exec (.thermalAlert point unit x) s =
    if x.toInt < alertAt point ∨ (s.senseAt point unit x).alerted point unit = true then .next (s.senseAt point unit x)
    else .next ((((alertCapped (s.senseAt point unit x) point unit).setAlert point unit true).alertEvent point unit x).settle) :=
  ite_railsUp hup _ _

theorem exec_coolant_up (i o : BitVec 16) : exec (.coolant i o) s =
    if i.toInt ≤ 360 ∨ s.mod.coolAlert = true then .next { s with mod := { s.mod with coolIn := i, coolOut := o } }
    else .next ((({ s with mod := { s.mod with coolIn := i, coolOut := o, coolAlert := true } } : State).raise
      { code := 0x38, info := true, w6 := i.toNat * 2 ^ 16 + o.toNat }).settle) :=
  ite_railsUp hup _ _

theorem exec_thermtrip_up : exec (.thermtrip point unit x) s =
    if x.toInt < tripAt point then .next (s.senseAt point unit x)
    else .next (tripped (s.senseAt point unit x) point unit x).settle :=
  ite_railsUp hup _ _
end

section
variable (s : State) (point unit stack : Nat) (x : BitVec 16)

theorem exec_thermalAlertClear : exec (.thermalAlertClear point unit x) s =
    if x.toInt ≤ (if point = 3 then 360 else alertAt point) - 16 then
      .next (((s.senseAt point unit x).setAlert point unit false).settle)
    else .next (s.senseAt point unit x) := rfl

theorem exec_refreshDoubled {u : State} (hu : u = { s with mod := { s.mod with hbmTemp := put stack x s.mod.hbmTemp } }) :
    exec (.refreshDoubled stack x) s =
      if 680 ≤ x.toInt then .next { u with mod := { u.mod with doubled := insertNat stack s.mod.doubled } }
      else .next u := by
  subst hu
  rfl

theorem exec_refreshNormal {u : State} (hu : u = { s with mod := { s.mod with hbmTemp := put stack x s.mod.hbmTemp } }) :
    exec (.refreshNormal stack x) s =
      if x.toInt < 656 then .next { u with mod := { u.mod with doubled := eraseNat stack s.mod.doubled } }
      else .next u := by
  subst hu
  rfl
end

/-! ### A region's cap after an interval (R442) -/

section
variable (s : State) {temps : List (BitVec 16)} {r : Nat}

/-- A region that the interval names has its temperature and the next cap. -/
theorem heated_region_named {x : BitVec 16} (hr : r < 32) (hx : temps[r]? = some x) :
    ((s.heat 0 (temps.take 32)).settle).region r =
      { s.region r with temp := x, thermalCap := nextThermalCap (s.region r).thermalCap x.toInt } := by
  rw [State.settle_region, State.heat_region, if_pos (Nat.zero_le r), Nat.sub_zero, List.getElem?_take, if_pos hr, hx]

/-- A region that it does not name, and one beyond the 32 of the module, is as before. -/
theorem heated_region_other (h : 32 ≤ r ∨ temps[r]? = none) :
    ((s.heat 0 (temps.take 32)).settle).region r = s.region r := by
  have hnone : (if r < 32 then temps[r]? else none) = none := by
    rcases h with h | h
    · exact if_neg (by omega)
    · rw [h, ite_self]
  rw [State.settle_region, State.heat_region, if_pos (Nat.zero_le r), Nat.sub_zero, List.getElem?_take, hnone]
end

/-! ### A region's alert (R441) -/

/-- A region that is alerted has the temperature that was sensed and the lowest cap. -/
theorem alerted_region (s : State) (unit : Nat) (x : BitVec 16) {t : State}
    (ht : t = (((alertCapped (s.senseAt 0 unit x) 0 unit).setAlert 0 unit true).alertEvent 0 unit x).settle) :
    (t.region unit).thermalCap = 800 ∧ (t.region unit).temp = x := by
  subst ht
  rw [State.alert_region]
  simp [State.setAlert, alertCapped, State.senseAt, State.region, State.setRegion]

/-! ### The trip (R443) -/

/-- A trip leaves the rails off, the point latched, and nothing of jobs and runs. -/
theorem tripped_settle (u : State) (point unit : Nat) (x : BitVec 16) {t : State}
    (ht : t = (tripped u point unit x).settle) : t.mod.railsUp = false ∧ t.mod.thermTrip = true
      ∧ t.mod.tripLatch = some ⟨point, unit, x, u.startNo⟩ ∧ t.jobs = [] ∧ t.runs = [] := by
  subst ht
  have hmod := State.settle_plain (tripped u point unit x)
  have hjobs : (tripped u point unit x).settle.jobs = [] := State.jobs_of_keep (State.settle_keep (tripped u point unit x))
  have hruns : (tripped u point unit x).settle.phases = [] := State.settle_phases (tripped u point unit x)
  exact ⟨(congrArg Module.railsUp hmod :), (congrArg Module.thermTrip hmod :), (congrArg Module.tripLatch hmod :), hjobs,
    List.map_eq_nil_iff.mp hruns⟩

/-- Settles O30: each command by the temperature that it brings. -/
theorem temperatureCommandsAct : Obligations.TemperatureCommandsAct := by
  refine ⟨?cap, ?alert, ?clear, ?coolant, ?trip, ?refresh⟩
  case cap =>
    intro s temps hup
    exact ⟨_, exec_thermalCap_up hup temps, fun r x hr hx => heated_region_named s hr hx, fun r h => heated_region_other s h⟩
  case alert =>
    rintro s u point unit x hup rfl
    rw [exec_thermalAlert_up point unit x hup]
    refine ⟨fun hx ha => ?_, fun h => if_pos h⟩
    rw [if_neg (by simp [ha, hx])]
    refine ⟨_, rfl, State.alert_holds _ _ _ _, fun hp => ?_, ?_⟩
    · rw [alertCapped, if_neg hp]
    · rintro rfl
      obtain ⟨hcap, htemp⟩ := alerted_region s unit x rfl
      exact ⟨hcap, htemp, rfl⟩
  case clear =>
    intro s point unit x
    rw [exec_thermalAlertClear]
    exact ⟨fun h => if_pos h, fun h => if_neg (by omega)⟩
  case coolant =>
    intro s i o hup
    rw [exec_coolant_up hup]
    split
    · next h =>
      exact ⟨_, rfl, rfl, rfl, fun _ => rfl, fun hi ha => absurd h (by simp [ha, hi])⟩
    · next h =>
      have hmod := raise_settle_plain { s with mod := { s.mod with coolIn := i, coolOut := o, coolAlert := true } }
        { code := 0x38, info := true, w6 := i.toNat * 2 ^ 16 + o.toNat }
      exact ⟨_, rfl, (congrArg Module.coolIn hmod :), (congrArg Module.coolOut hmod :), fun h' => absurd h' h,
        fun _ _ => ⟨(congrArg Module.coolAlert hmod :), rfl⟩⟩
  case trip =>
    rintro s v point unit x hup rfl
    rw [exec_thermtrip_up point unit x hup]
    refine ⟨fun hx => ?_, fun h => if_pos h⟩
    obtain ⟨hrails, htrip, hlatch, hjobs, hruns⟩ := tripped_settle (s.senseAt point unit x) point unit x rfl
    rw [senseAt_startNo] at hlatch
    exact ⟨_, if_neg (by omega), rfl, rfl, hrails, htrip, hlatch, hjobs, hruns⟩
  case refresh =>
    intro s stack x u hu
    rw [exec_refreshDoubled s stack x hu, exec_refreshNormal s stack x hu]
    exact ⟨fun h => if_pos h, fun h => if_neg (by omega), fun h => if_pos h, fun h => if_neg (by omega)⟩

end Sys2Proof.Proofs

/-! ## Contributions as they are received (R303, R305, R318, R320 to R322; log 15, 16, 17) -/

namespace Sys2Proof.Proofs
open Sys2Proof.Machine

/-! ### Data: the job, its step, and the contribution that is named (R305, R322) -/

section
variable {u : State} {p : Nat} {t : Txn}

theorem contribution_noJob (m : Nat) (chk : Chk) (hj : u.job t.job = none) : u.contribution p t m chk = u.denied p t := by
  simp only [State.contribution, hj]

variable {j : Job} (hj : u.job t.job = some j)
include hj

theorem contribution_otherDevice (m : Nat) (chk : Chk) (hd : j.ofJob t.src = false) :
    u.contribution p t m chk = u.denied p t := by
  simp [State.contribution, hj, hd]

theorem contribution_ahead (m : Nat) (chk : Chk) (hd : j.ofJob t.src = true) (hs : u.stepAt j t.stepLo = .ahead) :
    u.contribution p t m chk = u.answer p t 2 := by
  simp [State.contribution, hj, hd, hs]

theorem contribution_behind (m : Nat) (chk : Chk) (hd : j.ofJob t.src = true) (hs : u.stepAt j t.stepLo = .behind) :
    u.contribution p t m chk = u.answer p t 3 := by
  simp [State.contribution, hj, hd, hs]

theorem aboutContrib_ahead (k : State → Job → Incoming → State) (hs : u.stepAt j t.stepLo = .ahead) :
    u.aboutContrib p t k = u.answer p t 2 := by
  simp only [State.aboutContrib, hj, hs]

theorem aboutContrib_behind (k : State → Job → Incoming → State) (hs : u.stepAt j t.stepLo = .behind) :
    u.aboutContrib p t k = u.answer p t 3 := by
  simp only [State.aboutContrib, hj, hs]

variable {r : Run} (hs : u.stepAt j t.stepLo = .now r)
include hs

theorem contribution_undeclared (m : Nat) (chk : Chk) (hd : j.ofJob t.src = true)
    (hn : j.named r.template t (t.len / 4) = none) : u.contribution p t m chk = u.denied p t := by
  simp [State.contribution, hj, hd, hs, hn]

/-- Data of a declared contribution is received in the mode that its plan gives, and in no other. -/
theorem contribution_declared (m : Nat) (chk : Chk) {x : Incoming} (hd : j.ofJob t.src = true)
    (hn : j.named r.template t (t.len / 4) = some x) :
    u.contribution p t m chk = if x.mode j = m then u.recvData p j r x t chk else u.denied p t := by
  simp [State.contribution, hj, hd, hs, hn]

theorem aboutContrib_undeclared (k : State → Job → Incoming → State) (hn : j.named r.template t 1 = none) :
    u.aboutContrib p t k = u.denied p t := by
  simp only [State.aboutContrib, hj, hs, hn]

theorem aboutContrib_declared (k : State → Job → Incoming → State) {x : Incoming} (hn : j.named r.template t 1 = some x) :
    u.aboutContrib p t k = k u j x := by
  simp only [State.aboutContrib, hj, hs, hn]
end

theorem aboutContrib_noJob {u : State} {t : Txn} (p : Nat) (k : State → Job → Incoming → State)
    (hj : u.job t.job = none) : u.aboutContrib p t k = u.denied p t := by
  simp only [State.aboutContrib, hj]

/-- A command that takes data of mode `m` into a job's memory (R303, Table 9-9). -/
theorem exec_data_taken {s u : State} {p m : Nat} {t : Txn} {chk : Chk} {env : StartEnv} {c : Instr}
    (h : (m = 0 ∧ c = .wr p chk env ∧ s.takeTxn p 2 = some (t, u))
      ∨ (m = 1 ∧ c = .at256 p chk ∧ s.takeTxn p 3 = some (t, u))
      ∨ (m = 2 ∧ c = .afp32 p chk ∧ s.takeTxn p 4 = some (t, u))) (hsp : t.space < 3) :
    exec c s = .next (u.contribution p t m chk) := by
  rcases h with ⟨rfl, rfl, h⟩ | ⟨rfl, rfl, h⟩ | ⟨rfl, rfl, h⟩
  · rw [exec_wr_taken chk env h, recvWr_memory chk env hsp]
  · rw [exec_at256_taken chk h, if_pos hsp]
  · rw [exec_afp32_taken chk h, if_pos hsp]

/-- A command that takes a message about a contribution: it is answered by the job's step and declaration alone where
these refuse it. -/
theorem exec_message_taken {s u : State} {p n : Nat} {t : Txn} {c : Instr}
    (h : (n = 8 ∧ c = .csgn p) ∨ (n = 9 ∧ c = .void p)) (ht : s.takeTxn p n = some (t, u)) :
    ∃ k, exec c s = .next (u.aboutContrib p t k) := by
  rcases h with ⟨rfl, rfl⟩ | ⟨rfl, rfl⟩
  · exact ⟨_, exec_csgn_taken ht⟩
  · exact ⟨_, exec_void_taken ht⟩

/-! ### Landing (R273, R322) -/

/-- Data that nothing spoils on its way passes the ingress. -/
theorem ingress_passes {u : State} {d : Nat} {r : Run} {t : Txn} (p : Nat) (j : Job) (ha : u.wayArmed p d r t = none) :
    u.ingress p d j r t .ok = (u, false) := by
  simp [State.ingress, ha]

/-- The first data of a contribution that passes the ingress lands whole and is answered OK. -/
theorem recvData_first {u : State} {p : Nat} {j : Job} {r : Run} {x : Incoming} {t : Txn}
    (ha : u.wayArmed p x.slot r t = none) (hn : u.recvOf x t = none) :
    u.recvData p j r x t .ok = (u.landIn p j x (x.fresh j t p) t).answer p t 0 := by
  have hland : u.recvData p j r x t .ok = ((u.landIn p j x (x.fresh j t p) t).answer p t 0).compareHeld j x t := by
    simp [State.recvData, hn, ingress_passes p j ha]
  rw [hland, (State.landIn_fresh u p j x t).1]

/-- An answer is the completion of the request, on the port that leads to its sender (R303). -/
theorem answer_sends (s : State) (p k : Nat) (t : Txn) : ∃ q, s.answer p t k = s.setPort q ((s.port q).send
    { s.txn 5 t.src t.job with
      tag := t.tag, status := k, len := 0, poison := 0, data := [], contrib := t.contrib, stepLo := t.stepLo
      attempt := t.attempt }) := ⟨_, rfl⟩

/-! ### Countersigns (R320) -/

/-- The countersign that a message carries. -/
def signatureOf (p : Nat) (t : Txn) : HeldCsgn := ⟨BitVec.ofNat 128 (natAt t.data 0 16), natAt t.data 16 8, p, t⟩

section
variable {u : State} {p : Nat} {j : Job} {x : Incoming} {t : Txn}

theorem recvCsgn_early (hn : u.recvOf x t = none) :
    u.recvCsgn p j x t = u.setRecv { x.fresh j t p with held := some (signatureOf p t) } := by
  simp only [State.recvCsgn, hn, signatureOf]

/-- What is held of a contribution that has not come carries nothing else. -/
theorem recvCsgn_early_holds (hn : u.recvOf x t = none) : ∃ w, (u.recvCsgn p j x t).recvOf x t = some w ∧ w.landed = []
    ∧ w.held = some (signatureOf p t) := by
  rw [recvCsgn_early hn]
  exact ⟨_, State.setRecv_recvOf u _ x t (by simp [Incoming.is, Incoming.fresh]), rfl, rfl⟩

theorem recvCsgn_compares {v : Recv} (hv : u.recvOf x t = some v) (ha : (t.attempt + 4 - v.attempt) % 4 = 0)
    (hvoid : v.voided = false) (hc : v.complete = true) : u.recvCsgn p j x t = u.compare j x v (signatureOf p t) := by
  simp [State.recvCsgn, hv, ha, hvoid, hc, signatureOf]

/-! ### Voids (R322) -/

/-- A void of what has not come withdraws it before it comes. -/
theorem recvVoid_early (hn : u.recvOf x t = none) (hf : t.status ≠ 1) : u.recvVoid p j x t =
    ((u.collEvent 0x14 p j x (x.fresh j t p) 0).discard (x.fresh j t p) x.token t.attempt).answer p t 0 := by
  have hfresh : ¬ (t.attempt + 4 - (x.fresh j t p).attempt) % 4 = 3 := by
    show ¬ (t.attempt + 4 - t.attempt) % 4 = 3
    omega
  simp only [State.recvVoid, hn, Option.getD_none, if_neg hfresh, if_neg hf]
  rfl

theorem recvVoid_older {v : Recv} (hv : u.recvOf x t = some v) (ha : (t.attempt + 4 - v.attempt) % 4 = 3) :
    u.recvVoid p j x t = u.answer p t 3 := by
  simp only [State.recvVoid, hv, Option.getD_some, if_pos ha]
end

/-- Settles O60: data by its step, its declaration and its mode; a countersign and a void by what has been received. -/
theorem contributionsLandAndAreVerified : Obligations.ContributionsLandAndAreVerified := by
  refine ⟨?data, answer_sends, ?message, ?csgn, ?void⟩
  case data =>
    intro s u p m t chk env c h hsp
    rw [exec_data_taken h hsp]
    refine ⟨fun hj => congrArg _ (contribution_noJob m chk hj), fun j hj =>
      ⟨fun hd => congrArg _ (contribution_otherDevice hj m chk hd), fun hd =>
        ⟨?ahead, ?behind, fun r hs => ⟨?undeclared, ?declared⟩⟩⟩⟩
    case ahead => exact fun hs => congrArg _ (contribution_ahead hj m chk hd hs)
    case behind => exact fun hs => congrArg _ (contribution_behind hj m chk hd hs)
    case undeclared => exact fun hn => congrArg _ (contribution_undeclared hj hs m chk hd hn)
    case declared =>
      intro x hn
      rw [contribution_declared hj hs m chk hd hn]
      refine ⟨fun hm => congrArg _ (if_neg hm), fun hm => ⟨congrArg _ (if_pos hm), ?_⟩⟩
      rintro rfl ha hr
      obtain ⟨-, w, hw⟩ := State.landIn_fresh u p j x t
      exact ⟨_, w, by rw [if_pos hm, recvData_first ha hr], rfl, hw⟩
  case message =>
    intro s u p n t c h ht
    obtain ⟨k, hk⟩ := exec_message_taken h ht
    rw [hk]
    exact ⟨fun hj => congrArg _ (aboutContrib_noJob p k hj), fun j hj =>
      ⟨fun hs => congrArg _ (aboutContrib_ahead hj k hs), fun hs => congrArg _ (aboutContrib_behind hj k hs),
        fun r hs hn => congrArg _ (aboutContrib_undeclared hj hs k hn)⟩⟩
  case csgn =>
    intro s u p t j r x ht hj hs hn
    rw [exec_csgn_taken ht, aboutContrib_declared hj hs _ hn]
    refine ⟨rfl, fun he => ?_, fun v hv ha hvoid hc => ?_⟩
    · obtain ⟨w, hw, hl, hh⟩ := recvCsgn_early_holds (p := p) (j := j) he
      exact ⟨_, w, rfl, hw, hl, hh⟩
    · rw [recvCsgn_compares hv ha hvoid hc]
      refine ⟨fun hdig hb => ?_, fun hbad => ⟨_, (signatureOf p t).digest.toNat % 2 ^ 64, ?_, rfl⟩⟩
      · exact congrArg _ (if_pos ⟨hdig, hb⟩)
      · exact congrArg _ (if_neg (fun hok => hbad.elim (· hok.1) (· hok.2)))
  case void =>
    intro s u p t j r x ht hj hs hn
    rw [exec_void_taken ht, aboutContrib_declared hj hs _ hn]
    exact ⟨rfl, fun he hf => congrArg _ (recvVoid_early he hf), fun v hv ha => congrArg _ (recvVoid_older hv ha)⟩

end Sys2Proof.Proofs

/-! ## The contribution record (R318, R321, R326; log 16) -/

namespace Sys2Proof.Proofs
open Sys2Proof.Machine

/-- The ordinal of the contribution that a record of a segment sends (R318). -/
def ordinalOf (i : Iss) (d : Nat) : Nat :=
  sendOrdinal (segment (i.job.streamOf d) i.run.template).2 (i.idx d - (segment (i.job.streamOf d) i.run.template).1)

/-- The state in which a contribution has been read and its record stands in flight. -/
def contributed (s : State) (i : Iss) (d : Nat) (k : Contrib) (f : Flight) : State :=
  (s.markRead i.run d ((s.ctx i.job i.run d).reads i.rec_ i.rec2)).advance i.job
    (i.after d { slot := i.run.slot d } (hallmarkH (3 * 2 ^ 40 + ordinalOf i d) k.csgn.toNat) f i.run.bank)

theorem markRead_su (s : State) (r : Run) (d : Nat) (l : List (Nat × Nat × Nat)) : (s.markRead r d l).su = s.su := by
  unfold State.markRead
  split <;> rfl

/-- Reading a contribution leaves the device's identity. -/
theorem contributed_deviceId (s : State) (i : Iss) (d : Nat) (k : Contrib) (f : Flight) :
    (contributed s i d k f).deviceId = s.deviceId := by
  simp only [State.deviceId, contributed, State.advance, State.setRun, markRead_su]

section
variable {s : State} {d : Nat} {i : Iss} {k : Contrib} (hi : s.issueAt d 0x70 = some i) (ha : s.armedHbm = false)
  (hk : k = (s.ctx i.job i.run d).contrib i.rec_ i.rec2) (hc : k.consumed = [])
include hi ha hk hc

/-- Towards a slot of this device the bytes wait in flight, and the contribution is noted with its countersign. -/
theorem doSend_own {t : Nat} (ht : i.job.slotOf k.shard k.lcore = some t) {f : Flight}
    (hf : f = { i.flight d with writes := inSpace k.space k.writes, dst := t, arrival := k.arrival }) :
    s.doSend d .ok = (((contributed s i d k f).setRecv (i.run.ownRecv i.job s.deviceId d t (ordinalOf i d)
      (bits (nthD 0 i.job.bin.coll k.plan).toNat 123 122) k.csgn)).markCheck i d).armReport i d := by
  rw [← contributed_deviceId s i d k f]
  subst hf hk
  simp only [State.doSend, hi, State.readChecks_ok _ _ _ ha, hc, ht, State.chkReport_ok, contributed, ordinalOf]

/-- Towards another device it begins to stream under the next send number. -/
theorem doSend_away (ht : i.job.slotOf k.shard k.lcore = none) {f : Flight}
    (hf : f = { i.flight d with send := some s.fab.nextSend }) :
    s.doSend d .ok =
      (((contributed s i d k f).startSend i.job i.run d (ordinalOf i d) k).markCheck i d).armReport i d := by
  subst hf hk
  simp only [State.doSend, hi, State.readChecks_ok _ _ _ ha, hc, ht, State.chkReport_ok, contributed, ordinalOf]
end

/-- Settles O21: the contribution by its target, a slot of this device or another device. -/
theorem contributionRecordActs : Obligations.ContributionRecordActs := by
  intro s d i k n f hi ha hk hc hn
  subst hn
  exact ⟨fun t ht hf => congrArg _ (doSend_own hi ha hk hc ht hf),
    fun ht hf => congrArg _ (doSend_away hi ha hk hc ht hf)⟩

end Sys2Proof.Proofs

/-! ## The link of a port and its timers (R295, R296, R298 to R300, R304, R309, R313, R314; log 16, 17) -/

namespace Sys2Proof.Proofs
open Sys2Proof.Machine

/-! ### Lanes (R298) -/

section
variable {s : State} {p lane : Nat} {l : BitVec 8} (hl : l = (s.port p).lanes &&& ~~~(BitVec.ofNat 8 (2 ^ lane)))
include hl

theorem exec_laneDrop_narrower (hk : (s.port p).takes = true) (hn : l ≠ (s.port p).lanes) : exec (.laneDrop p lane) s =
    if widthOf l = 0 then .next (((s.setPort p { s.port p with lanes := l }).lockBreak).portDown p)
    else .next (((s.setPort p { s.port p with lanes := l }).lockBreak).setPort p
      { ((s.setPort p { s.port p with lanes := l }).lockBreak).port p with
        width := min (s.port p).width (widthOf l) }.replay).classEdge := by
  subst hl
  exact if_neg (by simpa [hk] using hn)

theorem exec_laneDrop_unused (h : (s.port p).takes = false ∨ l = (s.port p).lanes) :
    exec (.laneDrop p lane) s = .next s := by
  subst hl
  exact if_pos (by simpa using h)
end

/-- A port that goes down keeps the lanes that it had. -/
theorem portDown_port (s : State) (p : Nat) : ((s.portDown p).port p).state = .down
    ∧ ((s.portDown p).port p).lanes = (s.port p).lanes ∧ ((s.portDown p).port p).width = 0 := by
  obtain ⟨hstate, hlanes, hwidth, -⟩ := Port.of_line (s.portDown_line p)
  exact ⟨hstate, hlanes, hwidth⟩

/-- The end of every timing lock leaves a port's lanes and its state. -/
theorem lockBreak_port (s : State) (p : Nat) (q : Port) : (((s.setPort p q).lockBreak).port p).state = q.state
    ∧ (((s.setPort p q).lockBreak).port p).lanes = q.lanes := by
  obtain ⟨hstate, hlanes, -⟩ := Port.of_line (((s.setPort p q).lockBreak_line p).trans (s.setPort_line_self p q))
  exact ⟨hstate, hlanes⟩

/-- What a port is, once the class of the end of a command has been noted. -/
theorem settled_port (s : State) (p : Nat) (q : Port) : ((s.setPort p q).classEdge).line p = q.line := by
  rw [State.classEdge_line, State.setPort_line_self]

theorem exec_training (s : State) (p : Nat) (a b : BitVec 8) : exec (.training p a b) s = .next (s.train p a b) := rfl

/-- A port that enters AUTH has the lanes of both ends, and no HELLO yet (R309). -/
theorem enterAuth_port (s : State) (p : Nat) (lanes : Byte) : (((s.enterAuth p lanes).classEdge).port p).state = .auth
    ∧ (((s.enterAuth p lanes).classEdge).port p).lanes = lanes
    ∧ (((s.enterAuth p lanes).classEdge).port p).width = widthOf lanes
    ∧ (((s.enterAuth p lanes).classEdge).port p).hello = none := by
  have hline : ((s.enterAuth p lanes).classEdge).line p = _ := (settled_port _ p _).trans (Port.sendMgmt_line _ _)
  obtain ⟨hstate, hlanes, hwidth, -, -, -, -, -, hhello, -⟩ := Port.of_line hline
  exact ⟨hstate, hlanes, hwidth, hhello⟩

/-! ### Flits (R296, R300) -/

/-- The state in which the symbols that a flit had corrected are counted. -/
def withSymbols (s : State) (p n : Nat) : State := s.setPort p { s.port p with fec := (s.port p).fec + BitVec.ofNat 64 n }

theorem withSymbols_port (s : State) (p n : Nat) :
    (withSymbols s p n).port p = { s.port p with fec := (s.port p).fec + BitVec.ofNat 64 n } := State.setPort_port ..

section
variable {s : State} {p : Nat} (n : Nat) {f : List Byte}

theorem exec_flitReceive_taken (hk : (s.port p).takes = true) (hp : p < 12) : exec (.flitReceive p f n) s =
    if crc32 (bytesAt f 0 252) = natAt f 252 4 then
      .next (((withSymbols s p n).goodFlit p (linkHead (natAt f 0 12)) f).idle p)
    else .next ((withSymbols s p n).askReplay p) := by
  show execFlitReceive p f n s = _
  simp [execFlitReceive, hk, Nat.not_le.mpr hp, withSymbols]

theorem exec_flitReceive_ignored (h : (s.port p).takes = false ∨ 12 ≤ p) : exec (.flitReceive p f n) s = .next s := by
  show execFlitReceive p f n s = _
  rw [execFlitReceive, if_pos (by rcases h with h | h <;> simp [h])]
end

/-- ACK and credits leave what a port receives. -/
theorem credit_line (q : Port) (h : LinkHead) : (q.credit h).line = q.line := Port.pump_line _

theorem credit_enc (q : Port) (h : LinkHead) : (q.credit h).enc = q.enc := by
  obtain ⟨-, -, -, henc, -⟩ := Port.of_line (credit_line q h)
  exact henc

/-- A management flit that is due, in clear, moves the expected SEQ on. -/
theorem goodFlit_management {u : State} {p : Nat} {h : LinkHead} (f : List Byte) (ht : h.ftype = 3) (hb : h.bad = false)
    (he : h.enc = false) (hq : (u.port p).enc = false) (hs : h.seq = (u.port p).rxSeq) :
    u.goodFlit p h f = u.setPort p ({ u.port p with rxSeq := h.seq + 1, discarding := false }.credit h) := by
  simp [State.goodFlit, State.dueFlit, State.inOrder, ht, ← hs, he, hb, credit_enc, hq]

/-- Idle flits leave what a port receives. -/
theorem idle_line (s : State) (p : Nat) : (s.idle p).line p = s.line p := s.setPort_line p _ p (Port.idle_line _)

/-- The port after a management flit that is due: beside the expected SEQ it receives as before. -/
theorem goodFlit_management_port {u : State} {p : Nat} {h : LinkHead} (f : List Byte) (ht : h.ftype = 3)
    (hb : h.bad = false) (he : h.enc = false) (hq : (u.port p).enc = false) (hs : h.seq = (u.port p).rxSeq) :
    (((u.goodFlit p h f).idle p).port p).rxSeq = h.seq + 1 ∧ (((u.goodFlit p h f).idle p).port p).discarding = false
    ∧ (((u.goodFlit p h f).idle p).port p).fec = (u.port p).fec
    ∧ (((u.goodFlit p h f).idle p).port p).rxq = (u.port p).rxq := by
  rw [goodFlit_management f ht hb he hq hs]
  obtain ⟨-, -, -, -, -, hfec, hseq, hdisc, -, -, -, -, -, -, hrxq, -⟩ := Port.of_line ((idle_line _ p).trans
    ((State.setPort_line_self u p _).trans (credit_line { u.port p with rxSeq := h.seq + 1, discarding := false } h)))
  exact ⟨hseq, hdisc, hfec, hrxq⟩

/-- A replay is asked for once. -/
theorem askReplay_again {u : State} {p : Nat} (h : (u.port p).discarding = true) : u.askReplay p = u := by
  simp [State.askReplay, h]

/-- A port whose replay requests no limit counts discards, and keeps what it has taken. -/
theorem askReplay_port {u : State} {p : Nat} (hk : (u.port p).takes = true) (hq : nthD 0 (u.port p).qlim 2 = 0) :
    ((u.askReplay p).port p).discarding = true ∧ ((u.askReplay p).port p).rxSeq = (u.port p).rxSeq
    ∧ ((u.askReplay p).port p).fec = (u.port p).fec := by
  cases hd : (u.port p).discarding with
  | true =>
    rw [askReplay_again hd]
    exact ⟨hd, rfl, rfl⟩
  | false =>
    obtain ⟨e, he⟩ := State.askReplay_line hq hd hk
    obtain ⟨-, -, -, -, -, hfec, hseq, hdisc, -⟩ := Port.of_line he
    exact ⟨hdisc, hseq, hfec⟩

/-! ### Replay and the timers (R300, R313, R314) -/

section
variable {s : State} {p : Nat}

theorem exec_replayRequest_some {a : BitVec 12} (h : (s.port p).replayAck = some a) : exec (.replayRequest p) s =
    .next (s.setPort p ({ s.port p with replayAck := none, unacked := dropAcked a (s.port p).unacked }.replay.pump)) := by
  show execReplayRequest p s = _
  simp only [execReplayRequest, h]

theorem exec_replayRequest_none (h : (s.port p).replayAck = none) : exec (.replayRequest p) s = .next s := by
  show execReplayRequest p s = _
  simp only [execReplayRequest, h]

theorem exec_ackTimer (s : State) (p : Nat) : exec (.ackTimer p) s =
    if (s.port p).takes && !(s.port p).unacked.isEmpty then .next ((s.setPort p (s.port p).replay).lockBreakPort p) else .next s := rfl

theorem exec_silenceTimer (s : State) (p : Nat) : exec (.silenceTimer p) s =
    .next (if (s.port p).state = .admitted then s.portDown p else s) := rfl

theorem exec_slowPartner (s : State) (p vc : Nat) : exec (.slowPartner p vc) s =
    if decide ((s.port p).state = .admitted) && (s.port p).waiting.any (fun f => f.vc == vc) then
      .next ((s.fabricEvent 0x18 p vc 0).lockBreak) else .next s := rfl

/-- A slow partner leaves the port as it is (R314). -/
theorem slowPartner_state (s : State) (p vc : Nat) :
    (((s.fabricEvent 0x18 p vc 0).lockBreak).port p).state = (s.port p).state :=
  (Port.of_line (((s.fabricEvent 0x18 p vc 0).lockBreak_line p).trans (s.fabricEvent_line 0x18 p vc 0 p))).1

/-! ### TAG_ABORT (R304, R307) -/

theorem exec_tagAbort_outstanding {g : Nat} {u : TagUse} (h : (s.port p).tagUse g = some u) : exec (.tagAbort p g) s =
    .next (((s.freeTag p g).fabricEvent 0x17 p 0 (s.tagContrib u)).completeUse u 6 []) := by
  show execTagAbort p g s = _
  simp only [execTagAbort, h]

theorem exec_tagAbort_waiting {g : Nat} (h : (s.port p).tagUse g = none) : exec (.tagAbort p g) s =
    .next (s.setPort p { s.port p with
      parked := (s.port p).parked.filter (fun x => x.tag != g || s.ownRequest x)
      fwdq := (s.port p).fwdq.map (fun e => (e.1, e.2.filter (fun x => x.tag != g || s.ownRequest x))) }) := by
  show execTagAbort p g s = _
  simp only [execTagAbort, h]
end

/-- Settles O35: each command by the condition of its rule on the port, and by what it leaves of the port's line. -/
theorem linkCommandsAct : Obligations.LinkCommandsAct := by
  refine ⟨?lane, ?training, ?flit, fun s p => ⟨fun a => exec_replayRequest_some, exec_replayRequest_none⟩, ?ack, ?silence,
    ?slow, fun s p g => ⟨fun u => exec_tagAbort_outstanding, fun h => ⟨_, exec_tagAbort_waiting h, rfl⟩⟩⟩
  case lane =>
    rintro s p lane q l rfl hl
    refine ⟨fun hk hn => ?_, exec_laneDrop_unused hl⟩
    rw [exec_laneDrop_narrower hl hk hn]
    obtain ⟨hstate, hlanes⟩ := lockBreak_port s p { s.port p with lanes := l }
    refine ⟨fun h0 => ⟨_, if_pos h0, rfl, ?_⟩, fun h0 => ⟨_, if_neg h0, rfl, ?_⟩⟩
    · obtain ⟨hdown, hkept, hwidth⟩ := portDown_port ((s.setPort p { s.port p with lanes := l }).lockBreak) p
      exact ⟨hdown, hkept.trans hlanes, hwidth⟩
    · obtain ⟨hs, hls, hw, -⟩ := Port.of_line (settled_port ((s.setPort p { s.port p with lanes := l }).lockBreak) p
        { ((s.setPort p { s.port p with lanes := l }).lockBreak).port p with
          width := min (s.port p).width (widthOf l) }.replay)
      exact ⟨hs.trans hstate, hls.trans hlanes, hw⟩
  case training =>
    intro s p a b
    rw [exec_training]
    refine ⟨fun ht => ⟨fun h0 => ?_, fun h0 => ⟨_, ?_, rfl, enterAuth_port s p (a &&& b)⟩⟩, fun ht => ?_⟩
    · simp [State.train, ht, h0]
    · simp [State.train, ht, h0]
    · simp [State.train, ht]
  case flit =>
    rintro s u p n f h rfl rfl
    refine ⟨fun hk hp => ?_, exec_flitReceive_ignored n⟩
    rw [exec_flitReceive_taken n hk hp]
    have hport := withSymbols_port s p n
    refine ⟨fun hc => ⟨if_pos hc, fun ht hb he hq hs => ⟨_, if_pos hc, ?_⟩⟩,
      fun hc => ⟨if_neg hc, fun hd => ?_, fun hq => ?_⟩⟩
    · obtain ⟨hseq, hdisc, hfec, hrxq⟩ := goodFlit_management_port f ht hb he (by rw [hport]; exact hq)
        (by rw [hport]; exact hs)
      exact ⟨hseq, hdisc, by rw [hfec, hport], by rw [hrxq, hport]⟩
    · rw [if_neg hc, askReplay_again (by rw [hport]; exact hd)]
      rfl
    · obtain ⟨hdisc, hseq, hfec⟩ := askReplay_port (u := withSymbols s p n) (p := p) (by rw [hport]; exact hk)
        (by rw [hport]; exact hq)
      exact ⟨_, if_neg hc, hdisc, by rw [hseq, hport], by rw [hfec, hport]⟩
  case ack =>
    intro s p
    rw [exec_ackTimer]
    refine ⟨fun hk hn => if_pos (by simp [hk, hn]), fun h => if_neg ?_, rfl⟩
    rcases h with h | h <;> simp [h]
  case silence =>
    intro s p
    rw [exec_silenceTimer]
    obtain ⟨hstate, hlanes, -⟩ := portDown_port s p
    exact ⟨fun h => ⟨_, by rw [if_pos h], rfl, hstate, hlanes⟩, fun h => by rw [if_neg h]⟩
  case slow =>
    intro s p vc
    rw [exec_slowPartner]
    refine ⟨fun h hw => ⟨_, if_pos (by simpa [h] using hw), rfl, (slowPartner_state s p vc).trans h⟩, fun h => if_neg ?_⟩
    rcases h with h | h
    · simp [h]
    · simp only [Bool.and_eq_true, List.any_eq_true, beq_iff_eq, not_and, not_exists]
      exact fun _ f hf => h f hf

end Sys2Proof.Proofs

/-! ## Admission, bindings and folio claims (R307, R309 to R311, R313 to R315, R326, R409; log 12, 16) -/

namespace Sys2Proof.Proofs
open Sys2Proof.Machine

/-! ### The meanings -/

section
variable (s : State) (p : Nat)

theorem exec_hello (h : Hello) : exec (.hello p h) s = .next (s.greet p h) := rfl
theorem exec_response (g : Sigs) : exec (.response p g) s = .next (s.answered p g) := rfl
theorem exec_authFail (o : Nat) : exec (.authFail p o) s = .next (s.giveUp p o) := rfl

/-! ### HELLO (R310, R409) -/

/-- A port whose authentication fails keeps no HELLO. -/
theorem failAuth_port (code order id : Nat) : (((s.failAuth p code order id).classEdge).port p).state = .authFail
    ∧ (((s.failAuth p code order id).classEdge).port p).hello = none := by
  obtain ⟨hstate, -, -, -, -, -, -, -, hhello, -⟩ := Port.of_line (s.failAuth_line p code order id)
  exact ⟨hstate, hhello⟩

/-- A HELLO that is answered is kept, and the port stays in AUTH. -/
theorem respond_port (h : Hello) : ((s.setPort p (s.respond p h)).port p).state = (s.port p).state
    ∧ ((s.setPort p (s.respond p h)).port p).hello = some h := by
  rw [State.setPort_port]
  obtain ⟨hstate, -, -, -, -, -, -, -, hhello, -⟩ := Port.of_line (Port.sendMgmt_line _ _ : (s.respond p h).line = _)
  exact ⟨hstate, hhello⟩
end

section
variable {s : State} {p : Nat}

theorem greet_first {h : Hello} (hi : s.su.identityOk = true) (ha : (s.port p).state = .auth)
    (hn : (s.port p).hello = none) :
    s.greet p h = if s.helloOrder p h = 0 then s.setPort p (s.respond p h)
      else (s.failAuth p (if s.helloOrder p h = 4 ∧ h.record = true then 0x1B else 0x1A) (s.helloOrder p h)
        h.id.toNat).classEdge :=
  if_pos ⟨hi, ha, hn⟩

theorem greet_ignored {h : Hello} (hc : s.su.identityOk = false ∨ (s.port p).state ≠ .auth ∨ (s.port p).hello ≠ none) :
    s.greet p h = s := by
  refine if_neg fun ⟨hi, ha, hn⟩ => ?_
  rcases hc with hc | hc | hc
  · exact absurd hi (by simp [hc])
  · exact hc ha
  · exact hc hn

/-! ### RESPONSE (R310 orders 6 and 7, R409) -/

theorem answered_hello {g : Sigs} {h : Hello} (hi : s.su.identityOk = true) (ha : (s.port p).state = .auth)
    (hh : (s.port p).hello = some h) : s.answered p g = if s.responseOk p h g then s.admitPort p h g.cipher
      else (s.failAuth p 0x1A 6 h.id.toNat).classEdge := by
  simp only [State.answered, hi, ha, hh]

theorem answered_ignored {g : Sigs} (hc : s.su.identityOk = false ∨ (s.port p).state ≠ .auth ∨ (s.port p).hello = none) :
    s.answered p g = s := by
  unfold State.answered
  split
  · next hi ha hh => simp [hi, ha, hh] at hc
  · rfl

/-- A port that is admitted has its partner, and carries its own traffic alone where that has no identifier record. -/
theorem admitPort_port (s : State) (p : Nat) (h : Hello) (c : List Byte) : ((s.admitPort p h c).port p).state = .admitted
    ∧ ((s.admitPort p h c).port p).partner = h.id ∧ ((s.admitPort p h c).port p).enc = ((s.port p).sentEnc || h.enc)
    ∧ ((s.admitPort p h c).port p).limited = !h.record := by
  obtain ⟨hstate, -, -, henc, hpartner, -, -, -, -, hlimited, -⟩ := Port.of_line (s.admitPort_line p h c)
  exact ⟨hstate, hpartner, henc, hlimited⟩

/-! ### AUTH_FAIL (R310, R409) -/

theorem giveUp_auth {o : Nat} (hi : s.su.identityOk = true) (ha : (s.port p).state = .auth) : s.giveUp p o =
    (s.failAuth p 0x1A o (match (s.port p).hello with | some h => h.id.toNat | none => 0)).classEdge := if_pos ⟨hi, ha⟩

theorem giveUp_ignored {o : Nat} (hc : s.su.identityOk = false ∨ (s.port p).state ≠ .auth) : s.giveUp p o = s := by
  refine if_neg fun ⟨hi, ha⟩ => ?_
  rcases hc with hc | hc
  · exact absurd hi (by simp [hc])
  · exact hc ha

/-! ### Bindings (R311) -/

theorem exec_bindingForward_admitted (id : BitVec 16) (d : W64) (ha : s.admitted p = true) :
    exec (.bindingForward p id d) s = if s.bindConflict id.toNat d then .next (s.raise (fabricEvt 0x1B p id.toNat 0 0 0))
      else .next (s.bind p id.toNat d) := if_pos ha

theorem exec_bindingForward_ignored (id : BitVec 16) (d : W64) (ha : s.admitted p = false) :
    exec (.bindingForward p id d) s = .next s := if_neg (by simp [ha])

/-! ### Folio claims (R326) -/

theorem exec_folioClaim_teller (pos : Nat) (t : BitVec 16) (rel : Bool) (ha : s.admitted p = true)
    (ht : s.su.teller = true) :
    exec (.folioClaim p pos ⟨t, rel⟩) s = .next (s.claimAnswer pos t) := by
  show execFolioClaim p pos ⟨t, rel⟩ s = _
  simp only [execFolioClaim, ha, ht, Bool.not_true, Bool.false_eq_true, if_false, if_true]

theorem exec_folioClaim_member (pos : Nat) (t : BitVec 16) (rel : Bool) (ha : s.admitted p = true)
    (ht : s.su.teller = false) :
    exec (.folioClaim p pos ⟨t, rel⟩) s = .next ((if rel then s.endClaim else s).takeClaim p pos t) := by
  show execFolioClaim p pos ⟨t, rel⟩ s = _
  simp only [execFolioClaim, ha, ht, Bool.not_true, Bool.false_eq_true, if_false]

theorem exec_folioClaim_ignored (pos : Nat) (t : BitVec 16) (rel : Bool) (ha : s.admitted p = false) :
    exec (.folioClaim p pos ⟨t, rel⟩) s = .next s := if_pos (by simp [ha])

/-- A member's claim once a reset of its teller may have released it. -/
theorem released_claim (s : State) (rel : Bool) :
    (if rel then s.endClaim else s).fab.claim = if rel then none else s.fab.claim := by
  cases rel <;> rfl
end

/-- Settles O36: the three messages of AUTH by the port's state and the checks that they meet, a binding by its conflict,
a claim by the device's place in the folio. -/
theorem admissionCommandsAct : Obligations.AdmissionCommandsAct := by
  refine ⟨?hello, ?response, ?authFail, ?binding, ?claim⟩
  case hello =>
    intro s p h
    rw [exec_hello]
    refine ⟨fun hi ha hn => ?_, fun hc => congrArg _ (greet_ignored hc)⟩
    rw [greet_first hi ha hn]
    obtain ⟨hstate, hkept⟩ := respond_port s p h
    exact ⟨fun h0 => ⟨_, congrArg _ (if_pos h0), rfl, hstate.trans ha, hkept⟩,
      fun h0 => ⟨_, congrArg _ (if_neg h0), rfl, failAuth_port ..⟩⟩
  case response =>
    intro s p g
    rw [exec_response]
    refine ⟨fun h hi ha hh => ?_, fun hc => congrArg _ (answered_ignored hc)⟩
    rw [answered_hello hi ha hh]
    exact ⟨fun hok => ⟨_, congrArg _ (if_pos hok), rfl, admitPort_port ..⟩,
      fun hbad => ⟨_, congrArg _ (if_neg (by simp [hbad])), rfl, failAuth_port ..⟩⟩
  case authFail =>
    intro s p o
    rw [exec_authFail]
    refine ⟨fun hi ha => ?_, fun hc => congrArg _ (giveUp_ignored hc)⟩
    rw [giveUp_auth hi ha]
    exact ⟨_, rfl, fun h hh => by rw [hh], fun hn => by rw [hn], failAuth_port ..⟩
  case binding =>
    intro s p id d
    refine ⟨fun ha => ?_, exec_bindingForward_ignored id d⟩
    rw [exec_bindingForward_admitted id d ha]
    exact ⟨fun hc => ⟨_, if_neg (by simp [hc]), rfl, State.bind_binding hc p⟩,
      fun hc => ⟨_, if_pos hc, rfl, State.fab_of_rest (State.raise_rest ..)⟩⟩
  case claim =>
    intro s p pos t rel
    refine ⟨fun ha => ⟨fun ht => ⟨_, exec_folioClaim_teller pos t rel ha ht, rfl, State.claimAnswer_folio t⟩,
      fun ht => ⟨_, exec_folioClaim_member pos t rel ha ht, rfl, ?_⟩⟩, exec_folioClaim_ignored pos t rel⟩
    rw [State.takeClaim_claim, released_claim]

end Sys2Proof.Proofs

/-! ## What is sent again, and the waits of a run (R317, R319, R321, R323; log 16) -/

namespace Sys2Proof.Proofs
open Sys2Proof.Machine

/-! ### MSG_RESEND (R317) -/

section
variable {s : State} {n : Nat} {r : Ring} (hr : s.ring n = some r)
include hr

/-- A stream that is consumed sends again from the first entry that is neither delivered nor under way. -/
theorem exec_msgResend_consumed (hk : r.kind = 2) (hs : r.stopped = false) (hready : s.ready = true) :
    (∀ k, s.undelivered n r = some k → exec (.msgResend n) s = .next (s.sendEntries n r k (r.tail - k).toNat))
    ∧ (s.undelivered n r = none → exec (.msgResend n) s = .next s) := by
  have hc : ¬ (r.kind ≠ 2 ∨ r.stopped = true ∨ s.ready = false) := by simp [hk, hs, hready]
  refine ⟨fun k hu => ?_, fun hu => ?_⟩
  all_goals
    show execMsgResend n s = _
    simp only [execMsgResend, hr, if_neg hc, hu]

theorem exec_msgResend_idle (hc : r.kind ≠ 2 ∨ r.stopped = true ∨ s.ready = false) : exec (.msgResend n) s = .next s := by
  show execMsgResend n s = _
  simp only [execMsgResend, hr]
  exact if_pos hc
end

theorem exec_msgResend_noRing {s : State} {n : Nat} (hr : s.ring n = none) : exec (.msgResend n) s = .next s := by
  show execMsgResend n s = _
  simp only [execMsgResend, hr]

/-! ### CONTRIB_RESEND (R321) -/

section
variable {s : State} {n : Nat} {x : Send} (hx : s.send n = some x)
include hx

/-- A contribution that is not withdrawn: its transactions come first, then the countersign of a decided step. -/
theorem exec_contribResend_live (hv : x.void = none) : exec (.contribResend n) s =
    if x.retry ≠ [] then .next (((s.setSend { x with retry := [] }).stream n x.retry).lockBreakJob x.job)
    else if x.state = .landed ∧ s.sendDecided x = true then .next (s.sendCsgn x)
    else .next s := by
  show execContribResend n s = _
  simp [execContribResend, hx, hv]

theorem exec_contribResend_withdrawn {v : Nat} (hv : x.void = some v) : exec (.contribResend n) s =
    .next (if x.retry = [] then s else s.sendVoid x v) := by
  show execContribResend n s = _
  simp [execContribResend, hx, hv, List.isEmpty_iff]
end

theorem exec_contribResend_none {s : State} {n : Nat} (hx : s.send n = none) : exec (.contribResend n) s = .next s := by
  show execContribResend n s = _
  simp only [execContribResend, hx]

/-! ### COLL_WAIT (R323) -/

section
variable {s : State} {n : BitVec 16} {i : Nat} {r : Run} (hr : s.run n.toNat = some r)
include hr

theorem exec_collWait_runs {j : Job} (hj : s.job n.toNat = some j) (hw : r.waiting = false) (hb : r.broken = false)
    (hs : s.ready = true) :
    (∀ x, ((j.incoming r.template (fun _ => true)).filter (s.waitsFor j r))[i]? = some x →
      exec (.collWait ⟨n, i⟩) s = .next (s.waitTimeout j r x))
    ∧ (((j.incoming r.template (fun _ => true)).filter (s.waitsFor j r))[i]? = none →
      exec (.collWait ⟨n, i⟩) s = .next s) := by
  refine ⟨fun x hx => ?_, fun hx => ?_⟩
  all_goals
    show execCollWait ⟨n, i⟩ s = _
    simp [execCollWait, hj, hr, hw, hb, hs, hx]

theorem exec_collWait_idle (hc : r.waiting = true ∨ r.broken = true ∨ s.ready = false) :
    exec (.collWait ⟨n, i⟩) s = .next s := by
  show execCollWait ⟨n, i⟩ s = _
  simp only [execCollWait, hr]
  cases s.job n.toNat with
  | none => rfl
  | some j => exact if_pos (by rcases hc with hc | hc | hc <;> simp [hc])
end

theorem exec_collWait_absent {s : State} {n : BitVec 16} {i : Nat} (hc : s.job n.toNat = none ∨ s.run n.toNat = none) :
    exec (.collWait ⟨n, i⟩) s = .next s := by
  show execCollWait ⟨n, i⟩ s = _
  unfold execCollWait
  split
  · next hj hr => simp [hj, hr] at hc
  · rfl

/-- Settles O38: a stream by its ring and what of it is undelivered, a contribution by what of it waits, a wait by the
contribution that it names. -/
theorem resendsAndWaitsAct : Obligations.ResendsAndWaitsAct := by
  refine ⟨?msg, ?contrib, ?wait⟩
  case msg =>
    exact fun s n => ⟨fun r hr => exec_msgResend_consumed hr, fun r hr => exec_msgResend_idle hr, exec_msgResend_noRing⟩
  case contrib =>
    intro s n
    refine ⟨fun x hx hv => ?_, fun x v hx hv => ?_, exec_contribResend_none⟩
    · rw [exec_contribResend_live hx hv]
      refine ⟨fun hr => if_pos hr, fun hr hl hd => ?_, fun hr hc => ?_⟩
      · rw [if_neg (not_not_intro hr), if_pos ⟨hl, hd⟩]
      · rw [if_neg (not_not_intro hr), if_neg]
        rintro ⟨hl, hd⟩
        rcases hc with hc | hc
        · exact hc hl
        · exact absurd hd (by simp [hc])
    · rw [exec_contribResend_withdrawn hx hv]
      exact ⟨fun hr => congrArg _ (if_neg hr), fun hr => congrArg _ (if_pos hr)⟩
  case wait =>
    intro s n i
    refine ⟨fun j r hj hr hw hb hs => ?_, fun r hr => exec_collWait_idle hr, exec_collWait_absent⟩
    obtain ⟨hwait, hnone⟩ := exec_collWait_runs (i := i) hr hj hw hb hs
    exact ⟨fun x hx => ⟨_, _, hwait x hx, rfl, rfl⟩, hnone⟩

end Sys2Proof.Proofs

/-! ## The recovery window and the forwarding table (R307, R421, R457, R458; log 8, 33) -/

namespace Sys2Proof.Proofs
open Sys2Proof.Machine

/-! ### The recovery window -/

section
variable (s : State) (v : W32)

theorem exec_recData : exec (.recData v) s = .next (s.onRcv (·.store v)) := rfl
theorem exec_pieceDone : exec .pieceDone s = .next (s.onRcv (·.done)) := rfl
theorem exec_abort : exec .abort s = .next (s.onRcv (·.abort)) := rfl
end

/-- The recovery window acts in recovery mode. -/
theorem onRcv_recovering {s : State} (h : s.su.phase = 0xE) (f : Recovery → Recovery) :
    s.onRcv f = s.setRcv (f s.su.rcv) :=
  if_pos h

/-- In any other phase it does nothing. -/
theorem onRcv_elsewhere {s : State} (h : s.su.phase ≠ 0xE) (f : Recovery → Recovery) : s.onRcv f = s := if_neg h

/-! ### The forwarding table -/

theorem exec_fwdData_write (s : State) (v : W32) :
    exec (.fwdData true v) s = .next (s.regWrite false 0 0x154 (fun s => s.fwdWrite v)) := rfl

theorem exec_fwdData_read (s : State) (v : W32) : exec (.fwdData false v) s = .next (s.hostRead 0x154) := rfl

/-- A read of FWD_DATA answers the four entries at FWD_INDEX, and the index advances. -/
theorem readFwdData (s : State) : s.afterRead false 0 0x154 = s.fwdNext
    ∧ s.readValue false 0 0x154 = BitVec.ofNat 32 s.fwdWord := by
  have hpair : pairOf (s.pageType 0) 0x154 = none := rfl
  have hvalue : s.regValue 0 0x154 = s.fwdWord := rfl
  simp [State.afterRead, State.readValue, hpair, hvalue]

/-- Settles O41: the window by the phase, FWD_DATA by its direction and its page. -/
theorem recoveryAndForwardingAct : Obligations.RecoveryAndForwardingAct := by
  refine ⟨?recovering, ?elsewhere, ?write, ?writeRefused, ?read, ?readClosed, fun _ => rfl⟩
  case recovering =>
    intro s v h
    rw [exec_recData, exec_pieceDone, exec_abort, onRcv_recovering h, onRcv_recovering h, onRcv_recovering h]
    exact ⟨rfl, rfl, rfl⟩
  case elsewhere =>
    intro s v h
    rw [exec_recData, exec_pieceDone, exec_abort, onRcv_elsewhere h, onRcv_elsewhere h, onRcv_elsewhere h]
    exact ⟨rfl, rfl, rfl⟩
  case write =>
    intro s v h
    rw [exec_fwdData_write, regWrite_taken h]
    rfl
  case writeRefused =>
    intro s v h
    rw [exec_fwdData_write, regWrite_refused h]
  case read =>
    intro s v h
    obtain ⟨hafter, hvalue⟩ := readFwdData s
    rw [exec_fwdData_read, hostRead_open (off := 0x154) (n := 0) (o := 0x154) rfl rfl h, hafter, hvalue]
    rfl
  case readClosed =>
    intro s v h
    rw [exec_fwdData_read, hostRead_closed h]

end Sys2Proof.Proofs

/-! ## Selectors, the folio table, other registers and the MSI-X table (R326, R328, R330, R461, R464, R470; log 4) -/

namespace Sys2Proof.Proofs
open Sys2Proof.Machine

/-! ### What each command does where its page takes the write -/

section
variable {s : State} (v : W32)

theorem exec_burWinSel_taken (h : s.takesWrite false 2 0x110 = true) : exec (.burWinSel v) s = .next (s.burSelect v) :=
  congrArg _ (regWrite_taken h _)

theorem exec_coreWinSel_taken {p : Nat} (h : s.takesWrite false (0x800 + p) 0x120 = true) :
    exec (.coreWinSel p v) s = .next (s.coreSelect p v) := congrArg _ (regWrite_taken h _)

theorem exec_folioEnt_taken {pos : Nat} (h : s.takesWrite false 6 (0x100 + 4 * pos) = true) :
    exec (.folioEnt pos v) s = .next (s.folioWrite pos v) := congrArg _ (regWrite_taken h _)

theorem exec_registerWrite_aligned {off : W32} (env : StartEnv) (h : regAligned off = true) :
    exec (.registerWrite off v env) s = .next (s.regWrite false (off.toNat / 4096) (off.toNat % 4096)
      (fun s => s.regEffect (off.toNat / 4096) (off.toNat % 4096) v env)) := if_pos h

/-! ### A selected item (R461, R470) -/

theorem coreSelect_item {p : Nat} {ws : List W32} {tag : Bool} (h : coreItem (s.shownSlot p) v.toNat = some (ws, tag)) :
    s.coreSelect p v = s.setCore p { s.core p with win := ⟨v &&& 0xF0FF3F07, winWords 8 ws, tag⟩ } := by
  simp only [State.coreSelect, h]

theorem coreSelect_reserved {p : Nat} (h : coreItem (s.shownSlot p) v.toNat = none) : s.coreSelect p v = s := by
  simp only [State.coreSelect, h]
end

/-! ### TEL_RELAY_TO (R464) -/

theorem exec_telRelayTo (s : State) : exec .telRelayTo s = .next (s.hostRead 0x6144) := rfl

/-- A read of TEL_RELAY_TO at a teller answers the count and clears it. -/
theorem readRelayTo {s : State} (h : s.su.teller = true) :
    s.afterRead false 6 0x144 = { s with tel := { s.tel with relayTo := 0 } }
    ∧ s.readValue false 6 0x144 = s.tel.relayTo := by
  have htype : s.pageType 6 = 7 := by simp [State.pageType, h]
  have hpair : pairOf 7 0x144 = none := rfl
  have hvalue : s.regValue 6 0x144 = s.tel.relayTo.toNat := by simp [State.regValue, htype, State.tellerReg]
  simp [State.afterRead, State.readValue, htype, hpair, hvalue]

/-! ### MSIX_UNMASK (R330) -/

/-- The state in which what the host has written into the configuration space is in force (log 4). -/
def configuredBy (s : State) (g : Option PcieCfg) : State :=
  match g with
  | some y => s.configure y
  | none => s

section
variable {s : State} {n : Nat} (a : W64) (d c : W32) (g : Option PcieCfg)

theorem exec_msixUnmask_teller (ht : s.su.teller = true) (hn : n < 2048) : exec (.msixUnmask ⟨n, a, d, c, g⟩) s =
    .next (if c.getLsbD 0 then (configuredBy s g).setMsix n ⟨a, d, c &&& 1⟩
      else ((configuredBy s g).setMsix n ⟨a, d, c &&& 1⟩).sendPending n) := by
  show execMsixUnmask ⟨n, a, d, c, g⟩ s = _
  simp only [execMsixUnmask, ht, Nat.not_le.mpr hn, configuredBy]
  cases g <;> rfl

theorem exec_msixUnmask_ignored (h : s.su.teller = false ∨ 2048 ≤ n) :
    exec (.msixUnmask ⟨n, a, d, c, g⟩) s = .next s := if_pos (by rcases h with h | h <;> simp [h])
end

theorem configuredBy_su (s : State) (g : Option PcieCfg) : (configuredBy s g).su = s.su := by
  cases g with
  | none => rfl
  | some y => exact s.configure_su y

/-- A teller sends a vector that nothing masks. -/
theorem interrupt_unmasked {u : State} {k : BitVec 11} {e : MsixEnt} (ht : u.su.teller = true)
    (he : lookD MsixEnt.reset k.toNat u.tel.msix = e) (hm : e.ctl.getLsbD 0 = false) (hd : u.tel.pcie.d3hot = false) :
    u.interrupt k = { u with out := { u.out with msix := ⟨k, e.addr, e.data⟩ :: u.out.msix } } := by
  simp only [State.interrupt, ht, he, hm, hd, Bool.or_self, if_true, Bool.false_eq_true, if_false]

theorem sendPending_waits {u : State} {n : Nat} (h : u.tel.pend.contains n = true) : u.sendPending n =
    { u with tel := { u.tel with pend := eraseNat n u.tel.pend } }.interrupt (BitVec.ofNat 11 n) := if_pos h

theorem sendPending_clear {u : State} {n : Nat} (h : u.tel.pend.contains n = false) : u.sendPending n = u :=
  if_neg (ne_true_of_eq_false h)

/-- A vector whose mask clears is sent with its entry, once. -/
theorem sendPending_unmasked {u : State} {n : Nat} (a : W64) (d c : W32) (ht : u.su.teller = true) (hn : n < 2048)
    (hc : c.getLsbD 0 = false) (hp : u.tel.pend.contains n = true) (hd : u.tel.pcie.d3hot = false) :
    (u.setMsix n ⟨a, d, c &&& 1⟩).sendPending n = { u with
      tel := { u.tel with msix := put n ⟨a, d, c &&& 1⟩ u.tel.msix, pend := eraseNat n u.tel.pend }
      out := { u.out with msix := ⟨BitVec.ofNat 11 n, a, d⟩ :: u.out.msix } } := by
  have hentry : lookD MsixEnt.reset (BitVec.ofNat 11 n).toNat (put n ⟨a, d, c &&& 1⟩ u.tel.msix) = ⟨a, d, c &&& 1⟩ := by
    rw [BitVec.toNat_ofNat, Nat.mod_eq_of_lt hn, lookD_put_same]
  have hmask : (c &&& 1).getLsbD 0 = false := by rw [BitVec.getLsbD_and, hc, Bool.false_and]
  rw [sendPending_waits (u := u.setMsix n ⟨a, d, c &&& 1⟩) hp]
  refine (interrupt_unmasked (e := ⟨a, d, c &&& 1⟩) ?_ ?_ hmask ?_).trans rfl
  · exact ht
  · exact hentry
  · exact hd

/-- Settles O43: a selector by the item that it names, an entry of the folio table by what keeps it, a vector by its mask
and its pending bit. -/
theorem windowsAndTellerRegistersAct : Obligations.WindowsAndTellerRegistersAct := by
  refine ⟨?bursar, ?core, ?folio, ?relay, ?register, ?refused, ?msix⟩
  case bursar =>
    exact fun s v h => exec_burWinSel_taken v h
  case core =>
    intro s p v h
    rw [exec_coreWinSel_taken v h]
    exact ⟨fun ws tag hi => congrArg _ (coreSelect_item v hi), fun hi => congrArg _ (coreSelect_reserved v hi)⟩
  case folio =>
    rintro s t pos v e h rfl rfl
    rw [exec_folioEnt_taken v h]
    exact ⟨fun hk => congrArg _ (if_pos hk), fun h0 hid => congrArg _ (if_neg (by simpa [h0] using hid))⟩
  case relay =>
    intro s ho ht
    obtain ⟨hafter, hvalue⟩ := readRelayTo ht
    rw [exec_telRelayTo, hostRead_open (off := 0x6144) (n := 6) (o := 0x144) rfl rfl ho, hafter, hvalue]
  case register =>
    intro s off v env ha
    rw [exec_registerWrite_aligned v env ha]
    exact ⟨fun h => congrArg _ (regWrite_taken h _), fun h => congrArg _ (regWrite_refused h _)⟩
  case refused =>
    intro s v p pos
    exact ⟨fun h => congrArg _ (regWrite_refused h _), fun h => congrArg _ (regWrite_refused h _),
      fun h => congrArg _ (regWrite_refused h _), fun h => congrArg _ (hostRead_closed h)⟩
  case msix =>
    intro s u n a d c g hu
    obtain rfl : u = configuredBy s g := hu.trans (by cases g <;> rfl)
    refine ⟨fun ht hn => ?_, exec_msixUnmask_ignored a d c g⟩
    rw [exec_msixUnmask_teller a d c g ht hn]
    have hteller : (configuredBy s g).su.teller = true := by rw [configuredBy_su]; exact ht
    refine ⟨fun hc hp hd => ?_, fun h => congrArg _ ?_⟩
    · rw [if_neg (ne_true_of_eq_false hc), sendPending_unmasked a d c hteller hn hc hp hd]
    · rcases h with hc | hp
      · exact if_pos hc
      · rw [sendPending_clear (u := (configuredBy s g).setMsix n ⟨a, d, c &&& 1⟩) hp, ite_self]
        rfl

end Sys2Proof.Proofs

/-! ## Events: the error ledger, DEV_EVT_SUMMARY and the alert cause (R351, R352, R446, R453, R454; log 21) -/

namespace Sys2Proof.Proofs
open Sys2Proof.Machine

/-! ### A record enters ring 2 (R351) -/

/-- An entry with FLAGS.OVERWROTE set (Table 11-9). -/
def overwroteSet : List W64 → List W64
  | w :: t => (w ||| BitVec.ofNat 64 (2 ^ 55)) :: t
  | [] => []

/-- Ring 2 once a record is written at TAIL; where the ring is full, over its oldest record. -/
def logged (r : Ring) (full : Bool) (ws : List W64) : Ring := { r with
  entries := put (r.tail.toNat % 65536) (if full then overwroteSet (withSeq ws r.tail) else withSeq ws r.tail) r.entries
  tail := r.tail + 1
  head := if full then r.head + 1 else r.head }

/-- The ledger page once a record is written: ERR_LOST counts one that was overwritten. -/
def countLost (l : LdgRegs) (full : Bool) : LdgRegs := if full then { l with errLost := l.errLost + 1 } else l

@[simp] theorem errInterrupt_rings (s : State) : s.errInterrupt.rings = s.rings := by
  unfold State.errInterrupt
  split <;> simp

@[simp] theorem errInterrupt_ldg (s : State) : s.errInterrupt.ldg = s.ldg := by
  unfold State.errInterrupt
  split <;> simp

section
variable {s : State} {r : Ring} {full : Bool} (hr : s.ring 2 = some r)
  (hfull : decide ((r.tail - r.head).toNat = 65536) = full)
include hr hfull

/-- A record is written, and the error ring's interrupt follows it. -/
theorem ledger_of_ring (ws : List W64) : s.ledger ws =
    State.errInterrupt { s.setRing 2 (logged r full ws) with ldg := countLost s.ldg full } := by
  subst hfull
  simp only [State.ledger, hr]
  cases decide ((r.tail - r.head).toNat = 65536) <;> rfl

theorem raise_ring (e : Evt) : (s.raise e).ring 2 = some (logged r full (s.record e)) := by
  simp only [State.raise, State.ring, markPage_rings, noteUnit_rings, ledger_of_ring hr hfull, errInterrupt_rings,
    State.setRing, look_put_same]

theorem raise_ldg (e : Evt) : (s.raise e).ldg = countLost s.ldg full := by
  simp only [State.raise, markPage_ldg, noteUnit_ldg, ledger_of_ring hr hfull, errInterrupt_ldg]
end

/-! ### An event marks its unit's page (R453) -/

theorem markPage_page (s : State) (n cls count : Nat) : (s.markPage n cls count).page n = { s.page n with
    evtStatus := (s.page n).evtStatus ||| BitVec.ofNat 32 (2 ^ cls)
    evtCount := BitVec.ofNat 32 (satAdd (s.page n).evtCount.toNat count (2 ^ 32 - 1)) } := by
  simp only [State.markPage, State.page, evtEdge_pages, State.setPage, lookD_put_same]

theorem raise_page (s : State) (e : Evt) : (s.raise e).page (unitPage e.utype e.punit) =
    { s.page (unitPage e.utype e.punit) with
      evtStatus := (s.page (unitPage e.utype e.punit)).evtStatus ||| BitVec.ofNat 32 (2 ^ evtClass e.code)
      evtCount := BitVec.ofNat 32 (satAdd (s.page (unitPage e.utype e.punit)).evtCount.toNat 1 (2 ^ 32 - 1)) } := by
  have hpages : ∀ n, ((s.ledger (s.record e)).noteUnit e).page n = s.page n := fun n => by
    rw [State.page, noteUnit_pages, ledger_pages, State.page]
  rw [State.raise, markPage_page, hpages]

/-- Settles O57: the event's record is all that changes ring 2 and the ledger page, and its mark all that changes the
unit's page. -/
theorem eventIsRecorded : Obligations.EventIsRecorded := by
  intro s e r hr
  refine ⟨fun hroom => ?_, fun hfull => ?_, ?_, ?_⟩
  · have hd := decide_eq_false hroom
    exact ⟨raise_ring hr hd e, raise_ldg hr hd e⟩
  · have hd := decide_eq_true hfull
    exact ⟨raise_ring hr hd e, congrArg LdgRegs.errLost (raise_ldg hr hd e)⟩
  · rw [raise_page]
  · rw [raise_page, BitVec.toNat_ofNat, satAdd_eq_min, Nat.mod_eq_of_lt (by omega)]

/-! ### DEV_EVT_SUMMARY (R454) -/

theorem evtSummary_getLsbD (s : State) {t : Nat} (h1 : 1 ≤ t) (h32 : t < 32) : s.evtSummary.getLsbD t = true ↔
    ∃ e ∈ s.pages, s.pageType e.1 = t ∧ e.2.evtStatus &&& e.2.evtEnable ≠ 0 := by
  rw [State.evtSummary, BitVec.getLsbD_ofNat, decide_eq_true h32, Bool.true_and, summary_fold s t (by omega)]
  simp

/-- Settles O56: a bit of the summary is set by the pages of its type alone, and the summary's edge sends the vector. -/
theorem eventSummaryRegister : Obligations.EventSummaryRegister :=
  ⟨fun s _ => evtSummary_getLsbD s, fun _ hprev hnow hen => if_pos ⟨hprev, hnow, hen⟩⟩

/-! ### The alert cause (R446) -/

/-- Settles O28: the word's bits are the conditions it is made of, and ALERT_N is its bits 0 and 3 to 10. -/
theorem alertCauseReportsConditions : Obligations.AlertCauseReportsConditions := by
  intro s
  obtain ⟨h0, h1, h2, h3, h4, h5, h6, h7, h8, h9, h10, hrest⟩ := alert_word_bits _ _ _ _ _ _ _ _ _ _ _ s.alertCause rfl
  rw [h0, h1, h2, h3, h4, h5, h6, h7, h8, h9, h10]
  refine ⟨.rfl, .rfl, .rfl, List.any_eq_true, by simp, by simp, .rfl, .rfl, .rfl, .rfl, .rfl, hrest, ?_, rfl⟩
  rw [alert_iff, h0]

end Sys2Proof.Proofs

/-! ## The I3C target (R444; log 6), and a step with a command waiting (log 18) -/

namespace Sys2Proof.Proofs
open Sys2Proof.Machine

/-- Settles O1: the front of the queue is what `step` matches on. -/
theorem stepRunsFrontCommand : Obligations.StepRunsFrontCommand := fun _ _ _ => rfl

/-! ### The target takes part while the management rails are up -/

section
variable {s : State} (h : s.mod.mgmtUp = true)
include h

theorem onI3c_up (k : I3c → I3c) : s.onI3c k = { s with i3c := k s.i3c } := if_pos h

theorem cccAnswer_up (bs : List Byte) : s.cccAnswer bs = { s with out := { s.out with cccData := bs } } := if_pos h
end

section
variable {s : State} (h : s.mod.mgmtUp = false)
include h

theorem onI3c_down (k : I3c → I3c) : s.onI3c k = s := if_neg (by simp [h])

theorem cccAnswer_down (bs : List Byte) : s.cccAnswer bs = s := if_neg (by simp [h])
end

/-! ### What the CCCs make of the target's state -/

section
variable (s : State) (a b : BitVec 7)

theorem exec_entdaa : exec (.entdaa a) s =
    .next (s.onI3c (fun i => if i.dynAddr.isNone then { i with dynAddr := some a } else i)) := rfl

theorem exec_setdasa : exec (.setdasa b a) s = .next (s.onI3c (fun i =>
    if b = s.staticAddr ∧ i.dynAddr = none then { i with dynAddr := some a } else i)) := rfl

theorem exec_rstdaa : exec .rstdaa s = .next (s.onI3c (fun i => { i with dynAddr := none })) := rfl
theorem exec_enec : exec .enec s = .next (s.onI3c (fun i => { i with ibiEn := true })) := rfl
theorem exec_disec : exec .disec s = .next (s.onI3c (fun i => { i with ibiEn := false })) := rfl
theorem exec_getpid : exec .getpid s = .next (s.cccAnswer (leBytes 6 s.provisionalId).reverse) := rfl
theorem exec_getbcr : exec .getbcr s = .next (s.cccAnswer [Config.bcr]) := rfl
theorem exec_getdcr : exec .getdcr s = .next (s.cccAnswer [Config.dcr]) := rfl

theorem exec_getstatus : exec .getstatus s = .next ({ s with freeCtr := s.freeCtr + 1 }.cccAnswer
    (leBytes 2 (Config.freeNat (s.freeCtr * 16384)))) := rfl
end

/-- A change that leaves the target as it is leaves the state. -/
theorem onI3c_same {s : State} {k : I3c → I3c} (hk : k s.i3c = s.i3c) : s.onI3c k = s := by
  rw [State.onI3c, hk]
  exact ite_self s

/-- Settles O32: each CCC is a change of the target or an answer, and a target that is down makes neither. -/
theorem i3cCommandsAct : Obligations.I3cCommandsAct := by
  refine ⟨fun s a h => ⟨fun hnone => ?unassigned, fun hsome => ?assigned, fun b hb => ?elsewhere,
    ?_, ?_, ?_, ?_, ?_, ?_, ?status⟩, fun s a b h => ?down⟩
  case unassigned =>
    rw [exec_entdaa, exec_setdasa, onI3c_up h, onI3c_up h, if_pos (by simp [hnone]), if_pos ⟨rfl, hnone⟩]
    exact ⟨rfl, rfl⟩
  case assigned =>
    exact ⟨(exec_entdaa s a).trans (congrArg _ (onI3c_same (if_neg (by simpa using hsome)))),
      (exec_setdasa s a _).trans (congrArg _ (onI3c_same (if_neg (fun hs => hsome hs.2))))⟩
  case elsewhere =>
    exact (exec_setdasa s a b).trans (congrArg _ (onI3c_same (if_neg (fun hs => hb hs.1))))
  case status =>
    exact ⟨_, rfl, (exec_getstatus s).trans (congrArg _ (cccAnswer_up (s := { s with freeCtr := s.freeCtr + 1 }) h _))⟩
  case down =>
    rw [exec_entdaa, exec_setdasa, exec_rstdaa, exec_enec, exec_disec, exec_getpid, exec_getbcr, exec_getdcr,
      exec_getstatus]
    simp only [onI3c_down h, cccAnswer_down h, true_and]
    exact ⟨_, congrArg _ (cccAnswer_down (s := { s with freeCtr := s.freeCtr + 1 }) h _)⟩
  · rw [exec_rstdaa, onI3c_up h]
  · rw [exec_enec, onI3c_up h]
  · rw [exec_disec, onI3c_up h]
  · rw [exec_getpid, cccAnswer_up h]
  · rw [exec_getbcr, cccAnswer_up h]
  · rw [exec_getdcr, cccAnswer_up h]

end Sys2Proof.Proofs

/-! ## Firmware, configuration and attestation (R403, R412 to R418; logs 13, 30) -/

namespace Sys2Proof.Proofs
open Sys2Proof.Machine

/-! ### What the taking of an entry leaves as it was -/

section
variable (s : State) (f : Fetch) (r : Ring)

theorem consumed_stageBusy : (s.consumed f r).stageBusy = s.stageBusy := by
  obtain ⟨ps, rs, h⟩ := s.consumed_eq f r
  rw [h]
  rfl

theorem consumed_switchCode : (s.consumed f r).switchCode = s.switchCode := by
  obtain ⟨ps, rs, h⟩ := s.consumed_eq f r
  rw [h]
  rfl

theorem consumed_appends : (s.consumed f r).appends = s.appends := by
  obtain ⟨ps, rs, h⟩ := s.consumed_eq f r
  rw [h]
  rfl
end

/-! ### The effect of a command that is not refused, on the state that the taking of its entry leaves -/

section
variable {s : State} {c : Cmd}

theorem doFwStage_begins {item : List Byte} (hi : s.item c = item) (hb : s.stageBusy = 0) (h0 : s.imageCode item = 0) :
    doFwStage s c = { s with
      flash := { s.flash.setImage (!s.su.slot) none with staged := some s.time }
      su := { s.su with fwStaging := some (c.waiting, s.imageOf item) } } := by
  simp only [doFwStage, hi, hb, h0, if_true]

theorem doFwSwitch_waits (h : s.switchCode = 0) :
    doFwSwitch s c = { s with su := { s.su with fwSwitch := some ⟨c.waiting, s.time⟩ } } := by
  simp only [doFwSwitch, h]

/-- The end of a trial, in the boot control block (R413, R415). -/
def trialEnded (s : State) : State :=
  ({ s with su := { s.su with trial := false } }.flashWrite
    (.boot { s.flash.settled.boot with trial := false, tries := 0, seq := s.flash.settled.boot.seq + 1 })).1

/-- The security-version record that a commit appends, written and measured (R411, R413). -/
def svAppended (s : State) : Option SvRec → State
  | some v => (s.flashWrite (.chain v)).1.extendRun 3 v.digest
  | none => s

theorem doFwCommit_commits (ht : s.su.trial = true) (hg : s.mod.flashGate = false) :
    doFwCommit s c = (svAppended (trialEnded s) s.appends).finish c 0 := by
  simp only [doFwCommit, ht, hg, Bool.not_true, Bool.false_and, Bool.false_eq_true, if_false]
  cases s.appends <;> rfl

theorem doConfigInstall_installs {item : List Byte} {t : Nat} {v : CfgRec} {x : State} (hi : s.item c = item)
    (ht : t = cfgType item) (h0 : s.configCode item = 0)
    (hv : v = ⟨BitVec.ofNat 64 (cfgSeq item), sigKeyId item, Config.sha384 item, Config.cfgBody t (cfgBodyBytes item)⟩)
    (hx : x = (s.flashWrite (.config t v item.length)).1) : doConfigInstall s c =
      (((if 3 ≤ t then { x with su := { x.su with cfg := put t v x.su.cfg } } else x).raise
        { code := 0x2C, info := true, w6 := t * 2 ^ 56 + cfgSeq item % 2 ^ 56, w7 := v.keyId.toNat }).extendRun 4
          v.digest).finish c 0 := by
  subst hx hv ht hi
  simp only [doConfigInstall, h0]

theorem doAttest_reports {rep : List Byte} (hroom : 3584 ≤ bits (c.w 6) 47 0) (hid : s.su.identityOk = true)
    (hrep : rep = s.report ((List.range 4).flatMap (fun i => leBytes 8 (c.w (1 + i))))) :
    doAttest s c = (s.hostWrite (c.w 5) (rep ++ s.reportBlock rep)).finishWith c 3584 0 := by
  subst hrep
  simp only [doAttest, if_neg (Nat.not_lt.mpr hroom), hid, Bool.not_true, Bool.false_eq_true, if_false]
end

/-! ### The commands -/

section
variable {s : State} {f : Fetch} {r : Ring} {c : Cmd}

theorem exec_fwStage_accepted (ha : s.accepts f 0x0F r c) :
    exec (.fwStage f) s = .next (doFwStage (s.consumed f r) c) := congrArg _ (State.command_accepts ha _)

theorem exec_fwSwitch_accepted (ha : s.accepts f 0x10 r c) :
    exec (.fwSwitch f) s = .next (doFwSwitch (s.consumed f r) c) := congrArg _ (State.command_accepts ha _)

theorem exec_fwCommit_accepted (ha : s.accepts f 0x11 r c) :
    exec (.fwCommit f) s = .next (doFwCommit (s.consumed f r) c) := congrArg _ (State.command_accepts ha _)

theorem exec_configInstall_accepted (ha : s.accepts f 0x12 r c) :
    exec (.configInstall f) s = .next (doConfigInstall (s.consumed f r) c) := congrArg _ (State.command_accepts ha _)

theorem exec_attest_accepted (ha : s.accepts f 0x13 r c) :
    exec (.attest f) s = .next (doAttest (s.consumed f r) c) := congrArg _ (State.command_accepts ha _)

/-- A staged image whose write ends is put into the slot that does not run. -/
theorem exec_flashWriteEnd_ends {w : Waiting} {img : FwImage} (hst : s.su.fwStaging = some (w, img))
    (hg : s.mod.flashGate = false) (hr : s.ready = true) : exec .flashWriteEnd s = .next (({ s with
      flash := s.flash.setImage (!s.su.slot) (some img), su := { s.su with fwStaging := none } }.stageEvent
        img.head.svn 0).finishLate w 0x0F 0 0 0 0 0) := by
  show execFlashWriteEnd s = _
  simp only [execFlashWriteEnd, hst, hg, hr, Bool.not_true, Bool.or_self, Bool.false_eq_true, if_false]
end

/-- Settles O13: each command by its effect on the state that the taking of its entry leaves; the end of the write needs
no entry. -/
theorem firmwareCommandsAct : Obligations.FirmwareCommandsAct := by
  refine ⟨?stage, fun _ _ _ hst hg hr => exec_flashWriteEnd_ends hst hg hr, ?switch, ?commit, ?config, ?attest⟩
  case stage =>
    intro s f r c item ha hi hb h0
    rw [← State.consumed_flash s f r, ← State.consumed_su s f r, ← State.consumed_time s f r]
    exact (exec_fwStage_accepted ha).trans (congrArg _ (doFwStage_begins ((consumed_item s f r c).trans hi.symm)
      ((consumed_stageBusy s f r).trans hb) h0))
  case switch =>
    intro s f r c ha h0
    rw [← State.consumed_su s f r, ← State.consumed_time s f r]
    exact (exec_fwSwitch_accepted ha).trans (congrArg _ (doFwSwitch_waits ((consumed_switchCode s f r).trans h0)))
  case commit =>
    intro s f r c b x ha ht hg hb hx
    rw [hb, ← State.consumed_su s f r, ← State.consumed_flash s f r] at hx
    obtain rfl : x = trialEnded (s.consumed f r) := hx
    rw [exec_fwCommit_accepted ha, doFwCommit_commits (by rw [State.consumed_su, ht]) (by rw [State.consumed_mod, hg]),
      consumed_appends]
    exact ⟨fun hnone => by rw [hnone]; rfl, fun v hv => by rw [hv]; rfl⟩
  case config =>
    intro s f r c item t v x ha hi ht h0 hv hx
    rw [exec_configInstall_accepted ha,
      doConfigInstall_installs ((consumed_item s f r c).trans hi.symm) ht h0 hv hx]
  case attest =>
    intro s f r c rep ha hroom hid hrep
    rw [exec_attest_accepted ha, doAttest_reports hroom (by rw [State.consumed_su, hid]) hrep]

end Sys2Proof.Proofs

/-! ## Assays, arrears and ageing (R378 to R394, R411, R419; logs 29, 34) -/

namespace Sys2Proof.Proofs
open Sys2Proof.Machine

/-! ### What the taking of an entry leaves as it was -/

section
variable (s : State) (f : Fetch) (r : Ring)

theorem consumed_erasedLately (k : Nat) : (s.consumed f r).erasedLately k = s.erasedLately k := by
  rw [State.erasedLately, State.consumed_flash, State.erasedLately]
  simp only [State.within24h, State.consumed_time]

theorem consumed_underRequest (p : Nat) : (s.consumed f r).underRequest p = s.underRequest p := by
  rw [State.underRequest, State.consumed_asy, State.underRequest]
end

/-! ### The effect of a command that is not refused, on the state that the taking of its entry leaves -/

section
variable {s : State} {c : Cmd}

theorem doAssayInstall_stores {item : List Byte} {k : Nat} (hg : s.mod.flashGate = false) (hi : s.item c = item)
    (h0 : s.installCode item = 0) (hk : s.flash.slotFor (assaySetOf item).setId = some k) : doAssayInstall s c =
      (((s.storeSet (assaySetOf item) k).extendRun 6 (assaySetOf item).digest).setEvent
        (assaySetOf item).setId (assaySetOf item).setVer 1 0).finish c 0 := by
  simp only [doAssayInstall, hg, hi, h0, hk, Bool.false_eq_true, if_false, if_true]

/-- A set that is found, other than the reserved one, in a slot that was not erased lately may be removed (R380). -/
theorem removeCode_eq_zero {id k : Nat} (hk : s.flash.slotOf id = some k) (h1 : id ≠ 1)
    (hl : s.erasedLately k = false) : s.removeCode id = 0 := by
  simp only [State.removeCode, hk, h1, hl, Bool.false_eq_true, if_false]

theorem doAssayRemove_erases {k : Nat} {x : AssaySet} (hg : s.mod.flashGate = false)
    (hk : s.flash.slotOf (c.w 1) = some k) (hx : s.flash.setById (c.w 1) = some x) (h0 : s.removeCode (c.w 1) = 0) :
    doAssayRemove s c =
      (((s.eraseSet k).extendRun 6 x.digest).setEvent (c.w 1) x.setVer 2 0).finish c 0 := by
  simp only [doAssayRemove, hg, hk, hx, h0, Bool.false_eq_true, if_false, if_true]

theorem doAssayRequest_queues {cores ids : List Nat}
    (hids : ids = if bits (c.w 1) 31 16 = 0 then s.flash.setIds (·.demand) else [bits (c.w 1) 31 16])
    (hcores : s.requestCores (bits (c.w 1) 63 62) (bits (c.w 1) 15 0) = some cores)
    (hset : bits (c.w 1) 31 16 ≠ 0 → (s.flash.setById (bits (c.w 1) 31 16)).isSome = true)
    (hfree : ∀ p ∈ cores, s.underRequest p = false) (hsome : ids ≠ []) (hany : cores ≠ []) : doAssayRequest s c =
      ((s.setAsy { s.asy with
        nextStamp := s.asy.nextStamp + 1, reqs := s.asy.reqs ++ [⟨s.asy.nextStamp, c.waiting, 0⟩] }).queueAssays
          cores ids (.request s.asy.nextStamp) (bit (c.w 1) 61)).assaySettle := by
  have hfound : ¬ (bits (c.w 1) 31 16 ≠ 0 ∧ (s.flash.setById (bits (c.w 1) 31 16)).isNone = true) := fun h => by
    simpa [Option.isNone_iff_eq_none.mp h.2] using hset h.1
  have hnot : cores.any s.underRequest = false := List.any_eq_false.mpr (fun p hp => by simp [hfree p hp])
  simp only [doAssayRequest, hcores, ← hids, if_neg hfound, hnot, List.isEmpty_eq_false_iff.mpr hsome,
    List.isEmpty_eq_false_iff.mpr hany, Bool.false_eq_true, if_false]
end

/-! ### The commands -/

section
variable {s : State} {f : Fetch} {r : Ring} {c : Cmd}

theorem exec_assayInstall_accepted (ha : s.accepts f 0x0C r c) :
    exec (.assayInstall f) s = .next (doAssayInstall (s.consumed f r) c) := congrArg _ (State.command_accepts ha _)

theorem exec_assayRemove_accepted (ha : s.accepts f 0x0D r c) :
    exec (.assayRemove f) s = .next (doAssayRemove (s.consumed f r) c) := congrArg _ (State.command_accepts ha _)

theorem exec_assayRequest_accepted (ha : s.accepts f 0x0E r c) :
    exec (.assayRequest f) s = .next (doAssayRequest (s.consumed f r) c) := congrArg _ (State.command_accepts ha _)
end

/-- Settles O11: each command by its effect on the state that the taking of its entry leaves, whose flash and assays are
as they were. -/
theorem assayCommandsAct : Obligations.AssayCommandsAct := by
  refine ⟨?install, ?remove, ?request⟩
  case install =>
    intro s f r c item k ha hg hi h0 hk
    rw [← State.consumed_flash s f r] at hk
    rw [← State.consumed_mod s f r] at hg
    rw [exec_assayInstall_accepted ha, doAssayInstall_stores hg ((consumed_item s f r c).trans hi.symm) h0 hk]
  case remove =>
    intro s f r c k x ha hg hk hx h1 hl
    rw [← State.consumed_flash s f r] at hk hx
    rw [← State.consumed_mod s f r] at hg
    have h0 := removeCode_eq_zero hk h1 ((consumed_erasedLately s f r k).trans hl)
    rw [exec_assayRemove_accepted ha, doAssayRemove_erases hg hk hx h0]
  case request =>
    intro s f r c cores ids ha hids hcores hset hfree hsome hany
    rw [← State.consumed_flash s f r] at hids hset
    rw [← State.consumed_asy s f r]
    exact (exec_assayRequest_accepted ha).trans (congrArg _ (doAssayRequest_queues hids hcores hset
      (fun p hp => (consumed_underRequest s f r p).trans (hfree p hp)) hsome hany))

/-! ### The rotation, the runs and the arrears -/

section
variable (s : State)

theorem exec_assayRotation (die : Nat) : exec (.assayRotation die) s = execAssayRotation die s := rfl
theorem exec_assayRunEnd (core : Nat) (run : AssayRun) :
    exec (.assayRunEnd core run) s = execAssayRunEnd core run s := rfl
theorem exec_assayRunLimit (core : Nat) : exec (.assayRunLimit core) s = execAssayRunLimit core s := rfl
theorem exec_arrearsPromoted (user arrears : Nat) :
    exec (.arrearsPromoted user arrears) s = execArrearsPromoted user arrears s := rfl
theorem exec_ageing (meas : List RegionMeas) : exec (.ageing meas) s = execAgeing meas s := rfl
end

/-- The rotation's assay of a core, before its turn (R383). -/
def rotationJob (p : Nat) (ids : List Nat) : AssayJob :=
  { core := p, why := .rotation, ids := ids, cur := none, started := false, force := false
    wasFenced := false, fail := none, worst := 0 }

section
variable {s : State}

theorem exec_assayRotation_queues {u v : State} {die p : Nat} {ids : List Nat} (hh : s.held = false)
    (hr : s.ready = true) (hen : s.asy.rotEn = true) (hu : u = s.newPass)
    (hfree : ∀ j ∈ u.asy.jobs, j.why = .rotation → j.core / 144 ≠ die) (hp : u.rotationNext die = some p)
    (hids : ids = (u.flash.setIds (·.rotation)).filter (fun i => !u.asy.late.contains i)) (hsome : ids ≠ [])
    (hv : v = (u.setAsy { u.asy with streams := put die (p + 1) u.asy.streams }).reachThird p ids) :
    exec (.assayRotation die) s =
      .next (v.setAsy { v.asy with jobs := v.asy.jobs ++ [rotationJob p ids] }).assaySettle := by
  subst hv hids hu
  have hnone : s.newPass.asy.jobs.any (fun j => decide (j.why = .rotation) && decide (j.core / 144 = die)) = false :=
    List.any_eq_false.mpr (fun j hj => by simpa using hfree j hj)
  simp only [exec_assayRotation, execAssayRotation, hh, hr, hen, hnone, hp, List.isEmpty_eq_false_iff.mpr hsome,
    Bool.not_true, Bool.or_self, Bool.false_eq_true, if_false]
  rfl

section
variable {core : Nat} {run : AssayRun} {j : AssayJob} {x : AssaySet} (ha : s.assayOf core = some (j, x))
  (hh : s.held = false) (hr : s.ready = true)
include ha hh hr

/-- A run without an event has the outcome of its judged vectors, once one has failed or all have answered (R387). -/
theorem exec_assayRunEnd_judged (he : run.event = false) {t : State} {failed : Option (Nat × W64)}
    (hj : s.judge x core false (decide (j.why = .rotation) && j.fail.isNone) 0 (x.vecs.zip (s.runDigests core x run))
      = (t, failed)) (hend : failed.isSome = true ∨ x.vecs.length ≤ run.digests.length) :
    exec (.assayRunEnd core run) s = .next (t.assayOutcome j x run.digests.length failed) := by
  simp only [exec_assayRunEnd, execAssayRunEnd, ha, hh, hr, he, hj, Bool.not_true, Bool.or_self, Bool.false_eq_true,
    if_false]
  cases failed with
  | some d => simp
  | none =>
    have hlen : x.vecs.length ≤ run.digests.length := by simpa using hend
    simp [hlen]

/-- A run over its limit fails at a vector and a digest that the spec does not give (R385; log 29). -/
theorem exec_assayRunLimit_fails : ∃ (v : Nat) (d : W64), v ≤ x.vecs.length ∧ exec (.assayRunLimit core) s =
    .next ({ s with freeCtr := s.freeCtr + 1 }.assayOutcome j x v (some (v, d))) := by
  refine ⟨Config.freeNat (s.freeCtr * 16384) % (x.vecs.length + 1),
    BitVec.ofNat 64 (Config.freeNat (s.freeCtr * 16384 + 1)), Nat.le_of_lt_succ (Nat.mod_lt _ (Nat.succ_pos _)), ?_⟩
  simp only [exec_assayRunLimit, execAssayRunLimit, ha, hh, hr, Bool.not_true, Bool.or_self, Bool.false_eq_true,
    if_false]
end

section
variable {user arrears : Nat} {u : State} (hr : s.ready = true) (hp : user ∉ s.asy.promoted)
  (hu : u = s.noteItem user arrears)
include hr hp hu

/-- Arrears that reach no limit are noted (R390). -/
theorem exec_arrearsPromoted_below
    (h : arrearsLimit user (nthD 0 u.asy.arrLimit user).toNat (u.arrears user) = none) :
    exec (.arrearsPromoted user arrears) s = .next u := by
  subst hu
  rw [exec_arrearsPromoted, execArrearsPromoted, if_neg (by simp [hr, hp])]
  simp only [h]

/-- A user whose oldest item has waited up to a limit is promoted, with its event (R390). -/
theorem exec_arrearsPromoted_promotes {l : Nat}
    (h : arrearsLimit user (nthD 0 u.asy.arrLimit user).toNat (u.arrears user) = some l) :
    exec (.arrearsPromoted user arrears) s = .next ((u.setAsy { u.asy with
      promoted := insertNat user u.asy.promoted }).raise
        { code := 0x24, info := true, w6 := (user + 1) * 2 ^ 56 + u.arrears user % 2 ^ 32, w7 := l }) := by
  subst hu
  rw [exec_arrearsPromoted, execArrearsPromoted, if_neg (by simp [hr, hp])]
  simp only [h]
end
end

/-! ### The hourly re-plan's entries (R394, R419) -/

/-- The write of an hour's entries, from the ledger's next entry on. -/
def ageingWrite (u : State) (all : List W256) : FlashWrite :=
  .ageing ((List.range all.length).map (fun i => (u.flash.ageNext + i, nthD 0 all i)))

section
variable {u v : State} {es all : List W256} (hall : all = u.asy.ageHeld ++ es)
include hall

theorem ageWrite_written (hw : u.flashWrite (ageingWrite u all) = (v, true)) : u.ageWrite es = { v with
    flash := { v.flash with ageNext := v.flash.ageNext + all.length }, asy := { v.asy with ageHeld := [] } } := by
  subst hall
  rw [ageingWrite] at hw
  simp only [State.ageWrite, hw, if_true]

theorem ageWrite_held (hw : u.flashWrite (ageingWrite u all) = (v, false)) :
    u.ageWrite es = { v with asy := { v.asy with ageHeld := all } } := by
  subst hall
  rw [ageingWrite] at hw
  simp only [State.ageWrite, hw, Bool.false_eq_true, if_false]
end

section
variable {s : State} {meas : List RegionMeas}

theorem exec_ageing_capped (hc : s.mod.sagCap = true) : exec (.ageing meas) s = .next s :=
  if_pos (by simp [hc])

theorem exec_ageing_replans {u : State} {es : List W256} (hh : s.held = false) (hr : s.ready = true)
    (hc : s.mod.sagCap = false)
    (hu : (u, es) = replanAll 0 (meas.take 32) (s.setAsy { s.asy with agedAt := s.time }) []) :
    exec (.ageing meas) s = .next (u.ageWrite es).settle := by
  rw [exec_ageing, execAgeing, if_neg (by simp [hh, hr, hc]), ← hu]
end

/-- Settles O26: each event under its rule's conditions; a run by what its vectors are judged to be, ageing by whether
flash takes the entries. -/
theorem assayEventsAct : Obligations.AssayEventsAct := by
  refine ⟨?rotation, ?runEnd, fun _ _ _ _ ha hh hr => exec_assayRunLimit_fails ha hh hr, ?arrears, ?ageing⟩
  case rotation =>
    intro s u v die p ids hh hr hen hu hfree hp hids hsome hv
    exact exec_assayRotation_queues hh hr hen hu hfree hp hids hsome hv
  case runEnd =>
    intro s core run j x ha hh hr he
    refine ⟨fun f hf => ?_, fun hnone hlen => ?_⟩
    · exact exec_assayRunEnd_judged ha hh hr he (Prod.ext rfl hf) (.inl rfl)
    · exact exec_assayRunEnd_judged ha hh hr he (Prod.ext rfl hnone) (.inr hlen)
  case arrears =>
    exact fun s u user arrears hr hp hu =>
      ⟨exec_arrearsPromoted_below hr hp hu, fun l => exec_arrearsPromoted_promotes hr hp hu⟩
  case ageing =>
    intro s u v es all meas ok hh hr
    refine ⟨exec_ageing_capped, fun hc hu hall hw => ?_⟩
    rw [exec_ageing_replans hh hr hc hu]
    refine ⟨?_, ?_⟩
    · rintro rfl
      rw [ageWrite_written hall hw.symm]
    · rintro rfl
      rw [ageWrite_held hall hw.symm]

end Sys2Proof.Proofs

/-! ## Power-up, power loss and recovery (R418, R421, R426, R432, R434, R436, R458; logs 5, 32, 33) -/

namespace Sys2Proof.Proofs
open Sys2Proof.Machine

/-! ### POWER_UP (Table 15-8) -/

section
variable (s : State) (env : StartEnv)

/-- A state that has just lost everything but flash and measurements, at time 0 with module `m`. -/
def coldBare (m : Module) : State :=
  { s.bare with i3c := ⟨none, true⟩, mod := m, time := 0, flash := s.flash.restart.since s.time }

theorem coldBare_setMod (m x : Module) : { coldBare s m with mod := x } = coldBare s x := by
  simp only [coldBare]

theorem exec_powerUp : exec (.powerUp env) s = execPowerUp env s := rfl

/-- Nothing is left of the jobs, and start-up adds nothing. -/
theorem coldBare_startUp_work (m : Module) : ((coldBare s m).startUp env).work = State.reset.work :=
  State.startUp_to _ env rfl
end

theorem powers_eq_false {env : StartEnv} (h : env.mref = false ∨ env.inMv < 46000) : powers env = false := by
  rcases h with h | h <;> simp [powers, h]

theorem powers_eq_true {env : StartEnv} (hm : env.mref = true) (hv : 46000 ≤ env.inMv) : powers env = true := by
  simp [powers, hm, hv]

theorem exec_powerUp_on {s : State} (env : StartEnv) (h : s.mod.pwrEn = true) : exec (.powerUp env) s = .next s :=
  if_pos h

section
variable {s : State} {env : StartEnv} {m : Module} (hoff : s.mod.pwrEn = false) (hm : m = s.mod.powered env false)
include hoff hm

theorem exec_powerUp_unpowered (hp : powers env = false) :
    exec (.powerUp env) s = .next (coldBare s { m with mgmtUp := false }) := by
  subst hm
  simp only [exec_powerUp, execPowerUp, hoff, hp, Bool.not_false, Bool.false_eq_true, if_false, if_true]
  rfl

theorem exec_powerUp_railsUp (hp : powers env = true) (hr : env.rail = none) :
    exec (.powerUp env) s = .next ((coldBare s { m with railsUp := true }).startUp env) := by
  subst hm
  simp only [exec_powerUp, execPowerUp, hoff, hp, hr, Bool.not_true, Bool.false_eq_true, if_false]
  rfl

variable {r : RailAnswer} (hp : powers env = true) (hr : env.rail = some r)
include hp hr

/-- A region's rail that fails is latched; start-up runs, with its regulator restarted or its region fenced (R436). -/
theorem exec_powerUp_regionRail (hreg : r.rail < 32) : exec (.powerUp env) s = .next ((coldBare s { m with
    railsUp := true
    railLatch := some (railWords r.rail r.cause (if r.restarted then 1 else 2) r.mv) }).startUp env) := by
  subst hm
  simp only [exec_powerUp, execPowerUp, hoff, hp, hr, hreg, Bool.not_true, Bool.false_eq_true, if_false, if_true]
  rfl

theorem exec_powerUp_otherRail (hreg : 32 ≤ r.rail) : exec (.powerUp env) s = .next (coldBare s { m with
    railFault := true, railLatch := some (railWords r.rail r.cause 3 r.mv) }).alertEdge := by
  subst hm
  simp only [exec_powerUp, execPowerUp, hoff, hp, hr, if_neg (Nat.not_lt.mpr hreg), Bool.not_true, Bool.false_eq_true,
    if_false]
  rfl
end

/-! ### FINISH in the recovery window (R421, R458) -/

theorem exec_finish (s : State) (env : StartEnv) : exec (.finish env) s = .next (s.recFinish env) := rfl

/-- Flash with a recovery image in slot A, settled and active. -/
def recovered (s : State) (item : List Byte) : Flash :=
  (s.flash.setImage false (some (s.imageOf item))).setBoot ⟨false, false, 0, s.flash.boot.seq + 1⟩

section
variable {s : State} (env : StartEnv)

theorem recFinish_elsewhere (hph : s.su.phase ≠ 0xE) : s.recFinish env = s := if_pos hph

variable (hph : s.su.phase = 0xE)
include hph

theorem recFinish_empty (hp : s.su.rcv.pieces = []) : s.recFinish env = s.setRcv { s.su.rcv with status := 4 } := by
  simp only [State.recFinish, hph, hp, ne_eq, not_true, if_false, List.isEmpty_nil, if_true]

variable (hp : s.su.rcv.pieces ≠ [])
include hp

theorem recFinish_fails (hi : s.recoveryImage = none) :
    s.recFinish env = s.setRcv { Recovery.reset with status := 4 } := by
  simp only [State.recFinish, hph, hi, List.isEmpty_eq_false_iff.mpr hp, ne_eq, not_true, Bool.false_eq_true, if_false]

variable {item : List Byte} (hi : s.recoveryImage = some item)
include hi

theorem recFinish_waits (hg : s.mod.flashGate = true) :
    s.recFinish env = s.setRcv { s.su.rcv with status := 2, waiting := some env } := by
  simp only [State.recFinish, hph, hi, hg, List.isEmpty_eq_false_iff.mpr hp, ne_eq, not_true, Bool.false_eq_true,
    if_false, if_true]

theorem recFinish_installs (hg : s.mod.flashGate = false) : s.recFinish env =
    ({ { s with flash := recovered s item }.warmBare with flash := recovered s item }.startUp env).setRcv
      { Recovery.reset with status := 3 } := by
  simp only [State.recFinish, hph, hi, hg, List.isEmpty_eq_false_iff.mpr hp, ne_eq, not_true, Bool.false_eq_true,
    if_false]
  rfl
end

/-! ### POWER_LOSS (R427, R432) -/

/-- A state whose rails and management rails are down: no sensor reports, and the latched causes stand. -/
def unpowered (s : State) (mv : Nat) (pwrEn : Bool) : State := { s.railsOff 0 false with
  i3c := ⟨none, true⟩
  regions := (s.railsOff 0 false).regions.map (fun x => (x.1, { x.2 with tAlert := false }))
  mod := { (s.railsOff 0 false).mod with
    baseAlert := [], hbmAlert := [], coolAlert := false
    inMv := mv, mgmtUp := false, pwrEn := s.mod.pwrEn && pwrEn, thermTrip := s.mod.thermTrip && pwrEn
    railFault := false, alertPrev := false } }

section
variable (s : State) {mv : Nat} {pwrEn : Bool}

theorem exec_powerLoss_stays (hv : 40000 ≤ mv) (hp : pwrEn = true) : exec (.powerLoss mv pwrEn) s = .next s :=
  if_pos ⟨hv, hp⟩

theorem exec_powerLoss_falls (h : mv < 40000 ∨ pwrEn = false) :
    exec (.powerLoss mv pwrEn) s = .next (unpowered s mv pwrEn) := by
  refine if_neg ?_
  rintro ⟨hv, rfl⟩
  rcases h with h | h
  · omega
  · cases h
end

/-- Settles O15: a power-up by the input and the rail that fails, FINISH by the window and the image, a power loss by
its threshold. -/
theorem powerAndRecoveryStartUp : Obligations.PowerAndRecoveryStartUp := by
  refine ⟨?up, fun s env => exec_powerUp_on env, ?recovers, ?finish, fun s _ _ => exec_powerLoss_stays s, ?loss⟩
  case up =>
    intro s env m b hoff hm hb
    obtain rfl : b = coldBare s m := hb
    simp only [coldBare_setMod]
    refine ⟨fun h => exec_powerUp_unpowered hoff hm (powers_eq_false h), fun hmref hv hr => ?up, ?region, ?other,
      rfl, rfl, rfl, ?_⟩
    case up =>
      exact ⟨_, exec_powerUp_railsUp hoff hm (powers_eq_true hmref hv) hr, rfl, coldBare_startUp_work s env _⟩
    case region =>
      rintro r v hmref hv hr hreg rfl
      exact ⟨_, exec_powerUp_regionRail hoff hm (powers_eq_true hmref hv) hr hreg, rfl, coldBare_startUp_work s env _⟩
    case other =>
      rintro r v hmref hv hr hreg rfl
      exact exec_powerUp_otherRail hoff hm (powers_eq_true hmref hv) hr hreg
    · subst hm
      exact ⟨rfl, rfl, rfl, rfl, rfl, rfl⟩
  case recovers =>
    rintro s u env item f hph hp hi hg rfl rfl
    refine ⟨_, (exec_finish s env).trans (congrArg _ (recFinish_installs env hph hp hi hg)), rfl, rfl, ?_⟩
    rw [State.setRcv_work]
    exact State.startUp_to _ env rfl
  case finish =>
    exact fun s env => ⟨fun h => congrArg _ (recFinish_elsewhere env h),
      fun h hp => congrArg _ (recFinish_empty env h hp),
      fun h hp hi => congrArg _ (recFinish_fails env h hp hi),
      fun item h hp hi hg => congrArg _ (recFinish_waits env h hp hi hg)⟩
  case loss =>
    intro s mv p h
    exact ⟨unpowered s mv p, exec_powerLoss_falls s h, rfl, rfl, rfl, rfl, rfl, rfl, rfl, rfl, rfl, rfl, rfl, rfl⟩

end Sys2Proof.Proofs
